-- ==== Sys2Proof/Word.lean ====
section
/-! DEFINITION. Words, rows and bytes of the module, and reading a field of a word (00:R3, R4, R5). -/

namespace Sys2Proof

/-- A 64-bit scalar, instruction or memory word (09:R143, R151). -/
abbrev Word := BitVec 64

/-- One byte of memory (00:R5). -/
abbrev Byte := BitVec 8

/-- A bank row or plane register: bit j belongs to lane j (00:R5). -/
abbrev Row := BitVec 1024

/-- An 18-bit cell id: hall, gallery, cell (01:R21). -/
abbrev CellId := BitVec 18

/-- `x[lo + len - 1 : lo]` of a number read as an unsigned integer (00:R4). -/
def bitsOf (x lo len : Nat) : Nat := x / 2 ^ lo % 2 ^ len

/-- The two's-complement value of the low `n` bits of `x` (00:R12, SignExtend). -/
def signExt (x n : Nat) : Int :=
  let v := x % 2 ^ n
  if n = 0 then 0 else if 2 ^ (n - 1) ≤ v then (v : Int) - (2 ^ n : Nat) else (v : Int)

/-- `Sat(x, lo, hi)` (00:R12). -/
def satInt (x lo hi : Int) : Int := if x < lo then lo else if hi < x then hi else x

/-- `x mod 2^n` of an integer, as the unsigned pattern a store of n bits keeps (00:R10). -/
def wrapInt (x : Int) (n : Nat) : Nat := (x % (2 ^ n : Nat)).toNat

end Sys2Proof
end

