-- ==== Sys2Proof/Syntax.lean ====
section
/-! DEFINITION. The syntax of every step of the module: the instructions of the eleven classes (09:R144, R153),
the words that are none (09:R149), the messages (09:R156), the host commands (25:R361) and the events of the module's
own agents (spec/opcode_table.json). One constructor a row. -/

namespace Sys2Proof

/-- A 6-bit scalar source: a scalar register or the payload of an in-token (09:R146). -/
inductive Spec where
  | s (r : BitVec 5)
  | inp (i : BitVec 2)
deriving DecidableEq, Repr

/-- The condition codes (09:R148). -/
inductive Cond where
  | eq | ne | lt | ge | ltu | geu | gt | le | gtu | leu | tst
deriving DecidableEq, Repr

/-- Access sizes (09:R148). -/
inductive Size where
  | b | h | w | d
deriving DecidableEq, Repr

/-- Scopes, narrowest first (07:R111). -/
inductive Scope where
  | cell | gallery | hall | device | system
deriving DecidableEq, Repr

/-- Guard of the classes that allow one: predicate register and sense (09:R145). -/
structure Guard where
  p : BitVec 3
  neg : Bool
deriving DecidableEq, Repr

/-- Predicate of a token (05:R61). -/
inductive TPred where
  | none | false | true | null
deriving DecidableEq, Repr

/-- The token kinds an instruction of class TK sends (09:R147). -/
inductive TkKind where
  | data | plane | scale | ctrl
deriving DecidableEq, Repr

/-- Conditions of WAITF (17:R255). -/
inductive WaitCond where
  | ne | eq | geu
deriving DecidableEq, Repr

/-- The special registers (09:R152). -/
inductive SReg where
  | cyc | phcS | phcNs | coord | stage | ctxid | iter | ver | calldepth | callmax | split | lfsrseed
  | stall0 | stall1 | stall2 | stall3 | promlog | accsat | lateCnt | trapcause | trapaddr | trapinfo | epc
deriving DecidableEq, Repr

/-- Operands of a three-operand PL instruction (13:R190, "3-op"); `n1` is n − 1, `mask` is the register of MASK. -/
structure Pl3 where
  bd : BitVec 9
  ba : BitVec 9
  bb : BitVec 9
  pp : BitVec 2
  n1 : BitVec 5
  mask : Option (BitVec 3)
deriving DecidableEq, Repr

/-- Operands of a two-operand PL instruction (13:R190, "2-op"). -/
structure Pl2 where
  bd : BitVec 9
  ba : BitVec 9
  pp : BitVec 2
  n1 : BitVec 5
  mask : Option (BitVec 3)
deriving DecidableEq, Repr

/-- Direction of a compare-exchange (13:R199). -/
inductive CexDir where
  | asc | desc | bit (h : BitVec 4)
deriving DecidableEq, Repr

/-- The operation of PREDUCE (13:R195). -/
inductive RedOp where
  | sum | min | max
deriving DecidableEq, Repr

/-- Source of a matrix A operand: rows with the lane half of HALF(ha, ·), or the latch (15:R221, R225). -/
inductive MatA where
  | rows (ba : BitVec 9) (ha : Bool)
  | latch
deriving DecidableEq, Repr

/-- Queue, ordering and stream of an engine request (19:R286). -/
structure QSel where
  eq : BitVec 4
  ord : Bool
  sid : BitVec 8
deriving DecidableEq, Repr

/-- A MSG word without its kind (09:R155). -/
structure Msg where
  dst : CellId
  poison : Bool
  ver : Bool
  op : BitVec 6
  handler : BitVec 8
  ccell : CellId
  ctag : BitVec 8
  operand : Word
deriving DecidableEq, Repr

/-- A 32-byte command message (25:R359). -/
structure Cmd where
  arg : Word
  maddr : Word
  haddr : Word
  len : BitVec 32
  ctx : BitVec 16
  code : BitVec 16
deriving DecidableEq, Repr

/-- The data of a turn at which a DRAM transfer ends (27:R380): hall, channel, direction, the 4 KiB block, the lines of the block
that a write sends, the parity failures of this attempt as (beat, group), and the corrected and uncorrectable codewords the die
reports. -/
structure VbusTransfer where
  hall : Nat
  channel : Nat
  write : Bool
  block : Nat
  lines : List Nat
  fails : List (Nat × Nat)
  corrected : List (Nat × Nat)
  uncorrectable : List (Nat × Nat)
deriving DecidableEq, Repr

/-- What the turn of an event settles: which of the agents' parts the event is about, and the data that comes from
outside the module. An event reads the fields its meaning names; the events stand without operands in `Instr`. -/
structure Choice where
  /-- place of a packet in flight, of a walk or of an entry -/
  n : Nat := 0
  /-- place of a request, an operation or a write-back -/
  k : Nat := 0
  /-- entry of the meridian queue -/
  e : Nat := 0
  cell : CellId := 0
  ver : Bool := false
  node : Nat := 0
  slot : Nat := 0
  ctx : BitVec 10 := 0
  iter : BitVec 12 := 0
  /-- plane index and segment of a firing's key -/
  plane : BitVec 9 := 0
  /-- block tag of a firing's key -/
  scale : BitVec 5 := 0
  /-- place of a binding in its version -/
  rtag : BitVec 9 := 0
  cfg : Nat := 0
  hall : BitVec 3 := 0
  eq : BitVec 4 := 0
  /-- the loader's choice of a cell for each node without a fixed hint -/
  place : List (Nat × CellId) := []
  /-- the CP's draw of a free context id -/
  draw : BitVec 10 := 0
  /-- retraining succeeded; the frame check held; the codeword is correctable -/
  ok : Bool := false
  src : Nat := 0
  dst : Nat := 0
  port : BitVec 5 := 0
  bytes : List Byte := []
  peer : BitVec 8 := 0
  pctx : BitVec 10 := 0
  addr : Word := 0
  amount : BitVec 32 := 0
  lanes : Row := 0
  row : Row := 0
  poison : Bool := false
  vbus : VbusTransfer := ⟨0, 0, false, 0, [], [], [], []⟩
  offset : Nat := 0
  syndrome : BitVec 10 := 0
  /-- a sensor's reading -/
  reading : BitVec 16 := 0
  /-- vertical channels (hall, channel) that fail training in one half, and in both -/
  failOne : List (Nat × Nat) := []
  failBoth : List (Nat × Nat) := []
  /-- rows that a peer has acknowledged, by request -/
  acked : List (Nat × Nat) := []
deriving DecidableEq, Repr

/-- A step of the module: one constructor for each row of the opcode table. The steps with operands stand first,
those without after them. -/
inductive Instr where
  -- SR, class 0x0
  | add (sd : BitVec 5) (sa sb : Spec)
  | sub (sd : BitVec 5) (sa sb : Spec)
  | mul (sd : BitVec 5) (sa sb : Spec)
  | mulh (sd : BitVec 5) (sa sb : Spec)
  | mulhu (sd : BitVec 5) (sa sb : Spec)
  | divu (sd : BitVec 5) (sa sb : Spec)
  | remu (sd : BitVec 5) (sa sb : Spec)
  | and (sd : BitVec 5) (sa sb : Spec)
  | or (sd : BitVec 5) (sa sb : Spec)
  | xor (sd : BitVec 5) (sa sb : Spec)
  | andn (sd : BitVec 5) (sa sb : Spec)
  | shl (sd : BitVec 5) (sa sb : Spec)
  | shr (sd : BitVec 5) (sa sb : Spec)
  | sra (sd : BitVec 5) (sa sb : Spec)
  | rot (sd : BitVec 5) (sa sb : Spec)
  | min (sd : BitVec 5) (sa sb : Spec)
  | max (sd : BitVec 5) (sa sb : Spec)
  | minu (sd : BitVec 5) (sa sb : Spec)
  | maxu (sd : BitVec 5) (sa sb : Spec)
  | clz (sd : BitVec 5) (sa : Spec)
  | popc (sd : BitVec 5) (sa : Spec)
  | bfx (sd : BitVec 5) (sa : Spec) (pos len1 : BitVec 6)
  | bfi (sd : BitVec 5) (sa sb : Spec) (pos len1 : BitVec 6)
  | madd (sd : BitVec 5) (sa sb sc : Spec)
  | addr (sd : BitVec 5) (sa sb : Spec) (sh : BitVec 4)
  | cmp (cc : Cond) (pd : BitVec 3) (sa sb : Spec)
  | sel (sd : BitVec 5) (ps : BitVec 3) (sa sb : Spec)
  -- SI, class 0x1
  | addi (sd : BitVec 5) (sa : Spec) (imm : BitVec 32)
  | muli (sd : BitVec 5) (sa : Spec) (imm : BitVec 32)
  | andi (sd : BitVec 5) (sa : Spec) (imm : BitVec 32)
  | ori (sd : BitVec 5) (sa : Spec) (imm : BitVec 32)
  | xori (sd : BitVec 5) (sa : Spec) (imm : BitVec 32)
  | shli (sd : BitVec 5) (sa : Spec) (n : BitVec 6)
  | shri (sd : BitVec 5) (sa : Spec) (n : BitVec 6)
  | srai (sd : BitVec 5) (sa : Spec) (n : BitVec 6)
  | roti (sd : BitVec 5) (sa : Spec) (n : BitVec 6)
  | mini (sd : BitVec 5) (sa : Spec) (imm : BitVec 32)
  | maxi (sd : BitVec 5) (sa : Spec) (imm : BitVec 32)
  | cmpi (cc : Cond) (pd : BitVec 3) (sa : Spec) (imm : BitVec 32)
  | li (sd : BitVec 5) (imm : BitVec 32)
  | lih (sd : BitVec 5) (sa : Spec) (imm : BitVec 32)
  -- BR, class 0x2
  | br (target : BitVec 9)
  | brp (pt : BitVec 3) (ptn : Bool) (target : BitVec 9)
  | call (target : BitVec 9)
  | loop (sa : Spec) (target limit : BitVec 9)
  | pand (pd pe pf : BitVec 3)
  | por (pd pe pf : BitVec 3)
  | pxor (pd pe pf : BitVec 3)
  | pnot (pd pe : BitVec 3)
  | pset (pd : BitVec 3) (v : Bool)
  -- PL, class 0x3
  | padd (o : Pl3)
  | psub (o : Pl3)
  | pmul (o : Pl3)
  | pmac (o : Pl3)
  | pneg (o : Pl2)
  | pabs (o : Pl2)
  | pmin (o : Pl3)
  | pmax (o : Pl3)
  | pmov (o : Pl2)
  | pshl (o : Pl2) (sh : BitVec 5)
  | pshr (o : Pl2) (sh : BitVec 5)
  | psra (o : Pl2) (sh : BitVec 5)
  | pcmp (cc : Cond) (qd : BitVec 3) (ba bb : BitVec 9) (pp : BitVec 2) (mask : Option (BitVec 3))
  | psel (bd ba bb : BitVec 9) (pp : BitVec 2) (n1 : BitVec 5) (qs : BitVec 3)
  | qand (qd qm qk : BitVec 3)
  | qor (qd qm qk : BitVec 3)
  | qxor (qd qm qk : BitVec 3)
  | qandn (qd qm qk : BitVec 3)
  | qnot (qd qm : BitVec 3)
  | qld (qd : BitVec 3) (ba : BitVec 9) (mask : Option (BitVec 3))
  | qst (bd : BitVec 9) (qd : BitVec 3) (mask : Option (BitVec 3))
  | plz (o : Pl2)
  | ppopc (o : Pl2)
  | ptrimLane (o : Pl2)
  | ptrimBlk (o : Pl2)
  | preduce (op : RedOp) (o : Pl2) (g : BitVec 5)
  | pbcast (o : Pl2) (lane : BitVec 10)
  | plut (o : Pl3)
  | cex (dir : CexDir) (o : Pl2) (g : BitVec 5)
  | cexi (dir : CexDir) (o : Pl3) (g : BitVec 5)
  | pexp2 (o : Pl2) (f : BitVec 5) (g : BitVec 4)
  | plog2 (o : Pl2) (f : BitVec 5) (g : BitVec 4)
  -- CV, class 0x4
  | cvt (bd ba : BitVec 9) (pp : BitVec 2) (fmtd fmts : BitVec 5) (mask : Option (BitVec 3))
  | cvts (bd : BitVec 9) (sa : Spec) (pp : BitVec 2) (fmtd fmts : BitVec 5) (mask : Option (BitVec 3))
  | prdTrunc (bd ba : BitVec 9) (pp : BitVec 2) (fmts k1 : BitVec 5) (mask : Option (BitVec 3))
  | prdRound (bd ba : BitVec 9) (pp : BitVec 2) (fmts k1 : BitVec 5) (mask : Option (BitVec 3))
  | pwr (bd ba : BitVec 9) (pp : BitVec 2) (fmtd k1 : BitVec 5) (mask : Option (BitVec 3))
  | quant (keep : Bool) (bd ba : BitVec 9) (pp : BitVec 2) (fmtd fmts : BitVec 5) (tsel : BitVec 3) (mask : Option (BitVec 3))
  | sclMax (bd ba : BitVec 9) (pp : BitVec 2) (fmtd fmts : BitVec 5) (tsel : BitVec 3) (mask : Option (BitVec 3))
  | sclGet (bd ba : BitVec 9) (fmts : BitVec 5) (mask : Option (BitVec 3))
  | sclPut (bd : BitVec 9) (sa : Spec) (fmtd : BitVec 5) (mask : Option (BitVec 3))
  | deq (bd ba : BitVec 9) (pp : BitVec 2) (fmtd fmts : BitVec 5) (mask : Option (BitVec 3))
  | lfsrSeed (sa : Spec)
  -- MX, class 0x5
  | ppset (pp : BitVec 2) (sa : Spec)
  | ppget (sd : BitVec 5) (pp : BitVec 2)
  | gather (pp : BitVec 2) (bt : BitVec 9) (sa : Spec)
  | mma (ad pp : BitVec 2) (a : MatA) (bb : BitVec 9) (hb : Bool)
  | mmaS1 (ad pp : BitVec 2) (a : MatA) (bb : BitVec 9) (sm : Spec)
  | mmaS2 (ad pp : BitVec 2) (a : MatA) (bb : BitVec 9) (sm : Spec)
  | mmaS4 (ad pp : BitVec 2) (a : MatA) (bb : BitVec 9) (sm : Spec)
  | mmaX (ad pp : BitVec 2) (a : MatA) (bb : BitVec 9) (inP inQ : BitVec 2) (hb : Bool)
  | accz (ad : BitVec 2)
  | accrd (bd : BitVec 9) (ad pp : BitVec 2) (fmt : BitVec 5) (sl sh : Spec)
  | accaddTile (ad src pp : BitVec 2)
  | accaddRows (ad pp : BitVec 2) (ba : BitVec 9) (sl : Spec)
  | regionCfg (sw : Spec)
  | sweepG (v : Bool) (sc : Spec)
  | sweepR (v start : Bool)
  | optAddc (bw bu : BitVec 9) (pp : BitVec 2) (mask : Option (BitVec 3))
  | optSgd (bw bg : BitVec 9) (pp : BitVec 2) (sh : Spec) (mask : Option (BitVec 3))
  | optMom (bw bg : BitVec 9) (pp : BitVec 2) (sm sh : Spec) (mask : Option (BitVec 3))
  | optAdam2 (bv bg : BitVec 9) (pp : BitVec 2) (sh : Spec) (mask : Option (BitVec 3))
  | optEma (be bw : BitVec 9) (pp : BitVec 2) (sh : Spec) (mask : Option (BitVec 3))
  -- TK, class 0x6
  | send (g : Guard) (op : BitVec 2) (sa : Spec) (pred : TPred) (aux : BitVec 9) (kind : TkKind)
  | sendn (g : Guard) (op : BitVec 2)
  | steer (g : Guard) (hi : Bool) (sa : Spec) (pt : BitVec 3) (aux : BitVec 9) (kind : TkKind)
  | selectP (g : Guard) (sd : BitVec 5) (sa sb : Spec) (pt : BitVec 3)
  | selectNN (g : Guard) (sd : BitVec 5) (ia ib : BitVec 2) (pt : BitVec 3)
  | dup (g : Guard) (ports : BitVec 4) (sa : Spec) (pred : TPred) (aux : BitVec 9) (kind : TkKind)
  | eos (g : Guard) (op : BitVec 2)
  | tagget (g : Guard) (sd : BitVec 5)
  | tagset (g : Guard) (sa : Spec)
  | loopbIssue (g : Guard) (sd : BitVec 5) (op : BitVec 2) (sa : Spec) (pred : TPred) (aux : BitVec 9) (kind : TkKind)
  | loopbRetire (g : Guard) (sa : Spec)
  | blk (g : Guard) (rtag : BitVec 8)
  | unblk (g : Guard) (rtag : BitVec 8)
  | waitt (g : Guard) (sa : Spec)
  | waitf (g : Guard) (c : WaitCond) (scope : Scope) (sd : BitVec 5) (sa sb : Spec)
  | msend (g : Guard) (sa sb : Spec)
  -- ME, class 0x7
  | ld (g : Guard) (sd : BitVec 5) (sa : Spec) (size : Size) (sx : Bool)
  | ldWave (g : Guard) (sd : BitVec 5) (sa : Spec) (size : Size) (sx : Bool) (ws wp wq : BitVec 8)
  | st (g : Guard) (sa sb : Spec) (size : Size)
  | stWave (g : Guard) (sa sb : Spec) (size : Size) (ws wp wq : BitVec 8)
  | ldp (g : Guard) (sd : BitVec 5) (sa : Spec)
  | stp (g : Guard) (sa sb : Spec)
  | ldpr (g : Guard) (sd : BitVec 5) (sa : Spec)
  | stpr (g : Guard) (sa sb : Spec)
  | lda (g : Guard) (scope : Scope) (sd : BitVec 5) (sa : Spec) (size : Size) (sx : Bool)
  | str (g : Guard) (scope : Scope) (sa sb : Spec) (size : Size)
  | ldaProm (g : Guard) (sd : BitVec 5) (sa sb : Spec) (size : Size) (sx : Bool)
  | fence (g : Guard) (scope : Scope)
  | pref (g : Guard) (sa : Spec)
  | l1Inv (g : Guard) (sa : Spec)
  | l1InvAll (g : Guard)
  | l1Wb (g : Guard) (sa : Spec)
  | l1WbAll (g : Guard)
  | split (g : Guard) (sa : Spec)
  -- AT, class 0x8
  | aadd (g : Guard) (sd : BitVec 5) (sa sb : Spec) (dbl : Bool)
  | amin (g : Guard) (sd : BitVec 5) (sa sb : Spec) (dbl : Bool)
  | amax (g : Guard) (sd : BitVec 5) (sa sb : Spec) (dbl : Bool)
  | aand (g : Guard) (sd : BitVec 5) (sa sb : Spec) (dbl : Bool)
  | aor (g : Guard) (sd : BitVec 5) (sa sb : Spec) (dbl : Bool)
  | axor (g : Guard) (sd : BitVec 5) (sa sb : Spec) (dbl : Bool)
  | aswp (g : Guard) (sd : BitVec 5) (sa sb : Spec) (dbl : Bool)
  | acas (g : Guard) (sd : BitVec 5) (sa sb sc : Spec) (dbl : Bool)
  | ainc (g : Guard) (sd : BitVec 5) (sa sb : Spec) (dbl : Bool)
  | barArr (g : Guard) (sa sb sc : Spec) (bytes : Bool) (bid : BitVec 8)
  | barWait (g : Guard) (sa : Spec) (bid : BitVec 8)
  | ownflip (g : Guard) (reg : BitVec 3) (own : Bool)
  | ownqry (g : Guard) (sd : BitVec 5)
  -- EN, class 0x9
  | teDesc (g : Guard) (sd : BitVec 5) (sa sb : Spec)
  | teCopy (g : Guard) (sd : BitVec 5) (sa : Spec) (q : QSel)
  | teCopyp (g : Guard) (sd : BitVec 5) (sa sb : Spec) (q : QSel)
  | teGather (g : Guard) (sd : BitVec 5) (sa : Spec) (q : QSel)
  | teScatter (g : Guard) (sd : BitVec 5) (sa : Spec) (q : QSel)
  | teFill (g : Guard) (sd : BitVec 5) (sa sb : Spec) (q : QSel)
  | teTranspose (g : Guard) (sd : BitVec 5) (sa : Spec) (q : QSel)
  | teDecode (g : Guard) (sd : BitVec 5) (sa sb sc : Spec) (q : QSel)
  | teRemote (g : Guard) (sd : BitVec 5) (sa sb : Spec) (q : QSel)
  | teSig (g : Guard) (sd : BitVec 5) (sa sb sc : Spec) (q : QSel)
  | teQuery (g : Guard) (sd : BitVec 5) (sa : Spec)
  | teCancel (g : Guard) (sd : BitVec 5) (sa : Spec)
  | xlat (g : Guard) (port : BitVec 2) (sa sb : Spec)
  | mqpush (g : Guard) (sa sb : Spec)
  | mqpop (g : Guard) (sa : Spec)
  | spawn (g : Guard) (sd : BitVec 5) (sa sb sc : Spec)
  -- SY, class 0xA
  | trap (code : BitVec 8) (sa : Spec)
  | mfs (sd : BitVec 5) (reg : SReg)
  | mts (reg : SReg) (sa : Spec)
  | mtsSplit (sa : Spec)
  | mtsLfsrseed (sa : Spec)
  | mtsTrapcause (sa : Spec)
  | stop (sa : Spec)
  | resume (sa : Spec)
  | bkpt (code : BitVec 8)
  | cycrd (sd : BitVec 5)
  | phcrd (sd : BitVec 5)
  | dbg (code : BitVec 8) (sa : Spec)
  -- a word that is no instruction (09:R149)
  | illegalOp (w : Word)
  -- messages at their destination
  | mnop (m : Msg)
  | mld (m : Msg)
  | mst (m : Msg)
  | maadd (m : Msg)
  | mamin (m : Msg)
  | mamax (m : Msg)
  | maand (m : Msg)
  | maor (m : Msg)
  | maxor (m : Msg)
  | mswp (m : Msg)
  | minc (m : Msg)
  | mprom (m : Msg)
  | mpack (m : Msg)
  | mstop (m : Msg)
  | mresume (m : Msg)
  | mcfgwEntry (m : Msg)
  | mcfgwPair (m : Msg)
  | mrdy (m : Msg)
  | msgMqpush (m : Msg)
  | msgMqpop (m : Msg)
  | mspawn (m : Msg)
  | mown (m : Msg)
  | mbar (m : Msg)
  | mtrap (m : Msg)
  | mreply (m : Msg)
  -- host commands
  | loadcfg (c : Cmd)
  | launch (c : Cmd)
  | stopCommand (c : Cmd)
  | resumeContext (c : Cmd)
  | resumeHeldObject (c : Cmd)
  | exit (c : Cmd)
  | write (c : Cmd)
  | read (c : Cmd)
  | bankWrite (c : Cmd)
  | bankRead (c : Cmd)
  | managementRead (c : Cmd)
  | managementWrite (c : Cmd)
  | chronoCtlUnfreeze (c : Cmd)
  | bindRoot (c : Cmd)
  | bindFaultRing (c : Cmd)
  | bindMeridianWindow (c : Cmd)
  | bindHoldThreshold (c : Cmd)
  | bindHandlerEntry (c : Cmd)
  | bindPeerAdmission (c : Cmd)
  | bindCaptureStream (c : Cmd)
  | bindReserved (c : Cmd)
  | fwstage (c : Cmd)
  | fwactivate (c : Cmd)
  | query (c : Cmd)
  | attest (c : Cmd)
  | unknownCommand (c : Cmd)
  -- the instructions without operands: BR, MX and SY
  | nop
  | endFiring
  | ret
  | latchClr
  | regionCfgOff
  | eret
  -- dataflow events
  | tokenArrival
  | firing
  | creditReturn
  | matchFull
  | spillFull
  | phase
  | ctrlStop
  | ctrlResume
  | ctrlEos
  | ctrlSweep
  | regionOperationStart
  | regionCompletion
  | barrierArrive
  | paddrToken
  | packExpansion
  | kindDrop
  | retirementArrival
  | waitfReread
  | waittWake
  | waveOperation
  | presenceStoreAtHome
  | presenceLoadAtHome
  | agentPromotionLookup
  | promotionAccept
  | promotionComplete
  | eagerPromotionComplete
  | engineRequestStart
  | engineRequestComplete
  | decodeChunk
  | walkComplete
  | loaderPass
  | storerPass
  | passComplete
  | mqpopServe
  -- scheduling events
  | schedulerTimer
  | epochClose
  | cellSave
  | agentStopDelivery
  | drainDeadline
  | scanComplete
  | holdThreshold
  | contextExit
  | contextIdReissue
  | fwactivateTimeout
  -- links, frames, peers
  | flitCrcError
  | fabricHopCrcError
  | captureFrame
  | captureDelivery
  | ptpEventFrame
  | remotePutArrival
  | remoteSignalArrival
  | uudPacket
  | packetTimeout
  | portDown
  -- integrity
  | vbusTransferReceived
  | conditionalWriteBack
  | patrolScrub
  | throttleWindow
  | temperatureTrip
  | coolantFlowLoss
  | interHallLinkDown
  | coldReset
  | warmReset
  -- the remaining rows
  | memoryOperationReturn
  | inFlightInstructionComplete
  | hostAcknowledgement
  | activationComplete
  | hallAgentFirmwareFault
  | agentStateUncorrectable
deriving DecidableEq, Repr

end Sys2Proof
end

