-- ==== Sys2Proof/WellFormed.lean ====
section
/-! DEFINITION. Which instructions have an encoding: the field checks that a word must pass before it is the
instruction (09:R149), as far as the types of the operands do not already say them. -/

namespace Sys2Proof

/-- A format code of R30. -/
def fmtCodeOk (f : BitVec 5) : Bool := (f.toNat ≤ 14 && f.toNat ≠ 7) || f.toNat = 16

/-- The conditions PCMP accepts (13:R192). -/
def pcmpCond : Cond → Bool
  | .eq | .ne | .lt | .ge | .gt | .le | .tst => true
  | .ltu | .geu | .gtu | .leu => false

/-- The kind, predicate and aux combinations of SEND (17:R245). -/
def sendOk (kind : TkKind) (pred : TPred) (aux : BitVec 9) : Bool :=
  match kind with
  | .ctrl => aux = 0 && (pred = .true || pred = .false)
  | .scale => pred ≠ .null && decide (aux.toNat < 32)
  | .data | .plane => pred ≠ .null

/-- The same for the instructions that send no CTRL token (17:R245). -/
def flowOk (kind : TkKind) (pred : TPred) (aux : BitVec 9) : Bool :=
  kind ≠ .ctrl && sendOk kind pred aux

/-- The tsel field of QUANT and SCL.MAX (13:R202). -/
def tselOk (keep : Bool) (fmtd : BitVec 5) (tsel : BitVec 3) : Bool :=
  tsel = 0 || (decide (tsel.toNat ≤ 4) && fmtd = 0x0E && !keep)

/-- A direction of a compare-exchange: bit 0 to 9 (13:R199). -/
def cexDirOk : CexDir → Bool
  | .asc | .desc => true
  | .bit h => h.toNat ≤ 9

/-- Opcodes that R153 assigns, by class. -/
def assigned (cls op : Nat) : Bool :=
  match cls with
  | 0 => op ≤ 0x1A
  | 1 => op ∈ [0x00, 0x02, 0x06, 0x07, 0x08, 0x0A, 0x0B, 0x0C, 0x0D, 0x0E, 0x0F, 0x16, 0x18, 0x19]
  | 2 => op ≤ 0x06 || (0x08 ≤ op && op ≤ 0x0C)
  | 3 => op ≤ 0x1E
  | 4 => op ≤ 0x09
  | 5 => op ≤ 0x0D || (0x10 ≤ op && op ≤ 0x14)
  | 6 => op ≤ 0x0E
  | 7 => op ≤ 0x0D
  | 8 => op ≤ 0x08 || op = 0x10 || op = 0x11 || op = 0x18 || op = 0x19
  | 9 => op ≤ 0x0B || op = 0x10 || (0x18 ≤ op && op ≤ 0x1A)
  | 10 => op ≤ 0x09
  | _ => false

/-- A word that is no instruction: the all-zeros word, an unassigned class or opcode (09:R149). -/
def isIllegal (w : Word) : Bool :=
  w = 0 || !assigned (bitsOf w.toNat 60 4) (bitsOf w.toNat 54 6)

/-- The checks that raise RESERVED_FIELD (09:R149, and the fixed value ranges of the descriptions). DESIGN CHOICE (log entry
27): those of a token form's description are made whether or not the guard holds, like the decode checks of R149, and so are
those on tsel of QUANT and SCL.MAX with Q4A (13:R202), which thereby come before the FORMAT of an absent fmts. -/
def fieldsOk : Instr → Bool
  | .bfx _ _ pos len1 | .bfi _ _ _ pos len1 => pos.toNat + len1.toNat + 1 ≤ 64
  | .pcmp cc _ _ _ _ _ => pcmpCond cc
  | .preduce _ _ g => g.toNat ≤ 10
  | .cex d _ g => cexDirOk d && decide (g.toNat ≤ 9)
  | .cexi d _ g => cexDirOk d && decide (g.toNat ≤ 9)
  | .quant keep _ _ _ fmtd _ tsel _ => tselOk keep fmtd tsel
  | .sclMax _ _ _ fmtd _ tsel _ => tselOk false fmtd tsel
  | .send _ _ _ pred aux kind => sendOk kind pred aux
  | .steer _ _ _ _ aux kind => flowOk kind .none aux
  | .dup _ ports _ pred aux kind => ports ≠ 0 && flowOk kind pred aux
  | .loopbIssue _ _ _ _ pred aux kind => flowOk kind pred aux
  | .ld _ _ _ size sx | .ldWave _ _ _ size sx _ _ _ | .lda _ _ _ _ size sx | .ldaProm _ _ _ _ size sx =>
      !(sx && size = .d)
  | .phcrd sd => sd ≠ 0 && sd ≠ 31
  | .mts reg _ => reg ≠ .split && reg ≠ .lfsrseed && reg ≠ .trapcause
  | .add sd sa sb => !(sd = 0 && sa = .s 0 && sb = .s 0)
  | _ => true

/-- The checks that raise FORMAT at decode: a format code absent from R30 (09:R149). -/
def formatsOk : Instr → Bool
  | .cvt _ _ _ d s _ | .cvts _ _ _ d s _ | .deq _ _ _ d s _ => fmtCodeOk d && fmtCodeOk s
  | .quant _ _ _ _ d s _ _ | .sclMax _ _ _ d s _ _ => fmtCodeOk d && fmtCodeOk s
  | .prdTrunc _ _ _ s _ _ | .prdRound _ _ _ s _ _ | .sclGet _ _ s _ => fmtCodeOk s
  | .pwr _ _ _ d _ _ | .sclPut _ _ d _ => fmtCodeOk d
  | .accrd _ _ _ f _ _ => fmtCodeOk f
  | _ => true

/-- The message opcode of a constructor of a message (09:R156); MCFGW has two, told apart by its operand. -/
def msgOp : Instr → Option (Nat × Msg)
  | .mnop m => some (0x00, m) | .mld m => some (0x01, m) | .mst m => some (0x02, m) | .maadd m => some (0x03, m)
  | .mamin m => some (0x04, m) | .mamax m => some (0x05, m) | .maand m => some (0x06, m) | .maor m => some (0x07, m)
  | .maxor m => some (0x08, m) | .mswp m => some (0x09, m) | .minc m => some (0x0A, m) | .mprom m => some (0x0B, m)
  | .mpack m => some (0x0C, m) | .mstop m => some (0x0D, m) | .mresume m => some (0x0E, m)
  | .mcfgwEntry m => some (0x0F, m) | .mcfgwPair m => some (0x0F, m) | .mrdy m => some (0x10, m)
  | .msgMqpush m => some (0x11, m) | .msgMqpop m => some (0x12, m) | .mspawn m => some (0x13, m)
  | .mown m => some (0x14, m) | .mbar m => some (0x15, m) | .mtrap m => some (0x16, m) | .mreply m => some (0x17, m)
  | _ => none

/-- The command message of a constructor of a host command with the code it must carry (25:R361, 27:R388). -/
def cmdOf : Instr → Option (Nat × Cmd)
  | .loadcfg c => some (1, c) | .launch c => some (2, c) | .stopCommand c => some (3, c)
  | .resumeContext c => some (4, c) | .resumeHeldObject c => some (4, c) | .exit c => some (5, c)
  | .write c => some (6, c) | .bankWrite c => some (6, c) | .managementWrite c => some (6, c)
  | .chronoCtlUnfreeze c => some (6, c) | .read c => some (7, c) | .bankRead c => some (7, c)
  | .managementRead c => some (7, c)
  | .bindRoot c | .bindFaultRing c | .bindMeridianWindow c | .bindHoldThreshold c | .bindHandlerEntry c
  | .bindPeerAdmission c | .bindCaptureStream c | .bindReserved c => some (8, c)
  | .fwstage c => some (9, c) | .fwactivate c => some (10, c) | .query c => some (11, c) | .attest c => some (12, c)
  | _ => none

/-- Operand of MCFGW that names a handler entry, a pair, or neither (19:R306). -/
inductive McfgwTarget where
  | entry | pair | bad
deriving DecidableEq, Repr

def mcfgwTarget (operand : Word) : McfgwTarget :=
  let k := bitsOf operand.toNat 54 10
  if 1 ≤ k ∧ k ≤ 0xFF then .entry else if 0x100 ≤ k ∧ k ≤ 0x103 then .pair else .bad

/-- Which forms of a command code a message is (25:R361, R364; 27:R385, R391). -/
inductive CmdForm where
  | loadcfg | launch | stop | resumeCtx | resumeObj | exit | write | bankWrite | mgmtWrite | unfreeze
  | read | bankRead | mgmtRead | bind (op : Nat) | fwstage | fwactivate | query | attest | unknown
deriving DecidableEq, Repr

def cmdForm (c : Cmd) : CmdForm :=
  let mgmt := c.ctx = 0xFFFF ∧ bitsOf c.arg.toNat 62 1 = 1
  let bank := bitsOf c.arg.toNat 63 1 = 1
  match c.code.toNat with
  | 1 => .loadcfg
  | 2 => .launch
  | 3 => .stop
  | 4 => if bank then .resumeObj else .resumeCtx
  | 5 => .exit
  | 6 =>
    if mgmt then
      if c.len = 8 ∧ c.maddr.toNat % 0x100000 = 0x38 ∧ c.maddr.toNat / 0x100000 < 8 then .unfreeze else .mgmtWrite
    else if bank then .bankWrite else .write
  | 7 => if mgmt then .mgmtRead else if bank then .bankRead else .read
  | 8 => let op := bitsOf c.arg.toNat 0 8; if 1 ≤ op ∧ op ≤ 7 then .bind op else .bind 0
  | 9 => .fwstage
  | 10 => .fwactivate
  | 11 => .query
  | 12 => .attest
  | _ => .unknown

/-- The form a constructor of a host command stands for. -/
def cmdFormOf : Instr → Option CmdForm
  | .loadcfg _ => some .loadcfg | .launch _ => some .launch | .stopCommand _ => some .stop
  | .resumeContext _ => some .resumeCtx | .resumeHeldObject _ => some .resumeObj | .exit _ => some .exit
  | .write _ => some .write | .bankWrite _ => some .bankWrite | .managementWrite _ => some .mgmtWrite
  | .chronoCtlUnfreeze _ => some .unfreeze | .read _ => some .read | .bankRead _ => some .bankRead
  | .managementRead _ => some .mgmtRead | .bindRoot _ => some (.bind 1) | .bindFaultRing _ => some (.bind 2)
  | .bindMeridianWindow _ => some (.bind 3) | .bindHoldThreshold _ => some (.bind 4)
  | .bindHandlerEntry _ => some (.bind 5) | .bindPeerAdmission _ => some (.bind 6)
  | .bindCaptureStream _ => some (.bind 7) | .bindReserved _ => some (.bind 0) | .fwstage _ => some .fwstage
  | .fwactivate _ => some .fwactivate | .query _ => some .query | .attest _ => some .attest
  | .unknownCommand _ => some .unknown
  | _ => none

/-- An instruction, message or command that its encoding admits. Events without an encoding are well formed. -/
def Instr.wellFormed (i : Instr) : Bool :=
  fieldsOk i && formatsOk i &&
  (match i with
   | .illegalOp w => isIllegal w
   | .mcfgwEntry m => m.op = 0x0F && mcfgwTarget m.operand = .entry
   | .mcfgwPair m => m.op = 0x0F && mcfgwTarget m.operand = .pair
   | .unknownCommand c => cmdForm c = .unknown
   | .launch c => cmdForm c = .launch
   | _ =>
     (match msgOp i with | some (k, m) => m.op.toNat = k | none => true) &&
     (match cmdOf i, cmdFormOf i with | some (_, c), some f => cmdForm c = f | _, _ => true))

end Sys2Proof
end

