-- ==== Sys2Proof/Decode.lean ====
section
/-! DEFINITION. From bits to a step: 64-bit instruction words (09:R143 to R153, with the fields each instruction uses
from 11, 13:R190, R202, 15:R221, 17:R245, R259, R270 to R275, 19:R297, R298), 128-bit message words (09:R155, R156)
and 256-bit command messages (25:R359, R361). After it, the encoder. -/

namespace Sys2Proof

/-- A field: its value placed at bits `[lo + len - 1 : lo]`. -/
structure Field where
  lo : Nat
  len : Nat
  val : Nat
deriving DecidableEq, Repr

/-- The word that holds the fields and zero elsewhere. -/
def pack : List Field → Nat
  | [] => 0
  | f :: r => f.val % 2 ^ f.len * 2 ^ f.lo + pack r

/-- Bits `[lo + len - 1 : lo]` of a word. -/
def fld (w lo len : Nat) : BitVec len := BitVec.ofNat len (w / 2 ^ lo)

/-- One bit of a word. -/
def bitAt (w lo : Nat) : Bool := w / 2 ^ lo % 2 = 1

/-- A word has no bit set outside the named fields (09:R147). -/
def onlyFields (w : Nat) (fs : List (Nat × Nat)) : Bool :=
  w = pack (fs.map fun f => ⟨f.1, f.2, bitsOf w f.1 f.2⟩)

/-- A 6-bit scalar source specifier (09:R146). -/
def spec6 (n : Nat) : Option Spec :=
  if n < 32 then some (.s (BitVec.ofNat 5 n))
  else if n < 36 then some (.inp (BitVec.ofNat 2 (n - 32))) else none

/-- The scalar source at bit `lo` (09:R146). -/
def specAt (w lo : Nat) : Option Spec := spec6 (bitsOf w lo 6)

/-- Condition codes (09:R148). -/
def condOf : Nat → Option Cond
  | 0 => some .eq | 1 => some .ne | 2 => some .lt | 3 => some .ge | 4 => some .ltu | 5 => some .geu
  | 6 => some .gt | 7 => some .le | 8 => some .gtu | 9 => some .leu | 10 => some .tst | _ => none

/-- Access sizes (09:R148). -/
def sizeOf2 : Nat → Size
  | 0 => .b | 1 => .h | 2 => .w | _ => .d

/-- Scope codes (07:R111). -/
def scopeOf : Nat → Option Scope
  | 0 => some .cell | 1 => some .gallery | 2 => some .hall | 3 => some .device | 4 => some .system | _ => none

/-- Predicate codes of a token (05:R61). -/
def tpredOf : Nat → TPred
  | 0 => .none | 1 => .false | 2 => .true | _ => .null

/-- Kinds that a TK instruction sends (09:R147). -/
def tkKindOf : Nat → TkKind
  | 0 => .data | 1 => .plane | 2 => .scale | _ => .ctrl

/-- Conditions of WAITF (17:R255). -/
def waitCondOf : Nat → Option WaitCond
  | 0 => some .ne | 1 => some .eq | 2 => some .geu | _ => none

/-- Special register numbers (09:R152). -/
def sregOf : Nat → Option SReg
  | 0x00 => some .cyc | 0x01 => some .phcS | 0x02 => some .phcNs | 0x03 => some .coord | 0x04 => some .stage
  | 0x05 => some .ctxid | 0x06 => some .iter | 0x07 => some .ver | 0x08 => some .calldepth
  | 0x09 => some .callmax | 0x0A => some .split | 0x0B => some .lfsrseed | 0x0C => some .stall0
  | 0x0D => some .stall1 | 0x0E => some .stall2 | 0x0F => some .stall3 | 0x10 => some .promlog
  | 0x11 => some .accsat | 0x12 => some .lateCnt | 0x13 => some .trapcause | 0x14 => some .trapaddr
  | 0x15 => some .trapinfo | 0x16 => some .epc | _ => none

/-- Directions of a compare-exchange (13:R199). -/
def cexDirOf : Nat → Option CexDir
  | 0 => some .asc | 1 => some .desc
  | n => if n ≤ 11 then some (.bit (BitVec.ofNat 4 (n - 2))) else none

/-- Operations of PREDUCE (13:R195). -/
def redOpOf : Nat → Option RedOp
  | 0 => some .sum | 1 => some .min | 2 => some .max | _ => none

/-- How a word reads under one opcode: the fields it uses beyond class and opcode, and the instruction, absent where
a field holds a value outside its table. -/
structure Form where
  used : List (Nat × Nat)
  instr : Option Instr

/-- A form with no instruction. -/
def Form.bad : Form := ⟨[], none⟩

/-- Class SR (09:R147; 11:R169 to R173). -/
def decodeSr (w : Nat) (op : Nat) : Form :=
  let sd : BitVec 5 := fld w 45 5
  let two (f : BitVec 5 → Spec → Spec → Instr) : Form :=
    ⟨[(45, 5), (39, 6), (33, 6)], do return f sd (← specAt w 39) (← specAt w 33)⟩
  match op with
  | 0x00 => two .add
  | 0x01 => two .sub
  | 0x02 => two .mul
  | 0x03 => two .mulh
  | 0x04 => two .divu
  | 0x05 => two .remu
  | 0x06 => two .and
  | 0x07 => two .or
  | 0x08 => two .xor
  | 0x09 => two .andn
  | 0x0A => two .shl
  | 0x0B => two .shr
  | 0x0C => two .sra
  | 0x0D => two .rot
  | 0x0E => two .min
  | 0x0F => two .max
  | 0x10 => ⟨[(45, 5), (39, 6)], do return .clz sd (← specAt w 39)⟩
  | 0x11 => ⟨[(45, 5), (39, 6)], do return .popc sd (← specAt w 39)⟩
  | 0x12 => ⟨[(45, 5), (39, 6), (11, 6), (5, 6)], do return .bfx sd (← specAt w 39) (fld w 11 6) (fld w 5 6)⟩
  | 0x13 => ⟨[(45, 5), (39, 6), (33, 6), (11, 6), (5, 6)],
      do return .bfi sd (← specAt w 39) (← specAt w 33) (fld w 11 6) (fld w 5 6)⟩
  | 0x14 => ⟨[(45, 5), (39, 6), (33, 6), (27, 6)],
      do return .madd sd (← specAt w 39) (← specAt w 33) (← specAt w 27)⟩
  | 0x15 => ⟨[(45, 5), (39, 6), (33, 6), (17, 4)], do return .addr sd (← specAt w 39) (← specAt w 33) (fld w 17 4)⟩
  | 0x16 => ⟨[(39, 6), (33, 6), (24, 3), (17, 4)],
      do return .cmp (← condOf (bitsOf w 17 4)) (fld w 24 3) (← specAt w 39) (← specAt w 33)⟩
  | 0x17 => ⟨[(45, 5), (39, 6), (33, 6), (21, 3)], do return .sel sd (fld w 21 3) (← specAt w 39) (← specAt w 33)⟩
  | 0x18 => two .minu
  | 0x19 => two .maxu
  | 0x1A => two .mulhu
  | _ => .bad

/-- Class SI (09:R147; 11:R170, R171, R173, R174). -/
def decodeSi (w : Nat) (op : Nat) : Form :=
  let sd : BitVec 5 := fld w 45 5
  let imm : BitVec 32 := fld w 0 32
  let one (f : BitVec 5 → Spec → BitVec 32 → Instr) : Form :=
    ⟨[(45, 5), (39, 6), (0, 32)], do return f sd (← specAt w 39) imm⟩
  let shift (f : BitVec 5 → Spec → BitVec 6 → Instr) : Form :=
    ⟨[(45, 5), (39, 6), (0, 6)], do return f sd (← specAt w 39) (fld w 0 6)⟩
  match op with
  | 0x00 => one .addi
  | 0x02 => one .muli
  | 0x06 => one .andi
  | 0x07 => one .ori
  | 0x08 => one .xori
  | 0x0A => shift .shli
  | 0x0B => shift .shri
  | 0x0C => shift .srai
  | 0x0D => shift .roti
  | 0x0E => one .mini
  | 0x0F => one .maxi
  | 0x16 => ⟨[(39, 6), (36, 3), (32, 4), (0, 32)],
      do return .cmpi (← condOf (bitsOf w 32 4)) (fld w 36 3) (← specAt w 39) imm⟩
  | 0x18 => ⟨[(45, 5), (0, 32)], some (.li sd imm)⟩
  | 0x19 => one .lih
  | _ => .bad

/-- Class BR (09:R147; 11:R175 to R180). -/
def decodeBr (w : Nat) (op : Nat) : Form :=
  let pd : BitVec 3 := fld w 19 3
  let pe : BitVec 3 := fld w 16 3
  let pf : BitVec 3 := fld w 13 3
  let target : BitVec 9 := fld w 31 9
  match op with
  | 0x00 => ⟨[], some .nop⟩
  | 0x01 => ⟨[], some .endFiring⟩
  | 0x02 => ⟨[(31, 9)], some (.br target)⟩
  | 0x03 => ⟨[(47, 3), (46, 1), (31, 9)], some (.brp (fld w 47 3) (bitAt w 46) target)⟩
  | 0x04 => ⟨[(31, 9)], some (.call target)⟩
  | 0x05 => ⟨[], some .ret⟩
  | 0x06 => ⟨[(40, 6), (31, 9), (22, 9)], do return .loop (← specAt w 40) target (fld w 22 9)⟩
  | 0x08 => ⟨[(19, 3), (16, 3), (13, 3)], some (.pand pd pe pf)⟩
  | 0x09 => ⟨[(19, 3), (16, 3), (13, 3)], some (.por pd pe pf)⟩
  | 0x0A => ⟨[(19, 3), (16, 3), (13, 3)], some (.pxor pd pe pf)⟩
  | 0x0B => ⟨[(19, 3), (16, 3)], some (.pnot pd pe)⟩
  | 0x0C => ⟨[(19, 3), (13, 1)], some (.pset pd (bitAt w 13))⟩
  | _ => .bad

/-- The lane mask of classes PL and CV: register at `lo`, enable bit `me` (13:R182). -/
def maskAt (w lo me : Nat) : Option (BitVec 3) := if bitAt w me then some (fld w lo 3) else none

/-- The fields a lane mask uses: its register only when the enable bit is set (13:R182). -/
def maskUsed (w lo me : Nat) : List (Nat × Nat) := if bitAt w me then [(lo, 3), (me, 1)] else []

/-- Class PL (09:R147; 13:R190). -/
def decodePl (w : Nat) (op : Nat) : Form :=
  let bd : BitVec 9 := fld w 41 9
  let ba : BitVec 9 := fld w 32 9
  let bb : BitVec 9 := fld w 23 9
  let pp : BitVec 2 := fld w 21 2
  let qd : BitVec 3 := fld w 18 3
  let qm : BitVec 3 := fld w 15 3
  let n1 : BitVec 5 := fld w 9 5
  let imm5 : BitVec 5 := fld w 0 5
  let mask := maskAt w 15 14
  let mu := maskUsed w 15 14
  let o3 : Pl3 := ⟨bd, ba, bb, pp, n1, mask⟩
  let o2 : Pl2 := ⟨bd, ba, pp, n1, mask⟩
  let u2 := [(41, 9), (32, 9), (21, 2), (9, 5)] ++ mu
  let u3 := (23, 9) :: u2
  match op with
  | 0x00 => ⟨u3, some (.padd o3)⟩
  | 0x01 => ⟨u3, some (.psub o3)⟩
  | 0x02 => ⟨u3, some (.pmul o3)⟩
  | 0x03 => ⟨u3, some (.pmac o3)⟩
  | 0x04 => ⟨u2, some (.pneg o2)⟩
  | 0x05 => ⟨u2, some (.pabs o2)⟩
  | 0x06 => ⟨u3, some (.pmin o3)⟩
  | 0x07 => ⟨u3, some (.pmax o3)⟩
  | 0x08 => ⟨[(32, 9), (23, 9), (21, 2), (18, 3), (5, 4)] ++ mu, do return .pcmp (← condOf (bitsOf w 5 4)) qd ba bb pp mask⟩
  | 0x09 => ⟨[(41, 9), (32, 9), (23, 9), (21, 2), (9, 5), (15, 3)], some (.psel bd ba bb pp n1 qm)⟩
  | 0x0A => ⟨[(18, 3), (15, 3), (0, 3)], some (.qand qd qm (fld w 0 3))⟩
  | 0x0B => ⟨[(18, 3), (15, 3), (0, 3)], some (.qor qd qm (fld w 0 3))⟩
  | 0x0C => ⟨[(18, 3), (15, 3), (0, 3)], some (.qxor qd qm (fld w 0 3))⟩
  | 0x0D => ⟨[(18, 3), (15, 3)], some (.qnot qd qm)⟩
  | 0x0E => ⟨[(18, 3), (32, 9)] ++ mu, some (.qld qd ba mask)⟩
  | 0x0F => ⟨[(41, 9), (18, 3)] ++ mu, some (.qst bd qd mask)⟩
  | 0x10 => ⟨(0, 5) :: u2, some (.pshl o2 imm5)⟩
  | 0x11 => ⟨(0, 5) :: u2, some (.pshr o2 imm5)⟩
  | 0x12 => ⟨u2, some (.plz o2)⟩
  | 0x13 => ⟨(5, 1) :: u2, some (if bitAt w 5 then .ptrimBlk o2 else .ptrimLane o2)⟩
  | 0x14 => ⟨u2, some (.ppopc o2)⟩
  | 0x15 => ⟨(5, 4) :: (0, 5) :: u2, do return .preduce (← redOpOf (bitsOf w 5 4)) o2 imm5⟩
  | 0x16 => ⟨(0, 1) :: u3, some (.pbcast o2 (BitVec.ofNat 10 (bitsOf w 23 9 + 512 * bitsOf w 0 1)))⟩
  | 0x17 => ⟨u2, some (.pmov o2)⟩
  | 0x18 => ⟨u3, some (.plut o3)⟩
  | 0x19 => ⟨(5, 4) :: (0, 5) :: u2, do return .cex (← cexDirOf (bitsOf w 5 4)) o2 imm5⟩
  | 0x1A => ⟨(5, 4) :: (0, 5) :: u3, do return .cexi (← cexDirOf (bitsOf w 5 4)) o3 imm5⟩
  | 0x1B => ⟨(5, 4) :: (0, 5) :: u2, some (.pexp2 o2 imm5 (fld w 5 4))⟩
  | 0x1C => ⟨(5, 4) :: (0, 5) :: u2, some (.plog2 o2 imm5 (fld w 5 4))⟩
  | 0x1D => ⟨(0, 5) :: u2, some (.psra o2 imm5)⟩
  | 0x1E => ⟨[(18, 3), (15, 3), (0, 3)], some (.qandn qd qm (fld w 0 3))⟩
  | _ => .bad

/-- Class CV (09:R147; 13:R202). -/
def decodeCv (w : Nat) (op : Nat) : Form :=
  let bd : BitVec 9 := fld w 41 9
  let ba : BitVec 9 := fld w 32 9
  let pp : BitVec 2 := fld w 30 2
  let fd : BitVec 5 := fld w 25 5
  let fs : BitVec 5 := fld w 20 5
  let k1 : BitVec 5 := fld w 15 5
  let mask := maskAt w 11 10
  let mu := maskUsed w 11 10
  match op with
  | 0x00 => ⟨[(41, 9), (32, 9), (30, 2), (25, 5), (20, 5)] ++ mu, some (.cvt bd ba pp fd fs mask)⟩
  | 0x01 => ⟨[(41, 9), (32, 9), (30, 2), (25, 5), (20, 5), (19, 1), (15, 3)] ++ mu,
      some (.quant (bitAt w 19) bd ba pp fd fs (fld w 15 3) mask)⟩
  | 0x02 => ⟨[(41, 9), (32, 9), (30, 2), (25, 5), (20, 5)] ++ mu, some (.deq bd ba pp fd fs mask)⟩
  | 0x03 => ⟨[(41, 9), (32, 9), (20, 5)] ++ mu, some (.sclGet bd ba fs mask)⟩
  | 0x04 => ⟨[(41, 9), (4, 6), (25, 5)] ++ mu, do return .sclPut bd (← specAt w 4) fd mask⟩
  | 0x05 => ⟨[(41, 9), (32, 9), (30, 2), (20, 5), (15, 5), (14, 1)] ++ mu,
      some (if bitAt w 14 then .prdRound bd ba pp fs k1 mask else .prdTrunc bd ba pp fs k1 mask)⟩
  | 0x06 => ⟨[(41, 9), (32, 9), (30, 2), (25, 5), (15, 5)] ++ mu, some (.pwr bd ba pp fd k1 mask)⟩
  | 0x07 => ⟨[(4, 6)], do return .lfsrSeed (← specAt w 4)⟩
  | 0x08 => ⟨[(41, 9), (4, 6), (30, 2), (25, 5), (20, 5)] ++ mu, do return .cvts bd (← specAt w 4) pp fd fs mask⟩
  | 0x09 => ⟨[(41, 9), (32, 9), (30, 2), (25, 5), (20, 5), (15, 3)] ++ mu,
      some (.sclMax bd ba pp fd fs (fld w 15 3) mask)⟩
  | _ => .bad

/-- Operand A of a matrix instruction: the latch, or rows and a half (15:R221). -/
def matAAt (w : Nat) : MatA := if bitAt w 7 then .latch else .rows (fld w 37 9) (bitAt w 8)

/-- The fields operand A uses (15:R221, R225). -/
def matAUsed (w : Nat) : List (Nat × Nat) := if bitAt w 7 then [(7, 1)] else [(37, 9), (8, 1)]

/-- The port of an in-specifier that a field fixes to in-tokens (15:R221). -/
def inpAt (w lo : Nat) : Option (BitVec 2) :=
  match specAt w lo with
  | some (.inp i) => some i
  | _ => none

/-- Class MX (09:R147; 15:R221). -/
def decodeMx (w : Nat) (op : Nat) : Form :=
  let ad : BitVec 2 := fld w 48 2
  let pp : BitVec 2 := fld w 46 2
  let ba : BitVec 9 := fld w 37 9
  let bb : BitVec 9 := fld w 28 9
  let omask := maskAt w 11 15
  let omu := maskUsed w 11 15
  let sparse (f : BitVec 2 → BitVec 2 → MatA → BitVec 9 → Spec → Instr) : Form :=
    ⟨[(48, 2), (46, 2), (28, 9), (22, 6)] ++ matAUsed w, do return f ad pp (matAAt w) bb (← specAt w 22)⟩
  match op with
  | 0x00 => ⟨[(46, 2), (22, 6)], do return .ppset pp (← specAt w 22)⟩
  | 0x01 => ⟨[(46, 2), (37, 9), (22, 6)], do return .gather pp ba (← specAt w 22)⟩
  | 0x02 => ⟨[], some .latchClr⟩
  | 0x03 => ⟨[(48, 2), (46, 2), (28, 9), (9, 1)] ++ matAUsed w, some (.mma ad pp (matAAt w) bb (bitAt w 9))⟩
  | 0x04 => sparse .mmaS1
  | 0x05 => sparse .mmaS2
  | 0x06 => sparse .mmaS4
  | 0x07 => ⟨[(48, 2), (46, 2), (28, 9), (22, 6), (16, 6), (9, 1)] ++ matAUsed w,
      do return .mmaX ad pp (matAAt w) bb (← inpAt w 22) (← inpAt w 16) (bitAt w 9)⟩
  | 0x08 => ⟨[(48, 2)], some (.accz ad)⟩
  | 0x09 => ⟨[(48, 2), (46, 2), (28, 9), (22, 6), (16, 6), (11, 5)],
      do return .accrd bb ad pp (fld w 11 5) (← specAt w 22) (← specAt w 16)⟩
  | 0x0A =>
    match bitsOf w 8 3 with
    | 0 => ⟨[(48, 2), (46, 2), (11, 2)], some (.accaddTile ad (fld w 11 2) pp)⟩
    | 1 => ⟨[(48, 2), (46, 2), (37, 9), (22, 6), (8, 3)], do return .accaddRows ad pp ba (← specAt w 22)⟩
    | _ => .bad
  | 0x0B =>
    match bitsOf w 8 3 with
    | 0 => ⟨[(22, 6)], do return .regionCfg (← specAt w 22)⟩
    | 1 => ⟨[(8, 3)], some .regionCfgOff⟩
    | _ => .bad
  | 0x0C =>
    match bitsOf w 8 3 with
    | 0 => ⟨[(22, 6)], do return .sweepG false (← specAt w 22)⟩
    | 1 => ⟨[(22, 6), (8, 3)], do return .sweepG true (← specAt w 22)⟩
    | 4 => ⟨[(8, 3)], some (.sweepR false false)⟩
    | 5 => ⟨[(8, 3)], some (.sweepR true false)⟩
    | 6 => ⟨[(8, 3)], some (.sweepR false true)⟩
    | 7 => ⟨[(8, 3)], some (.sweepR true true)⟩
    | _ => .bad
  | 0x0D => ⟨[(46, 2), (16, 5)], some (.ppget (fld w 16 5) pp)⟩
  | 0x10 => ⟨[(46, 2), (37, 9), (28, 9)] ++ omu, some (.optAddc ba bb pp omask)⟩
  | 0x11 => ⟨[(46, 2), (37, 9), (28, 9), (16, 6)] ++ omu, do return .optSgd ba bb pp (← specAt w 16) omask⟩
  | 0x12 => ⟨[(46, 2), (37, 9), (28, 9), (22, 6), (16, 6)] ++ omu,
      do return .optMom ba bb pp (← specAt w 22) (← specAt w 16) omask⟩
  | 0x13 => ⟨[(46, 2), (37, 9), (28, 9), (16, 6)] ++ omu, do return .optAdam2 ba bb pp (← specAt w 16) omask⟩
  | 0x14 => ⟨[(46, 2), (37, 9), (28, 9), (16, 6)] ++ omu, do return .optEma ba bb pp (← specAt w 16) omask⟩
  | _ => .bad

/-- The guard of classes 6 to 9 (09:R145). -/
def guardAt (w : Nat) : Guard := ⟨fld w 51 3, bitAt w 50⟩

/-- The fields of the guard. -/
def guardUsed : List (Nat × Nat) := [(51, 3), (50, 1)]

/-- Class TK (09:R147; 17:R245 to R256). -/
def decodeTk (w : Nat) (op : Nat) : Form :=
  let g := guardAt w
  let port : BitVec 2 := fld w 48 2
  let sd : BitVec 5 := fld w 24 5
  let pred := tpredOf (bitsOf w 32 2)
  let pt : BitVec 3 := fld w 29 3
  let aux : BitVec 9 := fld w 15 9
  let kind := tkKindOf (bitsOf w 5 2)
  match op with
  | 0x00 => ⟨[(48, 2), (40, 6), (32, 2), (15, 9), (5, 2)] ++ guardUsed,
      do return .send g port (← specAt w 40) pred aux kind⟩
  | 0x01 => ⟨(48, 2) :: guardUsed, some (.sendn g port)⟩
  | 0x02 => ⟨[(49, 1), (40, 6), (29, 3), (15, 9), (5, 2)] ++ guardUsed,
      do return .steer g (bitAt w 49) (← specAt w 40) pt aux kind⟩
  | 0x03 =>
    let used := [(24, 5), (40, 6), (34, 6), (29, 3), (32, 2)] ++ guardUsed
    match bitsOf w 32 2 with
    | 0 => ⟨used, do return .selectP g sd (← specAt w 40) (← specAt w 34) pt⟩
    | 1 => ⟨used, do return .selectNN g sd (← inpAt w 40) (← inpAt w 34) pt⟩
    | _ => .bad
  | 0x04 => ⟨[(24, 4), (40, 6), (32, 2), (15, 9), (5, 2)] ++ guardUsed,
      do return .dup g (fld w 24 4) (← specAt w 40) pred aux kind⟩
  | 0x05 => ⟨(48, 2) :: guardUsed, some (.eos g port)⟩
  | 0x06 => ⟨(24, 5) :: guardUsed, some (.tagget g sd)⟩
  | 0x07 => ⟨(40, 6) :: guardUsed, do return .tagset g (← specAt w 40)⟩
  | 0x08 => ⟨[(24, 5), (48, 2), (40, 6), (32, 2), (15, 9), (5, 2)] ++ guardUsed,
      do return .loopbIssue g sd port (← specAt w 40) pred aux kind⟩
  | 0x09 => ⟨(40, 6) :: guardUsed, do return .loopbRetire g (← specAt w 40)⟩
  | 0x0A => ⟨(7, 8) :: guardUsed, some (.blk g (fld w 7 8))⟩
  | 0x0B => ⟨(7, 8) :: guardUsed, some (.unblk g (fld w 7 8))⟩
  | 0x0C => ⟨(40, 6) :: guardUsed, do return .waitt g (← specAt w 40)⟩
  | 0x0D => ⟨[(24, 5), (40, 6), (34, 6), (32, 2), (29, 3)] ++ guardUsed,
      do return .waitf g (← waitCondOf (bitsOf w 32 2)) (← scopeOf (bitsOf w 29 3)) sd (← specAt w 40) (← specAt w 34)⟩
  | 0x0E => ⟨[(40, 6), (34, 6)] ++ guardUsed, do return .msend g (← specAt w 40) (← specAt w 34)⟩
  | _ => .bad

/-- Class ME (09:R147; 17:R259 to R268). -/
def decodeMe (w : Nat) (op : Nat) : Form :=
  let g := guardAt w
  let sd : BitVec 5 := fld w 45 5
  let size := sizeOf2 (bitsOf w 28 2)
  let sx := bitAt w 27
  let wave := bitAt w 26
  let waveUsed := [(26, 1), (18, 8), (10, 8), (2, 8)]
  let full (i : Option Instr) : Option Instr := if bitsOf w 28 2 = 3 then i else none
  match op with
  | 0x00 =>
    let used := [(45, 5), (39, 6), (28, 2), (27, 1)] ++ guardUsed
    if wave then ⟨waveUsed ++ used,
      do return .ldWave g sd (← specAt w 39) size sx (fld w 18 8) (fld w 10 8) (fld w 2 8)⟩
    else ⟨used, do return .ld g sd (← specAt w 39) size sx⟩
  | 0x01 =>
    let used := [(39, 6), (33, 6), (28, 2)] ++ guardUsed
    if wave then ⟨waveUsed ++ used,
      do return .stWave g (← specAt w 39) (← specAt w 33) size (fld w 18 8) (fld w 10 8) (fld w 2 8)⟩
    else ⟨used, do return .st g (← specAt w 39) (← specAt w 33) size⟩
  | 0x02 => ⟨[(45, 5), (39, 6), (28, 2)] ++ guardUsed, full do return .ldp g sd (← specAt w 39)⟩
  | 0x03 => ⟨[(39, 6), (33, 6), (28, 2)] ++ guardUsed, full do return .stp g (← specAt w 39) (← specAt w 33)⟩
  | 0x04 => ⟨[(45, 5), (39, 6), (28, 2)] ++ guardUsed, full do return .ldpr g sd (← specAt w 39)⟩
  | 0x05 => ⟨[(39, 6), (33, 6), (28, 2)] ++ guardUsed, full do return .stpr g (← specAt w 39) (← specAt w 33)⟩
  | 0x06 => ⟨[(45, 5), (39, 6), (30, 3), (28, 2), (27, 1)] ++ guardUsed,
      do return .lda g (← scopeOf (bitsOf w 30 3)) sd (← specAt w 39) size sx⟩
  | 0x07 => ⟨[(39, 6), (33, 6), (30, 3), (28, 2)] ++ guardUsed,
      do return .str g (← scopeOf (bitsOf w 30 3)) (← specAt w 39) (← specAt w 33) size⟩
  | 0x08 => ⟨[(45, 5), (39, 6), (33, 6), (28, 2), (27, 1)] ++ guardUsed,
      do return .ldaProm g sd (← specAt w 39) (← specAt w 33) size sx⟩
  | 0x09 => ⟨(30, 3) :: guardUsed, do return .fence g (← scopeOf (bitsOf w 30 3))⟩
  | 0x0A => ⟨(39, 6) :: guardUsed, do return .pref g (← specAt w 39)⟩
  | 0x0B =>
    match bitsOf w 28 2 with
    | 0 => ⟨(39, 6) :: guardUsed, do return .l1Inv g (← specAt w 39)⟩
    | 3 => ⟨(28, 2) :: guardUsed, some (.l1InvAll g)⟩
    | _ => .bad
  | 0x0C =>
    match bitsOf w 28 2 with
    | 0 => ⟨(39, 6) :: guardUsed, do return .l1Wb g (← specAt w 39)⟩
    | 3 => ⟨(28, 2) :: guardUsed, some (.l1WbAll g)⟩
    | _ => .bad
  | 0x0D => ⟨(39, 6) :: guardUsed, do return .split g (← specAt w 39)⟩
  | _ => .bad

/-- Class AT (09:R147; 17:R270 to R275). -/
def decodeAt (w : Nat) (op : Nat) : Form :=
  let g := guardAt w
  let sd : BitVec 5 := fld w 45 5
  let dbl := bitAt w 25
  let bid : BitVec 8 := fld w 12 8
  let atom (f : Guard → BitVec 5 → Spec → Spec → Bool → Instr) : Form :=
    ⟨[(45, 5), (39, 6), (33, 6), (25, 2)] ++ guardUsed,
      if bitAt w 26 then (do return f g sd (← specAt w 39) (← specAt w 33) dbl) else none⟩
  match op with
  | 0x00 => atom .aadd
  | 0x01 => atom .amin
  | 0x02 => atom .amax
  | 0x03 => atom .aand
  | 0x04 => atom .aor
  | 0x05 => atom .axor
  | 0x06 => atom .aswp
  | 0x07 => ⟨[(45, 5), (39, 6), (33, 6), (27, 6), (25, 2)] ++ guardUsed,
      if bitAt w 26 then (do return .acas g sd (← specAt w 39) (← specAt w 33) (← specAt w 27) dbl) else none⟩
  | 0x08 => atom .ainc
  | 0x10 => ⟨[(39, 6), (33, 6), (27, 6), (20, 1), (12, 8)] ++ guardUsed,
      do return .barArr g (← specAt w 39) (← specAt w 33) (← specAt w 27) (bitAt w 20) bid⟩
  | 0x11 => ⟨[(39, 6), (12, 8)] ++ guardUsed, do return .barWait g (← specAt w 39) bid⟩
  | 0x18 => ⟨[(22, 3), (21, 1)] ++ guardUsed, some (.ownflip g (fld w 22 3) (bitAt w 21))⟩
  | 0x19 => ⟨(45, 5) :: guardUsed, some (.ownqry g sd)⟩
  | _ => .bad

/-- Class EN (09:R147; 19:R292 to R297). -/
def decodeEn (w : Nat) (op : Nat) : Form :=
  let g := guardAt w
  let sd : BitVec 5 := fld w 45 5
  let q : QSel := ⟨fld w 23 4, bitAt w 22, fld w 14 8⟩
  let qu := [(23, 4), (22, 1), (14, 8)] ++ guardUsed
  let req1 (f : Guard → BitVec 5 → Spec → QSel → Instr) : Form :=
    ⟨[(45, 5), (39, 6)] ++ qu, do return f g sd (← specAt w 39) q⟩
  let req2 (f : Guard → BitVec 5 → Spec → Spec → QSel → Instr) : Form :=
    ⟨[(45, 5), (39, 6), (33, 6)] ++ qu, do return f g sd (← specAt w 39) (← specAt w 33) q⟩
  let req3 (f : Guard → BitVec 5 → Spec → Spec → Spec → QSel → Instr) : Form :=
    ⟨[(45, 5), (39, 6), (33, 6), (27, 6)] ++ qu,
      do return f g sd (← specAt w 39) (← specAt w 33) (← specAt w 27) q⟩
  match op with
  | 0x00 => ⟨[(45, 5), (39, 6), (33, 6)] ++ guardUsed, do return .teDesc g sd (← specAt w 39) (← specAt w 33)⟩
  | 0x01 => req1 .teCopy
  | 0x02 => req2 .teCopyp
  | 0x03 => req1 .teGather
  | 0x04 => req1 .teScatter
  | 0x05 => req2 .teFill
  | 0x06 => req1 .teTranspose
  | 0x07 => req3 .teDecode
  | 0x08 => req2 .teRemote
  | 0x09 => req3 .teSig
  | 0x0A => ⟨[(45, 5), (39, 6)] ++ guardUsed, do return .teQuery g sd (← specAt w 39)⟩
  | 0x0B => ⟨[(45, 5), (39, 6)] ++ guardUsed, do return .teCancel g sd (← specAt w 39)⟩
  | 0x10 => ⟨[(45, 2), (39, 6), (33, 6)] ++ guardUsed, do return .xlat g (fld w 45 2) (← specAt w 39) (← specAt w 33)⟩
  | 0x18 => ⟨[(39, 6), (33, 6)] ++ guardUsed, do return .mqpush g (← specAt w 39) (← specAt w 33)⟩
  | 0x19 => ⟨(39, 6) :: guardUsed, do return .mqpop g (← specAt w 39)⟩
  | 0x1A => ⟨[(45, 5), (39, 6), (33, 6), (27, 6)] ++ guardUsed,
      do return .spawn g sd (← specAt w 39) (← specAt w 33) (← specAt w 27)⟩
  | _ => .bad

/-- Class SY (09:R147; 19:R298). -/
def decodeSy (w : Nat) (op : Nat) : Form :=
  let sd : BitVec 5 := fld w 45 5
  let code : BitVec 8 := fld w 23 8
  match op with
  | 0x00 => ⟨[(23, 8), (39, 6)], do return .trap code (← specAt w 39)⟩
  | 0x01 => ⟨[], some .eret⟩
  | 0x02 => ⟨[(45, 5), (31, 8)], do return .mfs sd (← sregOf (bitsOf w 31 8))⟩
  | 0x03 => ⟨[(39, 6), (31, 8)], do
      let sa ← specAt w 39
      match ← sregOf (bitsOf w 31 8) with
      | .split => return .mtsSplit sa
      | .lfsrseed => return .mtsLfsrseed sa
      | .trapcause => return .mtsTrapcause sa
      | r => return .mts r sa⟩
  | 0x04 => ⟨[(39, 6)], do return .stop (← specAt w 39)⟩
  | 0x05 => ⟨[(39, 6)], do return .resume (← specAt w 39)⟩
  | 0x06 => ⟨[(23, 8)], some (.bkpt code)⟩
  | 0x07 => ⟨[(45, 5)], some (.cycrd sd)⟩
  | 0x08 => ⟨[(45, 5)], some (.phcrd sd)⟩
  | 0x09 => ⟨[(23, 8), (39, 6)], do return .dbg code (← specAt w 39)⟩
  | _ => .bad

/-- The reading of a word under its class (09:R144). -/
def formOf (w cls op : Nat) : Form :=
  match cls with
  | 0 => decodeSr w op
  | 1 => decodeSi w op
  | 2 => decodeBr w op
  | 3 => decodePl w op
  | 4 => decodeCv w op
  | 5 => decodeMx w op
  | 6 => decodeTk w op
  | 7 => decodeMe w op
  | 8 => decodeAt w op
  | 9 => decodeEn w op
  | 10 => decodeSy w op
  | _ => .bad

/-- What a cell makes of a word (09:R149): a step of its own (the words that are no instruction among them), or a
word that raises RESERVED_FIELD or FORMAT. -/
inductive Decoded where
  | instr (i : Instr)
  | reserved
  | format
deriving DecidableEq, Repr

/-- Decode of an instruction word, with the checks in the order of R149. -/
def decode (w : Word) : Decoded :=
  if isIllegal w then .instr (.illegalOp w)
  else
    let n := w.toNat
    let f := formOf n (bitsOf n 60 4) (bitsOf n 54 6)
    match f.instr with
    | none => .reserved
    | some i =>
      if !onlyFields n ([(60, 4), (54, 6)] ++ f.used) || !fieldsOk i then .reserved
      else if !formatsOk i then .format
      else .instr i

/-- The message of a MSG word, whatever its opcode; absent where kind or bit [64] is not as R155 lays down. -/
def msgOf (w : Nat) : Option Msg :=
  if bitsOf w 125 3 = 4 ∧ bitsOf w 64 1 = 0 then
    some ⟨fld w 107 18, bitAt w 106, bitAt w 105, fld w 99 6, fld w 91 8, fld w 73 18, fld w 65 8, fld w 0 64⟩
  else none

/-- The step of a message by its opcode; none for opcodes without one and for an MCFGW that names no target
(09:R156, 19:R306). -/
def msgInstr (m : Msg) : Option Instr :=
  match m.op.toNat with
  | 0x00 => some (.mnop m) | 0x01 => some (.mld m) | 0x02 => some (.mst m) | 0x03 => some (.maadd m)
  | 0x04 => some (.mamin m) | 0x05 => some (.mamax m) | 0x06 => some (.maand m) | 0x07 => some (.maor m)
  | 0x08 => some (.maxor m) | 0x09 => some (.mswp m) | 0x0A => some (.minc m) | 0x0B => some (.mprom m)
  | 0x0C => some (.mpack m) | 0x0D => some (.mstop m) | 0x0E => some (.mresume m)
  | 0x0F =>
    match mcfgwTarget m.operand with
    | .entry => some (.mcfgwEntry m)
    | .pair => some (.mcfgwPair m)
    | .bad => none
  | 0x10 => some (.mrdy m) | 0x11 => some (.msgMqpush m) | 0x12 => some (.msgMqpop m) | 0x13 => some (.mspawn m)
  | 0x14 => some (.mown m) | 0x15 => some (.mbar m) | 0x16 => some (.mtrap m) | 0x17 => some (.mreply m)
  | _ => none

/-- Decode of a 128-bit MSG word. -/
def decodeMsg (w : Nat) : Option Instr := (msgOf w).bind msgInstr

/-- The command message of 32 bytes (25:R359). -/
def cmdOfBits (w : Nat) : Cmd :=
  ⟨fld w 192 64, fld w 128 64, fld w 64 64, fld w 32 32, fld w 16 16, fld w 0 16⟩

/-- The step of a command message (25:R361). -/
def decodeCmd (w : Nat) : Instr :=
  let c := cmdOfBits w
  match cmdForm c with
  | .loadcfg => .loadcfg c
  | .launch => .launch c
  | .stop => .stopCommand c
  | .resumeCtx => .resumeContext c
  | .resumeObj => .resumeHeldObject c
  | .exit => .exit c
  | .write => .write c
  | .bankWrite => .bankWrite c
  | .mgmtWrite => .managementWrite c
  | .unfreeze => .chronoCtlUnfreeze c
  | .read => .read c
  | .bankRead => .bankRead c
  | .mgmtRead => .managementRead c
  | .bind op =>
    match op with
    | 1 => .bindRoot c
    | 2 => .bindFaultRing c
    | 3 => .bindMeridianWindow c
    | 4 => .bindHoldThreshold c
    | 5 => .bindHandlerEntry c
    | 6 => .bindPeerAdmission c
    | 7 => .bindCaptureStream c
    | _ => .bindReserved c
  | .fwstage => .fwstage c
  | .fwactivate => .fwactivate c
  | .query => .query c
  | .attest => .attest c
  | .unknown => .unknownCommand c

/-- The step that the decoder reads from `nbits` bits of which the first word's least significant bit is bit 0: an
instruction word, a MSG word or a command message. Both are little-endian in memory (00:R5), so the bits are the
number the bytes make. -/
def decodeTableWord (nbits w : Nat) : Option Instr :=
  if nbits = 64 then
    match decode (BitVec.ofNat 64 w) with
    | .instr i => some i
    | _ => none
  else if nbits = 128 then decodeMsg w
  else if nbits = 256 then some (decodeCmd w)
  else none

/-! ## The encoder -/

/-- Code of a scalar source specifier (09:R146). -/
def Spec.code : Spec → Nat
  | .s r => r.toNat
  | .inp i => 32 + i.toNat

/-- Code of a condition (09:R148). -/
def Cond.code : Cond → Nat
  | .eq => 0 | .ne => 1 | .lt => 2 | .ge => 3 | .ltu => 4 | .geu => 5 | .gt => 6 | .le => 7 | .gtu => 8 | .leu => 9
  | .tst => 10

/-- Code of a size (09:R148). -/
def Size.code : Size → Nat
  | .b => 0 | .h => 1 | .w => 2 | .d => 3

/-- Code of a scope (07:R111). -/
def Scope.code : Scope → Nat
  | .cell => 0 | .gallery => 1 | .hall => 2 | .device => 3 | .system => 4

/-- Code of a token predicate (05:R61). -/
def TPred.code : TPred → Nat
  | .none => 0 | .false => 1 | .true => 2 | .null => 3

/-- Code of a sent kind (09:R147). -/
def TkKind.code : TkKind → Nat
  | .data => 0 | .plane => 1 | .scale => 2 | .ctrl => 3

/-- Code of a WAITF condition (17:R255). -/
def WaitCond.code : WaitCond → Nat
  | .ne => 0 | .eq => 1 | .geu => 2

/-- Number of a special register (09:R152). -/
def SReg.code : SReg → Nat
  | .cyc => 0x00 | .phcS => 0x01 | .phcNs => 0x02 | .coord => 0x03 | .stage => 0x04 | .ctxid => 0x05 | .iter => 0x06
  | .ver => 0x07 | .calldepth => 0x08 | .callmax => 0x09 | .split => 0x0A | .lfsrseed => 0x0B | .stall0 => 0x0C
  | .stall1 => 0x0D | .stall2 => 0x0E | .stall3 => 0x0F | .promlog => 0x10 | .accsat => 0x11 | .lateCnt => 0x12
  | .trapcause => 0x13 | .trapaddr => 0x14 | .trapinfo => 0x15 | .epc => 0x16

/-- Code of a compare-exchange direction (13:R199). -/
def CexDir.code : CexDir → Nat
  | .asc => 0 | .desc => 1 | .bit h => 2 + h.toNat

/-- Code of a PREDUCE operation (13:R195). -/
def RedOp.code : RedOp → Nat
  | .sum => 0 | .min => 1 | .max => 2

/-- The fields of a guard (09:R145). -/
def Guard.fields (g : Guard) : List Field := [⟨51, 3, g.p.toNat⟩, ⟨50, 1, g.neg.toNat⟩]

/-- The fields of a lane mask at `lo` with enable bit `me`. -/
def maskFields (lo me : Nat) : Option (BitVec 3) → List Field
  | none => []
  | some q => [⟨lo, 3, q.toNat⟩, ⟨me, 1, 1⟩]

/-- The fields of a two-operand PL instruction (13:R190). -/
def Pl2.fields (o : Pl2) : List Field :=
  [⟨41, 9, o.bd.toNat⟩, ⟨32, 9, o.ba.toNat⟩, ⟨21, 2, o.pp.toNat⟩, ⟨9, 5, o.n1.toNat⟩] ++ maskFields 15 14 o.mask

/-- The fields of a three-operand PL instruction (13:R190). -/
def Pl3.fields (o : Pl3) : List Field :=
  [⟨41, 9, o.bd.toNat⟩, ⟨32, 9, o.ba.toNat⟩, ⟨23, 9, o.bb.toNat⟩, ⟨21, 2, o.pp.toNat⟩, ⟨9, 5, o.n1.toNat⟩]
    ++ maskFields 15 14 o.mask

/-- The fields of a matrix operand A (15:R221). -/
def MatA.fields : MatA → List Field
  | .rows ba ha => [⟨37, 9, ba.toNat⟩, ⟨8, 1, ha.toNat⟩]
  | .latch => [⟨7, 1, 1⟩]

/-- The fields of queue and stream (19:R286). -/
def QSel.fields (q : QSel) : List Field := [⟨23, 4, q.eq.toNat⟩, ⟨22, 1, q.ord.toNat⟩, ⟨14, 8, q.sid.toNat⟩]

/-- sd, sa, sb of classes SR, ME, AT and EN. -/
def f1 (sd : BitVec 5) (sa : Spec) : List Field := [⟨45, 5, sd.toNat⟩, ⟨39, 6, sa.code⟩]
def f2 (sd : BitVec 5) (sa sb : Spec) : List Field := ⟨33, 6, sb.code⟩ :: f1 sd sa
def f3 (sd : BitVec 5) (sa sb sc : Spec) : List Field := ⟨27, 6, sc.code⟩ :: f2 sd sa sb

/-- sd, sa and the immediate of class SI. -/
def fi (sd : BitVec 5) (sa : Spec) (imm : Nat) : List Field := ⟨0, 32, imm⟩ :: f1 sd sa

/-- Class, opcode and operand fields of an instruction that has an encoding of 64 bits (09:R153). -/
def encodeFields : Instr → Option (Nat × Nat × List Field)
  | .add sd sa sb => some (0, 0x00, f2 sd sa sb)
  | .sub sd sa sb => some (0, 0x01, f2 sd sa sb)
  | .mul sd sa sb => some (0, 0x02, f2 sd sa sb)
  | .mulh sd sa sb => some (0, 0x03, f2 sd sa sb)
  | .divu sd sa sb => some (0, 0x04, f2 sd sa sb)
  | .remu sd sa sb => some (0, 0x05, f2 sd sa sb)
  | .and sd sa sb => some (0, 0x06, f2 sd sa sb)
  | .or sd sa sb => some (0, 0x07, f2 sd sa sb)
  | .xor sd sa sb => some (0, 0x08, f2 sd sa sb)
  | .andn sd sa sb => some (0, 0x09, f2 sd sa sb)
  | .shl sd sa sb => some (0, 0x0A, f2 sd sa sb)
  | .shr sd sa sb => some (0, 0x0B, f2 sd sa sb)
  | .sra sd sa sb => some (0, 0x0C, f2 sd sa sb)
  | .rot sd sa sb => some (0, 0x0D, f2 sd sa sb)
  | .min sd sa sb => some (0, 0x0E, f2 sd sa sb)
  | .max sd sa sb => some (0, 0x0F, f2 sd sa sb)
  | .clz sd sa => some (0, 0x10, f1 sd sa)
  | .popc sd sa => some (0, 0x11, f1 sd sa)
  | .bfx sd sa pos len1 => some (0, 0x12, ⟨11, 6, pos.toNat⟩ :: ⟨5, 6, len1.toNat⟩ :: f1 sd sa)
  | .bfi sd sa sb pos len1 => some (0, 0x13, ⟨11, 6, pos.toNat⟩ :: ⟨5, 6, len1.toNat⟩ :: f2 sd sa sb)
  | .madd sd sa sb sc => some (0, 0x14, f3 sd sa sb sc)
  | .addr sd sa sb sh => some (0, 0x15, ⟨17, 4, sh.toNat⟩ :: f2 sd sa sb)
  | .cmp cc pd sa sb => some (0, 0x16, [⟨39, 6, sa.code⟩, ⟨33, 6, sb.code⟩, ⟨24, 3, pd.toNat⟩, ⟨17, 4, cc.code⟩])
  | .sel sd ps sa sb => some (0, 0x17, ⟨21, 3, ps.toNat⟩ :: f2 sd sa sb)
  | .minu sd sa sb => some (0, 0x18, f2 sd sa sb)
  | .maxu sd sa sb => some (0, 0x19, f2 sd sa sb)
  | .mulhu sd sa sb => some (0, 0x1A, f2 sd sa sb)
  | .addi sd sa imm => some (1, 0x00, fi sd sa imm.toNat)
  | .muli sd sa imm => some (1, 0x02, fi sd sa imm.toNat)
  | .andi sd sa imm => some (1, 0x06, fi sd sa imm.toNat)
  | .ori sd sa imm => some (1, 0x07, fi sd sa imm.toNat)
  | .xori sd sa imm => some (1, 0x08, fi sd sa imm.toNat)
  | .shli sd sa n => some (1, 0x0A, ⟨0, 6, n.toNat⟩ :: f1 sd sa)
  | .shri sd sa n => some (1, 0x0B, ⟨0, 6, n.toNat⟩ :: f1 sd sa)
  | .srai sd sa n => some (1, 0x0C, ⟨0, 6, n.toNat⟩ :: f1 sd sa)
  | .roti sd sa n => some (1, 0x0D, ⟨0, 6, n.toNat⟩ :: f1 sd sa)
  | .mini sd sa imm => some (1, 0x0E, fi sd sa imm.toNat)
  | .maxi sd sa imm => some (1, 0x0F, fi sd sa imm.toNat)
  | .cmpi cc pd sa imm => some (1, 0x16, [⟨39, 6, sa.code⟩, ⟨36, 3, pd.toNat⟩, ⟨32, 4, cc.code⟩, ⟨0, 32, imm.toNat⟩])
  | .li sd imm => some (1, 0x18, [⟨45, 5, sd.toNat⟩, ⟨0, 32, imm.toNat⟩])
  | .lih sd sa imm => some (1, 0x19, fi sd sa imm.toNat)
  | .nop => some (2, 0x00, [])
  | .endFiring => some (2, 0x01, [])
  | .br t => some (2, 0x02, [⟨31, 9, t.toNat⟩])
  | .brp pt ptn t => some (2, 0x03, [⟨47, 3, pt.toNat⟩, ⟨46, 1, ptn.toNat⟩, ⟨31, 9, t.toNat⟩])
  | .call t => some (2, 0x04, [⟨31, 9, t.toNat⟩])
  | .ret => some (2, 0x05, [])
  | .loop sa t l => some (2, 0x06, [⟨40, 6, sa.code⟩, ⟨31, 9, t.toNat⟩, ⟨22, 9, l.toNat⟩])
  | .pand pd pe pf => some (2, 0x08, [⟨19, 3, pd.toNat⟩, ⟨16, 3, pe.toNat⟩, ⟨13, 3, pf.toNat⟩])
  | .por pd pe pf => some (2, 0x09, [⟨19, 3, pd.toNat⟩, ⟨16, 3, pe.toNat⟩, ⟨13, 3, pf.toNat⟩])
  | .pxor pd pe pf => some (2, 0x0A, [⟨19, 3, pd.toNat⟩, ⟨16, 3, pe.toNat⟩, ⟨13, 3, pf.toNat⟩])
  | .pnot pd pe => some (2, 0x0B, [⟨19, 3, pd.toNat⟩, ⟨16, 3, pe.toNat⟩])
  | .pset pd v => some (2, 0x0C, [⟨19, 3, pd.toNat⟩, ⟨13, 1, v.toNat⟩])
  | .padd o => some (3, 0x00, o.fields)
  | .psub o => some (3, 0x01, o.fields)
  | .pmul o => some (3, 0x02, o.fields)
  | .pmac o => some (3, 0x03, o.fields)
  | .pneg o => some (3, 0x04, o.fields)
  | .pabs o => some (3, 0x05, o.fields)
  | .pmin o => some (3, 0x06, o.fields)
  | .pmax o => some (3, 0x07, o.fields)
  | .pcmp cc qd ba bb pp m => some (3, 0x08,
      [⟨32, 9, ba.toNat⟩, ⟨23, 9, bb.toNat⟩, ⟨21, 2, pp.toNat⟩, ⟨18, 3, qd.toNat⟩, ⟨5, 4, cc.code⟩] ++ maskFields 15 14 m)
  | .psel bd ba bb pp n1 qs => some (3, 0x09,
      [⟨41, 9, bd.toNat⟩, ⟨32, 9, ba.toNat⟩, ⟨23, 9, bb.toNat⟩, ⟨21, 2, pp.toNat⟩, ⟨9, 5, n1.toNat⟩, ⟨15, 3, qs.toNat⟩])
  | .qand qd qm qk => some (3, 0x0A, [⟨18, 3, qd.toNat⟩, ⟨15, 3, qm.toNat⟩, ⟨0, 3, qk.toNat⟩])
  | .qor qd qm qk => some (3, 0x0B, [⟨18, 3, qd.toNat⟩, ⟨15, 3, qm.toNat⟩, ⟨0, 3, qk.toNat⟩])
  | .qxor qd qm qk => some (3, 0x0C, [⟨18, 3, qd.toNat⟩, ⟨15, 3, qm.toNat⟩, ⟨0, 3, qk.toNat⟩])
  | .qnot qd qm => some (3, 0x0D, [⟨18, 3, qd.toNat⟩, ⟨15, 3, qm.toNat⟩])
  | .qld qd ba m => some (3, 0x0E, [⟨18, 3, qd.toNat⟩, ⟨32, 9, ba.toNat⟩] ++ maskFields 15 14 m)
  | .qst bd qd m => some (3, 0x0F, [⟨41, 9, bd.toNat⟩, ⟨18, 3, qd.toNat⟩] ++ maskFields 15 14 m)
  | .pshl o sh => some (3, 0x10, ⟨0, 5, sh.toNat⟩ :: o.fields)
  | .pshr o sh => some (3, 0x11, ⟨0, 5, sh.toNat⟩ :: o.fields)
  | .plz o => some (3, 0x12, o.fields)
  | .ptrimLane o => some (3, 0x13, o.fields)
  | .ptrimBlk o => some (3, 0x13, ⟨5, 1, 1⟩ :: o.fields)
  | .ppopc o => some (3, 0x14, o.fields)
  | .preduce r o g => some (3, 0x15, ⟨5, 4, r.code⟩ :: ⟨0, 5, g.toNat⟩ :: o.fields)
  | .pbcast o l => some (3, 0x16, ⟨23, 9, l.toNat % 512⟩ :: ⟨0, 1, l.toNat / 512⟩ :: o.fields)
  | .pmov o => some (3, 0x17, o.fields)
  | .plut o => some (3, 0x18, o.fields)
  | .cex d o g => some (3, 0x19, ⟨5, 4, d.code⟩ :: ⟨0, 5, g.toNat⟩ :: o.fields)
  | .cexi d o g => some (3, 0x1A, ⟨5, 4, d.code⟩ :: ⟨0, 5, g.toNat⟩ :: o.fields)
  | .pexp2 o f g => some (3, 0x1B, ⟨5, 4, g.toNat⟩ :: ⟨0, 5, f.toNat⟩ :: o.fields)
  | .plog2 o f g => some (3, 0x1C, ⟨5, 4, g.toNat⟩ :: ⟨0, 5, f.toNat⟩ :: o.fields)
  | .psra o sh => some (3, 0x1D, ⟨0, 5, sh.toNat⟩ :: o.fields)
  | .qandn qd qm qk => some (3, 0x1E, [⟨18, 3, qd.toNat⟩, ⟨15, 3, qm.toNat⟩, ⟨0, 3, qk.toNat⟩])
  | .cvt bd ba pp d s m => some (4, 0x00, [⟨41, 9, bd.toNat⟩, ⟨32, 9, ba.toNat⟩, ⟨30, 2, pp.toNat⟩, ⟨25, 5, d.toNat⟩,
      ⟨20, 5, s.toNat⟩] ++ maskFields 11 10 m)
  | .quant keep bd ba pp d s t m => some (4, 0x01, [⟨41, 9, bd.toNat⟩, ⟨32, 9, ba.toNat⟩, ⟨30, 2, pp.toNat⟩,
      ⟨25, 5, d.toNat⟩, ⟨20, 5, s.toNat⟩, ⟨19, 1, keep.toNat⟩, ⟨15, 3, t.toNat⟩] ++ maskFields 11 10 m)
  | .deq bd ba pp d s m => some (4, 0x02, [⟨41, 9, bd.toNat⟩, ⟨32, 9, ba.toNat⟩, ⟨30, 2, pp.toNat⟩, ⟨25, 5, d.toNat⟩,
      ⟨20, 5, s.toNat⟩] ++ maskFields 11 10 m)
  | .sclGet bd ba s m => some (4, 0x03, [⟨41, 9, bd.toNat⟩, ⟨32, 9, ba.toNat⟩, ⟨20, 5, s.toNat⟩] ++ maskFields 11 10 m)
  | .sclPut bd sa d m => some (4, 0x04, [⟨41, 9, bd.toNat⟩, ⟨4, 6, sa.code⟩, ⟨25, 5, d.toNat⟩] ++ maskFields 11 10 m)
  | .prdTrunc bd ba pp s k1 m => some (4, 0x05, [⟨41, 9, bd.toNat⟩, ⟨32, 9, ba.toNat⟩, ⟨30, 2, pp.toNat⟩,
      ⟨20, 5, s.toNat⟩, ⟨15, 5, k1.toNat⟩] ++ maskFields 11 10 m)
  | .prdRound bd ba pp s k1 m => some (4, 0x05, [⟨41, 9, bd.toNat⟩, ⟨32, 9, ba.toNat⟩, ⟨30, 2, pp.toNat⟩,
      ⟨20, 5, s.toNat⟩, ⟨15, 5, k1.toNat⟩, ⟨14, 1, 1⟩] ++ maskFields 11 10 m)
  | .pwr bd ba pp d k1 m => some (4, 0x06, [⟨41, 9, bd.toNat⟩, ⟨32, 9, ba.toNat⟩, ⟨30, 2, pp.toNat⟩, ⟨25, 5, d.toNat⟩,
      ⟨15, 5, k1.toNat⟩] ++ maskFields 11 10 m)
  | .lfsrSeed sa => some (4, 0x07, [⟨4, 6, sa.code⟩])
  | .cvts bd sa pp d s m => some (4, 0x08, [⟨41, 9, bd.toNat⟩, ⟨4, 6, sa.code⟩, ⟨30, 2, pp.toNat⟩, ⟨25, 5, d.toNat⟩,
      ⟨20, 5, s.toNat⟩] ++ maskFields 11 10 m)
  | .sclMax bd ba pp d s t m => some (4, 0x09, [⟨41, 9, bd.toNat⟩, ⟨32, 9, ba.toNat⟩, ⟨30, 2, pp.toNat⟩,
      ⟨25, 5, d.toNat⟩, ⟨20, 5, s.toNat⟩, ⟨15, 3, t.toNat⟩] ++ maskFields 11 10 m)
  | .ppset pp sa => some (5, 0x00, [⟨46, 2, pp.toNat⟩, ⟨22, 6, sa.code⟩])
  | .gather pp bt sa => some (5, 0x01, [⟨46, 2, pp.toNat⟩, ⟨37, 9, bt.toNat⟩, ⟨22, 6, sa.code⟩])
  | .latchClr => some (5, 0x02, [])
  | .mma ad pp a bb hb => some (5, 0x03, [⟨48, 2, ad.toNat⟩, ⟨46, 2, pp.toNat⟩, ⟨28, 9, bb.toNat⟩, ⟨9, 1, hb.toNat⟩]
      ++ a.fields)
  | .mmaS1 ad pp a bb sm => some (5, 0x04, [⟨48, 2, ad.toNat⟩, ⟨46, 2, pp.toNat⟩, ⟨28, 9, bb.toNat⟩, ⟨22, 6, sm.code⟩]
      ++ a.fields)
  | .mmaS2 ad pp a bb sm => some (5, 0x05, [⟨48, 2, ad.toNat⟩, ⟨46, 2, pp.toNat⟩, ⟨28, 9, bb.toNat⟩, ⟨22, 6, sm.code⟩]
      ++ a.fields)
  | .mmaS4 ad pp a bb sm => some (5, 0x06, [⟨48, 2, ad.toNat⟩, ⟨46, 2, pp.toNat⟩, ⟨28, 9, bb.toNat⟩, ⟨22, 6, sm.code⟩]
      ++ a.fields)
  | .mmaX ad pp a bb p q hb => some (5, 0x07, [⟨48, 2, ad.toNat⟩, ⟨46, 2, pp.toNat⟩, ⟨28, 9, bb.toNat⟩,
      ⟨22, 6, 32 + p.toNat⟩, ⟨16, 6, 32 + q.toNat⟩, ⟨9, 1, hb.toNat⟩] ++ a.fields)
  | .accz ad => some (5, 0x08, [⟨48, 2, ad.toNat⟩])
  | .accrd bd ad pp f sl sh => some (5, 0x09, [⟨48, 2, ad.toNat⟩, ⟨46, 2, pp.toNat⟩, ⟨28, 9, bd.toNat⟩, ⟨22, 6, sl.code⟩,
      ⟨16, 6, sh.code⟩, ⟨11, 5, f.toNat⟩])
  | .accaddTile ad src pp => some (5, 0x0A, [⟨48, 2, ad.toNat⟩, ⟨46, 2, pp.toNat⟩, ⟨11, 2, src.toNat⟩])
  | .accaddRows ad pp ba sl => some (5, 0x0A, [⟨48, 2, ad.toNat⟩, ⟨46, 2, pp.toNat⟩, ⟨37, 9, ba.toNat⟩,
      ⟨22, 6, sl.code⟩, ⟨8, 3, 1⟩])
  | .regionCfg sw => some (5, 0x0B, [⟨22, 6, sw.code⟩])
  | .regionCfgOff => some (5, 0x0B, [⟨8, 3, 1⟩])
  | .sweepG v sc => some (5, 0x0C, [⟨22, 6, sc.code⟩, ⟨8, 3, v.toNat⟩])
  | .sweepR v start => some (5, 0x0C, [⟨8, 3, 4 + 2 * start.toNat + v.toNat⟩])
  | .ppget sd pp => some (5, 0x0D, [⟨46, 2, pp.toNat⟩, ⟨16, 5, sd.toNat⟩])
  | .optAddc a b pp m => some (5, 0x10, [⟨46, 2, pp.toNat⟩, ⟨37, 9, a.toNat⟩, ⟨28, 9, b.toNat⟩] ++ maskFields 11 15 m)
  | .optSgd a b pp sh m => some (5, 0x11, [⟨46, 2, pp.toNat⟩, ⟨37, 9, a.toNat⟩, ⟨28, 9, b.toNat⟩, ⟨16, 6, sh.code⟩]
      ++ maskFields 11 15 m)
  | .optMom a b pp sm sh m => some (5, 0x12, [⟨46, 2, pp.toNat⟩, ⟨37, 9, a.toNat⟩, ⟨28, 9, b.toNat⟩, ⟨22, 6, sm.code⟩,
      ⟨16, 6, sh.code⟩] ++ maskFields 11 15 m)
  | .optAdam2 a b pp sh m => some (5, 0x13, [⟨46, 2, pp.toNat⟩, ⟨37, 9, a.toNat⟩, ⟨28, 9, b.toNat⟩, ⟨16, 6, sh.code⟩]
      ++ maskFields 11 15 m)
  | .optEma a b pp sh m => some (5, 0x14, [⟨46, 2, pp.toNat⟩, ⟨37, 9, a.toNat⟩, ⟨28, 9, b.toNat⟩, ⟨16, 6, sh.code⟩]
      ++ maskFields 11 15 m)
  | .send g op sa pred aux kind => some (6, 0x00, [⟨48, 2, op.toNat⟩, ⟨40, 6, sa.code⟩, ⟨32, 2, pred.code⟩,
      ⟨15, 9, aux.toNat⟩, ⟨5, 2, kind.code⟩] ++ g.fields)
  | .sendn g op => some (6, 0x01, ⟨48, 2, op.toNat⟩ :: g.fields)
  | .steer g hi sa pt aux kind => some (6, 0x02, [⟨49, 1, hi.toNat⟩, ⟨40, 6, sa.code⟩, ⟨29, 3, pt.toNat⟩,
      ⟨15, 9, aux.toNat⟩, ⟨5, 2, kind.code⟩] ++ g.fields)
  | .selectP g sd sa sb pt => some (6, 0x03, [⟨24, 5, sd.toNat⟩, ⟨40, 6, sa.code⟩, ⟨34, 6, sb.code⟩, ⟨29, 3, pt.toNat⟩]
      ++ g.fields)
  | .selectNN g sd ia ib pt => some (6, 0x03, [⟨24, 5, sd.toNat⟩, ⟨40, 6, 32 + ia.toNat⟩, ⟨34, 6, 32 + ib.toNat⟩,
      ⟨29, 3, pt.toNat⟩, ⟨32, 2, 1⟩] ++ g.fields)
  | .dup g ports sa pred aux kind => some (6, 0x04, [⟨24, 4, ports.toNat⟩, ⟨40, 6, sa.code⟩, ⟨32, 2, pred.code⟩,
      ⟨15, 9, aux.toNat⟩, ⟨5, 2, kind.code⟩] ++ g.fields)
  | .eos g op => some (6, 0x05, ⟨48, 2, op.toNat⟩ :: g.fields)
  | .tagget g sd => some (6, 0x06, ⟨24, 5, sd.toNat⟩ :: g.fields)
  | .tagset g sa => some (6, 0x07, ⟨40, 6, sa.code⟩ :: g.fields)
  | .loopbIssue g sd op sa pred aux kind => some (6, 0x08, [⟨24, 5, sd.toNat⟩, ⟨48, 2, op.toNat⟩, ⟨40, 6, sa.code⟩,
      ⟨32, 2, pred.code⟩, ⟨15, 9, aux.toNat⟩, ⟨5, 2, kind.code⟩] ++ g.fields)
  | .loopbRetire g sa => some (6, 0x09, ⟨40, 6, sa.code⟩ :: g.fields)
  | .blk g rtag => some (6, 0x0A, ⟨7, 8, rtag.toNat⟩ :: g.fields)
  | .unblk g rtag => some (6, 0x0B, ⟨7, 8, rtag.toNat⟩ :: g.fields)
  | .waitt g sa => some (6, 0x0C, ⟨40, 6, sa.code⟩ :: g.fields)
  | .waitf g c scope sd sa sb => some (6, 0x0D, [⟨24, 5, sd.toNat⟩, ⟨40, 6, sa.code⟩, ⟨34, 6, sb.code⟩,
      ⟨32, 2, c.code⟩, ⟨29, 3, scope.code⟩] ++ g.fields)
  | .msend g sa sb => some (6, 0x0E, [⟨40, 6, sa.code⟩, ⟨34, 6, sb.code⟩] ++ g.fields)
  | .ld g sd sa size sx => some (7, 0x00, ⟨28, 2, size.code⟩ :: ⟨27, 1, sx.toNat⟩ :: f1 sd sa ++ g.fields)
  | .ldWave g sd sa size sx ws wp wq => some (7, 0x00, [⟨28, 2, size.code⟩, ⟨27, 1, sx.toNat⟩, ⟨26, 1, 1⟩,
      ⟨18, 8, ws.toNat⟩, ⟨10, 8, wp.toNat⟩, ⟨2, 8, wq.toNat⟩] ++ f1 sd sa ++ g.fields)
  | .st g sa sb size => some (7, 0x01, ⟨28, 2, size.code⟩ :: ⟨39, 6, sa.code⟩ :: ⟨33, 6, sb.code⟩ :: g.fields)
  | .stWave g sa sb size ws wp wq => some (7, 0x01, [⟨28, 2, size.code⟩, ⟨26, 1, 1⟩, ⟨18, 8, ws.toNat⟩,
      ⟨10, 8, wp.toNat⟩, ⟨2, 8, wq.toNat⟩, ⟨39, 6, sa.code⟩, ⟨33, 6, sb.code⟩] ++ g.fields)
  | .ldp g sd sa => some (7, 0x02, ⟨28, 2, 3⟩ :: f1 sd sa ++ g.fields)
  | .stp g sa sb => some (7, 0x03, ⟨28, 2, 3⟩ :: ⟨39, 6, sa.code⟩ :: ⟨33, 6, sb.code⟩ :: g.fields)
  | .ldpr g sd sa => some (7, 0x04, ⟨28, 2, 3⟩ :: f1 sd sa ++ g.fields)
  | .stpr g sa sb => some (7, 0x05, ⟨28, 2, 3⟩ :: ⟨39, 6, sa.code⟩ :: ⟨33, 6, sb.code⟩ :: g.fields)
  | .lda g scope sd sa size sx => some (7, 0x06, [⟨30, 3, scope.code⟩, ⟨28, 2, size.code⟩, ⟨27, 1, sx.toNat⟩] ++ f1 sd sa
      ++ g.fields)
  | .str g scope sa sb size => some (7, 0x07, [⟨30, 3, scope.code⟩, ⟨28, 2, size.code⟩, ⟨39, 6, sa.code⟩,
      ⟨33, 6, sb.code⟩] ++ g.fields)
  | .ldaProm g sd sa sb size sx => some (7, 0x08, [⟨28, 2, size.code⟩, ⟨27, 1, sx.toNat⟩] ++ f2 sd sa sb ++ g.fields)
  | .fence g scope => some (7, 0x09, ⟨30, 3, scope.code⟩ :: g.fields)
  | .pref g sa => some (7, 0x0A, ⟨39, 6, sa.code⟩ :: g.fields)
  | .l1Inv g sa => some (7, 0x0B, ⟨39, 6, sa.code⟩ :: g.fields)
  | .l1InvAll g => some (7, 0x0B, ⟨28, 2, 3⟩ :: g.fields)
  | .l1Wb g sa => some (7, 0x0C, ⟨39, 6, sa.code⟩ :: g.fields)
  | .l1WbAll g => some (7, 0x0C, ⟨28, 2, 3⟩ :: g.fields)
  | .split g sa => some (7, 0x0D, ⟨39, 6, sa.code⟩ :: g.fields)
  | .aadd g sd sa sb d => some (8, 0x00, ⟨25, 2, 2 + d.toNat⟩ :: f2 sd sa sb ++ g.fields)
  | .amin g sd sa sb d => some (8, 0x01, ⟨25, 2, 2 + d.toNat⟩ :: f2 sd sa sb ++ g.fields)
  | .amax g sd sa sb d => some (8, 0x02, ⟨25, 2, 2 + d.toNat⟩ :: f2 sd sa sb ++ g.fields)
  | .aand g sd sa sb d => some (8, 0x03, ⟨25, 2, 2 + d.toNat⟩ :: f2 sd sa sb ++ g.fields)
  | .aor g sd sa sb d => some (8, 0x04, ⟨25, 2, 2 + d.toNat⟩ :: f2 sd sa sb ++ g.fields)
  | .axor g sd sa sb d => some (8, 0x05, ⟨25, 2, 2 + d.toNat⟩ :: f2 sd sa sb ++ g.fields)
  | .aswp g sd sa sb d => some (8, 0x06, ⟨25, 2, 2 + d.toNat⟩ :: f2 sd sa sb ++ g.fields)
  | .acas g sd sa sb sc d => some (8, 0x07, ⟨25, 2, 2 + d.toNat⟩ :: f3 sd sa sb sc ++ g.fields)
  | .ainc g sd sa sb d => some (8, 0x08, ⟨25, 2, 2 + d.toNat⟩ :: f2 sd sa sb ++ g.fields)
  | .barArr g sa sb sc bytes bid => some (8, 0x10, [⟨39, 6, sa.code⟩, ⟨33, 6, sb.code⟩, ⟨27, 6, sc.code⟩,
      ⟨20, 1, bytes.toNat⟩, ⟨12, 8, bid.toNat⟩] ++ g.fields)
  | .barWait g sa bid => some (8, 0x11, [⟨39, 6, sa.code⟩, ⟨12, 8, bid.toNat⟩] ++ g.fields)
  | .ownflip g reg own => some (8, 0x18, [⟨22, 3, reg.toNat⟩, ⟨21, 1, own.toNat⟩] ++ g.fields)
  | .ownqry g sd => some (8, 0x19, ⟨45, 5, sd.toNat⟩ :: g.fields)
  | .teDesc g sd sa sb => some (9, 0x00, f2 sd sa sb ++ g.fields)
  | .teCopy g sd sa q => some (9, 0x01, f1 sd sa ++ q.fields ++ g.fields)
  | .teCopyp g sd sa sb q => some (9, 0x02, f2 sd sa sb ++ q.fields ++ g.fields)
  | .teGather g sd sa q => some (9, 0x03, f1 sd sa ++ q.fields ++ g.fields)
  | .teScatter g sd sa q => some (9, 0x04, f1 sd sa ++ q.fields ++ g.fields)
  | .teFill g sd sa sb q => some (9, 0x05, f2 sd sa sb ++ q.fields ++ g.fields)
  | .teTranspose g sd sa q => some (9, 0x06, f1 sd sa ++ q.fields ++ g.fields)
  | .teDecode g sd sa sb sc q => some (9, 0x07, f3 sd sa sb sc ++ q.fields ++ g.fields)
  | .teRemote g sd sa sb q => some (9, 0x08, f2 sd sa sb ++ q.fields ++ g.fields)
  | .teSig g sd sa sb sc q => some (9, 0x09, f3 sd sa sb sc ++ q.fields ++ g.fields)
  | .teQuery g sd sa => some (9, 0x0A, f1 sd sa ++ g.fields)
  | .teCancel g sd sa => some (9, 0x0B, f1 sd sa ++ g.fields)
  | .xlat g port sa sb => some (9, 0x10, [⟨45, 2, port.toNat⟩, ⟨39, 6, sa.code⟩, ⟨33, 6, sb.code⟩] ++ g.fields)
  | .mqpush g sa sb => some (9, 0x18, [⟨39, 6, sa.code⟩, ⟨33, 6, sb.code⟩] ++ g.fields)
  | .mqpop g sa => some (9, 0x19, ⟨39, 6, sa.code⟩ :: g.fields)
  | .spawn g sd sa sb sc => some (9, 0x1A, f3 sd sa sb sc ++ g.fields)
  | .trap code sa => some (10, 0x00, [⟨23, 8, code.toNat⟩, ⟨39, 6, sa.code⟩])
  | .eret => some (10, 0x01, [])
  | .mfs sd r => some (10, 0x02, [⟨45, 5, sd.toNat⟩, ⟨31, 8, r.code⟩])
  | .mts r sa => some (10, 0x03, [⟨39, 6, sa.code⟩, ⟨31, 8, r.code⟩])
  | .mtsSplit sa => some (10, 0x03, [⟨39, 6, sa.code⟩, ⟨31, 8, 0x0A⟩])
  | .mtsLfsrseed sa => some (10, 0x03, [⟨39, 6, sa.code⟩, ⟨31, 8, 0x0B⟩])
  | .mtsTrapcause sa => some (10, 0x03, [⟨39, 6, sa.code⟩, ⟨31, 8, 0x13⟩])
  | .stop sa => some (10, 0x04, [⟨39, 6, sa.code⟩])
  | .resume sa => some (10, 0x05, [⟨39, 6, sa.code⟩])
  | .bkpt code => some (10, 0x06, [⟨23, 8, code.toNat⟩])
  | .cycrd sd => some (10, 0x07, [⟨45, 5, sd.toNat⟩])
  | .phcrd sd => some (10, 0x08, [⟨45, 5, sd.toNat⟩])
  | .dbg code sa => some (10, 0x09, [⟨23, 8, code.toNat⟩, ⟨39, 6, sa.code⟩])
  | _ => none

/-- The 64-bit word of an instruction; the words that are no instruction stand for themselves. -/
def encode (i : Instr) : Option Word :=
  match i with
  | .illegalOp w => some w
  | _ => (encodeFields i).map fun (cls, op, fs) => BitVec.ofNat 64 (pack (⟨60, 4, cls⟩ :: ⟨54, 6, op⟩ :: fs))

/-- The 128-bit MSG word of a message (09:R155). -/
def encodeMsg (m : Msg) : Nat :=
  pack [⟨125, 3, 4⟩, ⟨107, 18, m.dst.toNat⟩, ⟨106, 1, m.poison.toNat⟩, ⟨105, 1, m.ver.toNat⟩, ⟨99, 6, m.op.toNat⟩,
    ⟨91, 8, m.handler.toNat⟩, ⟨73, 18, m.ccell.toNat⟩, ⟨65, 8, m.ctag.toNat⟩, ⟨0, 64, m.operand.toNat⟩]

/-- The 256 bits of a command message (25:R359). -/
def encodeCmd (c : Cmd) : Nat :=
  pack [⟨192, 64, c.arg.toNat⟩, ⟨128, 64, c.maddr.toNat⟩, ⟨64, 64, c.haddr.toNat⟩, ⟨32, 32, c.len.toNat⟩,
    ⟨16, 16, c.ctx.toNat⟩, ⟨0, 16, c.code.toNat⟩]

/-- The bits of a step that has an encoding, and how many they are. -/
def encodeTable (i : Instr) : Option (Nat × Nat) :=
  match encode i with
  | some w => some (64, w.toNat)
  | none =>
    match msgOp i with
    | some (_, m) => some (128, encodeMsg m)
    | none =>
      match cmdOf i with
      | some (_, c) => some (256, encodeCmd c)
      | none =>
        match i with
        | .unknownCommand c => some (256, encodeCmd c)
        | _ => none

end Sys2Proof
end

