-- ==== Sys2Proof/Machine/Store.lean ====
section
/-! DEFINITION. Sparse tables: lists of (key, value) with keys strictly rising. The one representation of memory,
banks, register files and every other table of the machine. -/

namespace Sys2Proof.Machine

/-- A sparse table. -/
abbrev Tbl (α : Type) := List (Nat × α)

/-- The entry of a key. -/
def tget {α : Type} : Tbl α → Nat → Option α
  | [], _ => none
  | (k, v) :: r, i => if i = k then some v else tget r i

/-- The entry of a key, or what an unlisted key reads as. -/
def tgetD {α : Type} (t : Tbl α) (d : α) (i : Nat) : α := (tget t i).getD d

/-- The table with one entry written. -/
def tput {α : Type} : Tbl α → Nat → α → Tbl α
  | [], i, x => [(i, x)]
  | (k, v) :: r, i, x => if i = k then (k, x) :: r else if i < k then (i, x) :: (k, v) :: r else (k, v) :: tput r i x

/-- The table without one entry. -/
def tdel {α : Type} (t : Tbl α) (i : Nat) : Tbl α := t.filter fun e => e.1 ≠ i

/-- A write that keeps no entry equal to what an unlisted key reads as. -/
def tset {α : Type} [DecidableEq α] (t : Tbl α) (d : α) (i : Nat) (x : α) : Tbl α :=
  if x = d then tdel t i else tput t i x

/-- Keys strictly rise. -/
def tsorted {α : Type} : Tbl α → Bool
  | [] => true
  | (k, _) :: r => (match r with | [] => true | (j, _) :: _ => decide (k < j)) && tsorted r

/-- No entry equals what an unlisted key reads as. -/
def tlean {α : Type} [DecidableEq α] (d : α) (t : Tbl α) : Bool := t.all fun e => e.2 ≠ d

/-- The list with its element `i` changed. -/
def lset {α : Type} (l : List α) (i : Nat) (f : α → α) : List α := l.modify i f

/-- The list without its element `i`. -/
def ldel {α : Type} : List α → Nat → List α
  | [], _ => []
  | _ :: r, 0 => r
  | x :: r, i + 1 => x :: ldel r i

/-- `0, 1, …, n - 1`. -/
def upTo (n : Nat) : List Nat := List.range n

/-- Stable insertion by a key. -/
def insertBy {α : Type} (key : α → Nat) (x : α) : List α → List α
  | [] => [x]
  | y :: r => if key x < key y then x :: y :: r else y :: insertBy key x r

/-- A list in rising order of a key; equal keys keep their order. -/
def sortBy {α : Type} (key : α → Nat) (l : List α) : List α := l.foldl (fun a x => insertBy key x a) []

/-- Apply `f` to the state for each element in order. -/
def each {α σ : Type} (l : List α) (s : σ) (f : σ → α → σ) : σ := l.foldl f s

end Sys2Proof.Machine
end

