-- ==== Sys2Proof/Machine/State.lean ====
section
/-! DEFINITION. The state of the module as plain data (INVENTORY.md, '## State'), the reasons a step can stop, and the
state right after reset (27:R389, R390). -/

namespace Sys2Proof.Machine

/-! ## Tokens and packets -/

/-- A 128-bit token (05:R61, 09:R154). The 128-bit MSG words are `Msg`. -/
structure Token where
  kind : BitVec 3 := 0
  dst : CellId := 0
  poison : Bool := false
  ver : Bool := false
  rtag : BitVec 8 := 0
  ctx : BitVec 10 := 0
  iter : BitVec 12 := 0
  pred : TPred := .none
  aux : BitVec 9 := 0
  payload : Word := 0
  /-- no bits of the token, but what its channel knows of it: the scope of the edge that brings it (05:R60, 07:R118), and
  that it spends none of the credits of its binding (19:R306) -/
  scope : Scope := .device
  free : Bool := false
  /-- of a RESUME that a command sends: the command's sequence number (25:R361) -/
  cmd : Option Nat := none
  /-- the external edge that brings it, if one does: configuration, node of its NODE numbering, output port (05:R93,
  06:R96) -/
  edge : Option (Nat × Nat × Nat) := none
deriving DecidableEq, Repr

/-- An output port of a node in a version of a cell. -/
structure PortRef where
  cell : Nat
  ver : Bool
  node : Nat
  port : Nat
deriving DecidableEq, Repr

/-- Who a node fault is raised against, and for which iteration (23:R342, R345). -/
structure NodeRef where
  cell : Nat := 0
  ver : Bool := false
  node : Nat := 0
  ctx : BitVec 10 := 0
  iter : BitVec 12 := 0
  /-- the node's stage where its task's own registers give it; else the node table does (21:R327, 23:R345) -/
  stage : Option (BitVec 4) := none
deriving DecidableEq, Repr

/-- Task of a cell. -/
structure TaskRef where
  cell : Nat
  slot : Nat
deriving DecidableEq, Repr

/-- Who asked for a promotion: the requesting cell and its outstanding operation; or nobody that waits (07:R123). -/
structure PromReq where
  cell : Nat
  op : Nat
  ctx : BitVec 10
  /-- index of the target in its graph's NODE section -/
  target : Nat
deriving DecidableEq, Repr

/-- A registered BAR.WAIT: entry, phase, and the waiting task (17:R273). -/
structure BarWaiter where
  bid : Nat
  ctx : BitVec 10
  phase : BitVec 12
  task : TaskRef
deriving DecidableEq, Repr

/-- What a message of the module's own carries besides its word: the promotion or the remote barrier wait that it asks
for or answers, an install completion of a configuration's cell for the hall agent, the mark of a null reply
(19:R306). -/
inductive MsgReq where
  | prom (r : PromReq)
  | bar (w : BarWaiter)
  | ready (cfg cell : Nat)
  | null
  /-- a reply that the module forms, which names the control entry -/
  | answer
  /-- bit [64] of the word is 1 (09:R156) -/
  | reserved
deriving DecidableEq, Repr

/-- What a packet carries. -/
inductive Body where
  /-- a token; `source` is the port whose credit it took, absent where it took none -/
  | token (t : Token) (source : Option PortRef)
  /-- a token to an external binding of a node's port: the cell writes version and route tag (05:R82, R396) -/
  | extToken (t : Token) (node port : Nat) (cfg : Nat)
  /-- a message with its sender's context (19:R306) and the request it belongs to, if any -/
  | msg (m : Msg) (ctx : BitVec 10) (req : Option MsgReq)
  /-- a sweep on its way: a start sweep has its second token, the cells that have matched, and the first that failed
  (15:R234, R235) -/
  | sweep (t : Token) (pair : Option Token) (matched : List Nat) (failed : Option Nat)
  /-- a start sweep that has visited every cell of its region (15:R235) -/
  | regionStart (t pair : Token) (matched : List Nat) (failed : Option Nat)
  /-- a credit on its way back to its sending port (05:R63) -/
  | credit (p : PortRef)
  /-- a retirement on its way to the LOOPB node, with the number of the retiring node in its graph (17:R252) -/
  | retire (ctx : BitVec 10) (a : Word) (by_ : NodeRef) (gid : Nat)
  /-- a presence store (with its virtual address) and a presence load on the way to the home of physical word `a`
  (07:R108) -/
  | presStore (a : Nat) (va v : Word) (by_ : NodeRef)
  | presLoad (a : Nat) (cell op : Nat)
  /-- an MPROM on the way to a hall agent (07:R123) -/
  | promLookup (r : PromReq)
deriving DecidableEq, Repr

/-- A packet in flight (05:R63, R69). -/
structure Packet where
  src : Nat
  dst : Nat
  body : Body
deriving DecidableEq, Repr

/-! ## Nodes and versions -/

/-- Roles of nodes (05:R58, R59). -/
inductive Role where
  | loader | compute | storer | loopb | landing | reduce
deriving DecidableEq, Repr

/-- Predicate match of a node (05:R58, R65). -/
inductive PMatch where
  | any | tru | fls | null
deriving DecidableEq, Repr

/-- Where an edge leads (05:R60). -/
inductive EdgeDest where
  | internal (cell : Nat) (rtag : BitVec 8)
  /-- configuration of the same context, node of its NODE numbering, input port -/
  | external (cfg node port : Nat)
deriving DecidableEq, Repr

/-- An output edge with its sender's side: credits, spill ring (05:R60, R63, R91). -/
structure Edge where
  dest : EdgeDest
  scope : Scope := .device
  ordered : Bool := false
  credits : Nat := 16
  /-- capacity of the spill ring in tokens -/
  ring : Option Nat := none
  ringTokens : List Token := []
  /-- cycle from which the sender has stalled on the full ring (05:R92) -/
  stalledSince : Option Nat := none
deriving DecidableEq, Repr

/-- A pass of a loader or storer node (21:R309). -/
structure Pass where
  slot : Nat
  mask : Nat
  ind : Bool
  ctx : BitVec 10
  iter : BitVec 12
  ver : Bool
  taint : Bool
  /-- the PADDR token of in1: absent, null, or an address (21:R311) -/
  paddr : Option (Option Nat)
  /-- rows done, in descriptor order -/
  rowsDone : Nat := 0
  /-- the row being sent, with its poison, and its segments already sent (21:R310) -/
  buf : Option (Row × Bool) := none
  segs : Nat := 0
  /-- tokens taken for the present row: payload, poison, null (21:R311) -/
  got : List (Word × Bool × Bool) := []
  /-- suppressed rows: count, and of the first the cycle, the address and whether it is physical (21:R326) -/
  suppressed : Nat := 0
  suppressedAt : Nat := 0
  suppressedAddr : Nat := 0
  suppressedPhys : Bool := false
  /-- offsets read from the index table so far, by slice (21:R312) -/
  offs : Tbl Nat := []
  failed : Option Nat := none
  /-- TE.CANCEL has ended it, with the cause that held it (19:R280, R291) -/
  cancelled : Option Nat := none
  /-- cycle of the END that began it (07:R132) -/
  begun : Nat := 0
  /-- the pass reads its descriptor once, at its start -/
  desc : Row
deriving DecidableEq, Repr

/-- A wave operation at the memory interface (07:R134, 17:R260). -/
structure WaveOp where
  ctx : BitVec 10
  iter : BitVec 12
  ws : Nat
  wp : Nat
  wq : Nat
  null : Bool
  poison : Bool
  store : Bool
  addr : Word
  data : Word
  size : Size
  sx : Bool
  /-- the issuing node, and the outstanding operation that a wave load answers -/
  source : NodeRef
  op : Option (Nat × Nat)
  /-- the word that sent it (23:R342) -/
  word : Word := 0
deriving DecidableEq, Repr

/-- A node of a version (05:R58) with the state it holds. -/
structure Node where
  /-- index in the graph's NODE section -/
  gid : Nat := 0
  role : Role := .compute
  handler : Nat := 0
  stage : BitVec 4 := 0
  pmatch : PMatch := .any
  /-- ports in use: true for ORDERED -/
  inputs : List (Option Bool) := []
  outputs : List (Option Edge) := []
  window : Nat := 1
  scope : Scope := .device
  stall0 : Nat := 0
  stall1 : Nat := 0
  stall2 : Nat := 0
  stall3 : Nat := 0
  /-- LOOPB window (17:R251) -/
  loopBase : Nat := 0
  loopNext : Nat := 0
  retired : List Nat := []
  passes : List Pass := []
  waves : List WaveOp := []
  /-- sequence numbers performed, by wave -/
  waveDone : List (Nat × Nat × Nat) := []
  /-- input ports on which STOPs have been consumed, one entry for each; STOP from the agent; halted (23:R349) -/
  stopPorts : List Nat := []
  stopAgent : Bool := false
  halted : Bool := false
  /-- output ports on which STOP has been sent on -/
  stopSent : List Nat := []
  /-- contributions of a REDUCE node: iteration, input port, payload, poison, null (03:R56) -/
  contribs : List (Nat × Nat × Word × Bool × Bool) := []
  /-- deliveries to a node without input ports, each with the port whose credit it took; a firing takes one (05:R64) -/
  deliveries : List (Nat × Token) := []
  /-- position in the cell's issue order of the node's last retired instruction, and the last cycle that saw it without
  a task (07:R128) -/
  lastRetired : Nat := 0
  lastIdle : Nat := 0
  /-- the address port holds an access since this cycle (23:R347) -/
  heldSince : Option Nat := none
deriving DecidableEq, Repr

/-- A route-tag binding with its channel FIFO (05:R60, R63, R396, R397). -/
structure Binding where
  node : Nat
  port : Nat
  external : Bool := false
  /-- of an external binding: the object's external edges into its port, and the EOS tokens that it has consumed
  (05:R93, R396) -/
  edges : Nat := 0
  eos : Nat := 0
  /-- the external edges that have ended: configuration, node, output port (05:R93) -/
  endedEdges : List (Nat × Nat × Nat) := []
  /-- the sending port of an internal binding -/
  source : Option PortRef := none
  fifo : List Token := []
  blocked : Bool := false
  ended : Bool := false
  /-- cycle from which its head has waited for a store entry (05:R79) -/
  fullSince : Option Nat := none
  fullRaised : Bool := false
  /-- payload of the last token delivered (21:R320) -/
  last : Option Word := none
  /-- a PACK packet being expanded (21:R319) -/
  pack : Option Token := none
  packPos : Nat := 0
  /-- a token of the port is held by a fault: STOP, RESUME objects 0 to 3 -/
  heldSince : Option Nat := none
deriving DecidableEq, Repr

/-- States of a version (05:R81). -/
inductive VerState where
  | empty | loading | ready | live
deriving DecidableEq, Repr

/-- An entry of a handler table with its cursor (19:R306, 21:R321). -/
structure HEntry where
  word : BitVec 43
  cursor : Nat := 0
  last : Word := 0
deriving DecidableEq, Repr

/-- A version of a cell (05:R81). -/
structure Version where
  state : VerState := .empty
  /-- context and configuration installed, or last installed -/
  owner : Option (BitVec 10 × Nat) := none
  epochOpen : Bool := false
  /-- a sweep has made the nodes of the cell's other version live in place of this one's (05:R83) -/
  swept : Bool := false
  overflow : Bool := false
  nodes : List Node := []
  bindings : List Binding := []
  code : Tbl Word := []
  handlers : Tbl HEntry := []
  /-- tokens and messages held at the port while LOADING (05:R81, R88) -/
  held : List Packet := []
deriving DecidableEq, Repr

/-! ## Tasks -/

/-- An entry of a loop stack (11:R178). -/
structure LoopEntry where
  start : Nat
  last : Nat
  remaining : Nat
  depth : Nat
deriving DecidableEq, Repr

/-- What a waiting task waits for. -/
inductive Wait where
  | none
  /-- the instruction could not go on at this cycle and is tried again; the stall counter it counts in -/
  | retry (stall : Option Nat) (vstall : Bool)
  /-- the result of an outstanding operation of the cell that keeps the task from running -/
  | op (id : Nat)
  /-- WAITT until CYC reaches the value (17:R254) -/
  | waitt (a : Word)
  /-- WAITF: next read no sooner than the cycle (17:R255) -/
  | waitf (c : WaitCond) (scope : Scope) (sd : BitVec 5) (pa : Nat) (host : Bool) (b : Word) (since : Nat)
  /-- BAR.WAIT registered at the home for a phase (17:R273) -/
  | bar (home : Nat) (bid : Nat) (phase : BitVec 12)
  /-- a translation in progress at the walker (21:R316) -/
  | walk
  /-- a failed walk holds the access (23:R347) -/
  | held (since : Nat)
  /-- OWNFLIP, issued at a cycle, until the cell's earlier flips have taken effect, and one to CELL until the accesses to the
  region that were issued before it have finished (07:R132, 17:R275) -/
  | flip (region : Nat) (engine : Bool) (since : Nat)
  /-- TE.CANCEL until the record is written (19:R291) -/
  | cancel (slot : Nat) (sd : BitVec 5)
deriving DecidableEq, Repr

/-- A translated leaf (07:R105, R106). -/
structure Leaf where
  root : Nat
  /-- first virtual address of the page, and its size -/
  vbase : Nat
  size : Nat
  frame : Nat
  attr : Nat
  writable : Bool
deriving DecidableEq, Repr

/-- A task (05:R66). -/
structure Task where
  node : Nat := 0
  ver : Bool := false
  ctx : BitVec 10 := 0
  iter : BitVec 12 := 0
  stage : BitVec 4 := 0
  pc : BitVec 10 := 0
  regs : Tbl Word := []
  preds : BitVec 8 := 1
  calls : List Nat := []
  loops : List LoopEntry := []
  ins : List Token := []
  taint : Bool := false
  sendIter : BitVec 12 := 0
  armed : Bool := false
  marked : Bool := false
  trapCause : BitVec 8 := 0
  trapAddr : Word := 0
  trapInfo : Word := 0
  epc : BitVec 10 := 0
  /-- ports sent on in this firing (11:R180) -/
  sent : List Nat := []
  /-- ports on which the present STEER, DUP or END has sent (23:R351) -/
  done : List Nat := []
  /-- engine requests of the task, in issue order: hall and identity (17:R254) -/
  requests : List (Nat × Nat) := []
  wait : Wait := .none
  /-- cycle of the last attempt that could not go on -/
  waitAt : Option Nat := none
  /-- cycles at which scalars become readable (11:R166) -/
  ready : Tbl Nat := []
  /-- scalars that an outstanding operation will write -/
  pending : List Nat := []
  nextIssue : Nat := 0
  /-- the translation that a walk gave this task (21:R316) -/
  grant : Option Leaf := none
  /-- the task is being abandoned: its END sends are under way (23:R344) -/
  abandoned : Bool := false
  /-- the tag that a LOOPB.ISSUE has taken and not yet sent (17:R251) -/
  taken : Option Nat := none
  /-- lines that its L1 maintenance writes back, each until a cycle (17:R267) -/
  l1Wait : Tbl Nat := []
deriving DecidableEq, Repr

/-- A firing that waits for a slot (05:R66). -/
structure Firing where
  node : Nat
  ver : Bool
  ctx : BitVec 10
  iter : BitVec 12
  ins : List Token
deriving DecidableEq, Repr

/-- An entry of the matching store, or of the overflow area behind it (05:R77, R78). -/
structure MatchEntry where
  ver : Bool
  node : Nat
  port : Nat
  token : Token
  /-- the entry lies in the overflow area -/
  spilled : Bool := false
deriving DecidableEq, Repr

/-! ## Memory operations of a cell -/

/-- What an outstanding operation does when it returns (17:R244). -/
inductive OpKind where
  /-- a plain load through L1, or a scoped load with its acquire; its value and poison once it has been served -/
  | load (scope : Option Scope) (v : Option (Word × Bool))
  /-- an atomic: its opcode and operands; the old value and poison once it has been performed -/
  | atomic (op : Nat) (b c : Word) (v : Option (Word × Bool))
  /-- presence load: its value once the home has given it -/
  | pres (v : Option (Word × Bool))
  /-- LDA.PROM: it waits for the promotion's reply, then loads; whether the reply has come, and names an unknown node -/
  | prom (answered : Bool) (badNode : Bool)
  /-- TAGSET's window read -/
  | tagset (a : Word)
  /-- wave load: its value once the interface has performed it -/
  | wave (v : Option (Word × Bool))
  /-- LDPR at the bank: whether it was deferred, and its value once it has one -/
  | presBank (deferred : Bool) (v : Option (Word × Bool))
deriving DecidableEq, Repr

/-- An outstanding operation (17:R244). -/
structure Op where
  id : Nat
  slot : Nat
  kind : OpKind
  sd : BitVec 5
  /-- physical address, host addresses with bit 47 -/
  pa : Nat
  /-- virtual address of the operand -/
  va : Word
  size : Size
  sx : Bool
deriving DecidableEq, Repr

/-- A line of a cache (07:R99, R101): the clean copy of its 128 bytes, absent where it holds none, each dirty byte
with the cell that wrote it, and by 32-byte sector the poison of the copy and that of the dirty bytes (27:R375 to R377). -/
structure Line where
  base : Option Row := none
  dirty : Tbl (Byte × Nat) := []
  poison : BitVec 4 := 0
  bad : BitVec 4 := 0
deriving DecidableEq, Repr

/-- Units of a cell that hold an instruction for more than a cycle (11:R167, 13:R184, 15:R216). -/
inductive UnitName where
  | lane | matrix | accport | divider | region
deriving DecidableEq, Repr

/-- What an instruction in flight reads or writes (13:R184, 15:R217). -/
inductive Res where
  | row (r : Nat) | q (i : Nat) | tile (i : Nat) | latch | pair (i : Nat) | lfsr | accsat | region
deriving DecidableEq, Repr

/-- A PL, CV or MX instruction in flight. -/
structure Flight where
  unit_ : UnitName
  until_ : Nat
  reads : List Res
  writes : List Res
deriving DecidableEq, Repr

/-- The operand latch (15:R224). -/
structure Latch where
  planes : List Row := []
  fmt : BitVec 5 := 0
  width : Nat := 0
  scale : Row := 0
deriving DecidableEq, Repr

/-- An entry of the promotion log (07:R121). -/
structure LogEntry where
  node : Nat
  pos : Nat
deriving DecidableEq, Repr

/-- A barrier entry (17:R271). -/
structure BarEntry where
  owner : Option (BitVec 10) := none
  phase : BitVec 12 := 0
  bytes : Bool := false
  expected : Nat := 0
  total : Nat := 0
  poison : Bool := false
deriving DecidableEq, Repr

/-- States of a descriptor slot (19:R276). -/
inductive SlotState where
  | empty | ready | busy | done
deriving DecidableEq, Repr

/-- A descriptor slot (19:R276, R283). -/
structure Slot where
  state : SlotState := .empty
  owner : BitVec 10 := 0
  desc : Row := 0
  record : BitVec 128 := 0
  /-- the request's queue and identity while BUSY with an engine request -/
  req : Option (Nat × Nat) := none
deriving DecidableEq, Repr

/-- The region operation of a compute cell (15:R235, R236). -/
structure RegionOp where
  ctx : BitVec 10
  iter : BitVec 12
  /-- the register and the pair value that the start sweep matched -/
  word : Word
  pair : BitVec 32
  /-- taint of the sweep -/
  poison : Bool
  /-- the start sweep failed: only the completion token is owed (15:R237) -/
  fails : Bool
  /-- steps begun, and the cycle before which the next does not begin -/
  steps : Nat
  until_ : Nat
  /-- operands that the streams of its row and column have brought, by step: the first cycle for them, rows, poison -/
  inA : List (Nat × List Row × Bool) := []
  inB : List (Nat × List Row × Bool) := []
deriving DecidableEq, Repr

/-- A cell (01:R14). -/
structure Cell where
  bank : Tbl Row := []
  bankPoison : Tbl Bool := []
  /-- full presence words of the bank: row * 16 + word -/
  bankFull : Tbl Bool := []
  /-- regions of 64 rows written since the install (23:R352) -/
  written : BitVec 8 := 0
  /-- bank presence loads deferred: word and operation -/
  deferred : List (Nat × Nat × Nat) := []
  v0 : Version := {}
  v1 : Version := {}
  /-- nodes, by index, whose live version is 1 (05:R83) -/
  liveOne : List Nat := []
  /-- entries of the store and of the overflow area, in arrival order -/
  store : List MatchEntry := []
  readyFirings : List Firing := []
  /-- version and route tag of each token in a channel FIFO, in arrival order (05:R63, R77) -/
  arrivals : List (Bool × Nat) := []
  tasks : Tbl Task := []
  /-- slots freed in this cycle: they take a firing from the next one on (11:R180) -/
  freed : List Nat := []
  q : Tbl Row := []
  qPoison : List Nat := []
  pp : Tbl (BitVec 32) := []
  /-- accumulator tiles: significand and exponent by tile * 64 + row * 8 + column (03:R41) -/
  accS : Tbl (BitVec 48) := []
  accX : Tbl (BitVec 10) := []
  tilePoison : List Nat := []
  latch : Latch := {}
  latchPoison : Bool := false
  /-- region register: the word, zero while it is clear, and the recorded pair value (15:R233) -/
  region : Word := 0
  regionPair : BitVec 32 := 0
  regionOp : Option RegionOp := none
  lfsrSeed : BitVec 16 := 0
  /-- lanes whose generator has stepped since the last seeding (03:R47, R48) -/
  lfsr : Tbl (BitVec 16) := []
  split : BitVec 3 := 0
  l1 : Tbl Line := []
  callMax : BitVec 4 := 0
  accSat : BitVec 5 := 0
  lateCnt : Nat := 0
  vstall : Nat := 0
  served : Nat := 0
  eager : Nat := 0
  log : List LogEntry := []
  eagerMark : Option Nat := none
  /-- position in the cell's issue order (07:R121) -/
  issuePos : Nat := 0
  /-- promotion accepted and not complete: requests that complete with it, entries covered (07:R124) -/
  prom : Option (List PromReq × Nat) := none
  promWaiting : List PromReq := []
  /-- requester, and position in the issue order and cycle at which its last request completed (07:R128) -/
  promLast : List (Nat × Nat × Nat) := []
  owner : BitVec 8 := 0
  bars : Tbl BarEntry := []
  barWaiters : List BarWaiter := []
  /-- arrivals held at the barrier input (17:R272) -/
  barHeld : List Token := []
  /-- remote waits held at the input -/
  barHeldWaits : List BarWaiter := []
  /-- tasks whose OWNFLIP has issued and not taken effect, in issue order (17:R275) -/
  flips : List Nat := []
  /-- cycle at which the L1 port has written back the lines given to it (17:R267) -/
  l1Until : Nat := 0
  slots : Tbl Slot := []
  outq : List Packet := []
  ops : List Op := []
  nextOp : Nat := 0
  flights : List Flight := []
  tlb : List Leaf := []
  rr : Nat := 7
  issuedAt : Option Nat := none
  /-- scan-out has stopped issue, and then the clock (23:R351) -/
  issueStopped : Bool := false
  clockStopped : Bool := false
deriving DecidableEq, Repr

/-! ## Halls -/

/-- Kinds of engine requests (19:R277). -/
inductive ReqKind where
  | copy | copyp | gather | scatter | fill | transpose | decode | remote | sig
deriving DecidableEq, Repr

/-- An engine request (19:R277 to R282). -/
structure Request where
  id : Nat
  cell : Nat
  slot : Nat
  node : NodeRef
  kind : ReqKind
  desc : Row
  a : Word
  b : Word
  c : Word
  ord : Bool
  sid : BitVec 8
  cost : Nat
  promise : Nat
  started : Bool := false
  rowsDone : Nat := 0
  /-- offsets read from the index table so far, by slice (19:R286) -/
  offs : Tbl Nat := []
  /-- held by a failed walk since this cycle (19:R282) -/
  heldSince : Option Nat := none
  grant : Option Leaf := none
  cancelled : Bool := false
  /-- the cause that held it at the cancel (19:R280) -/
  cancelCause : Nat := 0
  failed : Option Nat := none
  /-- expanded chunks that wait for their rows to be written: the chunk's place in the request, its bytes, poison; absent
  where the stream gives none (21:R324) -/
  chunks : List (Nat × Option (List Nat × Bool)) := []
  /-- the word that made the request (23:R342) -/
  word : Word := 0
  /-- cycles at which the rows, or the add, were first sent to the peer (25:R366) -/
  sent : List Nat := []
  /-- cycle of its issue (07:R132) -/
  issuedAt : Nat := 0
deriving DecidableEq, Repr

/-- A group of a slice whose planes a request writes, in the order in which the groups were begun: the request's identity,
the prefix with which the group is whole, and the rows written so far with their lanes. It stands as long as a group begun
before it is not whole (08:R141). -/
structure OpenGroup where
  request : Nat
  whole : Nat
  rows : List (Nat × Nat × Nat) := []
deriving DecidableEq, Repr

/-- An entry of a meridian queue (19:R293). -/
structure MqEntry where
  key : BitVec 32
  value : Word
  ctx : BitVec 10
  poison : Bool
deriving DecidableEq, Repr

/-- A pop that waits at a meridian queue (19:R295), from a task's node and port or from a message. -/
structure MqPop where
  ctx : BitVec 10
  iter : BitVec 12
  gid : Nat
  cfg : Nat
  port : Nat
  reply : Option Msg := none
deriving DecidableEq, Repr

/-- Who waits on a walk (21:R316). -/
inductive Waiter where
  | task (cell slot : Nat)
  | engine (hall eq id : Nat)
  | pass (cell : Nat) (ver : Bool) (node : Nat)
  | wave (cell : Nat) (ver : Bool) (node : Nat) (k : Nat)
deriving DecidableEq, Repr

/-- A walk in progress or waiting for one of the 32 places (21:R316). -/
structure Walk where
  root : Option Nat
  va : Word
  write : Bool
  /-- who waits, with the address and the kind of its own access -/
  waiters : List (Waiter × Word × Bool)
  /-- the root was invalidated meanwhile: the result is not cached (21:R317) -/
  noCache : Bool := false
deriving DecidableEq, Repr

/-- A transfer that is to be made again (27:R380, R381): direction, block, its lines in ascending order, one a beat (28:R394);
failed attempts since the channel folded, or of all, first failing beat of the first of them, first failing group of the last. -/
structure Xfer where
  write : Bool
  block : Nat
  lines : List Nat
  failed : Nat := 0
  beat : Nat := 0
  group : Nat := 0
deriving DecidableEq, Repr

/-- A vertical channel (27:R380 to R382). -/
structure Channel where
  /-- folded, and whether the upper half is kept -/
  folded : Option Bool := none
  offline : Bool := false
  /-- lines of 256 bytes of the hall whose read misses have reached the channel, each with its cycle (28:R394) -/
  misses : List (Nat × Nat) := []
  /-- the transfer being retried, or made again after a fold -/
  xfer : Option Xfer := none
deriving DecidableEq, Repr

/-- A conditional write-back (27:R379): sector, whether it stands for an uncorrectable codeword, and whether the
sector has been written since. -/
structure WriteBack where
  sector : Nat
  poison : Bool
  stale : Bool := false
deriving DecidableEq, Repr

/-- A hall (01:R18). -/
structure Hall where
  /-- gallery caches, by gallery -/
  gc : Tbl (Tbl Line) := []
  /-- lines of other halls' memory in the L2, in units of 128 bytes -/
  l2 : Tbl Line := []
  /-- lines of 256 bytes of the hall's own memory in the L2, and whether they are dirty (07:R99; 27:R379; 28:R394) -/
  home : Tbl Bool := []
  queues : Tbl (List Request) := []
  /-- the request that each engine served last (21:R307) -/
  served : Tbl Nat := []
  nextReq : Nat := 0
  mq : List MqEntry := []
  mqPops : List MqPop := []
  /-- SPAWN and MSPAWN messages that wait for space -/
  mqPush : List (MqEntry × Option Msg) := []
  walks : List Walk := []
  wcache : List Leaf := []
  late : Nat := 0
  lastDecision : Nat := 0
  /-- decisions due at events of R337 -/
  due : Nat := 0
  /-- reserved candidate, and the reservation queue (23:R338) -/
  reserved : Option Nat := none
  reserveQueue : List Nat := []
  chrono : Tbl (BitVec 256) := []
  chronoHead : Nat := 0
  frozen : Bool := false
  lastFatal : BitVec 8 := 0
  ael : Tbl (BitVec 128) := []
  aelHead : Nat := 0
  aelCorrected : Nat := 0
  aelUncorrectable : Nat := 0
  bel : Tbl (BitVec 128) := []
  belHead : Nat := 0
  belRetried : Nat := 0
  belFolds : Nat := 0
  belOffline : Nat := 0
  channels : Tbl Channel := []
  writeBacks : List WriteBack := []
  enabled : Bool := true
  temp : BitVec 16 := 0
  power : BitVec 16 := 0
  /-- the hall's agent is switching firmware: lookups and capture deliveries wait (25:R371) -/
  switching : Bool := false
  /-- cycle at which the switch ends at the latest, and whether the agent has switched in this activation -/
  switchEnd : Nat := 0
  switched : Bool := false
deriving DecidableEq, Repr

/-! ## Objects, configurations, contexts -/

/-- An input or output port of a node record (09:R162), and its edges. -/
structure EdgeSpec where
  source : Nat
  outPort : Nat
  /-- destination configuration: absent for an edge inside the configuration -/
  cfg : Option Nat
  dest : Nat
  inPort : Nat
  ordered : Bool
  spill : Nat
  /-- the scope of its EDGE record; R60 gives the edge the smallest scope that contains its ends -/
  scope : Scope := .device
deriving DecidableEq, Repr

/-- A node of a loaded object (09:R162), with the words of its handler and its placement hint. -/
structure NodeSpec where
  gid : Nat
  /-- offset of its name in STRINGS -/
  name : Nat := 0
  role : Role
  handlerId : Nat
  code : List Word
  stage : BitVec 4
  pmatch : PMatch
  inputs : List (Option Bool)
  outputs : List Bool
  window : Nat
  scope : Scope
  subgraph : Nat
  hint : Option Nat
  fixed : Bool
  /-- the l1 option of its placement hint -/
  l1 : Option Nat
deriving DecidableEq, Repr

/-- A TENSOR record (09:R159, R161): offset of its name in STRINGS, format and width, elements; the node whose layout
places it, and where: the first bank row, or a virtual address. -/
structure Tensor where
  name : Nat
  fmt : Nat
  width : Nat
  elements : Nat
  node : Nat
  bankRow : Option Nat
  va : Word
  pres : Bool
deriving DecidableEq, Repr

/-- A tensor that a node of the configuration places, with the rows of its data image: none for a layout without data
(09:R159, 23:R399). -/
structure Image extends Tensor where
  rows : List Row
deriving DecidableEq, Repr

/-- A configuration of a loaded object. -/
structure CfgSpec where
  /-- offset of its name in STRINGS -/
  name : Nat := 0
  opOr : Bool
  onTrue : Option Nat
  onFalse : Option Nat
  prio : Nat
  /-- bytes of the vestibule as the object gives them, if it does (05:R85) -/
  vest : Option Nat
  overflow : Bool
  nodes : List NodeSpec
  edges : List EdgeSpec
  images : List Image
  /-- node and input port of each external edge of the object that leads here (05:R396) -/
  fed : List (Nat × Nat) := []
deriving DecidableEq, Repr

/-- A REGION record of an object (09:R159, R161). -/
structure RegionSpec where
  name : Nat
  hall : Nat
  gallery : Nat
  row0 : Nat
  col0 : Nat
  rows : Nat
  cols : Nat
deriving DecidableEq, Repr

/-- A loaded object (25:R361). -/
structure Obj where
  strict : Bool
  entry : Option Nat
  cfgs : List CfgSpec
  regions : List RegionSpec := []
deriving DecidableEq, Repr

/-- States of a configuration (23:R339). -/
inductive CfgState where
  | unplaced | loading | ready | live | draining | scanning | saving | saved | exited
deriving DecidableEq, Repr

/-- A saved cell of a configuration (23:R352). -/
structure Saved where
  cell : Nat
  nodes : List Node
  bindings : List Binding
  store : List MatchEntry
  tasks : List (Nat × Task)
  readyFirings : List Firing
  image : Cell
  /-- deferred presence loads of its tasks that have no value yet (07:R109) -/
  ops : List Op := []
  /-- token packets on the links to the cell (23:R351) -/
  links : List Packet := []
  /-- route tags of the FIFO tokens in the order of their arrival (05:R77) -/
  arrivals : List Nat := []
  handlers : Tbl HEntry := []
  /-- the cell that holds what the image holds of the cell itself, where another configuration of the context keeps it
  there or has brought it there -/
  at_ : Option Nat := none
deriving DecidableEq, Repr

/-- Where a node is placed: the placement table's entry (23:R336). -/
structure Place where
  gid : Nat
  cell : Nat
  ver : Bool
  node : Nat
deriving DecidableEq, Repr

/-- A registered configuration of a context (23:R334, R339, R398). -/
structure CfgRt where
  spec : CfgSpec
  state : CfgState := .unplaced
  home : Nat := 0
  /-- tokens waiting: destination node, input port, token, cycle of entry; and how many at the front were forwarded
  (05:R85, R86, R96) -/
  vest : List (Nat × Nat × Token × Nat) := []
  forwarded : Nat := 0
  /-- messages forwarded by an EMPTY version -/
  vestMsgs : List Packet := []
  places : List Place := []
  /-- halls whose agents' copies of its placement entries do not hold the last change yet, with what they hold
  (23:R336) -/
  older : Tbl (List Place) := []
  /-- versions that its home scheduler has claimed for it: cell and version (23:R338, R398) -/
  claims : List (Nat × Bool) := []
  /-- the entries to be written when the install completes -/
  loadPlaces : List Place := []
  /-- replacements of the configuration's former cells (23:R355) -/
  moved : List (Nat × Nat) := []
  /-- credits of the external bindings: node * 4 + port (05:R396) -/
  credits : Tbl Nat := []
  bySwap : Bool := false
  /-- swapped out because an access was held too long: a candidate again after a RESUME for it (23:R347) -/
  byHold : Bool := false
  resumed : Bool := false
  /-- decisions counted, and the cycle at which it became a candidate (05:R86, 23:R338) -/
  count : Nat := 0
  candSince : Option Nat := none
  liveSince : Nat := 0
  /-- the predicate network has selected it as a successor (05:R84) -/
  wanted : Bool := false
  /-- cycle in which a port of the configuration last accepted a token (05:R92) -/
  lastAccept : Nat := 0
  /-- cells that have not yet reported MRDY -/
  loadingCells : List Nat := []
  restore : Bool := false
  /-- phase bits posted: gallery (of the module) and value (05:R84) -/
  phase : List (Nat × Bool) := []
  saved : List Saved := []
  savingCells : List Nat := []
  scanCells : List Nat := []
  deadline : Nat := 0
  stopPending : Bool := false
deriving DecidableEq, Repr

/-- A context (05:R74; 23:R334; 25:R364, R367). -/
structure Ctx where
  live : Bool := false
  /-- cycle of the exit, until the id is issued anew -/
  exitedAt : Option Nat := none
  root : Option Nat := none
  /-- fault ring: virtual base, m; records written -/
  ring : Option (Word × Nat) := none
  ringCount : Nat := 0
  window : Nat := 1
  hold : Nat := 1250000
  admissions : List (Nat × Nat) := []
  strict : Bool := false
  obj : Nat := 0
  launch : Nat := 0
  /-- first cause of the LAUNCH entry (25:R363) -/
  cause : Nat := 0
  /-- a stop of the whole context is under way: sequence numbers of the STOP commands that wait for it -/
  stopping : Bool := false
  stopSeqs : List Nat := []
  /-- sequence numbers of the EXIT commands that wait for the exit -/
  exitSeqs : List Nat := []
deriving DecidableEq, Repr

/-! ## The control processor, links and management -/

/-- A journal entry (25:R363). -/
structure JEntry where
  seq : Nat
  code : Nat
  ctx : BitVec 16
  status : Nat
  cause : Nat
  state : Nat
  digest : BitVec 256
  accept : Nat
  done : Nat
deriving DecidableEq, Repr

/-- A firmware slot (27:R387). -/
structure FwSlot where
  image : List Byte := []
  secver : Nat := 0
  verified : Bool := false
deriving DecidableEq, Repr

/-- What the HA-4 adapter keeps for the host: the mirror of the journal ring, by slot, and of the status words (25:R362). -/
structure Mirror where
  ring : Tbl (BitVec 512) := []
  journalHead : Nat := 1
  /-- log entry 12 -/
  journalBase : Nat := 0xBFF000000
  fwSlot : Nat := 0
  linkStat : Nat := 0
deriving DecidableEq, Repr

/-- The control processor (25:R359 to R371; 27:R387 to R392). -/
structure Cp where
  nextSeq : Nat := 1
  journal : Tbl JEntry := []
  /-- acceptance is paused since this cycle; messages wait (25:R371) -/
  paused : Option Nat := none
  waiting : List Cmd := []
  /-- accepted commands that have not started, in order: a LAUNCH that waits for a free context id, and what follows -/
  pending : List (Nat × Cmd) := []
  /-- accepted commands that have not ended, by number: code and context (25:R360; 27:R386, R390) -/
  live : Tbl (BitVec 16 × BitVec 16) := []
  /-- commands whose access a LOADING version holds (05:R88, 25:R361) -/
  held : List (Nat × Cmd) := []
  objs : Tbl Obj := []
  fw0 : FwSlot := { verified := true }
  fw1 : FwSlot := {}
  running : Bool := false
  activation : Option Nat := none
  fuseMin : Nat := 0
  attestIndex : Nat := 0
  replays : Nat := 0
  retrains : Nat := 0
  replayRun : Nat := 0
  bootStat : BitVec 8 := 6
  moduleNum : BitVec 8 := 0
  powerLimit : Nat := 4800
  powerNow : BitVec 16 := 0
  throttle : Nat := 0
  level : Nat := 0
  /-- cycle at which the present power window ends (27:R393) -/
  windowEnd : Nat := 1048576
  inlet : BitVec 16 := 0
  flow : BitVec 16 := 0
  fatal : Bool := false
  /-- faults that reach the CP while it changes firmware, each with the number of its context's LAUNCH (25:R371) -/
  queued : List (Option Nat × BitVec 256) := []
  /-- fault records the CP has received (23:R345) -/
  records : List (BitVec 256) := []
deriving DecidableEq, Repr

/-- An Ethernet port (25:R365 to R370). -/
structure Port where
  up : Bool := true
  /-- context, node, input port of a capture binding; disabled ones deliver what is buffered -/
  capture : Option (BitVec 10 × Nat × Nat) := none
  enabled : Bool := false
  seq : BitVec 24 := 0
  errors : Nat := 0
  drops : Nat := 0
  dropping : Bool := false
  uud : Nat := 0
  ptp : Bool := false
  /-- PTP event frames that firmware has taken, and those that the port holds for it: seconds, nanoseconds, bytes
  (25:R370; 26:R374) -/
  events : List (Nat × Nat × List Byte) := []
  held : List (Nat × Nat × List Byte) := []
  ptpDrops : Nat := 0
  /-- tokens of buffered frames, and the bytes that the frames hold -/
  buffer : List (Nat × List (BitVec 9 × Word)) := []
deriving DecidableEq, Repr

/-- Bytes on their way to host memory that the host has not acknowledged (07:R139): a store's address with its cell and
node, or the sequence number, context and status of the READ whose data they are (25:R361). -/
structure HostStore where
  addr : Nat
  cell : Option Nat := none
  /-- it is the write of an STR at SYSTEM (07:R113), or of a request: its hall and identity -/
  releases : Bool := false
  request : Option (Nat × Nat) := none
  node : Option NodeRef := none
  read : Option (Nat × BitVec 16 × Nat) := none
deriving DecidableEq, Repr

/-- One write by an agent that the step of an event leaves to a later turn. -/
inductive Turn where
  /-- a cell issues one instruction of a runnable task (05:R67) -/
  | issue (cell : CellId)
  /-- the clock advances (01:R26, R27) -/
  | tick
  /-- an event of the module's agents, or a command message that arrives -/
  | event (i : Instr) (c : Choice)
  /-- the message or token packet at place `n` reaches its destination -/
  | deliver (n : Nat)
  /-- the head of a channel FIFO moves into the matching store (05:R63) -/
  | fifo (cell : CellId) (ver : Bool) (rtag : BitVec 9)
  /-- the oldest token of a spill ring moves into the FIFO (05:R91) -/
  | ring (cell : CellId) (ver : Bool) (node port : Nat)
  /-- a sending port replaces the run of `k` tokens from place `n` of the net on by one PACK token (21:R319) -/
  | pack (n k fmt : Nat)
  /-- a node that has consumed its STOPs sends STOP on and halts, if its tasks allow (23:R349) -/
  | halt (cell : CellId) (ver : Bool) (node : Nat)
  /-- a transit engine writes the next row of its rotation (19:R280, 21:R307) -/
  | engineRow (hall : BitVec 3) (eq : BitVec 4)
  /-- a hall agent's copy takes up a configuration's placement entries (23:R336) -/
  | table (hall : BitVec 3) (ctx : BitVec 10) (cfg : Nat)
  /-- a cache line is written back and leaves: level 1, 2, 3 of a cell, gallery, hall (07:R99) -/
  | evict (level : Nat) (place : Nat) (line : Nat)
  /-- the outbound queue of a cell sends its oldest message (17:R256) -/
  | outq (cell : CellId)
  /-- the CP slews the rate word (25:R370) -/
  | rate (w : Nat)
  /-- the CP steps the PHC (25:R370) -/
  | phcStep (sec ns : Nat)
  /-- the CP reserves a port for PTP, or gives it back (25:R370) -/
  | ptpPort (port : BitVec 5) (on : Bool)
  /-- a hall agent begins or ends its switch to new firmware (25:R371) -/
  | agentSwitch (hall : BitVec 3)
  /-- an access finds an uncorrectable error in a bank row, in the 64-bit word of a gallery cache's line at physical address
  8 * `word`, or in a hall's copy of an L2 sector, or nobody's access does (27:R375, R378): the syndrome, and the node -/
  | bankError (cell : CellId) (row : Nat) (syndrome : BitVec 10) (finder : Option NodeRef)
  | galleryError (gallery : Nat) (word : Nat) (syndrome : BitVec 10) (finder : Option NodeRef)
  | l2Error (hall : BitVec 3) (sector : Nat) (syndrome : BitVec 10) (finder : Option NodeRef)
deriving DecidableEq, Repr

/-- The module. -/
structure State where
  /-- cycles since cold reset; CYC is this modulo 2^64 (01:R26) -/
  now : Nat := 0
  phcS : BitVec 48 := 0
  phcNs : Nat := 0
  phcFrac : Nat := 0
  /-- advance of the PHC per cycle in units of 2^-32 ns (01:R27) -/
  rate : Nat := 3435973837
  /-- DRAM by physical address (07:R104), the contents of the home L2s included (01:R25) -/
  mem : List Host.Cell := []
  /-- poisoned 32-byte sectors (27:R377) -/
  memPoison : Tbl Bool := []
  /-- full words of PRES pages, by physical address / 8 (07:R108) -/
  memFull : Tbl Bool := []
  /-- deferred presence loads at the homes: word, cell, operation (07:R109) -/
  memDeferred : List (Nat × Nat × Nat) := []
  /-- deferred loads that have their value and have not completed, in the order of their words' lists (07:R108) -/
  memAnswered : List (Nat × Nat × Nat) := []
  hostMem : List Host.Cell := []
  hostStores : List HostStore := []
  cells : Tbl Cell := []
  halls : Tbl Hall := []
  groups : List OpenGroup := []
  net : List Packet := []
  /-- consecutive replays of a fabric hop (27:R375) -/
  hops : Tbl Nat := []
  /-- registered configurations: context * 65536 + index in the object -/
  cfgs : Tbl CfgRt := []
  ctxs : Tbl Ctx := []
  cp : Cp := {}
  mirror : Mirror := {}
  ports : Tbl Port := []
  /-- the model's own: the cell and slot that issue (log entry 1) -/
  focus : CellId := 32
  slot : Nat := 0
  /-- the model's own: which agent moves next (log entry 1) -/
  turns : List Turn := []
  choice : Choice := {}
  /-- the model's own: the counter of free values (log entry 8) -/
  fresh : Nat := 0
deriving DecidableEq, Repr

/-! ## Stops -/

/-- Why a step stops with a fault. -/
inductive Fault where
  /-- `exec` is asked to run an instruction at a slot that holds no task. Raised by the shared frame of every
  instruction; `step` never does this. Safe: no hardware step corresponds to it. -/
  | noIssuingTask
deriving DecidableEq, Repr

/-- Why a step is refused. -/
inductive Refusal where
  /-- the instruction has no meaning in this model yet; its mnemonic. Raised by the dispatch. Safe. -/
  | notModelled (mnemonic : String)
deriving DecidableEq, Repr

/-- The chronograph's RESET entry: type 0x10, detail bit [96] 0 for cold (27:R384, R389). -/
def resetEntry (cyc : Nat) (warm : Bool) : BitVec 256 :=
  BitVec.ofNat 256 (cyc % 2 ^ 64 * 2 ^ 192 + warm.toNat * 2 ^ 96 + 0x10 * 2 ^ 28)

/-- A hall after bring-up: caches invalid, logs empty, one RESET entry (27:R389 steps 3 and 4, R390). -/
def Hall.reset : Hall := { chrono := [(0, resetEntry 0 false)], chronoHead := 1 }

/-- The module right after a cold reset and its bring-up (27:R389, R390). -/
def State.reset : State :=
  { halls := (upTo 8).map fun h => (h, Hall.reset) }

end Sys2Proof.Machine
end

