-- ==== Sys2Proof/Config.lean ====
section
/-! DEFINITION. What an implementation fixes and what the spec leaves open: opaque constants without a body. Nothing
can prove a value of one of them (log entries 8, 9, 10 and 24). -/

namespace Sys2Proof.Config

open Sys2Proof.Machine

/-- A value the spec does not state, by the counter of free values and a place. -/
opaque freeWord : Nat → Nat → Word

/-- The bits that a read of an offline channel returns, by cycle and line (27:R382). -/
opaque offlineRow : Nat → Nat → Row

/-- What the loader reads from the records of the CONFIG, EDGE and PLACE sections, whose layout the spec does not give: its
configurations with their nodes' places (09:R161; log entry 10). The bytes are the whole object. -/
opaque jgoCfgs : List Byte → List CfgSpec

/-- The TENSOR records (09:R161; log entry 10). -/
opaque jgoTensors : List Byte → List Tensor

/-- The REGION records (09:R161; log entry 10). -/
opaque jgoRegions : List Byte → List RegionSpec

/-- Bytes of the tensor's number in a DATA record, before its rows (log entry 10). -/
opaque dataRefBytes : Nat

/-- Bytes of the word count of a CODE record (log entry 10). -/
opaque codeCountBytes : Nat

/-- The records of a section whose layout the spec does not give lie in it: type, bytes, records (log entry 10). -/
opaque recordsFit : Nat → List Byte → Nat → Bool

/-- A spill ring of the object can be placed in SPILL pages (09:R163, status 0x020C). -/
opaque ringPlaceable : List Byte → Bool

/-- The signature of a firmware image verifies under the vendor's key (27:R387). -/
opaque lmsVerifies : List Byte → Bool

/-- The security version that a firmware image carries (27:R387). -/
opaque secVersion : List Byte → Nat

/-- The device's signature with a leaf over the evidence, 1,772 bytes (27:R388), by byte number. -/
opaque attestSig : Nat → List Byte → Nat → Byte

/-- The device's attestation public key, 56 bytes (27:R388, R392). -/
opaque attestPub : Nat → Byte

/-- The unrounded guess of PEXP2 and of PLOG2: input, fractional bits of input and output (13:R201). -/
opaque exp2Guess : Nat → Nat → (Nat →o Nat)
opaque log2Guess : Nat → Nat → (Nat →o Nat)

/-- The correction of a port's stamps in nanoseconds, as CP firmware sets it (25:R370; log entry 24). -/
opaque portDelay : Nat → Nat

end Sys2Proof.Config
end

