-- ==== Sys2Proof/Machine/Ops.lean ====
section
/-! DEFINITION. Named operations over the parts of the state: cells, halls, versions, nodes, the issuing task;
completing an instruction; fault records; taking an exception and returning from one (23:R342 to R346, 19:R302). -/

namespace Sys2Proof.Machine

/-! ## Parts of the state -/

/-- CYC (01:R26). -/
def State.cyc (s : State) : Word := BitVec.ofNat 64 s.now

def State.cell (s : State) (c : Nat) : Cell := tgetD s.cells {} c

def State.updCell (s : State) (c : Nat) (f : Cell → Cell) : State := { s with cells := tput s.cells c (f (s.cell c)) }

def State.hall (s : State) (h : Nat) : Hall := tgetD s.halls {} h

def State.updHall (s : State) (h : Nat) (f : Hall → Hall) : State := { s with halls := tput s.halls h (f (s.hall h)) }

/-- Hall, gallery of the module, and kind of a cell (01:R21). -/
def hallOf (c : Nat) : Nat := c / 0x8000 % 8
def galleryOf (c : Nat) : Nat := c / 0x400 % 0x100
def isEdgeCell (c : Nat) : Bool := c % 0x400 < 32

def Cell.version (c : Cell) (v : Bool) : Version := if v then c.v1 else c.v0

def Cell.updVersion (c : Cell) (v : Bool) (f : Version → Version) : Cell :=
  if v then { c with v1 := f c.v1 } else { c with v0 := f c.v0 }

def State.version (s : State) (c : Nat) (v : Bool) : Version := (s.cell c).version v

def State.updVersion (s : State) (c : Nat) (v : Bool) (f : Version → Version) : State :=
  s.updCell c (·.updVersion v f)

def State.node (s : State) (c : Nat) (v : Bool) (n : Nat) : Option Node := (s.version c v).nodes[n]?

def State.updNode (s : State) (c : Nat) (v : Bool) (n : Nat) (f : Node → Node) : State :=
  s.updVersion c v fun x => { x with nodes := lset x.nodes n f }

def State.binding (s : State) (c : Nat) (v : Bool) (r : Nat) : Option Binding := (s.version c v).bindings[r]?

def State.updBinding (s : State) (c : Nat) (v : Bool) (r : Nat) (f : Binding → Binding) : State :=
  s.updVersion c v fun x => { x with bindings := lset x.bindings r f }

/-- Live version of a node (05:R83). -/
def Cell.liveVersion (c : Cell) (n : Nat) : Bool := c.liveOne.contains n

def State.task (s : State) (r : TaskRef) : Option Task := tget (s.cell r.cell).tasks r.slot

def State.setTask (s : State) (r : TaskRef) (t : Task) : State :=
  s.updCell r.cell fun c => { c with tasks := tput c.tasks r.slot t }

def State.ctx (s : State) (c : BitVec 10) : Ctx := tgetD s.ctxs {} c.toNat

def State.updCtx (s : State) (c : BitVec 10) (f : Ctx → Ctx) : State :=
  { s with ctxs := tput s.ctxs c.toNat (f (s.ctx c)) }

/-- Key of a context's configuration. -/
def cfgKey (ctx : BitVec 10) (cfg : Nat) : Nat := ctx.toNat * 65536 + cfg

def State.cfg (s : State) (ctx : BitVec 10) (i : Nat) : Option CfgRt := tget s.cfgs (cfgKey ctx i)

def State.updCfg (s : State) (ctx : BitVec 10) (i : Nat) (f : CfgRt → CfgRt) : State :=
  match s.cfg ctx i with
  | none => s
  | some x => { s with cfgs := tput s.cfgs (cfgKey ctx i) (f x) }

def State.port (s : State) (p : Nat) : Port := tgetD s.ports {} p

def State.updPort (s : State) (p : Nat) (f : Port → Port) : State := { s with ports := tput s.ports p (f (s.port p)) }

def State.send (s : State) (p : Packet) : State := { s with net := s.net ++ [p] }

/-- The counter of free values advances by one use. -/
def State.useFree (s : State) : State := { s with fresh := s.fresh + 1 }

/-- Saturating count (05:R95, 09:R152). -/
def satAdd (x n bits : Nat) : Nat := min (x + n) (2 ^ bits - 1)

/-! ## Bank rows (01:R14) -/

def Cell.row (c : Cell) (r : Nat) : Row := tgetD c.bank 0 r

/-- A row is written, and its region with it (23:R352). -/
def Cell.setRow (c : Cell) (r : Nat) (x : Row) : Cell :=
  { c with bank := tset c.bank 0 r x, written := c.written ||| BitVec.twoPow 8 (r / 64) }

def Cell.rowPoisoned (c : Cell) (r : Nat) : Bool := tgetD c.bankPoison false r

def Cell.setRowPoison (c : Cell) (r : Nat) (b : Bool) : Cell := { c with bankPoison := tset c.bankPoison false r b }

/-- Rows of L1 (07:R100). -/
def Cell.isL1Row (c : Cell) (r : Nat) : Bool := decide (448 - 64 * c.split.toNat ≤ r) && decide (r < 448)

/-- An overflow area is enabled in either version (05:R78). -/
def Cell.overflowOn (c : Cell) : Bool :=
  (c.v0.overflow && c.v0.state ≠ .empty) || (c.v1.overflow && c.v1.state ≠ .empty)

/-- A row that is L1 or in an enabled overflow area, or beyond the bank (07:R100, 05:R78). -/
def Cell.rowTaken (c : Cell) (r : Nat) : Bool := decide (512 ≤ r) || c.isL1Row r || (decide (480 ≤ r) && c.overflowOn)

/-- Region of a row owned by ENGINE (07:R131). -/
def Cell.engineRow (c : Cell) (r : Nat) : Bool := c.owner.toNat / 2 ^ (r / 64) % 2 = 1

/-- A row that a task may not touch by row operand (13:R183, 15:R220). -/
def Cell.rowForbidden (c : Cell) (r : Nat) : Bool := c.rowTaken r || c.engineRow r

/-! ## Records and the chronograph (21:R327, 27:R384) -/

/-- The fields of the record layout of R327. -/
structure Record where
  cycle : Nat
  phys : Bool := false
  addr : Nat := 0
  count : Nat := 0
  cause : Nat := 0
  source : Nat := 0
  stage : Nat := 0
  node : Nat := 0
  ver : Bool := false
  iter : Nat := 0
  ctx : Nat := 0
  cell : Nat := 0
deriving DecidableEq, Repr

def Record.bits (r : Record) : Nat :=
  pack [⟨192, 64, r.cycle⟩, ⟨191, 1, r.phys.toNat⟩, ⟨128, 52, r.addr⟩, ⟨96, 32, r.count⟩, ⟨88, 8, r.cause⟩,
    ⟨86, 2, r.source⟩, ⟨82, 4, r.stage⟩, ⟨77, 5, r.node⟩, ⟨76, 1, r.ver.toNat⟩, ⟨64, 12, r.iter⟩, ⟨54, 10, r.ctx⟩,
    ⟨36, 18, r.cell⟩]

/-- A chronograph entry: the record's word with its type; nothing is written while frozen (27:R384, R385). -/
def State.chrono (s : State) (hall : Nat) (type : Nat) (word : Nat) : State :=
  s.updHall hall fun h =>
    if h.frozen then h
    else { h with
      chrono := tput h.chrono (h.chronoHead % 4096) (BitVec.ofNat 256 (word + type % 256 * 2 ^ 28))
      chronoHead := (h.chronoHead + 1) % 2 ^ 32 }

/-- A chronograph entry that names a cell and a detail in bits [191:96] (27:R384). -/
def State.chronoAt (s : State) (cell : Nat) (type detail : Nat) (ver : Bool := false) (node iter ctx : Nat := 0) :
    State :=
  s.chrono (hallOf cell) type
    (pack [⟨192, 64, s.now⟩, ⟨96, 96, detail⟩, ⟨77, 5, node⟩, ⟨76, 1, ver.toNat⟩, ⟨64, 12, iter⟩, ⟨54, 10, ctx⟩,
      ⟨36, 18, cell⟩])

/-- Bits [127:32] of a token as a chronograph detail (27:R384). -/
def Token.bits (t : Token) : Nat :=
  pack [⟨125, 3, t.kind.toNat⟩, ⟨107, 18, t.dst.toNat⟩, ⟨106, 1, t.poison.toNat⟩, ⟨105, 1, t.ver.toNat⟩,
    ⟨97, 8, t.rtag.toNat⟩, ⟨87, 10, t.ctx.toNat⟩, ⟨75, 12, t.iter.toNat⟩, ⟨73, 2, t.pred.code⟩, ⟨64, 9, t.aux.toNat⟩,
    ⟨0, 64, t.payload.toNat⟩]

/-- KIND, UNBOUND and WAVE entries (27:R384). -/
def State.logToken (s : State) (cell type : Nat) (t : Token) : State :=
  s.chronoAt cell type (bitsOf t.bits 32 96) t.ver 0 t.iter.toNat t.ctx.toNat

def kindEntry : Nat := 0x04
def unboundEntry : Nat := 0x03
def waveEntry : Nat := 0x06

/-- A dropped message writes BADMSG (09:R156). -/
def State.badMsg (s : State) (m : Msg) : State :=
  s.chronoAt m.dst.toNat 0x05 (bitsOf (encodeMsg m) 32 96) m.ver

/-! ## Memory bytes (07:R104) -/

/-- What an unlisted byte reads as: zero, the contents after bring-up (27:R389 step 2). -/
def memDefault : Byte := 0

/-- One byte of DRAM. -/
def State.readByte (s : State) (a : Nat) : Byte := tgetD s.mem memDefault a

/-- One byte written to DRAM; the canonical form is kept. -/
def State.writeByte (s : State) (a : Nat) (b : Byte) : State := { s with mem := tset s.mem memDefault a b }

/-- `n` bytes of DRAM as a little-endian number (00:R5). -/
def State.readMem (s : State) (a : Nat) : Nat → Nat
  | 0 => 0
  | n + 1 => (s.readByte a).toNat + 256 * s.readMem (a + 1) n

/-- The low `n` bytes of a number written to DRAM, little-endian (00:R5). -/
def State.writeMem (s : State) (a : Nat) : Nat → Nat → State
  | 0, _ => s
  | n + 1, v => (s.writeByte a (BitVec.ofNat 8 v)).writeMem (a + 1) n (v / 256)

/-- The vertical channel of an address is offline (07:R104, 27:R382). -/
def State.offline (s : State) (a : Nat) : Bool := (tgetD (s.hall (a / 2 ^ 36 % 8)).channels {} (a / 2 ^ 12 % 16)).offline

/-- A sector of 32 bytes is poisoned; every sector of an offline channel is (27:R377, R382). -/
def State.sectorPoisoned (s : State) (a : Nat) : Bool := tgetD s.memPoison false (a / 32) || s.offline a

def State.setSectorPoison (s : State) (a : Nat) (b : Bool) : State :=
  { s with memPoison := tset s.memPoison false (a / 32) b }

/-- A write that reaches a sector makes the conditional write-backs of that sector stale (27:R379). -/
def State.staleWriteBacks (s : State) (a : Nat) : State :=
  s.updHall (a / 2 ^ 36 % 8) fun h =>
    { h with writeBacks := h.writeBacks.map fun w => if w.sector = a / 32 then { w with stale := true } else w }

/-- The home L2 holds the line of an address, dirty (07:R99; 27:R379). -/
def State.dirtyHome (s : State) (a : Nat) : State :=
  s.updHall (a / 2 ^ 36 % 8) fun h => { h with home := tput h.home (a / 256) true }

/-- A read at the home that the L2 does not hold asks its channel for the line, once; one whose line a transfer is bringing waits
for that (28:R394). -/
def State.missHome (s : State) (a : Nat) : State :=
  let h := a / 2 ^ 36 % 8
  let k := a / 2 ^ 12 % 16
  let l := a / 256
  let c := tgetD (s.hall h).channels {} k
  let carried : Bool := match c.xfer with | some x => !x.write && x.lines.contains l | none => false
  if (tget (s.hall h).home l).isSome || carried || c.offline || c.misses.any (·.1 = l) then s
  else s.updHall h fun x => { x with channels := tput x.channels k { c with misses := c.misses ++ [(l, s.now)] } }

/-- A write of `n` bytes within a line at the home: covering a sector clears its poison, a partial one keeps it; an
offline channel discards it (27:R377, R382). -/
def State.writeHome (s : State) (a n v : Nat) : State :=
  if s.offline a then s else
  let s := (s.writeMem a n v).dirtyHome a
  each (upTo ((a + n - 1) / 32 - a / 32 + 1)) s fun s i =>
    let sec := (a / 32 + i) * 32
    let s := s.staleWriteBacks sec
    if a ≤ sec ∧ sec + 32 ≤ a + n then s.setSectorPoison sec false else s

/-- One byte of host memory. -/
def State.readHostByte (s : State) (a : Nat) : Byte := tgetD s.hostMem 0 a

def State.readHost (s : State) (a : Nat) : Nat → Nat
  | 0 => 0
  | n + 1 => (s.readHostByte a).toNat + 256 * s.readHost (a + 1) n

def State.writeHost (s : State) (a : Nat) : Nat → Nat → State
  | 0, _ => s
  | n + 1, v =>
    { s with hostMem := tset s.hostMem 0 a (BitVec.ofNat 8 v) }.writeHost (a + 1) n (v / 256)

/-- A line as its home holds it; what an offline channel returns the spec leaves open (27:R382; log entry 8). -/
def State.homeRow (s : State) (ln : Nat) : Row :=
  if s.offline (ln * 128) then Config.offlineRow s.now ln else BitVec.ofNat 1024 (s.readMem (ln * 128) 128)

/-- `n` bytes within a line as its home holds them. -/
def State.readHome (s : State) (a n : Nat) : Nat := (s.homeRow (a / 128)).toNat / 2 ^ (8 * (a % 128)) % 2 ^ (8 * n)

/-! ## Walks (07:R104 to R107) -/

/-- What a walk ends in: a leaf, or a cause with the level reached and the no-root mark. -/
inductive WalkResult where
  | leaf (l : Leaf)
  | translation (level : Nat) (noRoot : Bool)
  | protection
deriving DecidableEq, Repr

/-- Offset bits of the page or table below a level: virtual bits, entries (07:R105). -/
def levelShift : Nat → Nat
  | 0 => 43
  | 1 => 34
  | 2 => 24
  | _ => 16

def levelEntries : Nat → Nat
  | 0 => 512
  | 1 => 512
  | 2 => 1024
  | _ => 256

/-- A physical address that does not exist (07:R104). -/
def isHole (pa : Nat) : Bool :=
  pa / 2 ^ 47 % 2 = 0 && (decide (pa / 2 ^ 39 % 2 ^ 8 ≠ 0) || decide (0xC_0000_0000 ≤ pa % 2 ^ 36))

/-- The table walk from a level, reading entries at DEVICE scope (07:R105, R106). The first argument is the levels
left. -/
def walkFrom (s : State) (root base va : Nat) : Nat → WalkResult
  | 0 => .protection
  | left + 1 =>
    let level := 3 - left
    let shift := levelShift level
    let pa := base + 8 * (va / 2 ^ shift % levelEntries level)
    if isHole pa then .protection
    else
      let e := if pa / 2 ^ 47 % 2 = 1 then s.readHost (pa % 2 ^ 47) 8 else s.readHome pa 8
      let frame := e / 2 ^ 11 % 2 ^ 37 * 2 ^ 11
      if e / 2 ^ 63 % 2 = 0 then .translation level false
      else if e % 2 ^ 11 ≠ 0 ∨ e / 2 ^ 48 % 2 ^ 11 ≠ 0 then .protection
      else
        let large := e / 2 ^ 59 % 2 = 1
        if large ∧ level ≠ 2 then .protection
        else if large ∨ level = 3 then
          let attr := e / 2 ^ 61 % 4
          if attr = 3 ∨ frame % 2 ^ shift ≠ 0 then .protection
          else .leaf ⟨root, va / 2 ^ shift * 2 ^ shift, 2 ^ shift, frame, attr, e / 2 ^ 60 % 2 = 1⟩
        else
          let nextSize := 8 * levelEntries (level + 1)
          if frame % nextSize ≠ 0 then .protection else walkFrom s root frame va left

/-- The addresses of the entries that a walk reads (07:R105). -/
def walkReads (s : State) (base va : Nat) : Nat → List Nat
  | 0 => []
  | left + 1 =>
    let level := 3 - left
    let pa := base + 8 * (va / 2 ^ levelShift level % levelEntries level)
    if isHole pa then []
    else
      let e := if pa / 2 ^ 47 % 2 = 1 then s.readHost (pa % 2 ^ 47) 8 else s.readHome pa 8
      if e / 2 ^ 63 % 2 = 0 ∨ e / 2 ^ 59 % 2 = 1 then [pa] else pa :: walkReads s (e / 2 ^ 11 % 2 ^ 37 * 2 ^ 11) va left

/-- A walk for a root (07:R105, R106). -/
def walkRoot (s : State) (root : Option Nat) (va : Nat) : WalkResult :=
  match root with
  | none => .translation 0 true
  | some r => walkFrom s r r va 4

/-- A leaf that maps an address under a root. -/
def Leaf.covers (l : Leaf) (root va : Nat) : Bool := l.root = root && decide (l.vbase ≤ va) && decide (va < l.vbase + l.size)

def Leaf.pa (l : Leaf) (va : Nat) : Nat := l.frame + (va - l.vbase)

/-- Kinds of access as R107 tells them apart. -/
inductive Access where
  | plain | presence | atomic | copy | fill | spill
deriving DecidableEq, Repr

/-- The attribute admits the access (07:R107): 0 ORD, 1 PRES, 2 SPILL. -/
def attrAdmits (attr : Nat) : Access → Bool
  | .plain | .atomic | .copy => attr = 0
  | .presence => attr = 1
  | .fill => attr = 0 || attr = 1
  | .spill => attr = 2

/-- The checks on a translated access: attribute, write permission, physical address (07:R104, R106, R107). A presence load or
store whose leaf frames a host address is refused like the atomics of R138 (DESIGN CHOICE, log entry 27). -/
def leafAdmits (l : Leaf) (va : Nat) (k : Access) (write : Bool) : Bool :=
  attrAdmits l.attr k && (!write || l.writable) && !isHole (l.pa va)
    && !((k = .atomic || k = .presence) && decide (l.pa va / 2 ^ 47 % 2 = 1))

/-- What the module's own agents (CP, records, engines at once) get for a virtual address: the physical address,
TRANSLATION with its level, or PROTECTION. -/
inductive Xlate where
  | pa (a : Nat)
  | translation (level : Nat) (noRoot : Bool)
  | protection
deriving DecidableEq, Repr

/-- Translation by a walk of its own (25:R361, 23:R399, 21:R328). -/
def translateNow (s : State) (ctx : BitVec 10) (va : Nat) (k : Access) (write : Bool) : Xlate :=
  if 2 ^ 52 ≤ va then .translation 0 false
  else
    match walkRoot s (s.ctx ctx).root va with
    | .leaf l => if leafAdmits l va k write then .pa (l.pa va) else .protection
    | .translation level noRoot => .translation level noRoot
    | .protection => .protection

/-! ## Causes (23:R342) -/

namespace Cause
def illegalOp : Nat := 0x01
def reservedField : Nat := 0x02
def format : Nat := 0x03
def planeDecl : Nat := 0x04
def align : Nat := 0x05
def translation : Nat := 0x08
def protection : Nat := 0x09
def desc : Nat := 0x0A
def descOverlap : Nat := 0x0B
def presenceRewrite : Nat := 0x10
def matchFull : Nat := 0x11
def tagWindow : Nat := 0x12
def lateToken : Nat := 0x13
def spillFull : Nat := 0x14
def barOverflow : Nat := 0x15
def promiseMiss : Nat := 0x16
def scope : Nat := 0x18
def poisonSink : Nat := 0x20
def memUncorrectable : Nat := 0x21
def link : Nat := 0x22
def arith : Nat := 0x30
def trap : Nat := 0x3E
def bkpt : Nat := 0x3F
end Cause

/-! ## Stops of contexts (23:R346, R348) -/

/-- A configuration is on its way to SAVED (23:R339). -/
def CfgRt.stops (c : CfgRt) : Bool :=
  c.state = .draining || c.state = .scanning || c.state = .saving || (c.state = .loading && c.stopPending)

/-- A configuration of the context is on its way to SAVED. -/
def State.stopRuns (s : State) (ctx : BitVec 10) : Bool := s.cfgs.any fun x => decide (x.1 / 65536 = ctx.toNat) && x.2.stops

/-- A stop of a whole context begins: every configuration that is placed will drain, one that is LOADING later; the
deadline is 125,000 cycles after acceptance. A stop under way is not begun anew (23:R348, R353), and one that finds nothing
to drain is over. -/
def State.beginStop (s : State) (ctx : BitVec 10) : State :=
  let x := s.ctx ctx
  if !x.live || x.stopping then s
  else
    let s : State := { s with cfgs := s.cfgs.map fun (k, c) =>
        if k / 65536 = ctx.toNat then
          (k, match c.state with
            | .ready | .live => { c with state := .draining, deadline := s.now + 125000, bySwap := false, byHold := false, resumed := false }
            | .loading => { c with stopPending := true, deadline := s.now + 125000, bySwap := false, byHold := false, resumed := false }
            | .draining | .scanning | .saving => { c with bySwap := false, byHold := false, resumed := false }
            | .saved => { c with bySwap := false, byHold := false, resumed := false, candSince := none, count := 0 }
            | _ => c)
        else (k, c) }
    s.updCtx ctx fun x => { x with stopping := s.stopRuns ctx }

/-! ## The journal (25:R363) -/

/-- Where the ring lies in hall 0's DRAM (log entry 12), and its entries. -/
def journalBase : Nat := 0xBFF000000
def journalSize : Nat := 262144

/-- The states of an entry. -/
def jAccepted : Nat := 0
def jActing : Nat := 1
def jComplete : Nat := 2
def jFailed : Nat := 3

def JEntry.bits (e : JEntry) : Nat :=
  pack [⟨448, 64, e.done⟩, ⟨384, 64, e.accept⟩, ⟨128, 256, e.digest.toNat⟩, ⟨120, 8, e.state⟩, ⟨112, 8, e.cause⟩,
    ⟨96, 16, e.status⟩, ⟨80, 16, e.ctx.toNat⟩, ⟨64, 16, e.code⟩, ⟨0, 64, e.seq⟩]

/-- The slot that runs, and the other one. -/
def Cp.slot (x : Cp) (k : Bool) : FwSlot := if k then x.fw1 else x.fw0

/-- FW_SLOT and LINK_STAT of the status window (25:R362). -/
def Cp.fwSlot (x : Cp) : Nat := x.running.toNat + 2 * (x.slot (!x.running)).verified.toNat + 4 * x.activation.isSome.toNat
def Cp.linkStat (x : Cp) : Nat := x.replays % 2 ^ 32 + x.retrains % 2 ^ 32 * 2 ^ 32

/-- The status words reach the adapter's mirror (25:R362). -/
def State.mirrorWords (s : State) : State :=
  { s with mirror := { s.mirror with
      journalHead := s.cp.nextSeq, journalBase := journalBase, fwSlot := s.cp.fwSlot, linkStat := s.cp.linkStat } }

/-- An entry is written: to the CP's copy of the ring, to DRAM, and with the status words across the link to the adapter's
mirror (25:R362, R363). -/
def State.putEntry (s : State) (e : JEntry) : State :=
  let slot := e.seq % journalSize
  let s := { s with cp := { s.cp with journal := tput s.cp.journal slot e } }.writeHome (journalBase + 64 * slot) 64 e.bits
  { s with mirror := { s.mirror with ring := tput s.mirror.ring slot (BitVec.ofNat 512 e.bits) } }.mirrorWords

/-- A word of the status window as the adapter answers the host from its mirror: JOURNAL_HEAD, JOURNAL_BASE, FW_SLOT, LINK_STAT
(25:R358, R362). The module takes no part in it. -/
def State.windowWord (s : State) (k : Nat) : Nat :=
  match k with
  | 0 => s.mirror.journalHead
  | 1 => s.mirror.journalBase
  | 2 => s.mirror.fwSlot
  | 3 => s.mirror.linkStat
  | _ => 0

/-- An entry of the ring as the adapter answers the host from its mirror (25:R362). -/
def State.windowEntry (s : State) (seq : Nat) : BitVec 512 := tgetD s.mirror.ring 0 (seq % journalSize)

/-- The entry of a sequence number, where its slot has not been reused. -/
def State.entrySeq (s : State) (seq : Nat) : Option JEntry :=
  match tget s.cp.journal (seq % journalSize) with
  | some e => if e.seq = seq then some e else none
  | none => none

/-- An entry changes. -/
def State.updEntry (s : State) (seq : Nat) (f : JEntry → JEntry) : State :=
  match s.entrySeq seq with
  | some e => s.putEntry (f e)
  | none => s

/-- The state that a status ends in (27:R386). -/
def statusState (status : Nat) : Nat := if status = 0 ∨ status = 0x0308 then jComplete else jFailed

/-- A command ends: its entry is completed, or a COMPLETION entry is written where its slot has been reused. -/
def State.finishSeq (s : State) (seq : Nat) (ctx : BitVec 16) (status : Nat) : State :=
  let s : State := { s with cp := { s.cp with live := tdel s.cp.live seq } }
  match s.entrySeq seq with
  | some e => s.putEntry { e with state := statusState status, status := status, done := s.now % 2 ^ 64 }
  | none =>
    let n := s.cp.nextSeq
    { s with cp := { s.cp with nextSeq := n + 1 } }.putEntry
      { seq := n, code := 0x0080, ctx := ctx, status := status, cause := 0, state := statusState status
        digest := BitVec.ofNat 256 (seq % 2 ^ 64 * 2 ^ 192), accept := s.now % 2 ^ 64, done := s.now % 2 ^ 64 }

/-- A RESUME that a command has sent is over, and the command with it (25:R361). -/
def State.endCmd (s : State) (t : Token) (status : Nat) : State :=
  match t.cmd with
  | some seq => s.finishSeq seq (t.ctx.zeroExtend 16) status
  | none => s

/-! ## Fault records (23:R345, R346; 21:R328) -/

/-- A write of the module's own at a physical address, in memory or in the host's (07:R104, R139). -/
def State.writeAny (s : State) (pa n v : Nat) : State :=
  if pa / 2 ^ 47 % 2 = 1 then
    { s.writeHost (pa % 2 ^ 47) n v with hostStores := s.hostStores ++ [{ addr := pa }] }
  else s.writeHome pa n v

/-- A record goes to the ring of its context: record n at ring + 32 (1 + n mod 2^m), then the count (21:R328). A ring
whose address does not translate for writing takes nothing. -/
def State.ringRecord (s : State) (ctx : BitVec 10) (bits : Nat) : State :=
  let x := s.ctx ctx
  match x.ring with
  | none => s
  | some (base, m) =>
    let at_ := base.toNat + 32 * (1 + x.ringCount % 2 ^ m)
    match translateNow s ctx at_ .plain true, translateNow s ctx base.toNat .plain true with
    | .pa pa, .pa ph =>
      let s := (s.writeAny pa 32 bits).writeAny ph 8 (x.ringCount + 1)
      s.updCtx ctx fun x => { x with ringCount := x.ringCount + 1 }
    | _, _ => s

/-- A record of a context is kept; its cause stands in the LAUNCH entry of the context, if it is the first (23:R345, R346). -/
def State.takeRecord (s : State) (launch : Option Nat) (bits : BitVec 256) : State :=
  let ctx := BitVec.ofNat 10 (bits.toNat / 2 ^ 54)
  let cause := bits.toNat / 2 ^ 88 % 256
  let s : State := { s with cp := { s.cp with records := s.cp.records ++ [bits] } }
  match launch with
  | none => s
  | some l =>
    if (s.ctx ctx).launch ≠ l then s.updEntry l fun e => if e.cause = 0 then { e with cause := cause } else e
    else if (s.ctx ctx).cause = 0 then
      (s.updCtx ctx fun x => { x with cause := cause }).updEntry l fun e => { e with cause := cause }
    else s

/-- A record reaches the CP, which takes it, or while it changes firmware queues it (25:R371). -/
def State.cpRecord (s : State) (ctx : BitVec 10) (bits : Nat) : State :=
  let launch := if (s.ctx ctx).live then some (s.ctx ctx).launch else none
  if s.cp.activation.isSome then { s with cp := { s.cp with queued := s.cp.queued ++ [(launch, BitVec.ofNat 256 bits)] } }
  else s.takeRecord launch (BitVec.ofNat 256 bits)

/-- The records that were queued are taken in their order (25:R371). -/
def State.takeQueued (s : State) : State :=
  each s.cp.queued { s with cp := { s.cp with queued := [] } } fun s x => s.takeRecord x.1 x.2

/-- A record of a node: to the chronograph of the cell's hall, the context's ring, and the CP (23:R345). -/
def State.record (s : State) (r : Record) : State :=
  let bits := r.bits
  let ctx := BitVec.ofNat 10 r.ctx
  ((s.chrono (hallOf r.cell) (if r.cause = Cause.poisonSink then 0x02 else 0x01) bits).ringRecord ctx bits).cpRecord ctx bits

/-- The record of a node fault (23:R345). -/
def State.nodeRecord (s : State) (n : NodeRef) (cause addr info : Nat) (source : Nat := 3) (phys : Bool := false) :
    Record :=
  let table : BitVec 4 := match s.node n.cell n.ver n.node with | some x => x.stage | none => 0
  let stage := (n.stage.getD table).toNat
  { cycle := s.now, phys := phys, addr := addr, count := info, cause := cause, source := source, stage := stage,
    node := n.node, ver := n.ver, iter := n.iter.toNat, ctx := n.ctx.toNat, cell := n.cell }

/-- A node fault: its record, and the stop that R346 asks for. -/
def State.nodeFault (s : State) (n : NodeRef) (cause addr info : Nat) : State :=
  let s := s.record (s.nodeRecord n cause addr info)
  if cause = Cause.spillFull || (s.ctx n.ctx).strict then s.beginStop n.ctx else s

/-- POISON_SINK: the record of a suppressed store: source 0 pass, 1 wave store, 2 task write (21:R326, R327). -/
def State.poisonSink (s : State) (n : NodeRef) (addr count source : Nat) (phys : Bool := false) (cycle : Option Nat := none) :
    State :=
  let r := s.nodeRecord n Cause.poisonSink addr count source phys
  let s := s.record { r with cycle := cycle.getD s.now }
  if (s.ctx n.ctx).strict then s.beginStop n.ctx else s

/-! ## Stall counters (05:R94, R95) -/

def Node.addStall (n : Node) (k : Nat) : Node :=
  match k with
  | 0 => { n with stall0 := satAdd n.stall0 1 32 }
  | 1 => { n with stall1 := satAdd n.stall1 1 32 }
  | 2 => { n with stall2 := satAdd n.stall2 1 32 }
  | _ => { n with stall3 := satAdd n.stall3 1 32 }

/-! ## The issuing task -/

/-- The task at the focus. -/
def State.here (s : State) : TaskRef := ⟨s.focus.toNat, s.slot⟩

def State.cell0 (s : State) : Cell := s.cell s.focus.toNat

def State.updCell0 (s : State) (f : Cell → Cell) : State := s.updCell s.focus.toNat f

/-- The node of a task. -/
def taskNode (cell : Nat) (t : Task) : NodeRef := ⟨cell, t.ver, t.node, t.ctx, t.iter, some t.stage⟩

/-- The node of a cell's version, for an iteration. -/
def nodeRef (cell : Nat) (ver : Bool) (node : Nat) (ctx : BitVec 10) (iter : BitVec 12) : NodeRef :=
  ⟨cell, ver, node, ctx, iter, none⟩

/-- The frame of every instruction: it runs for the task at the focus. -/
def onTask (s : State) (k : Task → State) : Host.Outcome State Fault Refusal :=
  match s.task s.here with
  | none => .fault .noIssuingTask
  | some t => .next (k t)

/-- A scalar of a task; s0 reads 0 (09:R146). -/
def Task.reg (t : Task) (r : BitVec 5) : Word := if r = 0 then 0 else tgetD t.regs 0 r.toNat

/-- A write to a scalar; a write to s0 is ignored (09:R146). -/
def Task.setReg (t : Task) (r : BitVec 5) (v : Word) : Task :=
  if r = 0 then t else { t with regs := tput t.regs r.toNat v }

/-- The token of an input port; ports not in use read as zero (05:R66). -/
def Task.inTok (t : Task) (i : BitVec 2) : Token := (t.ins[i.toNat]?).getD {}

/-- The value of a source specifier (09:R146). -/
def Task.val (t : Task) : Spec → Word
  | .s r => t.reg r
  | .inp i => (t.inTok i).payload

/-- Reading sources taints the task when one of them is a poisoned token (05:R71). -/
def Task.touch (t : Task) (l : List Spec) : Task :=
  { t with taint := t.taint || l.any fun x => match x with | .s _ => false | .inp i => (t.inTok i).poison }

/-- A predicate of a task; p0 reads true (09:R151). -/
def Task.pred (t : Task) (p : BitVec 3) : Bool := p = 0 || t.preds.getLsbD p.toNat

/-- A write to a predicate; p0 discards it (09:R151). -/
def Task.setPred (t : Task) (p : BitVec 3) (b : Bool) : Task :=
  if p = 0 then t
  else { t with preds := if b then t.preds ||| BitVec.twoPow 8 p.toNat else t.preds &&& ~~~(BitVec.twoPow 8 p.toNat) }

/-- The guard of an instruction holds (09:R145). -/
def Task.holds (t : Task) (g : Guard) : Bool := t.pred g.p != g.neg

/-- A scalar becomes readable `lat` cycles after now, and not before an earlier write to it (11:R166, R167). -/
def Task.readyIn (t : Task) (r : BitVec 5) (now lat : Nat) : Task :=
  if r = 0 then t else { t with ready := tput t.ready r.toNat (max (now + lat) (tgetD t.ready 0 r.toNat)) }

/-- The index after a completed instruction that falls through, with the back-edge of the innermost loop
(11:R179). -/
def Task.fallThrough (t : Task) : Task :=
  match t.loops with
  | l :: r =>
    if t.pc.toNat = l.last ∧ t.calls.length = l.depth then
      if 1 < l.remaining then
        { t with loops := { l with remaining := l.remaining - 1 } :: r, pc := BitVec.ofNat 10 l.start }
      else { t with loops := r, pc := BitVec.ofNat 10 (l.last + 1) }
    else { t with pc := BitVec.ofNat 10 (t.pc.toNat + 1) }
  | [] => { t with pc := BitVec.ofNat 10 (t.pc.toNat + 1) }

/-- Loops left by a taken branch (11:R179): entries that do not hold the target are popped from the top. -/
def dropLoops (depth target : Nat) : List LoopEntry → List LoopEntry
  | [] => []
  | l :: r =>
    if l.depth = depth ∧ ¬(l.start ≤ target ∧ target ≤ l.last) then dropLoops depth target r else l :: r

/-- An instruction of the task's node retires: its place in the cell's issue order (07:R121, R128). -/
def State.retired (s : State) (t : Task) : State :=
  let pos := s.cell0.issuePos + 1
  let s := s.updNode s.focus.toNat t.ver t.node fun n => { n with lastRetired := pos }
  s.updCell0 fun c => { c with issuePos := pos }

/-- The marks that an instruction leaves when it has issued: its node counts it, the cell has issued in this cycle
from this slot, and no part of it is left over (05:R67, 07:R121, R128). -/
def State.issued (s : State) (t : Task) (delay : Nat) : State :=
  let t := { t with wait := .none, waitAt := none, done := [], grant := none, taken := none, nextIssue := s.now + delay }
  let s := s.retired t
  s.updCell0 fun c =>
    { c with tasks := tput c.tasks s.slot t, rr := s.slot, issuedAt := some s.now }

/-- The instruction completes and falls through; the task may issue again `delay` cycles later. -/
def State.completeIn (s : State) (t : Task) (delay : Nat) : State := s.issued t.fallThrough delay

/-- The instruction completes and falls through. -/
def State.complete (s : State) (t : Task) : State := s.completeIn t 1

/-- The instruction completes and control goes to an index. -/
def State.jump (s : State) (t : Task) (target delay : Nat) : State :=
  s.issued { t with pc := BitVec.ofNat 10 target } delay

/-- The instruction cannot go on in this cycle and is tried again; the wait counts in a stall counter (00:R9). -/
def State.retry (s : State) (t : Task) (stall : Option Nat) (vstall : Bool := false) : State :=
  s.setTask s.here { t with wait := .retry stall vstall, waitAt := some s.now }

/-- The instruction has issued; its task waits before the instruction completes. -/
def State.park (s : State) (t : Task) (w : Wait) : State :=
  let s := s.setTask s.here { t with wait := w, waitAt := some s.now }
  s.updCell0 fun c => { c with rr := s.slot, issuedAt := some s.now, issuePos := c.issuePos + 1 }

/-! ## Taking an exception and returning from one (23:R343, R344; 19:R302) -/

/-- The word that the task at the focus is issuing. -/
def State.curWord (s : State) (t : Task) : Word :=
  tgetD (s.version s.focus.toNat t.ver).code 0 t.pc.toNat

/-- A task fault. An armed task that is not in its handler enters it: cause, address and information are recorded, the
EPC names the faulting word, after TRAP and BKPT the next one, and control goes to the node's handler after 4 cycles.
Any other task is abandoned: it is tainted, and its END sends follow (23:R343, R344). -/
def State.raise (s : State) (t : Task) (cause addr info : Nat) : State :=
  let t := { t with
    trapCause := BitVec.ofNat 8 cause, trapAddr := BitVec.ofNat 64 addr, trapInfo := BitVec.ofNat 64 info,
    wait := .none, waitAt := none, done := [], grant := none, taken := none }
  let t :=
    if t.armed && !t.marked then
      let handler := match s.node s.focus.toNat t.ver t.node with | some n => n.handler | none => 0
      { t with
        epc := if cause = Cause.trap ∨ cause = Cause.bkpt then BitVec.ofNat 10 (t.pc.toNat + 1) else t.pc
        marked := true, pc := BitVec.ofNat 10 handler, nextIssue := s.now + 4 }
    else { t with taint := true, abandoned := true, nextIssue := s.now + 1 }
  s.updCell0 fun c => { c with tasks := tput c.tasks s.slot t, rr := s.slot, issuedAt := some s.now }

/-- A fault whose address is the instruction's index and whose information is the word (23:R342). -/
def State.raiseWord (s : State) (t : Task) (cause : Nat) : State :=
  s.raise t cause t.pc.toNat (s.curWord t).toNat

/-- The pc would pass the end of the store: ILLEGAL_OP naming index 511 (09:R150). A task that has fallen through from
index 511 faults at that word. -/
def State.raisePastEnd (s : State) (t : Task) : State :=
  let t := { t with pc := BitVec.ofNat 10 (min t.pc.toNat 511) }
  s.raise t Cause.illegalOp 511 (s.curWord t).toNat

/-- Return from a trap handler (19:R302). -/
def State.returnFromTrap (s : State) (t : Task) : State :=
  if !t.marked then s.raiseWord t Cause.protection
  else if 512 ≤ t.epc.toNat then s.raisePastEnd t
  else s.jump { t with marked := false } t.epc.toNat 1

end Sys2Proof.Machine
end

