-- ==== Sys2Proof/Machine/Memory.lean ====
section
/-! DEFINITION. Caches and visibility points, releases and acquires, the promotion log's logging (07:R99 to R133;
17:R261), and the translation of a task's access at the edge (17:R258; 21:R315, R316). -/

namespace Sys2Proof.Machine

/-! ## The error logs (27:R383) -/

/-- Finders of the array log. -/
def finderRead : Nat := 0
def finderScrub : Nat := 1
def finderMerge : Nat := 2

/-- An array log entry: kind 0 corrected, 1 uncorrectable; offset within the hall. -/
def aelBits (cycle kind finder syndrome offset : Nat) : Nat :=
  pack [⟨64, 64, cycle⟩, ⟨62, 2, kind⟩, ⟨60, 2, finder⟩, ⟨50, 10, syndrome⟩, ⟨5, 31, offset / 32⟩]

/-- A bus log entry: outcome 0 RETRIED, 1 FOLDED, 2 OFFLINE. -/
def belBits (cycle outcome : Nat) (write : Bool) (retries group beat offset : Nat) : Nat :=
  pack [⟨64, 64, cycle⟩, ⟨62, 2, outcome⟩, ⟨61, 1, write.toNat⟩, ⟨59, 2, retries⟩, ⟨53, 6, group⟩, ⟨48, 5, beat⟩,
    ⟨12, 24, offset / 4096⟩]

/-- Log entries in a ring. -/
def logSize : Nat := 1024

/-- An array log entry is written and counted. -/
def State.logArray (s : State) (h kind finder syndrome offset : Nat) : State :=
  s.updHall h fun x =>
    { x with
      ael := tput x.ael (x.aelHead % logSize) (BitVec.ofNat 128 (aelBits s.now kind finder syndrome offset))
      aelHead := (x.aelHead + 1) % 2 ^ 32
      aelCorrected := if kind = 0 then (x.aelCorrected + 1) % 2 ^ 32 else x.aelCorrected
      aelUncorrectable := if kind = 0 then x.aelUncorrectable else (x.aelUncorrectable + 1) % 2 ^ 32 }

/-- A bus log entry is written and counted. -/
def State.logBus (s : State) (h outcome : Nat) (write : Bool) (retries group beat offset : Nat) : State :=
  s.updHall h fun x =>
    { x with
      bel := tput x.bel (x.belHead % logSize) (BitVec.ofNat 128 (belBits s.now outcome write retries group beat offset))
      belHead := (x.belHead + 1) % 2 ^ 32
      belRetried := if outcome = 0 then (x.belRetried + 1) % 2 ^ 32 else x.belRetried
      belFolds := if outcome = 1 then (x.belFolds + 1) % 2 ^ 16 else x.belFolds
      belOffline := if outcome = 2 then (x.belOffline + 1) % 2 ^ 16 else x.belOffline }

/-- ARRAY and FOLD entries: bits [63:0] of the log's entry as the detail (27:R384). -/
def State.chronoLog (s : State) (h type bits : Nat) : State :=
  s.chrono h type (pack [⟨192, 64, s.now⟩, ⟨96, 64, bits⟩])

/-- Physical address of an offset in a hall. -/
def hallAddr (h offset : Nat) : Nat := h * 2 ^ 36 + offset

/-- MEM_UNCORRECTABLE against the finder; with no node behind the access only the log and an ARRAY entry, the detail of which is
bits [63:0] of the log's entry (27:R378, R384). -/
def State.raiseMemory (s : State) (finder : Option NodeRef) (h syndrome pa bits : Nat) : State :=
  match finder with
  | some n => s.nodeFault n Cause.memUncorrectable pa syndrome
  | none => s.chronoLog h 0x0D bits

/-- An uncorrectable error in an array other than the DRAM, of the hall `h`: the fault of its finder, and where no node found it
the log entry with its ARRAY entry, which name the place by its low 36 bits (27:R378; DEDUCED, log entry 27). -/
def State.raiseArray (s : State) (finder : Option NodeRef) (h syndrome at_ : Nat) : State :=
  match finder with
  | some n => s.nodeFault n Cause.memUncorrectable at_ syndrome
  | none =>
    (s.logArray h 1 finderRead syndrome (at_ % 2 ^ 36)).chronoLog h 0x0D
      (aelBits s.now 1 finderRead syndrome (at_ % 2 ^ 36) % 2 ^ 64)

/-- An access of a node to the module's memory on an offline channel raises MEM_UNCORRECTABLE against it; the spec gives it no
syndrome (27:R382; log entry 8). -/
def State.raiseOffline (s : State) (finder : Option NodeRef) (pa : Nat) : State :=
  if pa / 2 ^ 47 % 2 = 1 || !s.offline pa then s
  else s.useFree.raiseArray finder (pa / 2 ^ 36 % 8) ((Config.freeWord s.fresh 45).toNat % 1024) pa

/-! ## Lines -/

/-- Byte `j` of a row. -/
def rowByte (r : Row) (j : Nat) : Byte := BitVec.ofNat 8 (r.toNat / 2 ^ (8 * j))

/-- A row with the bytes of a list written. -/
def setRowBytes (r : Row) (l : Tbl (Byte × Nat)) : Row :=
  l.foldr (fun e r =>
    (r &&& ~~~(BitVec.ofNat 1024 (255 * 2 ^ (8 * e.1)))) ||| BitVec.ofNat 1024 (e.2.1.toNat * 2 ^ (8 * e.1))) r

/-- What a line holds over the copy below it. -/
def Line.over (l : Line) (below : Row) : Row := setRowBytes below l.dirty

/-- The line number of an address: caches are kept in units of 128 bytes (07:R99). -/
def lineOf (pa : Nat) : Nat := pa / 128

/-- Home hall of a line (01:R25, 07:R104). -/
def homeHall (ln : Nat) : Nat := ln * 128 / 2 ^ 36 % 8

/-! ## Poison of a line's sectors (27:R376, R377) -/

/-- The sectors of a line that a test picks. -/
def sectorMask (f : Nat → Bool) : BitVec 4 := (upTo 4).foldl (fun m k => if f k then m ||| BitVec.twoPow 4 k else m) 0

/-- Dirty bytes write some of a sector, and all of it. -/
def touches (d : Tbl (Byte × Nat)) (k : Nat) : Bool := d.any fun e => e.1 / 32 = k
def covers (d : Tbl (Byte × Nat)) (k : Nat) : Bool := d.countP (fun e => e.1 / 32 = k) = 32

/-- Poison of the sectors of a line at its home. -/
def State.homePoison (s : State) (ln : Nat) : BitVec 4 := sectorMask fun k => s.sectorPoisoned (ln * 128 + 32 * k)

/-- Poison of what a line shows, over that of the copy below it: a sector that is written whole shows the poison of the bytes
written. -/
def Line.poisonOver (l : Line) (below : BitVec 4) : BitVec 4 :=
  sectorMask fun k => l.bad.getLsbD k || ((if l.base.isSome then l.poison else below).getLsbD k && !covers l.dirty k)

/-- Poison of some of a line's dirty bytes. -/
def Line.badOf (l : Line) (d : Tbl (Byte × Nat)) : BitVec 4 := sectorMask fun k => l.bad.getLsbD k && touches d k

/-- Dirty bytes arrive at the home of their line: those of a whole sector bring their own poison, part of one leaves a poisoned
sector poisoned (07:R101; 27:R376, R377). -/
def State.mergeHome (s : State) (ln : Nat) (d : Tbl (Byte × Nat)) (bad : BitVec 4 := 0) : State :=
  if s.offline (ln * 128) || d.isEmpty then s else
  let s := (each d.reverse s fun s e => s.writeByte (ln * 128 + e.1) e.2.1).dirtyHome (ln * 128)
  each (upTo 4) s fun s k =>
    let a := ln * 128 + 32 * k
    if touches d k then
      let s := s.staleWriteBacks a
      if covers d k then s.setSectorPoison a (bad.getLsbD k) else if bad.getLsbD k then s.setSectorPoison a true else s
    else s

def State.l2Line (s : State) (h ln : Nat) : Line := tgetD (s.hall h).l2 {} ln

def State.setL2 (s : State) (h ln : Nat) (l : Line) : State := s.updHall h fun x => { x with l2 := tset x.l2 {} ln l }

/-! ## Room in the caches (07:R99, 01:R17, R18)

A cache that must take a line and is full gives one up, its dirty bytes first. The spec does not say which: the place of
the line in the cache's table is a free value (log entry 16). -/

/-- Lines of 128 bytes that the L1 of a cell holds (07:R100), and those of a gallery cache of 1 MiB (01:R17). -/
def Cell.l1Lines (c : Cell) : Nat := 64 * c.split.toNat
def gcLines : Nat := 8192

/-- Lines of 256 bytes that an L2 of 64 MiB holds (01:R18); this model keeps each as its two halves. -/
def l2Lines : Nat := 262144

/-- The other half of an L2 line. -/
def otherHalf (ln : Nat) : Nat := if ln % 2 = 0 then ln + 1 else ln - 1

/-- The L2 has to give up a line before it takes this one. -/
def Hall.l2Full (h : Hall) (ln : Nat) : Bool :=
  decide (l2Lines ≤ ((h.l2.map fun x => x.1 / 2).eraseDups).length + h.home.length)
    && !h.l2.any (fun x => x.1 / 2 = ln / 2) && (tget h.home (ln / 2)).isNone

/-- The lines that it may give up: those of other halls, and of its own memory the clean ones. -/
def Hall.l2Leaving (h : Hall) : List Nat := h.l2.map (·.1) ++ (h.home.filter fun x => !x.2).map (2 * ·.1)

/-- A place of `n` that the spec leaves open. -/
def State.victim (s : State) (n : Nat) : Nat := (Config.freeWord s.fresh 62).toNat % n

/-- Half of an L2 line leaves, its dirty bytes first; of the hall's own memory a line that is clean leaves. -/
def State.dropL2 (s : State) (h ln : Nat) : State :=
  if homeHall ln = h then
    if tgetD (s.hall h).home true (ln / 2) then s else s.updHall h fun x => { x with home := tdel x.home (ln / 2) }
  else (s.mergeHome ln (s.l2Line h ln).dirty (s.l2Line h ln).bad).setL2 h ln {}

/-- Room for a line in an L2. -/
def State.roomL2 (s : State) (h ln : Nat) : State :=
  if (s.hall h).l2Full ln then
    match (s.hall h).l2Leaving[s.victim (s.hall h).l2Leaving.length]? with
    | some k => (s.useFree.dropL2 h k).dropL2 h (otherHalf k)
    | none => s
  else s

/-- The writer of a dirty byte that overwrote another cell's: a promotion of either takes it along (07:R115, R124). -/
def severalWriters : Nat := 2 ^ 18

/-- Dirty bytes over those that a line holds. -/
def mergeDirty (old d : Tbl (Byte × Nat)) : Tbl (Byte × Nat) :=
  d.foldr (fun e t =>
    let w := match tget t e.1 with | some o => if o.2 = e.2.2 then o.2 else severalWriters | none => e.2.2
    tput t e.1 (e.2.1, w)) old

/-- The byte stands for a write of the cell. -/
def writtenBy (c w : Nat) : Bool := w = c || w = severalWriters

/-- A line takes dirty bytes with their poison (07:R101, 27:R376). -/
def Line.merged (l : Line) (d : Tbl (Byte × Nat)) (bad : BitVec 4 := 0) : Line :=
  { l with
    dirty := mergeDirty l.dirty d
    bad := sectorMask fun k => bad.getLsbD k || (l.bad.getLsbD k && !covers d k) }

/-- A line whose dirty bytes `d` have been written back keeps the others (07:R101, 27:R376). -/
def Line.cleaned (l : Line) (d rest : Tbl (Byte × Nat)) : Line :=
  { base := l.base.map fun b => setRowBytes b d
    dirty := rest
    poison := if l.base.isSome then
        sectorMask fun k => (l.bad.getLsbD k && touches d k) || (l.poison.getLsbD k && !covers d k)
      else 0
    bad := l.badOf rest }

/-- A line takes a clean copy with its poison (07:R99, 27:R376). -/
def Line.filled (l : Line) (b : Row) (poison : BitVec 4) : Line := { l with base := some b, poison := poison }

/-- A line without its clean copy (07:R113). -/
def Line.unfilled (l : Line) : Line := { l with base := none, poison := 0 }

/-- Dirty bytes arrive at the L2 of a hall (07:R99, R101). -/
def State.mergeL2 (s : State) (h ln : Nat) (d : Tbl (Byte × Nat)) (bad : BitVec 4 := 0) : State :=
  if homeHall ln = h then s.mergeHome ln d bad
  else
    let s := s.roomL2 h ln
    s.setL2 h ln ((s.l2Line h ln).merged d bad)

/-- A half of an L2 line whose clean copy is absent is fetched. -/
def State.fetchL2 (s : State) (h ln : Nat) : State :=
  let l := s.l2Line h ln
  if l.base.isSome then s else (s.missHome (ln * 128)).setL2 h ln (l.filled (s.homeRow ln) (s.homePoison ln))

/-- Poison of a line as the L2 of a hall shows it (27:R376, R377). -/
def State.l2Poison (s : State) (h ln : Nat) : BitVec 4 :=
  if homeHall ln = h then s.homePoison ln else (s.l2Line h ln).poisonOver (s.homePoison ln)

/-- A line as the L2 of a hall holds it; where it holds no clean copy, one of its whole 256 bytes is fetched. -/
def State.l2Row (s : State) (h ln : Nat) : State × Row :=
  if homeHall ln = h then (s.missHome (ln * 128), s.homeRow ln)
  else
    let l := s.l2Line h ln
    match l.base with
    | some b => (s, l.over b)
    | none =>
      let s := s.roomL2 h ln
      ((s.fetchL2 h ln).fetchL2 h (otherHalf ln), l.over (s.homeRow ln))

def State.gcLine (s : State) (g ln : Nat) : Line := tgetD (tgetD (s.hall (g / 32)).gc [] (g % 32)) {} ln

def State.setGc (s : State) (g ln : Nat) (l : Line) : State :=
  s.updHall (g / 32) fun x => { x with gc := tput x.gc (g % 32) (tset (tgetD x.gc [] (g % 32)) {} ln l) }

/-- The lines of a gallery cache. -/
def State.gcTable (s : State) (g : Nat) : Tbl Line := tgetD (s.hall (g / 32)).gc [] (g % 32)

/-- Poison of a line as a gallery cache shows it. -/
def State.gcPoison (s : State) (g ln : Nat) : BitVec 4 := (s.gcLine g ln).poisonOver (s.l2Poison (g / 32) ln)

/-- A line leaves a gallery cache, its dirty bytes first. -/
def State.dropGc (s : State) (g ln : Nat) : State :=
  let l := s.gcLine g ln
  (if l.dirty = [] then s else s.mergeL2 (g / 32) ln l.dirty l.bad).setGc g ln {}

/-- Room for a line in a gallery cache. -/
def State.roomGc (s : State) (g ln : Nat) : State :=
  let t := s.gcTable g
  if decide (gcLines ≤ t.length) && (tget t ln).isNone then
    match t[s.victim t.length]? with
    | some (k, _) => s.useFree.dropGc g k
    | none => s
  else s

/-- Dirty bytes arrive at a gallery cache. -/
def State.mergeGc (s : State) (g ln : Nat) (d : Tbl (Byte × Nat)) (bad : BitVec 4 := 0) : State :=
  let s := s.roomGc g ln
  s.setGc g ln ((s.gcLine g ln).merged d bad)

/-- A line as a gallery cache holds it. -/
def State.gcRow (s : State) (g ln : Nat) : State × Row :=
  let l := s.gcLine g ln
  match l.base with
  | some b => (s, l.over b)
  | none =>
    let (s, b) := (s.roomGc g ln).l2Row (g / 32) ln
    (s.setGc g ln (l.filled b (s.l2Poison (g / 32) ln)), l.over b)

def State.l1Line (s : State) (c ln : Nat) : Line := tgetD (s.cell c).l1 {} ln

def State.setL1 (s : State) (c ln : Nat) (l : Line) : State := s.updCell c fun x => { x with l1 := tset x.l1 {} ln l }

/-- A line leaves an L1, its dirty bytes first. -/
def State.dropL1 (s : State) (c ln : Nat) : State :=
  let l := s.l1Line c ln
  (if l.dirty = [] then s else s.mergeGc (galleryOf c) ln l.dirty l.bad).setL1 c ln {}

/-- Room for a line in an L1. -/
def State.roomL1 (s : State) (c ln : Nat) : State :=
  let t := (s.cell c).l1
  if decide ((s.cell c).l1Lines ≤ t.length) && (tget t ln).isNone then
    match t[s.victim t.length]? with
    | some (k, _) => s.useFree.dropL1 c k
    | none => s
  else s

/-- A line as the cell's plain loads see it: through L1, or with L1STEPS 0 the gallery cache (07:R100). -/
def State.cellRow (s : State) (c ln : Nat) : State × Row :=
  if (s.cell c).split = 0 then s.gcRow (galleryOf c) ln
  else
    let l := s.l1Line c ln
    match l.base with
    | some b => (s, l.over b)
    | none =>
      let (s, b) := (s.roomL1 c ln).gcRow (galleryOf c) ln
      (s.setL1 c ln (l.filled b (s.gcPoison (galleryOf c) ln)), l.over b)

/-- Poison of a line as the cell's plain loads see it. -/
def State.cellPoison (s : State) (c ln : Nat) : BitVec 4 :=
  let gc := s.gcPoison (galleryOf c) ln
  if (s.cell c).split = 0 then gc else (s.l1Line c ln).poisonOver gc

/-! ## Write-backs -/

/-- L1 to the gallery cache; the line stays and is clean (07:R101, 17:R267). -/
def State.cleanL1 (s : State) (c ln : Nat) : State :=
  let l := s.l1Line c ln
  if l.dirty = [] then s
  else
    let s := s.mergeGc (galleryOf c) ln l.dirty l.bad
    s.setL1 c ln (l.cleaned l.dirty [])

/-- Dirty bytes of the writers named go from a gallery cache to the hall's L2. -/
def State.cleanGc (s : State) (g ln : Nat) (who : Nat → Bool) : State :=
  let l := s.gcLine g ln
  let d := l.dirty.filter fun e => who e.2.2
  if d = [] then s
  else
    let s := s.mergeL2 (g / 32) ln d (l.badOf d)
    s.setGc g ln (l.cleaned d (l.dirty.filter fun e => !who e.2.2))

/-- Dirty bytes of the writers named go from a hall's L2 to the home. -/
def State.cleanL2 (s : State) (h ln : Nat) (who : Nat → Bool) : State :=
  let l := s.l2Line h ln
  let d := l.dirty.filter fun e => who e.2.2
  if d = [] then s
  else
    let s := s.mergeHome ln d (l.badOf d)
    s.setL2 h ln (l.cleaned d (l.dirty.filter fun e => !who e.2.2))

def State.cleanAllL1 (s : State) (c : Nat) : State := each ((s.cell c).l1.map (·.1)) s fun s ln => s.cleanL1 c ln

def State.cleanAllGc (s : State) (g : Nat) (who : Nat → Bool) : State :=
  each ((tgetD (s.hall (g / 32)).gc [] (g % 32)).map (·.1)) s fun s ln => s.cleanGc g ln who

def State.cleanAllL2 (s : State) (h : Nat) (who : Nat → Bool) : State :=
  each ((s.hall h).l2.map (·.1)) s fun s ln => s.cleanL2 h ln who

/-- The clean part of a set of lines is dropped; dirty bytes stay (17:R261). -/
def dropClean (t : Tbl Line) : Tbl Line :=
  (t.map fun (k, l) => (k, l.unfilled)).filter fun e => e.2.dirty ≠ []

/-- The L1 of a cell is written back and emptied (07:R100, 23:R350). -/
def State.flushL1 (s : State) (c : Nat) : State := (s.cleanAllL1 c).updCell c fun x => { x with l1 := [] }

/-! ## Releases and acquires (07:R111 to R113) -/

/-- Scopes from the narrowest (07:R111). -/
def Scope.le (a b : Scope) : Bool := a.code ≤ b.code

/-- The smallest scope that contains two cells (07:R111). -/
def scopeBetween (c d : Nat) : Scope :=
  if c = d then .cell else if galleryOf c = galleryOf d then .gallery else if hallOf c = hallOf d then .hall else .device

/-- Every write of the cell, and what lies below it on the way, reaches the scope's visibility point (07:R113). -/
def State.pushTo (s : State) (c : Nat) (sc : Scope) : State :=
  let s := if Scope.le .gallery sc then s.cleanAllL1 c else s
  let s := if Scope.le .hall sc then s.cleanAllGc (galleryOf c) (fun _ => true) else s
  if Scope.le .device sc then s.cleanAllL2 (hallOf c) (fun _ => true) else s

/-- The cell's clean copies above the scope's visibility point are dropped (07:R113, 17:R261). -/
def State.acquire (s : State) (c : Nat) (sc : Scope) : State :=
  let s := if Scope.le .gallery sc then s.updCell c fun x => { x with l1 := dropClean x.l1 } else s
  let s :=
    if Scope.le .hall sc then
      s.updHall (hallOf c) fun x =>
        let g := galleryOf c % 32
        { x with gc := tput x.gc g (dropClean (tgetD x.gc [] g)) }
    else s
  if Scope.le .device sc then s.updHall (hallOf c) fun x => { x with l2 := dropClean x.l2 } else s

/-- The release is appended to the cell's promotion log; the oldest entry goes to the eager mark when the log is full
(07:R121, R125). -/
def State.logRelease (s : State) (c node : Nat) (sc : Scope) : State :=
  if Scope.le sc .hall then
    s.updCell c fun x =>
      let e : LogEntry := ⟨node, x.issuePos⟩
      match x.log with
      | o :: r =>
        if 16 ≤ x.log.length then
          { x with log := r ++ [e], eagerMark := some o.pos, eager := satAdd x.eager 1 8 }
        else { x with log := x.log ++ [e] }
      | [] => { x with log := [e] }
  else s

/-- A release that must wait: a promotion is in progress on the cell (07:R127). -/
def State.releaseStalls (s : State) (c : Nat) : Bool := (s.cell c).prom.isSome

/-- A store of an STR at SYSTEM of the cell is on its way to the host: no later send, put or signal goes ahead of it
(07:R139). -/
def State.releasePending (s : State) (c : Nat) : Bool := s.hostStores.any fun x => x.releases && x.cell = some c

/-- A release waits for acknowledgements of the host: one at SYSTEM for those of every store on its way, whichever party
made it (07:R139; log entry 27). -/
def State.hostPending (s : State) (c : Nat) (sc : Scope) : Bool :=
  (sc = .system && s.hostStores.any (·.read.isNone)) || s.releasePending c

/-- A presence store of the node's iteration is on its way to its home: a later release of it waits (07:R113). -/
def State.presencePending (s : State) (n : NodeRef) : Bool :=
  s.net.any fun p => match p.body with | .presStore _ _ _ b => b = n | _ => false

/-- A release by a task or passed firing of a node: logged, then pushed (07:R113, R121). -/
def State.release (s : State) (c node : Nat) (sc : Scope) : State := (s.logRelease c node sc).pushTo c sc

/-- Every write performed on the cell reaches its home (07:R124). -/
def State.promoteWrites (s : State) (c : Nat) : State :=
  ((s.cleanAllL1 c).cleanAllGc (galleryOf c) (writtenBy c)).cleanAllL2 (hallOf c) (writtenBy c)

/-! ## Reads and writes of a cell -/

/-- The cell's own dirty bytes of a line go down as far as the scope's visibility point (07:R112, 17:R270). -/
def State.pushLine (s : State) (c ln : Nat) (sc : Scope) : State :=
  let s := if Scope.le .gallery sc then s.cleanL1 c ln else s
  let s := if Scope.le .hall sc then s.cleanGc (galleryOf c) ln (writtenBy c) else s
  if Scope.le .device sc then s.cleanL2 (hallOf c) ln (writtenBy c) else s

/-- The line at the visibility point of a scope for a cell (07:R111). -/
def State.pointRow (s : State) (c ln : Nat) (sc : Scope) : State × Row :=
  match sc with
  | .cell => s.cellRow c ln
  | .gallery => s.gcRow (galleryOf c) ln
  | .hall => s.l2Row (hallOf c) ln
  | .device | .system => (s.missHome (ln * 128), s.homeRow ln)

/-- Poison of a line at the visibility point of a scope for a cell (27:R377). -/
def State.pointPoison (s : State) (c ln : Nat) (sc : Scope) : BitVec 4 :=
  match sc with
  | .cell => s.cellPoison c ln
  | .gallery => s.gcPoison (galleryOf c) ln
  | .hall => s.l2Poison (hallOf c) ln
  | .device | .system => s.homePoison ln

/-- A host address (07:R104). -/
def isHost (pa : Nat) : Bool := pa / 2 ^ 47 % 2 = 1

/-- `n` bytes of a row from byte `j`. -/
def rowBytes (r : Row) (j n : Nat) : Nat := r.toNat / 2 ^ (8 * j) % 2 ^ (8 * n)

/-- A read of `n` bytes within a line at a scope's visibility point, or a plain one through L1 (07:R113, R139;
17:R260, R261). -/
def State.readAt (s : State) (c pa n : Nat) (sc : Option Scope) : State × Nat :=
  if isHost pa then (s, s.readHost (pa % 2 ^ 47) n)
  else
    let ln := lineOf pa
    let (s, r) :=
      match sc with
      | none => s.cellRow c ln
      | some x => (s.pushLine c ln x).pointRow c ln x
    (s, rowBytes r (pa % 128) n)

/-- The bytes of a store as a dirty part. -/
def dirtyBytes (c j n v : Nat) : Tbl (Byte × Nat) := (upTo n).map fun i => (j + i, (BitVec.ofNat 8 (v / 256 ^ i), c))

/-- A plain store: L1, or with L1STEPS 0 the gallery cache; host stores go to the host and are pending until it
acknowledges them (07:R101, R139; 17:R260). A store to an offline channel raises its fault when it is made (27:R382). -/
def State.storePlain (s : State) (c pa n v : Nat) (by_ : Option NodeRef) (releases : Bool := false) : State :=
  if isHost pa then
    { s.writeHost (pa % 2 ^ 47) n v with
      hostStores := s.hostStores ++ [{ addr := pa, cell := some c, node := by_, releases := releases }] }
  else
    let s := s.raiseOffline by_ pa
    let ln := lineOf pa
    let d := dirtyBytes c (pa % 128) n v
    if (s.cell c).split = 0 then s.mergeGc (galleryOf c) ln d
    else
      let (s, _) := s.cellRow c ln
      s.setL1 c ln ((s.l1Line c ln).merged d)

/-- A store at a scope's visibility point (17:R261). -/
def State.storeAt (s : State) (c pa n v : Nat) (sc : Scope) (by_ : Option NodeRef) : State :=
  if isHost pa then s.storePlain c pa n v by_ (sc = .system)
  else (s.storePlain c pa n v by_).pushLine c (lineOf pa) sc

/-- A load of a poisoned sector taints its task: the poison is that of the copy which the load reads, and every sector of an
offline channel is poisoned (27:R377, R382). -/
def State.readPoison (s : State) (c pa : Nat) (sc : Option Scope) : Bool :=
  !isHost pa && (s.offline pa || (s.pointPoison c (lineOf pa) (sc.getD .cell)).getLsbD (pa % 128 / 32))

/-! ## Operations served at memory (17:R244, R260, R261, R270) -/

/-- Bytes of an access size (09:R148). -/
def sizeBytes (z : Size) : Nat := 2 ^ z.code

/-- A loaded datum extended to a scalar (17:R260). -/
def extendLoad (v : Nat) (z : Size) (sx : Bool) : Word :=
  if sx then BitVec.ofInt 64 (signExt v (8 * sizeBytes z)) else BitVec.ofNat 64 v

/-- The new value of an atomic on a word of `w` bits: its opcode in class AT, the old value, and the operands
(17:R270). -/
def atomicNew (op w o b c : Nat) : Nat :=
  let o := o % 2 ^ w
  let b := b % 2 ^ w
  match op with
  | 0 => (o + b) % 2 ^ w
  | 1 => if signExt o w ≤ signExt b w then o else b
  | 2 => if signExt o w ≤ signExt b w then b else o
  | 3 => o &&& b
  | 4 => o ||| b
  | 5 => o ^^^ b
  | 6 => b
  | 7 => if o = c % 2 ^ w then b else o
  | _ => if b ≤ o then 0 else o + 1

/-- The cell's dirty bytes of a line go to its home, and no cache between the two keeps a clean copy that would answer a
later load with what the line held before (07:R112, R137; 17:R270). -/
def State.homeLine (s : State) (c ln : Nat) : State :=
  let s := (s.pushLine c ln .device).setL1 c ln {}
  let s := s.setGc (galleryOf c) ln (s.gcLine (galleryOf c) ln).unfilled
  s.setL2 (hallOf c) ln (s.l2Line (hallOf c) ln).unfilled

/-- An atomic executes at its word's home (07:R137; 17:R270; 27:R377). -/
def State.atomicAt (s : State) (c pa n op : Nat) (b d : Word) : State × (Word × Bool) :=
  let s := s.homeLine c (lineOf pa)
  let o := s.readHome pa n
  let poison := s.readPoison c pa (some .device)
  ((s.missHome pa).writeHome pa n (atomicNew op (8 * n) o b.toNat d.toNat), (BitVec.ofNat 64 o, poison))

/-- The node of an outstanding operation's task. -/
def Cell.opNode (x : Cell) (c : Nat) (o : Op) : Option NodeRef := (tget x.tasks o.slot).map (taskNode c)

/-- A load or atomic whose datum is still to be read is served now (17:R260, R261, R270). -/
def State.serveOp (s : State) (c : Nat) (o : Op) : State :=
  let by_ := (s.cell c).opNode c o
  let put (s : State) (k : OpKind) : State :=
    s.updCell c fun x => { x with ops := x.ops.map fun y => if y.id = o.id then { y with kind := k } else y }
  match o.kind with
  | .load sc none =>
    let s := match sc with | some x => (s.pushLine c (lineOf o.pa) x).acquire c x | none => s
    let (s, v) := s.readAt c o.pa (sizeBytes o.size) sc
    put (s.raiseOffline by_ o.pa) (.load sc (some (extendLoad v o.size o.sx, s.readPoison c o.pa sc)))
  | .atomic op b d none =>
    let (s, v) := s.atomicAt c o.pa (sizeBytes o.size) op b d
    put (s.raiseOffline by_ o.pa) (.atomic op b d (some v))
  | _ => s

/-- The loads and atomics of a task are served: a release or the end of the task does not pass them (07:R114, R115). -/
def State.serveTask (s : State) (c slot : Nat) : State :=
  each ((s.cell c).ops.filter fun o => o.slot = slot) s fun s o => s.serveOp c o

/-! ## Translation at the edge (17:R258; 21:R315, R316) -/

/-- Leaves a cell finds: on an edge cell those of its own cache, then the hall walker's. -/
def State.leaves (s : State) (c : Nat) : List Leaf :=
  if isEdgeCell c then (s.cell c).tlb ++ (s.hall (hallOf c)).wcache else (s.hall (hallOf c)).wcache

/-- A list used most recently first, of at most `n` leaves (21:R315, R316). -/
def lruInsert (l : List Leaf) (x : Leaf) (n : Nat) : List Leaf := (x :: l.filter (· ≠ x)).take n

/-- A leaf of the walker's cache becomes the most recently used there. -/
def State.useShared (s : State) (h : Nat) (l : Leaf) : State :=
  s.updHall h fun x => { x with wcache := lruInsert x.wcache l 4096 }

/-- A leaf that is used becomes the most recently used; an edge cell's own cache takes one that the walker's cache gave
(21:R315, R316). -/
def State.useLeaf (s : State) (c : Nat) (l : Leaf) : State :=
  if isEdgeCell c then
    (if (s.cell c).tlb.contains l then s else s.useShared (hallOf c) l).updCell c fun x => { x with tlb := lruInsert x.tlb l 64 }
  else s.useShared (hallOf c) l

/-- Whether a waiter waits on some walk. -/
def State.walking (s : State) (h : Nat) (w : Waiter) : Bool :=
  (s.hall h).walks.any fun k => k.waiters.any (·.1 = w)

/-- Merged misses that a walk takes at most. -/
def walkMerge : Nat := 1024

/-- A miss joins the walk of its page, up to 1,024, or asks for a walk of its own; one that finds its page's walk full
is not listed and looks up again (21:R316). -/
def State.missAt (s : State) (h : Nat) (root : Option Nat) (va : Word) (write : Bool) (w : Waiter) : State :=
  if s.walking h w then s
  else
    s.updHall h fun x =>
      let same := fun (k : Walk) => k.root = root && k.va.toNat / 2 ^ 16 = va.toNat / 2 ^ 16
      if x.walks.any same then
        { x with walks := x.walks.map fun k =>
            if same k && decide (k.waiters.length < walkMerge) then { k with waiters := k.waiters ++ [(w, va, write)] }
            else k }
      else { x with walks := x.walks ++ [{ root := root, va := va, write := write, waiters := [(w, va, write)] }] }

/-- What the translation of a task's access gives. -/
inductive Checked where
  /-- the physical address -/
  | ok (pa : Nat)
  /-- a fault: cause, TRAPADDR, TRAPINFO -/
  | bad (cause addr info : Nat)
  /-- no leaf yet: the task waits for the walk -/
  | miss
deriving DecidableEq, Repr

/-- The leaf that a walk has given the task for an address. -/
def State.grantFor (s : State) (t : Task) (a : Nat) : Option Leaf :=
  t.grant.filter fun l => decide ((s.ctx t.ctx).root = some l.root) && l.covers l.root a

/-- The leaf that the caches hold for an access of the task. -/
def State.cachedLeaf (s : State) (t : Task) (a : Nat) : Option Leaf :=
  (s.ctx t.ctx).root.bind fun r => (s.leaves s.focus.toNat).find? (·.covers r a)

/-- An access that has gone on a cached leaf has used it (21:R315, R316). -/
def State.usedLeaf (s : State) (t : Task) (a : Nat) (done : State) : State :=
  match s.grantFor t a, s.cachedLeaf t a with
  | none, some l => done.useLeaf s.focus.toNat l
  | _, _ => done

/-- ALIGN, TRANSLATION and PROTECTION of an access of the task at the focus, in this order (17:R258). -/
def State.checkAccess (s : State) (t : Task) (va : Word) (n : Nat) (k : Access) (write : Bool) : Checked :=
  let a := va.toNat
  if a % n ≠ 0 then .bad Cause.align a (s.curWord t).toNat
  else if 2 ^ 52 ≤ a then .bad Cause.translation a a
  else
    match (s.grantFor t a).or (s.cachedLeaf t a) with
    | some l => if leafAdmits l a k write then .ok (l.pa a) else .bad Cause.protection a (s.curWord t).toNat
    | none => .miss

/-- The task waits for a walk of its address (21:R316). -/
def State.missTask (s : State) (t : Task) (va : Word) (write : Bool) : State :=
  let h := hallOf s.focus.toNat
  let w : Waiter := .task s.focus.toNat s.slot
  let s := s.missAt h (s.ctx t.ctx).root va write w
  if s.walking h w then s.setTask s.here { t with wait := .walk, waitAt := some s.now } else s.retry t none

end Sys2Proof.Machine
end

