-- ==== Sys2Proof/Machine/Tokens.lean ====
section
/-! DEFINITION. SendToken (05:R70) with its release, credits, spill rings and vestibules; the tokens a task sends;
END and the abandonment of a task (11:R180, 23:R344). -/

namespace Sys2Proof.Machine

/-! ## Candidates (23:R337) -/

/-- A configuration's saved state holds work: a task, a matching entry, a token on its way, or a held access (23:R337). -/
def CfgRt.savedWork (c : CfgRt) : Bool :=
  c.saved.any fun x =>
    !x.tasks.isEmpty || !x.store.isEmpty || !x.readyFirings.isEmpty || !x.links.isEmpty
      || x.bindings.any (fun b => !b.fifo.isEmpty || b.pack.isSome)
      || x.nodes.any (fun n => n.heldSince.isSome || !n.passes.isEmpty || !n.deliveries.isEmpty)

/-- A held engine request lies in a slot of the configuration's saved state (19:R282; 23:R337, R350). -/
def State.savedHeld (s : State) (c : CfgRt) : Bool :=
  c.saved.any fun u => u.image.slots.any fun y =>
    y.2.state = .busy && (match y.2.req with
      | some (q, id) => (tgetD (s.hall (hallOf u.cell)).queues [] q).any fun r => r.id = id && r.heldSince.isSome
      | none => false)

/-- The configuration may be chosen at a scheduling decision (23:R337, R339). -/
def State.candidate (s : State) (c : CfgRt) : Bool :=
  match c.state with
  | .unplaced => !c.vest.isEmpty || c.wanted
  | .saved => ((c.bySwap && !c.byHold) || c.resumed) && (!c.vest.isEmpty || c.savedWork || s.savedHeld c || c.wanted)
  | _ => false

/-- A configuration that has become a candidate starts its count, and a decision of its home hall is due
(05:R86, 23:R337). -/
def State.noteCandidate (s : State) (ctx : BitVec 10) (i : Nat) : State :=
  match s.cfg ctx i with
  | none => s
  | some c =>
    if s.candidate c && c.candSince.isNone then
      (s.updCfg ctx i fun c => { c with candSince := some s.now, count := 0 }).updHall c.home
        fun h => { h with due := h.due + 1 }
    else s

/-- Configurations of a context that have become candidates. -/
def State.noteCandidates (s : State) (ctx : BitVec 10) : State :=
  each (s.cfgs.filter fun x => x.1 / 65536 = ctx.toNat) s fun s x => s.noteCandidate ctx (x.1 % 65536)

/-- Tokens of 16 bytes that a vestibule holds: its size comes in steps of 4 KiB, at least one, and is 64 KiB where the
object gives none (05:R85). -/
def CfgRt.vestCap (c : CfgRt) : Nat :=
  match c.spec.vest with
  | none => 65536 / 16
  | some b => max 1 ((b + 4095) / 4096) * (4096 / 16)

/-- A token enters the vestibule of a configuration. -/
def State.toVest (s : State) (ctx : BitVec 10) (i node port : Nat) (t : Token) : State :=
  (s.updCfg ctx i fun c => { c with vest := c.vest ++ [(node, port, t, s.now)] }).noteCandidate ctx i

/-- A token forwarded from a cell that the configuration has left enters behind earlier forwarded tokens and ahead of
those that entered directly (06:R96). -/
def State.forwardVest (s : State) (ctx : BitVec 10) (i node port : Nat) (t : Token) : State :=
  (s.updCfg ctx i fun c =>
    { c with
      vest := c.vest.take c.forwarded ++ (node, port, t, s.now) :: c.vest.drop c.forwarded
      forwarded := c.forwarded + 1 }).noteCandidate ctx i

/-- Where a node of a configuration is placed: its entry as the agent of the node's own hall holds it (23:R336). -/
def CfgRt.place (c : CfgRt) (gid : Nat) : Option Place := c.places.find? (·.gid = gid)

/-- The entries as the agent of a hall holds them: a change to a cell of its own hall at once, another when it has reached
its copy (23:R336). -/
def CfgRt.copy (c : CfgRt) (h : Nat) : List Place :=
  match tget c.older h with
  | some l => (c.places.filter fun p => hallOf p.cell = h) ++ l.filter fun p => hallOf p.cell ≠ h
  | none => c.places

/-- The entries change: every agent's copy holds the former ones until the change reaches it (23:R336). -/
def CfgRt.putPlaces (c : CfgRt) (l : List Place) : CfgRt :=
  { c with places := l, older := (upTo 8).foldl (fun t h => if (tget t h).isSome then t else tput t h c.places) c.older }

/-! ## SendToken (05:R70) -/

/-- Why a send does not go: no space downstream; a promotion of the cell (07:R127); an earlier write that it waits for
(07:R113, R139). -/
inductive SendWait where
  | space | promotion | earlier
deriving DecidableEq, Repr

/-- The stall counter of a wait (05:R94), and whether VSTALL counts it (07:R127). -/
def SendWait.counter (w : SendWait) : Option Nat := if w = .space then some 1 else none
def SendWait.vstall (w : SendWait) : Bool := w = .promotion

/-- What an attempt to send gives. -/
inductive SendOut where
  | sent (s : State)
  | stall (s : State) (w : SendWait)
  /-- SCOPE: the resolved destination lies outside the sender's declared scope (07:R119) -/
  | scope (dst : Nat)

/-- Deliver a token of an edge to an external binding: one credit of the agent goes with it (05:R396). -/
def State.deliverExt (s : State) (src : Nat) (ctx : BitVec 10) (cfg node port : Nat) (cell : Nat) (t : Token) : State :=
  (s.updCfg ctx cfg fun c => { c with credits := tput c.credits (node * 4 + port) (tgetD c.credits 16 (node * 4 + port) - 1) }).send
    ⟨src, cell, .extToken { t with dst := BitVec.ofNat 18 cell } node port cfg⟩

/-- A placement epoch of the configuration is open (05:R81). -/
def State.epochOpen (s : State) (ctx : BitVec 10) (i : Nat) : Bool :=
  s.cells.any fun x => [x.2.v0, x.2.v1].any fun v => v.epochOpen && v.owner = some (ctx, i)

/-- The vestibule's tokens go out in order while their ports have credit; the placement's epochs are closed, and the agent
that keeps it does not change firmware (05:R85, R96, R396; 25:R371). A RESUME token goes to the node's new cell (23:R347). -/
def State.deliverVest (s : State) (ctx : BitVec 10) (i : Nat) : Nat → State
  | 0 => s
  | k + 1 =>
    match s.cfg ctx i with
    | none => s
    | some c =>
      match c.vest with
      | [] => s
      | (node, port, t, _) :: r =>
        match c.place node with
        | none => s
        | some p =>
          if (c.state ≠ .ready && c.state ≠ .live && c.state ≠ .draining) || s.epochOpen ctx i
              || (s.hall c.home).switching then s
          else
            let src := c.home * 0x8000
            let s1 := s.updCfg ctx i fun c => { c with vest := r, forwarded := c.forwarded - 1 }
            if t.kind = 3 && t.aux = 2 then
              (s1.send ⟨src, p.cell, .token
                { t with dst := BitVec.ofNat 18 p.cell, ver := p.ver
                         payload := BitVec.ofNat 64
                           (p.cell + (if port = 5 then t.payload.toNat / 2 ^ 18 % 32 else p.node) * 2 ^ 18 + port * 2 ^ 23) }
                none⟩).deliverVest ctx i k
            else if 0 < tgetD c.credits 16 (node * 4 + port) then
              (s1.deliverExt src ctx i node port p.cell t).deliverVest ctx i k
            else s

/-- The change has reached a hall's copy; what a lookup in the older one has left in the vestibule goes out (23:R336). -/
def State.takeTable (s : State) (h : Nat) (ctx : BitVec 10) (i : Nat) : State :=
  (s.updCfg ctx i fun c => { c with older := tdel c.older h }).deliverVest ctx i
    (match s.cfg ctx i with | some c => c.vest.length | none => 0)

/-- The external edge of an output port: its configuration, the number of its node, the port (05:R93, 06:R96). -/
def State.edgeOf (s : State) (p : PortRef) : Option (Nat × Nat × Nat) :=
  match (s.version p.cell p.ver).owner, s.node p.cell p.ver p.node with
  | some (_, i), some n => some (i, n.gid, p.port)
  | _, _ => none

/-- The edge of an output port changes. -/
def State.updEdge (s : State) (p : PortRef) (f : Edge → Edge) : State :=
  s.updNode p.cell p.ver p.node fun n => { n with outputs := lset n.outputs p.port (·.map f) }

/-- A send found no space: the cycle from which its port stalls is kept (05:R92). -/
def State.stallEdge (s : State) (p : PortRef) : SendOut :=
  .stall (s.updEdge p fun e => { e with stalledSince := some (e.stalledSince.getD s.now) }) .space

/-- Where the agent of a hall finds a node of a configuration. A new place is not given while an epoch of the placement is
open, so that no token overtakes one that an old cell forwards; an older copy gives the former cell (05:R60; 06:R96;
23:R336). -/
def State.resolve (s : State) (h : Nat) (ctx : BitVec 10) (cfg node : Nat) : Option Place :=
  (s.cfg ctx cfg).bind fun c =>
    ((c.copy h).find? (·.gid = node)).filter fun p => !(s.epochOpen ctx cfg && decide (c.place node = some p))

/-- The cell of an external edge's destination that lies outside the sender's declared scope (07:R119). -/
def State.scopeOut (s : State) (p : PortRef) (ctx : BitVec 10) : Option Nat :=
  match s.node p.cell p.ver p.node with
  | none => none
  | some n =>
    match ((n.outputs[p.port]?).join).map fun e => e.dest with
    | some (EdgeDest.external cfg node _) =>
      match s.resolve (hallOf p.cell) ctx cfg node with
      | some x => if !Scope.le (scopeBetween p.cell x.cell) n.scope && decide (n.role ≠ .landing) then some x.cell else none
      | none => none
    | _ => none

/-- An external edge as the placement table resolves it: scope, and how the token can go (05:R70, R85, R396). -/
def State.sendExternal (s : State) (p : PortRef) (cfg node port : Nat) (t : Token) : SendOut :=
  match s.cfg t.ctx cfg with
  | none => .stall s .space
  | some c =>
    let placed := s.resolve (hallOf p.cell) t.ctx cfg node
    if (s.hall (hallOf p.cell)).switching then s.stallEdge p
    else
      match s.scopeOut p t.ctx with
      | some dst => .scope dst
      | none =>
        let sc := match placed with | some x => scopeBetween p.cell x.cell | none => .device
        let t := { t with scope := sc, edge := s.edgeOf p }
        let s1 := (s.release p.cell p.node sc).updEdge p fun e => { e with stalledSince := none }
        let vest := if c.vest.length < c.vestCap then .sent (s1.toVest t.ctx cfg node port t) else s.stallEdge p
        match placed with
        | some x =>
          if c.vest.isEmpty && decide (0 < tgetD c.credits 16 (node * 4 + port)) then
            .sent (s1.deliverExt p.cell t.ctx cfg node port x.cell t)
          else vest
        | none => vest

/-- An edge inside the configuration: a credit, or space in its spill ring (05:R63, R91). -/
def State.sendInternal (s : State) (p : PortRef) (e : Edge) (dst : Nat) (rtag : BitVec 8) (t : Token) : SendOut :=
  let t := { t with ver := p.ver, dst := BitVec.ofNat 18 dst, rtag := rtag, scope := e.scope }
  if 0 < e.credits && e.ringTokens.isEmpty then
    let s := (s.release p.cell p.node e.scope).updEdge p fun e => { e with credits := e.credits - 1, stalledSince := none }
    .sent (s.send ⟨p.cell, dst, .token t (some p)⟩)
  else if (match e.ring with | some cap => decide (e.ringTokens.length < cap) | none => false) then
    .sent ((s.release p.cell p.node e.scope).updEdge p fun e =>
      { e with ringTokens := e.ringTokens ++ [t], stalledSince := none })
  else s.stallEdge p

/-- SendToken for a port in use (05:R70). The token carries the sender's taint already. -/
def State.trySend (s : State) (p : PortRef) (t : Token) : SendOut :=
  if s.releaseStalls p.cell then .stall s .promotion
  else
    match s.node p.cell p.ver p.node with
    | none => .stall s .space
    | some n =>
      match (n.outputs[p.port]?).join with
      | none => .stall s .space
      | some e =>
        if s.hostPending p.cell e.scope then .stall s .earlier
        else
          match e.dest with
          | .internal dst rtag => s.sendInternal p e dst rtag t
          | .external cfg node port => s.sendExternal p cfg node port t

/-! ## Sends of the task at the focus -/

/-- The node of the issuing task uses an output port (05:R70). -/
def State.portInUse (s : State) (t : Task) (port : Nat) : Bool :=
  match s.node s.focus.toNat t.ver t.node with
  | some n => ((n.outputs[port]?).join).isSome
  | none => false

/-- A token with the task's send tag and taint (17:R245, R244). -/
def Task.tok (t : Task) (kind : BitVec 3) (pred : TPred) (aux : BitVec 9) (v : Word) : Token :=
  { kind := kind, poison := t.taint, ver := t.ver, ctx := t.ctx, iter := t.sendIter, pred := pred, aux := aux,
    payload := v }

/-- The null token of a port (17:R246). -/
def Task.nullTok (t : Task) : Token := t.tok 0 .null 0 0

/-- Kind codes of the tokens a TK instruction sends (09:R154). -/
def TkKind.tok (k : TkKind) : BitVec 3 := BitVec.ofNat 3 k.code

/-- How a list of sends ended. -/
inductive SendEnd where
  | all
  | stall (w : SendWait)
  | scope (dst : Nat)

/-- Sends in order; ports already done by this instruction are skipped, and each port sent on is noted
(11:R180, 23:R351). -/
def State.sendList (s : State) (t : Task) : List (Nat × Token) → State × Task × SendEnd
  | [] => (s, t, .all)
  | (port, tok) :: r =>
    if t.done.contains port then s.sendList t r
    else
      match s.trySend ⟨s.focus.toNat, t.ver, t.node, port⟩ tok with
      | .sent s' => s'.sendList { t with done := port :: t.done, sent := port :: t.sent } r
      | .stall s' w => (s', t, .stall w)
      | .scope dst => (s, t, .scope dst)

/-- A scoped load of the task at the focus is outstanding: nothing that follows it goes ahead of it (17:R261). -/
def State.acquiring (s : State) : Bool :=
  s.cell0.ops.any fun o => o.slot = s.slot && (match o.kind with | .load (some _) none => true | .prom _ _ => true | _ => false)

/-- A release of the task waits for its presence stores to reach their homes; its loads and atomics are served first
(07:R113, R114). `ends` where the task ends with it: END waits for no load of the task, and the values are discarded
(11:R180); any other release waits for its scoped loads (17:R261). None of them goes ahead of a store of an STR at SYSTEM that
the host has not acknowledged (07:R139). -/
def State.beforeRelease (s : State) (t : Task) (k : State → State) (ends : Bool := false) : State :=
  if (s.acquiring && !ends) || s.presencePending (taskNode s.focus.toNat t) || s.releasePending s.focus.toNat then s.retry t none
  else k (s.serveTask s.focus.toNat s.slot)

/-- Sends, then what follows; a port without space stalls the task in STALL1 (05:R94). A port not in use and a
destination outside the declared scope end the instruction before it sends anything (00:R12); with nothing to send it
waits for nothing (11:R180). DESIGN CHOICE (log entry 27): where a DUP or STEER has sent on one port, stalls on the next,
and finds at a retry that port's destination outside the scope, the token sent stays sent (17:R246, 23:R351) and SCOPE is
raised. -/
def State.sendThen (s : State) (t : Task) (l : List (Nat × Token)) (k : State → Task → State) (ends : Bool := false) :
    State :=
  if l.any fun x => !s.portInUse t x.1 then s.raiseWord t Cause.protection
  else
    let owed := l.filter fun x => !t.done.contains x.1
    match owed.findSome? fun x => s.scopeOut ⟨s.focus.toNat, t.ver, t.node, x.1⟩ t.ctx with
    | some dst => s.raise t Cause.scope t.pc.toNat dst
    | none =>
      if owed.isEmpty then k s t
      else
        s.beforeRelease t (ends := ends) fun s =>
        match s.sendList t l with
        | (s, t, .all) => k s t
        | (s, t, .stall w) => s.retry t w.counter w.vstall
        | (s, t, .scope dst) => s.raise t Cause.scope t.pc.toNat dst

/-! ## The end of a task (11:R180, 23:R344) -/

/-- The null sends that END owes: ports in use, ascending, on which the firing has sent nothing; never out0 of a
LOADER node (11:R180, 21:R331). They carry the firing's own tag. -/
def State.endSends (s : State) (t : Task) : List (Nat × Token) :=
  match s.node s.focus.toNat t.ver t.node with
  | none => []
  | some n =>
    ((upTo 4).filter fun p =>
      ((n.outputs[p]?).join).isSome && !t.sent.contains p && !(p = 0 && n.role = .loader)).map
        fun p => (p, { t.nullTok with iter := t.iter })

/-- The slot of the task at the focus is freed and its registers discarded, to take a firing from the next cycle on; values
that its operations await are discarded, and a deferred presence load without a value keeps its place at its home
(05:R66; 07:R109; 11:R180). -/
def State.freeSlot (s : State) : State :=
  let s := s.serveTask s.focus.toNat s.slot
  let ended (x : Nat × Nat × Nat) : Bool := s.cell0.ops.any fun o => o.slot = s.slot && x.2 = (s.focus.toNat, o.id)
  { s with memAnswered := s.memAnswered.filter fun x => !ended x }.updCell0 fun c =>
    { c with
      tasks := tdel c.tasks s.slot, freed := s.slot :: c.freed
      ops := c.ops.filter fun o => o.slot ≠ s.slot
      rr := s.slot, issuedAt := some s.now }

end Sys2Proof.Machine
end

