-- ==== Sys2Proof/Machine/Fire.lean ====
section
/-! DEFINITION. Arrival of tokens, the matching store, firing, slots (05:R62 to R68, R77 to R79, R82, R87, R93, R98). -/

namespace Sys2Proof.Machine

/-! ## Slots (05:R66) -/

/-- The first free task slot of a cell; one freed in this cycle takes a firing from the next one on (11:R180). -/
def Cell.freeSlot? (c : Cell) : Option Nat := (upTo 8).find? fun i => (tget c.tasks i).isNone && !c.freed.contains i

/-- A task at its start: the firing's tokens and tag, the handler, and free values where the spec gives none
(05:R66, 11:R175, 23:R343; log entry 8). -/
def startTask (s : State) (n : Node) (f : Firing) : Task :=
  { node := f.node, ver := f.ver, ctx := f.ctx, iter := f.iter, stage := n.stage, pc := BitVec.ofNat 10 n.handler,
    regs := (upTo 31).map fun i => (i + 1, Config.freeWord s.fresh (i + 1)),
    ins := f.ins, sendIter := f.iter,
    trapAddr := Config.freeWord s.fresh 32, trapInfo := Config.freeWord s.fresh 33,
    epc := BitVec.ofNat 10 (Config.freeWord s.fresh 34).toNat, nextIssue := s.now + 1 }

/-- Firings that wait take free slots in the order in which they became ready. -/
def State.fillSlots (s : State) (cell : Nat) : Nat → State
  | 0 => s
  | k + 1 =>
    let c := s.cell cell
    match c.readyFirings, c.freeSlot? with
    | f :: r, some i =>
      match s.node cell f.ver f.node with
      | none => s
      | some n =>
        if n.halted then s
        else
          let t := startTask s n f
          let s := s.useFree.updCell cell fun c => { c with readyFirings := r, tasks := tput c.tasks i t }
          s.fillSlots cell k
    | _, _ => s

/-! ## Channel FIFOs -/

/-- The credit of a token that leaves a FIFO returns: to the sender's edge, or to the agent that keeps the
configuration's vestibule (05:R63, R396). -/
def State.returnCredit (s : State) (cell : Nat) (v : Version) (b : Binding) : State :=
  match b.source with
  | some p => s.send ⟨cell, p.cell, .credit p⟩
  | none =>
    match v.owner with
    | some (ctx, cfg) =>
      let gid := match v.nodes[b.node]? with | some n => n.gid | none => 0
      let s := s.updCfg ctx cfg fun c =>
        { c with credits := tput c.credits (gid * 4 + b.port) (min 16 (tgetD c.credits 16 (gid * 4 + b.port) + 1)) }
      s.deliverVest ctx cfg 1
    | none => s

/-- The head of a FIFO leaves it, and the credit that it spent returns. -/
def State.popFifo (s : State) (cell : Nat) (ver : Bool) (r : Nat) : State :=
  match s.binding cell ver r with
  | none => s
  | some b =>
    let v := s.version cell ver
    let s := s.updBinding cell ver r fun b => { b with fifo := b.fifo.tail, fullSince := none, fullRaised := false }
    let s := s.updCell cell fun c => { c with arrivals := c.arrivals.erase (ver, r) }
    if b.fifo.head?.any (·.free) then s else s.returnCredit cell v b

/-- The credit that a token to an external binding took returns to the agent where the node still is on the cell; another
placement has its own credits (05:R396). -/
def State.agentCredit (s : State) (cell : Nat) (ctx : BitVec 10) (cfg gid port : Nat) : State :=
  match (s.cfg ctx cfg).bind fun c => c.place gid with
  | some x =>
    if x.cell = cell then
      (s.updCfg ctx cfg fun c =>
        { c with credits := tput c.credits (gid * 4 + port) (min 16 (tgetD c.credits 16 (gid * 4 + port) + 1)) }).deliverVest
          ctx cfg 1
    else s
  | none => s

/-- A token is discarded as late (05:R87); a command's RESUME ends with status 0x0303, as its context is gone. -/
def State.lateToken (s : State) (cell : Nat) (ver : Bool) (rtag node : Nat) (t : Token) : State :=
  let s := (s.endCmd t 0x0303).updCell cell fun c => { c with lateCnt := satAdd c.lateCnt 1 32 }
  if (s.ctx t.ctx).strict then s.nodeFault (nodeRef cell ver node t.ctx t.iter) Cause.lateToken rtag t.iter.toNat else s

/-- The aux part of a match key: nothing but for PLANE and SCALE tokens (05:R77). -/
def Token.auxKey (t : Token) : Option Nat :=
  if t.kind = 1 then some t.aux.toNat else if t.kind = 2 then some (512 + t.aux.toNat % 32) else none

/-- A token carries the key that a firing asks for (05:R64). -/
def Token.fits (t : Token) (ctx : BitVec 10) (iter : BitVec 12) (plane : BitVec 9) (scale : BitVec 5) : Bool :=
  t.ctx = ctx && t.iter = iter && (if t.kind = 1 then t.aux = plane else true)
    && (if t.kind = 2 then t.aux.toNat % 32 = scale.toNat else true)

/-- A token that a port can give to a firing, and where it lies: an entry of the store, the head of a FIFO, or a delivery to
a node without input ports. -/
inductive Source where
  | store (i : Nat)
  | head (rtag : Nat)
  | delivery (i : Nat)
deriving DecidableEq, Repr

/-- Bindings of a node's port, with their route tags. -/
def Version.bindingsOf (v : Version) (node port : Nat) : List (Nat × Binding) :=
  ((upTo v.bindings.length).filterMap fun r => (v.bindings[r]?).map fun b => (r, b)).filter
    fun x => x.2.node = node && x.2.port = port

/-- A FIFO head that may leave for a firing: not blocked, not held, no CTRL token (17:R253, 05:R62). -/
def Binding.head? (b : Binding) : Option Token :=
  if b.blocked || b.heldSince.isSome then none
  else match b.fifo with
    | t :: _ => if t.kind = 3 then none else some t
    | [] => none

/-- Bindings of a node's port in the order in which their oldest tokens arrived (05:R77). -/
def Cell.portBindings (c : Cell) (ver : Bool) (node port : Nat) : List (Nat × Binding) :=
  sortBy (fun x => c.arrivals.findIdx (· = (ver, x.1))) ((c.version ver).bindingsOf node port)

/-- FIFO heads of a port in the order of their arrival. -/
def Cell.headSources (c : Cell) (ver : Bool) (node port : Nat) : List (Source × Token) :=
  (c.portBindings ver node port).filterMap fun (r, b) => b.head?.map fun t => (Source.head r, t)

/-- What a TAGGED port holds: its entries in arrival order, then its FIFO heads (05:R64, R77). -/
def Cell.taggedSources (c : Cell) (ver : Bool) (node port : Nat) : List (Source × Token) :=
  ((upTo c.store.length).filterMap fun i =>
    match c.store[i]? with
    | some e => if e.ver = ver && e.node = node && e.port = port then some (Source.store i, e.token) else none
    | none => none) ++ c.headSources ver node port

/-- The token of a TAGGED port for a key: the oldest entry, else a FIFO head (05:R64, R77). -/
def Cell.taggedSource (c : Cell) (ver : Bool) (node port : Nat) (fits : Token → Bool) : Option (Source × Token) :=
  (c.taggedSources ver node port).find? fun x => fits x.2

/-- The token of an ORDERED port: a FIFO head. DESIGN CHOICE (log entry 27): of a port with several bindings the one that
arrived first. -/
def Cell.orderedSource (c : Cell) (ver : Bool) (node port : Nat) : Option (Source × Token) :=
  (c.headSources ver node port).head?

/-- Input ports that take part in the firing rule: those in use, but for the stream port of a STORER (05:R64,
21:R311). -/
def Node.firingPorts (n : Node) : List (Nat × Bool) :=
  ((upTo 4).filterMap fun p => ((n.inputs[p]?).join).map fun o => (p, o)).filter fun x => !(n.role = .storer && x.1 = 0)

/-- The tokens of a firing, one for each port of the rule, absent where one is missing; a node without input ports takes
the oldest delivery of the tag (05:R64). -/
def Cell.gatherTokens (c : Cell) (ver : Bool) (node : Nat) (n : Node) (fits : Token → Bool) :
    List (Nat × Option (Source × Token)) :=
  if n.firingPorts.isEmpty then
    [(0, (n.deliveries.findIdx? fun d => fits d.2).bind fun i => (n.deliveries[i]?).map fun d => (Source.delivery i, d.2))]
  else
    n.firingPorts.map fun (p, ordered) =>
      (p, if ordered then c.orderedSource ver node p else c.taggedSource ver node p fits)

/-- The key of a token as the aux part of a firing. -/
def Token.keyFits (t : Token) : Token → Bool := fun u =>
  u.ctx = t.ctx && u.iter = t.iter
    && !(u.kind = t.kind && u.auxKey ≠ t.auxKey)

/-- The ports hold tokens that meet those chosen already and one another (05:R64, R77). -/
def Cell.meets (c : Cell) (ver : Bool) (node : Nat) : List (Nat × Bool) → List Token → Bool
  | [], _ => true
  | (p, ordered) :: r, chosen =>
    if ordered then (c.orderedSource ver node p).isSome && c.meets ver node r chosen
    else (c.taggedSources ver node p).any fun x => chosen.all (fun t => t.keyFits x.2) && c.meets ver node r (x.2 :: chosen)

/-- A token would complete a firing of its node: the other ports of the rule hold tokens for it (05:R77). -/
def Cell.completes (c : Cell) (ver : Bool) (node port : Nat) (n : Node) (t : Token) : Bool :=
  c.meets ver node (n.firingPorts.filter fun x => x.1 ≠ port) (if n.firingPorts.contains (port, false) then [t] else [])

/-- The token that the store or the overflow area takes next goes there, where one of them has room (05:R77, R78). -/
def Cell.entryRoom (c : Cell) : Option Bool :=
  if (c.store.countP fun e => !e.spilled) < 256 then some false
  else if c.overflowOn && decide ((c.store.countP fun e => e.spilled) < 256) then some true
  else none

/-- The head of a binding needs an entry: its port is TAGGED, and it would complete no firing (05:R77). -/
def Cell.headNeeds (c : Cell) (ver : Bool) (n : Node) (b : Binding) (t : Token) : Bool :=
  t.kind ≠ 3 && (n.inputs[b.port]?).join = some false && !c.completes ver b.node b.port n t

/-- The head of a binding waits for an entry (05:R79). -/
def Cell.headWaits (c : Cell) (ver : Bool) (b : Binding) : Bool :=
  !b.blocked && b.heldSince.isNone && !b.ended && c.entryRoom.isNone &&
    (match b.fifo, (c.version ver).nodes[b.node]? with
     | t :: _, some n => c.headNeeds ver n b t
     | _, _ => false)

/-- A token that finds its edge ended (05:R93). -/
def Binding.late (b : Binding) (t : Token) : Bool := b.ended || t.edge.any b.endedEdges.contains

/-- Heads of a FIFO move on: late ones are discarded, those of TAGGED ports that complete no firing take an entry of
the store or of the overflow area, and one that finds none stays (05:R63, R77 to R79, R87, R93). DESIGN CHOICE (log entry
27): one that would complete a firing stays at the head, and takes no entry, until its node can fire. -/
def State.drain (s : State) (cell : Nat) (ver : Bool) (r : Nat) : Nat → State
  | 0 => s
  | k + 1 =>
    match s.binding cell ver r with
    | none => s
    | some b =>
      if b.blocked || b.heldSince.isSome then s
      else
        match b.fifo with
        | [] => s
        | t :: _ =>
          let c := s.cell cell
          let v := c.version ver
          if !(s.ctx t.ctx).live || b.late t then
            ((s.popFifo cell ver r).lateToken cell ver r b.node t).drain cell ver r k
          else
            match v.nodes[b.node]? with
            | none => s
            | some n =>
              if !c.headNeeds ver n b t then
                if b.fullSince.isSome then s.updBinding cell ver r fun b => { b with fullSince := none, fullRaised := false } else s
              else
                match c.entryRoom with
                | some spilled =>
                  ((s.popFifo cell ver r).updCell cell fun c =>
                    { c with store := c.store ++ [⟨ver, b.node, b.port, t, spilled⟩] }).drain cell ver r k
                | none => s.updBinding cell ver r fun b => { b with fullSince := some (b.fullSince.getD s.now) }

/-- The configuration that a version holds. -/
def Version.cfgOf (v : Version) : Option (BitVec 10 × Nat) := if v.state = .empty then none else v.owner

/-- The first token that a READY configuration takes makes it LIVE (05:R81, 23:R339). Its nodes on the cell are live in
its version, unless the cell's other version is LIVE: then a sweep decides (05:R83; log entry 16). -/
def State.noteToken (s : State) (cell : Nat) (ver : Bool) : State :=
  match (s.version cell ver).owner with
  | none => s
  | some (ctx, i) =>
    let s := s.updCfg ctx i fun c =>
      { c with
        lastAccept := s.now
        state := if c.state = .ready then .live else c.state
        liveSince := if c.state = .ready then s.now else c.liveSince
        wanted := c.wanted && decide (c.state ≠ .ready) }
    s.updCell cell fun c =>
      if (c.version ver).state = .ready then
        let c := if (c.version (!ver)).state = .live then c else { c with liveOne := if ver then upTo 32 else [] }
        c.updVersion ver fun v => { v with state := .live }
      else c

/-- A token enters the FIFO of a binding, and what can move on does (05:R62, R63). -/
def State.enterFifo (s : State) (cell : Nat) (ver : Bool) (r : Nat) (t : Token) : State :=
  let s := s.noteToken cell ver
  let s := s.updBinding cell ver r fun b => { b with fifo := b.fifo ++ [{ t with ver := ver }], last := some t.payload }
  let s := s.updCell cell fun c => { c with arrivals := c.arrivals ++ [(ver, r)] }
  s.drain cell ver r 17

/-- A token for an EMPTY version goes to the vestibule of the configuration last installed there, ahead of the tokens
of its edge that entered directly (05:R81, R96). -/
def State.forwardToken (s : State) (v : Version) (node port : Nat) (t : Token) : State :=
  match v.owner with
  | none => s
  | some (ctx, i) => s.forwardVest ctx i node port t

/-! ## Firing (05:R64 to R68) -/

/-- The predicate of a firing (05:R65). -/
def firingPred (l : List Token) : TPred :=
  if l.any (·.pred = .null) then .null
  else match l.find? (·.pred ≠ .none) with
    | some t => t.pred
    | none => .none

/-- A firing of this predicate runs the handler (05:R65). -/
def runs (m : PMatch) (p : TPred) : Bool :=
  match m, p with
  | .any, .null => false
  | .any, _ => true
  | .tru, .true => true
  | .fls, .false => true
  | .null, .null => true
  | _, _ => false

/-- A port of a cell has a credit, ring space or vestibule space, or is not in use (05:R64, R70). -/
def State.portSpace (s : State) (p : PortRef) (ctx : BitVec 10) : Option Edge → Bool
  | none => true
  | some e =>
    match e.dest with
    | .internal _ _ =>
      (decide (0 < e.credits) && e.ringTokens.isEmpty)
        || (match e.ring with | some cap => decide (e.ringTokens.length < cap) | none => false)
    | .external cfg node port =>
      match s.cfg ctx cfg with
      | none => false
      | some c =>
        ((s.resolve (hallOf p.cell) ctx cfg node).isSome && c.vest.isEmpty
            && decide (0 < tgetD c.credits 16 (node * 4 + port)))
          || decide (c.vest.length < c.vestCap)

/-- Every output port in use has a credit, ring space or vestibule space (05:R64). -/
def State.outputSpace (s : State) (p : PortRef) (ctx : BitVec 10) : Bool :=
  match s.node p.cell p.ver p.node with
  | none => false
  | some n => n.outputs.all fun e => s.portSpace p ctx e

/-- Take a firing's token from where it lies; the credit of a delivery returns to the agent (05:R396). -/
def State.takeSource (s : State) (cell : Nat) (ver : Bool) (node : Nat) : Source → State
  | .store i => s.updCell cell fun c => { c with store := ldel c.store i }
  | .head r => s.popFifo cell ver r
  | .delivery i =>
    match s.node cell ver node, (s.version cell ver).owner with
    | some n, some (ctx, cfg) =>
      let s1 := s.updNode cell ver node fun n => { n with deliveries := ldel n.deliveries i }
      match n.deliveries[i]? with
      | some (port, _) => s1.agentCredit cell ctx cfg n.gid port
      | none => s1
    | _, _ => s

/-- The place of a source in its list. -/
def Source.place : Source → Nat
  | .store i => i
  | .head _ | .delivery _ => 0

/-- Insert by falling place. -/
def insertSource (x : Source) : List Source → List Source
  | [] => [x]
  | y :: r => if y.place ≤ x.place then x :: y :: r else y :: insertSource x r

/-- Entries are taken from the highest place down, so that no place moves before it is used. -/
def takeOrder (l : List Source) : List Source := l.foldr insertSource []

/-- The widest of a list of scopes. -/
def widest (l : List Scope) : Scope := l.foldl (fun a b => if Scope.le a b then b else a) .cell

/-- Null tokens of a passed firing, on every output port in use but out0 of a LOADER (05:R65, 21:R331), and whether each
has found its way. -/
def State.passSends (s : State) (cell : Nat) (ver : Bool) (node : Nat) (ctx : BitVec 10) (iter : BitVec 12)
    (poison : Bool) : State × Bool :=
  match s.node cell ver node with
  | none => (s, true)
  | some n =>
    each ((upTo 4).filter fun p => ((n.outputs[p]?).join).isSome && !(p = 0 && n.role = .loader)) (s, true) fun x p =>
      match x.1.trySend ⟨cell, ver, node, p⟩ { poison := poison, ver := ver, ctx := ctx, iter := iter, pred := .null } with
      | .sent s => (s, x.2)
      | .stall s _ => (s, false)
      | .scope dst => (x.1.nodeFault (nodeRef cell ver node ctx iter) Cause.scope n.handler dst, x.2)

def State.passFiring (s : State) (cell : Nat) (ver : Bool) (node : Nat) (ctx : BitVec 10) (iter : BitVec 12)
    (poison : Bool) : State := (s.passSends cell ver node ctx iter poison).1

/-- A firing with its tokens: a REDUCE node keeps its contributions, another node runs or is passed (03:R56, 05:R65). -/
def State.fireWith (s : State) (cell : Nat) (ver : Bool) (node : Nat) (n : Node) (ctx : BitVec 10) (iter : BitVec 12)
    (ins : List Token) : State :=
  if n.role = .reduce then
    s.updNode cell ver node fun n =>
      { n with contribs := n.contribs ++ n.firingPorts.filterMap fun p => (ins[p.1]?).map fun t =>
          (iter.toNat, p.1, t.payload, t.poison, decide (t.pred = .null)) }
  else if runs n.pmatch (firingPred ins) then
    (s.updCell cell fun c => { c with readyFirings := c.readyFirings ++ [⟨node, ver, ctx, iter, ins⟩] }).fillSlots cell 8
  else s.passFiring cell ver node ctx iter (ins.any (·.poison))

/-- A node with an ORDERED input port runs one task at a time (05:R68). -/
def Cell.nodeBusy (c : Cell) (ver : Bool) (node : Nat) : Bool :=
  c.tasks.any (fun x => x.2.ver = ver && x.2.node = node) || c.readyFirings.any fun f => f.ver = ver && f.node = node

/-- The tokens of every port as in0 to in3 (05:R66). -/
def portTokens (l : List (Nat × Token)) : List Token :=
  (upTo 4).map fun p => match l.find? (·.1 = p) with | some x => x.2 | none => {}

/-- A node has consumed STOP on every port that a drain asks for and fires no more (23:R349). -/
def Node.stopped (n : Node) : Bool := n.stopAgent || n.halted

/-- FIRING (05:R64, R65): the node named by the turn fires for the tag and aux keys it names, if it may; one that is
passed also needs its null tokens to find their way. It acquires at the scopes of the edges that brought its tokens
(07:R118). DESIGN CHOICE (log entry 27): where every port is ORDERED, the token of the lowest port gives the tag. -/
def State.fire (s : State) (x : Choice) : State :=
  let cell := x.cell.toNat
  let c := s.cell cell
  let v := c.version x.ver
  match v.nodes[x.node]? with
  | none => s
  | some n =>
    let got := c.gatherTokens x.ver x.node n fun t => t.fits x.ctx x.iter x.plane x.scale
    let ports := n.firingPorts
    let toks := got.filterMap fun (p, o) => o.map fun y => (p, y.2)
    let tagged := ports.isEmpty || ports.any fun y => !y.2
    let tagOk := tagged || (match toks.head? with | some (_, t) => t.ctx = x.ctx && t.iter = x.iter | none => false)
    if v.state = .empty || v.state = .loading || n.stopped || c.issueStopped || !tagOk
        || got.any (fun y => y.2.isNone) || (ports.any (·.2) && c.nodeBusy x.ver x.node)
        || (n.role ≠ .reduce && !runs n.pmatch (firingPred (toks.map (·.2))) && !(s.passSends cell x.ver x.node x.ctx x.iter false).2) || s.cp.fatal || !s.outputSpace ⟨cell, x.ver, x.node, 0⟩ x.ctx then s
    else
      let srcs := got.filterMap fun (_, o) => o.map (·.1)
      let sc := widest (toks.map fun y => y.2.scope)
      let s := each (takeOrder srcs) s fun s y => s.takeSource cell x.ver x.node y
      let s := (s.acquire cell sc).noteToken cell x.ver
      let s := s.fireWith cell x.ver x.node n x.ctx x.iter (portTokens toks)
      each (srcs.filterMap fun y => match y with | .head r => some r | _ => none) s fun s r => s.drain cell x.ver r 17

/-! ## Arrivals (05:R62, R82, R98) -/

/-- A partner entry of an arriving external token: an entry of the same node in the version that is not live, on
another port, with the same tag and aux key (06:R98). -/
def Cell.partnerIn (c : Cell) (ver : Bool) (node port : Nat) (t : Token) : Bool :=
  c.store.any fun e => e.ver = ver && e.node = node && e.port ≠ port && t.keyFits e.token

/-- The node of a configuration's number in a version that holds the configuration, or held it last. -/
def Version.nodeOf (v : Version) (ctx : BitVec 10) (cfg gid : Nat) : Option Nat :=
  if v.owner = some (ctx, cfg) then v.nodes.findIdx? (·.gid = gid) else none

/-- The version that holds a configuration's node of the given number. -/
def Cell.versionOf (c : Cell) (ctx : BitVec 10) (cfg gid : Nat) : Option (Bool × Nat) :=
  [false, true].findSome? fun ver =>
    if (c.version ver).state = .empty then none else ((c.version ver).nodeOf ctx cfg gid).map fun i => (ver, i)

/-- The node that a late token was for (05:R87). -/
def Cell.lateNode (c : Cell) (ctx : BitVec 10) (cfg gid : Nat) : Bool × Nat :=
  ([false, true].findSome? fun ver => ((c.version ver).nodeOf ctx cfg gid).map fun i => (ver, i)).getD (false, gid % 32)

/-- The cell is one that a configuration has left, and tokens for it may still be on their way (05:R81). -/
def Cell.left (c : Cell) (ctx : BitVec 10) (cfg : Nat) : Bool :=
  [c.v0, c.v1].any fun v => v.epochOpen && v.owner = some (ctx, cfg)

/-- The version and node that a token for a configuration's node reaches on its cell: the node's live version, which after
a sweep is the other one, or the version that is not live where its partner waits there (05:R82, R83; 06:R98); nowhere
while the cell is one that the configuration has left (06:R96). DESIGN CHOICE (log entry 27): while no sweep has related a
cell's two versions, the live version of a configuration's node is the version that holds the configuration, so that its
first token can make it LIVE (23:R339), and a partner is looked for only in a version that a sweep has left. -/
def Cell.extDest (c : Cell) (t : Token) (cfg gid port : Nat) : Option (Bool × Nat) :=
  if c.left t.ctx cfg then none else
  (c.versionOf t.ctx cfg gid).map fun (own, node) =>
    let live := if (c.version own).swept then !own else own
    (if (c.version (!live)).swept && c.partnerIn (!live) node port t then !live else live, node)

/-- A token whose version another configuration holds since a sweep spends that configuration's credit in place of its own;
absent where it has none to spend (05:R83, R396; log entry 16). -/
def State.redirect (s : State) (cell : Nat) (t : Token) (gid port cfg : Nat) : Option State :=
  match (s.cell cell).extDest t cfg gid port with
  | none => some s
  | some (ver, node) =>
    let v := s.version cell ver
    match v.owner, v.nodes[node]? with
    | some (ctx, i), some n =>
      if i = cfg then some s
      else
        match s.cfg ctx i with
        | none => some s
        | some c =>
          let left := tgetD c.credits 16 (n.gid * 4 + port)
          if left = 0 then none
          else
            some ((s.updCfg ctx i fun c => { c with credits := tput c.credits (n.gid * 4 + port) (left - 1) }).agentCredit cell
              t.ctx cfg gid port)
    | _, _ => some s

/-- The external binding of a node's port. -/
def Version.extBinding (v : Version) (node port : Nat) : Option (Nat × Binding) :=
  (v.bindingsOf node port).find? (·.2.external)

/-- A token arrives at an external binding of a port (05:R82, R98, R396). One for a node without input ports waits there
until the node fires with it (05:R64). -/
def State.arriveExt (s : State) (p : Packet) (t : Token) (gid port cfg : Nat) : State :=
  let c := s.cell p.dst
  if !(s.ctx t.ctx).live then
    let x := c.lateNode t.ctx cfg gid
    let r := match (c.version x.1).extBinding x.2 port with | some y => y.1 | none => 0
    s.lateToken p.dst x.1 r x.2 t
  else
    match c.extDest t cfg gid port with
    | none => s.forwardVest t.ctx cfg gid port t
    | some (ver, node) =>
      let v := c.version ver
      let t := { t with ver := ver }
      if v.state = .loading then s.updVersion p.dst ver fun v => { v with held := v.held ++ [p] }
      else
        match v.nodes[node]?, v.owner, v.extBinding node port with
        | some n, some (ctx, i), x =>
          if n.firingPorts.isEmpty && n.role ≠ .storer && t.kind ≠ 3 then
            (s.noteToken p.dst ver).updNode p.dst ver node fun n => { n with deliveries := n.deliveries ++ [(port, t)] }
          else
            match x with
            | some (r, b) =>
              if b.late t then (s.lateToken p.dst ver r node t).returnCredit p.dst v b
              else s.enterFifo p.dst ver r { t with rtag := BitVec.ofNat 8 r }
            | none => (s.logToken p.dst unboundEntry t).agentCredit p.dst ctx i n.gid port
        | _, _, _ => s.logToken p.dst unboundEntry t

/-- A DATA, PLANE, SCALE or CTRL token of an internal edge arrives (05:R62, R81, R87, R93). -/
def State.arriveInt (s : State) (p : Packet) (t : Token) : State :=
  let v := s.version p.dst t.ver
  match v.state with
  | .loading => s.updVersion p.dst t.ver fun v => { v with held := v.held ++ [p] }
  | .empty =>
    match v.owner, v.bindings[t.rtag.toNat]? with
    | some _, some b =>
      if !(s.ctx t.ctx).live then s.lateToken p.dst t.ver t.rtag.toNat b.node t
      else
        (s.updBinding p.dst t.ver t.rtag.toNat fun b => { b with last := some t.payload }).forwardToken v (match v.nodes[b.node]? with | some n => n.gid | none => b.node) b.port t
    | _, _ => if (s.ctx t.ctx).live then s.logToken p.dst unboundEntry t else s.lateToken p.dst t.ver t.rtag.toNat 0 t
  | .ready | .live =>
    match v.bindings[t.rtag.toNat]? with
    | none => s.logToken p.dst unboundEntry t
    | some b =>
      if !(s.ctx t.ctx).live || b.late t then
        (s.lateToken p.dst t.ver t.rtag.toNat b.node t).returnCredit p.dst v b
      else s.enterFifo p.dst t.ver t.rtag.toNat t

/-- A token that a receiving cell drops with a KIND entry: a kind or fields without a meaning (09:R154, 05:R62). -/
def Token.badKind (t : Token) : Bool :=
  match t.kind.toNat with
  | 0 | 1 => false
  | 2 => decide (32 ≤ t.aux.toNat)
  | 3 => decide (32 ≤ t.aux.toNat) || decide (6 ≤ t.aux.toNat % 16)
      || (decide (t.aux.toNat % 16 ≠ 4) && decide (16 ≤ t.aux.toNat))
  | 5 => t.aux ≠ 0 || decide (2 ^ 48 ≤ t.payload.toNat)
  | 6 => false
  | _ => true

/-- The packet at a place leaves the net. -/
def State.takePacket (s : State) (n : Nat) : State := { s with net := ldel s.net n }

/-- What a vestibule delivers, on its way from the agent of its hall. -/
def Packet.queued (p : Packet) : Bool := match p.body with | .extToken _ _ _ _ => decide (p.src % 0x8000 = 0) | _ => false

/-- A token or a sweep on the links between two cells. -/
def Packet.onLink (p : Packet) : Bool :=
  match p.body with
  | .token _ _ | .extToken _ _ _ _ | .sweep _ _ _ _ => true
  | _ => false

/-- Two packets that arrive in the order in which they were sent: of one pair of cells tokens and sweeps with one another,
messages with messages, presence accesses of one word; tokens of one external edge; retirements of one task, wherever it
sends them from; and behind what a configuration's vestibule delivers every later send to the configuration (05:R63, R83,
R85; 06:R96; 07:R118; 17:R252). -/
def Packet.sameWay (p q : Packet) : Bool :=
  (match p.body, q.body with
    | .extToken t g a c, .extToken u h b d =>
      t.ctx = u.ctx && c = d && (p.queued || (t.edge.isSome && t.edge = u.edge && g = h && a = b))
    | .retire c _ m g, .retire d _ n h => c = d && (p.src = q.src || (m.iter = n.iter && g = h))
    | _, _ => false) ||
  p.src = q.src &&
    (p.onLink && q.onLink && p.dst = q.dst ||
     match p.body, q.body with
     | .msg _ _ _, .msg _ _ _ => p.dst = q.dst
     | .presStore a _ _ _, .presStore b _ _ _ | .presStore a _ _ _, .presLoad b _ _
     | .presLoad a _ _, .presStore b _ _ _ | .presLoad a _ _, .presLoad b _ _ => a = b
     | _, _ => false)

/-- The packet at a place, if it may arrive now: none before it goes the same way. -/
def State.arriving (s : State) (n : Nat) : Option Packet :=
  match s.net[n]? with
  | some p => if (s.net.take n).any fun q => q.sameWay p then none else some p
  | none => none

/-- What becomes of a token at its destination other than through its FIFO (05:R62, 09:R154). -/
inductive TokenRoute where
  | channel | kindDrop | paddr | pack | resume | sweep | barrier
deriving DecidableEq, Repr

def Token.route (t : Token) : TokenRoute :=
  if t.badKind then .kindDrop
  else if t.kind = 5 then .paddr
  else if t.kind = 6 then .pack
  else if t.kind = 3 then
    match t.aux.toNat % 16 with
    | 2 => .resume
    | 4 => .sweep
    | 5 => .barrier
    | _ => .channel
  else .channel

/-- The token of a packet. -/
def Packet.token? (p : Packet) : Option Token :=
  match p.body with
  | .token t _ | .extToken t _ _ _ => some t
  | _ => none

/-- Zero tokens or repeats that a PACK token still owes: their number, the position that comes next, and whether that
position takes the edge's next token (21:R320). -/
def packFmt (t : Token) : Nat := t.aux.toNat / 64
def packLength (t : Token) : Nat := if packFmt t = 2 then 32 else t.payload.toNat % 2 ^ 16 + 1
def packTakes (t : Token) (i : Nat) : Bool := packFmt t = 2 && t.payload.getLsbD i

/-- The version and the binding that a token packet reaches (05:R62, R82, R396). -/
def State.bindingFor (s : State) (p : Packet) : Option (Bool × Nat × Binding) :=
  match p.body with
  | .token t _ => (s.binding p.dst t.ver t.rtag.toNat).map fun b => (t.ver, t.rtag.toNat, b)
  | .extToken t gid port cfg =>
    ((s.cell p.dst).extDest t cfg gid port).bind fun (ver, node) =>
      ((s.version p.dst ver).extBinding node port).map fun y => (ver, y.1, y.2)
  | _ => none

/-- A packet in expansion holds the tokens behind it, unless it is a token's turn (21:R319, R320). -/
def State.packHolds (s : State) (p : Packet) (t : Token) : Bool :=
  match s.bindingFor p with
  | some (_, _, b) =>
    (match b.pack with
     | some k => !packTakes k b.packPos || t.kind = 6
     | none => false)
  | none => false

/-- The packet in expansion is one position further. -/
def Binding.packNext (b : Binding) : Binding :=
  match b.pack with
  | some k => if packLength k ≤ b.packPos + 1 then { b with pack := none, packPos := 0 } else { b with packPos := b.packPos + 1 }
  | none => b

/-- A token that reaches its cell through its channel; a packet in expansion goes on. -/
def State.arriveToken (s : State) (n : Nat) (p : Packet) : State :=
  let next (s' : State) : State :=
    match s.bindingFor p with
    | some (ver, r, _) => s'.updBinding p.dst ver r Binding.packNext
    | none => s'
  match p.body with
  | .token t _ => next ((s.takePacket n).arriveInt p t)
  | .extToken t gid port cfg =>
    match s.redirect p.dst t gid port cfg with
    | some s' => next ((s'.takePacket n).arriveExt p t gid port cfg)
    | none => s
  | _ => s

/-- TOKEN_ARRIVAL (05:R62): the token at place `n` of the packets in flight reaches its cell. -/
def State.tokenArrival (s : State) (n : Nat) : State :=
  match s.arriving n with
  | some p =>
    match p.token? with
    | some t => if t.route = .channel && !s.packHolds p t then s.arriveToken n p else s
    | none => s
  | none => s

/-- CREDIT_RETURN (05:R63, R91): a credit reaches its sender; the ring's oldest token takes it, if there is one. -/
def State.creditReturn (s : State) (n : Nat) : State :=
  match s.net[n]? with
  | some p =>
    match p.body with
    | .credit r =>
      let s := s.takePacket n
      match (s.node r.cell r.ver r.node).bind fun x => (x.outputs[r.port]?).join with
      | none => s
      | some e =>
        match e.ringTokens, e.dest with
        | t :: rest, .internal dst _ =>
          (s.updNode r.cell r.ver r.node fun x =>
            { x with outputs := lset x.outputs r.port (·.map fun e => { e with ringTokens := rest }) }).send
              ⟨r.cell, dst, .token t (some r)⟩
        | _, _ =>
          s.updNode r.cell r.ver r.node fun x =>
            { x with outputs := lset x.outputs r.port (·.map fun e => { e with credits := min 16 (e.credits + 1) }) }
    | _ => s
  | none => s

end Sys2Proof.Machine
end

