-- ==== Sys2Proof/Machine/Issue.lean ====
section
/-! DEFINITION. Which task of a cell issues, the word it issues and what the cell makes of it (05:R67; 09:R149, R150;
11:R166, R167); the clock and the stall counters (01:R26, R27; 05:R94). -/

namespace Sys2Proof.Machine

/-! ## Runnable tasks -/

/-- A wait that an event ends; a task in another wait tries again in every cycle. -/
def Wait.untilEvent : Wait → Bool
  | .none | .retry _ _ | .flip _ _ _ => false
  | .op _ | .waitt _ | .waitf _ _ _ _ _ _ _ | .bar _ _ _ | .walk | .held _ | .cancel _ _ => true

/-- The reading of a word's fields, whatever its other bits. -/
def wordForm (w : Word) : Form := formOf w.toNat (bitsOf w.toNat 60 4) (bitsOf w.toNat 54 6)

/-- Places of the scalar source specifiers in the formats (09:R147). -/
def sourcePlaces : List Nat := [40, 39, 34, 33, 27, 22, 16, 4]

/-- The scalars that a word reads. -/
def wordSources (w : Word) : List Nat :=
  ((wordForm w).used.filter fun f => f.2 = 6 && sourcePlaces.contains f.1).filterMap fun f =>
    let n := bitsOf w.toNat f.1 6
    if 0 < n ∧ n < 32 then some n else none

/-- The scalars that a word of the task reads: SELECT.P reads only the operand that its predicate chooses (17:R248). -/
def Task.reads (t : Task) (w : Word) : List Nat :=
  if bitsOf w.toNat 54 10 = 0x183 ∧ bitsOf w.toNat 32 2 = 0 then
    let n := bitsOf w.toNat (if t.pred (BitVec.ofNat 3 (bitsOf w.toNat 29 3)) then 40 else 34) 6
    if 0 < n ∧ n < 32 then [n] else []
  else wordSources w

/-- The scalars that a word writes; PPGET's stands at bit 16 (15:R221). -/
def wordDests (w : Word) : List Nat :=
  (if bitsOf w.toNat 54 10 = 0x288 then [bitsOf w.toNat 45 5, (bitsOf w.toNat 45 5 + 1) % 32]
   else if bitsOf w.toNat 54 10 = 0x25A then [30, 31]
   else if bitsOf w.toNat 54 10 = 0x14D then [bitsOf w.toNat 16 5] else []) ++
  ((wordForm w).used.filter fun f => f.2 = 5 && (f.1 = 45 || f.1 = 24)).map fun f => bitsOf w.toNat f.1 5

/-- The operands of the word are resolved: no source is still to come, and no outstanding operation will write a
register that the word writes (11:R166, R167). -/
def Task.operandsReady (t : Task) (w : Word) (now : Nat) : Bool :=
  (t.reads w).all (fun r => !t.pending.contains r && tgetD t.ready 0 r ≤ now)
    && (wordDests w).all fun r => !t.pending.contains r

/-- The cycle is one of the `L` of four in which throttling lets no array start (27:R393; log entry 21). -/
def State.throttled (s : State) : Bool := decide (s.now % 4 < s.cp.level)

/-- The word at the task's pc is a PL, CV or MX instruction (09:R144). -/
def State.arrayWord (s : State) (cell : Nat) (t : Task) : Bool :=
  [3, 4, 5].contains (bitsOf (tgetD (s.version cell t.ver).code 0 t.pc.toNat).toNat 60 4)

/-- The task may issue in this cycle (05:R67); a task of a halted node issues nothing (24:R356). -/
def State.runnable (s : State) (cell : Nat) (t : Task) : Bool :=
  !(match s.node cell t.ver t.node with | some n => n.halted | none => false) && t.nextIssue ≤ s.now && t.waitAt ≠ some s.now && !t.wait.untilEvent
    && (t.abandoned || (t.operandsReady (tgetD (s.version cell t.ver).code 0 t.pc.toNat) s.now
      && !(s.throttled && s.arrayWord cell t)))

/-- The cell issues at all: its clock runs, scan-out has not stopped it, and no fatal condition holds
(23:R351, 27:R385). -/
def State.issues (s : State) (cell : Nat) : Bool :=
  let c := s.cell cell
  !c.issueStopped && !c.clockStopped && !s.cp.fatal && !c.issuedAt.any (s.now ≤ ·)

/-- The slot that issues next, round robin from the one after the last (05:R67). -/
def State.nextSlot (s : State) (cell : Nat) : Option Nat :=
  if s.issues cell then
    let c := s.cell cell
    ((upTo 8).map fun i => (c.rr + 1 + i) % 8).find? fun i =>
      match tget c.tasks i with
      | some t => s.runnable cell t
      | none => false
  else none

/-! ## The word at the pc -/

/-- Class MX on an edge cell is no instruction (15:R218). -/
def edgeRefuses (cell : Nat) (w : Word) : Bool := isEdgeCell cell && bitsOf w.toNat 60 4 = 5

/-- What a cell makes of the task at the focus: an instruction to execute, or the state after the fault of its word. -/
inductive Fetched where
  | instr (i : Instr)
  | trap (s : State)

/-- The word at the pc, decoded (09:R149, R150). -/
def State.fetch (s : State) (t : Task) : Fetched :=
  if 512 ≤ t.pc.toNat then .trap (s.raisePastEnd t)
  else
    let w := s.curWord t
    if edgeRefuses s.focus.toNat w then .instr (.illegalOp w)
    else
      match decode w with
      | .instr i => .instr i
      | .reserved => .trap (s.raiseWord t Cause.reservedField)
      | .format => .trap (s.raiseWord t Cause.format)

/-! ## The abandonment of a task (23:R344, R346) -/

/-- The sends of an abandoned task, then the end of it. -/
def State.abandonSends (s : State) (t : Task) : State :=
  match s.sendList t (s.endSends t) with
  | (s, t, .all) =>
    let n := taskNode s.focus.toNat t
    let s := s.freeSlot
    let s := s.record (s.nodeRecord n t.trapCause.toNat t.trapAddr.toNat t.trapInfo.toNat)
    s.beginStop t.ctx
  | (s, t, .stall w) => s.retry t w.counter w.vstall
  | (s, t, .scope _) =>
    let next := (s.endSends t).find? fun x => !t.done.contains x.1
    s.retry { t with done := (match next with | some x => x.1 | none => 0) :: t.done } none

/-- The next of the steps of an abandoned task: END's null sends, which are releases behind the task's writes (07:R113,
R114), then the slot is freed, the record is written and the context is stopped. A null send that the SCOPE check turns away
is passed over (log entry 13). -/
def State.abandonStep (s : State) (t : Task) : State :=
  if (s.endSends t).all fun x => t.done.contains x.1 then s.abandonSends t
  else s.beforeRelease t (ends := true) fun s => s.abandonSends t

/-! ## The clock -/

/-- Tokens that stand at the ports of a node's firings, with their ports: entries, FIFO heads, and the deliveries of a
node without input ports (05:R64). -/
def Cell.firingTokens (c : Cell) (ver : Bool) (i : Nat) (n : Node) : List (Nat × Token) :=
  ((c.store.filter fun e => e.ver = ver && e.node = i).map (fun e => (e.port, e.token))
    ++ (c.version ver).bindings.filterMap fun b => if b.node = i then b.head?.map fun t => (b.port, t) else none).filter
      (fun x => n.firingPorts.any (·.1 = x.1))
  ++ if n.firingPorts.isEmpty then n.deliveries else []

/-- The node holds a token of a firing that lacks another token (05:R94, STALL0). -/
def Cell.lacksInput (c : Cell) (ver : Bool) (i : Nat) (n : Node) : Bool :=
  (c.firingTokens ver i n).any fun x => !c.completes ver i x.1 n x.2

/-- A firing of the node has its tokens and lacks output space (05:R94, STALL1); a node with an ORDERED input port has none
ready while a task of it runs (05:R68). -/
def State.lacksOutput (s : State) (cell : Nat) (ver : Bool) (i : Nat) (n : Node) : Bool :=
  let c := s.cell cell
  !(n.firingPorts.any (·.2) && c.nodeBusy ver i)
    && (c.firingTokens ver i n).any fun x => c.completes ver i x.1 n x.2 && !s.outputSpace ⟨cell, ver, i, 0⟩ x.2.ctx

/-- A firing of the node that would be passed is ready: its null tokens are releases (05:R65, 07:R113). -/
def Cell.passable (c : Cell) (ver : Bool) (i : Nat) (n : Node) : Bool :=
  n.role ≠ .reduce && n.outputs.any (·.isSome) && (c.firingTokens ver i n).any fun x =>
    c.completes ver i x.1 n x.2
      && !runs n.pmatch (firingPred ((c.gatherTokens ver i n x.2.keyFits).filterMap fun y => y.2.map (·.2)))

/-- A pass of a loader holds a row of which it has not sent every segment: it sends one whenever it can (21:R310). -/
def Node.passSending (n : Node) : Bool := n.role = .loader && n.passes.any fun p => p.buf.isSome

/-- Its send finds no space (05:R70, R94). -/
def State.passStalls (s : State) (cell : Nat) (ver : Bool) (i : Nat) (n : Node) : Bool :=
  n.passSending && !s.releaseStalls cell && n.passes.any fun p => p.buf.isSome &&
    !s.portSpace ⟨cell, ver, i, 0⟩ p.ctx ((n.outputs[0]?).join)

/-- A task of the node waits in the counter given (05:R94). -/
def Cell.taskStalls (c : Cell) (ver : Bool) (i k : Nat) : Bool :=
  c.tasks.any fun x => x.2.ver = ver && x.2.node = i &&
    (match x.2.wait with | .retry (some j) _ => j = k | .held _ => k = 3 | _ => false)

/-- A request of the node is held (19:R282). -/
def State.requestHeld (s : State) (cell : Nat) (ver : Bool) (i : Nat) : Bool :=
  s.halls.any fun h => h.2.queues.any fun q => q.2.any fun r =>
    r.heldSince.isSome && r.node.cell = cell && r.node.ver = ver && r.node.node = i

/-- A wait at a barrier's home finds no place among its 64: the entry is its context's or idle, and its phase has not
completed (17:R273). -/
def Cell.waitRefused (c : Cell) (w : BarWaiter) : Bool :=
  let e := tgetD c.bars {} w.bid
  decide (64 ≤ c.barWaiters.length)
    && (e.owner = some w.ctx || (e.expected = 0 && !c.barWaiters.any (·.bid = w.bid)))

/-- A task of the node waits for a place among the 64 waiters of a barrier home (17:R273). -/
def State.barRefused (s : State) (cell : Nat) (ver : Bool) (i : Nat) : Bool :=
  (s.cell cell).tasks.any fun x => x.2.ver = ver && x.2.node = i &&
    (match x.2.wait with
     | .bar home _ _ => (s.cell home).barHeldWaits.any fun w => w.task = ⟨cell, x.1⟩ && (s.cell home).waitRefused w
     | _ => false)

/-- Deferred loads that an L2 slice holds at most. -/
def deferCapacity : Nat := 4096

/-- The L2 slice of an address: its hall, and bits [11:8] (07:R104). -/
def sliceOf (a : Nat) : Nat × Nat := (homeHall (lineOf a), a / 256 % 16)

/-- The deferral table of a word's slice is full (07:R109). -/
def State.deferFull (s : State) (a : Nat) : Bool :=
  decide (deferCapacity ≤ (s.memDeferred.filter fun d => sliceOf d.1 = sliceOf a).length)

/-- A presence load of the node is refused by its home (07:R109). -/
def State.presRefused (s : State) (cell : Nat) (ver : Bool) (i : Nat) : Bool :=
  s.net.any fun p =>
    match p.body with
    | .presLoad a c op =>
      c = cell && s.deferFull a && (s.cell cell).ops.any fun o =>
          o.id = op && (match tget (s.cell cell).tasks o.slot with | some t => t.ver = ver && t.node = i | none => false)
    | _ => false

/-- An operation waits at the interface for its predecessor (07:R135). -/
def Node.waveWaits (n : Node) : Bool :=
  n.waves.any fun w => w.wp ≠ 255 && !n.waveDone.contains (w.ctx.toNat, w.iter.toNat, w.wp)

/-- The stall counters of a node after a cycle (05:R94, R95). -/
def State.countNode (s : State) (cell : Nat) (ver : Bool) (i : Nat) (n : Node) : Node :=
  let c := s.cell cell
  let bs := (c.version ver).bindings.filter (·.node = i)
  let add (k : Nat) (b : Bool) (n : Node) : Node := if b then n.addStall k else n
  add 3 (n.heldSince.isSome || bs.any (·.heldSince.isSome)
      || c.taskStalls ver i 3 || s.requestHeld cell ver i)
    (add 2 (bs.any fun b => c.headWaits ver b)
      (add 1 (s.lacksOutput cell ver i n || c.taskStalls ver i 1 || s.passStalls cell ver i n)
        (add 0 (c.lacksInput ver i n || c.taskStalls ver i 0 || n.waveWaits || s.barRefused cell ver i
          || s.presRefused cell ver i)
          { n with lastIdle := if c.tasks.any fun x => x.2.ver = ver && x.2.node = i then n.lastIdle else s.now })))

/-- A head that waits for an entry keeps the cycle from which it has done so (05:R79). -/
def State.countBinding (s : State) (cell : Nat) (ver : Bool) (b : Binding) : Binding :=
  if (s.cell cell).headWaits ver b then { b with fullSince := some (b.fullSince.getD s.now) }
  else { b with fullSince := none, fullRaised := false }

/-- The counters of a version's nodes after a cycle. -/
def State.countVersion (s : State) (cell : Nat) (ver : Bool) (v : Version) : Version :=
  { v with
    nodes := v.nodes.mapIdx fun i n => s.countNode cell ver i n
    bindings := v.bindings.map fun b => s.countBinding cell ver b }

/-- The task whose OWNFLIP takes effect next: the first that has issued one (17:R275). -/
def Cell.nextFlip (c : Cell) : Option Nat :=
  c.flips.find? fun i =>
    match tget c.tasks i with
    | some t => (match t.wait with | .flip _ _ _ => true | _ => false)
    | none => false

/-- A release of the cell waits for its promotion: of a task, of a flip, of a firing that is passed, or of a pass
(07:R127). -/
def Cell.releaseWaits (c : Cell) : Bool :=
  c.prom.isSome && c.tasks.any (fun x => match x.2.wait with | .retry _ v => v | _ => false)
    || c.prom.isSome && (match c.nextFlip.bind (tget c.tasks) with
        | some t => (match t.wait with | .flip _ own _ => own | _ => false)
        | none => false)
    || c.prom.isSome && [false, true].any fun ver =>
      ((upTo (c.version ver).nodes.length).any fun i => match (c.version ver).nodes[i]? with
        | some n => c.passable ver i n || n.passSending
        | none => false)

/-- A cell after a cycle: stall counters, and VSTALL while a release waits (05:R94, 07:R127). A stopped clock counts
nothing (23:R351). -/
def State.countCell (s : State) (cell : Nat) (c : Cell) : Cell :=
  if c.clockStopped then c
  else
    { c with
      v0 := s.countVersion cell false c.v0, v1 := s.countVersion cell true c.v1
      vstall := if c.releaseWaits then satAdd c.vstall 1 32 else c.vstall
      flights := c.flights.filter fun f => s.now + 1 < f.until_ }

/-- The PHC after a cycle at the present rate (01:R27, 25:R370). -/
def State.stepPhc (s : State) : State :=
  let f := s.phcFrac + s.rate
  let ns := s.phcNs + f / 2 ^ 32
  { s with
    phcFrac := f % 2 ^ 32
    phcNs := ns % 1000000000
    phcS := s.phcS + BitVec.ofNat 48 (ns / 1000000000) }

/-- A cycle has begun: slots freed in the one before it are free, and firings that wait take slots (05:R66, 11:R180). -/
def State.beginCycle (s : State) : State :=
  each s.cells s fun s x =>
    let s := if x.2.freed.isEmpty then s else s.updCell x.1 fun c => { c with freed := [] }
    if x.2.readyFirings.isEmpty || x.2.issueStopped || x.2.clockStopped || s.cp.fatal then s else s.fillSlots x.1 8

/-- One cycle passes (01:R26, R27); THROTTLE counts those with a level above 0 (27:R392), and a hall agent has switched to
new firmware when its time is over (25:R371). -/
def State.tick (s : State) : State :=
  ({ s.stepPhc with
    now := s.now + 1, cells := s.cells.map fun x => (x.1, s.countCell x.1 x.2)
    halls := s.halls.map fun x =>
      (x.1, if x.2.switching && decide (x.2.switchEnd ≤ s.now + 1) then { x.2 with switching := false, switched := true } else x.2)
    cp := if s.cp.level = 0 then s.cp else { s.cp with throttle := (s.cp.throttle + 1) % 2 ^ 64 } } : State).beginCycle

end Sys2Proof.Machine
end

