-- ==== Sys2Proof/Machine/Flags.lean ====
section
/-! DEFINITION. The flag computations of the module: it keeps no condition flags (11:R165), and what other machines
hold as flags are the condition codes below, whose result goes to a predicate (09:R148). -/

namespace Sys2Proof.Machine

/-- `Cond(cc, a, b)` (09:R148, 11:R173). -/
def condHolds (cc : Cond) (a b : Word) : Bool :=
  match cc with
  | .eq => a = b
  | .ne => a ≠ b
  | .lt => a.slt b
  | .ge => b.sle a
  | .ltu => a.ult b
  | .geu => b.ule a
  | .gt => b.slt a
  | .le => a.sle b
  | .gtu => b.ult a
  | .leu => a.ule b
  | .tst => a &&& b ≠ 0

end Sys2Proof.Machine
end

