-- ==== Sys2Proof/Machine/Operands.lean ====
section
/-! DEFINITION. The operand forms: scalar sources with what reading them does, results with their latency, guards, bank
row ranges and lane masks (09:R145, R146; 11:R165 to R167; 13:R182, R183). -/

namespace Sys2Proof.Machine

/-! ## Guards (09:R145) -/

/-- A guarded instruction of a class that allows one: when the guard does not hold it does what `skip` says. -/
def guardedOr (s : State) (g : Guard) (skip act : Task → State) : Host.Outcome State Fault Refusal :=
  onTask s fun t => if t.holds g then act t else skip t

/-- A guarded instruction that writes and sends nothing when its guard does not hold. -/
def guarded (s : State) (g : Guard) (act : Task → State) : Host.Outcome State Fault Refusal :=
  guardedOr s g (fun t => s.complete t) act

/-! ## Scalar results -/

/-- The result of an instruction goes to a scalar and the instruction completes (11:R165, R166). -/
def State.result (s : State) (t : Task) (sd : BitVec 5) (v : Word) (lat : Nat) : State :=
  s.complete ((t.setReg sd v).readyIn sd s.now lat)

/-- A scalar instruction of one result: sources are read with their taint, the value is written (11:R165). -/
def scalarOp (s : State) (sd : BitVec 5) (srcs : List Spec) (lat : Nat) (f : Task → Word) :
    Host.Outcome State Fault Refusal :=
  onTask s fun t => s.result (t.touch srcs) sd (f t) lat

/-- The immediate of an SI form (11:R169). -/
def immOf (imm : BitVec 32) : Word := imm.signExtend 64

/-- An instruction that writes a predicate (11:R166, R173, R175). -/
def predOp (s : State) (srcs : List Spec) (pd : BitVec 3) (f : Task → Bool) : Host.Outcome State Fault Refusal :=
  onTask s fun t => s.complete ((t.touch srcs).setPred pd (f t))

end Sys2Proof.Machine
end

