-- ==== Sys2Proof/Machine/Numeric.lean ====
section
/-! DEFINITION. Formats, exact values, rounding, prefix reads, block scales and elements, lane generators
(03:R30 to R49; 13:R188, R209, R210). Exact reals are dyadic: a sign, a magnitude and a power of two. -/

namespace Sys2Proof.Machine

/-! ## Formats (03:R30, R33, R34, R36) -/

/-- A floating-point layout: exponent and fraction bits; kind 0 with infinities and NaNs as IEEE 754, 1 as E4M3, 2
without specials. -/
structure FloatFmt where
  ebits : Nat
  fbits : Nat
  kind : Nat
deriving DecidableEq, Repr

def FloatFmt.bias (f : FloatFmt) : Nat := 2 ^ (f.ebits - 1) - 1
def FloatFmt.width (f : FloatFmt) : Nat := 1 + f.ebits + f.fbits

/-- Exponent of the smallest step. -/
def FloatFmt.minExp (f : FloatFmt) : Int := 1 - (f.bias : Int) - (f.fbits : Int)

/-- The magnitude code of the largest finite value. -/
def FloatFmt.maxMag (f : FloatFmt) : Nat :=
  match f.kind with
  | 0 => (2 ^ f.ebits - 1) * 2 ^ f.fbits - 1
  | 1 => 2 ^ (f.width - 1) - 2
  | _ => 2 ^ (f.width - 1) - 1

def isIntFmt (c : Nat) : Bool := c ≤ 1

/-- The float formats that stand alone. -/
def floatFmt : Nat → Option FloatFmt
  | 0x02 => some ⟨5, 10, 0⟩
  | 0x03 => some ⟨8, 23, 0⟩
  | 0x04 => some ⟨4, 3, 1⟩
  | 0x05 => some ⟨5, 2, 0⟩
  | 0x06 => some ⟨8, 7, 0⟩
  | _ => none

/-- The block-scaled formats. -/
def isBlockFmt (c : Nat) : Bool := decide (0x08 ≤ c) && decide (c ≤ 0x0E)

/-- Element width of a block-scaled format. -/
def elemWidth : Nat → Nat
  | 0x0A | 0x0B => 6
  | 0x0C | 0x0E => 4
  | _ => 8

/-- The element layouts of the MX float formats (03:R36). -/
def elemFloat : Nat → Option FloatFmt
  | 0x08 => some ⟨5, 2, 0⟩
  | 0x09 => some ⟨4, 3, 1⟩
  | 0x0A => some ⟨3, 2, 2⟩
  | 0x0B => some ⟨2, 3, 2⟩
  | 0x0C => some ⟨2, 1, 2⟩
  | _ => none

/-- Stored planes of a format that is not block-scaled; integers have the declared width. -/
def storedPlanes (c w : Nat) : Nat :=
  if isIntFmt c then w else if c = 0x10 then 64 else match floatFmt c with | some f => f.width | none => elemWidth c

/-- Rows of a group: element planes, and the scale row of a block-scaled format (03:R30, R32). -/
def groupRows (c w : Nat) : Nat := storedPlanes c w + (isBlockFmt c).toNat

/-- A prefix count of a format (03:R30, R31). -/
def prefixOk (c n k : Nat) : Bool :=
  match c with
  | 0x00 | 0x01 => decide (1 ≤ k) && decide (k ≤ n)
  | 0x02 => decide (6 ≤ k) && decide (k ≤ 16)
  | 0x03 => decide (9 ≤ k) && decide (k ≤ 32)
  | 0x05 => decide (6 ≤ k) && decide (k ≤ 8)
  | 0x06 => decide (9 ≤ k) && decide (k ≤ 16)
  | _ => k = n

/-! ## Exact values -/

/-- An exact value: `± m · 2^e`, an infinity, or not a number. -/
inductive Ev where
  | num (neg : Bool) (m : Nat) (e : Int)
  | inf (neg : Bool)
  | nan
deriving DecidableEq, Repr

/-- The value of an integer. -/
def Ev.ofInt (x : Int) : Ev := .num (decide (x < 0)) x.natAbs 0

/-- A value times a power of two. -/
def Ev.scale (v : Ev) (k : Int) : Ev :=
  match v with
  | .num s m e => .num s m (e + k)
  | x => x

def Ev.finite : Ev → Bool
  | .num _ _ _ => true
  | _ => false

/-- The integer `± m · 2^(e - base)`, for a base no greater than e. -/
def Ev.at_ (v : Ev) (base : Int) : Int :=
  match v with
  | .num s m e => let x : Int := (m : Int) * 2 ^ (e - base).toNat; if s then -x else x
  | _ => 0

def Ev.exp : Ev → Int
  | .num _ m e => if m = 0 then 0 else e
  | _ => 0

/-- The value of a float's code (03:R33, R34). -/
def FloatFmt.val (f : FloatFmt) (enc : Nat) : Ev :=
  let w := f.width
  let neg := enc / 2 ^ (w - 1) % 2 = 1
  let mag := enc % 2 ^ (w - 1)
  let x := mag / 2 ^ f.fbits
  let fr := mag % 2 ^ f.fbits
  if f.kind = 0 ∧ x = 2 ^ f.ebits - 1 then if fr = 0 then .inf neg else .nan
  else if f.kind = 1 ∧ mag = 2 ^ (w - 1) - 1 then .nan
  else if x = 0 then .num neg fr f.minExp
  else .num neg (2 ^ f.fbits + fr) (f.minExp + (x : Int) - 1)

/-- The value of an integer code of `w` bits (03:R30). -/
def intVal (c enc w : Nat) : Int := if c = 0 then signExt enc w else (enc % 2 ^ w : Nat)

/-- The value of an accumulator word as it is stored: S in bits [63:16], X in bits [15:6] (03:R41). -/
def awVal (enc : Nat) : Ev := (Ev.ofInt (signExt (enc / 2 ^ 16) 48)).scale (signExt (enc / 2 ^ 6) 10)

/-- `Val(e, fmt, w)` for the formats without a scale (13:R188). -/
def valOf (c enc w : Nat) : Ev :=
  if isIntFmt c then Ev.ofInt (intVal c enc w)
  else if c = 0x10 then awVal enc
  else match floatFmt c with | some f => f.val enc | none => .nan

/-- Canonical NaN and infinity codes (03:R35, R38). -/
def FloatFmt.nan (f : FloatFmt) : Nat :=
  if f.kind = 0 then (2 ^ f.ebits - 1) * 2 ^ f.fbits + 2 ^ (f.fbits - 1) else 2 ^ (f.width - 1) - 1

def FloatFmt.inf (f : FloatFmt) (neg : Bool) : Nat :=
  neg.toNat * 2 ^ (f.width - 1) + (if f.kind = 0 then f.maxMag + 1 else f.maxMag)

/-! ## Rounding (03:R44, R46; 13:R188) -/

/-- `W < F` with F the leading 16 bits of the fraction `r / d` (03:R46). -/
def srUp (r d w : Nat) : Bool := decide (w < r * 2 ^ 16 / d)

/-- A magnitude `q + r / d` rounds up, for a value of the sign given (03:R44, float column). -/
def magUp (mode : Nat) (neg : Bool) (q r d w : Nat) : Bool :=
  match mode with
  | 0 => decide (d < 2 * r) || (decide (2 * r = d) && decide (q % 2 = 1))
  | 2 => neg && decide (r ≠ 0)
  | 3 => !neg && decide (r ≠ 0)
  | 4 => srUp r d w
  | _ => false

/-- `m · 2^e` rounded to an integer by magnitude (13:R188, RoundMag). -/
def roundMagNat (neg : Bool) (m : Nat) (e : Int) (mode w : Nat) : Nat :=
  if 0 ≤ e then m * 2 ^ e.toNat
  else
    let d := 2 ^ (-e).toNat
    m / d + (magUp mode neg (m / d) (m % d) d w).toNat

/-- RoundMag of a value (13:R188). -/
def roundMag (v : Ev) (mode w : Nat) : Int :=
  match v with
  | .num s m e => let x : Int := roundMagNat s m e mode w; if s then -x else x
  | _ => 0

/-- RoundInt of `x / d` (13:R188). -/
def roundDiv (x : Int) (d mode w : Nat) : Int :=
  let b := x / (d : Int)
  let r := (x % (d : Int)).toNat
  let inc : Bool :=
    match mode with
    | 0 => decide (d < 2 * r) || (decide (2 * r = d) && decide (b % 2 = 1))
    | 1 => decide (b < 0) && decide (r ≠ 0)
    | 3 => decide (r ≠ 0)
    | 4 => srUp r d w
    | _ => false
  b + inc.toNat

/-- RoundInt of a value (13:R188). -/
def roundInt (v : Ev) (mode w : Nat) : Int :=
  match v with
  | .num s m e =>
    if 0 ≤ e then v.at_ 0
    else roundDiv (if s then -(m : Int) else m) (2 ^ (-e).toNat) mode w
  | _ => 0

/-- `Fit(v, sg, n, sat)` as a code of n bits (13:R188). -/
def fit (v : Int) (signed : Bool) (n : Nat) (sat : Bool) : Nat :=
  let lo : Int := if signed then -(2 ^ (n - 1) : Nat) else 0
  let hi : Int := if signed then (2 ^ (n - 1) : Nat) - 1 else (2 ^ n : Nat) - 1
  wrapInt (if sat then satInt v lo hi else v) n

/-- RoundFloat of a finite value (13:R188). -/
def roundFloat (f : FloatFmt) (neg : Bool) (m : Nat) (e : Int) (mode : Nat) (sat : Bool) (w : Nat) : Nat :=
  let sign := neg.toNat * 2 ^ (f.width - 1)
  if m = 0 then sign
  else
    let top : Int := (Nat.log2 m : Int) + e
    let ulp : Int := max (top - f.fbits) f.minExp
    let k := roundMagNat neg m (e - ulp) mode w
    let enc := (ulp - f.minExp).toNat * 2 ^ f.fbits + k
    if enc ≤ f.maxMag then sign + enc
    else
      let toward : Bool := mode = 1 || mode = 5 || (mode = 2 && !neg) || (mode = 3 && neg)
      if sat || toward || f.kind ≠ 0 then sign + f.maxMag else f.inf neg

/-- A value converted to a float format: NaNs and infinities as R204, R35 and R38 lay down. -/
def toFloat (f : FloatFmt) (v : Ev) (mode : Nat) (sat : Bool) (w : Nat) : Nat :=
  match v with
  | .num s m e => roundFloat f s m e mode sat w
  | .inf s => f.inf s
  | .nan => f.nan

/-! ## Prefix reads (03:R35, R45) -/

/-- Exponent bits of the formats that nest (03:R33). -/
def nestBits (c : Nat) : Nat := if c = 0x02 ∨ c = 0x05 then 5 else 8

/-- A NaN or infinity read at k planes (03:R35): `m` is the kept magnitude, `fr` says whether the value is a NaN. -/
def specialPrefix (sg m k eb : Nat) (isNan : Bool) : Nat :=
  let fb := k - 1 - eb
  sg * 2 ^ (k - 1) + (if isNan && decide (fb ≠ 0) then m ||| 2 ^ (fb - 1) else m / 2 ^ fb * 2 ^ fb)

/-- The exponent of a float's code is all ones. -/
def expOnes (c v n : Nat) : Bool :=
  let eb := nestBits c
  v / 2 ^ (n - 1 - eb) % 2 ^ eb = 2 ^ eb - 1

/-- A prefix read makes a random draw (03:R46). -/
def prefixDraws (c v n k mode : Nat) : Bool := mode = 4 && k ≠ n && (isIntFmt c || !expOnes c v n)

/-- `RoundPrefix(v, fmt, k, mode, sat)` (03:R45). -/
def roundPrefix (c v n k mode : Nat) (sat : Bool) (w : Nat) : Nat :=
  let s := n - k
  if s = 0 then v
  else
    let lo := v % 2 ^ s
    let half := 2 ^ (s - 1)
    if isIntFmt c then
      let b : Int := if c = 0 then signExt (v / 2 ^ s) k else (v / 2 ^ s % 2 ^ k : Nat)
      let inc : Bool :=
        match mode with
        | 0 => decide (half < lo) || (decide (lo = half) && decide (b % 2 = 1))
        | 1 => decide (b < 0) && decide (lo ≠ 0)
        | 3 => decide (lo ≠ 0)
        | 4 => srUp lo (2 ^ s) w
        | _ => false
      let q := b + inc.toNat
      let hi : Int := if c = 0 then (2 ^ (k - 1) : Nat) - 1 else (2 ^ k : Nat) - 1
      wrapInt (if hi < q ∧ sat then hi else q) k
    else
      let eb := nestBits c
      let sg := v / 2 ^ (n - 1) % 2
      let mag := v % 2 ^ (n - 1)
      let m := mag / 2 ^ s
      if expOnes c v n then specialPrefix sg m k eb (decide (mag % 2 ^ (n - 1 - eb) ≠ 0))
      else
        let m := m + (magUp mode (decide (sg = 1)) m lo (2 ^ s) w).toNat
        let inf := (2 ^ eb - 1) * 2 ^ (k - 1 - eb)
        sg * 2 ^ (k - 1) + (if inf ≤ m ∧ sat then inf - 1 else m)

/-! ## Scales and elements (03:R36, R39, R40; 13:R209, R210) -/

/-- Q4A table values in units of 2^-6 (03:R40). -/
def q4Unit (ty code : Nat) : Int :=
  let m := code % 8
  let v : Nat :=
    match ty with
    | 1 => 32 * [0, 1, 2, 3, 4, 6, 8, 12].getD m 0
    | 2 => if m = 0 then 0 else 2 ^ (m - 1)
    | 3 => 64 * (if m < 4 then m else 2 ^ (m - 2))
    | _ => 0
  if ty = 0 then 64 * signExt code 4 else if 8 ≤ code then -(v : Int) else v

/-- A scale byte is the format's NaN (03:R36, R39). -/
def scaleIsNan (c byte : Nat) : Bool := if c = 0x0E then byte % 64 = 63 else byte = 255

/-- The NaN byte that QUANT writes (13:R208). -/
def scaleNan (c : Nat) : Nat := if c = 0x0E then 0x3F else 0xFF

/-- The exponent that a scale byte stands for. -/
def scaleExp (c byte : Nat) : Int := if c = 0x0E then (byte % 64 : Nat) - 31 else (byte : Int) - 127

/-- An element's value without its scale. -/
def elemVal (c byte enc : Nat) : Ev :=
  match elemFloat c with
  | some f => f.val enc
  | none => if c = 0x0D then (Ev.ofInt (signExt enc 8)).scale (-6) else (Ev.ofInt (q4Unit (byte / 64) enc)).scale (-6)

/-- An element's value with its block's scale (03:R36, R37, R40). -/
def blockVal (c byte enc : Nat) : Ev :=
  if scaleIsNan c byte then .nan else (elemVal c byte enc).scale (scaleExp c byte)

/-- The largest finite value of an element format, without a scale (03:R49). -/
def maxFinite (c : Nat) : Ev :=
  match floatFmt c with
  | some f => f.val f.maxMag
  | none =>
    match elemFloat c with
    | some f => f.val f.maxMag
    | none => if c = 0x0D then .num false 127 (-6) else .num false 32 0

/-- Integers over the least exponent of a list of finite values. -/
def commonExp (l : List Ev) : Int := l.foldl (fun a v => min a v.exp) 0

def toInts (l : List Ev) (base : Int) : List Int := l.map fun v => match v with | .num _ 0 _ => 0 | v => v.at_ base

def maxAbs (l : List Int) : Nat := l.foldl (fun a x => max a x.natAbs) 0

/-- `floor(log2 ...)` bound of the MX formats (13:R209). -/
def mxEmax : Nat → Int
  | 0x08 => 15
  | 0x09 => 8
  | 0x0A => 4
  | 0x0B | 0x0C => 2
  | _ => 0

/-- Largest magnitude of a Q4A type (13:R209). -/
def q4Max : Nat → Nat
  | 0 => 7
  | 1 => 6
  | 2 => 1
  | _ => 32

/-- Least e from -31 to 31 with `amax · 2^base ≤ M_t · 2^e` (13:R209). -/
def q4Exp (ty amax : Nat) (base : Int) : Int :=
  if amax = 0 then -31
  else
    let lo := min base (-31)
    match (upTo 63).find? fun i =>
      decide (amax * 2 ^ (base - lo).toNat ≤ q4Max ty * 2 ^ ((i : Int) - 31 - lo).toNat) with
    | some i => (i : Int) - 31
    | none => 31

/-- Codes of a Q4A type by rising value, code 0x8 left out (13:R210). -/
def q4Codes (ty : Nat) : List Nat :=
  if ty = 0 then [9, 10, 11, 12, 13, 14, 15, 0, 1, 2, 3, 4, 5, 6, 7]
  else [15, 14, 13, 12, 11, 10, 9, 0, 1, 2, 3, 4, 5, 6, 7]

/-- A Q4A element (13:R210): `v` in units of `2^base`, base at most -6. -/
def q4Elem (ty : Nat) (v : Int) (base : Int) (mode w : Nat) : Nat :=
  let at_ (c : Nat) : Int := q4Unit ty c * 2 ^ (-6 - base).toNat
  let codes := q4Codes ty
  let below := (codes.filter fun c => at_ c ≤ v).getLast?
  let above := codes.find? fun c => v ≤ at_ c
  match below, above with
  | none, some b => b
  | some a, none => a
  | none, none => 0
  | some a, some b =>
    if a = b then a
    else
      let (t, u) := if (at_ a).natAbs ≤ (at_ b).natAbs then (a, b) else (b, a)
      let r := (v - at_ t).natAbs
      let d := (at_ u - at_ t).natAbs
      match mode with
      | 0 => if 2 * r < d then t else if d < 2 * r then u else if t % 2 = 0 then t else u
      | 2 => a
      | 3 => b
      | 4 => if srUp r d w then u else t
      | _ => t

/-- `Element(x / scale, fmt, type, mode, lane)` (13:R210). -/
def elemCode (c byte : Nat) (v : Ev) (mode w : Nat) : Nat :=
  let x := v.scale (-(scaleExp c byte))
  match elemFloat c with
  | some f => toFloat f x mode true w
  | none =>
    if c = 0x0D then wrapInt (satInt (roundMag (x.scale 6) mode w) (-127) 127) 8
    else
      let base := min x.exp (-6)
      q4Elem (byte / 64) ((toInts [x] base).headD 0) base mode w

/-- The square error of a Q4A scale over a block, in units of `2^(2 lo)` (13:R209). -/
def q4Error (byte : Nat) (xs : List Ev) (lo : Int) : Int :=
  (xs.map fun x =>
    let v := elemVal 0x0E byte (elemCode 0x0E byte x 0 0)
    let d := (toInts [x] lo).headD 0 - (toInts [v.scale (scaleExp 0x0E byte)] lo).headD 0
    d * d).foldl (· + ·) 0

/-- The place of the least of a list, the first on ties. -/
def leastAt (l : List Int) : Nat :=
  match l.foldl (fun (a : Nat × Nat × Option Int) x =>
    match a.2.2 with
    | some y => if x < y then (a.1 + 1, a.1, some x) else (a.1 + 1, a.2.1, some y)
    | none => (a.1 + 1, a.1, some x)) (0, 0, none) with
  | (_, i, _) => i

/-- ChooseScale over the finite values of a block (13:R209). -/
def chooseScale (c tsel : Nat) (xs : List Ev) : Nat :=
  let base := commonExp xs
  let amax := maxAbs (toInts xs base)
  if c = 0x0E then
    let byteOf (ty : Nat) : Nat := ty * 64 + (q4Exp ty amax base + 31).toNat
    if tsel < 4 then byteOf tsel
    else
      let lo := min base (-37)
      byteOf (leastAt ((upTo 4).map fun ty => q4Error (byteOf ty) xs lo))
  else if amax = 0 then 0
  else (satInt ((Nat.log2 amax : Int) + base - mxEmax c + 127) 0 254).toNat

/-! ## Planes and lanes (03:R30, R32; 00:R5) -/

/-- The code of lane j in a run of rows, plane 0 the most significant. -/
def laneCode (rows : List Row) (j : Nat) : Nat := rows.foldl (fun a r => 2 * a + r.toNat / 2 ^ j % 2) 0

/-- A row from its lanes. -/
def rowOf (bits : List Bool) : Row := BitVec.ofNat 1024 (bits.foldr (fun b a => 2 * a + b.toNat) 0)

/-- The planes of a list of codes of n bits. -/
def planesOf (n : Nat) (codes : List Nat) : List Row :=
  (upTo n).map fun i => rowOf (codes.map fun c => c / 2 ^ (n - 1 - i) % 2 = 1)

/-- Every lane. -/
def allLanes : Row := BitVec.allOnes 1024

/-- The rows of an operand. -/
def rowRun (base n : Nat) : List Nat := (upTo n).map (base + ·)

def Cell.rows (c : Cell) (base n : Nat) : List Row := (rowRun base n).map c.row

/-! ## Lane generators (03:R47, R48) -/

/-- The Fibonacci step. -/
def lfsrStep (x : BitVec 16) : BitVec 16 :=
  x <<< 1 ||| BitVec.ofNat 16 ((x.getLsbD 15 ^^ x.getLsbD 14 ^^ x.getLsbD 12 ^^ x.getLsbD 3).toNat)

/-- A lane's state right after a seeding. -/
def seedLane (seed : BitVec 16) (j : Nat) : BitVec 16 :=
  let x := seed ^^^ BitVec.ofNat 16 (j * 0x9E37)
  if x = 0 then 0xACE1 else x

def Cell.lfsrAt (c : Cell) (j : Nat) : Nat := (tgetD c.lfsr (seedLane c.lfsrSeed j) j).toNat

/-- `n j` steps of each lane. -/
def Cell.stepLfsr (c : Cell) (n : Nat → Nat) : Cell :=
  { c with lfsr := (upTo 1024).filterMap fun j =>
      let x := (lfsrStep^[n j]) (tgetD c.lfsr (seedLane c.lfsrSeed j) j)
      if x = seedLane c.lfsrSeed j then none else some (j, x) }

/-- Seeding sets every lane (03:R48). -/
def Cell.seed (c : Cell) (seed : BitVec 16) : Cell := { c with lfsrSeed := seed, lfsr := [] }

/-! ## The precision pair (03:R42, R43) -/

/-- The fields of a pair. -/
structure Pair where
  pa : Nat
  pb : Nat
  fmtA : Nat
  fmtB : Nat
  trimA : Bool
  trimB : Bool
  mode : Nat
  sat : Bool
  clamp : Bool
deriving DecidableEq, Repr

/-- Pairs after cold reset: INT8 × INT8 (15:R222). -/
def pairReset : BitVec 32 := 0x000000E7

def Cell.pairBits (c : Cell) (i : BitVec 2) : BitVec 32 := tgetD c.pp pairReset i.toNat

def pairOf (x : BitVec 32) : Pair :=
  let n := x.toNat
  { pa := bitsOf n 0 5 + 1, pb := bitsOf n 5 5 + 1, fmtA := bitsOf n 10 5, fmtB := bitsOf n 15 5
    trimA := bitAt n 20, trimB := bitAt n 21, mode := bitsOf n 22 3, sat := bitAt n 25, clamp := bitAt n 26 }

def Cell.pair (c : Cell) (i : BitVec 2) : Pair := pairOf (c.pairBits i)

/-- What the writing of a pair raises: RESERVED_FIELD, FORMAT, or nothing (03:R43). -/
def pairFault (x : Nat) : Option Nat :=
  if x / 2 ^ 27 ≠ 0 ∨ 6 ≤ bitsOf x 22 3 then some Cause.reservedField
  else if fmtCodeOk (BitVec.ofNat 5 (bitsOf x 10 5)) && fmtCodeOk (BitVec.ofNat 5 (bitsOf x 15 5)) then none
  else some Cause.format

end Sys2Proof.Machine
end

