-- ==== Sys2Proof/Machine/Lanes.lean ====
section
/-! DEFINITION. The frame of the instructions of the lane and matrix arrays: the checks of R183, the waiting of R184
and R217, poison of rows and plane registers (05:R71, R72; 13:R183 to R185), masked writes (13:R182). -/

namespace Sys2Proof.Machine

/-! ## Waiting for units (13:R184, 15:R217) -/

/-- What an instruction reads and writes of the cell's shared state. -/
structure Uses where
  unit_ : UnitName := .lane
  reads : List Res := []
  writes : List Res := []
  cycles : Nat := 1

/-- An instruction in flight keeps a later one waiting that touches what it writes, or writes what it reads. -/
def Flight.blocks (f : Flight) (u : Uses) : Bool :=
  u.reads.any (fun r => f.writes.contains r) || u.writes.any fun r => f.reads.contains r || f.writes.contains r

/-- Until when the flight of a region operation stands: its end takes it away. -/
def regionMark : Nat := 2 ^ 100

/-- The instruction must wait in this cycle: an earlier one is in the way. The instructions of the lane array do not wait
for one another: they queue on it and run in issue order (13:R184, R215). A matrix array that a region operation holds takes nothing
(15:R216; log entry 16). -/
def Cell.mustWait (c : Cell) (now : Nat) (u : Uses) : Bool :=
  (c.regionOp.isSome && u.unit_ = .matrix) || c.flights.any fun f => decide (now < f.until_) && !(f.unit_ = .lane && u.unit_ = .lane) && f.blocks u

/-- A waiting instruction that takes no unit for itself (13:R184). -/
def Cell.inTheWay (c : Cell) (now : Nat) (reads writes : List Res) : Bool :=
  c.flights.any fun f => decide (now < f.until_) && f.blocks { reads := reads, writes := writes }

/-- Cycle at which the instruction starts: when the earlier ones of its unit are over (13:R215, 15:R216). -/
def Cell.unitFree (c : Cell) (now : Nat) (u : UnitName) : Nat :=
  ((c.flights.filter (·.unit_ = u)).map (·.until_)).foldl max now

def Cell.takeUnit (c : Cell) (now : Nat) (u : Uses) : Cell :=
  { c with flights := ⟨u.unit_, c.unitFree now u.unit_ + u.cycles, u.reads, u.writes⟩ :: c.flights }

/-! ## Poison (05:R71, R72; 13:R185) -/

def Cell.qRow (c : Cell) (i : BitVec 3) : Row := tgetD c.q 0 i.toNat

/-- Something poisoned is read. -/
def Cell.readsPoison (c : Cell) (rs : List Res) : Bool :=
  rs.any fun r =>
    match r with
    | .row i => c.rowPoisoned i
    | .q i => c.qPoison.contains i
    | .tile i => c.tilePoison.contains i
    | .latch => c.latchPoison
    | _ => false

/-- A bank row written in the lanes of a mask by a task of the taint given (05:R72, 13:R182). -/
def Cell.putRow (c : Cell) (r : Nat) (x mask : Row) (taint : Bool) : Cell :=
  if mask = 0 then c
  else
    let c := c.setRow r ((c.row r &&& ~~~mask) ||| (x &&& mask))
    if taint then c.setRowPoison r true
    else if mask = allLanes then c.setRowPoison r false
    else c

/-- A plane register written in the lanes of a mask (13:R185). -/
def Cell.putQ (c : Cell) (i : BitVec 3) (x mask : Row) (taint : Bool) : Cell :=
  if mask = 0 then c
  else
    let c := { c with q := tset c.q 0 i.toNat ((c.qRow i &&& ~~~mask) ||| (x &&& mask)) }
    if taint then { c with qPoison := if c.qPoison.contains i.toNat then c.qPoison else i.toNat :: c.qPoison }
    else if mask = allLanes then { c with qPoison := c.qPoison.filter (· ≠ i.toNat) }
    else c

/-- Rows from a base, in order. -/
def Cell.putRows (c : Cell) (base : Nat) (xs : List Row) (mask : Row) (taint : Bool) : Cell :=
  (xs.foldl (fun (a : Cell × Nat) x => (a.1.putRow a.2 x mask taint, a.2 + 1)) (c, base)).1

/-- The lanes that an instruction writes (13:R182). -/
def Cell.laneMask (c : Cell) (mask : Option (BitVec 3)) : Row :=
  match mask with
  | some q => c.qRow q
  | none => allLanes

def maskRes (mask : Option (BitVec 3)) : List Res :=
  match mask with
  | some q => [.q q.toNat]
  | none => []

def rowsRes (base n : Nat) : List Res := (rowRun base n).map .row

/-! ## The frame (13:R183 to R185) -/

/-- The first row that a task may not touch (13:R183). DESIGN CHOICE (log entry 27): the rows read are looked at before the
rows written, and those of operand a before those of b. -/
def Cell.badRow (c : Cell) (u : Uses) : Option Nat :=
  ((u.reads ++ u.writes).filterMap fun r => match r with | .row i => some i | _ => none).find? c.rowForbidden

/-- An instruction of an array does not issue yet: an earlier one is in the way, or a scoped load of the task is
outstanding, ahead of which no access of it goes (13:R184; 15:R217; 17:R261). -/
def State.arrayHeld (s : State) (u : Uses) : Bool := s.acquiring || s.cell0.mustWait s.now u

/-- An instruction of an array: the waiting, at issue the checks in their order, the taint of what it reads, then its
effect on the cell. `bad` is the FORMAT or PLANE_DECL that holds, `late` one that the data of the rows decides. -/
def arrayOp (s : State) (t : Task) (bad : Option Nat) (u : Uses) (k : Cell → Task → Cell × Task)
    (late : Cell → Option Nat := fun _ => none) : State :=
  if s.arrayHeld u then s.retry t none
  else
    match bad with
    | some c => s.raiseWord t c
    | none =>
      match s.cell0.badRow u with
      | some r => s.raise t Cause.protection r (s.curWord t).toNat
      | none =>
        match late s.cell0 with
        | some c => s.raiseWord t c
        | none =>
          let t := { t with taint := t.taint || s.cell0.readsPoison u.reads }
          let (c, t) := k (s.cell0.takeUnit s.now u) t
          (s.updCell0 fun _ => c).complete t

/-- The first condition that fails names the cause. -/
def firstBad (l : List (Bool × Nat)) : Option Nat := (l.find? (·.1)).map (·.2)

/-- Lane random states an instruction uses when its pair's mode is SR (13:R186). -/
def drawRes (b : Bool) : List Res := if b then [.lfsr] else []

/-- ACCSAT as something written by an instruction whose pair clamps (03:R51, 15:R217). -/
def clampRes (p : Pair) : List Res := if p.clamp then [.accsat] else []

/-- Steps of the generators: one in each written lane (13:R186). -/
def Cell.drawMasked (c : Cell) (draws : Bool) (mask : Row) : Cell :=
  if draws then c.stepLfsr fun j => (mask.getLsbD j).toNat else c

/-- The lane's random word where one is drawn. -/
def Cell.word (c : Cell) (draws : Bool) (j : Nat) : Nat := if draws then c.lfsrAt j else 0

/-- Generators of the lanes for which a draw was made. -/
def Cell.drawWhere (c : Cell) (draws : Bool) (made : Nat → Bool) : Cell :=
  if draws then c.stepLfsr fun j => (made j).toNat else c

/-- Byte `b` of a row. -/
def scaleByte (r : Row) (b : Nat) : Nat := r.toNat / 2 ^ (8 * b) % 256

/-- The formats that stand without a scale: INT, UINT and the floats (13:R203). -/
def isPlainFmt (c : Nat) : Bool := isIntFmt c || (floatFmt c).isSome

/-- ACCSAT[4] (03:R51). -/
def Cell.noteClamp (c : Cell) (b : Bool) : Cell := if b then { c with accSat := c.accSat ||| 16 } else c

/-- The values of a block after CLAMP (13:R208). -/
def clampBlock (fmts : Nat) (xs : List Ev) : List Ev :=
  xs.map fun x =>
    match x with
    | .nan => .num false 0 0
    | .inf neg => match maxFinite fmts with | .num _ m e => .num neg m e | v => v
    | v => v

end Sys2Proof.Machine
end

