-- ==== Sys2Proof/Machine/Convert.lean ====
section
/-! DEFINITION. Class CV: conversions, prefix reads and writes, block quantisation, scale rows, seeding
(13:R202 to R215). -/

namespace Sys2Proof.Machine

/-! ## CVT and CVTS (13:R203 to R205) -/

/-- One lane converted (13:R203, R204). -/
def convert (p : Pair) (fmtd : Nat) (v : Ev) (w : Nat) : Nat :=
  if isIntFmt fmtd then
    let sg : Bool := fmtd = 0
    match v with
    | .nan => 0
    | .inf neg =>
      let lo : Int := if sg then -(2 ^ (p.pb - 1) : Nat) else 0
      let hi : Int := if sg then (2 ^ (p.pb - 1) : Nat) - 1 else (2 ^ p.pb : Nat) - 1
      wrapInt (if neg then lo else hi) p.pb
    | v => fit (roundInt v p.mode w) sg p.pb p.sat
  else
    match floatFmt fmtd with
    | some f => toFloat f v p.mode p.sat w
    | none => 0

/-- A lane meets a NaN on its way to an integer (13:R204). -/
def nanToInt (fmtd : Nat) (v : Ev) : Bool := isIntFmt fmtd && v = .nan

/-- The lanes of a conversion written: non-finite values first, then the rows (13:R203, R204). A written lane whose value is
NaN or infinite rounds nothing, so its generator makes no step under SR (R186 against R213; DESIGN CHOICE, log entry 27). -/
def convertLanes (c : Cell) (t : Task) (p : Pair) (bd fmtd n : Nat) (mask : Row) (sr : Bool) (vals : Nat → Ev) :
    Cell × Task :=
  let hit := (upTo 1024).any fun j => mask.getLsbD j && nanToInt fmtd (vals j)
  let t := if hit && !p.clamp then { t with taint := true } else t
  let c := c.noteClamp (hit && p.clamp)
  let r := (upTo 1024).map fun j => convert p fmtd (vals j) (c.word sr j)
  ((c.putRows bd (planesOf n r) mask t.taint).drawWhere sr fun j => mask.getLsbD j && (vals j).finite, t)

/-- CVT. DESIGN CHOICE (log entry 27): an AW source lane with a non-zero bit in planes 58 to 63 (03:R41) raises FORMAT
whether or not the mask takes it, after the checks of 13:R183. -/
def execCvt (bd ba : BitVec 9) (pp : BitVec 2) (fmtd fmts : BitVec 5) (mask : Option (BitVec 3)) (s : State) :
    Host.Outcome State Fault Refusal :=
  onTask s fun t =>
    let p := s.cell0.pair pp
    let fd := fmtd.toNat
    let fs := fmts.toNat
    let ns := storedPlanes fs p.pa
    let nd := storedPlanes fd p.pb
    let sr : Bool := p.mode = 4
    arrayOp s t (firstBad [(!isPlainFmt fd || !(isPlainFmt fs || fs = 0x10), Cause.format)])
      { reads := rowsRes ba.toNat ns ++ maskRes mask ++ [.pair pp.toNat] ++ drawRes sr
        writes := rowsRes bd.toNat nd ++ drawRes sr ++ clampRes p, cycles := 4 + ns + nd }
      (fun c t => convertLanes c t p bd.toNat fd nd (c.laneMask mask) sr
        fun j => valOf fs (laneCode (c.rows ba.toNat ns) j) p.pa)
      fun c =>
        if fs = 0x10 ∧ (upTo 1024).any (fun j => laneCode (c.rows ba.toNat ns) j % 64 ≠ 0) then some Cause.format else none

def execCvts (bd : BitVec 9) (sa : Spec) (pp : BitVec 2) (fmtd fmts : BitVec 5) (mask : Option (BitVec 3)) (s : State) :
    Host.Outcome State Fault Refusal :=
  onTask s fun t =>
    let p := s.cell0.pair pp
    let fd := fmtd.toNat
    let fs := fmts.toNat
    let nd := storedPlanes fd p.pb
    let sr : Bool := p.mode = 4
    let v := valOf fs (t.val sa).toNat p.pa
    arrayOp s (t.touch [sa]) (firstBad [(!isPlainFmt fd || !isPlainFmt fs, Cause.format)])
      { reads := maskRes mask ++ [.pair pp.toNat] ++ drawRes sr
        writes := rowsRes bd.toNat nd ++ drawRes sr ++ clampRes p, cycles := 4 + nd }
      fun c t => convertLanes c t p bd.toNat fd nd (c.laneMask mask) sr fun _ => v

/-! ## Prefix reads and writes (13:R206, R207) -/

/-- Rows that a prefix read reads (13:R206). -/
def prefixRows (round : Bool) (mode n k : Nat) : Nat :=
  if !round then k else if mode = 4 then min n (k + 16) else n

/-- Rows copied, with zero rows after them, in the lanes of a mask (13:R206, R207). -/
def copyOp (s : State) (t : Task) (bad : Option Nat) (bd ba : Nat) (pp : BitVec 2) (mask : Option (BitVec 3))
    (src dst cycles : Nat) : State :=
  arrayOp s t bad { reads := rowsRes ba src ++ maskRes mask ++ [.pair pp.toNat], writes := rowsRes bd dst, cycles := cycles }
    fun c t =>
      (c.putRows bd (c.rows ba src ++ (upTo (dst - src)).map fun _ => 0) (c.laneMask mask) t.taint, t)

/-- PRD: the value is that of the whole stored encoding; the rows it reads are those of R206 (log entry 14). -/
def prefixRead (round : Bool) (bd ba : BitVec 9) (pp : BitVec 2) (fmts k1 : BitVec 5) (mask : Option (BitVec 3))
    (s : State) : Host.Outcome State Fault Refusal :=
  onTask s fun t =>
    let p := s.cell0.pair pp
    let fs := fmts.toNat
    let k := k1.toNat + 1
    let n := storedPlanes fs p.pa
    let bad := firstBad [(fs = 0x10, Cause.format), (!prefixOk fs n k, Cause.planeDecl)]
    if isBlockFmt fs then copyOp s t bad bd.toNat ba.toNat pp mask (k + 1) (k + 1) (2 + (k + 1) + k + 1)
    else
      let mode := if round then p.mode else 5
      let sr : Bool := mode = 4
      let r := prefixRows round p.mode n k
      arrayOp s t bad
        { reads := rowsRes ba.toNat r ++ maskRes mask ++ [.pair pp.toNat] ++ drawRes sr
          writes := rowsRes bd.toNat k ++ drawRes sr, cycles := 2 + r + k }
        fun c t =>
          let mask := c.laneMask mask
          let v := laneCode (c.rows ba.toNat n)
          let out := (upTo 1024).map fun j => roundPrefix fs (v j) n k mode p.sat (c.word sr j)
          ((c.putRows bd.toNat (planesOf k out) mask t.taint).drawWhere sr fun j =>
            mask.getLsbD j && prefixDraws fs (v j) n k mode, t)

def execPrdTrunc (bd ba : BitVec 9) (pp : BitVec 2) (fmts k1 : BitVec 5) (mask : Option (BitVec 3)) (s : State) :=
  prefixRead false bd ba pp fmts k1 mask s
def execPrdRound (bd ba : BitVec 9) (pp : BitVec 2) (fmts k1 : BitVec 5) (mask : Option (BitVec 3)) (s : State) :=
  prefixRead true bd ba pp fmts k1 mask s

def execPwr (bd ba : BitVec 9) (pp : BitVec 2) (fmtd k1 : BitVec 5) (mask : Option (BitVec 3)) (s : State) :
    Host.Outcome State Fault Refusal :=
  onTask s fun t =>
    let p := s.cell0.pair pp
    let fd := fmtd.toNat
    let k := k1.toNat + 1
    let n := storedPlanes fd p.pa
    let x := (isBlockFmt fd).toNat
    copyOp s t (firstBad [(fd = 0x10, Cause.format), (!prefixOk fd n k, Cause.planeDecl)]) bd.toNat ba.toNat pp mask
      (k + x) (n + x) (2 + n + x)

/-! ## QUANT and SCL.MAX (13:R208 to R211) -/

/-- A block as QUANT makes it: scale byte, codes, and what it met. -/
structure QBlock where
  byte : Nat
  codes : List Nat
  tainted : Bool := false
  clamped : Bool := false
  drew : Bool := false

/-- One processed block (13:R208). `old` is the destination's scale byte, `w` the word of a lane of the block. -/
def quantBlock (keep : Bool) (fmtd fmts tsel : Nat) (p : Pair) (xs : List Ev) (old : Nat) (w : Nat → Nat) : QBlock :=
  let zeros := xs.map fun _ => 0
  if keep && scaleIsNan fmtd old then ⟨old, zeros, false, false, false⟩
  else
    let odd := xs.any fun x => !x.finite
    if odd && !p.clamp then ⟨if keep then old else scaleNan fmtd, zeros, true, false, false⟩
    else
      let xs := clampBlock fmts xs
      let byte := if keep then old else chooseScale fmtd tsel xs
      ⟨byte, (upTo 32).map fun i => elemCode fmtd byte (xs.getD i (.num false 0 0)) p.mode (w i), false, odd, true⟩

/-- A scale row from its 32 bytes. -/
def scaleRow (bytes : List Nat) : Row := BitVec.ofNat 1024 (bytes.foldr (fun b a => a * 256 + b % 256) 0)

/-- The bytes of a scale row that are written: those of the blocks chosen, and bytes 32 to 127 where `rest` asks. -/
def scaleMask (blocks : Nat → Bool) (rest : Bool) : Row :=
  BitVec.ofNat 1024 ((upTo 128).foldr (fun b a => a * 256 + if (if b < 32 then blocks b else rest) then 255 else 0) 0)

/-- QUANT, or with `scaleOnly` SCL.MAX. -/
def quantOp (scaleOnly keep : Bool) (bd ba : BitVec 9) (pp : BitVec 2) (fmtd fmts : BitVec 5) (tsel : BitVec 3)
    (mask : Option (BitVec 3)) (s : State) : Host.Outcome State Fault Refusal :=
  onTask s fun t =>
    let p := s.cell0.pair pp
    let fd := fmtd.toNat
    let fs := fmts.toNat
    let n := elemWidth fd
    let ns := storedPlanes fs p.pa
    let sr : Bool := p.mode = 4 && !scaleOnly
    let more := if tsel = 4 then 48 else 0
    let at_ := bd.toNat + n
    arrayOp s t (firstBad [(!isPlainFmt fs || !isBlockFmt fd, Cause.format)])
      { reads := rowsRes ba.toNat ns ++ (if keep then [.row at_] else []) ++ maskRes mask ++ [.pair pp.toNat] ++ drawRes sr
        writes := (if scaleOnly then [.row at_] else rowsRes bd.toNat (n + 1)) ++ drawRes sr ++ clampRes p
        cycles := (if scaleOnly then 8 + ns else 12 + ns + 2 * (n + 1)) + more }
      fun c t =>
        let m := c.laneMask mask
        let v (j : Nat) : Ev := valOf fs (laneCode (c.rows ba.toNat ns) j) p.pa
        let old := c.row at_
        let on (b : Nat) : Bool := m.getLsbD (32 * b)
        let bs := (upTo 32).map fun b =>
          if on b then
            quantBlock keep fd fs tsel.toNat p ((upTo 32).map fun i => v (32 * b + i)) (scaleByte old b)
              fun i => c.word sr (32 * b + i)
          else ⟨0, (upTo 32).map fun _ => 0, false, false, false⟩
        let t := { t with taint := t.taint || bs.any (·.tainted) }
        let c := c.noteClamp (bs.any (·.clamped))
        let lanes := rowOf ((upTo 1024).map fun j => on (j / 32))
        let c := if scaleOnly then c else c.putRows bd.toNat (planesOf n (bs.flatMap (·.codes))) lanes t.taint
        let c := c.putRow at_ (scaleRow (bs.map (·.byte))) (scaleMask on true) t.taint
        (c.drawWhere sr fun j => (bs[j / 32]?).any (·.drew), t)

def execQuant (keep : Bool) (bd ba : BitVec 9) (pp : BitVec 2) (fmtd fmts : BitVec 5) (tsel : BitVec 3)
    (mask : Option (BitVec 3)) (s : State) := quantOp false keep bd ba pp fmtd fmts tsel mask s
def execSclMax (bd ba : BitVec 9) (pp : BitVec 2) (fmtd fmts : BitVec 5) (tsel : BitVec 3) (mask : Option (BitVec 3))
    (s : State) := quantOp true false bd ba pp fmtd fmts tsel mask s

/-! ## Scale rows and dequantisation (13:R212, R213) -/

def execSclGet (bd ba : BitVec 9) (fmts : BitVec 5) (mask : Option (BitVec 3)) (s : State) :
    Host.Outcome State Fault Refusal :=
  onTask s fun t =>
    let at_ := ba.toNat + elemWidth fmts.toNat
    arrayOp s t (firstBad [(!isBlockFmt fmts.toNat, Cause.format)])
      { reads := .row at_ :: maskRes mask, writes := rowsRes bd.toNat 8, cycles := 12 } fun c t =>
        let r := c.row at_
        (c.putRows bd.toNat (planesOf 8 ((upTo 1024).map fun j => scaleByte r (j / 32))) (c.laneMask mask) t.taint, t)

def execSclPut (bd : BitVec 9) (sa : Spec) (fmtd : BitVec 5) (mask : Option (BitVec 3)) (s : State) :
    Host.Outcome State Fault Refusal :=
  onTask s fun t =>
    let at_ := bd.toNat + elemWidth fmtd.toNat
    let a := (t.val sa).toNat
    arrayOp s (t.touch [sa]) (firstBad [(!isBlockFmt fmtd.toNat, Cause.format)])
      { reads := maskRes mask, writes := [.row at_], cycles := 4 } fun c t =>
        let m := c.laneMask mask
        (c.putRow at_ (scaleRow ((upTo 32).map fun _ => a)) (scaleMask (fun b => m.getLsbD (32 * b)) false) t.taint, t)

/-- The formats that DEQ writes (13:R213). -/
def isDeqFmt (c : Nat) : Bool := c = 0x02 || c = 0x03 || c = 0x05 || c = 0x06

/-- A negative zero of Q4A takes part as zero (03:R40, 13:R213). -/
def deqVal (c byte enc : Nat) : Ev :=
  match blockVal c byte enc with
  | .num s m e => .num (if c = 0x0E ∧ m = 0 then false else s) m e
  | v => v

def execDeq (bd ba : BitVec 9) (pp : BitVec 2) (fmtd fmts : BitVec 5) (mask : Option (BitVec 3)) (s : State) :
    Host.Outcome State Fault Refusal :=
  onTask s fun t =>
    let p := s.cell0.pair pp
    let fd := fmtd.toNat
    let fs := fmts.toNat
    let n := elemWidth fs
    let nd := storedPlanes fd p.pb
    let sr : Bool := p.mode = 4
    arrayOp s t (firstBad [(!isBlockFmt fs || !isDeqFmt fd, Cause.format)])
      { reads := rowsRes ba.toNat (n + 1) ++ maskRes mask ++ [.pair pp.toNat] ++ drawRes sr
        writes := rowsRes bd.toNat nd ++ drawRes sr, cycles := 8 + (n + 1) + nd }
      fun c t =>
        let r := c.row (ba.toNat + n)
        let e := laneCode (c.rows ba.toNat n)
        convertLanes c t p bd.toNat fd nd (c.laneMask mask) sr
          fun j => deqVal fs (scaleByte r (j / 32)) (e j)

/-! ## Seeding (13:R214) -/

def execLfsrSeed (sa : Spec) (s : State) : Host.Outcome State Fault Refusal :=
  onTask s fun t =>
    let a := t.val sa
    arrayOp s (t.touch [sa]) none { reads := [.lfsr], writes := [.lfsr], cycles := 2 } fun c t =>
      (c.seed (a.truncate 16), t)

end Sys2Proof.Machine
end

