-- ==== Sys2Proof/Machine/Token.lean ====
section
/-! DEFINITION. Class TK but WAITF: sends, selection, tags, the LOOPB window, blocking, WAITT, MSEND
(17:R243 to R257), and what an outstanding operation of a task is (17:R244). -/

namespace Sys2Proof.Machine

/-! ## Outstanding operations (17:R244) -/

/-- The outstanding operations of the task at the focus. -/
def State.taskOps (s : State) : List Op := s.cell0.ops.filter fun o => o.slot = s.slot

/-- A further operation waits (17:R244). -/
def State.opsFull (s : State) : Bool := decide (16 ≤ s.taskOps.length)

/-- An operation of the task begins; its register awaits the value. -/
def State.addOp (s : State) (o : Op) : State :=
  s.updCell0 fun c => { c with ops := c.ops ++ [{ o with id := c.nextOp, slot := s.slot }], nextOp := c.nextOp + 1 }

/-- The identity of the next operation of the cell. -/
def State.nextOpId (s : State) : Nat := s.cell0.nextOp

/-- The register that an operation will write cannot be read until it returns. -/
def Task.await (t : Task) (sd : BitVec 5) : Task := if sd = 0 then t else { t with pending := sd.toNat :: t.pending }

/-- Something done for the task of a slot by an event: the cell's issue of this cycle stays as it is. -/
def State.asTask (s : State) (cell slot : Nat) (f : State → Task → State) : State :=
  let focus := s.focus
  let at_ := s.slot
  let c := s.cell cell
  let s := { s with focus := BitVec.ofNat 18 cell, slot := slot }
  let s := match s.task s.here with | some t => f s t | none => s
  let s := s.updCell cell fun x => { x with rr := c.rr, issuedAt := c.issuedAt }
  { s with focus := focus, slot := at_ }

/-! ## Sends (17:R245 to R247, R249) -/

/-- SEND; a failed guard sends a null token (09:R145, 17:R246). -/
def execSend (g : Guard) (op : BitVec 2) (sa : Spec) (pred : TPred) (aux : BitVec 9) (kind : TkKind) (s : State) :
    Host.Outcome State Fault Refusal :=
  guardedOr s g (fun t => s.sendThen t [(op.toNat, t.nullTok)] State.complete) fun t =>
    let t := t.touch [sa]
    s.sendThen t [(op.toNat, t.tok (TkKind.tok kind) pred aux (t.val sa))] State.complete

def execSendn (g : Guard) (op : BitVec 2) (s : State) : Host.Outcome State Fault Refusal :=
  guardedOr s g (fun t => s.sendThen t [(op.toNat, t.nullTok)] State.complete) fun t =>
    s.sendThen t [(op.toNat, t.nullTok)] State.complete

/-- STEER: the value on one port of a pair, a null token on the other (17:R247). -/
def execSteer (g : Guard) (hi : Bool) (sa : Spec) (pt : BitVec 3) (aux : BitVec 9) (kind : TkKind) (s : State) :
    Host.Outcome State Fault Refusal :=
  let lo := 2 * hi.toNat
  guardedOr s g (fun t => s.sendThen t [(lo, t.nullTok), (lo + 1, t.nullTok)] State.complete) fun t =>
    let t := t.touch [sa]
    let x (p : TPred) : Token := t.tok (TkKind.tok kind) p aux (t.val sa)
    if t.pred pt then s.sendThen t [(lo, x .true), (lo + 1, t.nullTok)] State.complete
    else s.sendThen t [(lo, t.nullTok), (lo + 1, x .false)] State.complete

/-- The ports of a mask, ascending. -/
def maskPorts (m : BitVec 4) : List Nat := (upTo 4).filter fun p => m.getLsbD p

/-- The issue slot of the cell is taken for `n` cycles from this one (17:R257). -/
def State.holdIssue (s : State) (n : Nat) : State :=
  if n = 0 then s else s.updCell0 fun c => { c with issuedAt := some (s.now + n - 1) }

/-- Sends that take an issue cycle each; those made before a stall have taken theirs (17:R257). -/
def State.sendEach (s : State) (t : Task) (l : List (Nat × Token)) : State :=
  let before := t.done.length
  let s' := s.sendThen t l fun s t => (s.completeIn t (t.done.length - before)).holdIssue (t.done.length - before)
  match s'.task s'.here with
  | some u => s'.holdIssue (u.done.length - before)
  | none => s'

/-- DUP: one issue cycle for each port it sends on (17:R246, R257). -/
def execDup (g : Guard) (ports : BitVec 4) (sa : Spec) (pred : TPred) (aux : BitVec 9) (kind : TkKind) (s : State) :
    Host.Outcome State Fault Refusal :=
  guardedOr s g (fun t => s.sendEach t ((maskPorts ports).map fun p => (p, t.nullTok))) fun t =>
    let t := t.touch [sa]
    s.sendEach t ((maskPorts ports).map fun p => (p, t.tok (TkKind.tok kind) pred aux (t.val sa)))

/-- When a node sends EOS, its input edges are freed and ended: FIFO slots, rings, matching entries (05:R93). -/
def State.endInputs (s : State) (cell : Nat) (ver : Bool) (node : Nat) : State :=
  let v := s.version cell ver
  let s := each (upTo v.bindings.length) s fun s r =>
    match v.bindings[r]? with
    | some b =>
      if b.node = node then
        let s := each (b.fifo.filter fun t => !t.free) s fun s _ => s.returnCredit cell v b
        let s := s.updBinding cell ver r fun b => { b with fifo := [], ended := true, fullSince := none, pack := none }
        let s := s.updCell cell fun c => { c with arrivals := c.arrivals.filter (· ≠ (ver, r)) }
        match b.source with
        | some p => s.updNode p.cell p.ver p.node fun n =>
            { n with outputs := lset n.outputs p.port (·.map fun e => { e with ringTokens := [] }) }
        | none => s
      else s
    | none => s
  s.updCell cell fun c =>
    let keep := fun (e : MatchEntry) => !(e.ver = ver && e.node = node)
    { c with store := c.store.filter keep }

/-- EOS: a CTRL token of subtype EOS; it counts as a send on its port (17:R249). -/
def execEos (g : Guard) (op : BitVec 2) (s : State) : Host.Outcome State Fault Refusal :=
  guardedOr s g (fun t => s.sendThen t [(op.toNat, t.nullTok)] State.complete) fun t =>
    s.sendThen t [(op.toNat, t.tok 3 .none 3 0)] fun s t =>
      (s.endInputs s.focus.toNat t.ver t.node).complete t

/-! ## Selection (17:R248) -/

/-- SELECT.P reads only the operand it chooses. -/
def execSelectP (g : Guard) (sd : BitVec 5) (sa sb : Spec) (pt : BitVec 3) (s : State) :
    Host.Outcome State Fault Refusal :=
  guarded s g fun t =>
    let x := if t.pred pt then sa else sb
    s.result (t.touch [x]) sd (t.val x) 1

/-- SELECT.NN takes the first token that is not null. -/
def execSelectNN (g : Guard) (sd : BitVec 5) (ia ib : BitVec 2) (pt : BitVec 3) (s : State) :
    Host.Outcome State Fault Refusal :=
  guarded s g fun t =>
    if (t.inTok ia).pred ≠ .null then s.result ((t.touch [.inp ia]).setPred pt true) sd (t.inTok ia).payload 1
    else if (t.inTok ib).pred ≠ .null then s.result ((t.touch [.inp ib]).setPred pt false) sd (t.inTok ib).payload 1
    else s.result (t.setPred pt false) sd 0 1

/-! ## Tags (17:R250) -/

/-- The context has a LOOPB node: its configuration and its index in the NODE section. -/
def State.loopbSpec (s : State) (ctx : BitVec 10) : Option (Nat × NodeSpec) :=
  (s.cfgs.filterMap fun (k, c) =>
    if k / 65536 = ctx.toNat then
      (c.spec.nodes.find? fun n => n.role = .loopb).map fun n => (k % 65536, n)
    else none).head?

/-- Where the agent of a hall finds the context's LOOPB node (23:R336). -/
def State.loopbSeen (s : State) (h : Nat) (ctx : BitVec 10) : Option Place :=
  (s.loopbSpec ctx).bind fun x => s.resolve h ctx x.1 x.2.gid

/-- Where the context's LOOPB node is placed. -/
def State.loopbPlace (s : State) (ctx : BitVec 10) : Option Place :=
  match s.loopbSpec ctx with
  | none => none
  | some (cfg, n) => (s.cfg ctx cfg).bind fun c => c.place n.gid

/-- Iteration `t` lies in the live window of a LOOPB node (05:R75). -/
def Node.liveTag (n : Node) (t : Nat) : Bool := decide ((t + 4096 - n.loopBase) % 4096 < n.window)

def execTagget (g : Guard) (sd : BitVec 5) (s : State) : Host.Outcome State Fault Refusal :=
  guarded s g fun t => s.result t sd (BitVec.ofNat 64 (t.ctx.toNat * 4096 + t.sendIter.toNat)) 1

/-- TAGSET once the window is known (17:R250). -/
def State.setTag (s : State) (t : Task) (a : Word) (live : Bool) : State :=
  if live then s.complete { t with sendIter := a.truncate 12 }
  else s.raise t Cause.tagWindow (a.toNat % 4096) a.toNat

/-- TAGSET: a context without a LOOPB node has the window of tag 0; the window of a node on the same cell is known at
once, and another cell's answer is awaited. -/
def execTagset (g : Guard) (sa : Spec) (s : State) : Host.Outcome State Fault Refusal :=
  guarded s g fun t =>
    let a := t.val sa
    let u := t.touch [sa]
    match s.loopbSpec t.ctx with
    | none => s.setTag u a (decide (a.toNat % 4096 = 0))
    | some _ =>
      match s.loopbPlace t.ctx with
      | some p =>
        if p.cell = s.focus.toNat then
          s.setTag u a (match s.node p.cell p.ver p.node with | some n => n.liveTag (a.toNat % 4096) | none => false)
        else
          let id := s.nextOpId
          (s.addOp ⟨0, 0, .tagset a, 0, 0, 0, .d, false⟩).park u (.op id)
      | none =>
        let id := s.nextOpId
        (s.addOp ⟨0, 0, .tagset a, 0, 0, 0, .d, false⟩).park u (.op id)

/-! ## The LOOPB window (17:R251, R252) -/

/-- The waves of a tag begin anew when the LOOPB node issues it again (07:R134; log entry 27). -/
def Node.newTag (n : Node) (ctx : BitVec 10) (tag : Nat) : Node :=
  { n with waveDone := n.waveDone.filter fun d => !(d.1 = ctx.toNat && d.2.1 = tag) }

def Version.newTag (v : Version) (ctx : BitVec 10) (tag : Nat) : Version :=
  { v with nodes := v.nodes.map fun n => n.newTag ctx tag }

/-- The LOOPB node of a task takes its next tag (17:R251). -/
def State.takeTag (s : State) (t : Task) (tag : Nat) : State :=
  let s := s.updNode s.focus.toNat t.ver t.node fun n => { n with loopNext := (tag + 1) % 4096 }
  { s with
    cells := s.cells.map fun x => (x.1, { x.2 with v0 := x.2.v0.newTag t.ctx tag, v1 := x.2.v1.newTag t.ctx tag })
    cfgs := s.cfgs.map fun x => (x.1, if x.1 / 65536 = t.ctx.toNat then
      { x.2 with saved := x.2.saved.map fun y => { y with nodes := y.nodes.map fun n => n.newTag t.ctx tag } } else x.2) }

/-- LOOPB.ISSUE once it has its tag: the send, then the result. -/
def State.sendTag (s : State) (t : Task) (sd : BitVec 5) (op : BitVec 2) (tok : Token) (tag : Nat) : State :=
  s.sendThen { t with taken := some tag } [(op.toNat, { tok with iter := BitVec.ofNat 12 tag })] fun s u =>
    s.result u sd (BitVec.ofNat 64 tag) 1

/-- LOOPB.ISSUE: on a LOOPB node, with the next tag once the window has room. The tag is taken before the send, which may
stall; a destination outside the declared scope takes none (00:R12). -/
def execLoopbIssue (g : Guard) (sd : BitVec 5) (op : BitVec 2) (sa : Spec) (pred : TPred) (aux : BitVec 9) (kind : TkKind)
    (s : State) : Host.Outcome State Fault Refusal :=
  guardedOr s g (fun t => s.sendThen t [(op.toNat, t.nullTok)] State.complete) fun t =>
    match s.node s.focus.toNat t.ver t.node with
    | none => s.raiseWord t Cause.protection
    | some n =>
      let u := t.touch [sa]
      let tok := u.tok (TkKind.tok kind) pred aux (t.val sa)
      if n.role ≠ .loopb || !s.portInUse t op.toNat then s.raiseWord t Cause.protection
      else
        match t.taken with
        | some tag => s.sendTag u sd op tok tag
        | none =>
          if n.window ≤ (n.loopNext + 4096 - n.loopBase) % 4096 then s.retry t (some 1)
          else
            match s.scopeOut ⟨s.focus.toNat, t.ver, t.node, op.toNat⟩ t.ctx with
            | some dst => s.raise u Cause.scope t.pc.toNat dst
            | none => (s.takeTag t n.loopNext).sendTag u sd op tok n.loopNext

/-- LOOPB.RETIRE: the retirement travels to the LOOPB node's cell; while the agent of the hall changes firmware the lookup
waits, and the retirement with it (25:R371). -/
def execLoopbRetire (g : Guard) (sa : Spec) (s : State) : Host.Outcome State Fault Refusal :=
  guarded s g fun t =>
    let a := t.val sa
    let u := t.touch [sa]
    match s.loopbSpec t.ctx with
    | none => s.raise u Cause.tagWindow (a.toNat % 4096) a.toNat
    | some _ =>
      let h := hallOf s.focus.toNat
      let dst := match s.loopbSeen h t.ctx with
        | some p => if (s.hall h).switching then s.focus.toNat else p.cell
        | none => s.focus.toNat
      let gid := match s.node s.focus.toNat t.ver t.node with | some n => n.gid | none => 0
      (s.send ⟨s.focus.toNat, dst, .retire t.ctx a (taskNode s.focus.toNat t) gid⟩).complete u

/-! ## Blocking (17:R253) -/

def execBlk (g : Guard) (rtag : BitVec 8) (s : State) : Host.Outcome State Fault Refusal :=
  guarded s g fun t =>
    match (s.version s.focus.toNat t.ver).bindings[rtag.toNat]? with
    | none => s.raiseWord t Cause.protection
    | some _ =>
      (s.updBinding s.focus.toNat t.ver rtag.toNat fun b => { b with blocked := true, fullSince := none }).complete t

/-- UNBLK: what the bit held back moves on. -/
def execUnblk (g : Guard) (rtag : BitVec 8) (s : State) : Host.Outcome State Fault Refusal :=
  guarded s g fun t =>
    match (s.version s.focus.toNat t.ver).bindings[rtag.toNat]? with
    | none => s.raiseWord t Cause.protection
    | some _ =>
      ((s.updBinding s.focus.toNat t.ver rtag.toNat fun b => { b with blocked := false }).complete t).drain s.focus.toNat
        t.ver rtag.toNat 17

/-! ## WAITT (17:R254) -/

/-- The first request of the task, in issue order, that has not completed and whose promise has passed. -/
def State.missedPromise (s : State) (t : Task) (a : Word) : Option Nat :=
  (t.requests.filterMap fun (h, id) =>
    ((((s.hall h).queues.flatMap (·.2)).find? fun r => r.id = id && decide (r.promise ≤ a.toNat)).map (·.promise))).head?

/-- WAITT once CYC has reached its operand: PROMISE_MISS, or the end of the wait. -/
def State.wakeAtTime (s : State) (t : Task) (a : Word) : State :=
  match s.missedPromise t a with
  | some p => s.raise t Cause.promiseMiss t.pc.toNat p
  | none => s.complete t

def execWaitt (g : Guard) (sa : Spec) (s : State) : Host.Outcome State Fault Refusal :=
  guarded s g fun t =>
    let a := t.val sa
    let u := t.touch [sa]
    if a ≤ s.cyc then s.wakeAtTime u a else s.park u (.waitt a)

/-! ## MSEND (17:R256) -/

/-- Opcodes that only the module sends. -/
def moduleOnly (op : Nat) : Bool := op = 0x0B || (decide (0x0D ≤ op) && decide (op ≤ 0x10)) || (decide (0x14 ≤ op) && decide (op ≤ 0x16))

/-- The MSG word of an MSEND. -/
def msendMsg (t : Task) (a b : Word) : Msg :=
  { dst := a.truncate 18, poison := t.taint, ver := t.ver, op := BitVec.ofNat 6 (a.toNat / 2 ^ 18)
    handler := BitVec.ofNat 8 (a.toNat / 2 ^ 24), ccell := BitVec.ofNat 18 (a.toNat / 2 ^ 32)
    ctag := BitVec.ofNat 8 (a.toNat / 2 ^ 50), operand := b }

/-- MSEND: a release, then the message stands in the outbound queue. -/
def execMsend (g : Guard) (sa sb : Spec) (s : State) : Host.Outcome State Fault Refusal :=
  guarded s g fun t =>
    let u := t.touch [sa, sb]
    let a := t.val sa
    let m := msendMsg u a (t.val sb)
    let c := s.focus.toNat
    if moduleOnly m.op.toNat then s.raise t Cause.protection t.pc.toNat a.toNat
    else if s.releaseStalls c then s.retry t none true
    else if 16 ≤ s.cell0.outq.length then s.retry t (some 1)
    else
      s.beforeRelease t fun s =>
        ((s.release c t.node (scopeBetween c m.dst.toNat)).updCell0 fun x =>
          { x with outq := x.outq ++ [⟨c, m.dst.toNat, .msg m t.ctx none⟩] }).complete u

end Sys2Proof.Machine
end

