-- ==== Sys2Proof/Machine/MemoryInstr.lean ====
section
/-! DEFINITION. Class ME and WAITF: loads, stores, waves, presence, scopes, promotion requests, the L1 instructions and
SPLIT (17:R255, R258 to R269). -/

namespace Sys2Proof.Machine

/-! ## The access (17:R258) -/

/-- Two runs of bytes meet. -/
def meets (a n b m : Nat) : Bool := decide (a < b + m) && decide (b < a + n)

/-- An access of the task waits: a scoped load before it, or a load or atomic of the same bytes, is outstanding
(07:R112, 17:R261). -/
def State.mustOrder (s : State) (pa n : Nat) : Bool :=
  s.acquiring || s.taskOps.any fun o =>
    match o.kind with
    | .load none none | .atomic _ _ _ none => meets o.pa (sizeBytes o.size) pa n
    | _ => false

/-- The node's address port holds an access (21:R318, 23:R347). -/
def State.portHeld (s : State) (t : Task) : Bool :=
  match s.node s.focus.toNat t.ver t.node with | some n => n.heldSince.isSome | none => false

/-- A line that the task's own L1 maintenance still writes back (17:R267). -/
def State.lineBusy (s : State) (u : Task) (pa : Nat) : Bool :=
  u.l1Wait.any fun x => x.1 = lineOf pa && decide (s.now < x.2)

/-- An access of the task: the checks of R258, the walk that it may need, the waiting, and then what follows with the
physical address. `u` is the task after it has read its sources. -/
def State.access (s : State) (u : Task) (va : Word) (n : Nat) (k : Access) (write : Bool) (f : Nat → State) : State :=
  match s.checkAccess u va n k write with
  | .bad cause addr info => s.raise u cause addr info
  | .miss => if s.portHeld u then s.retry u (some 3) else s.missTask u va write
  | .ok pa =>
    if s.portHeld u then s.retry u (some 3)
    else if s.mustOrder pa n || s.lineBusy u pa then s.retry u none
    else s.usedLeaf u va.toNat (f pa)

/-- The access of a tainted task's write: it writes nothing and the node takes POISON_SINK (17:R258, 21:R326). -/
def State.sinkWrite (s : State) (t : Task) (va : Nat) : State := 
  s.poisonSink { taskNode s.focus.toNat t with iter := t.sendIter } va 1 2

/-! ## Loads (17:R244, R260, R261) -/

/-- A load becomes an outstanding operation of the task; a seventeenth waits (17:R244). -/
def State.loadOp (s : State) (u : Task) (kind : OpKind) (sd : BitVec 5) (pa : Nat) (va : Word) (z : Size) (sx : Bool) :
    State :=
  if s.opsFull then s.retry u none
  else (s.addOp ⟨0, 0, kind, sd, pa, va, z, sx⟩).complete (u.await sd)

def execLd (g : Guard) (sd : BitVec 5) (sa : Spec) (size : Size) (sx : Bool) (s : State) :
    Host.Outcome State Fault Refusal :=
  guarded s g fun t =>
    let u := t.touch [sa]
    s.access u (t.val sa) (sizeBytes size) .plain false fun pa =>
      s.loadOp u (.load none none) sd pa (t.val sa) size sx

/-- LDA at a scope: the load and its acquire. -/
def execLda (g : Guard) (scope : Scope) (sd : BitVec 5) (sa : Spec) (size : Size) (sx : Bool) (s : State) :
    Host.Outcome State Fault Refusal :=
  guarded s g fun t =>
    let u := t.touch [sa]
    s.access u (t.val sa) (sizeBytes size) .plain false fun pa =>
      s.loadOp u (.load (some scope) none) sd pa (t.val sa) size sx

/-! ## Stores (17:R260, R261) -/

def execSt (g : Guard) (sa sb : Spec) (size : Size) (s : State) : Host.Outcome State Fault Refusal :=
  guarded s g fun t =>
    let u := t.touch [sa, sb]
    s.access u (t.val sa) (sizeBytes size) .plain true fun pa =>
      if u.taint then (s.sinkWrite u (t.val sa).toNat).complete u
      else (s.storePlain s.focus.toNat pa (sizeBytes size) (t.val sb).toNat (some (taskNode s.focus.toNat u))).complete u

/-- STR: the release, then its own write at the scope's point; a tainted task's write is left out. -/
def execStr (g : Guard) (scope : Scope) (sa sb : Spec) (size : Size) (s : State) :
    Host.Outcome State Fault Refusal :=
  guarded s g fun t =>
    let u := t.touch [sa, sb]
    let c := s.focus.toNat
    s.access u (t.val sa) (sizeBytes size) .plain true fun pa =>
      if s.releaseStalls c then s.retry u none true
      else if s.hostPending c scope then s.retry u none
      else
        s.beforeRelease u fun s =>
          let s := s.release c u.node scope
          if u.taint then (s.sinkWrite u (t.val sa).toNat).complete u
          else (s.storeAt c pa (sizeBytes size) (t.val sb).toNat scope (some (taskNode c u))).complete u

/-- FENCE: a release and then an acquire, once every load before it has returned and its presence stores have reached their
homes (17:R262; 07:R113; 08:R140). -/
def execFence (g : Guard) (scope : Scope) (s : State) : Host.Outcome State Fault Refusal :=
  guarded s g fun t =>
    let c := s.focus.toNat
    if s.releaseStalls c then s.retry t none true
    else if s.hostPending c scope || !s.taskOps.isEmpty || s.presencePending (taskNode c t) then s.retry t none
    else ((s.release c t.node scope).acquire c scope).complete t

/-! ## Waves (17:R260; 07:R134, R135; 21:R313) -/

/-- The memory interface of a task's configuration: its first LOADER and its first STORER are declared, and the storer
is placed (21:R313). -/
def State.waveInterface (s : State) (t : Task) : Option Place :=
  match (s.version s.focus.toNat t.ver).owner with
  | none => none
  | some (ctx, i) =>
    (s.cfg ctx i).bind fun c =>
      if c.spec.nodes.any (·.role = .loader) then
        (c.spec.nodes.find? (·.role = .storer)).bind fun n => c.place n.gid
      else none

/-- A wave token reaches the interface: it waits there for its turn in the wave. -/
def State.sendWave (s : State) (p : Place) (w : WaveOp) : State :=
  s.updNode p.cell p.ver p.node fun n => { n with waves := n.waves ++ [w] }

/-- A wave form: the token is sent as a release. A failed guard sends a null token that fills the slot. DESIGN CHOICE (log
entry 27): a node without a memory interface raises PROTECTION whether or not the guard holds. -/
def waveOp (s : State) (g : Guard) (store : Bool) (sd : BitVec 5) (sa : Spec) (sb : Option Spec) (size : Size)
    (sx : Bool) (ws wp wq : BitVec 8) : Host.Outcome State Fault Refusal :=
  onTask s fun t =>
    let live := t.holds g
    let u := if live then t.touch (sa :: sb.toList) else t
    let a := t.val sa
    match s.waveInterface t with
    | none => s.raise u Cause.protection a.toNat (s.curWord t).toNat
    | some p =>
      let c := s.focus.toNat
      if live && decide (a.toNat % sizeBytes size ≠ 0) then s.raise u Cause.align a.toNat (s.curWord t).toNat
      else if live && decide (2 ^ 52 ≤ a.toNat) then s.raise u Cause.translation a.toNat a.toNat
      else if s.releaseStalls c then s.retry u none true
      else if live && !store && s.opsFull then s.retry u none
      else
        s.beforeRelease u fun s =>
          let load := live && !store
          let w : WaveOp :=
            { ctx := t.ctx, iter := t.sendIter, ws := ws.toNat, wp := wp.toNat, wq := wq.toNat, null := !live
              poison := u.taint, store := store, addr := a, data := match sb with | some x => t.val x | none => 0
              size := size, sx := sx, source := taskNode c t, op := if load then some (c, s.nextOpId) else none
              word := s.curWord t }
          let s := (s.release c t.node (scopeBetween c p.cell)).sendWave p w
          if load then (s.addOp ⟨0, 0, .wave none, sd, 0, a, size, sx⟩).complete (u.await sd) else s.complete u

def execLdWave (g : Guard) (sd : BitVec 5) (sa : Spec) (size : Size) (sx : Bool) (ws wp wq : BitVec 8) (s : State) :
    Host.Outcome State Fault Refusal := waveOp s g false sd sa none size sx ws wp wq

def execStWave (g : Guard) (sa sb : Spec) (size : Size) (ws wp wq : BitVec 8) (s : State) :
    Host.Outcome State Fault Refusal := waveOp s g true 0 sa (some sb) size false ws wp wq

/-! ## Presence (17:R264, R265; 07:R108, R109) -/

/-- The hall agent's place in the net: the first cell of the hall. -/
def agentCell (h : Nat) : Nat := h * 0x8000

/-- LDP: the load travels to the word's home. -/
def execLdp (g : Guard) (sd : BitVec 5) (sa : Spec) (s : State) : Host.Outcome State Fault Refusal :=
  guarded s g fun t =>
    let u := t.touch [sa]
    s.access u (t.val sa) 8 .presence false fun pa =>
      if s.opsFull then s.retry u none
      else
        let id := s.nextOpId
        ((s.addOp ⟨0, 0, .pres none, sd, pa, t.val sa, .d, false⟩).send
          ⟨s.focus.toNat, agentCell (homeHall (lineOf pa)), .presLoad pa s.focus.toNat id⟩).complete (u.await sd)

/-- STP: the store travels to the word's home; it is not awaited. -/
def execStp (g : Guard) (sa sb : Spec) (s : State) : Host.Outcome State Fault Refusal :=
  guarded s g fun t =>
    let u := t.touch [sa, sb]
    s.access u (t.val sa) 8 .presence true fun pa =>
      if u.taint then (s.sinkWrite u (t.val sa).toNat).complete u
      else
        (s.send ⟨s.focus.toNat, agentCell (homeHall (lineOf pa)),
          .presStore pa (t.val sa) (t.val sb) (taskNode s.focus.toNat t)⟩).complete u

/-- Word `w` of a row. -/
def rowWord (r : Row) (w : Nat) : Word := BitVec.ofNat 64 (r.toNat / 2 ^ (64 * w))

/-- A row with one word written. -/
def setRowWord (r : Row) (w : Nat) (v : Word) : Row :=
  (r &&& ~~~(BitVec.ofNat 1024 ((2 ^ 64 - 1) * 2 ^ (64 * w)))) ||| BitVec.ofNat 1024 (v.toNat * 2 ^ (64 * w))

/-- The bank presence word that a scalar names: row and word (17:R265). -/
def presRow (a : Word) : Nat := a.toNat % 512
def presWord (a : Word) : Nat := a.toNat / 512 % 16

/-- LDPR: a full word answers, an empty one defers the load; the list holds sixteen (07:R109, 17:R265). -/
def execLdpr (g : Guard) (sd : BitVec 5) (sa : Spec) (s : State) : Host.Outcome State Fault Refusal :=
  guarded s g fun t =>
    let u := t.touch [sa]
    let r := presRow (t.val sa)
    let w := presWord (t.val sa)
    let c := s.cell0
    if s.acquiring || c.inTheWay s.now [.row r] [] then s.retry u none
    else if c.rowForbidden r then s.raise u Cause.protection r (s.curWord t).toNat
    else if s.opsFull then s.retry u none
    else
      let id := s.nextOpId
      let op (v : Option (Word × Bool)) : State := s.addOp ⟨0, 0, .presBank v.isNone v, sd, 0, t.val sa, .d, false⟩
      if tgetD c.bankFull false (16 * r + w) then
        (op (some (rowWord (c.row r) w, c.rowPoisoned r))).complete (u.await sd)
      else if 16 ≤ c.deferred.length then s.retry u (some 0)
      else
        ((op none).updCell0 fun c => { c with deferred := c.deferred ++ [(16 * r + w, s.focus.toNat, id)] }).complete
          (u.await sd)

/-- The deferred loads of a full bank word have their value; they return in the order of their deferral (07:R108). -/
def Cell.wakeDeferred (c : Cell) (k : Nat) (v : Word) (poison : Bool) : Cell :=
  let ids := (c.deferred.filter fun d => d.1 = k).map fun d => d.2.2
  { c with
    deferred := c.deferred.filter fun d => d.1 ≠ k
    ops := c.ops.map fun o => if ids.contains o.id then { o with kind := .presBank true (some (v, poison)) } else o }

/-- A presence store to an empty bank word (07:R108, 17:R265). -/
def Cell.presStore (c : Cell) (r w : Nat) (v : Word) (taint : Bool) : Cell :=
  let c := c.setRow r (setRowWord (c.row r) w v)
  let c := if taint then c.setRowPoison r true else c
  let c := { c with bankFull := tset c.bankFull false (16 * r + w) true }
  c.wakeDeferred (16 * r + w) v (c.rowPoisoned r)

/-- STPR: an empty word is written and is full; a full one raises PRESENCE_REWRITE against the writer. -/
def execStpr (g : Guard) (sa sb : Spec) (s : State) : Host.Outcome State Fault Refusal :=
  guarded s g fun t =>
    let u := t.touch [sa, sb]
    let r := presRow (t.val sa)
    let w := presWord (t.val sa)
    let c := s.cell0
    if s.acquiring || c.inTheWay s.now [] [.row r] then s.retry u none
    else if c.rowForbidden r then s.raise u Cause.protection r (s.curWord t).toNat
    else if tgetD c.bankFull false (16 * r + w) then
      (s.nodeFault (taskNode s.focus.toNat t) Cause.presenceRewrite (t.val sa).toNat (t.val sb).toNat).complete u
    else (s.updCell0 fun c => c.presStore r w (t.val sb) u.taint).complete u

/-! ## LDA.PROM (17:R263; 07:R123) -/

/-- The configuration of a context that holds a node of its graph. -/
def State.cfgWith (s : State) (ctx : BitVec 10) (gid : Nat) : Option CfgRt :=
  (s.cfgs.find? fun x => x.1 / 65536 = ctx.toNat && x.2.spec.nodes.any (·.gid = gid)).map (·.2)

/-- The cell that the agent of a hall finds for a promotion's target (07:R123). -/
def State.promCell (s : State) (h : Nat) (ctx : BitVec 10) (gid : Nat) : Option Nat :=
  (s.cfgWith ctx gid).bind fun c => ((c.copy h).find? (·.gid = gid)).map (·.cell)

/-- The scope of the release that a promotion's request is: the smallest that contains requester and target, or with no
such cell requester and agent (07:R118). -/
def State.promScope (s : State) (c : Nat) (r : PromReq) : Scope :=
  match s.promCell (hallOf c) r.ctx r.target with
  | some d => scopeBetween c d
  | none => scopeBetween c (agentCell (hallOf c))

/-- LDA.PROM: the request, a release, goes to the hall agent of this hall, and the task waits for the reply. -/
def execLdaProm (g : Guard) (sd : BitVec 5) (sa sb : Spec) (size : Size) (sx : Bool) (s : State) :
    Host.Outcome State Fault Refusal :=
  guarded s g fun t =>
    let u := t.touch [sa, sb]
    let b := t.val sb
    s.access u (t.val sa) (sizeBytes size) .plain false fun pa =>
      if s.opsFull then s.retry u none
      else
        let c := s.focus.toNat
        let id := s.nextOpId
        let r : PromReq := ⟨c, id, b.truncate 10, b.toNat / 2 ^ 10 % 2 ^ 16⟩
        if s.releaseStalls c then s.retry u none true
        else
          s.beforeRelease u fun s =>
            (((s.release c u.node (s.promScope c r)).addOp ⟨0, 0, .prom false false, sd, pa, b, size, sx⟩).send
              ⟨c, agentCell (hallOf c), .promLookup r⟩).park (u.await sd) (.op id)

/-! ## The L1 instructions (17:R266, R267) -/

/-- A line form: it acts where the address translates to ORD memory, and does nothing where it fails a check. -/
def lineOp (s : State) (g : Guard) (sa : Spec) (f : State → Task → Nat → Nat → State) :
    Host.Outcome State Fault Refusal :=
  guarded s g fun t =>
    let u := t.touch [sa]
    let a := t.val sa
    match s.checkAccess u a 1 .plain false with
    | .bad _ _ _ => s.complete u
    | .miss => s.missTask u a false
    | .ok pa =>
      if isHost pa then s.complete u
      else if s.acquiring || s.lineBusy u pa then s.retry u none
      else s.usedLeaf u a.toNat (f s u s.focus.toNat (lineOf pa))

/-- L1 maintenance: each dirty line among those it names takes the L1 port for two cycles, in order, and the task's own
accesses to that line wait for it (17:R267). -/
def State.maintain (s : State) (u : Task) (lns : List Nat) (f : State → State) : State :=
  let c := s.focus.toNat
  let dirty := lns.filter fun ln => !(s.l1Line c ln).dirty.isEmpty
  let start := max s.now s.cell0.l1Until
  let busy := dirty.mapIdx fun i ln => (ln, start + 2 * (i + 1))
  let s := f s
  (if dirty.isEmpty then s else s.updCell0 fun x => { x with l1Until := start + 2 * dirty.length }).complete
    { u with l1Wait := busy ++ u.l1Wait.filter fun x => decide (s.now < x.2) }

/-- The lines of the cell's L1. -/
def State.l1All (s : State) : List Nat := s.cell0.l1.map (·.1)

/-- PREF brings the line into L1; a cell without L1 has nowhere to bring it. -/
def execPref (g : Guard) (sa : Spec) (s : State) : Host.Outcome State Fault Refusal :=
  lineOp s g sa fun s u c ln => (if (s.cell c).split = 0 then s else (s.cellRow c ln).1).complete u

def execL1Wb (g : Guard) (sa : Spec) (s : State) : Host.Outcome State Fault Refusal :=
  lineOp s g sa fun s u c ln => s.maintain u [ln] fun s => s.cleanL1 c ln

def execL1Inv (g : Guard) (sa : Spec) (s : State) : Host.Outcome State Fault Refusal :=
  lineOp s g sa fun s u c ln => s.maintain u [ln] fun s => (s.cleanL1 c ln).setL1 c ln {}

def execL1WbAll (g : Guard) (s : State) : Host.Outcome State Fault Refusal :=
  guarded s g fun t =>
    if s.acquiring then s.retry t none else s.maintain t s.l1All fun s => s.cleanAllL1 s.focus.toNat

def execL1InvAll (g : Guard) (s : State) : Host.Outcome State Fault Refusal :=
  guarded s g fun t =>
    if s.acquiring then s.retry t none else s.maintain t s.l1All fun s => s.flushL1 s.focus.toNat

/-! ## SPLIT (17:R268; 07:R100) -/

/-- Rows of an L1 of `n` steps. -/
def l1Rows (n : Nat) : List Nat := (upTo (64 * n)).map fun i => 448 - 64 * n + i

/-- The split changes: L1 is written back and emptied, and rows that become scratchpad are zero (07:R100). -/
def State.changeSplit (s : State) (c n : Nat) : State :=
  (s.flushL1 c).updCell c fun x =>
    let old := x.split.toNat
    let x := ((l1Rows old).filter fun r => !(l1Rows n).contains r).foldl (fun x r => x.setRow r 0) x
    { x with split := BitVec.ofNat 3 n }

/-- SPLIT with the value `a`: its checks, its waiting, and the change with its time. -/
def State.splitTo (s : State) (t : Task) (a : Nat) : State :=
  let c := s.cell0
  if 4 < a then s.raiseWord t Cause.reservedField
  else
    match (l1Rows a).find? c.engineRow with
    | some r => s.raise t Cause.protection r (s.curWord t).toNat
    | none =>
      if c.inTheWay s.now [] ((l1Rows (max a c.split.toNat)).map .row) then s.retry t none
      else
        let dirty := (c.l1.filter fun x => !x.2.dirty.isEmpty).length
        (s.changeSplit s.focus.toNat a).completeIn t (4 + 2 * dirty)

def execSplit (g : Guard) (sa : Spec) (s : State) : Host.Outcome State Fault Refusal :=
  guarded s g fun t => s.splitTo (t.touch [sa]) (t.val sa).toNat

/-! ## WAITF (17:R255) -/

/-- The condition of WAITF. -/
def waitHolds (c : WaitCond) (v b : Word) : Bool :=
  match c with
  | .ne => v ≠ b
  | .eq => v = b
  | .geu => b ≤ v

/-- One read of a WAITF: the wait ends with the value and an acquire, or the task stays parked. -/
def State.waitRead (s : State) (t : Task) (c : WaitCond) (scope : Scope) (sd : BitVec 5) (pa : Nat) (b : Word)
    (k : State → Task → Wait → State) : State :=
  let cell := s.focus.toNat
  let (s', v) := s.readAt cell pa 8 (some scope)
  let s' := s'.raiseOffline (some (taskNode cell t)) pa
  let v := BitVec.ofNat 64 v
  let t := { t with taint := t.taint || s'.readPoison cell pa (some scope) }
  if waitHolds c v b then (s'.acquire cell scope).complete (t.setReg sd v)
  else k s' t (.waitf c scope sd pa (isHost pa) b s.now)

def execWaitf (g : Guard) (c : WaitCond) (scope : Scope) (sd : BitVec 5) (sa sb : Spec) (s : State) :
    Host.Outcome State Fault Refusal :=
  guarded s g fun t =>
    let u := t.touch [sa, sb]
    s.access u (t.val sa) 8 .plain false fun pa => s.waitRead u c scope sd pa (t.val sb) State.park

end Sys2Proof.Machine
end

