-- ==== Sys2Proof/Machine/Descriptor.lean ====
section
/-! DEFINITION. Descriptors: their image, their patterns and checks, descriptor order (19:R283 to R285), and the rows
that engines and passes read and write (19:R280, R281; 21:R307, R310, R311, R315). -/

namespace Sys2Proof.Machine

/-! ## The image (19:R283) -/

/-- One side of a descriptor: kind 0 NONE, 1 VIRT, 2 BANK; range; element offset and stride. -/
structure Side where
  kind : Nat
  base : Nat
  len : Nat
  off : Nat
  stride : Nat
deriving DecidableEq, Repr

structure Desc where
  record : Nat
  index : Nat
  d : Side
  s : Side
  padL : Nat
  padR : Nat
  elems : Nat
  slices : Nat
  fmt : Nat
  w : Nat
  dir : Bool
  dmask : Nat
deriving DecidableEq, Repr

/-- Word `k` of an image. -/
def imageWord (x : Row) (k : Nat) : Nat := bitsOf x.toNat (64 * k) 64

def descOf (x : Row) : Desc :=
  let c := imageWord x 0
  { record := imageWord x 12, index := imageWord x 11
    d := ⟨bitsOf c 33 2, imageWord x 7, imageWord x 8, imageWord x 9, imageWord x 10⟩
    s := ⟨bitsOf c 35 2, imageWord x 3, imageWord x 4, imageWord x 5, imageWord x 6⟩
    padL := bitsOf (imageWord x 2) 24 24, padR := bitsOf (imageWord x 2) 0 24
    elems := imageWord x 1, slices := bitsOf c 48 8 + 1, fmt := bitsOf c 43 5, w := bitsOf c 38 5 + 1
    dir := bitsOf c 37 1 = 1, dmask := bitsOf c 0 32 }

/-- Bits above the widths of R283. -/
def descReserved (x : Row) (d : Desc) : Bool :=
  let wide (v n : Nat) : Bool := decide (2 ^ n ≤ v)
  let side (s : Side) : Bool :=
    wide s.base (if s.kind = 2 then 27 else 52) || wide s.len 48 || wide s.off 48 || wide s.stride 48
  decide (x.toNat / 2 ^ 832 ≠ 0) || wide d.record 52 || wide d.index 52 || side d.d || side d.s
    || wide (imageWord x 2) 48 || wide d.elems 40 || bitsOf (imageWord x 0) 56 8 ≠ 0 || bitsOf (imageWord x 0) 32 1 ≠ 0

/-- Rows of a group on a PMG side (15:R223). -/
def Desc.p (d : Desc) : Nat := groupRows d.fmt d.w

/-- Set bits of a mask. -/
def maskBits (m : Nat) : List Nat := (upTo 32).filter fun i => m / 2 ^ i % 2 = 1

/-- Rows of a group on a side: the destination holds the planes of dmask. -/
def Desc.rowsOf (d : Desc) (dst : Bool) : Nat := if dst && d.dmask ≠ 0 then (maskBits d.dmask).length else d.p

def Desc.side (d : Desc) (dst : Bool) : Side := if dst then d.d else d.s

/-- Planes visited in a group: those of a pass's mask, those of dmask, or all. -/
def Desc.planes (d : Desc) (dst : Bool) (mask : Nat) : List Nat :=
  if mask ≠ 0 then (maskBits mask).filter (· < d.p)
  else if dst && d.dmask ≠ 0 then maskBits d.dmask
  else upTo d.p

/-- Row of a plane within its group. -/
def Desc.rank (d : Desc) (dst : Bool) (plane : Nat) : Nat :=
  if dst && d.dmask ≠ 0 then ((maskBits d.dmask).filter (· < plane)).length else plane

/-- First valid element of slice `i` as the affine pattern gives it. -/
def Desc.start (d : Desc) (dst : Bool) (i : Nat) : Nat := (d.side dst).off + i * (d.side dst).stride

/-- Elements of a slice that starts at `a`, pads included on the destination: first, and one past the last. -/
def Desc.span (d : Desc) (dst : Bool) (a : Nat) : Nat × Nat :=
  if dst then (a - d.padL, a + d.elems + d.padR) else (a, a + d.elems)

/-- Bytes of an element in element-major form (19:R286). -/
def Desc.elemBytes (d : Desc) : Nat := if d.p ≤ 8 then 1 else if d.p ≤ 16 then 2 else 4

/-- Rows of a side that a slice needs, in element-major layout or in PMG (19:R283, R286). -/
def Desc.need (d : Desc) (dst em : Bool) (a : Nat) : Nat :=
  let (_, hi) := d.span dst a
  if em then (hi * d.elemBytes - 1) / 128 + 1 else ((hi - 1) / 1024 + 1) * d.rowsOf dst

/-- A slice lies within its range in the layout given (07:R110, 19:R285). -/
def Desc.inLayout (d : Desc) (dst em : Bool) (a : Nat) : Bool :=
  let need := d.need dst em a
  (!dst || decide (d.padL ≤ a)) && decide ((if (d.side dst).kind = 1 then need * 128 else need) ≤ (d.side dst).len)

/-- A slice lies within its range (07:R110, 19:R285). The source of a descriptor with dir 1 is element-major; the other
sides are taken in PMG, the layout of R283's formulas, and a TE.TRANSPOSE that makes a destination element-major checks
it when it issues (DEDUCED, log entry 27). -/
def Desc.inRange (d : Desc) (dst : Bool) (a : Nat) : Bool := d.inLayout dst (d.dir && !dst) a

/-- Groups that a slice covers. -/
def Desc.groups (d : Desc) (dst : Bool) (a : Nat) : Nat :=
  let (lo, hi) := d.span dst a
  (hi - 1) / 1024 - lo / 1024 + 1

/-- Rows that descriptor order visits on a side (19:R284). -/
def Desc.count (d : Desc) (dst : Bool) (mask : Nat) (starts : List Nat) : Nat :=
  (starts.map fun a => d.groups dst a * (d.planes dst mask).length).foldl (· + ·) 0

/-- Starts of every slice of the affine pattern. -/
def Desc.starts (d : Desc) (dst : Bool) : List Nat := (upTo d.slices).map (d.start dst)

/-- Pad elements of one slice meet valid elements of another (19:R285). -/
def Desc.overlap (d : Desc) (starts : List Nat) : Bool :=
  let at_ (i : Nat) : Nat := starts.getD i 0
  let hit (lo hi b : Nat) : Bool := decide (lo < hi) && decide (lo < b + d.elems) && decide (b < hi)
  (upTo starts.length).any fun i => (upTo starts.length).any fun j =>
    i ≠ j && (hit (at_ i - d.padL) (at_ i) (at_ j) || hit (at_ i + d.elems) (at_ i + d.elems + d.padR) (at_ j))

/-! ## The checks of TE.DESC (19:R285) -/

/-- The named cell holds a node of the context. -/
def State.holdsContext (s : State) (cell : Nat) (ctx : BitVec 10) : Bool :=
  [false, true].any fun v =>
    match (s.version cell v).cfgOf with
    | some (x, _) => x = ctx && !(s.version cell v).nodes.isEmpty
    | none => false

/-- A side that check 1 turns away. -/
def State.sideBad (s : State) (ctx : BitVec 10) (x : Side) : Bool :=
  match x.kind with
  | 0 => false
  | 1 => x.base % 128 ≠ 0 || x.len % 128 ≠ 0
  | 2 =>
    let first := x.base / 2 ^ 18 % 512
    let c := s.cell (x.base % 2 ^ 18)
    decide (512 < first + x.len) || (rowRun first x.len).any c.rowTaken || !s.holdsContext (x.base % 2 ^ 18) ctx
  | _ => true

/-- What TE.DESC raises for an image. -/
def State.descFault (s : State) (ctx : BitVec 10) (x : Row) : Option Nat :=
  let d := descOf x
  firstBad
    [(descReserved x d || d.elems = 0 || d.s.kind = 3 || d.d.kind = 3 || d.record % 16 ≠ 0 || d.index % 4 ≠ 0
        || s.sideBad ctx d.s || s.sideBad ctx d.d, Cause.desc),
     (!fmtCodeOk (BitVec.ofNat 5 d.fmt), Cause.format),
     ((!isIntFmt d.fmt && d.w ≠ 1) || decide (2 ^ d.p ≤ d.dmask), Cause.planeDecl),
     ((d.s.kind ≠ 0 && !(d.starts false).all (d.inRange false)) || (d.d.kind ≠ 0 && !(d.starts true).all (d.inRange true))
        || decide (2 ^ 32 ≤ (if d.d.kind ≠ 0 then d.count true 0 (d.starts true)
            else if d.s.kind ≠ 0 then d.count false 0 (d.starts false) else 0)), Cause.desc),
     (d.d.kind ≠ 0 && d.overlap (d.starts true), Cause.descOverlap)]

/-- The number of rows that TE.DESC answers. -/
def Desc.rows (d : Desc) : Nat :=
  if d.d.kind ≠ 0 then d.count true 0 (d.starts true) else if d.s.kind ≠ 0 then d.count false 0 (d.starts false) else 0

/-! ## Descriptor order (19:R284) -/

/-- One row of descriptor order: slice, its first valid element, group and plane. -/
structure RowStep where
  slice : Nat
  start : Nat
  group : Nat
  plane : Nat
deriving DecidableEq, Repr

/-- Row `k` of descriptor order, from the slices with their starts. -/
def Desc.stepAt (d : Desc) (dst : Bool) (planes : List Nat) : List (Nat × Nat) → Nat → Option RowStep
  | [], _ => none
  | (i, a) :: r, k =>
    let n := d.groups dst a * planes.length
    if k < n then
      some ⟨i, a, (d.span dst a).1 / 1024 + k / planes.length, planes.getD (k % planes.length) 0⟩
    else d.stepAt dst planes r (k - n)

/-- The steps of descriptor order from row `k` on. -/
def Desc.rest (d : Desc) (dst : Bool) (planes : List Nat) (starts : List (Nat × Nat)) (k : Nat) : List RowStep :=
  let n := (starts.map fun x => d.groups dst x.2 * planes.length).foldl (· + ·) 0
  (upTo (n - k)).filterMap fun i => d.stepAt dst planes starts (k + i)

/-- Slices of a pass with their starts on its side: those of the index table where it has one (21:R312). -/
def Pass.starts (p : Pass) (d : Desc) (dst : Bool) : List (Nat × Nat) :=
  (upTo d.slices).map fun i => (i, if p.ind then tgetD p.offs 0 i else d.start dst i)

/-- Slices of a request with their starts on a side; those of the index table once they are read (19:R286). -/
def Request.starts (r : Request) (d : Desc) (dst : Bool) : List (Nat × Nat) :=
  (upTo d.slices).map fun i =>
    (i, if (dst && r.kind = .scatter) || (!dst && r.kind = .gather) then tgetD r.offs 0 i else d.start dst i)

/-- The lanes of a group that lie in a run of elements: first, and one past the last. -/
def lanesIn (g lo hi : Nat) : Nat × Nat := (max lo (1024 * g) - 1024 * g, min hi (1024 * (g + 1)) - 1024 * g)

/-- Lanes `a` to `b - 1`. -/
def laneRun (a b : Nat) : Row := BitVec.ofNat 1024 ((2 ^ (b - a) - 1) * 2 ^ a)

/-- A row of a side: bank row of a cell, or virtual address. -/
inductive Loc where
  | bank (cell row : Nat)
  | virt (va : Nat)
deriving DecidableEq, Repr

/-- Row `k` of a side. -/
def Side.loc (x : Side) (k : Nat) : Loc :=
  if x.kind = 2 then .bank (x.base % 2 ^ 18) (x.base / 2 ^ 18 % 512 + k) else .virt (x.base + 128 * k)

/-- Row `k` lies within the side's range. -/
def Side.holds (x : Side) (k : Nat) : Bool := decide ((if x.kind = 2 then k + 1 else 128 * (k + 1)) ≤ x.len)

/-- The row of a step on its side. -/
def Desc.stepRow (d : Desc) (dst : Bool) (x : RowStep) : Nat := x.group * d.rowsOf dst + d.rank dst x.plane

/-! ## Reading and writing rows (19:R281; 21:R315, R316) -/

/-- Who translates: an edge cell through its own cache, or an engine through the hall walker's; the context, and what
a walk has granted. -/
structure Via where
  edge : Option Nat
  hall : Nat
  ctx : BitVec 10
  grant : Option Leaf := none
  by_ : Option NodeRef := none
  /-- hall and identity of the request -/
  request : Option (Nat × Nat) := none
deriving DecidableEq, Repr

/-- What a try gives: done, waiting for a bank region, no leaf yet, or a fault. -/
inductive Got (α : Type) where
  | ok (s : State) (a : α)
  | busy
  | miss (va : Nat) (write : Bool)
  | bad (cause addr : Nat)

def Got.bind {α β : Type} (g : Got α) (f : State → α → Got β) : Got β :=
  match g with
  | .ok s a => f s a
  | .busy => .busy
  | .miss va w => .miss va w
  | .bad c a => .bad c a

/-- Translation of an address of an engine, pass or wave operation. What a walk has granted a request was cached when the walk
ended, or not at all (21:R316, R317). With the DRAM in self-refresh there is none (27:R385). -/
def State.via (s : State) (v : Via) (va : Nat) (k : Access) (write : Bool) : Got (Nat × Leaf) :=
  if s.cp.fatal then .busy
  else if 2 ^ 52 ≤ va then .bad Cause.translation va
  else
    match (s.ctx v.ctx).root with
    | none => .miss va write
    | some r =>
      let own := match v.edge with | some c => (s.cell c).tlb | none => []
      match (v.grant.toList ++ own ++ (s.hall v.hall).wcache).find? (·.covers r va) with
      | none => .miss va write
      | some l =>
        let s := match v.edge with
          | some c =>
            let shared := !(v.grant.toList ++ own).any fun y => y = l
            (if shared then s.useShared v.hall l else s).updCell c fun x => { x with tlb := lruInsert x.tlb l 64 }
          | none => if v.grant = some l then s else s.useShared v.hall l
        if leafAdmits l va k write then .ok s (l.pa va, l) else .bad Cause.protection va

/-- Bytes within a line at a physical address, at the home or at the host, with poison. -/
def State.readPhys (s : State) (pa n : Nat) : Nat × Bool :=
  if isHost pa then (s.readHost (pa % 2 ^ 47) n, false)
  else (s.readHome pa n, (upTo ((pa + n - 1) / 32 - pa / 32 + 1)).any fun i => s.sectorPoisoned ((pa / 32 + i) * 32))

/-- A read of a node, or of none, at the home: it misses there, or finds the channel offline (27:R382; 28:R394). -/
def State.readNoted (s : State) (pa : Nat) (by_ : Option NodeRef) : State :=
  if isHost pa then s else (s.raiseOffline by_ pa).missHome pa

/-- Bytes within a line written at the home or at the host, poisoned or clean. -/
def State.writePhys (s : State) (pa n v : Nat) (poison : Bool) (by_ : Option NodeRef := none)
    (request : Option (Nat × Nat) := none) : State :=
  if isHost pa then
    { s.writeHost (pa % 2 ^ 47) n v with hostStores := s.hostStores ++ [{ addr := pa, node := by_, request := request }] }
  else
    let s := (s.raiseOffline by_ pa).writeHome pa n v
    if poison then
      each (upTo ((pa + n - 1) / 32 - pa / 32 + 1)) s fun s i => s.setSectorPoison ((pa / 32 + i) * 32) true
    else s

/-- A row that an engine or pass reads: a bank row of a region owned by ENGINE, or a memory row. -/
def State.rowIn (s : State) (v : Via) : Loc → Got (Row × Bool)
  | .bank c r => if (s.cell c).engineRow r then .ok s ((s.cell c).row r, (s.cell c).rowPoisoned r) else .busy
  | .virt va =>
    (s.via v va .copy false).bind fun s (pa, _) =>
      let (x, p) := s.readPhys pa 128
      .ok (s.readNoted pa v.by_) (BitVec.ofNat 1024 x, p)

/-- Lanes `a` to `b - 1` of a row as bytes: the first byte, how many, and their new contents. -/
def rowPatch (old x : Row) (a b : Nat) : Nat × Nat × Nat :=
  let m := laneRun a b
  let new := (old &&& ~~~m) ||| (x &&& m)
  (a / 8, (b + 7) / 8 - a / 8, new.toNat / 2 ^ (8 * (a / 8)))

/-- Lanes `a` to `b - 1` of a memory row written at a physical address. -/
def State.patchRow (s : State) (pa : Nat) (x : Row) (a b : Nat) (poison : Bool) (by_ : Option NodeRef := none)
    (request : Option (Nat × Nat) := none) : State :=
  let (j, n, v) := rowPatch (BitVec.ofNat 1024 (s.readPhys pa 128).1) x a b
  s.writePhys (pa + j) n v poison by_ request

/-- Lanes `a` to `b - 1` of a row that an engine or pass writes. -/
def State.rowOut (s : State) (v : Via) (l : Loc) (x : Row) (a b : Nat) (poison : Bool) (k : Access) : Got Leaf :=
  match l with
  | .bank c r =>
    if (s.cell c).engineRow r then
      .ok (s.updCell c fun y => y.putRow r x (laneRun a b) poison) ⟨0, 0, 0, 0, 0, true⟩
    else .busy
  | .virt va => (s.via v va k true).bind fun s (pa, l) => .ok (s.patchRow pa x a b poison v.by_ v.request) l

/-- `n` source elements from element `e` of one plane, at the low end: they lie in one group or two. -/
def State.bitsIn (s : State) (v : Via) (d : Desc) (plane e n : Nat) : Got (Nat × Bool) :=
  let row (g : Nat) : Loc := d.s.loc (g * d.p + plane)
  let off := e % 1024
  (s.rowIn v (row (e / 1024))).bind fun s (x, p) =>
    if off + n ≤ 1024 then .ok s (x.toNat / 2 ^ off % 2 ^ n, p)
    else
      (s.rowIn v (row (e / 1024 + 1))).bind fun s (y, q) =>
        .ok s ((x.toNat / 2 ^ off + y.toNat * 2 ^ (1024 - off)) % 2 ^ n, p || q)

/-- The word of an index table (19:R286). -/
def State.indexIn (s : State) (v : Via) (d : Desc) (i : Nat) : Got Nat :=
  (s.via v (d.index + 4 * i) .copy false).bind fun s (pa, _) => .ok (s.readNoted pa v.by_) (s.readPhys pa 4).1

/-- A value for every element of a list in order. -/
def gather {α β : Type} (f : State → α → Got β) : State → List α → Got (List β)
  | s, [] => .ok s []
  | s, x :: r => (f s x).bind fun s y => (gather f s r).bind fun s l => .ok s (y :: l)

/-! ## Element-major rows (19:R286) -/

/-- Row `r` of the element-major destination of a slice that starts at `a`: its bytes, the lanes they are, and
poison. -/
def State.emRow (s : State) (v : Via) (d : Desc) (srcStart a r : Nat) : Got (Nat × Nat × Nat × Bool) :=
  let z := d.elemBytes
  let m := 128 / z
  let (lo, hi) := d.span true a
  let e0 := max lo (r * m)
  let e1 := min hi ((r + 1) * m)
  let v0 := max e0 a
  let v1 := min e1 (a + d.elems)
  let lanes := (8 * z * (e0 - r * m), 8 * z * (e1 - r * m))
  if v1 ≤ v0 then .ok s (0, lanes.1, lanes.2, false)
  else
    (gather (fun s i => s.bitsIn v d i (srcStart + (v0 - a)) (v1 - v0)) s (upTo d.p)).bind fun s l =>
      let value (e : Nat) : Nat :=
        (l.mapIdx fun i x => x.1 / 2 ^ e % 2 * 2 ^ (d.p - 1 - i)).foldl (· + ·) 0
      let x := ((upTo (v1 - v0)).map fun e => value e * 2 ^ (8 * z * (v0 - r * m + e))).foldl (· + ·) 0
      .ok s (x, lanes.1, lanes.2, l.any (·.2))

/-- `n` elements from `e` of an element-major source: bit `plane` of each. -/
def State.emBits (s : State) (v : Via) (d : Desc) (plane e n : Nat) : Got (Nat × Bool) :=
  let z := d.elemBytes
  let m := 128 / z
  let first := e / m
  (gather (fun s r => s.rowIn v (d.s.loc r)) s ((upTo ((e + n - 1) / m - first + 1)).map (first + ·))).bind fun s l =>
    let bit (k : Nat) : Nat :=
      let x := (l.getD (k / m - first) (0, false)).1
      x.toNat / 2 ^ (8 * z * (k % m) + (d.p - 1 - plane)) % 2
    .ok s (((upTo n).map fun i => bit (e + i) * 2 ^ i).foldl (· + ·) 0, l.any (·.2))

end Sys2Proof.Machine
end

