-- ==== Sys2Proof/Machine/Engine.lean ====
section
/-! DEFINITION. Class EN: descriptor slots, engine requests with their checks and promises, query and cancel, XLAT, the
meridian queue, SPAWN (19:R276 to R297); how a request ends (19:R280). -/

namespace Sys2Proof.Machine

/-! ## Slots (19:R276, R283, R285) -/

def Cell.dslot (c : Cell) (i : Nat) : Slot := tgetD c.slots {} i

def Cell.setSlot (c : Cell) (i : Nat) (x : Slot) : Cell := { c with slots := tput c.slots i x }

/-- The slot belongs to another context (19:R276). -/
def Slot.foreign (x : Slot) (ctx : BitVec 10) : Bool := x.state ≠ .empty && x.owner ≠ ctx

/-- A fault of a slot: DESC and DESC_OVERLAP name it (23:R342). -/
def State.raiseSlot (s : State) (t : Task) (cause slot : Nat) : State :=
  if cause = Cause.desc ∨ cause = Cause.descOverlap then s.raise t cause slot (s.curWord t).toNat else s.raiseWord t cause

/-- TE.DESC: the image of a scratchpad row is checked and written to a slot. -/
def execTeDesc (g : Guard) (sd : BitVec 5) (sa sb : Spec) (s : State) : Host.Outcome State Fault Refusal :=
  guarded s g fun t =>
    let u := t.touch [sa, sb]
    let row := (t.val sa).toNat % 512
    let slot := (t.val sb).toNat % 16
    let c := s.cell0
    if (c.dslot slot).foreign t.ctx then s.raiseWord u Cause.protection
    else if (c.dslot slot).state = .busy then s.retry u none
    else if s.acquiring || c.inTheWay s.now [.row row] [] then s.retry u none
    else if c.rowForbidden row then s.raise u Cause.protection row (s.curWord t).toNat
    else
      let u := { u with taint := u.taint || c.rowPoisoned row }
      match s.descFault t.ctx (c.row row) with
      | some k => s.raiseSlot u k slot
      | none =>
        let d := descOf (c.row row)
        let u := (u.setReg sd (BitVec.ofNat 64 d.rows)).readyIn sd s.now (8 + d.slices)
        (s.updCell0 fun x => x.setSlot slot { state := .ready, owner := t.ctx, desc := c.row row }).completeIn u
          (8 + d.slices)

/-! ## Requests (19:R277, R278, R286 to R289) -/

/-- Word mode of TE.FILL (19:R286). -/
def Desc.words (d : Desc) : Bool := d.fmt = 1 && d.w = 1

/-- Rows that a request writes at its destination. -/
def Desc.destRows (d : Desc) (kind : ReqKind) : Nat :=
  if kind = .transpose && !d.dir then
    ((d.starts true).map fun a =>
      let (lo, hi) := d.span true a
      (hi * d.elemBytes - 1) / 128 - lo * d.elemBytes / 128 + 1).foldl (· + ·) 0
  else d.count true 0 (d.starts true)

/-- The rows that a request is to write. -/
def Request.total (r : Request) (d : Desc) : Nat :=
  match r.kind with
  | .sig => 0
  | .decode => 32 * r.c.toNat
  | .transpose => d.destRows .transpose
  | _ => d.count true 0 ((r.starts d true).map (·.2))

/-- Check 4 of R277: the descriptor suits the request. -/
def Desc.suits (d : Desc) (kind : ReqKind) (b : Word) : Bool :=
  let data (k : Nat) : Bool := k = 1 || k = 2
  let plain : Bool := !d.dir && d.dmask = 0
  match kind with
  | .copy => data d.s.kind && data d.d.kind && plain
  | .copyp => data d.s.kind && data d.d.kind && !d.dir && d.dmask ≠ 0 && d.dmask = b.toNat % 2 ^ 32
  | .gather | .scatter => data d.s.kind && data d.d.kind && plain && d.index ≠ 0
  | .fill => d.s.kind = 0 && data d.d.kind && plain
  | .transpose => data d.s.kind && data d.d.kind && d.dmask = 0 && (d.dir || (d.starts true).all (d.inLayout true true))
  | .decode => d.s.kind = 1 && data d.d.kind && plain && d.index ≠ 0
  | .remote => data d.s.kind && d.d.kind = 1 && plain
  | .sig => true

/-- Check 5 of R277: the operand checks of the request. -/
def Desc.operandFault (d : Desc) (kind : ReqKind) (own : BitVec 8) (b c : Word) : Option Nat :=
  let odd : Bool := isBlockFmt d.fmt || d.fmt = 0x10
  match kind with
  | .copyp => if d.fmt = 0x04 || odd then some Cause.format else none
  | .transpose => if odd || decide (32 < d.p) then some Cause.format else none
  | .fill =>
    if d.words && !((d.starts true).all (· % 64 = 0) && d.elems % 64 = 0 && d.padL % 64 = 0 && d.padR % 64 = 0) then
      some Cause.desc
    else none
  | .decode =>
    if d.words && d.slices = 1 && d.s.off = 0 && decide (1 ≤ c.toNat) && decide (c.toNat ≤ 2 ^ 20)
        && decide (32768 * c.toNat ≤ d.elems) then none
    else some Cause.desc
  | .remote | .sig => if b.truncate 8 = own then some Cause.protection else none
  | _ => none

/-- `⌈n / m⌉`. -/
def ceilDiv (n m : Nat) : Nat := (n + m - 1) / m

/-- The cost of a request (19:R278). -/
def Desc.cost (d : Desc) (kind : ReqKind) (c : Word) : Nat :=
  let b := 128 * d.destRows kind
  match kind with
  | .copy | .copyp | .fill => 256 + ceilDiv b 512
  | .decode => 256 + ceilDiv (4096 * c.toNat) 512
  | .gather | .scatter => 256 + 4 * d.slices + ceilDiv b 512
  | .transpose => 256 + ceilDiv b 8
  | .remote => 4096 + ceilDiv b 160
  | .sig => 4096

/-- Offset of the first slice at the destination: the first index for a TE.SCATTER (19:R286). Where the index does not
translate the spec names no byte, and this is the affine offset (DESIGN CHOICE, log entry 27). -/
def State.firstStart (s : State) (ctx : BitVec 10) (d : Desc) (kind : ReqKind) : Nat :=
  if kind = .scatter then
    match translateNow s ctx d.index .copy false with
    | .pa pa => (s.readPhys pa 4).1
    | _ => d.start true 0
  else d.start true 0

/-- The first byte that a request would write (21:R326). -/
def Desc.firstByte (d : Desc) (kind : ReqKind) (c : Word) (start : Nat) : Nat :=
  if kind = .sig then c.toNat % 2 ^ 52
  else
    let k :=
      if kind = .transpose && !d.dir then (d.span true start).1 * d.elemBytes / 128
      else (d.span true start).1 / 1024 * d.rowsOf true
    match d.d.loc k with
    | .bank _ r => 128 * r
    | .virt va => va

/-- The queue of an engine. -/
def State.queue (s : State) (h q : Nat) : List Request := tgetD (s.hall h).queues [] q

def State.setQueue (s : State) (h q : Nat) (l : List Request) : State :=
  s.updHall h fun x => { x with queues := tput x.queues q l }

/-- Identities rise over the whole module: an earlier request has a lower one (19:R279). -/
def State.nextReqId (s : State) : Nat := (s.halls.map fun h => h.2.nextReq).foldl max 0

/-- The request enters its queue, the slot is BUSY, and sd receives the promise (19:R277, R278). -/
def State.enqueue (s : State) (u : Task) (kind : ReqKind) (sd : BitVec 5) (slot : Nat) (a b c : Word) (q : QSel) : State :=
  let cell := s.focus.toNat
  let h := hallOf cell
  let x := s.cell0.dslot slot
  let cost := (descOf x.desc).cost kind c
  let ahead := ((s.queue h q.eq.toNat).map (·.cost)).foldl (· + ·) 0
  let promise := (s.now + ahead + cost) % 2 ^ 64
  let id := s.nextReqId
  let r : Request :=
    { id := id, cell := cell, slot := slot, node := { taskNode cell u with iter := u.sendIter }, kind := kind
      desc := x.desc, a := a, b := b, c := c, ord := q.ord, sid := q.sid, cost := cost, promise := promise
      word := s.curWord u, issuedAt := s.now }
  let s := (s.setQueue h q.eq.toNat (s.queue h q.eq.toNat ++ [r])).updHall h fun y => { y with nextReq := id + 1 }
  let s := s.updCell0 fun y => y.setSlot slot { x with state := .busy, req := some (q.eq.toNat, id) }
  s.result { u with requests := u.requests ++ [(h, id)] } sd (BitVec.ofNat 64 promise) 2

/-- A request instruction: the checks of R277 in their order. A put or signal stays behind the host's acknowledgement of a
release at SYSTEM (07:R139). -/
def requestOp (s : State) (g : Guard) (kind : ReqKind) (sd : BitVec 5) (sa : Spec) (sb sc : Option Spec) (q : QSel) :
    Host.Outcome State Fault Refusal :=
  guarded s g fun t =>
    let u := t.touch (sa :: (sb.toList ++ sc.toList))
    let slot := (t.val sa).toNat % 16
    let b := match sb with | some x => t.val x | none => 0
    let c := match sc with | some x => t.val x | none => 0
    let x := s.cell0.dslot slot
    let d := descOf x.desc
    if x.state = .empty then s.raiseSlot u Cause.desc slot
    else if x.owner ≠ t.ctx then s.raiseWord u Cause.protection
    else if x.state = .busy then s.retry u (some 1)
    else if !d.suits kind b then s.raiseSlot u Cause.desc slot
    else
      match d.operandFault kind s.cp.moduleNum b c with
      | some k => s.raiseSlot u k slot
      | none =>
        if 64 ≤ (s.queue (hallOf s.focus.toNat) q.eq.toNat).length then s.retry u (some 1)
        else if (kind = .remote || kind = .sig) && s.releasePending s.focus.toNat then s.retry u none
        else if u.taint then
          (s.poisonSink { taskNode s.focus.toNat t with iter := t.sendIter } (d.firstByte kind c (s.firstStart t.ctx d kind)) 1 2).result u sd s.cyc 2
        else s.enqueue u kind sd slot (t.val sa) b c q

def execTeCopy (g : Guard) (sd : BitVec 5) (sa : Spec) (q : QSel) (s : State) := requestOp s g .copy sd sa none none q
def execTeCopyp (g : Guard) (sd : BitVec 5) (sa sb : Spec) (q : QSel) (s : State) :=
  requestOp s g .copyp sd sa (some sb) none q
def execTeGather (g : Guard) (sd : BitVec 5) (sa : Spec) (q : QSel) (s : State) :=
  requestOp s g .gather sd sa none none q
def execTeScatter (g : Guard) (sd : BitVec 5) (sa : Spec) (q : QSel) (s : State) :=
  requestOp s g .scatter sd sa none none q
def execTeFill (g : Guard) (sd : BitVec 5) (sa sb : Spec) (q : QSel) (s : State) :=
  requestOp s g .fill sd sa (some sb) none q
def execTeTranspose (g : Guard) (sd : BitVec 5) (sa : Spec) (q : QSel) (s : State) :=
  requestOp s g .transpose sd sa none none q
def execTeDecode (g : Guard) (sd : BitVec 5) (sa sb sc : Spec) (q : QSel) (s : State) :=
  requestOp s g .decode sd sa (some sb) (some sc) q
def execTeRemote (g : Guard) (sd : BitVec 5) (sa sb : Spec) (q : QSel) (s : State) :=
  requestOp s g .remote sd sa (some sb) none q
def execTeSig (g : Guard) (sd : BitVec 5) (sa sb sc : Spec) (q : QSel) (s : State) :=
  requestOp s g .sig sd sa (some sb) (some sc) q

/-! ## The end of a request (19:R276, R280) -/

/-- Codes of a completion record. -/
def recDone : Nat := 1
def recCancelled : Nat := 2
def recFailed : Nat := 3

def completionRecord (status cause rows cyc : Nat) : BitVec 128 :=
  BitVec.ofNat 128 (pack [⟨120, 8, status⟩, ⟨112, 8, cause⟩, ⟨64, 32, rows⟩, ⟨0, 64, cyc⟩])

/-- A record is also written to memory as 16 bytes; a failing address raises PROTECTION against the node (19:R280). -/
def State.writeRecord (s : State) (n : NodeRef) (va : Nat) (record : BitVec 128) (word : Word) : State :=
  if va = 0 then s
  else
    match translateNow s n.ctx va .copy true with
    | .pa pa => s.writePhys pa 16 record.toNat false (some n)
    | _ => s.nodeFault n Cause.protection va word.toNat

/-- The slot of a request becomes DONE with its record. Where the context's last configuration on the cell has been
saved meanwhile, the record joins the save image, and a slot that has waited for the request is EMPTY (19:R276). -/
def State.finishSlot (s : State) (cell slot : Nat) (req : Option (Nat × Nat)) (record : BitVec 128) : State :=
  let x := (s.cell cell).dslot slot
  let done (x : Slot) : Slot := { x with state := .done, record := record, req := none }
  let saved (y : Saved) : Bool :=
    req.isSome && y.cell = cell && (y.image.dslot slot).state = .busy && decide ((y.image.dslot slot).req = req)
  let left := !s.holdsContext cell x.owner && s.cfgs.any (fun k => k.2.saved.any saved)
  let keep (c : CfgRt) : CfgRt :=
    { c with saved := c.saved.map fun y => if saved y then { y with image := y.image.setSlot slot (done (y.image.dslot slot)) } else y }
  let s : State := { s with cfgs := s.cfgs.map fun (k, c) => (k, keep c) }
  if req.isSome && decide (x.req ≠ req) then s
  else s.updCell cell fun c => c.setSlot slot (if left then {} else done x)

/-- TE.CANCEL's task goes on once the record is written (19:R291). -/
def State.wakeCancel (s : State) (cell slot rows : Nat) : State :=
  each (upTo 8) s fun s i =>
    s.asTask cell i fun s t =>
      match t.wait with
      | .cancel k sd => if k = slot then s.complete (t.setReg sd (BitVec.ofNat 64 rows)) else s
      | _ => s

/-- A request ends: it leaves its queue, and its record is written (19:R280, R372 of 26). -/
def State.endRequest (s : State) (h q : Nat) (r : Request) (status cause : Nat) : State :=
  let rows := if r.kind = .sig then 0 else r.rowsDone
  let record := completionRecord status cause rows s.now
  let s := s.setQueue h q ((s.queue h q).filter fun x => x.id ≠ r.id)
  let s := if r.kind = .sig then s else s.writeRecord r.node (descOf r.desc).record record r.word
  (s.finishSlot r.cell r.slot (some (q, r.id)) record).wakeCancel r.cell r.slot rows

/-- A request ends FAILED: the cause is raised against the issuing node (19:R282). -/
def State.failRequest (s : State) (h q : Nat) (r : Request) (cause addr info : Nat) : State :=
  (s.nodeFault r.node cause addr info).endRequest h q r recFailed cause

/-! ## Query and cancel (19:R290, R291) -/

/-- The request that a BUSY slot holds. -/
def State.slotRequest (s : State) (cell slot : Nat) : Option Request :=
  match ((s.cell cell).dslot slot).req with
  | some (q, id) => (s.queue (hallOf cell) q).find? (·.id = id)
  | none => none

/-- The pass that a BUSY slot of no request serves, with its node and whether it runs: the running one before one that
waits (21:R309). -/
def State.slotPass (s : State) (cell slot : Nat) : Option (Node × Pass × Bool) :=
  let c := s.cell cell
  let all := (c.v0.nodes ++ c.v1.nodes).flatMap fun n => n.passes.mapIdx fun i p => (n, p, decide (i = 0))
  let l := all.filter fun x => x.2.1.slot = slot
  (l.find? (·.2.2)).or l.head?

/-- TE.QUERY's answer. -/
def State.queryWord (s : State) (cell slot : Nat) : Word :=
  let x := (s.cell cell).dslot slot
  let f (state cause rows : Nat) : Word := BitVec.ofNat 64 (pack [⟨61, 3, state⟩, ⟨48, 8, cause⟩, ⟨0, 32, rows⟩])
  match x.state with
  | .empty => 0
  | .ready => f 1 0 0
  | .busy =>
    match s.slotRequest cell slot with
    | some r =>
      if r.heldSince.isSome then f 4 Cause.translation r.rowsDone else f (if r.started then 3 else 2) 0 r.rowsDone
    | none =>
      match s.slotPass cell slot with
      | some (n, p, true) => if n.heldSince.isSome then f 4 Cause.translation p.rowsDone else f 3 0 p.rowsDone
      | some (_, p, false) => f 2 0 p.rowsDone
      | none => f 3 0 0
  | .done =>
    let y := x.record.toNat
    f (4 + bitsOf y 120 8) (bitsOf y 112 8) (bitsOf y 64 32)

def execTeQuery (g : Guard) (sd : BitVec 5) (sa : Spec) (s : State) : Host.Outcome State Fault Refusal :=
  guarded s g fun t =>
    let u := t.touch [sa]
    let slot := (t.val sa).toNat % 16
    if (s.cell0.dslot slot).foreign t.ctx then s.raiseWord u Cause.protection
    else s.result u sd (s.queryWord s.focus.toNat slot) 4

/-- The request of a slot, changed. -/
def State.updRequest (s : State) (h q id : Nat) (f : Request → Request) : State :=
  s.setQueue h q ((s.queue h q).map fun r => if r.id = id then f r else r)

/-- A request is cancelled: what held it is noted for its record, and the held address is discarded (19:R280, R291). -/
def Request.cancel (r : Request) : Request :=
  if r.cancelled then r
  else
    { r with cancelled := true, cancelCause := if r.heldSince.isSome then Cause.translation else 0, heldSince := none
             grant := none }

/-- The passes of a node that serve a slot are cancelled; what held the running one is noted and discarded, and with it the
row that it held (19:R291). -/
def Node.cancel (n : Node) (slot : Nat) : Node :=
  let held : Bool := n.heldSince.isSome && n.passes.head?.any (·.slot = slot)
  { n with
    passes := n.passes.mapIdx fun i p =>
      if p.slot = slot && p.cancelled.isNone then
        if i = 0 && held then { p with cancelled := some Cause.translation, got := [], buf := none }
        else { p with cancelled := some 0 }
      else p
    heldSince := if held then none else n.heldSince }

/-- TE.CANCEL: the request stops after the row in progress, and the task waits for the record. -/
def execTeCancel (g : Guard) (sd : BitVec 5) (sa : Spec) (s : State) : Host.Outcome State Fault Refusal :=
  guarded s g fun t =>
    let u := t.touch [sa]
    let slot := (t.val sa).toNat % 16
    let x := s.cell0.dslot slot
    match x.state with
    | .empty => s.raiseSlot u Cause.desc slot
    | .ready | .done =>
      if x.owner ≠ t.ctx then s.raiseWord u Cause.protection else s.result u sd (BitVec.allOnes 64) 1
    | .busy =>
      if x.owner ≠ t.ctx then s.raiseWord u Cause.protection
      else
        match x.req with
        | some (q, id) =>
          (s.updRequest (hallOf s.focus.toNat) q id Request.cancel).park u (.cancel slot sd)
        | none =>
          (s.updCell0 fun c =>
            { c with
              v0 := { c.v0 with nodes := c.v0.nodes.map fun n => n.cancel slot }
              v1 := { c.v1 with nodes := c.v1.nodes.map fun n => n.cancel slot } }).park u (.cancel slot sd)

/-! ## XLAT (19:R292) -/

/-- A PADDR token of the task. -/
def Task.paddrTok (t : Task) (pa : Option Nat) : Token :=
  match pa with
  | some a => t.tok 5 .none 0 (BitVec.ofNat 64 (a % 2 ^ 48))
  | none => t.tok 5 .null 0 0

/-- XLAT: the address translated for the task's context goes out as a PADDR token; a fault is raised against the node
and a null PADDR token goes out. A failed guard sends a null PADDR token. -/
def execXlat (g : Guard) (port : BitVec 2) (sa sb : Spec) (s : State) : Host.Outcome State Fault Refusal :=
  guardedOr s g (fun t => s.sendThen t [(port.toNat, t.paddrTok none)] State.complete) fun t =>
    let u := t.touch [sa, sb]
    let write := (t.val sb).getLsbD 0
    if !s.portInUse t port.toNat then s.raiseWord u Cause.protection
    else
      match s.checkAccess u (t.val sa) 1 .plain write with
      | .ok pa =>
        if s.portHeld u then s.retry u (some 3)
        else s.usedLeaf u (t.val sa).toNat (s.sendThen u [(port.toNat, u.paddrTok (some pa))] State.complete)
      | .miss => if s.portHeld u then s.retry u (some 3) else s.missTask u (t.val sa) write
      | .bad cause addr info =>
        s.sendThen u [(port.toNat, u.paddrTok none)] fun s u =>
          (s.nodeFault (taskNode s.focus.toNat t) cause addr info).complete u

/-! ## The meridian queue (19:R293 to R296) -/

/-- Entries that a queue holds at most. -/
def mqCapacity : Nat := 65536

/-- A push of the task at the focus: a release at HALL scope. -/
def State.pushMq (s : State) (u : Task) (a b : Word) : State :=
  let h := hallOf s.focus.toNat
  (s.release s.focus.toNat u.node .hall).updHall h fun x =>
    { x with mq := x.mq ++ [⟨a.truncate 32, b, u.ctx, u.taint⟩] }

def execMqpush (g : Guard) (sa sb : Spec) (s : State) : Host.Outcome State Fault Refusal :=
  guarded s g fun t =>
    let u := t.touch [sa, sb]
    if s.releaseStalls s.focus.toNat then s.retry u none true
    else if mqCapacity ≤ (s.hall (hallOf s.focus.toNat)).mq.length then s.retry u (some 1)
    else s.beforeRelease u fun s => (s.pushMq u (t.val sa) (t.val sb)).complete u

/-- MQPOP: the request waits at the hall's queue; the reply goes to the node's port. -/
def execMqpop (g : Guard) (sa : Spec) (s : State) : Host.Outcome State Fault Refusal :=
  guarded s g fun t =>
    let u := t.touch [sa]
    let a := (t.val sa).toNat
    let port := a / 32 % 4
    let v := s.version s.focus.toNat t.ver
    match v.nodes[a % 32]? with
    | none => s.raiseWord u Cause.protection
    | some n =>
      let used : Bool := if n.inputs.any (·.isSome) then ((n.inputs[port]?).join).isSome else port = 0
      if !used then s.raiseWord u Cause.protection
      else
        match v.owner with
        | none => s.raiseWord u Cause.protection
        | some (_, cfg) =>
          (s.updHall (hallOf s.focus.toNat) fun h =>
            { h with mqPops := h.mqPops ++ [⟨t.ctx, t.sendIter, n.gid, cfg, port, none⟩] }).complete u

/-- SPAWN: a push, or the child's handler as a call, or a wait. -/
def execSpawn (g : Guard) (sd : BitVec 5) (sa sb sc : Spec) (s : State) : Host.Outcome State Fault Refusal :=
  guarded s g fun t =>
    let u := t.touch [sa, sb, sc]
    match s.node s.focus.toNat t.ver ((t.val sc).toNat % 32) with
    | none => s.raiseWord u Cause.protection
    | some n =>
      if n.role ≠ .compute then s.raiseWord u Cause.protection
      else if (s.hall (hallOf s.focus.toNat)).mq.length < mqCapacity then
        if s.releaseStalls s.focus.toNat then s.retry u none true
        else s.beforeRelease u fun s => (s.pushMq u (t.val sa) (t.val sb)).result u sd 1 1
      else if u.calls.length < 8 then
        let u := ((u.setReg sd 0).setReg 30 ((t.val sa) &&& 0xFFFFFFFF)).setReg 31 (t.val sb)
        let u := { u with calls := (t.pc.toNat + 1) :: t.calls }
        (s.updCell0 fun c => { c with callMax := BitVec.ofNat 4 (max c.callMax.toNat u.calls.length) }).jump u n.handler 2
      else s.retry u (some 1)

end Sys2Proof.Machine
end

