-- ==== Sys2Proof/Machine/Sync.lean ====
section
/-! DEFINITION. Class AT: atomics (17:R270), barriers and their homes (17:R271 to R274), owner bits (17:R275; 07:R131,
R132). -/

namespace Sys2Proof.Machine

/-! ## Atomics (17:R270) -/

/-- Bytes of an atomic's word. -/
def atomicSize (dbl : Bool) : Size := if dbl then .d else .w

/-- An atomic becomes an outstanding operation; a tainted task's writes nothing and leaves sd. -/
def atomicOp (s : State) (g : Guard) (op : Nat) (sd : BitVec 5) (sa sb : Spec) (sc : Option Spec) (dbl : Bool) :
    Host.Outcome State Fault Refusal :=
  guarded s g fun t =>
    let u := t.touch (sa :: sb :: sc.toList)
    let z := atomicSize dbl
    let c := match sc with | some x => t.val x | none => 0
    s.access u (t.val sa) (sizeBytes z) .atomic true fun pa =>
      if u.taint then (s.sinkWrite u (t.val sa).toNat).complete u
      else s.loadOp u (.atomic op (t.val sb) c none) sd pa (t.val sa) z false

def execAadd (g : Guard) (sd : BitVec 5) (sa sb : Spec) (dbl : Bool) (s : State) := atomicOp s g 0 sd sa sb none dbl
def execAmin (g : Guard) (sd : BitVec 5) (sa sb : Spec) (dbl : Bool) (s : State) := atomicOp s g 1 sd sa sb none dbl
def execAmax (g : Guard) (sd : BitVec 5) (sa sb : Spec) (dbl : Bool) (s : State) := atomicOp s g 2 sd sa sb none dbl
def execAand (g : Guard) (sd : BitVec 5) (sa sb : Spec) (dbl : Bool) (s : State) := atomicOp s g 3 sd sa sb none dbl
def execAor (g : Guard) (sd : BitVec 5) (sa sb : Spec) (dbl : Bool) (s : State) := atomicOp s g 4 sd sa sb none dbl
def execAxor (g : Guard) (sd : BitVec 5) (sa sb : Spec) (dbl : Bool) (s : State) := atomicOp s g 5 sd sa sb none dbl
def execAswp (g : Guard) (sd : BitVec 5) (sa sb : Spec) (dbl : Bool) (s : State) := atomicOp s g 6 sd sa sb none dbl
def execAcas (g : Guard) (sd : BitVec 5) (sa sb sc : Spec) (dbl : Bool) (s : State) :=
  atomicOp s g 7 sd sa sb (some sc) dbl
def execAinc (g : Guard) (sd : BitVec 5) (sa sb : Spec) (dbl : Bool) (s : State) := atomicOp s g 8 sd sa sb none dbl

/-! ## Barrier homes (17:R271 to R273) -/

/-- Tag `a` precedes tag `b` (05:R75). -/
def precedes (a b : BitVec 12) : Bool :=
  let d := (b.toNat + 4096 - a.toNat) % 4096
  decide (1 ≤ d) && decide (d ≤ 2047)

def Cell.bar (c : Cell) (bid : Nat) : BarEntry := tgetD c.bars {} bid

def Cell.setBar (c : Cell) (bid : Nat) (e : BarEntry) : Cell := { c with bars := tput c.bars bid e }

/-- An entry is idle (17:R271). -/
def Cell.barIdle (c : Cell) (bid : Nat) : Bool := (c.bar bid).expected = 0 && !c.barWaiters.any (·.bid = bid)

/-- The entry for a context, taken over where it is idle; absent where it must be waited for (17:R272, R273). -/
def Cell.barFor (c : Cell) (bid : Nat) (ctx : BitVec 10) (phase : BitVec 12) : Option BarEntry :=
  let e := c.bar bid
  if e.owner = some ctx then some e
  else if c.barIdle bid then some { owner := some ctx, phase := phase }
  else none

/-- A task's node has halted: it issues nothing, and nothing wakes it (24:R356). -/
def State.taskHalted (s : State) (cell : Nat) (t : Task) : Bool :=
  match s.node cell t.ver t.node with | some n => n.halted | none => false

/-- A BAR.WAIT ends: the task takes the phase's poison and an acquire at the smallest scope of home and cell; a remote
one is answered by a reply, a release back to its cell (07:R118; 17:R273, R274). A task whose node has halted stays parked
and repeats its wait after the restore (23:R354, 24:R356). -/
def State.endWait (s : State) (home : Nat) (w : BarWaiter) (poison : Bool) : State :=
  if w.task.cell = home then
    s.asTask home w.task.slot fun s t =>
      match t.wait with
      | .bar h b p =>
        if h = home ∧ b = w.bid ∧ p = w.phase ∧ s.taskHalted home t = false then
          (s.acquire home .cell).complete { t with taint := t.taint || poison }
        else s
      | _ => s
  else
    (s.pushTo home (scopeBetween home w.task.cell)).send ⟨home, w.task.cell,
      .msg { dst := BitVec.ofNat 18 w.task.cell, poison := poison, ver := false, op := 0x17, handler := 0,
             ccell := BitVec.ofNat 18 home, ctag := 0xFF, operand := 0 } w.ctx (some (.bar w))⟩

/-- Complete (17:R272). -/
def State.completePhase (s : State) (home bid : Nat) (e : BarEntry) : State :=
  let due (w : BarWaiter) : Bool := w.bid = bid && w.phase = e.phase
  let ws := (s.cell home).barWaiters.filter due
  let s := s.updCell home fun c =>
    { c.setBar bid { e with phase := e.phase + 1, total := 0, expected := 0, poison := false } with
      barWaiters := c.barWaiters.filter fun w => !due w }
  each ws s fun s w => s.endWait home w e.poison

/-- The node that a BAR_OVERFLOW record names (17:R272). -/
def State.overflowNode (s : State) (home : Nat) (ctx : BitVec 10) (ph : BitVec 12) : NodeRef :=
  let c := s.cell home
  let held (i : Nat) : Bool :=
    let v := c.version (c.liveVersion i)
    (match v.cfgOf with | some (x, _) => x = ctx | none => false) && decide (i < v.nodes.length)
  match (upTo 32).find? held with
  | some i => nodeRef home (c.liveVersion i) i ctx ph
  | none => nodeRef home false 0 ctx ph

/-- Arrive (17:R272): the state after the arrival, or nothing where it must be held. -/
def State.barArrive (s : State) (home : Nat) (t : Token) : Option State :=
  let x := t.payload.toNat
  let bid := bitsOf x 0 8
  let bytes : Bool := bitsOf x 8 1 = 1
  let amount := bitsOf x 12 24
  let expected := bitsOf x 36 24
  match (s.cell home).barFor bid t.ctx t.iter with
  | none => none
  | some e =>
    if precedes t.iter e.phase then some (s.updCell home fun c => { c with lateCnt := satAdd c.lateCnt 1 32 })
    else if precedes e.phase t.iter then none
    else
      let e := if e.expected = 0 then { e with expected := expected, bytes := bytes } else e
      if bytes ≠ e.bytes ∨ expected ≠ e.expected ∨ e.expected = 0 ∨ amount = 0 ∨ e.expected < e.total + amount then
        some ((s.updCell home fun c => c.setBar bid e).nodeFault (s.overflowNode home t.ctx t.iter) Cause.barOverflow
          (expected * 256 + bid) amount)
      else
        let e := { e with total := e.total + amount, poison := e.poison || t.poison }
        if e.total = e.expected then some (s.completePhase home bid e)
        else some (s.updCell home fun c => c.setBar bid e)

/-- What a BAR.WAIT finds at its home (17:R273). -/
inductive WaitOut where
  | done (s : State)
  | parked (s : State)
  | held
  | refused

def State.barWait (s : State) (home : Nat) (w : BarWaiter) : WaitOut :=
  match (s.cell home).barFor w.bid w.ctx w.phase with
  | none => .held
  | some e =>
    if precedes w.phase e.phase then .done (s.updCell home fun c => c.setBar w.bid e)
    else if 64 ≤ (s.cell home).barWaiters.length then .refused
    else .parked (s.updCell home fun c => { c.setBar w.bid e with barWaiters := c.barWaiters ++ [w] })

/-- Held arrivals and waits are tried again, in order, as often as one of them may free another. -/
def State.barRetry (s : State) (home : Nat) : Nat → State
  | 0 => s
  | k + 1 =>
    let c := s.cell home
    let s1 := s.updCell home fun c => { c with barHeld := [], barHeldWaits := [] }
    let s2 := each c.barHeld s1 fun s t =>
      match s.barArrive home t with
      | some s => s
      | none => s.updCell home fun c => { c with barHeld := c.barHeld ++ [t] }
    let s3 := each c.barHeldWaits s2 fun s w =>
      match s.barWait home w with
      | .done s => s.endWait home w false
      | .parked s => s
      | .held | .refused => s.updCell home fun c => { c with barHeldWaits := c.barHeldWaits ++ [w] }
    if (s3.cell home).barHeld.length = c.barHeld.length ∧ (s3.cell home).barHeldWaits.length = c.barHeldWaits.length then s3
    else s3.barRetry home k

/-- Rounds that settle every held arrival and wait of a home. -/
def State.settleBars (s : State) (home : Nat) : State :=
  s.barRetry home ((s.cell home).barHeld.length + (s.cell home).barHeldWaits.length + 1)

/-- An arrival at its home: counted, or held (17:R272). -/
def State.arriveAt (s : State) (home : Nat) (t : Token) : State :=
  match s.barArrive home t with
  | some s => s.settleBars home
  | none => s.updCell home fun c => { c with barHeld := c.barHeld ++ [t] }

/-! ## BAR.ARR and BAR.WAIT -/

/-- The payload of a BARRIER token (17:R272). -/
def barPayload (expected amount : Nat) (bytes : Bool) (bid : BitVec 8) : Word :=
  BitVec.ofNat 64 (pack [⟨36, 24, expected⟩, ⟨12, 24, amount⟩, ⟨8, 1, bytes.toNat⟩, ⟨0, 8, bid.toNat⟩])

/-- BAR.ARR: a release, and a CTRL BARRIER token to the home. -/
def execBarArr (g : Guard) (sa sb sc : Spec) (bytes : Bool) (bid : BitVec 8) (s : State) :
    Host.Outcome State Fault Refusal :=
  guarded s g fun t =>
    let u := t.touch [sa, sb, sc]
    let c := s.focus.toNat
    let home := (t.val sa).toNat % 2 ^ 18
    if s.releaseStalls c then s.retry u none true
    else
      s.beforeRelease u fun s =>
        let tok := { u.tok 3 .none 5 (barPayload ((t.val sc).toNat % 2 ^ 24) ((t.val sb).toNat % 2 ^ 24) bytes bid) with
          dst := BitVec.ofNat 18 home }
        ((s.release c u.node (scopeBetween c home)).send ⟨c, home, .token tok none⟩).complete u

/-- The operand of an MBAR message: entry and phase (log entry 18). -/
def mbarOperand (bid : BitVec 8) (phase : BitVec 12) : Word := BitVec.ofNat 64 (phase.toNat * 256 + bid.toNat)

/-- BAR.WAIT: a local home answers at once or parks the task; a remote one is reached by MBAR, a release (07:R118). -/
def execBarWait (g : Guard) (sa : Spec) (bid : BitVec 8) (s : State) : Host.Outcome State Fault Refusal :=
  guarded s g fun t =>
    let u := t.touch [sa]
    let c := s.focus.toNat
    let home := (t.val sa).toNat % 2 ^ 18
    let w : BarWaiter := ⟨bid.toNat, t.ctx, t.sendIter, s.here⟩
    let parked : Wait := .bar home bid.toNat t.sendIter
    if home = c then
      match s.barWait c w with
      | .done s => (s.acquire c .cell).complete u
      | .parked s => s.park u parked
      | .held => (s.updCell c fun x => { x with barHeldWaits := x.barHeldWaits ++ [w] }).park u parked
      | .refused => s.retry u (some 0)
    else if s.releaseStalls c then s.retry u none true
    else
      s.beforeRelease u fun s =>
        ((s.release c u.node (scopeBetween c home)).send ⟨c, home,
          .msg { dst := BitVec.ofNat 18 home, poison := false, ver := t.ver, op := 0x15, handler := 0
                 ccell := s.focus, ctag := 0xFE, operand := mbarOperand bid t.sendIter } t.ctx (some (.bar w))⟩).park u parked

/-! ## Owner bits (17:R275; 07:R131, R132) -/

/-- Rows of a region. -/
def regionRows (n : Nat) : List Nat := (upTo 64).map fun i => 64 * n + i

/-- Bank rows that a side of a request or pass may touch: those of its slices, or its whole range where an index table
or an element-major layout decides. -/
def Desc.touches (d : Desc) (dst : Bool) (whole : Bool) (cell region : Nat) : Bool :=
  let x := d.side dst
  let first := x.base / 2 ^ 18 % 512
  let meet (lo hi : Nat) : Bool := decide (first + lo < 64 * (region + 1)) && decide (64 * region < first + hi)
  x.kind = 2 && x.base % 2 ^ 18 = cell &&
    (if whole then meet 0 x.len
     else (d.starts dst).any fun a =>
       let (lo, hi) := d.span dst a
       meet (lo / 1024 * d.rowsOf dst) (((hi - 1) / 1024 + 1) * d.rowsOf dst))

def Request.touches (r : Request) (cell region : Nat) : Bool :=
  let d := descOf r.desc
  r.kind ≠ .sig && (d.touches false (r.kind = .gather || r.kind = .transpose || r.kind = .decode) cell region
    || d.touches true (r.kind = .scatter || r.kind = .transpose || r.kind = .decode) cell region)

/-- The row lies in a region of a cell's bank. -/
def Loc.inRegion (l : Loc) (cell region : Nat) : Bool :=
  match l with
  | .bank c r => c = cell && r / 64 = region
  | .virt _ => false

/-- Rows of the source that a step of the destination copies from, for a slice whose source starts at `a` (19:R284). -/
def Desc.sourceRows (d : Desc) (x : RowStep) (a : Nat) : List Nat :=
  let va := max x.start (1024 * x.group)
  let vb := min (x.start + d.elems) (1024 * (x.group + 1))
  if vb ≤ va then []
  else
    let e := a + (va - x.start)
    (upTo ((e + (vb - va) - 1) / 1024 - e / 1024 + 1)).map fun k => (e / 1024 + k) * d.p + x.plane

/-- Accesses of a request to the region are still to come: a row that it writes or copies from, as far as its index table
has given the rows; of a transposition or a stream its whole ranges (07:R132). -/
def Request.owes (r : Request) (cell region : Nat) : Bool :=
  let d := descOf r.desc
  let whole : Bool := r.kind = .transpose || r.kind = .decode
  let rest := d.rest true (d.planes true 0) (r.starts d true) r.rowsDone
  if r.kind = .sig || decide (r.total d ≤ r.rowsDone) then false
  else if whole || (r.kind = .scatter && decide (r.offs.length < d.slices)) then r.touches cell region
  else
    rest.any (fun x => (d.d.loc (d.stepRow true x)).inRegion cell region)
      || (r.kind ≠ .fill &&
        (if r.kind = .gather && decide (r.offs.length < d.slices) then d.touches false true cell region
         else rest.any fun x =>
          (d.sourceRows x ((r.starts d false).getD x.slice (0, 0)).2).any fun k => (d.s.loc k).inRegion cell region))

/-- Accesses of a pass to the region are still to come: rows of its BANK side that it has not read or written (22:R330). -/
def Pass.owes (p : Pass) (cell region : Nat) : Bool :=
  let d := descOf p.desc
  let dst : Bool := d.d.kind ≠ 0
  if p.failed.isSome || (p.cancelled.isSome && p.got.isEmpty) then false
  else if p.ind && decide (p.offs.length < d.slices) then d.touches dst true cell region
  else
    (d.rest dst (d.planes dst p.mask) (p.starts d dst) (p.rowsDone + p.buf.isSome.toNat)).any fun x =>
      ((d.side dst).loc (d.stepRow dst x)).inRegion cell region

/-- An engine request or pass that was issued on the region by a cycle has accesses to it still to come, be its node placed
or saved (07:R132, 22:R330). -/
def State.regionBusy (s : State) (cell region since : Nat) : Bool :=
  let pass (n : Node) : Bool := n.passes.any fun p => decide (p.begun ≤ since) && p.owes cell region
  (s.halls.any fun h => h.2.queues.any fun q => q.2.any fun r => decide (r.issuedAt ≤ since) && r.owes cell region)
    || (s.cells.any fun c => (c.2.v0.nodes ++ c.2.v1.nodes).any pass)
    || s.cfgs.any fun c => c.2.saved.any fun u => u.nodes.any pass

/-- The task's OWNFLIP has issued and takes effect after those that the cell's tasks have issued before it (17:R275). -/
def State.joinFlip (s : State) (t : Task) (n : Nat) (own : Bool) : State :=
  (s.updCell0 fun c => { c with flips := c.flips.filter (· ≠ s.slot) ++ [s.slot] }).setTask s.here
    { t with wait := .flip n own s.now, waitAt := some s.now }

/-- A flip that has issued keeps its place and is tried again. -/
def State.joinFlip0 (s : State) (t : Task) (n : Nat) (own : Bool) : State :=
  s.setTask s.here
    { t with wait := .flip n own (match t.wait with | .flip _ _ since => since | _ => s.now), waitAt := some s.now }

/-- Instructions in flight on the region keep a flip waiting (13:R184; 15:R217). A region operation's reads of its holder
rows keep only one to CELL waiting: they begin when the rows are ENGINE's (15:R235; log entry 27). -/
def Cell.flipHeld (c : Cell) (now n : Nat) (own : Bool) : Bool :=
  ({ c with flights := if own then c.flights.filter (·.until_ ≠ regionMark) else c.flights } : Cell).inTheWay now []
    ((regionRows n).map .row)

/-- OWNFLIP: to ENGINE a release at CELL scope; to CELL it waits for the engines and then acquires. Flips of several tasks
take effect in the order in which they have issued. -/
def execOwnflip (g : Guard) (reg : BitVec 3) (own : Bool) (s : State) : Host.Outcome State Fault Refusal :=
  guarded s g fun t =>
    let c := s.focus.toNat
    let n := reg.toNat
    let x := s.cell0
    let bit := BitVec.twoPow 8 n
    let queued : Bool := match t.wait with | .flip _ _ _ => true | _ => false
    let since : Nat := match t.wait with | .flip _ _ k => k | _ => s.now
    let later (v : Bool) : State := if queued then s.joinFlip0 t n own else s.retry t none v
    if own && (regionRows n).any x.rowTaken then s.raise t Cause.protection (64 * n) (s.curWord t).toNat
    else if x.flipHeld s.now n own && !queued && x.owner.getLsbD n ≠ own then s.retry t none
    else if x.nextFlip.any (· ≠ s.slot) then if queued then later false else s.joinFlip t n own
    else if x.owner.getLsbD n = own then s.completeIn t 2
    else if x.flipHeld s.now n own then later false
    else if own then
      if s.releaseStalls c then later true
      else if s.acquiring || s.presencePending (taskNode c t) then later false
      else
        (((s.serveTask c s.slot).release c t.node .cell).updCell0 fun x => { x with owner := x.owner ||| bit }).completeIn t 2
    else if s.regionBusy c n since then if queued then later false else s.joinFlip t n own
    else ((s.acquire c .cell).updCell0 fun x => { x with owner := x.owner &&& ~~~bit }).completeIn t 2

/-- OWNQRY orders nothing. -/
def execOwnqry (g : Guard) (sd : BitVec 5) (s : State) : Host.Outcome State Fault Refusal :=
  guarded s g fun t => s.result t sd (s.cell0.owner.zeroExtend 64) 1

end Sys2Proof.Machine
end

