-- ==== Sys2Proof/Machine/System.lean ====
section
/-! DEFINITION. Class SY: special registers, traps and their return, STOP, RESUME, time, DBG (19:R298 to R305;
09:R152). -/

namespace Sys2Proof.Machine

/-! ## Special registers (09:R152, 19:R299) -/

/-- PROMLOG as it reads (07:R122). -/
def Cell.promLog (c : Cell) : Nat :=
  pack [⟨32, 32, c.vstall⟩, ⟨16, 16, c.served⟩, ⟨8, 8, c.eager⟩, ⟨5, 1, c.eagerMark.isSome.toNat⟩, ⟨0, 5, c.log.length⟩]

/-- The value of a special register for the task at the focus. -/
def State.readSReg (s : State) (t : Task) (r : SReg) : Word :=
  let c := s.cell0
  let stall (f : Node → Nat) : Word :=
    match s.node s.focus.toNat t.ver t.node with | some n => BitVec.ofNat 64 (f n) | none => 0
  match r with
  | .cyc => s.cyc
  | .phcS => s.phcS.zeroExtend 64
  | .phcNs => BitVec.ofNat 64 s.phcNs
  | .coord => s.focus.zeroExtend 64
  | .stage => t.stage.zeroExtend 64
  | .ctxid => t.ctx.zeroExtend 64
  | .iter => t.iter.zeroExtend 64
  | .ver => BitVec.ofNat 64 t.ver.toNat
  | .calldepth => BitVec.ofNat 64 t.calls.length
  | .callmax => c.callMax.zeroExtend 64
  | .split => c.split.zeroExtend 64
  | .lfsrseed => c.lfsrSeed.zeroExtend 64
  | .stall0 => stall (·.stall0)
  | .stall1 => stall (·.stall1)
  | .stall2 => stall (·.stall2)
  | .stall3 => stall (·.stall3)
  | .promlog => BitVec.ofNat 64 c.promLog
  | .accsat => c.accSat.zeroExtend 64
  | .lateCnt => BitVec.ofNat 64 c.lateCnt
  | .trapcause => t.trapCause.zeroExtend 64
  | .trapaddr => t.trapAddr
  | .trapinfo => t.trapInfo
  | .epc => t.epc.zeroExtend 64

/-- What of the shared state a special register is (15:R217). -/
def sregRes : SReg → List Res
  | .accsat => [.accsat]
  | .lfsrseed => [.lfsr]
  | _ => []

def execMfs (sd : BitVec 5) (reg : SReg) (s : State) : Host.Outcome State Fault Refusal :=
  onTask s fun t =>
    if s.cell0.inTheWay s.now (sregRes reg) [] then s.retry t none
    else s.result t sd (s.readSReg t reg) 2

/-- A special register written; `none` where it is read only (09:R152). -/
def State.writeSReg (s : State) (t : Task) (r : SReg) (v : Word) : Option (State × Task) :=
  let n := v.toNat
  let cell (f : Cell → Cell) : Option (State × Task) := some (s.updCell0 f, t)
  let node (f : Node → Node) : Option (State × Task) := some (s.updNode s.focus.toNat t.ver t.node f, t)
  match r with
  | .callmax => cell fun c => { c with callMax := v.truncate 4 }
  | .stall0 => node fun x => { x with stall0 := n % 2 ^ 32 }
  | .stall1 => node fun x => { x with stall1 := n % 2 ^ 32 }
  | .stall2 => node fun x => { x with stall2 := n % 2 ^ 32 }
  | .stall3 => node fun x => { x with stall3 := n % 2 ^ 32 }
  | .promlog => cell fun c =>
      { c with vstall := n / 2 ^ 32, served := n / 2 ^ 16 % 2 ^ 16, eager := n / 2 ^ 8 % 2 ^ 8 }
  | .accsat => cell fun c => { c with accSat := v.truncate 5 }
  | .lateCnt => cell fun c => { c with lateCnt := n % 2 ^ 32 }
  | .trapaddr => some (s, { t with trapAddr := v })
  | .trapinfo => some (s, { t with trapInfo := v })
  | .epc => some (s, { t with epc := v.truncate 10 })
  | .cyc | .phcS | .phcNs | .coord | .stage | .ctxid | .iter | .ver | .calldepth | .split | .lfsrseed | .trapcause => none

/-- MTS but for the three registers that have forms of their own; a read-only register raises PROTECTION. -/
def execMts (reg : SReg) (sa : Spec) (s : State) : Host.Outcome State Fault Refusal :=
  onTask s fun t =>
    let u := t.touch [sa]
    match s.writeSReg u reg (t.val sa) with
    | none => s.raiseWord t Cause.protection
    | some (s', u) =>
      if s.cell0.inTheWay s.now [] (sregRes reg) then s.retry t none else s'.complete u

/-- MTS SPLIT: the bits above the register are ignored, then SPLIT (17:R268). -/
def execMtsSplit (sa : Spec) (s : State) : Host.Outcome State Fault Refusal :=
  onTask s fun t => s.splitTo (t.touch [sa]) ((t.val sa).toNat % 8)

/-- MTS LFSRSEED reseeds every lane (03:R48). -/
def execMtsLfsrseed (sa : Spec) (s : State) : Host.Outcome State Fault Refusal :=
  onTask s fun t =>
    let u := t.touch [sa]
    if s.cell0.inTheWay s.now [] [.lfsr] then s.retry t none
    else (s.updCell0 fun c => c.seed ((t.val sa).truncate 16)).complete u

/-- MTS TRAPCAUSE stores the value and arms the task (23:R343). -/
def execMtsTrapcause (sa : Spec) (s : State) : Host.Outcome State Fault Refusal :=
  onTask s fun t => s.complete { t.touch [sa] with trapCause := (t.val sa).truncate 8, armed := true }

/-! ## Traps (19:R301, R302; 23:R343) -/

def execTrap (code : BitVec 8) (sa : Spec) (s : State) : Host.Outcome State Fault Refusal :=
  onTask s fun t =>
    s.raise (t.touch [sa]) Cause.trap t.pc.toNat (code.toNat * 2 ^ 56 + (t.val sa).toNat % 2 ^ 56)

def execBkpt (code : BitVec 8) (s : State) : Host.Outcome State Fault Refusal :=
  onTask s fun t => s.raise t Cause.bkpt t.pc.toNat code.toNat

/-- ERET (19:R302): without a mark PROTECTION; past the end of the store ILLEGAL_OP. -/
def execEret (s : State) : Host.Outcome State Fault Refusal := onTask s fun t => s.returnFromTrap t

/-! ## STOP and RESUME (19:R303, R304) -/

/-- STOP: the entry with its reason, and the stop of the task's context, unless one is under way. -/
def execStop (sa : Spec) (s : State) : Host.Outcome State Fault Refusal :=
  onTask s fun t =>
    let u := t.touch [sa]
    let s' :=
      if (s.ctx t.ctx).stopping then s
      else
        (s.chronoAt s.focus.toNat 0x0A (t.val sa).toNat t.ver t.node t.iter.toNat t.ctx.toNat).beginStop t.ctx
    s'.complete u

/-- Node `n` of a cell's live version belongs to a context; a saved version still does (19:R304, 23:R347). -/
def State.liveNodeOf (s : State) (cell n : Nat) (ctx : BitVec 10) : Bool :=
  let v := (s.cell cell).version ((s.cell cell).liveVersion n)
  (match v.owner with | some (x, _) => x = ctx | none => false) && decide (n < v.nodes.length)

/-- Where a RESUME for node `n` of a cell goes: to the node's place as the agent of the sender's hall finds it, and to the
cell named where it finds none, which forwards the token (23:R336, R355). -/
def State.resumeTarget (s : State) (hall cell n : Nat) (ctx : BitVec 10) : Nat × Nat :=
  let v := (s.cell cell).version ((s.cell cell).liveVersion n)
  match v.owner, v.nodes[n]? with
  | some (_, i), some x => (match s.resolve hall ctx i x.gid with | some p => (p.cell, p.node) | none => (cell, n))
  | _, _ => (cell, n)

/-- RESUME: a CTRL RESUME token goes to the cell of the held object. -/
def execResume (sa : Spec) (s : State) : Host.Outcome State Fault Refusal :=
  onTask s fun t =>
    let u := t.touch [sa]
    let a := (t.val sa).toNat
    let cell := a % 2 ^ 18
    let n := a / 2 ^ 18 % 32
    let obj := a / 2 ^ 23 % 8
    if 6 ≤ obj ∨ (obj = 5 ∧ 16 ≤ n) then s.raiseWord u Cause.reservedField
    else if obj = 5 && ((s.cell cell).dslot n).foreign t.ctx then s.raiseWord u Cause.protection
    else if obj ≠ 5 && !s.liveNodeOf cell n t.ctx then s.raiseWord u Cause.protection
    else
      let dest := if obj = 5 then (cell, n) else s.resumeTarget (hallOf s.focus.toNat) cell n t.ctx
      (s.send ⟨s.focus.toNat, dest.1,
        .token
          { u.tok 3 .none 2 (BitVec.ofNat 64 (dest.1 + dest.2 * 2 ^ 18 + obj * 2 ^ 23)) with dst := BitVec.ofNat 18 dest.1 }
          none⟩).complete u

/-! ## Time and DBG (19:R300, R305) -/

def execCycrd (sd : BitVec 5) (s : State) : Host.Outcome State Fault Refusal := onTask s fun t => s.result t sd s.cyc 2

/-- PHCRD: seconds and nanoseconds of one instant into two scalars. -/
def execPhcrd (sd : BitVec 5) (s : State) : Host.Outcome State Fault Refusal :=
  onTask s fun t =>
    let t := (t.setReg sd (s.phcS.zeroExtend 64)).readyIn sd s.now 2
    s.result t (sd + 1) (BitVec.ofNat 64 s.phcNs) 2

/-- DBG writes an entry and never faults. -/
def execDbg (code : BitVec 8) (sa : Spec) (s : State) : Host.Outcome State Fault Refusal :=
  onTask s fun t =>
    (s.chronoAt s.focus.toNat 0x0B (code.toNat + (t.val sa).toNat * 2 ^ 8) t.ver t.node t.iter.toNat t.ctx.toNat).complete
      (t.touch [sa])

end Sys2Proof.Machine
end

