-- ==== Sys2Proof/Machine/Message.lean ====
section
/-! DEFINITION. Messages at their destination (19:R306; 09:R156; 05:R81, R88; 21:R321). -/

namespace Sys2Proof.Machine

/-! ## The frame of a message -/

/-- A message as it arrives: its packet, with its sender, its context and what it carries. -/
structure Arrived where
  src : Nat
  ctx : BitVec 10
  req : Option MsgReq
deriving DecidableEq, Repr

/-- The message at the place that the turn names, taken from the net; one that is not in the net comes from its
continuation cell. Absent where an earlier one must arrive first. -/
def State.takeMsg (s : State) (m : Msg) : Option (State × Arrived) :=
  match s.net[s.choice.n]? with
  | some ⟨src, _, .msg m' ctx req⟩ =>
    if m' = m then
      (s.arriving s.choice.n).map fun _ => (s.takePacket s.choice.n, ⟨src, ctx, req⟩)
    else some (s, ⟨m.ccell.toNat, 0, none⟩)
  | _ => some (s, ⟨m.ccell.toNat, 0, none⟩)

/-- A message of a version (05:R81, R88): held while LOADING, forwarded where the version is EMPTY, else handled. The
handling is an acquire (07:R118); where it gives nothing, the message waits. -/
def onMsg (s : State) (m : Msg) (versioned : Bool) (k : State → Arrived → Option State) :
    Host.Outcome State Fault Refusal :=
  match s.takeMsg m with
  | none => .next s
  | some (s', a) =>
    let c := m.dst.toNat
    let p : Packet := ⟨a.src, c, .msg m a.ctx a.req⟩
    let v := s'.version c m.ver
    if versioned && v.state = .loading then .next (s'.updVersion c m.ver fun v => { v with held := v.held ++ [p] })
    else if versioned && v.state = .empty then
      match v.owner with
      | some (ctx, i) => .next (s'.updCfg ctx i fun x => { x with vestMsgs := x.vestMsgs ++ [p] })
      | none => .next (s'.badMsg m)
    else
      match k (s'.acquire c (scopeBetween a.src c)) a with
      | some t => .next t
      | none => .next s

/-- A reply to the continuation, where one was asked for (19:R306); a release back to the requester (07:R118). -/
def State.reply (s : State) (m : Msg) (v : Word) (poison : Bool) (req : MsgReq := .answer) : State :=
  if m.ctag = 0xFF then s
  else
    let c := m.dst.toNat
    let d := m.ccell.toNat
    (s.pushTo c (scopeBetween c d)).send
      ⟨c, d, .msg { dst := m.ccell, poison := poison, ver := m.ver, op := 0x17, handler := 0, ccell := m.dst,
                    ctag := m.ctag, operand := v } 0 (some req)⟩

/-- A message that fails: dropped with BADMSG, and a null reply where one was asked for. -/
def State.failMsg (s : State) (m : Msg) : State := (s.badMsg m).reply m 0 m.poison .null

/-! ## Handler entries -/

def HEntry.base (e : HEntry) : Nat := bitsOf e.word.toNat 0 13
def HEntry.stride (e : HEntry) : Nat := bitsOf e.word.toNat 13 14
def HEntry.limit (e : HEntry) : Nat := bitsOf e.word.toNat 27 14
def HEntry.stores (e : HEntry) : Bool := e.word.getLsbD 41
def HEntry.atomics (e : HEntry) : Bool := e.word.getLsbD 42

/-- The entry that a message names; index 0 and an entry of limit 0 are none (09:R156). -/
def State.entryOf (s : State) (m : Msg) : Option HEntry :=
  if m.handler = 0 then none
  else
    match tget (s.version m.dst.toNat m.ver).handlers m.handler.toNat with
    | some e => if e.limit = 0 then none else some e
    | none => none

def State.setEntry (s : State) (m : Msg) (e : HEntry) : State :=
  s.updVersion m.dst.toNat m.ver fun v => { v with handlers := tput v.handlers m.handler.toNat e }

/-- The bank word of element `i`, if the entry has it. -/
def HEntry.elem? (e : HEntry) (i : Nat) : Option Nat :=
  let w := e.base + i * e.stride
  if e.limit ≤ i ∨ 8192 ≤ w then none else some w

/-- The bank word of element `i`; absent where the access fails. -/
def HEntry.word? (e : HEntry) (c : Cell) (i : Nat) : Option Nat := (e.elem? i).filter fun w => !c.rowForbidden (w / 16)

/-- An instruction in flight reads or writes the row of one of the elements: the access waits, before it can fail
(13:R184, 15:R217). -/
def Cell.elemsHeld (c : Cell) (now : Nat) (e : HEntry) (l : List Nat) : Bool :=
  c.inTheWay now [] ((l.filterMap e.elem?).map fun w => .row (w / 16))

/-- Bank word `w`. -/
def Cell.bankWord (c : Cell) (w : Nat) : Word := rowWord (c.row (w / 16)) (w % 16)

/-- A bank word written by a message (05:R72). -/
def Cell.setBankWord (c : Cell) (w : Nat) (v : Word) (taint : Bool) : Cell :=
  let c := c.setRow (w / 16) (setRowWord (c.row (w / 16)) (w % 16) v)
  if taint then c.setRowPoison (w / 16) true else c

/-- A message of an entry: without one it is dropped and not answered (09:R156). -/
def onEntry (s : State) (m : Msg) (k : State → Arrived → HEntry → Option State) : Host.Outcome State Fault Refusal :=
  onMsg s m true fun s a =>
    match s.entryOf m with
    | none => some (s.badMsg m)
    | some e => k s a e

/-! ## The actions -/

def execMnop (m : Msg) (s : State) : Host.Outcome State Fault Refusal :=
  onEntry s m fun s _ _ => some (s.reply m 0 m.poison)

/-- MLD reads an element; the access waits for an instruction in flight on its row (13:R184, 15:R217). -/
def execMld (m : Msg) (s : State) : Host.Outcome State Fault Refusal :=
  onEntry s m fun s _ e =>
    let c := s.cell m.dst.toNat
    let i := m.operand.toNat % 8192
    if c.elemsHeld s.now e [i] then none
    else
      match e.word? c i with
      | none => some (s.failMsg m)
      | some w => some (s.reply m (c.bankWord w) (m.poison || c.rowPoisoned (w / 16)))

/-- MST writes at the cursor. -/
def execMst (m : Msg) (s : State) : Host.Outcome State Fault Refusal :=
  onEntry s m fun s _ e =>
    let c := s.cell m.dst.toNat
    if c.elemsHeld s.now e [e.cursor] then none
    else
      match e.word? c e.cursor with
      | none => some (s.failMsg m)
      | some w =>
        if !e.stores then some (s.failMsg m)
        else
          let s := s.updCell m.dst.toNat fun c => c.setBankWord w m.operand m.poison
          let s := s.setEntry m { e with cursor := (e.cursor + 1) % e.limit, last := m.operand }
          some (s.reply m (BitVec.ofNat 64 e.cursor) m.poison)

/-- A message atomic on element 0 (19:R306, 07:R137). -/
def msgAtomic (s : State) (m : Msg) (op : Nat) : Host.Outcome State Fault Refusal :=
  onEntry s m fun s _ e =>
    let c := s.cell m.dst.toNat
    if c.elemsHeld s.now e [0] then none
    else
      match e.word? c 0 with
      | none => some (s.failMsg m)
      | some w =>
        if !e.atomics then some (s.failMsg m)
        else
          let old := c.bankWord w
          let taint := m.poison || c.rowPoisoned (w / 16)
          let new := BitVec.ofNat 64 (atomicNew op 64 old.toNat m.operand.toNat 0)
          some ((s.updCell m.dst.toNat fun c => c.setBankWord w new taint).reply m old taint)

def execMaadd (m : Msg) (s : State) := msgAtomic s m 0
def execMamin (m : Msg) (s : State) := msgAtomic s m 1
def execMamax (m : Msg) (s : State) := msgAtomic s m 2
def execMaand (m : Msg) (s : State) := msgAtomic s m 3
def execMaor (m : Msg) (s : State) := msgAtomic s m 4
def execMaxor (m : Msg) (s : State) := msgAtomic s m 5
def execMswp (m : Msg) (s : State) := msgAtomic s m 6
def execMinc (m : Msg) (s : State) := msgAtomic s m 8

/-- MPACK: the packet's words are stored as successive MSTs (21:R321). -/
def execMpack (m : Msg) (s : State) : Host.Outcome State Fault Refusal :=
  onEntry s m fun s _ e =>
    let c := s.cell m.dst.toNat
    let x := m.operand.toNat
    let fmt := bitsOf x 61 3
    let n := bitsOf x 0 16 + 1
    let is := (upTo (min n e.limit)).map fun i => (e.cursor + i) % e.limit
    let ws := is.map fun i => e.word? c i
    if c.elemsHeld s.now e is then none
    else if bitsOf x 16 45 ≠ 0 ∨ 1 < fmt ∨ !e.stores ∨ ws.any (·.isNone) then some (s.failMsg m)
    else
      let v : Word := if fmt = 0 then 0 else e.last
      let s := s.updCell m.dst.toNat fun c =>
        (ws.filterMap id).foldl (fun c w => c.setBankWord w v m.poison) c
      let s := s.setEntry m { e with cursor := (e.cursor + n) % e.limit, last := v }
      some (s.reply m (BitVec.ofNat 64 ((e.cursor + n - 1) % e.limit)) m.poison)

/-! ## Messages of the module -/

/-- A request reaches its target's cell: it joins the requester's pending one, or waits (07:R126, R128). -/
def Cell.joinProm (c : Cell) (r : PromReq) : Cell :=
  match c.prom with
  | some (l, n) =>
    if l.any (·.cell = r.cell) then { c with prom := some (l ++ [r], n) }
    else { c with promWaiting := c.promWaiting ++ [r] }
  | none => { c with promWaiting := c.promWaiting ++ [r] }

/-- MSTOP: STOP from the agent for a node (19:R306, 23:R349). -/
def execMstop (m : Msg) (s : State) : Host.Outcome State Fault Refusal :=
  onMsg s m true fun s _ =>
    some (s.updNode m.dst.toNat m.ver (m.operand.toNat % 32) fun n => { n with stopAgent := true })

/-- What a RESUME releases at a node: an input port, or the address port (19:R304, 23:R347). -/
def State.releasePort (s : State) (cell : Nat) (ver : Bool) (node port : Nat) : State :=
  let v := s.version cell ver
  let rs := (v.bindingsOf node port).map (·.1)
  each rs s fun s r => (s.updBinding cell ver r fun b => { b with heldSince := none }).drain cell ver r 17

/-- The address port is released: held tasks, passes and wave operations of the node try again. -/
def State.releaseAddress (s : State) (cell : Nat) (ver : Bool) (node : Nat) : State :=
  let s := s.updNode cell ver node fun n => { n with heldSince := none }
  s.updCell cell fun c =>
    { c with tasks := c.tasks.map fun (i, t) =>
        (i, if t.ver = ver ∧ t.node = node then
            (match t.wait with | .held _ => { t with wait := .retry none false, waitAt := none } | _ => t)
          else t) }

/-- MRESUME: RESUME for a node, whatever it holds. -/
def execMresume (m : Msg) (s : State) : Host.Outcome State Fault Refusal :=
  onMsg s m true fun s _ =>
    let c := m.dst.toNat
    let n := m.operand.toNat % 32
    some ((each (upTo 4) s fun s p => s.releasePort c m.ver n p).releaseAddress c m.ver n)

/-- MCFGW of a handler entry. -/
def execMcfgwEntry (m : Msg) (s : State) : Host.Outcome State Fault Refusal :=
  onMsg s m true fun s _ =>
    some (s.updVersion m.dst.toNat m.ver fun v =>
      { v with handlers := tput v.handlers (bitsOf m.operand.toNat 54 10) { word := m.operand.truncate 43 } })

/-- MCFGW of a pair: a value that R43 turns away is dropped; the write waits for what reads the pair (15:R217, R222). -/
def execMcfgwPair (m : Msg) (s : State) : Host.Outcome State Fault Refusal :=
  onMsg s m true fun s _ =>
    let k := bitsOf m.operand.toNat 54 10 - 0x100
    let x := m.operand.toNat % 2 ^ 32
    match pairFault x with
    | some _ => some (s.badMsg m)
    | none =>
      if (s.cell m.dst.toNat).inTheWay s.now [] [.pair k] then none
      else some (s.updCell m.dst.toNat fun c => { c with pp := tset c.pp pairReset k (BitVec.ofNat 32 x) })

/-- MOWN sets the owner bits during a restore. -/
def execMown (m : Msg) (s : State) : Host.Outcome State Fault Refusal :=
  onMsg s m false fun s _ => some (s.updCell m.dst.toNat fun c => { c with owner := m.operand.truncate 8 })

/-- MBAR: the remote wait of R273; one that a full home refuses is tried again there. It is held where the version it
bears is LOADING, and forwarded where a configuration has left that version. DESIGN CHOICE (log entry 27): one that bears a
version of the home in which nothing has been installed, or whose epoch has closed, acts at the home's table, which belongs to
no version. -/
def execMbar (m : Msg) (s : State) : Host.Outcome State Fault Refusal :=
  let v := s.version m.dst.toNat m.ver
  onMsg s m (v.state ≠ .empty || v.epochOpen) fun s a =>
    let home := m.dst.toNat
    let w : BarWaiter := match a.req with
      | some (.bar w) => w
      | _ => ⟨bitsOf m.operand.toNat 0 8, a.ctx, BitVec.ofNat 12 (bitsOf m.operand.toNat 8 12), ⟨m.ccell.toNat, 0⟩⟩
    match s.barWait home w with
    | .done s => some (s.endWait home w false)
    | .parked s => some s
    | .held | .refused => some (s.updCell home fun c => { c with barHeldWaits := c.barHeldWaits ++ [w] })

/-- MTRAP raises a cause against a node. Address and iteration of the record the spec leaves open (log entry 8). -/
def execMtrap (m : Msg) (s : State) : Host.Outcome State Fault Refusal :=
  onMsg s m true fun s _ =>
    let x := m.operand.toNat
    let ctx := match (s.version m.dst.toNat m.ver).owner with | some (c, _) => c | none => 0
    let n : NodeRef := (nodeRef m.dst.toNat m.ver (bitsOf x 8 5) ctx ((Config.freeWord s.fresh 36).truncate 12))
    some (s.useFree.nodeFault n (bitsOf x 0 8) (Config.freeWord s.fresh 35).toNat (x / 2 ^ 13))

/-! ## The queue's messages -/

/-- Entry that a message pushes (19:R306). -/
def msgEntry (m : Msg) (ctx : BitVec 10) : MqEntry :=
  ⟨BitVec.ofNat 32 (m.operand.toNat / 2 ^ 32), BitVec.ofNat 64 (m.operand.toNat % 2 ^ 32), ctx, m.poison⟩

def execMsgMqpush (m : Msg) (s : State) : Host.Outcome State Fault Refusal :=
  onEntry s m fun s a _ =>
    let h := hallOf m.dst.toNat
    if mqCapacity ≤ (s.hall h).mq.length then some (s.failMsg m)
    else some ((s.updHall h fun x => { x with mq := x.mq ++ [msgEntry m a.ctx] }).reply m 0 m.poison)

/-- MQPOP by message: it waits at the queue; without a reply tag it is BADMSG. -/
def execMsgMqpop (m : Msg) (s : State) : Host.Outcome State Fault Refusal :=
  onEntry s m fun s a _ =>
    if m.ctag = 0xFF then some (s.badMsg m)
    else
      some (s.updHall (hallOf m.dst.toNat) fun x =>
        { x with mqPops := x.mqPops ++ [⟨a.ctx, 0, 0, 0, 0, some m⟩] })

/-- MSPAWN waits at the queue while it is full. -/
def execMspawn (m : Msg) (s : State) : Host.Outcome State Fault Refusal :=
  onEntry s m fun s a _ =>
    let h := hallOf m.dst.toNat
    if mqCapacity ≤ (s.hall h).mq.length then
      some (s.updHall h fun x => { x with mqPush := x.mqPush ++ [(msgEntry m a.ctx, some m)] })
    else some ((s.updHall h fun x => { x with mq := x.mq ++ [msgEntry m a.ctx] }).reply m 0 m.poison)

/-! ## Replies -/

/-- LDA.PROM's request is answered; an unknown target is told apart (07:R123). -/
def State.answerProm (s : State) (r : PromReq) (badNode : Bool) : State :=
  s.updCell r.cell fun c =>
    { c with ops := c.ops.map fun o =>
        if o.id = r.op then (match o.kind with | .prom _ _ => { o with kind := .prom true badNode } | _ => o) else o }

/-- The reply is one that the module formed: it names the control entry (19:R306; log entry 19). -/
def MsgReq.replies : MsgReq → Bool
  | .answer | .null | .prom _ | .bar _ => true
  | _ => false

/-- A reply's DATA token on the ORDERED port bound to the continuation tag; its iteration the spec leaves open, and it has
taken no credit (19:R306; log entry 8). A full FIFO holds it. -/
def State.replyToken (s : State) (m : Msg) (null : Bool) : Option State :=
  let c := m.dst.toNat
  let v := s.version c m.ver
  match v.bindings[m.ctag.toNat]?, v.owner with
  | some b, some (ctx, _) =>
    let ordered : Bool := match v.nodes[b.node]? with | some n => (n.inputs[b.port]?).join = some true | none => false
    if !ordered then some (s.badMsg m)
    else if 16 ≤ b.fifo.length then none
    else
      some (s.useFree.enterFifo c m.ver m.ctag.toNat
        { kind := 0, dst := m.dst, poison := m.poison, ver := m.ver, rtag := m.ctag, ctx := ctx
          iter := (Config.freeWord s.fresh 37).truncate 12, pred := if null then .null else .none
          payload := m.operand, scope := scopeBetween m.ccell.toNat c, free := true })
  | _, _ => some (s.badMsg m)

/-- A cell has taken the place of another for a configuration of the context (23:R355). -/
def State.replaced (s : State) (ctx : BitVec 10) (old new : Nat) : Bool :=
  s.cfgs.any fun x => decide (x.1 / 65536 = ctx.toNat) && x.2.moved.contains (old, new)

/-- MREPLY: the answer to a promotion or to a remote wait, or a token. A task's own MREPLY names an entry as any message
does (09:R156). -/
def execMreply (m : Msg) (s : State) : Host.Outcome State Fault Refusal :=
  onMsg s m (match s.net[s.choice.n]? with
      | some ⟨_, _, .msg _ _ (some (.prom _))⟩ | some ⟨_, _, .msg _ _ (some (.bar _))⟩ => false
      | _ => true) fun s a =>
    let c := m.dst.toNat
    match a.req with
    | some (.prom r) => some (s.answerProm r false)
    | some (.bar w) =>
      some (s.asTask c w.task.slot fun s t =>
        match t.wait with
        | .bar h b p =>
          if (h = a.src ∨ s.replaced w.ctx h a.src) ∧ b = w.bid ∧ p = w.phase ∧ s.taskHalted c t = false then
            s.complete { t with taint := t.taint || m.poison }
          else s
        | _ => s)
    | req =>
      if !req.any MsgReq.replies && (s.entryOf m).isNone then some (s.badMsg m)
      else s.replyToken m (req = some .null)

end Sys2Proof.Machine
end

