-- ==== Sys2Proof/Machine/Scalar.lean ====
section
/-! DEFINITION. Classes SR and SI (11:R165 to R174). -/

namespace Sys2Proof.Machine

/-! ## The values -/

/-- Bits [127:64] of the signed product (11:R168). -/
def mulHigh (a b : Word) : Word := BitVec.ofInt 64 (a.toInt * b.toInt / 2 ^ 64)

/-- Bits [127:64] of the unsigned product (11:R168). -/
def mulHighU (a b : Word) : Word := BitVec.ofNat 64 (a.toNat * b.toNat / 2 ^ 64)

/-- Shift counts are b[5:0] (11:R168). -/
def shl64 (a b : Word) : Word := a <<< (b.toNat % 64)
def shr64 (a b : Word) : Word := a >>> (b.toNat % 64)
def sra64 (a b : Word) : Word := a.sshiftRight (b.toNat % 64)
def rot64 (a b : Word) : Word := a.rotateLeft (b.toNat % 64)

def smin64 (a b : Word) : Word := if a.sle b then a else b
def smax64 (a b : Word) : Word := if b.sle a then a else b
def umin64 (a b : Word) : Word := if a.ule b then a else b
def umax64 (a b : Word) : Word := if b.ule a then a else b

/-- Leading zero bits of the low `n` bits; `n` when they are zero (11:R172). -/
def leadingZeros (x : Nat) : Nat → Nat
  | 0 => 0
  | n + 1 => if x / 2 ^ n % 2 = 1 then 0 else leadingZeros x n + 1

/-- One bits among the low `n` bits (11:R172). -/
def ones (x : Nat) : Nat → Nat
  | 0 => 0
  | n + 1 => ones x n + x / 2 ^ n % 2

/-- BFX and BFI; the field holds len - 1 (11:R172). -/
def bitField (a : Word) (pos len : Nat) : Word := BitVec.ofNat 64 (a.toNat / 2 ^ pos % 2 ^ len)

def bitInsert (a b : Word) (pos len : Nat) : Word :=
  let m : Word := BitVec.ofNat 64 ((2 ^ len - 1) * 2 ^ pos)
  (b &&& ~~~m) ||| ((a <<< pos) &&& m)

/-! ## Class SR -/

def execAdd (sd : BitVec 5) (sa sb : Spec) (s : State) := scalarOp s sd [sa, sb] 1 fun t => t.val sa + t.val sb
def execSub (sd : BitVec 5) (sa sb : Spec) (s : State) := scalarOp s sd [sa, sb] 1 fun t => t.val sa - t.val sb
def execMul (sd : BitVec 5) (sa sb : Spec) (s : State) := scalarOp s sd [sa, sb] 3 fun t => t.val sa * t.val sb
def execMulh (sd : BitVec 5) (sa sb : Spec) (s : State) := scalarOp s sd [sa, sb] 3 fun t => mulHigh (t.val sa) (t.val sb)
def execMulhu (sd : BitVec 5) (sa sb : Spec) (s : State) :=
  scalarOp s sd [sa, sb] 3 fun t => mulHighU (t.val sa) (t.val sb)

/-- The divider of the cell accepts one operation every 32 cycles (11:R166, R167). -/
def Cell.dividerBusy (c : Cell) (now : Nat) : Bool := c.flights.any fun f => f.unit_ = .divider && decide (now < f.until_)

/-- DIVU and REMU: a zero divisor raises ARITH before the divider is taken; a busy divider keeps the task waiting
(11:R167, R170). -/
def divideOp (s : State) (sd : BitVec 5) (sa sb : Spec) (f : Nat → Nat → Nat) : Host.Outcome State Fault Refusal :=
  onTask s fun t =>
    let a := t.val sa
    let b := t.val sb
    let u := t.touch [sa, sb]
    if b = 0 then s.raise u Cause.arith t.pc.toNat a.toNat
    else if s.cell0.dividerBusy s.now then s.retry t none
    else
      let s := s.updCell0 fun c => { c with flights := ⟨.divider, s.now + 32, [], []⟩ :: c.flights }
      s.result u sd (BitVec.ofNat 64 (f a.toNat b.toNat)) 34

def execDivu (sd : BitVec 5) (sa sb : Spec) (s : State) := divideOp s sd sa sb fun a b => a / b
def execRemu (sd : BitVec 5) (sa sb : Spec) (s : State) := divideOp s sd sa sb fun a b => a % b
def execAnd (sd : BitVec 5) (sa sb : Spec) (s : State) := scalarOp s sd [sa, sb] 1 fun t => t.val sa &&& t.val sb
def execOr (sd : BitVec 5) (sa sb : Spec) (s : State) := scalarOp s sd [sa, sb] 1 fun t => t.val sa ||| t.val sb
def execXor (sd : BitVec 5) (sa sb : Spec) (s : State) := scalarOp s sd [sa, sb] 1 fun t => t.val sa ^^^ t.val sb
def execAndn (sd : BitVec 5) (sa sb : Spec) (s : State) := scalarOp s sd [sa, sb] 1 fun t => t.val sa &&& ~~~(t.val sb)
def execShl (sd : BitVec 5) (sa sb : Spec) (s : State) := scalarOp s sd [sa, sb] 1 fun t => shl64 (t.val sa) (t.val sb)
def execShr (sd : BitVec 5) (sa sb : Spec) (s : State) := scalarOp s sd [sa, sb] 1 fun t => shr64 (t.val sa) (t.val sb)
def execSra (sd : BitVec 5) (sa sb : Spec) (s : State) := scalarOp s sd [sa, sb] 1 fun t => sra64 (t.val sa) (t.val sb)
def execRot (sd : BitVec 5) (sa sb : Spec) (s : State) := scalarOp s sd [sa, sb] 1 fun t => rot64 (t.val sa) (t.val sb)
def execMin (sd : BitVec 5) (sa sb : Spec) (s : State) := scalarOp s sd [sa, sb] 1 fun t => smin64 (t.val sa) (t.val sb)
def execMax (sd : BitVec 5) (sa sb : Spec) (s : State) := scalarOp s sd [sa, sb] 1 fun t => smax64 (t.val sa) (t.val sb)
def execMinu (sd : BitVec 5) (sa sb : Spec) (s : State) := scalarOp s sd [sa, sb] 1 fun t => umin64 (t.val sa) (t.val sb)
def execMaxu (sd : BitVec 5) (sa sb : Spec) (s : State) := scalarOp s sd [sa, sb] 1 fun t => umax64 (t.val sa) (t.val sb)

def execClz (sd : BitVec 5) (sa : Spec) (s : State) :=
  scalarOp s sd [sa] 1 fun t => BitVec.ofNat 64 (leadingZeros (t.val sa).toNat 64)
def execPopc (sd : BitVec 5) (sa : Spec) (s : State) :=
  scalarOp s sd [sa] 1 fun t => BitVec.ofNat 64 (ones (t.val sa).toNat 64)
def execBfx (sd : BitVec 5) (sa : Spec) (pos len1 : BitVec 6) (s : State) :=
  scalarOp s sd [sa] 1 fun t => bitField (t.val sa) pos.toNat (len1.toNat + 1)
def execBfi (sd : BitVec 5) (sa sb : Spec) (pos len1 : BitVec 6) (s : State) :=
  scalarOp s sd [sa, sb] 1 fun t => bitInsert (t.val sa) (t.val sb) pos.toNat (len1.toNat + 1)
def execMadd (sd : BitVec 5) (sa sb sc : Spec) (s : State) :=
  scalarOp s sd [sa, sb, sc] 3 fun t => t.val sa * t.val sb + t.val sc
def execAddr (sd : BitVec 5) (sa sb : Spec) (sh : BitVec 4) (s : State) :=
  scalarOp s sd [sa, sb] 1 fun t => t.val sa + (t.val sb <<< sh.toNat)
def execCmp (cc : Cond) (pd : BitVec 3) (sa sb : Spec) (s : State) :=
  predOp s [sa, sb] pd fun t => condHolds cc (t.val sa) (t.val sb)

/-- SEL reads both sources (11:R173). -/
def execSel (sd : BitVec 5) (ps : BitVec 3) (sa sb : Spec) (s : State) :=
  scalarOp s sd [sa, sb] 1 fun t => if t.pred ps then t.val sa else t.val sb

/-! ## Class SI (11:R169, R173, R174) -/

def execAddi (sd : BitVec 5) (sa : Spec) (imm : BitVec 32) (s : State) := scalarOp s sd [sa] 1 fun t => t.val sa + immOf imm
def execMuli (sd : BitVec 5) (sa : Spec) (imm : BitVec 32) (s : State) := scalarOp s sd [sa] 3 fun t => t.val sa * immOf imm
def execAndi (sd : BitVec 5) (sa : Spec) (imm : BitVec 32) (s : State) := scalarOp s sd [sa] 1 fun t => t.val sa &&& immOf imm
def execOri (sd : BitVec 5) (sa : Spec) (imm : BitVec 32) (s : State) := scalarOp s sd [sa] 1 fun t => t.val sa ||| immOf imm
def execXori (sd : BitVec 5) (sa : Spec) (imm : BitVec 32) (s : State) := scalarOp s sd [sa] 1 fun t => t.val sa ^^^ immOf imm
def execShli (sd : BitVec 5) (sa : Spec) (n : BitVec 6) (s : State) := scalarOp s sd [sa] 1 fun t => t.val sa <<< n.toNat
def execShri (sd : BitVec 5) (sa : Spec) (n : BitVec 6) (s : State) := scalarOp s sd [sa] 1 fun t => t.val sa >>> n.toNat
def execSrai (sd : BitVec 5) (sa : Spec) (n : BitVec 6) (s : State) :=
  scalarOp s sd [sa] 1 fun t => (t.val sa).sshiftRight n.toNat
def execRoti (sd : BitVec 5) (sa : Spec) (n : BitVec 6) (s : State) := scalarOp s sd [sa] 1 fun t => (t.val sa).rotateLeft n.toNat
def execMini (sd : BitVec 5) (sa : Spec) (imm : BitVec 32) (s : State) :=
  scalarOp s sd [sa] 1 fun t => smin64 (t.val sa) (immOf imm)
def execMaxi (sd : BitVec 5) (sa : Spec) (imm : BitVec 32) (s : State) :=
  scalarOp s sd [sa] 1 fun t => smax64 (t.val sa) (immOf imm)
def execCmpi (cc : Cond) (pd : BitVec 3) (sa : Spec) (imm : BitVec 32) (s : State) :=
  predOp s [sa] pd fun t => condHolds cc (t.val sa) (immOf imm)
def execLi (sd : BitVec 5) (imm : BitVec 32) (s : State) := scalarOp s sd [] 1 fun _ => immOf imm
def execLih (sd : BitVec 5) (sa : Spec) (imm : BitVec 32) (s : State) :=
  scalarOp s sd [sa] 1 fun t => imm ++ (t.val sa).truncate 32

end Sys2Proof.Machine
end

