-- ==== Sys2Proof/Machine/Plane.lean ====
section
/-! DEFINITION. Class PL: integer lane arithmetic, compare and select, plane registers, counting, reduction, lookup,
compare-exchange, fixed-point exponentials (13:R181 to R201, R215). -/

namespace Sys2Proof.Machine

/-! ## Shared forms -/

/-- A three-operand instruction: `f` gives a lane's code from the codes of a, b and the old destination
(13:R181 to R185). -/
def pl3Op (s : State) (o : Pl3) (cycles : Pair → Nat → Nat) (usesD draws : Bool) (bad : Pair → List (Bool × Nat))
    (f : Pair → Nat → Nat → Nat → Nat → Nat → Nat) : Host.Outcome State Fault Refusal :=
  onTask s fun t =>
    let p := s.cell0.pair o.pp
    let n := o.n1.toNat + 1
    let sr := draws && p.mode = 4
    arrayOp s t (firstBad ((!isIntFmt p.fmtA || !isIntFmt p.fmtB, Cause.format) :: bad p))
      { reads := rowsRes o.ba.toNat p.pa ++ rowsRes o.bb.toNat p.pb ++ (if usesD then rowsRes o.bd.toNat n else [])
          ++ maskRes o.mask ++ [.pair o.pp.toNat] ++ drawRes sr
        writes := rowsRes o.bd.toNat n ++ drawRes sr, cycles := cycles p n }
      fun c t =>
        let mask := c.laneMask o.mask
        let a := laneCode (c.rows o.ba.toNat p.pa)
        let b := laneCode (c.rows o.bb.toNat p.pb)
        let d := if usesD then laneCode (c.rows o.bd.toNat n) else fun _ => 0
        let r := (upTo 1024).map fun j => f p n (a j) (b j) (d j) (c.word sr j)
        ((c.putRows o.bd.toNat (planesOf n r) mask t.taint).drawMasked sr mask, t)

/-- The signedness of a result of two operands (13:R181). -/
def Pair.signed (p : Pair) : Bool := p.fmtA = 0 || p.fmtB = 0

/-- Arithmetic on the exact values, then Fit (13:R191). -/
def arith3 (s : State) (o : Pl3) (cycles : Pair → Nat → Nat) (f : Int → Int → Int) : Host.Outcome State Fault Refusal :=
  pl3Op s o cycles false false (fun _ => []) fun p n a b _ _ =>
    fit (f (intVal p.fmtA a p.pa) (intVal p.fmtB b p.pb)) p.signed n p.sat

/-- A two-operand instruction: `f` gives the codes of all lanes from the codes of a (13:R181 to R185). -/
def pl2Op (s : State) (o : Pl2) (cycles : Pair → Nat → Nat) (draws : Bool) (bad : Pair → Nat → List (Bool × Nat))
    (f : Pair → Nat → Row → (Nat → Nat) → (Nat → Nat) → Nat → Nat) : Host.Outcome State Fault Refusal :=
  onTask s fun t =>
    let p := s.cell0.pair o.pp
    let n := o.n1.toNat + 1
    let sr := draws && p.mode = 4
    arrayOp s t (firstBad ((!isIntFmt p.fmtA, Cause.format) :: bad p n))
      { reads := rowsRes o.ba.toNat p.pa ++ maskRes o.mask ++ [.pair o.pp.toNat] ++ drawRes sr
        writes := rowsRes o.bd.toNat n ++ drawRes sr, cycles := cycles p n }
      fun c t =>
        let mask := c.laneMask o.mask
        let a := laneCode (c.rows o.ba.toNat p.pa)
        let r := (upTo 1024).map (f p n mask a (c.word sr))
        ((c.putRows o.bd.toNat (planesOf n r) mask t.taint).drawMasked sr mask, t)

/-- Arithmetic on one exact value, then Fit (13:R191). -/
def arith2 (s : State) (o : Pl2) (draws : Bool) (sg : Pair → Bool) (f : Pair → Nat → Nat → Int) :
    Host.Outcome State Fault Refusal :=
  pl2Op s o (fun p n => 2 + max p.pa n) draws (fun _ _ => []) fun p n _ a w j =>
    fit (f p (a j) (w j)) (sg p) n p.sat

/-- Signedness of a one-operand result (13:R181). -/
def Pair.signedA (p : Pair) : Bool := p.fmtA = 0

def Pair.valA (p : Pair) (a : Nat) : Int := intVal p.fmtA a p.pa

/-! ## Integer lane arithmetic (13:R191) -/

def addCycles (p : Pair) (n : Nat) : Nat := 2 + max p.pa (max p.pb n)

def execPadd (o : Pl3) (s : State) := arith3 s o addCycles (· + ·)
def execPsub (o : Pl3) (s : State) := arith3 s o addCycles (· - ·)
def execPmul (o : Pl3) (s : State) := arith3 s o (fun p _ => 4 + p.pa * p.pb) (· * ·)
def execPmin (o : Pl3) (s : State) := arith3 s o addCycles min
def execPmax (o : Pl3) (s : State) := arith3 s o addCycles max

/-- PMAC reads its destination as the accumulator. -/
def execPmac (o : Pl3) (s : State) : Host.Outcome State Fault Refusal :=
  pl3Op s o (fun p n => 4 + p.pa * p.pb + n) true false (fun _ => []) fun p n a b d _ =>
    fit (intVal (if p.signed then 0 else 1) d n + intVal p.fmtA a p.pa * intVal p.fmtB b p.pb) p.signed n p.sat

def execPneg (o : Pl2) (s : State) := arith2 s o false (fun _ => true) fun p a _ => -p.valA a
def execPabs (o : Pl2) (s : State) := arith2 s o false Pair.signedA fun p a _ => ((p.valA a).natAbs : Int)
def execPmov (o : Pl2) (s : State) := arith2 s o false Pair.signedA fun p a _ => p.valA a
def execPshl (o : Pl2) (sh : BitVec 5) (s : State) :=
  arith2 s o false Pair.signedA fun p a _ => p.valA a * (2 ^ sh.toNat : Nat)

/-- PSHR takes the code without sign, PSRA with it; these two round (13:R191). -/
def execPshr (o : Pl2) (sh : BitVec 5) (s : State) :=
  arith2 s o true (fun _ => false) fun p a w => roundDiv (intVal 1 a p.pa) (2 ^ sh.toNat) p.mode w
def execPsra (o : Pl2) (sh : BitVec 5) (s : State) :=
  arith2 s o true (fun _ => true) fun p a w => roundDiv (intVal 0 a p.pa) (2 ^ sh.toNat) p.mode w

/-! ## Compare and select (13:R192) -/

/-- The condition of PCMP on values that carry their signedness; TST on codes extended to 32 bits. -/
def laneCond (cc : Cond) (a b : Int) : Bool :=
  match cc with
  | .eq => a = b
  | .ne => a ≠ b
  | .lt | .ltu => a < b
  | .ge | .geu => b ≤ a
  | .gt | .gtu => b < a
  | .le | .leu => a ≤ b
  | .tst => wrapInt a 32 &&& wrapInt b 32 ≠ 0

def execPcmp (cc : Cond) (qd : BitVec 3) (ba bb : BitVec 9) (pp : BitVec 2) (mask : Option (BitVec 3)) (s : State) :
    Host.Outcome State Fault Refusal :=
  onTask s fun t =>
    let p := s.cell0.pair pp
    arrayOp s t (firstBad [(!isIntFmt p.fmtA || !isIntFmt p.fmtB, Cause.format)])
      { reads := rowsRes ba.toNat p.pa ++ rowsRes bb.toNat p.pb ++ maskRes mask ++ [.pair pp.toNat]
        writes := [.q qd.toNat], cycles := 2 + max p.pa p.pb }
      fun c t =>
        let a := laneCode (c.rows ba.toNat p.pa)
        let b := laneCode (c.rows bb.toNat p.pb)
        let r := (upTo 1024).map fun j =>
          laneCond cc (intVal p.fmtA (a j) p.pa) (intVal p.fmtB (b j) p.pb)
        (c.putQ qd (rowOf r) (c.laneMask mask) t.taint, t)

/-- PSEL reads both operands whatever the selector holds. -/
def execPsel (bd ba bb : BitVec 9) (pp : BitVec 2) (n1 : BitVec 5) (qs : BitVec 3) (s : State) :
    Host.Outcome State Fault Refusal :=
  onTask s fun t =>
    let p := s.cell0.pair pp
    let n := n1.toNat + 1
    arrayOp s t (firstBad [(!isIntFmt p.fmtA || !isIntFmt p.fmtB, Cause.format)])
      { reads := rowsRes ba.toNat p.pa ++ rowsRes bb.toNat p.pb ++ [.q qs.toNat, .pair pp.toNat]
        writes := rowsRes bd.toNat n, cycles := 2 + n }
      fun c t =>
        let sel := c.qRow qs
        let a := laneCode (c.rows ba.toNat p.pa)
        let b := laneCode (c.rows bb.toNat p.pb)
        let r := (upTo 1024).map fun j =>
          fit (if sel.getLsbD j then intVal p.fmtA (a j) p.pa else intVal p.fmtB (b j) p.pb) p.signed n p.sat
        (c.putRows bd.toNat (planesOf n r) allLanes t.taint, t)

/-! ## Plane registers (13:R193) -/

/-- A logic operation on plane registers, all lanes. -/
def qLogic (s : State) (qd : BitVec 3) (src : List (BitVec 3)) (f : Cell → Row) : Host.Outcome State Fault Refusal :=
  onTask s fun t =>
    arrayOp s t none { reads := src.map fun q => .q q.toNat, writes := [.q qd.toNat] } fun c t =>
      (c.putQ qd (f c) allLanes t.taint, t)

def execQand (qd qm qk : BitVec 3) (s : State) := qLogic s qd [qm, qk] fun c => c.qRow qm &&& c.qRow qk
def execQor (qd qm qk : BitVec 3) (s : State) := qLogic s qd [qm, qk] fun c => c.qRow qm ||| c.qRow qk
def execQxor (qd qm qk : BitVec 3) (s : State) := qLogic s qd [qm, qk] fun c => c.qRow qm ^^^ c.qRow qk
def execQandn (qd qm qk : BitVec 3) (s : State) := qLogic s qd [qm, qk] fun c => c.qRow qm &&& ~~~(c.qRow qk)
def execQnot (qd qm : BitVec 3) (s : State) := qLogic s qd [qm] fun c => ~~~(c.qRow qm)

def execQld (qd : BitVec 3) (ba : BitVec 9) (mask : Option (BitVec 3)) (s : State) : Host.Outcome State Fault Refusal :=
  onTask s fun t =>
    arrayOp s t none { reads := .row ba.toNat :: maskRes mask, writes := [.q qd.toNat] } fun c t =>
      (c.putQ qd (c.row ba.toNat) (c.laneMask mask) t.taint, t)

def execQst (bd : BitVec 9) (qd : BitVec 3) (mask : Option (BitVec 3)) (s : State) : Host.Outcome State Fault Refusal :=
  onTask s fun t =>
    arrayOp s t none { reads := .q qd.toNat :: maskRes mask, writes := [.row bd.toNat] } fun c t =>
      (c.putRow bd.toNat (c.qRow qd) (c.laneMask mask) t.taint, t)

/-! ## Counting (13:R194) -/

/-- The trim of one element (03:R55). -/
def trimOf (signed : Bool) (x w : Nat) : Nat :=
  if signed then
    let y := if x / 2 ^ (w - 1) % 2 = 1 then 2 ^ w - 1 - x % 2 ^ w else x
    min (leadingZeros y w - 1) (w - 1)
  else min (leadingZeros x w) (w - 1)

/-- A count as an unsigned result. -/
def countOp (s : State) (o : Pl2) (f : Pair → (Nat → Nat) → Nat → Nat) : Host.Outcome State Fault Refusal :=
  pl2Op s o (fun p n => 2 + p.pa + n) false (fun _ _ => []) fun p n _ a _ j => fit (f p a j) false n p.sat

def execPlz (o : Pl2) (s : State) := countOp s o fun p a j => leadingZeros (a j) p.pa
def execPpopc (o : Pl2) (s : State) := countOp s o fun p a j => ones (a j) p.pa
def execPtrimLane (o : Pl2) (s : State) := countOp s o fun p a j => trimOf (p.fmtA = 0) (a j) p.pa

/-- The least trim of the lane's block of 32, whatever the mask holds. -/
def execPtrimBlk (o : Pl2) (s : State) :=
  countOp s o fun p a j =>
    ((upTo 32).map fun i => trimOf (p.fmtA = 0) (a (j / 32 * 32 + i)) p.pa).foldl min p.pa

/-! ## Reduction and broadcast (13:R195, R196) -/

/-- The exact reduction of a non-empty list. -/
def reduceInts (op : RedOp) : List Int → Int
  | [] => 0
  | x :: r =>
    match op with
    | .sum => r.foldl (· + ·) x
    | .min => r.foldl min x
    | .max => r.foldl max x

def execPreduce (op : RedOp) (o : Pl2) (g : BitVec 5) (s : State) : Host.Outcome State Fault Refusal :=
  pl2Op s o (fun p n => 2 + p.pa + n * g.toNat) false (fun _ _ => []) fun p n mask a _ j =>
    let w := 2 ^ g.toNat
    if j % w = 0 then
      let sel := (upTo w).filterMap fun i => if mask.getLsbD (j + i) then some (p.valA (a (j + i))) else none
      fit (reduceInts op sel) p.signedA n p.sat
    else 0

/-- Lane L is read whatever the mask holds. -/
def execPbcast (o : Pl2) (lane : BitVec 10) (s : State) : Host.Outcome State Fault Refusal :=
  pl2Op s o (fun p n => 2 + max p.pa n) false (fun _ _ => []) fun p n _ a _ _ =>
    fit (p.valA (a lane.toNat)) p.signedA n p.sat

/-! ## Lookup (13:R197) -/

/-- The interpolated lookup of one lane. -/
def lookup (p : Pair) (table : Nat → Nat) (n a w : Nat) : Nat :=
  let u := (if p.fmtA = 0 then intVal 0 a p.pa + (2 ^ (p.pa - 1) : Nat) else intVal 1 a p.pa).toNat
  let d := 2 ^ (p.pa - 8)
  let i := u / d
  let lo := intVal p.fmtB (table i) p.pb
  let hi := if i = 255 then lo else intVal p.fmtB (table (i + 1)) p.pb
  fit (roundDiv (lo * d + (hi - lo) * (u - i * d : Nat)) d p.mode w) (p.fmtB = 0) n p.sat

def execPlut (o : Pl3) (s : State) : Host.Outcome State Fault Refusal :=
  onTask s fun t =>
    let p := s.cell0.pair o.pp
    let n := o.n1.toNat + 1
    let sr : Bool := p.mode = 4
    arrayOp s t (firstBad [(!isIntFmt p.fmtA || !isIntFmt p.fmtB, Cause.format),
        (decide (p.pa < 8) || decide (24 < p.pa), Cause.planeDecl)])
      { reads := rowsRes o.ba.toNat p.pa ++ rowsRes o.bb.toNat p.pb ++ maskRes o.mask ++ [.pair o.pp.toNat] ++ drawRes sr
        writes := rowsRes o.bd.toNat n ++ drawRes sr, cycles := 6 + p.pa + p.pb + (p.pa - 8) * (p.pb + 1) }
      fun c t =>
        let mask := c.laneMask o.mask
        let a := laneCode (c.rows o.ba.toNat p.pa)
        let table := laneCode (c.rows o.bb.toNat p.pb)
        let r := (upTo 1024).map fun j => lookup p table n (a j) (c.word sr j)
        ((c.putRows o.bd.toNat (planesOf n r) mask t.taint).drawMasked sr mask, t)

/-! ## Compare-exchange (13:R199, R200) -/

/-- The pair of the lower lane is ascending. -/
def ascending (dir : CexDir) (lower : Nat) : Bool :=
  match dir with
  | .asc => true
  | .desc => false
  | .bit h => lower / 2 ^ h.toNat % 2 = 0

/-- Lane that lane `j` takes its key from: its partner when both are selected and their keys are out of order. -/
def cexFrom (dir : CexDir) (g : Nat) (mask : Row) (less : Nat → Nat → Bool) (j : Nat) : Nat :=
  let low := if j / 2 ^ g % 2 = 0 then j else j - 2 ^ g
  let high := low + 2 ^ g
  let swap := mask.getLsbD low && mask.getLsbD high && (if ascending dir low then less high low else less low high)
  if swap then (if j = low then high else low) else j

def execCex (dir : CexDir) (o : Pl2) (g : BitVec 5) (s : State) : Host.Outcome State Fault Refusal :=
  pl2Op s o (fun p _ => 2 + 2 * p.pa) false (fun p n => [(n ≠ p.pa, Cause.planeDecl)]) fun p _ mask a _ j =>
    a (cexFrom dir g.toNat mask (fun x y => p.valA (a x) < p.valA (a y)) j)

/-- CEXI carries an index with each key; indices break ties and are rewritten in place. DESIGN CHOICE (log entry 27): where
the rows of the two results overlap, the indices are written last. -/
def execCexi (dir : CexDir) (o : Pl3) (g : BitVec 5) (s : State) : Host.Outcome State Fault Refusal :=
  onTask s fun t =>
    let p := s.cell0.pair o.pp
    let n := o.n1.toNat + 1
    arrayOp s t (firstBad [(!isIntFmt p.fmtA || !isIntFmt p.fmtB, Cause.format), (n ≠ p.pa, Cause.planeDecl)])
      { reads := rowsRes o.ba.toNat p.pa ++ rowsRes o.bb.toNat p.pb ++ maskRes o.mask ++ [.pair o.pp.toNat]
        writes := rowsRes o.bd.toNat n ++ rowsRes o.bb.toNat p.pb, cycles := 2 + 2 * (p.pa + p.pb) }
      fun c t =>
        let mask := c.laneMask o.mask
        let a := laneCode (c.rows o.ba.toNat p.pa)
        let b := laneCode (c.rows o.bb.toNat p.pb)
        let key (x : Nat) : Int := p.valA (a x)
        let idx (x : Nat) : Int := intVal p.fmtB (b x) p.pb
        let from_ := (upTo 1024).map (cexFrom dir g.toNat mask fun x y => key x < key y || (key x = key y && idx x < idx y))
        let c := c.putRows o.bd.toNat (planesOf n (from_.map fun j => a j)) mask t.taint
        (c.putRows o.bb.toNat (planesOf p.pb (from_.map fun j => b j)) mask t.taint, t)

/-! ## Fixed-point exponentials and logarithms (13:R201) -/

/-- `y · q` compared with `p · 2^(t / 2^F)`: the two sides raised to the power `2^F`. -/
def powSides (p q f : Nat) (t : Int) (y : Nat) : Nat × Nat :=
  ((y * q) ^ 2 ^ f * 2 ^ (-t).toNat, p ^ 2 ^ f * 2 ^ t.toNat)

/-- The greatest y below `2^bits` with `y · q ≤ p · 2^(t / 2^F)`. -/
def powFloor (p q f : Nat) (t : Int) : Nat → Nat → Nat
  | 0, y => y
  | k + 1, y =>
    let z := y + 2 ^ k
    let (l, r) := powSides p q f t z
    powFloor p q f t k (if l ≤ r then z else y)

/-- Bounds of PEXP2: `|y0 - Y| ≤ 1 + Y · 2^-12` with `Y = 2^(t / 2^F)`. -/
def expHigh (f : Nat) (t : Int) : Nat := 1 + powFloor 4097 4096 f t 35 0

def expLow (f : Nat) (t : Int) : Nat :=
  let y := powFloor 4095 4096 f t 35 0
  let (l, r) := powSides 4095 4096 f t y
  if l = r then y - 1 else y

/-- PEXP2 of the code value `a` with F and G fractional bits: the unstated rounding inside its bounds, the exact points
and monotony (log entry 8). Results from `2^34` on saturate every destination. -/
def exp2Value (f g : Nat) (a : Int) : Int :=
  let t := a + ((g * 2 ^ f : Nat) : Int)
  if ((34 * 2 ^ f : Nat) : Int) ≤ t then (2 ^ 34 : Nat)
  else
    let fl := t / ((2 ^ f : Nat) : Int)
    let ce := -((-t) / ((2 ^ f : Nat) : Int))
    let lo := max (expLow f t) (if 0 ≤ fl then 2 ^ fl.toNat else 0)
    let hi := min (expHigh f t) (2 ^ ce.toNat)
    (max lo (min (Config.exp2Guess f g (a + 2 ^ 31).toNat) hi) : Nat)

/-- PLOG2 of the code value `a`, at least 1, with F and G fractional bits. -/
def log2Value (f g a : Nat) : Int :=
  let p := Nat.log2 a
  let at_ (k : Nat) : Int := ((k : Int) - f) * (2 ^ g : Nat)
  if a = 2 ^ p then at_ p
  else
    let one : Int := 2 ^ 12
    let off : Int := (f : Int) * (2 ^ (g + 12) : Nat)
    let l := Nat.log2 (a ^ 2 ^ (g + 12))
    let hi := min (((l : Int) + one + (2 ^ g : Nat) - off) / one) (at_ (p + 1))
    let lo := max (-((-((l : Int) + 1 - one - (2 ^ g : Nat) - off)) / one)) (at_ p)
    max lo (min ((Config.log2Guess f g a : Nat) - (2 ^ 22 : Int)) hi)

/-- The frame of PEXP2 and PLOG2: one format of the source, F at most pa. -/
def fixedOp (s : State) (o : Pl2) (f : BitVec 5) (fmt : Nat) (y : Nat → Nat → Nat → Nat) :
    Host.Outcome State Fault Refusal :=
  pl2Op s o (fun p n => 12 + p.pa + 2 * n) false
    (fun p _ => [(p.fmtA ≠ fmt, Cause.format), (p.pa < f.toNat, Cause.planeDecl)])
    fun p n _ a _ j => y p.pa n (a j)

def execPexp2 (o : Pl2) (f : BitVec 5) (g : BitVec 4) (s : State) : Host.Outcome State Fault Refusal :=
  fixedOp s o f 0 fun pa n a => fit (exp2Value f.toNat g.toNat (intVal 0 a pa)) false n true

/-- PLOG2 of zero gives the least value. -/
def execPlog2 (o : Pl2) (f : BitVec 5) (g : BitVec 4) (s : State) : Host.Outcome State Fault Refusal :=
  fixedOp s o f 1 fun pa n a =>
    let x := a % 2 ^ pa
    if x = 0 then 2 ^ (n - 1) else fit (log2Value f.toNat g.toNat x) true n true

end Sys2Proof.Machine
end

