-- ==== Sys2Proof/Machine/Matrix.lean ====
section
/-! DEFINITION. Class MX but the optimiser: pairs, the operand latch, the multiply-accumulate forms, accumulator
instructions, systolic regions (03:R49 to R55; 15:R216 to R234). -/

namespace Sys2Proof.Machine

/-! ## Block alignment (03:R49) -/

/-- A block of 32 elements as it enters the array. -/
structure Aligned where
  q : List Int
  e : Int := 0
  poison : Bool := false
  clamped : Bool := false
  drew : Bool := false
deriving Repr

/-- BlockAlign of one block: width p of the significand, the block's scale byte, the words of its lanes. -/
def blockAlign (fmt p mode : Nat) (clamp : Bool) (byte : Nat) (xs : List Ev) (w : Nat → Nat) : Aligned :=
  let zeros := xs.map fun _ => (0 : Int)
  let odd := xs.any fun x => !x.finite
  if odd && !clamp then { q := zeros, poison := true }
  else
    let xs := xs.map fun x =>
      match x with
      | .nan => .num false 0 0
      | .inf neg =>
        match maxFinite fmt with
        | .num _ m e => .num neg m (e + if isBlockFmt fmt then scaleExp fmt byte else 0)
        | v => v
      | v => v
    let base := commonExp xs
    let amax := maxAbs (toInts xs base)
    if amax = 0 then { q := zeros, clamped := odd }
    else
      let e := (Nat.log2 amax : Int) + base - ((p : Int) - 2)
      let lim : Int := (2 ^ (p - 1) : Nat) - 1
      { q := (upTo xs.length).map fun i =>
          satInt (roundMag ((xs.getD i (.num false 0 0)).scale (-e)) mode (w i)) (-lim) lim
        e := e, clamped := odd, drew := mode = 4 }

/-! ## Addition to an accumulator word (03:R53) -/

/-- An accumulator position: significand and exponent. -/
abbrev Acc := Int × Int

/-- AddAW: the new position, and whether it saturated. -/
def addAw (ints : Bool) (acc : Acc) (t y : Int) : Acc × Bool :=
  let lim : Int := 2 ^ 47 - 1
  if ints then
    let v := acc.1 + t
    let q := satInt v (-(2 ^ 47)) lim
    ((q, acc.2), v ≠ q)
  else
    let lo := min acc.2 y
    let v := acc.1 * 2 ^ (acc.2 - lo).toNat + t * 2 ^ (y - lo).toNat
    let x0 := max (if acc.1 = 0 then y else min acc.2 y) (-512)
    let rnd (x : Int) : Int := roundMag (.num (decide (v < 0)) v.natAbs (lo - x)) 0 0
    let x1 := if v = 0 then x0 else max x0 ((Nat.log2 v.natAbs : Int) + lo - 46)
    let x := if lim < (rnd x1).natAbs then x1 + 1 else x1
    if 511 < x then ((if 0 < v then lim else -lim, 511), true) else ((rnd x, x), false)

def accKey (tile r c : Nat) : Nat := tile * 64 + r * 8 + c

def Cell.acc (c : Cell) (tile r col : Nat) : Acc :=
  ((tgetD c.accS 0 (accKey tile r col)).toInt, (tgetD c.accX 0 (accKey tile r col)).toInt)

def Cell.setAcc (c : Cell) (tile r col : Nat) (a : Acc) : Cell :=
  { c with
    accS := tset c.accS 0 (accKey tile r col) (BitVec.ofInt 48 a.1)
    accX := tset c.accX 0 (accKey tile r col) (BitVec.ofInt 10 a.2) }

/-- AddAW at a position, with the tile's saturation bit (03:R51, R53). -/
def Cell.addAcc (ints : Bool) (tile : Nat) (c : Cell) (x : Nat × Nat × Int × Int) : Cell :=
  let (r, col, t, y) := x
  let (a, sat) := addAw ints (c.acc tile r col) t y
  let c := c.setAcc tile r col a
  if sat then { c with accSat := c.accSat ||| BitVec.twoPow 5 tile } else c

/-- The 64 positions of a tile. -/
def positions : List (Nat × Nat) := (upTo 8).flatMap fun r => (upTo 8).map fun c => (r, c)

def Cell.poisonTile (c : Cell) (tile : Nat) : Cell :=
  if c.tilePoison.contains tile then c else { c with tilePoison := tile :: c.tilePoison }

/-! ## Operands (15:R223 to R228) -/

/-- What the format and width of a matrix operand raise (03:R43, 15:R220). -/
def matFormatBad (f : Nat) : Bool := f = 0x10
def matWidthBad (f w : Nat) : Bool := if isIntFmt f then decide (16 < w) else decide (w < 2) || decide (16 < w)

/-- An element of an operand as an exact value: its code and its block's scale byte. -/
def elemOf (fmt w byte code : Nat) : Ev := if isBlockFmt fmt then blockVal fmt byte code else valOf fmt code w

/-- An operand as rows hold it: codes by lane, scale bytes by block of 32 lanes. -/
structure MatRows where
  codes : Nat → Nat
  bytes : Nat → Nat

def Cell.matRows (c : Cell) (base fmt w : Nat) : MatRows :=
  let n := storedPlanes fmt w
  ⟨laneCode (c.rows base n), fun b => scaleByte (c.row (base + n)) b⟩

/-- Blocks aligned one after another: each draw of a lane follows the lane's earlier ones (03:R46, 15:R226). A block is
its first lane in the operand, its scale byte, its codes, and the lanes whose generators it draws from. -/
def alignBlocks (c : Cell) (fmt w mode : Nat) (clamp : Bool) (drawn : List Nat) :
    List (Nat × List Nat × Nat) → List Aligned × List Nat
  | [] => ([], drawn)
  | (byte, codes, lane) :: r =>
    let a : Aligned :=
      if isIntFmt fmt then { q := codes.map fun e => intVal fmt e w }
      else
        blockAlign fmt w mode clamp byte (codes.map fun e => elemOf fmt w byte e) fun i =>
          if mode = 4 then
            ((lfsrStep^[drawn.count (lane + i)]) (tgetD c.lfsr (seedLane c.lfsrSeed (lane + i)) (lane + i))).toNat
          else 0
    let drawn := if a.drew then (upTo 32).map (lane + ·) ++ drawn else drawn
    let (l, d) := alignBlocks c fmt w mode clamp drawn r
    (a :: l, d)

/-- Thirty-two codes from a lane. -/
def block32 (m : MatRows) (lane : Nat) : List Nat := (upTo 32).map fun i => m.codes (lane + i)

/-- The source of operand A. -/
inductive SourceA where
  | rows (base : Nat) (half : Nat)
  | latch
  /-- element rows or latch with the scale bytes of two tokens (15:R228) -/
  | tokens (a : SourceA) (p q : Word)

def SourceA.isLatch : SourceA → Bool
  | .latch => true
  | .tokens .latch _ _ => true
  | _ => false

/-- A's blocks in ascending row and block: byte, codes, first lane. -/
def Cell.blocksA (c : Cell) (fmt w : Nat) : SourceA → List (Nat × List Nat × Nat)
  | .rows base half =>
    let m := c.matRows base fmt w
    (upTo 16).map fun i => let lane := 512 * half + 32 * i; (m.bytes (lane / 32), block32 m lane, lane)
  | .latch =>
    let codes := laneCode c.latch.planes
    (upTo 16).map fun i => (scaleByte c.latch.scale i, (upTo 32).map (fun k => codes (32 * i + k)), 32 * i)
  | .tokens a p q =>
    (c.blocksA fmt w a).mapIdx fun i x =>
      let tok := if i % 2 = 0 then p else q
      (tok.toNat / 2 ^ (8 * (i / 2)) % 256, x.2)

/-- B's blocks, K/32 a column: group, lane and scale byte of each (15:R223, R227). `first` is lane 0's half. -/
def Cell.blocksB (c : Cell) (base fmt w k first : Nat) : List (Nat × List Nat × Nat) :=
  let groups := (upTo ((8 * k + 1023) / 1024)).map fun g => c.matRows (base + g * groupRows fmt w) fmt w
  (upTo (8 * k / 32)).map fun i =>
    let at_ := 512 * first + 32 * i
    let m := groups.getD (at_ / 1024) ⟨fun _ => 0, fun _ => 0⟩
    (m.bytes (at_ % 1024 / 32), block32 m (at_ % 1024), at_ % 1024)

/-- The trim of a list of integers of width w (03:R55). -/
def trimAll (fmt w : Nat) (l : List Int) : Nat := l.foldl (fun a x => min a (trimOf (fmt ≠ 1) (wrapInt x w) w)) (w - 1)

/-- A multiply-accumulate form: operands, depth, and for the sparse forms the positions of the stored elements. -/
structure Mac where
  tile : Nat
  /-- the pair's number -/
  ppi : Nat
  pair : Pair
  a : SourceA
  bb : Nat
  halfB : Nat := 0
  /-- elements of a group, 8 for dense forms -/
  keep : Nat := 8
  /-- first metadata row of a sparse form, and the lane half of A -/
  posRow : Option (Nat × Nat) := none
  extra : Nat := 6

def Mac.depth (m : Mac) : Nat := match m.posRow with | some _ => 512 / m.keep | none => 64

/-- What a form adds: the terms of every position in order, whether a block was poisoned or clamped, the lanes drawn,
and its cycles (15:R226, R227, R229). -/
structure MacOut where
  terms : List (Nat × Nat × Int × Int)
  poison : Bool
  clamped : Bool
  drawn : List Nat
  cycles : Nat

def Mac.ints (m : Mac) : Bool := isIntFmt m.pair.fmtA && isIntFmt m.pair.fmtB

def Cell.macOut (c : Cell) (m : Mac) : MacOut :=
  let p := m.pair
  let (la, drawn) := alignBlocks c p.fmtA p.pa p.mode p.clamp [] (c.blocksA p.fmtA p.pa m.a)
  let k := m.depth
  let (lb, drawn) := alignBlocks c p.fmtB p.pb p.mode p.clamp drawn (c.blocksB m.bb p.fmtB p.pb k m.halfB)
  let stored := fun (r : Nat) => (la.getD (2 * r) { q := [] }).q ++ (la.getD (2 * r + 1) { q := [] }).q
  let pos : Nat → Nat := match m.posRow with | some (row, _) => laneCode (c.rows row 3) | none => fun _ => 0
  let qa := (upTo 8).map fun r =>
    match m.posRow with
    | none => stored r
    | some (_, half) =>
      let st := stored r
      let at_ := (upTo 64).map fun i => (8 * (i / m.keep) + pos (512 * half + 64 * r + i), st.getD i 0)
      (upTo k).map fun x => (at_.filter fun y => y.1 = x).foldl (fun a y => a + y.2) 0
  let nb := k / 32
  let dot := fun (r c β : Nat) =>
    ((upTo 32).map fun i => (qa.getD r []).getD (32 * β + i) 0 * ((lb.getD (c * nb + β) { q := [] }).q.getD i 0)).foldl (· + ·) 0
  let expA := fun (r β : Nat) => (la.getD (2 * r + 32 * β / (k / 2)) { q := [] }).e
  let terms := positions.flatMap fun (r, col) =>
    if m.ints then [(r, col, ((upTo nb).map (dot r col)).foldl (· + ·) 0, 0)]
    else (upTo nb).map fun β => (r, col, dot r col β, expA r β + (lb.getD (col * nb + β) { q := [] }).e)
  let ta := if p.trimA then trimAll p.fmtA p.pa (la.flatMap (·.q)) else 0
  let tb := if p.trimB then trimAll p.fmtB p.pb (lb.flatMap (·.q)) else 0
  ⟨terms, (la ++ lb).any (·.poison), (la ++ lb).any (·.clamped), drawn, m.extra + (p.pa - ta) * (p.pb - tb)⟩

/-- The terms added to the tile, saturation and clamping noted, generators stepped, the tile poisoned (15:R219, R226). -/
def Cell.accumulate (c : Cell) (m : Mac) (o : MacOut) (poison : Bool) : Cell :=
  let c := o.terms.foldl (Cell.addAcc m.ints m.tile) c
  let c := if o.clamped then { c with accSat := c.accSat ||| 16 } else c
  let c := if o.drawn = [] then c else c.stepLfsr fun j => o.drawn.count j
  if poison || o.poison then c.poisonTile m.tile else c

/-- Rows that operand A is read from. -/
def SourceA.res (p : Pair) : SourceA → List Res
  | .rows base _ => rowsRes base (groupRows p.fmtA p.pa)
  | .latch => [.latch]
  | .tokens (.rows base _) _ _ => rowsRes base (storedPlanes p.fmtA p.pa)
  | .tokens _ _ _ => [.latch]

/-- What the latch as operand A raises (15:R225). -/
def Cell.latchBad (c : Cell) (m : Mac) : List (Bool × Nat) :=
  if m.a.isLatch then
    [(c.latch.planes = [] || c.latch.fmt.toNat ≠ m.pair.fmtA, Cause.format)]
  else []

/-- A multiply-accumulate form (15:R219, R220, R225 to R229). `srcs` are the scalars and tokens it reads; `toksBad` a
token that is no SCALE token. In mode SR it is in flight on the lane random states too, which the table of R216 does not name
for it (DESIGN CHOICE, log entry 27). -/
def macOp (s : State) (m : Mac) (srcs : List Spec) (toksBad : Bool) (t : Task) : State :=
  let p := m.pair
  let c := s.cell0
  let o := c.macOut m
  let rb := groupRows p.fmtB p.pb * ((8 * m.depth + 1023) / 1024)
  let bad := firstBad ([(matFormatBad p.fmtA || matFormatBad p.fmtB, Cause.format), (toksBad, Cause.format)]
    ++ c.latchBad m ++ [(matWidthBad p.fmtA p.pa || matWidthBad p.fmtB p.pb, Cause.planeDecl),
      (m.a.isLatch && c.latch.width ≠ p.pa, Cause.planeDecl)])
  arrayOp s t bad
    { unit_ := .matrix
      reads := m.a.res p ++ rowsRes m.bb rb ++ (match m.posRow with | some (r, _) => rowsRes r 3 | none => [])
        ++ [.tile m.tile, .pair m.ppi] ++ drawRes (p.mode = 4)
      writes := [.tile m.tile, .accsat] ++ drawRes (p.mode = 4), cycles := o.cycles }
    fun c t =>
      let t := t.touch srcs
      (c.accumulate m o t.taint, t)

def sourceA : MatA → SourceA
  | .rows ba ha => .rows ba.toNat ha.toNat
  | .latch => .latch

def execMma (ad pp : BitVec 2) (a : MatA) (bb : BitVec 9) (hb : Bool) (s : State) : Host.Outcome State Fault Refusal :=
  onTask s fun t =>
    macOp s { tile := ad.toNat, ppi := pp.toNat, pair := s.cell0.pair pp, a := sourceA a, bb := bb.toNat, halfB := hb.toNat } [] false t

/-- The sparse forms: N stored elements of 8 (15:R227). -/
def sparseOp (n : Nat) (ad pp : BitVec 2) (a : MatA) (bb : BitVec 9) (sm : Spec) (s : State) :
    Host.Outcome State Fault Refusal :=
  onTask s fun t =>
    let half := match a with | .rows _ ha => ha.toNat | .latch => 0
    macOp s { tile := ad.toNat, ppi := pp.toNat, pair := s.cell0.pair pp, a := sourceA a, bb := bb.toNat, keep := n
              posRow := some ((t.val sm).toNat % 512, half), extra := 8 } [sm] false t

def execMmaS1 (ad pp : BitVec 2) (a : MatA) (bb : BitVec 9) (sm : Spec) (s : State) := sparseOp 1 ad pp a bb sm s
def execMmaS2 (ad pp : BitVec 2) (a : MatA) (bb : BitVec 9) (sm : Spec) (s : State) := sparseOp 2 ad pp a bb sm s
def execMmaS4 (ad pp : BitVec 2) (a : MatA) (bb : BitVec 9) (sm : Spec) (s : State) := sparseOp 4 ad pp a bb sm s

/-- MMA.X: A's scales are the payloads of two SCALE tokens (15:R228). -/
def execMmaX (ad pp : BitVec 2) (a : MatA) (bb : BitVec 9) (inP inQ : BitVec 2) (hb : Bool) (s : State) :
    Host.Outcome State Fault Refusal :=
  onTask s fun t =>
    let p := s.cell0.pair pp
    macOp s { tile := ad.toNat, ppi := pp.toNat, pair := p, a := .tokens (sourceA a) (t.inTok inP).payload (t.inTok inQ).payload
              bb := bb.toNat, halfB := hb.toNat, extra := 7 }
      [.inp inP, .inp inQ] (!isBlockFmt p.fmtA || (t.inTok inP).kind ≠ 2 || (t.inTok inQ).kind ≠ 2) t

/-! ## Pairs (15:R222) -/

/-- PPSET: the value is checked as R43 lays down; the write waits for what reads the pair (15:R217). -/
def execPpset (pp : BitVec 2) (sa : Spec) (s : State) : Host.Outcome State Fault Refusal :=
  onTask s fun t =>
    let a := (t.val sa).toNat % 2 ^ 32
    if s.cell0.inTheWay s.now [] [.pair pp.toNat] then s.retry t none
    else
      match pairFault a with
      | some c => s.raiseWord t c
      | none =>
        (s.updCell0 fun c => { c with pp := tset c.pp pairReset pp.toNat (BitVec.ofNat 32 a) }).complete (t.touch [sa])

def execPpget (sd : BitVec 5) (pp : BitVec 2) (s : State) : Host.Outcome State Fault Refusal :=
  onTask s fun t =>
    if s.cell0.inTheWay s.now [.pair pp.toNat] [] then s.retry t none
    else s.result t sd ((s.cell0.pairBits pp).zeroExtend 64) 1

/-! ## The operand latch (15:R224, R225) -/

/-- GATHER: eight table entries become the rows of the latch. -/
def execGather (pp : BitVec 2) (bt : BitVec 9) (sa : Spec) (s : State) : Host.Outcome State Fault Refusal :=
  onTask s fun t =>
    let p := s.cell0.pair pp
    let a := (t.val sa).toNat
    let ra := groupRows p.fmtA p.pa
    let n := storedPlanes p.fmtA p.pa
    let entries := (upTo 8).map fun r => a / 2 ^ (8 * r) % 256
    let at_ (e : Nat) : Nat := bt.toNat + e / 16 * ra
    arrayOp s t (firstBad [(matFormatBad p.fmtA, Cause.format), (matWidthBad p.fmtA p.pa, Cause.planeDecl)])
      { unit_ := .matrix, reads := entries.flatMap (fun e => rowsRes (at_ e) ra) ++ [.pair pp.toNat], writes := [.latch]
        cycles := 4 + ra }
      fun c t =>
        let t := t.touch [sa]
        let plane (i : Nat) : Row :=
          rowOf ((upTo 512).map fun j =>
            let e := entries.getD (j / 64) 0
            (c.row (at_ e + i)).getLsbD (64 * (e % 16) + j % 64))
        let byte (i : Nat) : Nat :=
          let e := entries.getD (i / 2) 0
          scaleByte (c.row (at_ e + ra - 1)) (2 * (e % 16) + i % 2)
        ({ c with
            latch := { planes := (upTo n).map plane, fmt := BitVec.ofNat 5 p.fmtA, width := p.pa
                       scale := if isBlockFmt p.fmtA then BitVec.ofNat 1024
                         ((upTo 16).foldr (fun i a => a * 256 + byte i) 0) else 0 }
            latchPoison := t.taint }, t)

def execLatchClr (s : State) : Host.Outcome State Fault Refusal :=
  onTask s fun t =>
    arrayOp s t none { unit_ := .matrix, writes := [.latch] } fun c t =>
      ({ c with latch := {}, latchPoison := false }, t)

/-! ## Accumulator instructions (15:R230 to R232) -/

def execAccz (ad : BitVec 2) (s : State) : Host.Outcome State Fault Refusal :=
  onTask s fun t =>
    arrayOp s t none { unit_ := .accport, writes := [.tile ad.toNat], cycles := 2 } fun c t =>
      let c := positions.foldl (fun c x => c.setAcc ad.toNat x.1 x.2 (0, 0)) c
      ({ c with tilePoison := c.tilePoison.filter (· ≠ ad.toNat) }, t)

/-- A position as it is stored in format AW (03:R41). -/
def awCode (a : Acc) : Nat := wrapInt a.1 48 * 2 ^ 16 + wrapInt a.2 10 * 2 ^ 6

/-- ACCRD: 64 lanes of the slot are written (15:R231). -/
def execAccrd (bd : BitVec 9) (ad pp : BitVec 2) (fmt : BitVec 5) (sl sh : Spec) (s : State) :
    Host.Outcome State Fault Refusal :=
  onTask s fun t =>
    let p := s.cell0.pair pp
    let f := fmt.toNat
    let n := storedPlanes f p.pb
    let slot := (t.val sl).toNat % 16
    let shift := signExt (t.val sh).toNat 8
    let sr : Bool := p.mode = 4 && f ≠ 0x10
    arrayOp s t (firstBad [(isBlockFmt f, Cause.format)])
      { unit_ := .accport, reads := [.tile ad.toNat, .pair pp.toNat, .lfsr]
        writes := rowsRes bd.toNat n ++ [.lfsr], cycles := 4 + n }
      fun c t =>
        let t := t.touch [sl, sh]
        let in_ (j : Nat) : Bool := j / 64 = slot
        let out := (upTo 1024).map fun j =>
          if in_ j then
            let a := c.acc ad.toNat (j % 64 / 8) (j % 8)
            let w := c.word sr j
            if f = 0x10 then awCode a
            else
              match (Ev.ofInt a.1).scale (a.2 - shift) with
              | .num neg m e =>
                if isIntFmt f then fit (roundInt (.num neg m e) p.mode w) (f = 0) p.pb p.sat
                else match floatFmt f with | some g => roundFloat g neg m e p.mode p.sat w | none => 0
              | _ => 0
          else 0
        ((c.putRows bd.toNat (planesOf n out) (rowOf ((upTo 1024).map in_)) t.taint).drawWhere sr in_, t)

/-- The terms of an ACCADD added (15:R232). -/
def accAdd (c : Cell) (t : Task) (p : Pair) (d : Nat) (terms : List (Nat × Nat × Int × Int)) : Cell × Task :=
  let c := terms.foldl (Cell.addAcc (isIntFmt p.fmtA && isIntFmt p.fmtB) d) c
  (if t.taint then c.poisonTile d else c, t)

/-- A source position with X not zero under an integer pair (15:R232). -/
def accAddBad (p : Pair) (terms : List (Nat × Nat × Int × Int)) : Bool :=
  isIntFmt p.fmtA && isIntFmt p.fmtB && terms.any fun x => x.2.2.2 ≠ 0

def Cell.tileTerms (c : Cell) (tile : Nat) : List (Nat × Nat × Int × Int) :=
  positions.map fun x => (x.1, x.2, c.acc tile x.1 x.2)

def execAccaddTile (ad src pp : BitVec 2) (s : State) : Host.Outcome State Fault Refusal :=
  onTask s fun t =>
    let p := s.cell0.pair pp
    let terms := s.cell0.tileTerms src.toNat
    arrayOp s t (firstBad [(accAddBad p terms, Cause.format)])
      { unit_ := .accport, reads := [.tile src.toNat, .tile ad.toNat, .pair pp.toNat]
        writes := [.tile ad.toNat, .accsat], cycles := 4 }
      fun c t => accAdd c t p ad.toNat (c.tileTerms src.toNat)

/-- The codes of slot L of 64 AW rows. -/
def Cell.awSlot (c : Cell) (base slot : Nat) : List Nat := (upTo 64).map fun i => laneCode (c.rows base 64) (64 * slot + i)

def awTerms (codes : List Nat) : List (Nat × Nat × Int × Int) :=
  positions.map fun (r, c) =>
    let e := codes.getD (8 * r + c) 0
    (r, c, signExt (e / 2 ^ 16) 48, signExt (e / 2 ^ 6) 10)

def execAccaddRows (ad pp : BitVec 2) (ba : BitVec 9) (sl : Spec) (s : State) : Host.Outcome State Fault Refusal :=
  onTask s fun t =>
    let p := s.cell0.pair pp
    let slot := (t.val sl).toNat % 16
    arrayOp s t none
      { unit_ := .accport, reads := rowsRes ba.toNat 64 ++ [.tile ad.toNat, .pair pp.toNat]
        writes := [.tile ad.toNat, .accsat], cycles := 68 }
      (fun c t => accAdd c (t.touch [sl]) p ad.toNat (awTerms (c.awSlot ba.toNat slot)))
      fun c =>
        let codes := c.awSlot ba.toNat slot
        if codes.any (fun e => e % 64 ≠ 0) || accAddBad p (awTerms codes) then some Cause.format else none

/-! ## Systolic regions (15:R233, R234) -/

/-- The fields of a region word. -/
structure Region where
  rows : Nat
  cols : Nat
  row0 : Nat
  col0 : Nat
  steps : Nat
  abase : Nat
  bbase : Nat
  tile : Nat
  pair : Nat
  port : Nat
  node : Nat
deriving DecidableEq, Repr

def regionOf (x : Nat) : Region :=
  ⟨bitsOf x 57 3 + 1, bitsOf x 54 3 + 1, bitsOf x 49 5, bitsOf x 44 5, bitsOf x 36 8 + 1, bitsOf x 27 9, bitsOf x 18 9,
    bitsOf x 16 2, bitsOf x 14 2, bitsOf x 12 2, bitsOf x 7 5⟩

/-- Row and column of a cell in its gallery (01:R21). -/
def cellRowOf (c : Nat) : Nat := c % 1024 / 32
def cellColOf (c : Nat) : Nat := c % 32

def Region.holds (r : Region) (c : Nat) : Bool :=
  decide (r.row0 ≤ cellRowOf c) && decide (cellRowOf c < r.row0 + r.rows) && decide (r.col0 ≤ cellColOf c)
    && decide (cellColOf c < r.col0 + r.cols)

/-- The cells of a region in sweep order (15:R234). -/
def Region.cells (r : Region) (gallery : Nat) : List Nat :=
  (upTo r.rows).flatMap fun i => (upTo r.cols).map fun j => gallery * 1024 + (r.row0 + i) * 32 + r.col0 + j

/-- REGION.CFG: the checks in the order of R233. -/
def execRegionCfg (sw : Spec) (s : State) : Host.Outcome State Fault Refusal :=
  onTask s fun t =>
    let a := (t.val sw).toNat
    let r := regionOf a
    let p := s.cell0.pair (BitVec.ofNat 2 r.pair)
    let c := s.focus.toNat
    let t' := t.touch [sw]
    if s.cell0.regionOp.isSome || s.cell0.inTheWay s.now [.pair r.pair] [.region] then s.retry t none
    else if bitsOf a 60 4 ≠ 0 ∨ bitsOf a 0 7 ≠ 0 then s.raiseWord t Cause.reservedField
    else if r.row0 = 0 ∨ 32 < r.row0 + r.rows ∨ 32 < r.col0 + r.cols ∨ r.holds c = false then
      s.raiseWord t Cause.protection
    else if matFormatBad p.fmtA || matFormatBad p.fmtB then s.raiseWord t Cause.format
    else if matWidthBad p.fmtA p.pa || matWidthBad p.fmtB p.pb then s.raiseWord t Cause.planeDecl
    else if 512 < r.abase + r.steps * groupRows p.fmtA p.pa ∨ 512 < r.bbase + r.steps * groupRows p.fmtB p.pb then
      s.raiseWord t Cause.protection
    else
      (s.updCell0 fun x =>
        { x with
          region := BitVec.ofNat 64 a, regionPair := x.pairBits (BitVec.ofNat 2 r.pair)
          flights := ⟨.region, s.now + 2, [.pair r.pair], [.region]⟩ :: x.flights }).completeIn t' 2

def execRegionCfgOff (s : State) : Host.Outcome State Fault Refusal :=
  onTask s fun t =>
    if s.cell0.regionOp.isSome || s.cell0.inTheWay s.now [] [.region] then s.retry t none
    else
      (s.updCell0 fun x =>
        { x with region := 0, regionPair := 0, flights := ⟨.region, s.now + 2, [], [.region]⟩ :: x.flights }).completeIn t 2

/-- A CTRL SWEEP token of the task (15:R234). -/
def Task.sweepTok (t : Task) (dst : Nat) (v : Bool) (payload : Word) : Token :=
  { t.tok 3 .none (BitVec.ofNat 9 (4 + 16 * v.toNat)) payload with dst := BitVec.ofNat 18 dst }

/-- SWEEP.G: a sweep of the gallery named by a[17:10] sets out at its first cell. -/
def execSweepG (v : Bool) (sc : Spec) (s : State) : Host.Outcome State Fault Refusal :=
  onTask s fun t =>
    let dst := (t.val sc).toNat / 1024 % 256 * 1024
    let u := t.touch [sc]
    (s.send ⟨s.focus.toNat, dst, .sweep (u.sweepTok dst v 0) none [] none⟩).complete u

/-- SWEEP.R: a sweep of the cell's systolic region, with START two tokens that travel together. -/
def execSweepR (v start : Bool) (s : State) : Host.Outcome State Fault Refusal :=
  onTask s fun t =>
    let w := s.cell0.region
    if s.cell0.inTheWay s.now [.region] [] then s.retry t none
    else if w = 0 then s.raiseWord t Cause.protection
    else
      let dst := ((regionOf w.toNat).cells (galleryOf s.focus.toNat)).headD 0
      let first := t.sweepTok dst v (if start then w ||| 1 else w)
      let second := t.sweepTok dst v (BitVec.ofNat 64 (0xF * 2 ^ 60 + s.cell0.regionPair.toNat))
      (s.send ⟨s.focus.toNat, dst, .sweep first (if start then some second else none) [] none⟩).complete t

end Sys2Proof.Machine
end

