-- ==== Sys2Proof/Machine/Optimiser.lean ====
section
/-! DEFINITION. The optimiser instructions of class MX (15:R238 to R241). -/

namespace Sys2Proof.Machine

/-! ## Exact arithmetic with IEEE 754 specials (15:R239) -/

def Ev.isNeg : Ev → Bool
  | .num s _ _ => s
  | .inf s => s
  | .nan => false

def Ev.neg : Ev → Ev
  | .num s m e => .num (!s) m e
  | .inf s => .inf (!s)
  | .nan => .nan

def Ev.mul (a b : Ev) : Ev :=
  match a, b with
  | .num s m e, .num s' m' e' => .num (s != s') (m * m') (e + e')
  | .inf s, .num s' m _ => if m = 0 then .nan else .inf (s != s')
  | .num s m _, .inf s' => if m = 0 then .nan else .inf (s != s')
  | .inf s, .inf s' => .inf (s != s')
  | _, _ => .nan

/-- A sum; an exact zero of operands of unlike sign is +0, and -0 where the rounding is toward -∞ (IEEE 754; log
entry 15). -/
def Ev.add (mode : Nat) (a b : Ev) : Ev :=
  match a, b with
  | .num s m e, .num s' m' e' =>
    let base := min e e'
    let v := (Ev.num s m e).at_ base + (Ev.num s' m' e').at_ base
    if v = 0 then .num (if s = s' then s else decide (mode = 2)) 0 0 else .num (decide (v < 0)) v.natAbs base
  | .inf s, .inf s' => if s = s' then .inf s else .nan
  | .inf s, .num _ _ _ => .inf s
  | .num _ _ _, .inf s => .inf s
  | _, _ => .nan

/-- One. -/
def Ev.one : Ev := .num false 1 0

/-! ## The frame (15:R238, R240) -/

/-- The five instructions. -/
inductive OptKind where
  | addc | sgd | mom | adam2 | ema
deriving DecidableEq, Repr

/-- Formats that an update or gradient may have (15:R238). -/
def optSource (f : Nat) : Bool := isPlainFmt f

/-- Formats that the instruction does not accept (15:R238). -/
def optFormatBad (k : OptKind) (p : Pair) : Bool :=
  let float := p.fmtA = 0x02 || p.fmtA = 0x03 || p.fmtA = 0x06
  let ints := k = .addc && isIntFmt p.fmtA
  !(float || ints) || !optSource p.fmtB || (ints && !isIntFmt p.fmtB)

/-- Cycles of the lane array (15:R241). -/
def optCycles (k : OptKind) (nw ng : Nat) : Nat :=
  match k with
  | .addc => 4 + nw + ng
  | .sgd => 8 + nw + ng
  | .mom => 12 + 2 * nw + ng
  | .adam2 => 10 + nw + 2 * ng
  | .ema => 8 + 2 * nw

/-- The results of a lane: the state's new code, and the momentum's (15:R239). `w1`, `w2` are the words of its draws in
order. -/
def optLane (k : OptKind) (p : Pair) (h0 h1 : Ev) (w m : Nat) (g : Ev) (w1 w2 : Nat) : Nat × Nat :=
  match floatFmt p.fmtA with
  | none => (fit (intVal p.fmtA w p.pa + g.at_ 0) (p.fmtA = 0) p.pa p.sat, m)
  | some f =>
    let add := Ev.add p.mode
    let rnd (v : Ev) (x : Nat) : Nat := toFloat f v p.mode p.sat x
    let wv := f.val w
    match k with
    | .addc => (rnd (add wv g) w1, m)
    | .sgd => (rnd (add wv (h0.mul g).neg) w1, m)
    | .mom =>
      let m' := rnd (add (h1.mul (f.val m)) g) w1
      (rnd (add wv (h0.mul (f.val m')).neg) w2, m')
    | .adam2 => (rnd (add (h1.mul wv) ((add Ev.one h1.neg).mul (g.mul g))) w1, m)
    | .ema => (rnd (add (h0.mul wv) ((add Ev.one h0.neg).mul g)) w1, m)

/-- An optimiser instruction: state at `ba`, update at `bb`, momentum rows where the instruction has them,
hyperparameters (15:R238 to R241). -/
def optOp (s : State) (k : OptKind) (ba bb : BitVec 9) (pp : BitVec 2) (sm sh : Option Spec) (mask : Option (BitVec 3)) :
    Host.Outcome State Fault Refusal :=
  onTask s fun t =>
    let p := s.cell0.pair pp
    let nw := storedPlanes p.fmtA p.pa
    let ng := storedPlanes p.fmtB p.pb
    let mrow : Option Nat := sm.map fun x => (t.val x).toNat % 512
    let b := match sh with | some x => (t.val x).toNat | none => 0
    let nf32 : FloatFmt := ⟨8, 23, 0⟩
    let h0 := nf32.val (b % 2 ^ 32)
    let h1 := nf32.val (b / 2 ^ 32)
    let sr : Bool := p.mode = 4
    let wrows := rowsRes ba.toNat nw ++ (match mrow with | some r => rowsRes r nw | none => [])
    let bad := firstBad [(optFormatBad k p, Cause.format)]
    let u : Uses :=
      { reads := wrows ++ rowsRes bb.toNat ng ++ maskRes mask ++ [.pair pp.toNat, .lfsr]
        writes := wrows ++ [.accsat, .lfsr], cycles := optCycles k nw ng }
    let used0 : Bool := k ≠ .adam2
    let used1 : Bool := k ≠ .ema
    if !s.arrayHeld u && bad.isNone && (s.cell0.badRow u).isNone && ((used0 && !h0.finite) || (used1 && !h1.finite)) then
      s.raise t Cause.arith t.pc.toNat b
    else
      arrayOp s t bad u fun c t =>
        let t := t.touch (sm.toList ++ sh.toList)
        let m := c.laneMask mask
        let w := laneCode (c.rows ba.toNat nw)
        let g (j : Nat) : Ev := valOf p.fmtB (laneCode (c.rows bb.toNat ng) j) p.pb
        let mom : Nat → Nat := match mrow with | some r => laneCode (c.rows r nw) | none => fun _ => 0
        let odd (j : Nat) : Bool := m.getLsbD j && !(g j).finite
        let anyOdd := (upTo 1024).any odd
        let t := if anyOdd && !p.clamp then { t with taint := true } else t
        let c := c.noteClamp (anyOdd && p.clamp)
        let on (j : Nat) : Bool := m.getLsbD j && !(odd j && !p.clamp)
        let out := (upTo 1024).map fun j =>
          if on j then
            let x := (clampBlock p.fmtB [g j]).headD .nan
            let w1 := c.word sr j
            let w2 := if sr then (lfsrStep (BitVec.ofNat 16 w1)).toNat else 0
            optLane k p h0 h1 (w j) (mom j) x w1 w2
          else (0, 0)
        let lanes := rowOf ((upTo 1024).map on)
        let c := c.putRows ba.toNat (planesOf nw (out.map (·.1))) lanes t.taint
        let c := match mrow with | some r => c.putRows r (planesOf nw (out.map (·.2))) lanes t.taint | none => c
        (if sr then c.stepLfsr fun j => if on j then (if k = .mom then 2 else 1) else 0 else c, t)

def execOptAddc (bw bu : BitVec 9) (pp : BitVec 2) (mask : Option (BitVec 3)) (s : State) :=
  optOp s .addc bw bu pp none none mask
def execOptSgd (bw bg : BitVec 9) (pp : BitVec 2) (sh : Spec) (mask : Option (BitVec 3)) (s : State) :=
  optOp s .sgd bw bg pp none (some sh) mask
def execOptMom (bw bg : BitVec 9) (pp : BitVec 2) (sm sh : Spec) (mask : Option (BitVec 3)) (s : State) :=
  optOp s .mom bw bg pp (some sm) (some sh) mask
def execOptAdam2 (bv bg : BitVec 9) (pp : BitVec 2) (sh : Spec) (mask : Option (BitVec 3)) (s : State) :=
  optOp s .adam2 bv bg pp none (some sh) mask
def execOptEma (be bw : BitVec 9) (pp : BitVec 2) (sh : Spec) (mask : Option (BitVec 3)) (s : State) :=
  optOp s .ema be bw pp none (some sh) mask

end Sys2Proof.Machine
end

