-- ==== Sys2Proof/Machine/Ctrl.lean ====
section
/-! DEFINITION. Events of the dataflow: arrivals, firings, credits, PACK tokens, the predicate network, EOS and REDUCE,
RESUME, sweeps, barrier arrivals, PADDR tokens, retirements, the two faults of waiting tokens (05:R62 to R98;
03:R56; 17:R252, R272; 19:R292, R304; 21:R319, R320). -/

namespace Sys2Proof.Machine

/-! ## Arrivals, firings, credits -/

def execTokenArrival (s : State) : Host.Outcome State Fault Refusal := .next (s.tokenArrival s.choice.n)

def execFiring (s : State) : Host.Outcome State Fault Refusal := .next (s.fire s.choice)

def execCreditReturn (s : State) : Host.Outcome State Fault Refusal := .next (s.creditReturn s.choice.n)

/-- The credit that a token took returns to its sender, or to the agent, when the token is dropped before its channel
(05:R63, R396). -/
def State.dropCredit (s : State) (p : Packet) : State :=
  match p.body with
  | .token _ (some r) => s.send ⟨p.dst, r.cell, .credit r⟩
  | .extToken t gid port cfg => s.agentCredit p.dst t.ctx cfg gid port
  | _ => s

/-- KIND_DROP (05:R62, 09:R154). -/
def execKindDrop (s : State) : Host.Outcome State Fault Refusal :=
  .next (match s.arriving s.choice.n with
    | some p =>
      match p.token? with
      | some t => if t.route = .kindDrop then ((s.takePacket s.choice.n).logToken p.dst kindEntry t).dropCredit p else s
      | none => s
    | none => s)

/-- A PADDR token's node: a STORER of the token's context (19:R292). -/
def State.takesPaddr (s : State) (p : Packet) (t : Token) : Bool :=
  let c := s.cell p.dst
  let good (ver : Bool) (node : Nat) : Bool :=
    let v := c.version ver
    (match v.owner with | some (x, _) => x = t.ctx | none => false)
      && (match v.nodes[node]? with | some n => n.role = .storer | none => false)
  match p.body with
  | .token _ _ =>
    match (c.version t.ver).bindings[t.rtag.toNat]? with
    | some b => good t.ver b.node
    | none => true
  | .extToken _ gid port cfg =>
    match c.extDest t cfg gid port with
    | some (ver, node) => good ver node
    | none => true
  | _ => false

/-- PADDR_TOKEN (05:R62, 19:R292): accepted by a storer of its context; dropped with a KIND entry elsewhere. -/
def execPaddrToken (s : State) : Host.Outcome State Fault Refusal :=
  .next (match s.arriving s.choice.n with
    | some p =>
      match p.token? with
      | some t =>
        if t.route ≠ .paddr || s.packHolds p t then s
        else if s.takesPaddr p t then s.arriveToken s.choice.n p
        else ((s.takePacket s.choice.n).logToken p.dst kindEntry t).dropCredit p
      | none => s
    | none => s)

/-! ## PACK tokens (21:R319, R320) -/

/-- Aux of the first position. -/
def packFirst (t : Token) : Nat := t.payload.toNat / 2 ^ (if packFmt t = 2 then 32 else 16) % 512

/-- A packet that is dropped with a KIND entry. -/
def packBad (t : Token) (b : Binding) : Bool :=
  decide (3 ≤ packFmt t) || t.aux.toNat % 32 ≠ 0 || decide (2 ^ 41 ≤ t.payload.toNat)
    || (packFmt t ≠ 2 && bitsOf t.payload.toNat 25 16 ≠ 0) || (packFmt t = 1 && b.last.isNone)
    || (t.aux.getLsbD 5 && decide (512 < packFirst t + packLength t))

/-- The credits that a packet has spent: one for each token it stands for. -/
def packCredits (t : Token) : Nat := ((upTo (packLength t)).filter fun i => !packTakes t i).length

/-- The token of a position (21:R320). -/
def packToken (t : Token) (i : Nat) (last : Option Word) : Token :=
  let plane := t.aux.getLsbD 5
  { t with
    kind := if plane then 1 else 0
    aux := BitVec.ofNat 9 (packFirst t + (if plane then i else 0))
    payload := if packFmt t = 1 then last.getD 0 else 0 }

/-- Two tokens in flight on one internal edge. -/
def Packet.sameEdge (p q : Packet) : Bool :=
  match p.body, q.body with
  | .token t (some a), .token u (some b) => p.src = q.src && p.dst = q.dst && a = b && t.ver = u.ver && t.rtag = u.rtag
  | _, _ => false

/-- What the tokens of a run have in common (21:R319). -/
def Token.runsWith (t u : Token) : Bool :=
  t.kind = u.kind && decide (t.kind.toNat < 2) && t.rtag = u.rtag && t.ctx = u.ctx && t.iter = u.iter && t.ver = u.ver
    && t.pred = u.pred && t.poison = u.poison

/-- The PACK token of a format that stands for `k` tokens, the first of which is `t`; `mask` is that of a ZMASK. -/
def packFor (t : Token) (fmt k mask : Nat) : Token :=
  { t with
    kind := 6
    aux := BitVec.ofNat 9 (64 * fmt + 32 * t.kind.toNat)
    payload := BitVec.ofNat 64 (if fmt = 2 then t.aux.toNat * 2 ^ 32 + mask else t.aux.toNat * 2 ^ 16 + (k - 1)) }

/-- The packet of a run, if the format can stand for it: every position that takes none of the edge's next tokens expands
to the token that stands there. -/
def packRun (l : List Token) (fmt : Nat) (last : Option Word) : Option Token :=
  match l with
  | [] => none
  | t :: _ =>
    let gives (w : Token) (i : Nat) : Bool := l[i]? = some (packToken w i last)
    let zero := packFor t fmt l.length 0
    let mask := if fmt = 2 then (upTo 32).foldl (fun m i => if gives zero i then m else m + 2 ^ i) 0 else 0
    let w := packFor t fmt l.length mask
    if packBad w { node := 0, port := 0, last := last } || !l.all t.runsWith || decide (packLength w ≠ l.length)
        || !(upTo l.length).all (fun i => packTakes w i || gives w i) then none
    else some w

/-- A sending port replaces a run of consecutive tokens of an edge by a PACK token, and its tokens have taken their credits
(21:R319). The run begins at place `n` of the net, or for REPEAT behind the token there, which it repeats. -/
def State.formPack (s : State) (n k fmt : Nat) : State :=
  match s.net[n]? with
  | none => s
  | some p =>
    let edge := (upTo s.net.length).filter fun i => n ≤ i && (s.net[i]?).any p.sameEdge
    let run := (if fmt = 1 then edge.drop 1 else edge).take k
    let ts := run.filterMap fun i => (s.net[i]?).bind Packet.token?
    let last := p.token?.bind fun t => if fmt = 1 ∧ t.kind.toNat < 2 then some t.payload else none
    match run, packRun ts fmt last with
    | r :: _, some w =>
      if run.length = k then
        { s with net := (upTo s.net.length).flatMap fun i =>
            match s.net[i]? with
            | none => []
            | some q =>
              (if i = r then [{ p with body := match p.body with | .token _ a => .token w a | b => b }] else [])
                ++ if run.contains i && !packTakes w (run.idxOf i) then [] else [q] }
      else s
    | _, _ => s

/-- The credits of a packet that is dropped return. -/
def State.packDropped (s : State) (p : Packet) (t : Token) : State := each (upTo (packCredits t)) s fun s _ => s.dropCredit p

/-- A packet reaches its port: it is dropped, held, or its expansion begins. At an EMPTY version it begins too, and what
it gives is forwarded (05:R81). -/
def State.packArrival (s : State) (n : Nat) (p : Packet) (t : Token) : State :=
  match s.bindingFor p with
  | none =>
    (match p.body with
     | .extToken _ gid port cfg =>
       if ((s.cell p.dst).extDest t cfg gid port).isNone && (s.ctx t.ctx).live then
         (s.takePacket n).forwardVest t.ctx cfg gid port t
       else (s.takePacket n).logToken p.dst unboundEntry t
     | _ => (s.takePacket n).logToken p.dst unboundEntry t).packDropped p t
  | some (ver, r, b) =>
    if (s.version p.dst ver).state = .loading then (s.takePacket n).updVersion p.dst ver fun v => { v with held := v.held ++ [p] }
    else if packBad t b then ((s.takePacket n).logToken p.dst kindEntry t).packDropped p t
    else if !(s.ctx t.ctx).live || b.late t then
      (each (upTo (packCredits t)) (s.takePacket n) fun s _ => s.lateToken p.dst ver r b.node t).packDropped p t
    else (s.takePacket n).updBinding p.dst ver r fun b => { b with pack := some t, packPos := 0 }

/-- One position of the packet in expansion goes into the channel FIFO, or from an EMPTY version to the vestibule, if it is
not a token's turn. -/
def State.packStep (s : State) (cell : Nat) (ver : Bool) (r : Nat) : State :=
  match s.binding cell ver r with
  | none => s
  | some b =>
    match b.pack with
    | none => s
    | some t =>
      let v := s.version cell ver
      let s1 := s.updBinding cell ver r Binding.packNext
      let u := { packToken t b.packPos b.last with ver := ver }
      if packTakes t b.packPos then s
      else if v.state = .empty then
        (s1.updBinding cell ver r fun b => { b with last := some u.payload }).forwardToken v (match v.nodes[b.node]? with | some x => x.gid | none => b.node) b.port u
      else if 16 ≤ b.fifo.length then s
      else s1.enterFifo cell ver r { u with rtag := BitVec.ofNat 8 r }

/-- PACK_EXPANSION: the packet at the turn's place arrives, or the expansion at a port goes on by one token. -/
def execPackExpansion (s : State) : Host.Outcome State Fault Refusal :=
  let x := s.choice
  let step := s.packStep x.cell.toNat x.ver x.rtag.toNat
  .next (match s.arriving x.n with
    | some p =>
      match p.token? with
      | some t => if t.route = .pack then (if s.packHolds p t then s else s.packArrival x.n p t) else step
      | none => step
    | none => step)

/-! ## Waiting tokens (05:R79, R92) -/

/-- Cycles after which a waiting token or sender faults. -/
def waitLimit : Nat := 65536

/-- MATCH_FULL (05:R79): once for an unbroken wait. -/
def execMatchFull (s : State) : Host.Outcome State Fault Refusal :=
  let x := s.choice
  let c := x.cell.toNat
  let r := x.rtag.toNat
  .next (match s.binding c x.ver r with
    | none => s
    | some b =>
      match b.fullSince, b.fifo with
      | some since, t :: _ =>
        if b.fullRaised || s.now < since + waitLimit || !(s.cell c).headWaits x.ver b then s
        else
          (s.updBinding c x.ver r fun b => { b with fullRaised := true }).nodeFault (nodeRef c x.ver b.node t.ctx t.iter)
            Cause.matchFull r b.node
      | _, _ => s)

/-- The ports of a configuration whose senders stall: node, port, whether its edge has a ring, and the cycle it began. -/
def State.stalledPorts (s : State) (c : CfgRt) : List (Place × Nat × Bool × Nat) :=
  c.places.flatMap fun p =>
    match s.node p.cell p.ver p.node with
    | none => []
    | some n =>
      (upTo 4).filterMap fun q =>
        match (n.outputs[q]?).join with
        | some e => e.stalledSince.map fun a => (p, q, e.ring.isSome, a)
        | none => none

/-- SPILL_FULL (05:R92): where a sender has stalled long enough on a full ring, a record for each stalled port, and the
stop of the context. -/
def execSpillFull (s : State) : Host.Outcome State Fault Refusal :=
  let x := s.choice
  .next (match s.cfg x.ctx x.cfg with
    | none => s
    | some c =>
      let l := s.stalledPorts c
      if l.any (fun y => y.2.2.1 && decide (y.2.2.2 + waitLimit ≤ s.now)) && decide (c.lastAccept + waitLimit ≤ s.now) then
        let clear (s : State) (y : Place × Nat × Bool × Nat) : State :=
          s.updEdge ⟨y.1.cell, y.1.ver, y.1.node, y.2.1⟩ fun e => { e with stalledSince := some s.now }
        let s := each l s clear
        each l s fun s y =>
          s.nodeFault (nodeRef y.1.cell y.1.ver y.1.node x.ctx 0) Cause.spillFull (y.1.node * 4 + y.2.1) l.length
      else s)

/-! ## CTRL tokens at the head of a channel (05:R62, R63) -/

/-- The head of the turn's channel, if it is a CTRL token of the subtype given and may leave. -/
def State.ctrlHead (s : State) (sub : Nat) : Option (Binding × Token) :=
  match s.binding s.choice.cell.toNat s.choice.ver s.choice.rtag.toNat with
  | none => none
  | some b =>
    if b.blocked || b.heldSince.isSome then none
    else
      match b.fifo with
      | t :: _ => if t.kind = 3 ∧ t.aux.toNat % 16 = sub then some (b, t) else none
      | [] => none

/-- The head leaves, and what stands behind it moves on. -/
def State.popHead (s : State) : State :=
  let x := s.choice
  (s.popFifo x.cell.toNat x.ver x.rtag.toNat).drain x.cell.toNat x.ver x.rtag.toNat 17

/-- A context ends: its configurations are marked, and CONTEXT_EXIT does the rest (23:R340). -/
def State.endContext (s : State) (ctx : BitVec 10) : State :=
  { s with cfgs := s.cfgs.map fun (k, c) => if k / 65536 = ctx.toNat then (k, { c with state := .exited }) else (k, c) }

/-- A sweep of the versions of a placed configuration, one for each gallery and version it lies in (05:R84). -/
def State.sweepTo (s : State) (ctx : BitVec 10) (c : CfgRt) : State :=
  each ((c.places.map fun p => (galleryOf p.cell, p.ver)).dedup) s fun s (g, v) =>
    s.send ⟨c.home * 0x8000, g * 1024,
      .sweep { kind := 3, dst := BitVec.ofNat 18 (g * 1024), ctx := ctx, aux := BitVec.ofNat 9 (4 + 16 * v.toNat) } none []
        none⟩

/-- The phase of a configuration ends with a result: the successor is loaded or swept; without one the context ends
(05:R84, 23:R340). -/
def State.endPhase (s : State) (ctx : BitVec 10) (i : Nat) (c : CfgRt) (result : Bool) : State :=
  let s := s.updCfg ctx i fun c => { c with phase := [] }
  match if result then c.spec.onTrue else c.spec.onFalse with
  | none => s.endContext ctx
  | some j =>
    match s.cfg ctx j with
    | none => s
    | some d =>
      if d.state = .unplaced || d.state = .saved then (s.updCfg ctx j fun d => { d with wanted := true }).noteCandidate ctx j
      else s.sweepTo ctx d

/-- PHASE (05:R84): the gallery of the cell posts its bit; the last one ends the phase. -/
def execPhase (s : State) : Host.Outcome State Fault Refusal :=
  .next (match s.ctrlHead 0 with
    | none => s
    | some (_, t) =>
      let cell := s.choice.cell.toNat
      let owner := (s.version cell s.choice.ver).owner
      let s := s.popHead
      match owner with
      | none => s
      | some (ctx, i) =>
        match s.cfg ctx i with
        | none => s
        | some c =>
          let g := galleryOf cell
          if c.phase.any (·.1 = g) || (t.pred ≠ .true && t.pred ≠ .false) then s
          else
            let c := { c with phase := c.phase ++ [(g, decide (t.pred = .true))] }
            let s := s.updCfg ctx i fun _ => c
            if c.places.all fun p => c.phase.any fun y => y.1 = galleryOf p.cell then
              s.endPhase ctx i c (if c.spec.opOr then c.phase.any (·.2) else c.phase.all (·.2))
            else s)

/-! ## EOS and REDUCE (05:R93; 03:R56) -/

/-- binary32 (03:R33). -/
def binary32 : FloatFmt := (floatFmt 0x03).getD ⟨0, 8, 23⟩

/-- The running sum of AW contributions, each step rounded (03:R56). DESIGN CHOICE (log entry 27): the low six bits of a
contribution, which an AW element does not use, are ignored. -/
def reduceSum (l : List Word) : Nat :=
  let conv (w : Word) : Nat := toFloat binary32 (awVal w.toNat) 0 false 0
  let add (a b : Nat) : Nat :=
    let r := toFloat binary32 ((binary32.val a).add 0 (binary32.val b)) 0 false 0
    if r = 2 ^ 31 then 0 else r
  match l with
  | [] => 0
  | w :: r => r.foldl (fun a x => add a (conv x)) (conv w)

/-- The token that a REDUCE node sends when its inputs have ended: its contributions in the order of their tags from the
oldest live one, and within a tag in the order of their ports; the spec gives it no iteration (log entry 8). DESIGN CHOICE
(log entry 27): the oldest live tag is that of the moment at which the last EOS is consumed. -/
def State.reduceToken (s : State) (ctx : BitVec 10) (n : Node) : Token :=
  let base := match s.loopbPlace ctx with
    | some p => (match s.node p.cell p.ver p.node with | some x => x.loopBase | none => 0)
    | none => 0
  let key (x : Nat × Nat × Word × Bool × Bool) : Nat := (x.1 + 4096 - base) % 4096 * 4 + x.2.1
  let l := (sortBy key n.contribs).filter fun x => !x.2.2.2.2
  { ctx := ctx, iter := (Config.freeWord s.fresh 38).truncate 12, poison := l.any (·.2.2.2.1)
    pred := if l.isEmpty then .null else .none, payload := BitVec.ofNat 64 (reduceSum (l.map (·.2.2.1))) }

/-- Every edge into a port has ended: its bindings have consumed an EOS for each (05:R93). -/
def Version.portEnded (v : Version) (node port : Nat) : Bool :=
  let bs := (v.bindingsOf node port).map (·.2)
  decide ((bs.map (·.edges)).foldl (· + ·) 0 ≤ (bs.map (·.eos)).foldl (· + ·) 0)

/-- Every input edge of a node has ended (05:R59, R93). -/
def Version.inputsEnded (v : Version) (node : Nat) : Bool := (upTo 4).all fun p => v.portEnded node p

/-- The binding has consumed an EOS of its edge, or of one of the external edges that share it: that edge is ended, and the
binding with the last of them (05:R93, R396). -/
def Binding.endEdge (b : Binding) (t : Token) : Binding :=
  { b with
    eos := b.eos + 1, last := none, endedEdges := if b.external then t.edge.toList ++ b.endedEdges else b.endedEdges
    ended := b.ended || !b.external || decide (b.edges ≤ b.eos + 1) }

def State.endEdge (s : State) (cell : Nat) (ver : Bool) (r : Nat) (t : Token) : State :=
  s.updBinding cell ver r (·.endEdge t)

/-- CTRL_EOS (05:R93): the edge is ended, and what stands behind it is late; a REDUCE node whose edges have all ended sends
its sum. A firing of the node that has its tokens comes first, and a sum without space waits. -/
def execCtrlEos (s : State) : Host.Outcome State Fault Refusal :=
  .next (match s.ctrlHead 3 with
    | none => s
    | some (b, t) =>
      let x := s.choice
      let cell := x.cell.toNat
      let t' := (s.endEdge cell x.ver x.rtag.toNat t).popHead
      match t'.node cell x.ver b.node with
      | none => t'
      | some n =>
        let c := t'.cell cell
        let owed := c.store.any fun e =>
          e.ver = x.ver && e.node = b.node && c.completes x.ver b.node e.port n e.token
        if n.role ≠ .reduce || !(c.version x.ver).inputsEnded b.node then t'
        else if owed then s
        else
          match t'.useFree.trySend ⟨cell, x.ver, b.node, 0⟩ (s.reduceToken t.ctx n) with
          | .sent s => s.updNode cell x.ver b.node fun n => { n with contribs := [] }
          | .stall _ _ => s
          | .scope dst => t'.nodeFault (nodeRef cell x.ver b.node t.ctx t.iter) Cause.scope n.handler dst)

/-! ## RESUME (19:R304; 23:R347) -/

/-- The held object is released and retried, and a command that asked for it is complete (25:R361); a node that is no longer on
the cell has its RESUME wait in the vestibule. -/
def State.resumeObject (s : State) (cell node obj : Nat) (t : Token) : State :=
  let c := s.cell cell
  let ver := c.liveVersion (if obj = 5 then 0 else node)
  let v := c.version ver
  if v.state = .empty && !(obj = 5 && s.holdsContext cell t.ctx) then
    match v.owner, v.nodes[if obj = 5 then 0 else node]? with
    | some (ctx, i), some n =>
      (s.updCfg ctx i fun c =>
        { c with vest := c.vest ++ [(n.gid, obj, t, s.now)], resumed := c.resumed || c.byHold }).noteCandidate ctx i
    | _, _ => s.endCmd t 0
  else
    let s :=
      if obj = 5 then
        let x := c.dslot node
        match x.req with
        | some (q, id) =>
          if x.owner = t.ctx then s.updRequest (hallOf cell) q id fun r => { r with heldSince := none } else s
        | none => s
      else if obj = 4 then s.releaseAddress cell ver node
      else s.releasePort cell ver node obj
    s.endCmd t 0

/-- CTRL_RESUME. -/
def execCtrlResume (s : State) : Host.Outcome State Fault Refusal :=
  .next (match s.arriving s.choice.n with
    | some p =>
      match p.token? with
      | some t =>
        if t.route ≠ .resume then s
        else
          let a := t.payload.toNat
          let node := a / 2 ^ 18 % 32
          let obj := a / 2 ^ 23 % 8
          let v := (s.cell p.dst).version ((s.cell p.dst).liveVersion node)
          if !(s.ctx t.ctx).live then (s.takePacket s.choice.n).lateToken p.dst false 0 node t
          else if v.state = .loading && obj ≠ 5 then s
          else (s.takePacket s.choice.n).resumeObject p.dst node obj t
      | none => s
    | none => s)

/-! ## Sweeps (05:R83; 15:R234, R235) -/

/-- The live version of every node of a cell becomes the one named, in place of the other where that holds a configuration
(05:R83). A READY configuration so named is LIVE (23:R339). -/
def State.flip (s : State) (cell : Nat) (v : Bool) : State :=
  let s := s.updCell cell fun c =>
    (({ c with liveOne := if v then upTo 32 else [] }).updVersion v fun x => { x with swept := false }).updVersion (!v) fun x =>
      { x with swept := x.swept || decide (x.state ≠ VerState.empty) }
  match (s.version cell v).state, (s.version cell v).owner with
  | .ready, some (ctx, i) =>
    (s.updVersion cell v fun x => { x with state := .live }).updCfg ctx i fun c =>
      { c with state := if c.state = .ready then .live else c.state, liveSince := if c.state = .ready then s.now else c.liveSince
               wanted := c.wanted && decide (c.state ≠ .ready) }
  | _, _ => s

/-- Cells that a sweep visits, in order: its gallery, or its region (15:R234). -/
def sweepCells (t : Token) (dst : Nat) : List Nat :=
  if t.payload = 0 then (upTo 1024).map (galleryOf dst * 1024 + ·)
  else (regionOf t.payload.toNat).cells (galleryOf dst)

/-- A cell's register and pair value match a start sweep (15:R235). -/
def Cell.matchesStart (c : Cell) (word : Nat) (pair : Nat) : Bool :=
  c.region.toNat = word - word % 2 && c.regionPair.toNat = pair % 2 ^ 32

/-- The operand rows of a holder may be read (15:R235). -/
def Cell.passesStart (c : Cell) (cell : Nat) (word : Nat) (pair : Nat) : Bool :=
  let r := regionOf word
  let p := pairOf (BitVec.ofNat 32 pair)
  let holds (base n : Nat) : Bool := decide (base + n ≤ 512) && !(rowRun base n).any c.rowTaken
  (cellColOf cell ≠ r.col0 || holds r.abase (r.steps * groupRows p.fmtA p.pa))
    && (cellRowOf cell ≠ r.row0 || holds r.bbase (r.steps * groupRows p.fmtB p.pb))

/-- CTRL_SWEEP: the sweep's visit to one cell, and its way to the next. It is held where the version named is LOADING,
and a start sweep where a region operation is in flight. -/
def execCtrlSweep (s : State) : Host.Outcome State Fault Refusal :=
  let go (p : Packet) (t : Token) (pair : Option Token) (matched : List Nat) (failed : Option Nat) : State :=
    let cell := p.dst
    let v := t.aux.getLsbD 4
    let c := s.cell cell
    if !(s.ctx t.ctx).live then (s.takePacket s.choice.n).lateToken cell v 0 0 t
    else if (c.version v).state = .loading || (pair.isSome && c.regionOp.isSome) then s
    else
      let s := s.takePacket s.choice.n
      let s := if (c.version v).state = .empty then s.chronoAt cell 0x07 v.toNat v 0 t.iter.toNat t.ctx.toNat
        else s.flip cell v
      let same := match pair with | some q => c.matchesStart t.payload.toNat q.payload.toNat | none => true
      let ok := same && (match pair with | some q => c.passesStart cell t.payload.toNat q.payload.toNat | none => true)
      let matched := if pair.isSome && same then matched ++ [cell] else matched
      let failed := if ok then failed else some (failed.getD cell)
      match ((sweepCells t cell).filter (cell < ·)).head?, pair with
      | some next, _ => s.send ⟨cell, next, .sweep { t with dst := BitVec.ofNat 18 next } pair matched failed⟩
      | none, some q => s.send ⟨cell, cell, .regionStart t q matched failed⟩
      | none, none => s
  .next (match s.arriving s.choice.n with
    | some p =>
      match p.body with
      | .sweep t pair matched failed => go p t pair matched failed
      | .token t _ => if t.route = .sweep then go p t none [] none else s
      | _ => s
    | none => s)

/-! ## Barrier arrivals and retirements (17:R252, R272) -/

/-- A configuration of the context that has left the cell, where no version of the cell holds one any more: what comes for
the cell follows it (23:R355). -/
def State.leftBy (s : State) (cell : Nat) (ctx : BitVec 10) : Option Nat :=
  let l := [(s.cell cell).v0, (s.cell cell).v1]
  if l.any fun v => v.cfgOf.any (·.1 = ctx) then none
  else l.findSome? fun v => if v.epochOpen then v.owner.bind fun o => if o.1 = ctx then some o.2 else none else none

/-- BARRIER_ARRIVE: an arrival reaches its home. Reserved bits of its payload make it a KIND entry. One for a version that is
LOADING is held (05:R81), and one for a cell that its configuration has left goes to the cell's replacement (23:R355). -/
def execBarrierArrive (s : State) : Host.Outcome State Fault Refusal :=
  .next (match s.arriving s.choice.n with
    | some p =>
      match p.token? with
      | some t =>
        if t.route ≠ .barrier then s
        else
          let s := s.takePacket s.choice.n
          if !(s.ctx t.ctx).live then s.lateToken p.dst t.ver 0 0 t
          else if (s.version p.dst t.ver).state = .loading then
            s.updVersion p.dst t.ver fun v => { v with held := v.held ++ [p] }
          else if let some i := s.leftBy p.dst t.ctx then s.updCfg t.ctx i fun x => { x with vestMsgs := x.vestMsgs ++ [p] }
          else if bitsOf t.payload.toNat 9 3 ≠ 0 || decide (2 ^ 60 ≤ t.payload.toNat) then s.logToken p.dst kindEntry t
          else s.arriveAt p.dst t
      | none => s
    | none => s)

/-- The window's base moves past retired tags (17:R252). -/
def Node.advance (n : Node) : Nat → Node
  | 0 => n
  | k + 1 =>
    if n.retired.contains n.loopBase then
      { n with retired := n.retired.filter (· ≠ n.loopBase), loopBase := (n.loopBase + 1) % 4096 }.advance k
    else n

/-- RETIREMENT_ARRIVAL (17:R252): at a node that has moved meanwhile it follows, in its place among the task's
retirements. The agent of its hall names the new place, once it does not change firmware (25:R371). -/
def execRetirementArrival (s : State) : Host.Outcome State Fault Refusal :=
  .next (match s.arriving s.choice.n with
    | some ⟨_, dst, .retire ctx a by_ _⟩ =>
      match s.loopbPlace ctx with
      | none => if (s.ctx ctx).live then s else s.takePacket s.choice.n
      | some p =>
        if p.cell ≠ dst && (s.hall (hallOf dst)).switching then s
        else if p.cell ≠ dst then { s with net := lset s.net s.choice.n fun q => { q with dst := p.cell } }
        else
          let s := s.takePacket s.choice.n
          match s.node p.cell p.ver p.node with
          | none => s
          | some n =>
            let k := a.toNat % 4096
            if n.retired.contains k || (n.loopNext + 4096 - n.loopBase) % 4096 ≤ (k + 4096 - n.loopBase) % 4096 then
              s.nodeFault by_ Cause.tagWindow k a.toNat
            else s.updNode p.cell p.ver p.node fun n => { n with retired := k :: n.retired }.advance 4096
    | _ => s)

end Sys2Proof.Machine
end

