-- ==== Sys2Proof/Machine/MemoryEvents.lean ====
section
/-! DEFINITION. Events of memory: operations that return, waits that wake, walks, wave operations, presence accesses at
their homes, promotions (07:R108, R109, R121 to R135; 17:R244, R250, R254, R255; 21:R313, R316, R318). -/

namespace Sys2Proof.Machine

/-! ## Returns (17:R244) -/

/-- The LOOPB node of a context as it stands, placed or saved; before its first install its window is that of tag 0. -/
def State.loopbNode (s : State) (ctx : BitVec 10) : Node :=
  match s.loopbSpec ctx with
  | none => {}
  | some (i, spec) =>
    match s.loopbPlace ctx with
    | some p => (s.node p.cell p.ver p.node).getD { window := spec.window }
    | none =>
      let saved : List Node := match s.cfg ctx i with | some c => c.saved.flatMap fun x => x.nodes | none => []
      (saved.find? (·.gid = spec.gid)).getD { window := spec.window }

/-- An operation leaves the cell's list. -/
def State.dropOp (s : State) (cell id : Nat) : State :=
  s.updCell cell fun c => { c with ops := c.ops.filter fun o => o.id ≠ id }

/-- The value of an operation is written to its register, and taints the task where it is poisoned (11:R167). -/
def Task.receive (t : Task) (sd : BitVec 5) (v : Word) (poison : Bool) : Task :=
  let t := t.setReg sd v
  { t with pending := t.pending.erase sd.toNat, taint := t.taint || poison }

/-- A flit from the host has come without an error: a run of replays is over (25:R358). -/
def State.goodFlit (s : State) : State := { s with cp := { s.cp with replayRun := 0 } }

/-- The value returns to its task; a task that has ended takes none. -/
def State.returnValue (s : State) (cell : Nat) (o : Op) (v : Word × Bool) : State :=
  ((if isHost o.pa then s.goodFlit else s).dropOp cell o.id).asTask cell o.slot fun s t => s.setTask s.here (t.receive o.sd v.1 v.2)

/-- LDA.PROM's reply has come: SCOPE for an unknown target, else the load as LDA.DEVICE (17:R263). -/
def State.finishProm (s : State) (cell : Nat) (o : Op) (badNode : Bool) : State :=
  ((if isHost o.pa && !badNode then s.goodFlit else s).dropOp cell o.id).asTask cell o.slot fun s t =>
    let t := { t with pending := t.pending.erase o.sd.toNat }
    if badNode then s.raise t Cause.scope t.pc.toNat o.va.toNat
    else
      let s := (s.pushLine cell (lineOf o.pa) .device).acquire cell .device
      let (s, v) := s.readAt cell o.pa (sizeBytes o.size) (some .device)
      let s := s.raiseOffline (some (taskNode cell t)) o.pa
      s.complete { t.setReg o.sd (extendLoad v o.size o.sx) with taint := t.taint || s.readPoison cell o.pa (some .device) }

/-- A deferred load of the same word that reached its home earlier has not completed: the deferred loads of one word
complete in that order (07:R108). -/
def State.presBehind (s : State) (cell id : Nat) : Bool :=
  match (s.memAnswered.find? fun x => x.2 = (cell, id)) with
  | some y => !((s.memAnswered.find? fun x => x.1 = y.1).any fun x => x.2 = (cell, id))
  | none => false

/-- The same of a word of the bank: an earlier operation of the cell's list. -/
def Cell.bankBehind (c : Cell) (o : Op) : Bool :=
  let same (x : Op) : Bool := presRow x.va = presRow o.va && presWord x.va = presWord o.va
  (match o.kind with | .presBank true _ => true | _ => false)
    && (c.ops.takeWhile (·.id ≠ o.id)).any fun x => same x && (match x.kind with | .presBank true _ => true | _ => false)

/-- MEMORY_OPERATION_RETURN: operation `k` of the cell. -/
def execMemoryOperationReturn (s : State) : Host.Outcome State Fault Refusal :=
  let cell := s.choice.cell.toNat
  .next (match (s.cell cell).ops.find? (·.id = s.choice.k) with
    | none => s
    | some o =>
      match o.kind with
      | .load _ _ | .atomic _ _ _ _ =>
        let s := s.serveOp cell o
        match (s.cell cell).ops.find? (·.id = o.id) with
        | some ⟨_, _, .load _ (some v), _, _, _, _, _⟩ | some ⟨_, _, .atomic _ _ _ (some v), _, _, _, _, _⟩ =>
          s.returnValue cell o v
        | _ => s
      | .presBank _ (some v) => if (s.cell cell).bankBehind o then s else s.returnValue cell o v
      | .pres (some v) =>
        if s.presBehind cell o.id then s
        else { s with memAnswered := s.memAnswered.filter fun x => x.2 ≠ (cell, o.id) }.returnValue cell o v
      | .wave (some v) => (s.returnValue cell o v).acquire cell (scopeBetween cell o.pa)
      | .prom true bad => s.finishProm cell o bad
      | .tagset a =>
        (s.dropOp cell o.id).asTask cell o.slot fun s t => s.setTag t a ((s.loopbNode t.ctx).liveTag (a.toNat % 4096))
      | _ => s)

/-! ## Parked tasks (17:R254, R255) -/

/-- WAITT_WAKE. -/
def execWaittWake (s : State) : Host.Outcome State Fault Refusal :=
  let cell := s.choice.cell.toNat
  .next (s.asTask cell s.choice.slot fun s t =>
    match t.wait with
    | .waitt a => if a ≤ s.cyc && !s.taskHalted cell t then s.wakeAtTime t a else s
    | _ => s)

/-- WAITF_REREAD: 32 cycles after the read before it at the soonest. -/
def execWaitfReread (s : State) : Host.Outcome State Fault Refusal :=
  let cell := s.choice.cell.toNat
  .next (s.asTask cell s.choice.slot fun s t =>
    match t.wait with
    | .waitf c scope sd pa _ b since =>
      if s.now < since + 32 || s.taskHalted cell t then s
      else s.waitRead t c scope sd pa b fun s t w => s.setTask s.here { t with wait := w }
    | _ => s)

/-- Tasks whose WAITF read is 256 cycles old: it is made again before the cycle ends (17:R255). -/
def Cell.waitfDue (c : Cell) (now : Nat) : List Nat :=
  c.tasks.filterMap fun x =>
    match x.2.wait with
    | .waitf _ _ _ _ _ _ since => if since + 256 ≤ now then some x.1 else none
    | _ => none

/-- The clock advances, once every WAITF read that is due has been made (17:R255). -/
def State.tickDue (s : State) : State :=
  let s := each s.cells s fun s x =>
    each (x.2.waitfDue s.now) s fun s slot =>
      match execWaitfReread { s with choice := { s.choice with cell := BitVec.ofNat 18 x.1, slot := slot } } with
      | .next s' => { s' with choice := s.choice }
      | _ => s
  s.tick

/-! ## Wave operations at the interface (07:R134, R135; 17:R260; 21:R313, R318, R326) -/

/-- The address port of the node holds an access; where the node is the first-declared LOADER or STORER of its
configuration, its memory interface's, that of either of the two (21:R313). -/
def State.interfaceHeld (s : State) (cell : Nat) (ver : Bool) (node : Nat) : Bool :=
  let v := s.version cell ver
  let spec := (v.owner.bind fun o => s.cfg o.1 o.2).map (·.spec)
  let first (r : Role) : Option Nat :=
    (spec.bind fun c => c.nodes.find? (·.role = r)).bind fun n => v.nodes.findIdx? (·.gid = n.gid)
  let pair := [first .loader, first .storer].filterMap id
  (if pair.contains node then pair else [node]).any fun i =>
    match v.nodes[i]? with | some n => n.heldSince.isSome | none => false

/-- The identity of a wave operation among the waiters of a walk. -/
def WaveOp.key (w : WaveOp) : Nat := w.ctx.toNat * 2 ^ 20 + w.iter.toNat * 2 ^ 8 + w.ws

/-- The operation is performed and its slot is filled. The numbers of a wave are kept as long as its iteration's tag names
it, until a LOOPB.ISSUE gives that tag out anew (07:R134, R135; DEDUCED, log entry 27). -/
def State.waveDone (s : State) (x : Choice) (w : WaveOp) : State :=
  s.updNode x.cell.toNat x.ver x.node fun n =>
    { n with waves := n.waves.erase w, waveDone := (w.ctx.toNat, w.iter.toNat, w.ws) :: n.waveDone }

/-- A wave load's value waits for its task. -/
def State.waveValue (s : State) (at_ : Nat) (w : WaveOp) (v : Word) (poison : Bool) : State :=
  match w.op with
  | none => s
  | some (c, id) =>
    s.updCell c fun x => { x with ops := x.ops.map fun o =>
      if o.id = id then (match o.kind with | .wave _ => { o with kind := .wave (some (v, poison)), pa := at_ } | _ => o)
      else o }

/-- A wave operation fails with PROTECTION against its issuing node; its slot is filled, and what a load returns the
spec leaves open (21:R318; log entry 8). -/
def State.waveFails (s : State) (x : Choice) (w : WaveOp) : State :=
  let s := s.nodeFault w.source Cause.protection w.addr.toNat w.word.toNat
  (s.useFree.waveValue x.cell.toNat w (Config.freeWord s.fresh 39) w.poison).waveDone x w

/-- The token of a wave operation. The spec does not lay out its kind, route tag, aux and payload, which are free values
(27:R384; log entry 8). -/
def State.waveToken (s : State) (cell : Nat) (ver : Bool) (w : WaveOp) : Token :=
  { kind := BitVec.ofNat 3 (Config.freeWord s.fresh 63).toNat, dst := BitVec.ofNat 18 cell, poison := w.poison, ver := ver
    rtag := BitVec.ofNat 8 (Config.freeWord s.fresh 64).toNat, ctx := w.ctx, iter := w.iter
    pred := if w.null then .null else .none, aux := BitVec.ofNat 9 (Config.freeWord s.fresh 65).toNat
    payload := Config.freeWord s.fresh 66 }

/-- WAVE_OPERATION: operation `n` of the storer that the turn names, if its turn in the wave has come. -/
def execWaveOperation (s : State) : Host.Outcome State Fault Refusal :=
  let x := s.choice
  let cell := x.cell.toNat
  .next (match s.node cell x.ver x.node with
    | none => s
    | some n =>
      match n.waves[x.n]? with
      | none => s
      | some w =>
        let performed (q : Nat) : Bool := n.waveDone.contains (w.ctx.toNat, w.iter.toNat, q)
        if w.ws = 255 || performed w.ws then
          (s.updNode cell x.ver x.node fun n => { n with waves := ldel n.waves x.n }).useFree.chronoAt cell waveEntry
            (bitsOf (s.waveToken cell x.ver w).bits 32 96) x.ver x.node w.iter.toNat w.ctx.toNat
        else if (w.wp ≠ 255 && !performed w.wp) || s.interfaceHeld cell x.ver x.node then s
        else if w.null then s.waveDone x w
        else if w.store && w.poison then
          (s.poisonSink (nodeRef cell x.ver x.node w.ctx w.iter) w.addr.toNat 1 1).waveDone x w
        else
          match s.via { edge := some cell, hall := hallOf cell, ctx := w.ctx } w.addr.toNat .plain w.store with
          | .ok s (pa, _) =>
            if w.store then (s.writePhys pa (sizeBytes w.size) (w.data.toNat % 2 ^ (8 * sizeBytes w.size)) false (some w.source)).waveDone x w
            else
              let (v, p) := s.readPhys pa (sizeBytes w.size)
              ((s.readNoted pa (some w.source)).waveValue cell w (extendLoad v w.size w.sx) (w.poison || p)).waveDone x w
          | .miss va wr =>
            s.missAt (hallOf cell) (s.ctx w.ctx).root (BitVec.ofNat 64 va) wr (.wave cell x.ver x.node w.key)
          | .bad _ _ => s.waveFails x w
          | .busy => s)

/-! ## Walks (21:R316 to R318; 23:R342, R347) -/

/-- TRAPINFO of a failed walk: failing level, write, no root bound (07:R105, 23:R342). -/
def walkInfo (level : Nat) (write noRoot : Bool) : Nat := level + 256 * write.toNat + 512 * noRoot.toNat

/-- The word at a task's pc as an instruction. -/
def State.instrAt (s : State) (cell : Nat) (t : Task) : Option Instr :=
  match decode (tgetD (s.version cell t.ver).code 0 t.pc.toNat) with
  | .instr i => some i
  | _ => none

/-- The task runs again with what the walk gave it. -/
def State.grantTask (s : State) (cell slot : Nat) (l : Leaf) : State :=
  s.asTask cell slot fun s t =>
    if t.wait = .walk then s.setTask s.here { t with wait := .retry none false, waitAt := none, grant := some l } else s

/-- A node's address port holds an access from now on (21:R318, 23:R347). -/
def State.holdPort (s : State) (cell : Nat) (ver : Bool) (node : Nat) : State :=
  s.updNode cell ver node fun n => { n with heldSince := some (n.heldSince.getD s.now) }

/-- A task's walk has failed: line forms do nothing, TRANSLATION holds the access, PROTECTION is a fault of the task, and
of XLAT one of the node; an XLAT sends a null PADDR token whichever of the two it is, and one that is held is tried again
after its RESUME (17:R266, R267; 19:R292; 23:R342, R347). -/
def State.failTask (s : State) (cell slot : Nat) (va : Word) (write : Bool) (r : WalkResult) : State :=
  s.asTask cell slot fun s t =>
    if t.wait ≠ .walk then s
    else
      let t := { t with wait := .none, waitAt := none }
      match s.instrAt cell t, r with
      | some (.pref _ _), _ | some (.l1Inv _ _), _ | some (.l1Wb _ _), _ => s.complete t
      | some (.xlat _ port _ _), .protection =>
        s.sendThen t [(port.toNat, t.paddrTok none)] fun s t =>
          (s.nodeFault (taskNode cell t) Cause.protection va.toNat (s.curWord t).toNat).complete t
      | some (.xlat _ port _ _), .translation level noRoot =>
        s.sendThen t [(port.toNat, t.paddrTok none)] fun s t =>
          let s := s.nodeFault (taskNode cell t) Cause.translation va.toNat (walkInfo level write noRoot)
          (s.setTask s.here { t with wait := .held s.now, waitAt := some s.now, done := [] }).holdPort cell t.ver t.node
      | _, .translation level noRoot =>
        let s := s.nodeFault (taskNode cell t) Cause.translation va.toNat (walkInfo level write noRoot)
        (s.setTask s.here { t with wait := .held s.now, waitAt := some s.now }).holdPort cell t.ver t.node
      | _, _ => s.raise t Cause.protection va.toNat (s.curWord t).toNat

/-- An engine request's walk has failed (19:R282). -/
def State.failWalkRequest (s : State) (h q id : Nat) (va : Word) (write : Bool) (w : WalkResult) : State :=
  match (s.queue h q).find? (·.id = id) with
  | none => s
  | some r =>
    if r.cancelled then s else
    match w with
    | .translation level noRoot =>
      ((s.updRequest h q id fun r => { r with heldSince := some s.now }).noteCandidates r.node.ctx).nodeFault r.node Cause.translation va.toNat
        (walkInfo level write noRoot)
    | _ => s.failRequest h q r Cause.protection va.toNat r.word.toNat

/-- END's word. -/
def endWord : Nat := 0x2040000000000000

/-- TRANSLATION of an access of a pass; the record tells the pass of a PADDR address apart (21:R311, 23:R345). -/
def State.passFault (s : State) (n : NodeRef) (p : Pass) (addr info : Nat) : State :=
  let phys : Bool := match p.paddr with | some (some _) => true | _ => false
  let s := s.record (s.nodeRecord n Cause.translation addr info 3 phys)
  if (s.ctx n.ctx).strict then s.beginStop n.ctx else s

/-- A pass's walk has failed: TRANSLATION holds the port, PROTECTION ends the pass FAILED (21:R318). -/
def State.failPass (s : State) (cell : Nat) (ver : Bool) (node : Nat) (va : Word) (write : Bool) (w : WalkResult) : State :=
  match s.node cell ver node with
  | none => s
  | some n =>
    match n.passes with
    | [] => s
    | p :: rest =>
      let ref : NodeRef := (nodeRef cell ver node p.ctx p.iter)
      match w with
      | .translation level noRoot =>
        (s.holdPort cell ver node).passFault ref p va.toNat (walkInfo level write noRoot)
      | _ =>
        (s.updNode cell ver node fun n => { n with passes := { p with failed := some Cause.protection } :: rest }).nodeFault ref
          Cause.protection va.toNat endWord

/-- A wave operation's walk has failed (21:R318). -/
def State.failWave (s : State) (cell : Nat) (ver : Bool) (node k : Nat) (va : Word) (write : Bool) (r : WalkResult) : State :=
  match s.node cell ver node with
  | none => s
  | some n =>
    match n.waves.find? (·.key = k) with
    | none => s
    | some w =>
      match r with
      | .translation level noRoot =>
        (s.holdPort cell ver node).nodeFault (nodeRef cell ver node w.ctx w.iter) Cause.translation va.toNat
          (walkInfo level write noRoot)
      | _ => s.waveFails { s.choice with cell := BitVec.ofNat 18 cell, ver := ver, node := node } w

/-- A walk has ended for one waiter. -/
def State.endWalkFor (s : State) (noCache : Bool) (res : WalkResult) (x : Waiter × Word × Bool) : State :=
  let edge (s : State) (cell : Nat) (l : Leaf) : State :=
    if noCache || !isEdgeCell cell then s else s.updCell cell fun c => { c with tlb := lruInsert c.tlb l 64 }
  match res with
  | .leaf l =>
    match x.1 with
    | .task cell slot => (edge s cell l).grantTask cell slot l
    | .engine h q id => s.updRequest h q id fun r => { r with grant := some l }
    | .pass cell _ _ | .wave cell _ _ _ => edge s cell l
  | r =>
    match x.1 with
    | .task cell slot => s.failTask cell slot x.2.1 x.2.2 r
    | .engine h q id => s.failWalkRequest h q id x.2.1 x.2.2 r
    | .pass cell ver node => s.failPass cell ver node x.2.1 x.2.2 r
    | .wave cell ver node k => s.failWave cell ver node k x.2.1 x.2.2 r

/-- The node whose access waits on a walk. -/
def State.waiterNode (s : State) (w : Waiter) : Option NodeRef :=
  match w with
  | .task cell slot => (s.task ⟨cell, slot⟩).map (taskNode cell)
  | .engine h q id => ((s.queue h q).find? (·.id = id)).map (·.node)
  | .pass cell ver node =>
    ((s.node cell ver node).bind fun n => n.passes.head?).map fun p => nodeRef cell ver node p.ctx p.iter
  | .wave cell ver node k => ((s.node cell ver node).bind fun n => n.waves.find? (·.key = k)).map (·.source)

/-- A walk reads its entries; the node that asked for it finds an offline channel (07:R105; 27:R378, R382). -/
def State.walkNoted (s : State) (w : Walk) : State :=
  let by_ := w.waiters.head?.bind fun x => s.waiterNode x.1
  match w.root with
  | some r => each (walkReads s r w.va.toNat 4) s fun s pa => s.readNoted pa by_
  | none => s

/-- WALK_COMPLETE: walk `n` of the 32 in progress ends; its merged misses complete in the order of their arrival. -/
def execWalkComplete (s : State) : Host.Outcome State Fault Refusal :=
  let h := s.choice.hall.toNat
  .next (match (s.hall h).walks[s.choice.n]? with
    | none => s
    | some w =>
      if 32 ≤ s.choice.n then s
      else
        let res := walkRoot s w.root w.va.toNat
        let s := (s.walkNoted w).updHall h fun x => { x with walks := ldel x.walks s.choice.n }
        let s := match res with
          | .leaf l => if w.noCache then s else s.updHall h fun x => { x with wcache := lruInsert x.wcache l 4096 }
          | _ => s
        each w.waiters s fun s x => s.endWalkFor w.noCache res x)

/-! ## Presence at the home (07:R108, R109) -/

/-- A presence load of the given operation has its value. -/
def givePres (op : Nat) (v : Word) (poison : Bool) (l : List Op) : List Op :=
  l.map fun o => if o.id = op then (match o.kind with | .pres _ => { o with kind := .pres (some (v, poison)) } | _ => o) else o

/-- A deferred load has its value, be its task on the cell or saved from it (23:R352). -/
def State.presValue (s : State) (cell op : Nat) (v : Word) (poison : Bool) : State :=
  let s := s.updCell cell fun c => { c with ops := givePres op v poison c.ops }
  { s with cfgs := s.cfgs.map fun (k, c) =>
      (k, { c with saved := c.saved.map fun u => if u.cell = cell then { u with ops := givePres op v poison u.ops } else u }) }

/-- A deferred load's task has not ended: its operation is still there, on the cell or saved (11:R180). -/
def State.awaited (s : State) (d : Nat × Nat × Nat) : Bool :=
  (s.cell d.2.1).ops.any (·.id = d.2.2)
    || s.cfgs.any fun x => x.2.saved.any fun u => u.cell = d.2.1 && u.ops.any (·.id = d.2.2)

/-- PRESENCE_STORE_AT_HOME: a full word turns it away. -/
def execPresenceStoreAtHome (s : State) : Host.Outcome State Fault Refusal :=
  .next (match s.arriving s.choice.n with
    | some ⟨_, _, .presStore a va v by_⟩ =>
      let s := s.takePacket s.choice.n
      if tgetD s.memFull false (a / 8) then s.nodeFault by_ Cause.presenceRewrite va.toNat v.toNat
      else
        let s := (s.raiseOffline (some by_) a).writeHome a 8 v.toNat
        let s := { s with memFull := tset s.memFull false (a / 8) true }
        let due := s.memDeferred.filter fun d => d.1 = a
        let s := { s with memDeferred := s.memDeferred.filter fun d => d.1 ≠ a, memAnswered := s.memAnswered ++ due.filter s.awaited }
        each due s fun s d => s.presValue d.2.1 d.2.2 v (s.sectorPoisoned a)
    | _ => s)


/-- PRESENCE_LOAD_AT_HOME: a full word answers, an empty one defers, a full table refuses. -/
def execPresenceLoadAtHome (s : State) : Host.Outcome State Fault Refusal :=
  .next (match s.arriving s.choice.n with
    | some ⟨_, _, .presLoad a cell op⟩ =>
      if tgetD s.memFull false (a / 8) then
        let by_ := ((s.cell cell).ops.find? (·.id = op)).bind ((s.cell cell).opNode cell)
        ((s.takePacket s.choice.n).readNoted a by_).presValue cell op (BitVec.ofNat 64 (s.readHome a 8)) (s.sectorPoisoned a)
      else if s.deferFull a then s
      else { s.takePacket s.choice.n with memDeferred := s.memDeferred ++ [(a, cell, op)] }
    | _ => s)

/-! ## Promotions (07:R121 to R129) -/

/-- AGENT_PROMOTION_LOOKUP: the request goes to the target's cell, or is answered at once (07:R123, R129). -/
def execAgentPromotionLookup (s : State) : Host.Outcome State Fault Refusal :=
  .next (match s.net[s.choice.n]? with
    | some ⟨_, dst, .promLookup r⟩ =>
      if (s.hall (hallOf dst)).switching then s
      else
        let s := s.takePacket s.choice.n
        if !(s.ctx r.ctx).live then s.answerProm r false
        else
          match s.cfgWith r.ctx r.target with
          | none => s.answerProm r true
          | some c =>
            match (c.copy (hallOf dst)).find? (·.gid = r.target) with
            | none => s.answerProm r false
            | some p =>
              s.send ⟨dst, p.cell,
                .msg { dst := BitVec.ofNat 18 p.cell, poison := false, ver := p.ver, op := 0x0B, handler := 0
                       ccell := BitVec.ofNat 18 r.cell, ctag := 0xFE, operand := BitVec.ofNat 64 r.target } r.ctx
                  (some (.prom r))⟩
    | _ => s)

/-- The cell may accept a request (07:R128): the requester's last one is long enough ago. -/
def Cell.mayAccept (c : Cell) (now : Nat) (r : PromReq) : Bool :=
  match c.promLast.find? (·.1 = r.cell) with
  | none => true
  | some (_, pos, cyc) =>
    let busy (ver : Bool) (i : Nat) : Bool := c.tasks.any fun x => x.2.ver = ver && x.2.node = i
    let ok (ver : Bool) (l : List Node) : List Bool :=
      l.mapIdx fun i n => n.gid ≠ r.target || decide (pos < n.lastRetired) || decide (cyc < n.lastIdle && n.lastIdle ≤ now) || !busy ver i
    (ok false c.v0.nodes ++ ok true c.v1.nodes).all (· = true)

/-- Begin the promotion of a request, with those of its requester that wait (07:R124, R126, R128). -/
def Cell.accept (c : Cell) (r : PromReq) : Cell :=
  let same := fun (q : PromReq) => q.cell = r.cell
  { c with prom := some (c.promWaiting.filter same, c.log.length), promWaiting := c.promWaiting.filter fun q => !same q }

/-- The request that the cell accepts next: the first that may be, each requester's first one standing for those that have
joined it (07:R126, R128). -/
def Cell.nextRequest (c : Cell) (now : Nat) : Option PromReq :=
  c.promWaiting.find? fun r => decide (c.promWaiting.find? (·.cell = r.cell) = some r) && c.mayAccept now r

/-- PROMOTION_ACCEPT: the request that the cell accepts next. -/
def execPromotionAccept (s : State) : Host.Outcome State Fault Refusal :=
  let cell := s.choice.cell.toNat
  let c := s.cell cell
  .next (match c.prom, c.nextRequest s.now with
    | none, some r => s.updCell cell fun c => c.accept r
    | _, _ => s)

/-- The reply to a promotion's requester, a release back to it (07:R118, R123). -/
def State.replyProm (s : State) (cell : Nat) (r : PromReq) : State :=
  (s.pushTo cell (scopeBetween cell r.cell)).send ⟨cell, r.cell,
    .msg { dst := BitVec.ofNat 18 r.cell, poison := false, ver := false, op := 0x17, handler := 0
           ccell := BitVec.ofNat 18 cell, ctag := 0xFE, operand := 0 } r.ctx (some (.prom r))⟩

/-- A promotion of the log's first `n` entries for the requests `l`: the covered entries leave the log, SERVED counts, the
requesters have their replies (07:R124). -/
def State.promoteFor (s : State) (cell n : Nat) (l : List PromReq) : State :=
  let s := (s.promoteWrites cell).updCell cell fun c =>
    let last := (l.map (·.cell)).dedup
    { c with
      log := c.log.drop n, eagerMark := none, served := satAdd c.served 1 16
      promLast := last.map (fun q => (q, c.issuePos, s.now)) ++ c.promLast.filter fun y => !last.contains y.1 }
  each l s fun s r => s.replyProm cell r

/-- The promotion in progress completes. -/
def State.finishOne (s : State) (cell : Nat) : State :=
  match (s.cell cell).prom with
  | none => s
  | some (l, n) => (s.updCell cell fun c => { c with prom := none }).promoteFor cell n l

/-- The promotion in progress completes; requests that have waited for it are accepted then, each completing in the cycle
of its acceptance (07:R126). -/
def State.finishPromotion (s : State) (cell : Nat) : Nat → State
  | 0 => s.finishOne cell
  | k + 1 =>
    let s := s.finishOne cell
    match (s.cell cell).nextRequest s.now with
    | some r => (s.updCell cell fun c => c.accept r).finishPromotion cell k
    | none => s

/-- PROMOTION_COMPLETE. -/
def execPromotionComplete (s : State) : Host.Outcome State Fault Refusal :=
  let cell := s.choice.cell.toNat
  .next (if (s.cell cell).prom.isSome then s.finishPromotion cell (s.cell cell).promWaiting.length else s)

/-- EAGER_PROMOTION_COMPLETE (07:R125). -/
def execEagerPromotionComplete (s : State) : Host.Outcome State Fault Refusal :=
  let cell := s.choice.cell.toNat
  .next (match (s.cell cell).eagerMark with
    | none => s
    | some _ => (s.promoteWrites cell).updCell cell fun c => { c with eagerMark := none })

/-- Requests that wait at a cell are accepted at once and complete (24:R357; 07:R129). -/
def State.settlePromotions (s : State) (cell : Nat) : Nat → State
  | 0 => s
  | k + 1 =>
    let s := s.finishOne cell
    match (s.cell cell).promWaiting with
    | [] => s
    | r :: _ => (s.updCell cell fun c => c.accept r).settlePromotions cell k

/-- MPROM: the request waits at the target's cell, or joins the requester's pending one (07:R123, R126, R128); where
scan-out has stopped issue it is accepted at once (24:R357). -/
def execMprom (m : Msg) (s : State) : Host.Outcome State Fault Refusal :=
  onMsg s m true fun s a =>
    let r : PromReq := match a.req with
      | some (.prom r) => r
      | _ => ⟨m.ccell.toNat, m.ctag.toNat, a.ctx, m.operand.toNat⟩
    let s := s.updCell m.dst.toNat (·.joinProm r)
    some (if (s.cell m.dst.toNat).issueStopped then
        s.settlePromotions m.dst.toNat ((s.cell m.dst.toNat).promWaiting.length + 1)
      else s)

/-- The promotion of a save, an uninstall or an exit: the cell's whole log, as by Promote; the requests that wait for the
targets given complete with it, and with them those that have joined them (07:R128, R129). -/
def State.savePromotion (s : State) (cell : Nat) (target : PromReq → Bool) : State :=
  let s := s.finishOne cell
  let w := (s.cell cell).promWaiting
  let mine (r : PromReq) : Bool := w.any fun q => q.cell = r.cell && target q
  (s.updCell cell fun c => { c with promWaiting := c.promWaiting.filter fun r => !mine r }).promoteFor cell
    (s.cell cell).log.length (w.filter mine)

/-! ## Units (13:R215) -/

/-- IN_FLIGHT_INSTRUCTION_COMPLETE: instructions whose busy time is over leave their units. -/
def execInFlightInstructionComplete (s : State) : Host.Outcome State Fault Refusal :=
  .next (s.updCell s.choice.cell.toNat fun c => { c with flights := c.flights.filter fun f => s.now < f.until_ })

end Sys2Proof.Machine
end

