-- ==== Sys2Proof/Machine/EngineRun.lean ====
section
/-! DEFINITION. The transit engines at work: starting requests, their rows, chunks of compressed streams, completion; the
meridian queue serving pops (05:R89; 19:R279 to R289, R293 to R295; 21:R307, R308, R322 to R325). -/

namespace Sys2Proof.Machine

/-! ## Starting (19:R279) -/

/-- Started requests that an engine interleaves at most. -/
def startedLimit : Nat := 8

/-- The stream of a request allows it to start: no earlier request of the stream is unfinished in any hall. -/
def State.streamAllows (s : State) (r : Request) : Bool :=
  !r.ord || !s.halls.any fun h => h.2.queues.any fun q => q.2.any fun x =>
    x.ord && x.sid = r.sid && x.node.ctx = r.node.ctx && decide (x.id < r.id)

/-- ENGINE_REQUEST_START: the first request of the queue that may start. A signal to a misaligned word fails
(19:R289). -/
def execEngineRequestStart (s : State) : Host.Outcome State Fault Refusal :=
  let h := s.choice.hall.toNat
  let q := s.choice.eq.toNat
  let l := s.queue h q
  .next (match l.find? fun r => !r.started && !r.cancelled && s.streamAllows r with
    | none => s
    | some r =>
      if startedLimit ≤ (l.filter (·.started)).length then s
      else if r.kind = .sig && r.c.toNat % 8 ≠ 0 then s.failRequest h q r Cause.align r.c.toNat r.slot
      else
        s.updRequest h q r.id fun r => { r with started := true, sent := if r.kind = .sig then [s.now] else r.sent })

/-! ## Rows (19:R280, R281, R284, R286) -/

/-- What follows a try of a request: going on, waiting, the walk, a held access or the end (19:R282). -/
def State.onGot {α : Type} (s : State) (h q : Nat) (r : Request) (g : Got α) (k : State → α → State) : State :=
  match g with
  | .ok s a => k s a
  | .busy => s
  | .miss va w => s.missAt h (s.ctx r.node.ctx).root (BitVec.ofNat 64 va) w (.engine h q r.id)
  | .bad cause va =>
    if cause = Cause.translation then
      ((s.updRequest h q r.id fun r => { r with heldSince := some s.now }).nodeFault r.node cause va va).noteCandidates r.node.ctx
    else s.failRequest h q r cause va r.word.toNat

/-- The engine's translation: the hall walker's cache and what a walk granted the request (21:R315). -/
def Request.via (r : Request) (h : Nat) : Via :=
  { edge := none, hall := h, ctx := r.node.ctx, grant := r.grant, by_ := some r.node, request := some (h, r.id) }

/-- One row further. -/
def State.rowWritten (s : State) (h q id : Nat) : State :=
  s.updRequest h q id fun r => { r with rowsDone := r.rowsDone + 1, grant := none }

/-- The presence words of a run of lanes are empty after a fill (07:R108, 19:R286). -/
def State.emptyWords (s : State) (l : Loc) (leaf : Leaf) (a b : Nat) : State :=
  let words := (upTo (b / 64 - a / 64)).map fun i => a / 64 + i
  match l with
  | .bank c r =>
    s.updCell c fun x => { x with bankFull := words.foldl (fun t w => tset t false (16 * r + w) false) x.bankFull }
  | .virt va =>
    if leaf.attr = 1 then
      let pa := leaf.pa va
      { s with memFull := words.foldl (fun t w => tset t false (pa / 8 + w) false) s.memFull }
    else s

/-- The contents of a destination row of a copy: the valid lanes from the source, pads zero (19:R284). -/
def State.copyRow (s : State) (v : Via) (d : Desc) (x : RowStep) (src : Nat) : Got (Row × Bool) :=
  let va := max x.start (1024 * x.group)
  let vb := min (x.start + d.elems) (1024 * (x.group + 1))
  if vb ≤ va then .ok s (0, false)
  else
    (s.bitsIn v d x.plane (src + (va - x.start)) (vb - va)).bind fun s (n, p) =>
      .ok s (BitVec.ofNat 1024 (n * 2 ^ (va - 1024 * x.group)), p)

/-- The contents of a destination row of a fill: every valid element is the value; in word mode every word
(19:R286). -/
def fillRow (d : Desc) (x : RowStep) (b : Word) : Row :=
  let (va, vb) := lanesIn x.group x.start (x.start + d.elems)
  if d.words then
    (upTo 16).foldl (fun r w => if va ≤ 64 * w ∧ 64 * w < vb then setRowWord r w b else r) 0
  else if b.toNat / 2 ^ (d.p - 1 - x.plane) % 2 = 1 then laneRun va vb else 0

/-! ### Groups of several planes (08:R141)

Two requests that nothing orders may write one element at the same time. The group that was begun later stands: what its
request has written of a row, the other's later write of the same row leaves as it is (DESIGN CHOICE, log entry 27). -/

/-- A row of a destination as the groups know it. -/
def State.rowKey (s : State) (v : Via) (l : Loc) (k : Access) : Got (Nat × Row) :=
  match l with
  | .bank c r => .ok s (2 ^ 60 + c * 512 + r, (s.cell c).row r)
  | .virt va => (s.via v va k true).bind fun s (pa, _) => .ok s (pa / 128, BitVec.ofNat 1024 (s.readPhys pa 128).1)

/-- Lanes of a row that groups begun after the request's own have written. -/
def laterLanes (l : List OpenGroup) (id key : Nat) : Row :=
  ((l.reverse.takeWhile (·.request ≠ id)).flatMap fun g => g.rows.filter (·.1 = key)).foldl
    (fun m x => m ||| laneRun x.2.1 x.2.2) 0

/-- A group whose request is over, or has written all of it. -/
def State.groupWhole (s : State) (g : OpenGroup) : Bool :=
  !s.halls.any fun h => h.2.queues.any fun q => q.2.any fun r => r.id = g.request && decide (r.rowsDone < g.whole)

/-- Groups before which none is unfinished are forgotten. -/
def State.pruneGroups (s : State) : State := { s with groups := s.groups.dropWhile s.groupWhole }

/-- The request begins a group: its place among the groups is after the others. -/
def State.beginGroup (s : State) (id whole : Nat) : State :=
  { s with groups := s.groups ++ [{ request := id, whole := whole }] }

/-- A row is noted in the group that the request began last. -/
def noteRow (id : Nat) (x : Nat × Nat × Nat) : List OpenGroup → List OpenGroup
  | [] => []
  | g :: l =>
    if g.request = id && !l.any (·.request = id) then { g with rows := x :: g.rows } :: l else g :: noteRow id x l

/-- Row `pos` of `n` of a group is written. -/
def State.groupOut (s : State) (r : Request) (v : Via) (pos n : Nat) (l : Loc) (x : Row) (a b : Nat) (poison : Bool)
    (k : Access) : Got Leaf :=
  (s.rowKey v l k).bind fun s (key, old) =>
    let s := s.pruneGroups
    let s := if pos = 0 then s.beginGroup r.id (r.rowsDone + n) else s
    let kept := laterLanes s.groups r.id key
    (s.rowOut v l ((x &&& ~~~kept) ||| (old &&& kept)) a b poison k).bind fun s leaf =>
      .ok { s with groups := noteRow r.id (key, a, b) s.groups } leaf

/-- The place of a step's plane in its group, and how many planes the group has. -/
def Desc.placeIn (d : Desc) (dst : Bool) (plane : Nat) : Nat × Nat :=
  let l := d.planes dst 0
  (l.findIdx (· = plane), l.length)

/-- The next row of a request with an affine or indexed destination. -/
def State.affineRow (s : State) (h q : Nat) (r : Request) (d : Desc) : State :=
  match d.stepAt true (d.planes true 0) (r.starts d true) r.rowsDone with
  | none => s
  | some x =>
    let v := r.via h
    let (lo, hi) := d.span true x.start
    let (a, b) := lanesIn x.group lo hi
    let loc := d.d.loc (d.stepRow true x)
    let (pos, n) := d.placeIn true x.plane
    if r.kind = .fill then
      s.onGot h q r (s.groupOut r v pos n loc (fillRow d x r.b) a b false (if d.words then .fill else .copy)) fun s leaf =>
        (if d.words then s.emptyWords loc leaf a b else s).rowWritten h q r.id
    else
      let src := ((r.starts d false).getD x.slice (0, 0)).2
      s.onGot h q r (s.copyRow v d x src) fun s (row, poison) =>
        if r.kind = .remote then
          s.updRequest h q r.id fun r =>
            { r with rowsDone := r.rowsDone + 1, grant := none, sent := r.sent ++ [s.now] }
        else s.onGot h q r (s.groupOut r v pos n loc row a b poison .copy) fun s _ => s.rowWritten h q r.id

/-- The element-major row that row `k` of a transposition writes: slice, its start, row of the side. -/
def Desc.emStep (d : Desc) : List (Nat × Nat) → Nat → Option (Nat × Nat × Nat)
  | [], _ => none
  | (i, a) :: r, k =>
    let (lo, hi) := d.span true a
    let first := lo * d.elemBytes / 128
    let n := (hi * d.elemBytes - 1) / 128 - first + 1
    if k < n then some (i, a, first + k) else d.emStep r (k - n)

/-- The next row of a transposition (19:R286). -/
def State.transposeRow (s : State) (h q : Nat) (r : Request) (d : Desc) : State :=
  let v := r.via h
  if d.dir then
    match d.stepAt true (d.planes true 0) (r.starts d true) r.rowsDone with
    | none => s
    | some x =>
      let va := max x.start (1024 * x.group)
      let vb := min (x.start + d.elems) (1024 * (x.group + 1))
      let (lo, hi) := d.span true x.start
      let (a, b) := lanesIn x.group lo hi
      let (pos, n) := d.placeIn true x.plane
      let e := d.start false x.slice + (va - x.start)
      let got : Got (Nat × Bool) := if vb ≤ va then .ok s (0, false) else s.emBits v d x.plane e (vb - va)
      s.onGot h q r got fun s (m, p) =>
        s.onGot h q r
          (s.groupOut r v pos n (d.d.loc (d.stepRow true x)) (BitVec.ofNat 1024 (m * 2 ^ (va - 1024 * x.group))) a b p .copy)
          fun s _ => s.rowWritten h q r.id
  else
    match d.emStep (r.starts d true) r.rowsDone with
    | none => s
    | some (i, a, k) =>
      s.onGot h q r (s.emRow v d (d.start false i) a k) fun s (x, lo, hi, p) =>
        s.onGot h q r (s.rowOut v (d.d.loc k) (BitVec.ofNat 1024 x) lo hi p .copy) fun s _ => s.rowWritten h q r.id

/-- The index that the request must read next: every one of a SCATTER before its first row, that of the slice reached
by a GATHER (19:R285, R286). -/
def Request.needsIndex (r : Request) (d : Desc) : Option Nat :=
  match r.kind with
  | .scatter => if r.offs.length < d.slices then some r.offs.length else none
  | .gather =>
    match d.stepAt true (d.planes true 0) (r.starts d true) r.rowsDone with
    | some x => if (tget r.offs x.slice).isNone then some x.slice else none
    | none => none
  | _ => none

/-- The slice that a SCATTER reaches with an index outside the range (19:R285). -/
def Request.badIndex (r : Request) (d : Desc) : Option Nat :=
  match r.kind with
  | .scatter =>
    match d.stepAt true (d.planes true 0) (r.starts d true) r.rowsDone with
    | some x => if d.inRange true (tgetD r.offs 0 x.slice) then none else some x.slice
    | none => none
  | _ => none

/-- An index is read; that of a GATHER is checked at once, those of a SCATTER for overlap (19:R285). -/
def State.readIndex (s : State) (h q : Nat) (r : Request) (d : Desc) (i : Nat) : State :=
  s.onGot h q r (s.indexIn (r.via h) d i) fun s x =>
    if r.kind = .gather && !d.inRange false x then s.failRequest h q r Cause.desc r.slot i
    else
      let offs := tput r.offs i x
      if r.kind = .scatter && offs.length = d.slices && d.overlap ((upTo d.slices).map fun j => tgetD offs 0 j) then
        s.failRequest h q r Cause.descOverlap r.slot i
      else s.updRequest h q r.id fun r => { r with offs := offs, grant := none }

/-! ## Compressed streams (19:R287; 21:R322 to R325) -/

/-- CRC-32C of bytes (21:R323). -/
def crc32c (l : List Nat) : Nat :=
  let step (c : Nat) (b : Nat) : Nat :=
    (upTo 8).foldl (fun c _ => if c % 2 = 1 then (c / 2) ^^^ 0x82F63B78 else c / 2) (c ^^^ b)
  l.foldl step 0xFFFFFFFF ^^^ 0xFFFFFFFF

/-- The bytes that a copy adds, one after another. -/
def copyBack (d : Nat) : Nat → List Nat → List Nat
  | 0, out => out
  | n + 1, out => copyBack d n (out ++ [out.getD (out.length - d) 0])

/-- The operations of a PACKED body (21:R323); absent where the chunk is bad. -/
def unpack : Nat → List Nat → List Nat → Option (List Nat)
  | 0, [], out => some out
  | 0, _ :: _, _ => none
  | _ + 1, [], out => some out
  | k + 1, c :: r, out =>
    if 4096 < out.length then none
    else
      let n := c % 64
      match c / 64 with
      | 0 => if r.length < n + 1 then none else unpack k (r.drop (n + 1)) (out ++ r.take (n + 1))
      | 1 => unpack k r (out ++ List.replicate (n + 1) 0)
      | 2 =>
        match r with
        | a :: b :: r =>
          let d := a + 256 * b
          if d = 0 ∨ 4096 < d ∨ out.length < d then none else unpack k r (copyBack d (n + 3) out)
        | _ => none
      | _ =>
        match r with
        | e :: r => unpack k r (out ++ List.replicate (n * 256 + e + 1) 0)
        | [] => none

/-- The 4,096 bytes of a chunk from its type, its CRC and its body (21:R325). -/
def expandChunk (type crc : Nat) (body : List Nat) : Option (List Nat) :=
  let out := if type = 0 then some body else unpack body.length body []
  match out with
  | some l => if l.length = 4096 ∧ crc32c l = crc then some l else none
  | none => none

/-- `n` bytes of a source in memory from a byte offset, with the poison of the sectors that hold them (21:R325). -/
def State.streamIn (s : State) (v : Via) (d : Desc) (at_ n : Nat) : Got (List Nat × Bool) :=
  let first := at_ / 32
  let sector (s : State) (k : Nat) : Got (Nat × Bool) :=
    (s.via v (d.s.base + 32 * k) .copy false).bind fun s (pa, _) => .ok (s.readNoted pa v.by_) (s.readPhys pa 32)
  (gather sector s ((upTo ((at_ + n - 1) / 32 - first + 1)).map (first + ·))).bind fun s l =>
    let byte (i : Nat) : Nat := (l.getD (i / 32 - first) (0, false)).1 / 256 ^ (i % 32) % 256
    .ok s ((upTo n).map fun i => byte (at_ + i), l.any (·.2))

/-- What a chunk of a stream gives: FAILED with DESC, or its bytes with poison. -/
def State.chunkIn (s : State) (v : Via) (d : Desc) (j : Nat) : Got (Option (List Nat × Bool)) :=
  (s.indexIn v d 0).bind fun s total =>
    if total ≤ j then .ok s none
    else
      (s.indexIn v d (j + 1)).bind fun s off =>
        if d.s.len < off + 8 then .ok s none
        else
          (s.streamIn v d off 8).bind fun s (hd, p) =>
            let num (l : List Nat) : Nat := l.foldr (fun b a => b + 256 * a) 0
            let x := num hd
            let len := bitsOf x 16 16
            let type := x % 256
            let bad : Bool := decide (len = 0) || decide (4096 < len) || bitsOf x 8 8 ≠ 0 || decide (1 < type) || (type = 0 && len ≠ 4096)
            let zeros := List.replicate 4096 0
            if bad || p then .ok s (some (zeros, true))
            else if d.s.len < off + 8 + len then .ok s none
            else
              (s.streamIn v d (off + 8) len).bind fun s (body, p) =>
                match if p then none else expandChunk type (x / 2 ^ 32) body with
                | some l => .ok s (some (l, false))
                | none => .ok s (some (zeros, true))

/-- The 1,024 bits of a chunk's row go to a destination that may lie across two groups. -/
def State.chunkRow (s : State) (v : Via) (d : Desc) (e : Nat) (x : Row) (poison : Bool) : Got Unit :=
  let g := e / 1024
  let o := e % 1024
  (s.rowOut v (d.d.loc g) (x <<< o) o 1024 poison .copy).bind fun s _ =>
    if o = 0 then .ok s () else (s.rowOut v (d.d.loc (g + 1)) (x >>> (1024 - o)) 0 o poison .copy).bind fun s _ => .ok s ()

/-- The chunks that an engine's reorder buffer holds, and how far a lane runs ahead of the lowest unwritten one
(21:R324). -/
def reorderChunks : Nat := 8

/-- The chunk of a request that a free lane takes next: the lowest not yet taken, by its place in the request. -/
def Request.nextChunk (r : Request) : Nat := (r.chunks.map fun x => x.1 + 1).foldl max (r.rowsDone / 32)

/-- DECODE_CHUNK: a free lane of the engine takes the next chunk of a request and expands it. One that runs ahead waits,
where its bytes cannot be read yet, until it is the lowest (21:R324). -/
def execDecodeChunk (s : State) : Host.Outcome State Fault Refusal :=
  let h := s.choice.hall.toNat
  let q := s.choice.eq.toNat
  .next (match (s.queue h q).find? (·.id = s.choice.k) with
    | none => s
    | some r =>
      let c := r.nextChunk
      let low := r.rowsDone / 32
      if !r.started || r.heldSince.isSome || r.cancelled || r.kind ≠ .decode || decide (r.c.toNat ≤ c)
          || decide (low + reorderChunks ≤ c)
          || decide (reorderChunks ≤ ((s.queue h q).map (·.chunks.length)).foldl (· + ·) 0) then s
      else
        let keep (s : State) (x : Option (List Nat × Bool)) : State :=
          s.updRequest h q r.id fun r => { r with chunks := r.chunks ++ [(c, x)], grant := none }
        match s.chunkIn (r.via h) (descOf r.desc) (r.b.toNat + c) with
        | .ok s x => keep s x
        | g => if c = low then s.onGot h q r g keep else s)

/-- The next row of the lowest chunk, where a lane has expanded it; a chunk beyond the stream ends the request
(19:R287; 21:R324, R325). -/
def State.chunkNext (s : State) (h q : Nat) (r : Request) (d : Desc) : State :=
  let c := r.rowsDone / 32
  let t := r.rowsDone % 32
  match tget r.chunks c with
  | none => s
  | some none => s.failRequest h q r Cause.desc r.slot 0
  | some (some (bytes, poison)) =>
    let x := BitVec.ofNat 1024 (((bytes.drop (128 * t)).take 128).foldr (fun b a => b + 256 * a) 0)
    s.onGot h q r (s.chunkRow (r.via h) d (d.start true 0 + 1024 * r.rowsDone) x poison) fun s _ =>
      let s := if poison && t = 0 then
          s.chronoAt r.cell 0x09 (r.b.toNat + c + r.slot * 2 ^ 32) r.node.ver r.node.node r.node.iter.toNat r.node.ctx.toNat
        else s
      (s.rowWritten h q r.id).updRequest h q r.id fun r =>
        if t = 31 then { r with chunks := r.chunks.filter fun x => x.1 ≠ c } else r

/-! ## The rotation (21:R307) -/

/-- One row, or one index, of a started request that nothing holds. -/
def State.engineRow (s : State) (h q id : Nat) : State :=
  match (s.queue h q).find? (·.id = id) with
  | none => s
  | some r =>
    let d := descOf r.desc
    if !r.started || r.heldSince.isSome || r.cancelled || r.kind = .sig then s
    else if r.kind = .decode then (if r.total d ≤ r.rowsDone then s else s.chunkNext h q r d)
    else
      match r.needsIndex d with
      | some i => s.readIndex h q r d i
      | none =>
        match r.badIndex d with
        | some i => s.failRequest h q r Cause.desc r.slot i
        | none => if r.kind = .transpose then s.transposeRow h q r d else s.affineRow h q r d

/-- How far a request is. -/
def State.progress (s : State) (h q id : Nat) : Option (Nat × Nat) :=
  ((s.queue h q).find? (·.id = id)).map fun r => (r.rowsDone, r.offs.length)

/-- A request takes the turn if it can go on in it; the flag says whether one has. -/
def State.serveRow (s : State) (h q id : Nat) : State × Bool :=
  let s' := s.engineRow h q id
  if s'.progress h q id = s.progress h q id then (s', false)
  else (s'.updHall h fun x => { x with served := tput x.served q id }, true)

/-- An engine's turn: of its started requests, in rotation, the next that can go on writes one row or reads one index; one
that waits gives its turn to the next. -/
def State.engineTurn (s : State) (h q : Nat) : State :=
  let ids := ((s.queue h q).filter (·.started)).map (·.id)
  let last := tgetD (s.hall h).served 0 q
  ((ids.filter (last < ·) ++ ids.filter (· ≤ last)).foldl
    (fun (x : State × Bool) id => if x.2 then x else x.1.serveRow h q id) (s, false)).1

/-! ## Completion (19:R280, R282, R291; 25:R366, R367; 26:R373) -/

/-- A row of the request is on its way to the host (07:R139). -/
def State.rowsPending (s : State) (h id : Nat) : Bool := s.hostStores.any fun x => x.request = some (h, id)

/-- ENGINE_REQUEST_COMPLETE: request `k` ends cancelled, or with all its rows, once they are visible; one to a peer when the
peer has acknowledged what it sent, or with the cause of the peer's refusal and the rows that it has performed. -/
def execEngineRequestComplete (s : State) : Host.Outcome State Fault Refusal :=
  let h := s.choice.hall.toNat
  let q := s.choice.eq.toNat
  .next (match (s.queue h q).find? (·.id = s.choice.k) with
    | none => s
    | some r =>
      let d := descOf r.desc
      let rows := min r.rowsDone s.choice.offset
      if s.rowsPending h r.id then s
      else if r.cancelled then
        if r.sent.isEmpty || s.choice.ok then s.endRequest h q r recCancelled r.cancelCause
        else s.endRequest h q { r with rowsDone := rows } recCancelled r.cancelCause
      else if !r.started || r.heldSince.isSome then s
      else if r.kind = .remote || r.kind = .sig then
        if r.sent.isEmpty then s
        else if s.choice.ok then (if r.total d ≤ r.rowsDone then s.endRequest h q r recDone 0 else s)
        else
          let cause := if s.choice.amount = 0 then Cause.protection else s.choice.amount.toNat % 256
          s.failRequest h q { r with rowsDone := rows } cause s.choice.addr.toNat r.word.toNat
      else if r.total d ≤ r.rowsDone then s.endRequest h q r recDone 0
      else s)

/-! ## The meridian queue (05:R89; 19:R293 to R296) -/

/-- How many entries of a context have a smaller key, or an equal one pushed earlier. -/
def mqRank (l : List MqEntry) (i : Nat) (e : MqEntry) : Nat :=
  ((upTo l.length).filter fun j =>
    match l[j]? with
    | some f => f.ctx = e.ctx && (decide (f.key < e.key) || (f.key = e.key && decide (j < i)))
    | none => false).length

/-- The window admits an entry: its key is no larger than the W-th smallest; a window of 1 gives the first of the
smallest. -/
def mqAdmits (l : List MqEntry) (w i : Nat) (e : MqEntry) : Bool :=
  if w ≤ 1 then mqRank l i e = 0
  else decide ((l.filter fun f => f.ctx = e.ctx && decide (f.key < e.key)).length < w)

/-- Pushes that wait move in while there is space (19:R306). -/
def State.settlePushes (s : State) (h : Nat) : Nat → State
  | 0 => s
  | k + 1 =>
    match (s.hall h).mqPush with
    | [] => s
    | (e, m) :: r =>
      if mqCapacity ≤ (s.hall h).mq.length then s
      else
        let s := s.updHall h fun x => { x with mq := x.mq ++ [e], mqPush := r }
        (match m with | some m => s.reply m 0 m.poison | none => s).settlePushes h k

/-- MQPOP_SERVE: the first waiting pop of a context takes entry `e`. A reply by message carries the poison of the entry and
of the message (19:R306); a token waits for an agent that changes firmware (25:R371) and goes through the placement table, to the
vestibule where it must (05:R85, R396; 23:R341). -/
def execMqpopServe (s : State) : Host.Outcome State Fault Refusal :=
  let h := s.choice.hall.toNat
  let x := s.hall h
  .next (match x.mqPops[s.choice.k]?, x.mq[s.choice.e]? with
    | some p, some e =>
      let first := !((x.mqPops.take s.choice.k).any fun y => y.ctx = p.ctx)
      if e.ctx ≠ p.ctx || !first || x.switching || !mqAdmits x.mq (s.ctx p.ctx).window s.choice.e e then s.settlePushes h x.mqPush.length
      else
        let taken := s.updHall h fun x => { x with mq := ldel x.mq s.choice.e, mqPops := ldel x.mqPops s.choice.k }
        match p.reply with
        | some m => (taken.reply m e.value (e.poison || m.poison)).settlePushes h x.mqPush.length
        | none =>
          match s.cfg p.ctx p.cfg with
          | none => s
          | some c =>
            let t : Token := { ctx := p.ctx, iter := p.iter, poison := e.poison, payload := e.value, scope := .hall }
            let direct := match s.resolve h p.ctx p.cfg p.gid with
              | some y =>
                if c.vest.isEmpty && decide (0 < tgetD c.credits 16 (p.gid * 4 + p.port)) then
                  some (taken.deliverExt (agentCell h) p.ctx p.cfg p.gid p.port y.cell t)
                else none
              | none => none
            match direct with
            | some s => s.settlePushes h x.mqPush.length
            | none =>
              if c.vestCap ≤ c.vest.length then s
              else (taken.toVest p.ctx p.cfg p.gid p.port t).settlePushes h x.mqPush.length
    | _, _ => s.settlePushes h x.mqPush.length)

end Sys2Proof.Machine
end

