-- ==== Sys2Proof/Machine/Halt.lean ====
section
/-! DEFINITION. The drain of a stop: forward edges, parked tasks, and how a node halts (23:R348, R349). -/

namespace Sys2Proof.Machine

/-! ## The drained set and its forward edges (23:R348, R349) -/

/-- A configuration takes part in a drain. -/
def CfgRt.draining (c : CfgRt) : Bool := c.state = .draining || c.state = .scanning

/-- The configurations of a context by index. -/
def State.ctxCfgs (s : State) (ctx : BitVec 10) : List (Nat × CfgRt) :=
  s.cfgs.filterMap fun x => if x.1 / 65536 = ctx.toNat then some (x.1 % 65536, x.2) else none

/-- The configurations that drain together: one for a swap-out, those of the context for a stop. -/
def State.drainedSet (s : State) (ctx : BitVec 10) (i : Nat) : List (Nat × CfgRt) :=
  let swap : Bool := match s.cfg ctx i with | some c => c.bySwap | none => false
  (s.ctxCfgs ctx).filter fun x => x.2.draining && (if swap then x.1 = i else !x.2.bySwap)

/-- The stage of a node of a configuration. -/
def CfgRt.stage (c : CfgRt) (gid : Nat) : Nat :=
  match c.spec.nodes.find? (·.gid = gid) with | some n => n.stage.toNat | none => 0

/-- The forward edges inside a drained set: source configuration, edge, destination configuration. -/
def forwardEdges (l : List (Nat × CfgRt)) : List (Nat × EdgeSpec × Nat) :=
  l.flatMap fun (j, c) => c.spec.edges.filterMap fun e =>
    let k := e.cfg.getD j
    match l.find? (·.1 = k) with
    | some (_, d) => if c.stage e.source < d.stage e.dest then some (j, e, k) else none
    | none => none

/-- Input ports of a node that forward edges feed, one entry for each edge, and output ports that a forward edge leaves. -/
def forwardIn (l : List (Nat × CfgRt)) (i gid : Nat) : List Nat :=
  (forwardEdges l).filterMap fun (_, e, k) => if k = i ∧ e.dest = gid then some e.inPort else none

def forwardOut (l : List (Nat × CfgRt)) (i gid : Nat) : List Nat :=
  ((forwardEdges l).filterMap fun (j, e, _) => if j = i ∧ e.source = gid then some e.outPort else none).dedup

/-! ## Parked tasks (23:R349) -/

/-- The scalars that END's generator reads are there (11:R166). -/
def Task.passReady (t : Task) (now : Nat) : Bool :=
  [1, 2].all fun r => !t.pending.contains r && decide (tgetD t.ready 0 r ≤ now)

/-- The port that a task's send waits on. -/
def State.stalledPort (s : State) (cell : Nat) (t : Task) : Option Nat :=
  let s1 : State := { s with focus := BitVec.ofNat 18 cell }
  let owed : List Nat := (s1.endSends t).map fun x => x.1
  let ports : List Nat :=
    if t.abandoned then owed
    else
      match s.instrAt cell t with
      | some (.send _ op _ _ _ _) | some (.sendn _ op) | some (.eos _ op) | some (.loopbIssue _ _ op _ _ _ _) => [op.toNat]
      | some (.steer _ hi _ _ _ _) => [2 * hi.toNat, 2 * hi.toNat + 1]
      | some (.dup _ ports _ _ _ _) => maskPorts ports
      | some (.xlat _ port _ _) => [port.toNat]
      | some .endFiring => owed
      | _ => []
  ports.find? fun p => !t.done.contains p

/-- The slot that a request instruction names. -/
def Instr.slotSpec : Instr → Option Spec
  | .teCopy _ _ sa _ | .teCopyp _ _ sa _ _ | .teGather _ _ sa _ | .teScatter _ _ sa _ | .teFill _ _ sa _ _
  | .teTranspose _ _ sa _ | .teDecode _ _ sa _ _ _ | .teRemote _ _ sa _ _ | .teSig _ _ sa _ _ _ => some sa
  | .teDesc _ _ _ sb => some sb
  | _ => none

/-- An END that asks for a pass finds its slot BUSY with an engine request (21:R309). -/
def State.endBusy (s : State) (cell : Nat) (t : Task) : Bool :=
  let x := (s.cell cell).dslot ((t.reg 1).toNat % 16)
  (match s.node cell t.ver t.node with | some n => n.role = .loader || n.role = .storer | none => false)
    && t.passReady s.now && (t.reg 1).getLsbD 4 && x.state = .busy && x.req.isSome

/-- A task is parked, for a node whose forward output ports are given. -/
def State.parkedTask (s : State) (cell : Nat) (t : Task) (forward : List Nat) : Bool :=
  match t.wait with
  | .waitt _ | .waitf _ _ _ _ _ _ _ | .bar _ _ _ | .held _ | .retry (some 3) _ => true
  | .retry stall _ =>
    let i := if t.abandoned then none else s.instrAt cell t
    let busy : Bool :=
      match i.bind Instr.slotSpec with
      | some x => ((s.cell cell).dslot ((t.val x).toNat % 16)).state = .busy
      | none => false
    let window : Bool :=
      match i, s.node cell t.ver t.node with
      | some (.loopbIssue _ _ _ _ _ _ _), some n => decide (n.window ≤ (n.loopNext + 4096 - n.loopBase) % 4096)
      | _, _ => false
    let ending : Bool := decide (i = some .endFiring) && s.endBusy cell t
    let pushes : Bool := match i with | some (.mqpush _ _ _) | some (.spawn _ _ _ _ _) => true | _ => false
    busy || ending || window || (stall = some 1 && (pushes ||
      match s.stalledPort cell t with
      | some p => !forward.contains p
      | none => false))
  | _ => false

/-! ## Halting (23:R349) -/

/-- Cells of a configuration's placed nodes. -/
def CfgRt.cells (c : CfgRt) : List Nat := (c.places.map (·.cell)).dedup

/-- Every node of a configuration has halted or has been reached by scan-out. -/
def State.allHalted (s : State) (c : CfgRt) : Bool :=
  c.places.all fun p =>
    c.scanCells.contains p.cell || (match s.node p.cell p.ver p.node with | some n => n.halted | none => true)

/-- When the last node of a drained set has halted, its configurations go on to SAVING (23:R339, R350). -/
def State.settleDrain (s : State) (ctx : BitVec 10) (i : Nat) : State :=
  let l := s.drainedSet ctx i
  if l.all fun x => s.allHalted x.2 then
    each l s fun s x =>
      s.updCfg ctx x.1 fun c =>
        if c.state = .draining then { c with state := .saving, savingCells := c.cells } else c
  else s

/-- STOP goes out on the forward ports that have not had it. -/
def State.sendStops (s : State) (cell : Nat) (ver : Bool) (node : Nat) (ctx : BitVec 10) : List Nat → State × Bool
  | [] => (s, true)
  | p :: r =>
    let sent := match s.node cell ver node with | some n => n.stopSent.contains p | none => true
    let mark (s : State) : State := s.updNode cell ver node fun n => { n with stopSent := p :: n.stopSent }
    if sent then s.sendStops cell ver node ctx r
    else
      match s.trySend ⟨cell, ver, node, p⟩ { kind := 3, ver := ver, ctx := ctx, aux := 1 } with
      | .sent s => (mark s).sendStops cell ver node ctx r
      | .stall s _ => (s, false)
      | .scope _ => (mark s).sendStops cell ver node ctx r

/-- A node that has consumed its STOPs halts once its tasks have ended or are parked, and its passes are over. -/
def State.tryHalt (s : State) (cell : Nat) (ver : Bool) (node : Nat) : State :=
  match (s.version cell ver).owner, s.node cell ver node with
  | some (ctx, i), some n =>
    let l := s.drainedSet ctx i
    let forward := forwardOut l i n.gid
    let c := s.cell cell
    let mine (v : Bool) (k : Nat) : Bool := v = ver && k = node
    let idle := c.tasks.all (fun x => !mine x.2.ver x.2.node || s.parkedTask cell x.2 forward)
      && !c.readyFirings.any (fun f => mine f.ver f.node) && n.passes.isEmpty
    if !n.stopAgent || n.halted || !idle || !l.any (·.1 = i) then s
    else
      match s.sendStops cell ver node ctx forward with
      | (s, false) => s
      | (s, true) => (s.updNode cell ver node fun n => { n with halted := true }).settleDrain ctx i
  | _, _ => s

/-- STOPs consumed on a port: as many as forward edges feed it. -/
def Node.stopsIn (n : Node) (ports : List Nat) : Bool := ports.all fun p => decide (ports.count p ≤ n.stopPorts.count p)

/-- CTRL_STOP: a STOP at the head of a channel is consumed; the last one that a forward edge brings stops the node. -/
def execCtrlStop (s : State) : Host.Outcome State Fault Refusal :=
  .next (match s.ctrlHead 1 with
    | none => s
    | some (b, _) =>
      let x := s.choice
      let cell := x.cell.toNat
      let s := s.popHead.updNode cell x.ver b.node fun n => { n with stopPorts := b.port :: n.stopPorts }
      match (s.version cell x.ver).owner, s.node cell x.ver b.node with
      | some (ctx, i), some n =>
        if n.stopsIn (forwardIn (s.drainedSet ctx i) i n.gid) then
          (s.updNode cell x.ver b.node fun n => { n with stopAgent := true }).tryHalt cell x.ver b.node
        else s
      | _, _ => s)

/-- AGENT_STOP_DELIVERY: a node that no forward edge feeds receives STOP once the lower stages of the drained set have
halted. -/
def execAgentStopDelivery (s : State) : Host.Outcome State Fault Refusal :=
  let x := s.choice
  let cell := x.cell.toNat
  .next (match (s.version cell x.ver).owner, s.node cell x.ver x.node with
    | some (ctx, i), some n =>
      let l := s.drainedSet ctx i
      let stage := n.stage.toNat
      let below := l.all fun (_, c) => c.places.all fun p =>
        decide (stage ≤ c.stage p.gid) || (match s.node p.cell p.ver p.node with | some y => y.halted | none => true)
      if l.any (·.1 = i) && (forwardIn l i n.gid).isEmpty && below then
        (s.updNode cell x.ver x.node fun n => { n with stopAgent := true }).tryHalt cell x.ver x.node
      else s
    | _, _ => s)

end Sys2Proof.Machine
end

