-- ==== Sys2Proof/Machine/Passes.lean ====
section
/-! DEFINITION. Loader and storer passes: how END begins one, their rows, their end (21:R309 to R312, R318, R326). -/

namespace Sys2Proof.Machine

/-! ## END of a loader or storer task (21:R309) -/

/-- Passes that a node holds at most. -/
def passLimit : Nat := 4

/-- What END finds in s1 and s2. -/
inductive EndPass where
  | none
  | wait (stall : Option Nat)
  | bad (slot : Nat)
  | run (p : Pass)

/-- The pass that END asks for. A slot that is BUSY with an engine request keeps the END waiting. -/
def State.endPass (s : State) (t : Task) : EndPass :=
  match s.node s.focus.toNat t.ver t.node with
  | none => .none
  | some n =>
    if n.role ≠ .loader && n.role ≠ .storer then .none
    else if !t.passReady s.now then .wait none
    else
      let a := (t.reg 1).toNat
      let mask := (t.reg 2).toNat % 2 ^ 32
      let i := a % 16
      let x := s.cell0.dslot i
      let d := descOf x.desc
      let ind := bitsOf a 5 1 = 1
      let suits : Bool :=
        if n.role = .loader then (d.s.kind = 1 || d.s.kind = 2) && d.d.kind = 0
        else d.s.kind = 0 && (d.d.kind = 1 || d.d.kind = 2)
      if bitsOf a 4 1 = 0 then .none
      else if x.state = .empty || x.owner ≠ t.ctx || !suits || decide (64 ≤ a) || (ind && d.index = 0) || d.dmask ≠ 0
          || decide (2 ^ d.p ≤ mask) || decide (2 ^ 32 ≤ (t.reg 2).toNat) then .bad i
      else if passLimit ≤ n.passes.length || (x.state = .busy && x.req.isSome) then .wait (some 1)
      else
        let tok := t.inTok 1
        .run
          { slot := i, mask := mask, ind := ind, ctx := t.ctx, iter := t.sendIter, ver := t.ver, taint := t.taint
            paddr := if n.role = .storer && tok.kind = 5 then
                some (if tok.pred = .null then Option.none else some (tok.payload.toNat % 2 ^ 48))
              else Option.none
            begun := s.now, desc := x.desc }

/-- The pass joins its node, and its slot is BUSY. -/
def State.addPass (s : State) (t : Task) (p : Pass) : State :=
  (s.updNode s.focus.toNat t.ver t.node fun n => { n with passes := n.passes ++ [p] }).updCell0 fun c =>
    c.setSlot p.slot { c.dslot p.slot with state := .busy }

/-- END: the null tokens that are owed, the pass of a loader or storer, then the slot is free (11:R180, 21:R309). -/
def execEndFiring (s : State) : Host.Outcome State Fault Refusal :=
  onTask s fun t =>
    let finish (f : State → State) : State :=
      s.sendThen t (s.endSends t) (ends := true) fun s t => ((f s).retired t).freeSlot.tryHalt s.focus.toNat t.ver t.node
    match s.endPass t with
    | .none => finish fun s => s
    | .wait k => s.retry t k
    | .bad i => finish fun s => s.nodeFault { taskNode s.focus.toNat t with iter := t.sendIter } Cause.desc i endWord
    | .run p => finish fun s => s.addPass t p

/-! ## The running pass (21:R310 to R312) -/

/-- The running pass of a node is changed. -/
def State.updPass (s : State) (x : Choice) (f : Pass → Pass) : State :=
  s.updNode x.cell.toNat x.ver x.node fun n =>
    { n with passes := match n.passes with | p :: r => f p :: r | [] => [] }

/-- The pass ends FAILED with a cause against its node. -/
def State.passFails (s : State) (x : Choice) (p : Pass) (cause addr info : Nat) : State :=
  (s.updPass x fun p => { p with failed := some cause }).nodeFault (nodeRef x.cell.toNat x.ver x.node p.ctx p.iter) cause addr info

/-- What follows a try of a pass; TRANSLATION holds the address port (21:R318). -/
def State.onPass {α : Type} (s : State) (x : Choice) (p : Pass) (g : Got α) (k : State → α → State) : State :=
  let cell := x.cell.toNat
  match g with
  | .ok s a => k s a
  | .busy => s
  | .miss va w => s.missAt (hallOf cell) (s.ctx p.ctx).root (BitVec.ofNat 64 va) w (.pass cell x.ver x.node)
  | .bad cause va =>
    if cause = Cause.translation then
      (s.holdPort cell x.ver x.node).passFault (nodeRef cell x.ver x.node p.ctx p.iter) p va va
    else s.passFails x p cause va endWord

/-- The step of a pass that comes next. -/
def Pass.step (p : Pass) (dst : Bool) : Option RowStep :=
  let d := descOf p.desc
  d.stepAt dst (d.planes dst p.mask) (p.starts d dst) p.rowsDone

/-- The index that a pass must read next: a storer reads all of them first, a loader that of the slice it reaches
(21:R312). -/
def Pass.needsIndex (p : Pass) (dst : Bool) : Option Nat :=
  let d := descOf p.desc
  if !p.ind then none
  else if dst then (if p.offs.length < d.slices then some p.offs.length else none)
  else
    match p.step false with
    | some y => if (tget p.offs y.slice).isNone then some y.slice else none
    | none => none

/-- The slice that a storer pass reaches with an index outside the range (19:R285). -/
def Pass.badIndex (p : Pass) (y : RowStep) : Bool := p.ind && !(descOf p.desc).inRange true (tgetD p.offs 0 y.slice)

/-- An index of a pass is read; a loader's is checked at once, those of a storer for overlap (19:R285). -/
def State.passIndex (s : State) (x : Choice) (p : Pass) (dst : Bool) (v : Via) (i : Nat) : State :=
  let d := descOf p.desc
  s.onPass x p (s.indexIn v d i) fun s e =>
    if !dst && !d.inRange false e then s.passFails x p Cause.desc p.slot i
    else
      let offs := tput p.offs i e
      if dst && offs.length = d.slices && d.overlap ((upTo d.slices).map fun j => tgetD offs 0 j) then
        s.passFails x p Cause.descOverlap p.slot i
      else s.updPass x fun p => { p with offs := offs }

/-- A row is in progress: a cancelled pass finishes it (19:R291). -/
def Pass.midRow (p : Pass) : Bool := p.buf.isSome || !p.got.isEmpty

/-- The running pass of the node of a role that the turn names, where nothing holds it: neither a fault on its own port
nor one on the other node of its interface (21:R313, R318). -/
def State.runningPass (s : State) (x : Choice) (role : Role) : Option Pass :=
  match s.node x.cell.toNat x.ver x.node with
  | none => none
  | some n =>
    if n.role ≠ role || s.interfaceHeld x.cell.toNat x.ver x.node then none
    else match n.passes with
      | p :: _ => if p.failed.isSome || (p.cancelled.isSome && !p.midRow) then none else some p
      | [] => none

/-- The address that a record of a row names. -/
def Loc.addr : Loc → Nat
  | .bank _ r => 128 * r
  | .virt va => va

/-- Segments of the row in hand go out on out0, as far as the port takes them; where it is not in use the pass fails with
PROTECTION (05:R70; 21:R310). -/
def State.sendSegments (s : State) (x : Choice) (p : Pass) (y : RowStep) (row : Row) (poison : Bool) : Nat → State
  | 0 => s.updPass x fun p => { p with buf := none, segs := 0, rowsDone := p.rowsDone + 1 }
  | k + 1 =>
    let seg := 15 - k
    let t : Token :=
      { kind := 1, poison := poison, ver := p.ver, ctx := p.ctx, iter := p.iter, aux := BitVec.ofNat 9 (y.plane * 16 + seg)
        payload := rowWord row seg }
    if !((s.node x.cell.toNat x.ver x.node).any fun n => ((n.outputs[0]?).join).isSome) then
      s.passFails x p Cause.protection ((descOf p.desc).s.loc ((descOf p.desc).stepRow false y)).addr endWord
    else
    match s.trySend ⟨x.cell.toNat, x.ver, x.node, 0⟩ t with
    | .sent s => (s.updPass x fun p => { p with segs := seg + 1 }).sendSegments x p y row poison k
    | .stall s _ => s
    | .scope dst => s.passFails x p Cause.scope p.slot dst

/-- LOADER_PASS: the next row of the running pass is read and sent as PLANE tokens. -/
def execLoaderPass (s : State) : Host.Outcome State Fault Refusal :=
  let x := s.choice
  .next (match s.runningPass x .loader with
    | none => s
    | some p =>
      let d := descOf p.desc
      let v : Via := { edge := some x.cell.toNat, hall := hallOf x.cell.toNat, ctx := p.ctx, by_ := some (nodeRef x.cell.toNat x.ver x.node p.ctx p.iter) }
      match p.needsIndex false with
      | some i => s.passIndex x p false v i
      | none =>
        match p.step false with
        | none => s
        | some y =>
          match p.buf with
          | some (row, poison) => s.sendSegments x p y row poison (16 - p.segs)
          | none =>
            s.onPass x p (s.rowIn v (d.s.loc (d.stepRow false y))) fun s (row, poison) =>
              let (lo, hi) := d.span false y.start
              let (a, b) := lanesIn y.group lo hi
              let row := row &&& laneRun a b
              let poison := poison || p.taint
              (s.updPass x fun p => { p with buf := some (row, poison), segs := 0 }).sendSegments x p y row poison 16)

/-- The tokens at the heads of in0 that a row still lacks are taken in the order of their arrival; their credits return
(21:R311). -/
def State.takeStream (s : State) (x : Choice) : Nat → State
  | 0 => s
  | k + 1 =>
    match ((s.cell x.cell.toNat).portBindings x.ver x.node 0).find? (fun y => y.2.head?.isSome), s.node x.cell.toNat x.ver x.node with
    | some (r, b), some n =>
      match n.passes, b.head? with
      | p :: _, some t =>
        if 16 ≤ p.got.length then s
        else
          ((s.popFifo x.cell.toNat x.ver r).updPass x fun p =>
            { p with got := p.got ++ [(t.payload, t.poison, decide (t.pred = .null))] }).takeStream x k
      | _, _ => s
    | _, _ => s

/-- Where a row of a storer pass goes: a physical address under the PADDR token, or its place on the side
(21:R311). -/
def Pass.physRow (p : Pass) (l : Loc) (base : Nat) : Option Nat :=
  match p.paddr, l with
  | some (some pa), .virt va => if (pa + (va - base)) / 65536 = pa / 65536 then some (pa + (va - base)) else none
  | _, _ => none

/-- The row of a storer pass is complete: it is written, left out, or suppressed (21:R311, R326). -/
def State.storeRow (s : State) (x : Choice) (p : Pass) (v : Via) (y : RowStep) : State :=
  let d := descOf p.desc
  let loc := d.d.loc (d.stepRow true y)
  let phys := p.physRow loc d.d.base
  let done (s : State) : State := s.updPass x fun p => { p with got := [], rowsDone := p.rowsDone + 1 }
  if p.got.any (·.2.2) || p.paddr = some none then done s
  else if p.got.any (·.2.1) then
    done (s.updPass x fun p =>
      { p with
        suppressed := p.suppressed + 1
        suppressedAt := if p.suppressed = 0 then s.now else p.suppressedAt
        suppressedAddr := if p.suppressed = 0 then phys.getD loc.addr else p.suppressedAddr
        suppressedPhys := if p.suppressed = 0 then phys.isSome else p.suppressedPhys })
  else
    let row : Row := (p.got.foldr (fun t (r : Row) => (r <<< 64) ||| t.1.zeroExtend 1024) 0)
    let (lo, hi) := d.span true y.start
    let (a, b) := lanesIn y.group lo hi
    let (va, vb) := lanesIn y.group y.start (y.start + d.elems)
    let row := row &&& (if va < vb then laneRun va vb else 0)
    match phys with
    | some pa => done (s.patchRow pa row a b false v.by_)
    | none => s.onPass x p (s.rowOut v loc row a b false .copy) fun s _ => done s

/-- STORER_PASS: tokens of the stream are taken, and a complete row is dealt with. -/
def execStorerPass (s : State) : Host.Outcome State Fault Refusal :=
  let x := s.choice
  .next (match s.runningPass x .storer with
    | none => s
    | some p =>
      let v : Via := { edge := some x.cell.toNat, hall := hallOf x.cell.toNat, ctx := p.ctx, by_ := some (nodeRef x.cell.toNat x.ver x.node p.ctx p.iter) }
      match p.needsIndex true with
      | some i => s.passIndex x p true v i
      | none =>
        match p.step true with
        | none => s
        | some y =>
          if p.badIndex y then s.passFails x p Cause.desc p.slot y.slice
          else
            let s := s.takeStream x 16
            match (s.node x.cell.toNat x.ver x.node).bind fun n => n.passes.head? with
            | some p => if p.got.length = 16 then s.storeRow x p v y else s
            | none => s)

/-! ## The end of a pass (21:R309, R326; 19:R280) -/

/-- The record of the rows that a pass has suppressed (21:R326). -/
def State.sinkRecord (s : State) (ref : NodeRef) (p : Pass) : State :=
  if p.suppressed = 0 then s
  else s.poisonSink { ref with ctx := p.ctx, iter := p.iter } p.suppressedAddr p.suppressed 0 p.suppressedPhys (some p.suppressedAt)

/-- Status and cause that a pass ends with (19:R280). -/
def Pass.outcome (p : Pass) : Nat × Nat :=
  match p.failed, p.cancelled with
  | some c, _ => (recFailed, c)
  | none, some c => (recCancelled, c)
  | none, none => (recDone, 0)

/-- Pass `i` leaves its node: the record of its suppressed rows, then its completion record. The slot stays BUSY while
another pass of the cell uses it. -/
def State.endPassOf (s : State) (x : Choice) (i : Nat) (p : Pass) : State :=
  let cell := x.cell.toNat
  let ref : NodeRef := (nodeRef cell x.ver x.node p.ctx p.iter)
  let s := s.sinkRecord ref p
  let s := s.updNode cell x.ver x.node fun n => { n with passes := ldel n.passes i }
  let record := completionRecord p.outcome.1 p.outcome.2 p.rowsDone s.now
  let s := s.writeRecord ref (descOf p.desc).record record (BitVec.ofNat 64 endWord)
  let c := s.cell cell
  let again := (c.v0.nodes ++ c.v1.nodes).any fun n => n.passes.any (·.slot = p.slot)
  let s := s.finishSlot cell p.slot none record
  if again then s.updCell cell fun c => c.setSlot p.slot { c.dslot p.slot with state := .busy }
  else s.wakeCancel cell p.slot p.rowsDone

/-- The running pass has done its rows, has failed, or has been cancelled and has no row in progress. -/
def Pass.over (p : Pass) (role : Role) : Bool :=
  p.failed.isSome || (p.cancelled.isSome && !p.midRow)
    || (let dst := decide (role = .storer); (p.needsIndex dst).isNone && (p.step dst).isNone)

/-- The pass of a node that ends next: the running one when it is over, or one that was cancelled before it ran. -/
def Node.endingPass (n : Node) : Option (Nat × Pass) :=
  match n.passes with
  | [] => none
  | p :: r => if p.over n.role then some (0, p) else (r.findIdx? (·.cancelled.isSome)).bind fun i => (r[i]?).map fun p => (i + 1, p)

/-- PASS_COMPLETE of the node that the turn names, once the host has acknowledged the pass's rows (07:R139); a node that
its last pass has kept from halting halts. -/
def execPassComplete (s : State) : Host.Outcome State Fault Refusal :=
  let x := s.choice
  .next (match (s.node x.cell.toNat x.ver x.node).bind Node.endingPass with
    | none => s
    | some (i, p) =>
      if s.hostStores.any fun y => y.node = some (nodeRef x.cell.toNat x.ver x.node p.ctx p.iter) && y.read.isNone then s
      else (s.endPassOf x i p).tryHalt x.cell.toNat x.ver x.node)

end Sys2Proof.Machine
end

