-- ==== Sys2Proof/Machine/Regions.lean ====
section
/-! DEFINITION. Systolic regions: the start of their operation, its steps, its completion tokens (15:R235 to R237;
16:R242). -/

namespace Sys2Proof.Machine

/-- Rows that a cell holds for the region. -/
def Region.holderRows (r : Region) (p : Pair) (cell : Nat) : List Res :=
  (if cellColOf cell = r.col0 then rowsRes r.abase (r.steps * groupRows p.fmtA p.pa) else [])
    ++ (if cellRowOf cell = r.row0 then rowsRes r.bbase (r.steps * groupRows p.fmtB p.pb) else [])

/-- The operation is set up on one cell: it occupies the matrix array (15:R216). As its steps are those of an MMA (R235), it
is in flight on ACCSAT and, in mode SR, on the lane random states besides (DESIGN CHOICE, log entry 27). -/
def State.startRegion (s : State) (word : Word) (pair : BitVec 32) (t : Token) (cell : Nat) : State :=
  let r := regionOf word.toNat
  let p := pairOf pair
  let draws := drawRes (p.mode = 4)
  s.updCell cell fun c =>
    { c with
      regionOp := some
        { ctx := t.ctx, iter := t.iter, word := word, pair := pair, poison := t.poison, fails := false, steps := 0
          until_ := s.now + 1 + 2 * (cellRowOf cell - r.row0 + (cellColOf cell - r.col0)) }
      flights :=
        ⟨.matrix, regionMark, r.holderRows p cell ++ [.tile r.tile] ++ draws, [.tile r.tile, .accsat] ++ draws⟩ :: c.flights }

/-- REGION_OPERATION_START: after its visit to the last cell a start sweep starts the operation; one that has failed at a
cell owes the completion tokens only, and names the first cell that failed (15:R235, R237). While that token waits for a
credit, the failed start holds the matrix array and REGION.CFG as an operation in flight does (DESIGN CHOICE, log entry 27). -/
def execRegionOperationStart (s : State) : Host.Outcome State Fault Refusal :=
  .next (match s.net[s.choice.n]? with
    | some ⟨_, dst, .regionStart t pair matched failed⟩ =>
      let word := t.payload &&& ~~~(1 : Word)
      let bits := pair.payload.truncate 32
      let cells := (regionOf word.toNat).cells (galleryOf dst)
      if !(s.ctx t.ctx).live then (s.takePacket s.choice.n).lateToken dst (t.aux.getLsbD 4) 0 0 t
      else if cells.any fun c => (s.cell c).regionOp.isSome then s
      else
        let s := s.takePacket s.choice.n
        match failed with
        | none => each cells s fun s c => s.startRegion word bits t c
        | some bad =>
          let s := s.chronoAt bad 0x08 bad (t.aux.getLsbD 4) 0 t.iter.toNat t.ctx.toNat
          each matched s fun s c =>
            let o : RegionOp :=
              { ctx := t.ctx, iter := t.iter, word := word, pair := bits, poison := t.poison, fails := true, steps := 0
                until_ := s.now + 1 }
            s.updCell c fun x => { x with regionOp := some o }
    | _ => s)

/-- An MX instruction of before the start that reads or writes the tile or the holder rows keeps the first step waiting
(16:R242). -/
def Cell.regionWaits (c : Cell) (now : Nat) (l : List Res) : Bool :=
  c.flights.any fun f => f.until_ ≠ regionMark && decide (now < f.until_) && (f.reads ++ f.writes).any l.contains

/-- The operand of a step that a holder reads from its own bank, once its rows are ENGINE's: the rows, and poison. -/
def Cell.ownOperand (c : Cell) (base n : Nat) : Option (List Row × Bool) :=
  if (rowRun base n).all c.engineRow then some ((rowRun base n).map c.row, (rowRun base n).any c.rowPoisoned) else none

/-- The operand of a step that a stream has brought by this cycle. -/
def streamed (now : Nat) : List (Nat × List Row × Bool) → Option (List Row × Bool)
  | (at_, x) :: _ => if at_ ≤ now then some x else none
  | [] => none

/-- An operand that a stream brings, behind those that it has brought. -/
def RegionOp.take (o : RegionOp) (isA : Bool) (x : Nat × List Row × Bool) : RegionOp :=
  if isA then { o with inA := o.inA ++ [x] } else { o with inB := o.inB ++ [x] }

/-- A step's operand goes on to the next cell of its row or column: it is there two cycles later (15:R236). -/
def State.streamTo (s : State) (r : Region) (cell : Nat) (isA : Bool) (x : List Row × Bool) : State :=
  let next := if isA then cell + 1 else cell + 32
  if r.holds next && (if isA then decide (cellColOf cell < 31) else decide (cellRowOf cell < 31)) then
    s.updCell next fun c => { c with regionOp := c.regionOp.map (RegionOp.take · isA (s.now + 2, x)) }
  else s

/-- One step of the operation on a cell: the MMA of R226, without trim, of the operands that its holder's bank or the
streams of its row and column bring. A step that must wait delays those that the cell feeds, for they take its operands
from it (15:R235, R236; 16:R242). The poison of the start sweep poisons the tile like that of a holder's row (DESIGN CHOICE,
log entry 27). -/
def State.regionStep (s : State) (cell : Nat) (o : RegionOp) : State :=
  let r := regionOf o.word.toNat
  let p := pairOf o.pair
  let ra := groupRows p.fmtA p.pa
  let rb := groupRows p.fmtB p.pb
  let c := s.cell cell
  let a := if cellColOf cell = r.col0 then c.ownOperand (r.abase + o.steps * ra) ra else streamed s.now o.inA
  let b := if cellRowOf cell = r.row0 then c.ownOperand (r.bbase + o.steps * rb) rb else streamed s.now o.inB
  match a, b with
  | some a, some b =>
    if o.steps = 0 && c.regionWaits s.now (.tile r.tile :: r.holderRows p cell) then s
    else
      let bank := (a.1.mapIdx fun i x => (i, x)) ++ b.1.mapIdx fun i x => (256 + i, x)
      let m : Mac := { tile := r.tile, ppi := r.pair, pair := { p with trimA := false, trimB := false }, a := .rows 0 0, bb := 256 }
      let fed : Cell := { c with bank := bank }
      let out := fed.macOut m
      let done := fed.accumulate m out (o.poison || a.2 || b.2)
      let s := s.updCell cell fun _ =>
        { done with
          bank := c.bank
          regionOp := some
            { o with steps := o.steps + 1, until_ := s.now + 6 + p.pa * p.pb, inA := o.inA.tail, inB := o.inB.tail } }
      (s.streamTo r cell true a).streamTo r cell false b
  | _, _ => s

/-- The binding at which a completion token enters its port: the external one, or else the first. -/
def Version.tokenBinding (v : Version) (node port : Nat) : Option (Nat × Binding) :=
  let l := v.bindingsOf node port
  (l.find? (·.2.external)).or l.head?

/-- The completion token of a cell; where its port has no credit it waits (15:R237). -/
def State.regionDone (s : State) (cell : Nat) (o : RegionOp) : State :=
  let r := regionOf o.word.toNat
  let c := s.cell cell
  let ver := c.liveVersion r.node
  let v := c.version ver
  let t : Token :=
    { dst := BitVec.ofNat 18 cell, poison := c.tilePoison.contains r.tile, ver := ver, ctx := o.ctx
      iter := o.iter, pred := if o.fails then .false else .true
      payload := if o.fails then 0 else BitVec.ofNat 64 r.steps }
  let ended (s : State) : State :=
    s.updCell cell fun c => { c with regionOp := none, flights := c.flights.filter (·.until_ ≠ regionMark) }
  let used := match v.cfgOf.bind (fun _ => v.nodes[r.node]?) with
    | some n => ((n.inputs[r.port]?).join).isSome
    | none => false
  if !(s.ctx o.ctx).live then (ended s).lateToken cell ver 0 r.node t
  else if v.state = .loading then s
  else if !used then (ended s).logToken cell unboundEntry t
  else
    match v.tokenBinding r.node r.port, v.cfgOf, v.nodes[r.node]? with
    | some (tag, b), some (ctx, i), some n =>
      let key := n.gid * 4 + r.port
      let t := { t with rtag := BitVec.ofNat 8 tag, free := !b.external, scope := .cell }
      if !b.external then
        if b.fifo.length < 16 then (ended s).enterFifo cell ver tag t else s
      else
        match s.cfg ctx i with
        | none => (ended s).enterFifo cell ver tag { t with free := true }
        | some g =>
          if tgetD g.credits 16 key = 0 then s
          else
            ((ended s).updCfg ctx i fun g => { g with credits := tput g.credits key (tgetD g.credits 16 key - 1) }).enterFifo
              cell ver tag t
    | _, _, _ => (ended s).logToken cell unboundEntry t

/-- REGION_COMPLETION: the operation's next event on the cell that the turn names, no sooner than its cycle: a step, or
after the last the completion token. Throttling lets no step begin (27:R393). -/
def execRegionCompletion (s : State) : Host.Outcome State Fault Refusal :=
  let cell := s.choice.cell.toNat
  .next (match (s.cell cell).regionOp with
    | none => s
    | some o =>
      if s.now < o.until_ || s.cp.fatal then s
      else if o.fails || decide ((regionOf o.word.toNat).steps ≤ o.steps) then s.regionDone cell o
      else if s.throttled then s
      else s.regionStep cell o)

end Sys2Proof.Machine
end

