-- ==== Sys2Proof/Machine/Loader.lean ====
section
/-! DEFINITION. The loader: how it reads a JGO object (09:R161, R162; log entry 10), its checks (09:R163, 10:R164,
21:R329), and what it writes into the versions of a placed configuration (05:R57 to R60, R396, R397; 22:R332). -/

namespace Sys2Proof.Machine

/-! ## The object (09:R161, R162) -/

/-- A little-endian number in the bytes of an object. -/
def bytesAt (l : List Byte) (at_ n : Nat) : Nat := ((l.drop at_).take n).foldr (fun b v => b.toNat + 256 * v) 0

/-- A NODE record. -/
structure NodeRecord where
  name : Nat
  handler : Nat
  role : Nat
  stage : Nat
  pmatch : Nat
  inuse : Nat
  ordered : Nat
  outuse : Nat
  k1 : Nat
  scope : Nat
  subgraph : Nat
  low : Nat
deriving DecidableEq, Repr

def nodeRecordOf (x : Nat) : NodeRecord :=
  ⟨bitsOf x 96 32, bitsOf x 87 9, bitsOf x 84 3, bitsOf x 80 4, bitsOf x 78 2, bitsOf x 74 4, bitsOf x 70 4, bitsOf x 66 4, bitsOf x 57 9,
    bitsOf x 54 3, bitsOf x 46 8, bitsOf x 0 46⟩

def roleOf : Nat → Option Role
  | 0 => some .loader
  | 1 => some .compute
  | 2 => some .storer
  | 3 => some .loopb
  | 4 => some .landing
  | 5 => some .reduce
  | _ => none

def matchOf : Nat → PMatch
  | 0 => .any
  | 1 => .tru
  | 2 => .fls
  | _ => .null

def scopeOf : Nat → Option Scope
  | 0 => some .cell
  | 1 => some .gallery
  | 2 => some .hall
  | 3 => some .device
  | 4 => some .system
  | _ => none

/-- A record with a reserved bit or a field out of its range. -/
def NodeRecord.bad (r : NodeRecord) : Bool :=
  r.low ≠ 0 || (roleOf r.role).isNone || (scopeOf r.scope).isNone || decide (256 ≤ r.k1)
    || (upTo 4).any fun p => bitAt r.ordered p && !bitAt r.inuse p

/-- A node as its record gives it, with the words of its handler's CODE record and what the other sections say of it. -/
def NodeRecord.apply (r : NodeRecord) (codes : List (List Word)) (n : NodeSpec) : NodeSpec :=
  { n with
    name := r.name, code := codes.getD r.handler []
    role := (roleOf r.role).getD .compute, handlerId := r.handler, stage := BitVec.ofNat 4 r.stage, pmatch := matchOf r.pmatch
    inputs := (upTo 4).map fun p => if bitAt r.inuse p then some (bitAt r.ordered p) else none
    outputs := (upTo 4).map fun p => bitAt r.outuse p
    window := r.k1 + 1, scope := (scopeOf r.scope).getD .device, subgraph := r.subgraph }

/-- A section header: type, offset, length, records. -/
def sectionAt (l : List Byte) (i : Nat) : Nat × Nat × Nat × Nat :=
  let a := 32 + 16 * i
  (bytesAt l a 4, bytesAt l (a + 4) 4, bytesAt l (a + 8) 4, bytesAt l (a + 12) 4)

def sections (l : List Byte) : List (Nat × Nat × Nat × Nat) := (upTo (bytesAt l 8 4)).map (sectionAt l)

/-- The NODE records of an object, in order. -/
def nodeRecords (l : List Byte) : List NodeRecord :=
  (sections l).flatMap fun (type, at_, _, n) =>
    if type = 3 then (upTo n).map fun i => nodeRecordOf (bytesAt l (at_ + 16 * i) 16) else []

/-- Records of a CODE section from a byte on: each gives its word count, in as many bytes as the object's format takes
(log entry 10), then its words, little-endian (09:R143, R161). -/
def codesFrom (l : List Byte) (at_ : Nat) : Nat → List (List Word)
  | 0 => []
  | n + 1 =>
    let w := Config.codeCountBytes
    let k := bytesAt l at_ w
    ((upTo k).map fun i => BitVec.ofNat 64 (bytesAt l (at_ + w + 8 * i) 8)) :: codesFrom l (at_ + w + 8 * k) n

/-- The CODE records of an object, in order. -/
def codeRecords (l : List Byte) : List (List Word) :=
  (sections l).flatMap fun (type, at_, _, n) => if type = 5 then codesFrom l at_ n else []

/-- A whole 128-byte row of an object (09:R161; 22:R333). -/
def rowAt (l : List Byte) (at_ : Nat) : Row := BitVec.ofNat 1024 (bytesAt l at_ 128)

/-- Rows that a tensor takes: whole groups of its format's rows (07:R102). -/
def Tensor.span (t : Tensor) : Nat := (t.elements + 1023) / 1024 * groupRows t.fmt t.width

/-- DATA records from a byte on: each names a tensor, in as many bytes as the object's format takes (log entry 10), and holds
the rows that fill the tensor's layout (09:R161; 22:R333). Tensor, first byte of the rows, rows. -/
def imagesFrom (l : List Byte) (tensors : List Tensor) (at_ : Nat) : Nat → List (Nat × Nat × Nat)
  | 0 => []
  | n + 1 =>
    let w := Config.dataRefBytes
    let t := bytesAt l at_ w
    let rows := match tensors[t]? with | some x => x.span | none => 0
    (t, at_ + w, rows) :: imagesFrom l tensors (at_ + w + 128 * rows) n

/-- The DATA records of an object. -/
def imageRecords (l : List Byte) : List (Nat × Nat × Nat) :=
  (sections l).flatMap fun (type, at_, _, n) => if type = 8 then imagesFrom l (Config.jgoTensors l) at_ n else []

/-- The records of a section lie in it: NODE records of 16 bytes, CODE records of their counts, DATA records of their tensors'
rows, as many NUL-terminated names as STRINGS counts; of the other types the spec gives no sizes (log entry 10). -/
def recordsFit (l : List Byte) (type at_ len n : Nat) : Bool :=
  match type with
  | 1 => decide (n ≤ (((l.drop at_).take len).count 0))
  | 3 => decide (16 * n ≤ len)
  | 5 => decide ((((codesFrom l at_ n).map fun c => Config.codeCountBytes + 8 * c.length).foldl (· + ·) 0) ≤ len)
  | 8 => decide ((((imagesFrom l (Config.jgoTensors l) at_ n).map fun x => Config.dataRefBytes + 128 * x.2.2).foldl (· + ·) 0) ≤ len)
  | _ => Config.recordsFit type ((l.drop at_).take len) n

/-- Status 0x0101: magic, version, length or CRC. -/
def headerBad (l : List Byte) : Bool :=
  decide (l.length < 32) || bytesAt l 0 4 ≠ 0x314F474A || bytesAt l 4 2 ≠ 1 || bytesAt l 16 4 ≠ l.length
    || bytesAt l 20 4 ≠ crc32c ((l.drop 32).map (·.toNat))

/-- Status 0x0102: section types, reserved fields, records beyond their section, NODE records. DESIGN CHOICE (log entry
27): so does a section count of 0 or above 65,535. -/
def sectionsBad (l : List Byte) : Bool :=
  let n := bytesAt l 8 4
  bytesAt l 24 8 ≠ 0 || decide (2 ≤ bytesAt l 6 2) || n = 0 || decide (65536 ≤ n) || decide (l.length < 32 + 16 * n)
    || (sections l).any (fun (type, at_, len, k) =>
      type = 0 || decide (10 ≤ type) || decide (l.length < at_ + len) || !recordsFit l type at_ len k)
    || (nodeRecords l).any (·.bad)

/-- Input ports in use. -/
def inPortsOf (l : List (Option Bool)) : List Nat := (upTo 4).filter fun p => ((l[p]?).join).isSome

/-- The loader notes for each configuration the ports into which external edges lead, one by one (05:R60, R93). -/
def Obj.feed (o : Obj) : Obj :=
  { o with cfgs := o.cfgs.mapIdx fun k c =>
      { c with fed := o.cfgs.flatMap fun d => (d.edges.filter fun e => e.cfg = some k).map fun e => (e.dest, e.inPort) } }

/-- The tensors that nodes of a configuration place, with the rows of their images. -/
def imagesOf (l : List Byte) (nodes : List NodeSpec) : List Image :=
  ((Config.jgoTensors l).mapIdx fun k t => (k, t)).filterMap fun (k, t) =>
    if nodes.any (·.gid = t.node) then
      some
        { toTensor := t
          rows := match (imageRecords l).find? (·.1 = k) with
            | some (_, at_, n) => (upTo n).map fun i => rowAt l (at_ + 128 * i)
            | none => [] }
    else none

/-- The object that the bytes stand for: nodes in the order of their declaration (22:R332), code and rows as the bytes hold
them. -/
def objectOf (l : List Byte) : Obj :=
  let records := nodeRecords l
  let codes := codeRecords l
  let fill (n : NodeSpec) : NodeSpec := match records[n.gid]? with | some r => r.apply codes n | none => n
  let entry := bytesAt l 12 4
  Obj.feed
    { strict := bytesAt l 6 2 % 2 = 1
      entry := if entry = 0xFFFFFFFF then none else some entry
      regions := Config.jgoRegions l
      cfgs := (Config.jgoCfgs l).map fun c =>
        { c with nodes := sortBy (·.gid) (c.nodes.map fill), images := imagesOf l c.nodes } }

/-! ## Checks (09:R163, 10:R164, 21:R329) -/

/-- Handlers of a group of nodes, each once, in the order in which the loader places them (09:R163). DESIGN CHOICE (log
entry 27): a handler that only REDUCE nodes name is not placed, as they do not use one (05:R58), and is not checked for
0x020D. -/
def handlersOf (g : List NodeSpec) : List (Nat × List Word) :=
  g.foldl (fun l n => if n.role = .reduce || l.any (·.1 = n.handlerId) then l else l ++ [(n.handlerId, n.code)]) []

/-- Edges inside the configuration into an input port, in the order of their declaration. -/
def CfgSpec.edgesInto (c : CfgSpec) (gid port : Nat) : List EdgeSpec :=
  c.edges.filter fun e => e.cfg = none && e.dest = gid && e.inPort = port

def NodeSpec.inPorts (n : NodeSpec) : List Nat := inPortsOf n.inputs
def NodeSpec.outPorts (n : NodeSpec) : List Nat := (upTo 4).filter fun p => n.outputs.getD p false

/-- Bindings that a group of nodes takes: for each input port in use one for each edge into it, and its external one
(05:R396, R397; log entry 16). -/
def CfgSpec.bindingCount (c : CfgSpec) (g : List NodeSpec) : Nat :=
  (g.map fun n => (n.inPorts.map fun p => (c.edgesInto n.gid p).length + 1).foldl (· + ·) 0).foldl (· + ·) 0

/-- The matching sum of nodes (05:R80). -/
def matchingSum (l : List (Nat × List (Option Bool))) : Nat :=
  (l.map fun (k, ins) => k * ins.countP (· = some false)).foldl (· + ·) 0

def CfgSpec.matching (g : List NodeSpec) : Nat := matchingSum (g.map fun n => (n.window, n.inputs))

def isMx (w : Word) : Bool := bitsOf w.toNat 60 4 = 5

/-- A placement: cells by node. -/
abbrev Placement := List (Nat × Nat)

def Placement.of (p : Placement) (gid : Nat) : Option Nat := (p.find? (·.1 = gid)).map (·.2)

/-- The first node of a role: one end of the memory interface (21:R313). -/
def CfgSpec.firstOf (c : CfgSpec) (role : Role) : Option NodeSpec := c.nodes.find? (·.role = role)

/-- Two nodes lie on one cell wherever the loader places the rest: a placement says so, their subgraph is at CELL scope,
or they are the memory interface (07:R117, 21:R313). -/
def CfgSpec.together (c : CfgSpec) (p : Placement) (n m : NodeSpec) : Bool :=
  let interface (x : NodeSpec) : Bool :=
    (c.firstOf .loader).any (·.gid = x.gid) || (c.firstOf .storer).any (·.gid = x.gid)
  n.gid = m.gid || ((p.of n.gid).isSome && p.of n.gid = p.of m.gid) || (n.scope = .cell && m.scope = .cell && n.subgraph = m.subgraph)
    || (interface n && interface m)

/-- A group of nodes with all that lie on its cell; the first argument bounds the rounds. -/
def CfgSpec.gather (c : CfgSpec) (p : Placement) : Nat → List NodeSpec → List NodeSpec
  | 0, g => g
  | k + 1, g =>
    let g' := c.nodes.filter fun m => g.any fun n => c.together p n m
    if g'.length ≤ g.length then g else c.gather p k g'

/-- The groups of nodes that every placement puts on one cell. -/
def CfgSpec.groups (c : CfgSpec) (p : Placement) : List (List NodeSpec) :=
  (c.nodes.map fun n => c.gather p c.nodes.length [n]).dedup

/-- Branch targets of a handler that do not lie in it (10:R164). -/
def badTargets (code : List Word) : Bool :=
  code.any fun w =>
    let x := w.toNat
    let n := code.length
    bitsOf x 60 4 = 2 && [2, 3, 4, 6].contains (bitsOf x 54 6)
      && (decide (n ≤ bitsOf x 31 9) || (bitsOf x 54 6 = 6 && decide (n ≤ bitsOf x 22 9)))

/-- The cell of a node of another configuration whose hint is fixed. -/
def fixedCell (all : List CfgSpec) (k gid : Nat) : Option Nat :=
  (all[k]?).bind fun d => (d.nodes.find? (·.gid = gid)).bind fun n => if n.fixed then n.hint else none

/-- Two nodes that a placement puts further apart than a scope. -/
def Placement.far (p : Placement) (a b : Nat) (sc : Scope) : Bool :=
  match p.of a, p.of b with
  | some x, some y => !Scope.le (scopeBetween x y) sc
  | _, _ => false

/-- A subgraph that a placement puts into more than one region of its scope (07:R117). -/
def CfgSpec.torn (c : CfgSpec) (p : Placement) : Bool :=
  c.nodes.any fun n => c.nodes.any fun m => m.subgraph = n.subgraph && p.far n.gid m.gid n.scope

/-- The first LOADER and the first STORER cannot share an edge cell: none takes both without tearing a subgraph apart or
leaving the place that one of them has (21:R313, R329). -/
def CfgSpec.splitInterface (c : CfgSpec) (p : Placement) : Bool :=
  match c.firstOf .loader, c.firstOf .storer with
  | some a, some b =>
    !(upTo (2 ^ 18)).any fun x =>
      isEdgeCell x && (p.of a.gid).all (· = x) && (p.of b.gid).all (· = x) && !c.torn ((a.gid, x) :: (b.gid, x) :: p)
  | _, _ => false

/-- The checks that depend on the place of a node, under a placement of some of them (09:R163, 21:R329). -/
def CfgSpec.placeChecks (c : CfgSpec) (all : List CfgSpec) (p : Placement) : List (Nat × Bool) :=
  let gs := c.groups p
  let far := p.far
  let node (gid : Nat) : Option NodeSpec := c.nodes.find? (·.gid = gid)
  [ (0x0201, gs.any fun g =>
      decide (32 < g.length) || decide (256 < c.bindingCount g) || decide (512 < ((handlersOf g).map (·.2.length)).foldl (· + ·) 0)),
    (0x0202, gs.any (fun g =>
        (g.any (fun n => n.role = .loader || n.role = .storer || (p.of n.gid).any isEdgeCell))
          && (g.any fun n => n.role ≠ .reduce && n.code.any isMx))
      || c.nodes.any fun n => (n.role = .loader || n.role = .storer) && (p.of n.gid).any fun x => !isEdgeCell x),
    (0x0206, c.torn p),
    (0x0207, c.edges.any fun e =>
      match node e.source, p.of e.source with
      | some n, some x =>
        n.role ≠ .landing &&
          (match e.cfg with
           | none => far e.source e.dest n.scope
           | some k => (fixedCell all k e.dest).any fun y => !Scope.le (scopeBetween x y) n.scope)
      | _, _ => false),
    (0x0208, gs.any fun g => decide ((if c.overflow then 512 else 256) < CfgSpec.matching g)),
    (0x020E, c.splitInterface p),
    (0x0210, gs.any fun g => decide (1 < ((g.filterMap (·.l1)).dedup).length)) ]

/-- A placement passes the checks that depend on it. -/
def CfgSpec.passes (c : CfgSpec) (all : List CfgSpec) (p : Placement) : Bool := (c.placeChecks all p).all fun x => !x.2

/-- Under a placement of some nodes, another node that no cell of the module could serve (21:R329). -/
def CfgSpec.unserved (c : CfgSpec) (all : List CfgSpec) (p : Placement) : Bool :=
  c.nodes.any fun n => (p.of n.gid).isNone && !(upTo (2 ^ 18)).any fun x => c.passes all ((n.gid, x) :: p)

/-- The checks of one configuration under the placement that its fixed hints give (09:R163, 10:R164, 21:R329). -/
def CfgSpec.checks (c : CfgSpec) (all : List CfgSpec) (rings : Bool) (p : Placement) : List (Nat × Bool) :=
  let node (gid : Nat) : Option NodeSpec := c.nodes.find? (·.gid = gid)
  let takesIn (e : EdgeSpec) : Bool :=
    match (match e.cfg with | none => some c | some k => all[k]?) with
    | some d => (d.nodes.find? (·.gid = e.dest)).any fun n => n.inPorts.contains e.inPort
    | none => false
  c.placeChecks all p ++
  [ (0x0203, c.nodes.any fun n => n.role = .reduce && n.outPorts.any (· ≠ 0)),
    (0x0204, c.nodes.any fun n => n.outPorts.any fun q =>
      (c.edges.countP fun e => e.source = n.gid && e.outPort = q) ≠ 1),
    (0x0205, decide (1 < c.nodes.countP (·.role = .loopb))),
    (0x0209, c.overflow && c.images.any fun i =>
      match i.bankRow with | some r => decide (480 < r + i.span) | none => false),
    (0x020A, c.nodes.any fun n => n.l1.any fun k => decide (4 < k)),
    (0x020B, c.nodes.any fun n => n.fixed && (match n.hint with | some x => decide (2 ^ 18 ≤ x) | none => true)),
    (0x020C, c.edges.any (fun e => e.spill ≠ 0) && !rings),
    (0x020D, c.nodes.any fun n => n.role ≠ .reduce && badTargets n.code),
    (0x020F, c.nodes.any fun n =>
      n.role = .storer && ((n.inputs[0]?).join ≠ some true || n.inPorts.all (· = 0))),
    (0x0211, c.edges.any fun e =>
      !(match node e.source with | some n => n.outPorts.contains e.outPort | none => false) || !takesIn e),
    (0x0212, c.unserved all p) ]

/-- Where fixed hints put the nodes. -/
def CfgSpec.fixedPlaces (c : CfgSpec) : Placement :=
  c.nodes.filterMap fun n => if n.fixed then n.hint.map fun x => (n.gid, x) else none

/-- Where hints put the nodes: the fixed ones, and each other one with which the configuration then passes every check, that
every other node has a cell among them (09:R163, 21:R329). -/
def CfgSpec.hintPlaces (c : CfgSpec) (all : List CfgSpec) : Placement :=
  c.nodes.foldl
    (fun p n =>
      match n.fixed, n.hint with
      | false, some x => let p' := p ++ [(n.gid, x)]; if decide (x < 2 ^ 18) && c.passes all p' && !c.unserved all p' then p' else p
      | _, _ => p) c.fixedPlaces

/-- The status of LOADCFG: the first check that fails, in the order of the tables. What depends on the place of a node is
checked where every placement decides it alike: the loader places the other nodes itself (09:R163). DESIGN CHOICE (log
entry 27): a configuration whose nodes lie beyond the NODE records, or whose handlers beyond the CODE records, gives
0x0102, and a header entry that names no node of the object is accepted. -/
def loadStatus (l : List Byte) : Nat :=
  if headerBad l then 0x0101
  else if sectionsBad l then 0x0102
  else
    let o := objectOf l
    let split (c : CfgSpec) : Bool :=
      c.nodes.any fun n => c.nodes.any fun m => m.subgraph = n.subgraph && m.scope ≠ n.scope
    let beyond (n : NodeSpec) : Bool :=
      decide ((nodeRecords l).length ≤ n.gid) || (n.role ≠ .reduce && decide ((codeRecords l).length ≤ n.handlerId))
    if o.cfgs.any (fun c => split c || c.nodes.any beyond) then 0x0102
    else
      let found := o.cfgs.map fun c => c.checks o.cfgs (Config.ringPlaceable l) c.fixedPlaces
      let statuses := (upTo 18).map (0x0201 + ·)
      (statuses.find? fun k => found.any fun f => f.any fun x => x.1 = k && x.2).getD 0

/-! ## What is written into a version (05:R58, R60, R397; 22:R332) -/

/-- Nodes of a configuration on a cell, in ascending node index. -/
def CfgSpec.nodesAt (c : CfgSpec) (p : Placement) (cell : Nat) : List NodeSpec :=
  sortBy (·.gid) (c.nodes.filter fun n => p.of n.gid = some cell)

/-- The bindings of a cell by route tag: node index, port, and the edge of an internal one; a port's external binding
stands last (05:R397). -/
def CfgSpec.tags (c : CfgSpec) (p : Placement) (cell : Nat) : List (Nat × Nat × Option EdgeSpec) :=
  (((c.nodesAt p cell).mapIdx fun i n =>
    n.inPorts.flatMap fun q =>
      (c.edgesInto n.gid q).map (fun e => (i, q, some e)) ++ [(i, q, none)])).flatten

/-- The code store of a cell: handlers packed from index 0, their targets relocated (09:R163, 10:R164). -/
def relocate (base : Nat) (w : Word) : Word :=
  let x := w.toNat
  let move (at_ : Nat) (w : Word) : Word :=
    (w &&& ~~~(BitVec.ofNat 64 (511 * 2 ^ at_))) ||| BitVec.ofNat 64 ((bitsOf x at_ 9 + base) % 512 * 2 ^ at_)
  if bitsOf x 60 4 = 2 && [2, 3, 4, 6].contains (bitsOf x 54 6) then
    let w := move 31 w
    if bitsOf x 54 6 = 6 then move 22 w else w
  else w

/-- Handlers with their bases. -/
def basesOf (l : List (Nat × List Word)) : List (Nat × Nat × List Word) :=
  (l.foldl (fun (a : Nat × List (Nat × Nat × List Word)) h => (a.1 + h.2.length, a.2 ++ [(h.1, a.1, h.2)])) (0, [])).2

def codeOf (g : List NodeSpec) : Tbl Word :=
  (basesOf (handlersOf g)).foldl
    (fun t (_, base, code) => (code.mapIdx fun i w => (base + i, relocate base w)).foldl (fun t e => tput t e.1 e.2) t) []

/-- The placement table's entries of a configuration: its version and index on each cell. -/
def CfgSpec.placesOf (c : CfgSpec) (p : Placement) (vers : List (Nat × Bool)) : List Place :=
  c.nodes.filterMap fun n =>
    match p.of n.gid with
    | none => none
    | some cell =>
      let ver := match vers.find? (·.1 = cell) with | some x => x.2 | none => false
      some ⟨n.gid, cell, ver, ((c.nodesAt p cell).findIdx? (·.gid = n.gid)).getD 0⟩

/-- The edge of an output port (05:R60, R91). -/
def CfgSpec.edgeOf (c : CfgSpec) (p : Placement) (gid port : Nat) : Option Edge :=
  match c.edges.find? (fun e => e.source = gid && e.outPort = port), p.of gid with
  | some e, some here =>
    let ring := if e.spill = 0 then none else some (e.spill / 16)
    match e.cfg, p.of e.dest with
    | none, some there =>
      let tag := ((c.tags p there).findIdx? fun x => x.2.2 = some e).getD 255
      some { dest := .internal there (BitVec.ofNat 8 tag), scope := scopeBetween here there, ordered := e.ordered, ring := ring }
    | none, none => none
    | some k, _ => some { dest := .external k e.dest e.inPort, ordered := e.ordered, ring := ring }
  | _, _ => none

/-- The version that the loader writes on a cell for a configuration of a context. -/
def CfgSpec.versionAt (c : CfgSpec) (p : Placement) (vers : List (Nat × Bool)) (owner : BitVec 10 × Nat) (cell : Nat) :
    Version :=
  let g := c.nodesAt p cell
  let bases := basesOf (handlersOf g)
  let places := c.placesOf p vers
  let node (n : NodeSpec) : Node :=
    { gid := n.gid, role := n.role, handler := match bases.find? (·.1 = n.handlerId) with | some x => x.2.1 | none => 0
      stage := n.stage, pmatch := n.pmatch, inputs := n.inputs
      outputs := (upTo 4).map fun q => if n.outputs.getD q false then c.edgeOf p n.gid q else none
      window := n.window, scope := n.scope }
  let source (e : EdgeSpec) : Option PortRef :=
    (places.find? (·.gid = e.source)).map fun x => ⟨x.cell, x.ver, x.node, e.outPort⟩
  let fed (i q : Nat) : Nat := match g[i]? with | some n => c.fed.count (n.gid, q) | none => 0
  { state := .loading, owner := some owner, overflow := c.overflow, nodes := g.map node
    bindings := (c.tags p cell).map fun (i, q, e) =>
      { node := i, port := q, external := e.isNone, edges := if e.isNone then fed i q else 1, source := e.bind source }
    code := codeOf g }

/-- L1STEPS of a cell (07:R100). -/
def CfgSpec.l1At (c : CfgSpec) (p : Placement) (cell : Nat) : Nat := ((c.nodesAt p cell).filterMap (·.l1)).headD 0

end Sys2Proof.Machine
end

