-- ==== Sys2Proof/Machine/Saving.lean ====
section
/-! DEFINITION. The save of a stopped configuration: the deadline, scan-out, the cells' saves, the hold threshold
(23:R339, R347 to R353; 24:R357). -/

namespace Sys2Proof.Machine

/-! ## The end of a stop (23:R339, R353; 25:R361) -/

/-- A stop of a context is complete once none of its configurations is on its way to SAVED. -/
def State.settleStop (s : State) (ctx : BitVec 10) : State :=
  let x := s.ctx ctx
  if (!x.stopping && x.stopSeqs.isEmpty) || s.stopRuns ctx then s
  else
    let s := s.updCtx ctx fun x => { x with stopping := false, stopSeqs := [] }
    each x.stopSeqs s fun s q => s.finishSeq q (ctx.zeroExtend 16) 0

/-- A configuration whose cells are all saved is SAVED. -/
def State.settleSave (s : State) (ctx : BitVec 10) (i : Nat) : State :=
  match s.cfg ctx i with
  | none => s
  | some c =>
    if (c.state = .saving || c.state = .scanning) && c.savingCells.isEmpty && c.scanCells.isEmpty then
      ((s.updCfg ctx i fun c =>
        { c with state := .saved, candSince := none, count := 0 }).noteCandidate ctx i).settleStop ctx
    else if c.state = .scanning && c.scanCells.isEmpty then s.updCfg ctx i fun c => { c with state := .saving }
    else s

/-! ## What is saved (23:R352) -/

/-- A wait as it is saved: WAITT compares again, WAITF reads again, BAR.WAIT registers again, a held access stays
(23:R354). -/
def Wait.saved : Wait → Wait
  | .waitt a => .waitt a
  | .waitf c sc sd pa h b _ => .waitf c sc sd pa h b 0
  | .held k => .held k
  | .cancel k sd => .cancel k sd
  | .op id => .op id
  | .none => .none
  | .retry _ _ | .bar _ _ _ | .walk | .flip _ _ _ => .retry Option.none false

def Task.saved (t : Task) : Task := { t with wait := t.wait.saved, waitAt := none, grant := none }

/-- What an EMPTY version keeps of a configuration: what the forwarding of tokens and the expansion of packets need
(05:R81, 21:R320), and the stages that a late record names (23:R345). -/
def Version.shell (v : Version) : Version :=
  { owner := v.owner, epochOpen := true
    nodes := v.nodes.map fun n => { gid := n.gid, role := n.role, stage := n.stage }
    bindings := v.bindings.map fun b => { node := b.node, port := b.port, external := b.external, last := b.last } }

/-- A version is EMPTY, and the other one's tokens no longer follow a sweep to it (05:R81, R83). -/
def Cell.emptyVersion (c : Cell) (ver : Bool) : Cell :=
  (c.updVersion ver Version.shell).updVersion (!ver) fun v => { v with swept := false }

/-- A slot holds a request that runs, and is EMPTY only when that completes (19:R276). -/
def State.slotRuns (s : State) (cell : Nat) (x : Slot) : Bool :=
  match x.state, x.req with
  | .busy, some (q, id) =>
    (tgetD (s.hall (hallOf cell)).queues [] q).any fun r => r.id = id && r.started && r.heldSince.isNone
  | _, _ => false

/-- A token that a binding's channel takes, as it is or expanded. -/
def Token.onChannel (t : Token) : Bool := t.route = .channel || t.route = .pack || t.route = .paddr

/-- Token packets on the links to a version, which a scan-out saves in their order, and the other packets (23:R351). -/
def State.linkPackets (s : State) (cell : Nat) (ver : Bool) : List Packet × List Packet :=
  let v := s.version cell ver
  let mine (p : Packet) : Bool :=
    p.dst = cell &&
      match p.body with
      | .token t _ => t.ver = ver && t.onChannel && decide (t.rtag.toNat < v.bindings.length)
      | .extToken t _ _ cfg => v.owner = some (t.ctx, cfg) && t.onChannel
      | _ => false
  (s.net.filter mine, s.net.filter fun p => !mine p)

/-- Barrier arrivals of a context on the links to a cell, and the other packets. -/
def linkArrivals (net : List Packet) (cell : Nat) (ctx : BitVec 10) : List Token × List Packet :=
  let arrival (p : Packet) : Option Token :=
    match p.body with
    | .token t _ => if p.dst = cell && t.route = .barrier && t.ctx = ctx then some t else none
    | _ => none
  (net.filterMap arrival, net.filter fun p => (arrival p).isNone)

/-- A presence load that has no value yet keeps its place at its home and is saved with its task; every other operation
returns before the save (07:R109, R140). -/
def Op.deferred (o : Op) : Bool := match o.kind with | .pres none | .presBank _ none => true | _ => false

/-- Regions of 64 rows that the layouts of a configuration name on a cell (23:R352). -/
def CfgSpec.layoutRegions (c : CfgSpec) (gids : List Nat) : List Nat :=
  c.images.flatMap fun m =>
    match m.bankRow with
    | some r => if gids.contains m.node then (upTo m.span).map fun k => (r + k) / 64 else []
    | none => []

/-- The bank as it is saved: the regions written since the install, and those that layouts name (23:R352). -/
def Cell.savedBank (c : Cell) (layout : List Nat) : Cell :=
  let mask := layout.foldl (fun m n => m ||| BitVec.twoPow 8 n) c.written
  { c with
    written := mask
    bank := c.bank.filter fun e => mask.getLsbD (e.1 / 64)
    bankPoison := c.bankPoison.filter fun e => mask.getLsbD (e.1 / 64)
    bankFull := c.bankFull.filter fun e => mask.getLsbD (e.1 / 1024) }

/-- What an image keeps of a cell: what belongs to no version, task or unit (23:R352). -/
def Cell.imageOf (c : Cell) (layout : List Nat) : Cell :=
  { c.savedBank layout with
    v0 := {}, v1 := {}, deferred := [], tasks := [], store := [], readyFirings := [], arrivals := [], freed := [], ops := [], flights := []
    l1 := [], outq := [], flips := [], issueStopped := false, clockStopped := false }

/-- Waits of tasks that are saved leave a home: they register again (23:R354). -/
def Cell.dropWaits (c : Cell) (gone : BarWaiter → Bool) : Cell :=
  { c with barWaiters := c.barWaiters.filter fun w => !gone w, barHeldWaits := c.barHeldWaits.filter fun w => !gone w }

/-- The cell's part of a configuration's state is saved, and its version is EMPTY. `link` where scan-out takes the tokens
on the links. What belongs to the cell itself goes with the context's last configuration there (19:R276, 23:R352). -/
def State.saveCell (s : State) (ctx : BitVec 10) (i cell : Nat) (link : Bool) : State :=
  match s.cfg ctx i with
  | none => s
  | some g =>
    let ver := match g.places.find? (·.cell = cell) with | some p => p.ver | none => false
    let s := (s.savePromotion cell fun r => r.ctx = ctx && g.places.any (·.gid = r.target)).flushL1 cell
    let last : Bool := match ((s.cell cell).version (!ver)).cfgOf with | some (k, _) => k ≠ ctx | none => true
    let (links, net) := if link then s.linkPackets cell ver else ([], s.net)
    let (arrivals, net) := if link && last then linkArrivals net cell ctx else ([], net)
    let s := { s with net := net }.updCell cell fun c => { c with barHeld := c.barHeld ++ arrivals }
    let x := s.cell cell
    let v := x.version ver
    let mine := x.tasks.filter fun y => y.2.ver = ver
    let slots := mine.map (·.1)
    let gone (w : BarWaiter) : Bool := w.task.cell = cell && slots.contains w.task.slot
    let sibling (y : Saved) : Bool := y.cell = cell || y.at_ = some cell
    let layout := g.spec.layoutRegions (v.nodes.map (·.gid)) ++
      if last then (s.ctxCfgs ctx).flatMap fun c => (c.2.saved.filter sibling).flatMap fun y => c.2.spec.layoutRegions (y.nodes.map (·.gid))
      else []
    let image := (x.imageOf layout).dropWaits gone
    let saved : Saved :=
      { cell := cell, nodes := v.nodes, bindings := v.bindings, handlers := v.handlers
        store := x.store.filter fun e => e.ver = ver, arrivals := (x.arrivals.filter fun a => a.1 = ver).map (·.2)
        tasks := mine.map fun y => (y.1, y.2.saved), readyFirings := x.readyFirings.filter fun f => f.ver = ver
        ops := x.ops.filter fun o => slots.contains o.slot && o.deferred
        links := links, image := image, at_ := if last then none else some cell }
    let s := s.updCell cell fun c =>
      let c := c.emptyVersion ver
      let c :=
        { c with
          tasks := c.tasks.filter fun y => y.2.ver ≠ ver
          store := c.store.filter fun e => e.ver ≠ ver
          arrivals := c.arrivals.filter fun a => a.1 ≠ ver
          readyFirings := c.readyFirings.filter fun f => f.ver ≠ ver
          ops := c.ops.filter fun o => !slots.contains o.slot
          deferred := c.deferred.filter fun d => !saved.ops.any (·.id = d.2.2)
          flips := c.flips.filter fun k => !slots.contains k
          issueStopped := false, clockStopped := false }
      if last then
        { c with bars := [], barHeld := [], barHeldWaits := [], barWaiters := []
                 slots := c.slots.filter fun y => s.slotRuns cell y.2 }
      else c
    let homes := (s.cells.filter fun y => (y.2.barWaiters ++ y.2.barHeldWaits).any gone).map (·.1)
    let s := each homes s fun s home => (s.updCell home fun c => c.dropWaits gone).settleBars home
    let s := s.updCfg ctx i fun g =>
      { g.putPlaces (g.places.filter (·.cell ≠ cell)) with
        saved := g.saved ++ [saved]
        savingCells := g.savingCells.filter (· ≠ cell), scanCells := g.scanCells.filter (· ≠ cell) }
    let keep (y : Saved) : Saved :=
      let y := if last && sibling y then { y with image := image, at_ := none } else y
      { y with image := y.image.dropWaits gone }
    let s : State :=
      { s with cfgs := s.cfgs.map fun (k, g) =>
          (k, if k / 65536 = ctx.toNat then { g with saved := g.saved.map keep } else g) }
    s.settleSave ctx i

/-! ## The events (23:R350, R351) -/

/-- A region owned by ENGINE that a request still writes (23:R350). -/
def State.bankWritten (s : State) (cell : Nat) : Bool :=
  s.halls.any fun h => h.2.queues.any fun q => q.2.any fun r =>
    r.heldSince.isNone && r.failed.isNone && (upTo 8).any fun n =>
      (s.cell cell).engineRow (64 * n) &&
        (let d := descOf r.desc
         r.kind ≠ .sig && d.touches true (r.kind = .scatter || r.kind = .transpose || r.kind = .decode) cell n)

/-- Operations of a version's tasks that return before its save are outstanding (07:R140, 23:R350). -/
def State.opsOwed (s : State) (cell : Nat) (ver : Bool) : Bool :=
  (s.cell cell).ops.any fun o =>
    !o.deferred && (match tget (s.cell cell).tasks o.slot with | some t => t.ver = ver | none => false)

/-- A wave load of a task waits at the interface on the cell. -/
def State.waveOwed (s : State) (cell : Nat) (ver : Bool) : Bool :=
  (s.version cell ver).nodes.any fun n => n.heldSince.isNone && n.waves.any (·.op.isSome)

/-- Configurations for which a cell is to be saved, or scanned out. -/
def State.savers (s : State) (cell : Nat) (scan : Bool) : List (BitVec 10 × Nat × CfgRt) :=
  s.cfgs.filterMap fun (k, c) =>
    if (if scan then c.scanCells else c.savingCells).contains cell then some (BitVec.ofNat 10 (k / 65536), k % 65536, c)
    else none

/-- CELL_SAVE: the next configuration that the cell owes a save. -/
def execCellSave (s : State) : Host.Outcome State Fault Refusal :=
  let cell := s.choice.cell.toNat
  .next (match s.savers cell false with
    | (ctx, i, c) :: _ =>
      let ver := match c.places.find? (·.cell = cell) with | some p => p.ver | none => false
      if s.bankWritten cell || s.waveOwed cell ver || s.opsOwed cell ver || (s.cell cell).flights.any (fun f => decide (s.now < f.until_)) then s
      else s.saveCell ctx i cell false
    | [] => s)

/-- DRAIN_DEADLINE (23:R351): issue stops on every cell that holds a node of the drained set that has not halted, and
the requests that wait there are accepted (24:R357). The other cells go on to their saves. -/
def execDrainDeadline (s : State) : Host.Outcome State Fault Refusal :=
  let x := s.choice
  .next (
    let l := (s.drainedSet x.ctx x.cfg).filter fun c => decide (c.2.deadline ≤ s.now) && c.2.state = .draining
    let open_ (c : CfgRt) : List Nat :=
      (c.places.filter fun p => match s.node p.cell p.ver p.node with | some n => !n.halted | none => false).map (·.cell)
    let bad := (l.flatMap fun c => open_ c.2).dedup
    if bad.isEmpty then s
    else
      let s := each bad s fun s cell =>
        (s.updCell cell fun c => { c with issueStopped := true }).settlePromotions cell ((s.cell cell).promWaiting.length + 1)
      let s := each l s fun s y =>
        s.updCfg x.ctx y.1 fun c =>
          let scan := c.cells.filter bad.contains
          if scan.isEmpty then c
          else { c with state := .scanning, scanCells := scan, savingCells := c.cells.filter fun k => !bad.contains k }
      s.settleDrain x.ctx x.cfg)

/-- SCAN_COMPLETE: a cell whose work in flight is over promotes its log, stops its clock, and is saved whole. -/
def execScanComplete (s : State) : Host.Outcome State Fault Refusal :=
  let cell := s.choice.cell.toNat
  let c := s.cell cell
  .next (
    let l := s.savers cell true
    let busy := c.flights.any (fun f => decide (s.now < f.until_)) || c.regionOp.isSome || c.ops.any (fun o => !o.deferred)
      || s.bankWritten cell
      || l.any fun y => match y.2.2.places.find? (·.cell = cell) with | some p => s.waveOwed cell p.ver | none => false
    if !c.issueStopped || busy then s
    else
      let mine (r : PromReq) : Bool := l.any fun y => r.ctx = y.1 && y.2.2.places.any fun p => p.cell = cell && p.gid = r.target
      let s := (s.savePromotion cell mine).updCell cell fun c => { c with clockStopped := true }
      each l s fun s y => s.saveCell y.1 y.2.1 cell true)

/-- Nodes of a configuration hold an access since before a cycle. -/
def State.heldBefore (s : State) (c : CfgRt) (at_ : Nat) : Bool :=
  let old (o : Option Nat) : Bool := o.any fun k => decide (k ≤ at_)
  c.places.any fun p =>
    let v := s.version p.cell p.ver
    (match v.nodes[p.node]? with | some n => old n.heldSince | none => false)
      || v.bindings.any (fun b => b.node = p.node && old b.heldSince)
      || (s.cell p.cell).tasks.any fun t =>
        t.2.ver = p.ver && t.2.node = p.node && (match t.2.wait with | .held k => decide (k ≤ at_) | _ => false)

/-- HOLD_THRESHOLD (23:R347): a configuration that has held an access for the context's threshold is swapped out; it
stays SAVED until a RESUME for it. -/
def execHoldThreshold (s : State) : Host.Outcome State Fault Refusal :=
  let x := s.choice
  .next (match s.cfg x.ctx x.cfg with
    | none => s
    | some c =>
      let h := (s.ctx x.ctx).hold
      let requests := s.halls.any fun k => k.2.queues.any fun q => q.2.any fun r =>
        (r.heldSince.any fun a => decide (a + h ≤ s.now)) && c.places.any fun p =>
          r.node.cell = p.cell && r.node.ver = p.ver && r.node.node = p.node
      if (c.state = .ready || c.state = .live) && decide (h ≤ s.now) && (s.heldBefore c (s.now - h) || requests) then
        s.updCfg x.ctx x.cfg fun c =>
          { c with state := .draining, bySwap := true, byHold := true, resumed := false, deadline := s.now + 125000 }
      else s)

end Sys2Proof.Machine
end

