-- ==== Sys2Proof/Machine/Schedule.lean ====
section
/-! DEFINITION. The block scheduler: which versions can be installed, decisions, reservations and swap-outs, the install
and the restore of a configuration, the close of an epoch (05:R80, R81, R85, R86, R96; 07:R100; 23:R335 to R339, R354,
R355, R398, R399). -/

namespace Sys2Proof.Machine

/-! ## Installable versions (05:R78, R80, R81; 07:R100; 23:R335) -/

/-- A version holds no matching entry, task or FIFO token. -/
def Cell.idle (c : Cell) (ver : Bool) : Bool :=
  !c.store.any (·.ver = ver) && !c.tasks.any (·.2.ver = ver) && !c.readyFirings.any (·.ver = ver)
    && (c.version ver).bindings.all (fun b => b.fifo.isEmpty && b.pack.isNone)
    && (c.version ver).nodes.all (·.deliveries.isEmpty)

/-- A packet on its way to a version of a cell. -/
def Packet.toVersion (p : Packet) (cell : Nat) (v : Version) (ver : Bool) : Bool :=
  match p.body with
  | .token t _ => p.dst = cell && t.ver = ver
  | .extToken t _ _ cfg => p.dst = cell && v.owner = some (t.ctx, cfg)
  | .msg m _ _ => p.dst = cell && m.ver = ver
  | .credit r => r.cell = cell && r.ver = ver
  | _ => false

/-- Nothing resolved against the placement in a version is still on its way (05:R81). -/
def State.quiet (s : State) (cell : Nat) (ver : Bool) : Bool :=
  !s.net.any fun p => p.toVersion cell (s.version cell ver) ver

/-- A READY configuration that may be written over: none of its versions has taken anything yet. -/
def State.rewritable (s : State) (ctx : BitVec 10) (i : Nat) : Bool :=
  match s.cfg ctx i with
  | some c => c.state = .ready && c.places.all fun p => (s.cell p.cell).idle p.ver && s.quiet p.cell p.ver
  | none => false

def State.freeVer (s : State) (cell : Nat) (ver : Bool) : Bool :=
  let v := s.version cell ver
  match v.state, v.owner with
  | .empty, _ => !v.epochOpen
  | .ready, some (ctx, i) => s.rewritable ctx i
  | _, _ => false

/-- The configuration lays data on rows that an overflow area takes. -/
def CfgSpec.usesTop (c : CfgSpec) (p : Placement) (cell : Nat) : Bool :=
  c.images.any fun i =>
    p.of i.node = some cell && (match i.bankRow with | some r => decide (480 < r + i.span) | none => false)

/-- A version is claimed for a configuration other than that of the key (23:R338, R398). -/
def State.claimed (s : State) (key cell : Nat) (ver : Bool) : Bool :=
  s.cfgs.any fun (k, c) => k ≠ key && c.claims.contains (cell, ver)

/-- The version into which the configuration of a key can be installed on a cell; version 0 where both are EMPTY
(22:R332). -/
def State.installVer (s : State) (key : Nat) (c : CfgSpec) (p : Placement) (cell : Nat) : Option Bool :=
  let ctx := BitVec.ofNat 10 (key / 65536)
  let x := s.cell cell
  let suits (ver : Bool) : Bool :=
    let v := x.version (!ver)
    let empty : Bool := v.state = .empty
    let nodes : List (Nat × List (Option Bool)) := if empty then [] else v.nodes.map fun n => (n.window, n.inputs)
    let limit := if c.overflow || (v.overflow && !empty) then 512 else 256
    s.freeVer cell ver && !s.claimed key cell ver
      && (empty || ((match v.owner with | some (k, _) => k = ctx | none => false)
        && c.l1At p cell = x.split.toNat && !(v.overflow && c.usesTop p cell)))
      && decide (CfgSpec.matching (c.nodesAt p cell) + matchingSum nodes ≤ limit)
  if x.v0.state = .empty && x.v1.state = .empty then (if suits false then some false else none)
  else [false, true].find? suits

/-! ## Placements (09:R163; 23:R337, R354) -/

/-- The loader's choice of a cell for a node, from the turn. -/
def chosenCell (x : Choice) (gid : Nat) : Option Nat := (x.place.find? (·.1 = gid)).map (·.2.toNat)

/-- A placement from a rule for each node; absent where a node has no cell. -/
def CfgSpec.placeBy (c : CfgSpec) (f : NodeSpec → Option Nat) : Option Placement :=
  c.nodes.mapM fun n => (f n).map fun x => (n.gid, x)

/-- Where a saved cell's nodes go: fixed hints, the loader's choice, the former cell. -/
def CfgRt.unitCell (c : CfgRt) (x : Choice) (u : Saved) : Nat :=
  let here := c.spec.nodes.filter fun n => u.nodes.any (·.gid = n.gid)
  ((here.filterMap fun n => if n.fixed then n.hint else none).head?).getD
    (((here.head?).bind fun n => chosenCell x n.gid).getD u.cell)

/-- The configurations of a context's object. -/
def State.specs (s : State) (ctx : BitVec 10) : List CfgSpec := (s.ctxCfgs ctx).map fun c => c.2.spec

/-- The placement of a candidate: each node by its hint where that is followed, and else by the loader's choice; a saved
cell moves whole. -/
def State.placement (s : State) (x : Choice) (key : Nat) (c : CfgRt) : Option Placement :=
  if c.state = .saved then some (c.saved.flatMap fun u => u.nodes.map fun n => (n.gid, c.unitCell x u))
  else
    let hints := c.spec.hintPlaces (s.specs (BitVec.ofNat 10 (key / 65536)))
    c.spec.placeBy fun n => (hints.of n.gid).or (chosenCell x n.gid)

/-- A restore finds slots for its tasks, and a cell of its own for every saved cell. -/
def State.restorable (s : State) (c : CfgRt) (x : Choice) : Bool :=
  c.state ≠ .saved ||
    (decide ((c.saved.map (c.unitCell x)).Nodup)
      && c.saved.all fun u => decide (u.tasks.length + (s.cell (c.unitCell x u)).tasks.length ≤ 8))

/-- A placement passes the loader's checks and finds a version on every cell. -/
def State.fitAt (s : State) (key : Nat) (c : CfgRt) (p : Placement) : Option (List (Nat × Bool)) :=
  if c.spec.passes (s.specs (BitVec.ofNat 10 (key / 65536))) p then
    ((p.map (·.2)).dedup).mapM fun cell => (s.installVer key c.spec p cell).map fun v => (cell, v)
  else none

/-- How a candidate fits (23:R337, R398). -/
def State.fits (s : State) (x : Choice) (key : Nat) (c : CfgRt) : Option (Placement × List (Nat × Bool)) :=
  if s.restorable c x then (s.placement x key c).bind fun p => (s.fitAt key c p).map fun v => (p, v) else none

/-! ## Reservations (23:R338, R398) -/

/-- The versions that a candidate needs: on each cell of its placement the one into which it can be installed, and both
where there is none yet. -/
def State.needs (s : State) (x : Choice) (key : Nat) (c : CfgRt) : List (Nat × Bool) :=
  match s.placement x key c with
  | none => []
  | some p =>
    ((p.map (·.2)).dedup).flatMap fun cell =>
      match s.installVer key c.spec p cell with
      | some v => [(cell, v)]
      | none => [(cell, false), (cell, true)]

/-- A reserved candidate's home scheduler claims what it needs, in ascending hall number, as far as no other configuration's
claim stands in the way; claims that it no longer needs are released (23:R398). -/
def State.claimFor (s : State) (x : Choice) (key : Nat) : State :=
  match tget s.cfgs key with
  | none => s
  | some c =>
    let l := (sortBy (fun y => hallOf y.1) (s.needs x key c)).takeWhile fun y => !s.claimed key y.1 y.2
    { s with cfgs := tput s.cfgs key { c with claims := l } }

/-- Claims of a hall's configurations other than its reserved candidate are released, but for one whose install is under
way (23:R398). -/
def State.releaseClaims (s : State) (h : Nat) : State :=
  { s with cfgs := s.cfgs.map fun (k, c) =>
      (k, if c.home = h && c.state ≠ .loading && decide ((s.hall h).reserved ≠ some k) then { c with claims := [] } else c) }

/-- Placed configurations that hold claimed versions on cells where the claiming one cannot be installed. -/
def State.holders (s : State) (key : Nat) (c : CfgRt) : List Nat :=
  (c.claims.filterMap fun (cell, v) =>
    if c.claims.contains (cell, !v) || !s.freeVer cell v then
      match (s.version cell v).cfgOf with
      | some (k, i) => if cfgKey k i = key then none else some (cfgKey k i)
      | none => none
    else none).dedup

/-- A swap-out: a stop of one configuration (23:R338, R348). -/
def State.swapOut (s : State) (ctx : BitVec 10) (i : Nat) : State :=
  s.updCfg ctx i fun c => { c with state := .draining, bySwap := true, resumed := false, deadline := s.now + 125000 }

/-- The reserved candidate's next swap-out: one at a time, the lowest priority first, then the one LIVE longest. -/
def State.swapFor (s : State) (key : Nat) : State :=
  match tget s.cfgs key with
  | none => s
  | some c =>
    let l := (s.holders key c).filterMap fun k => (tget s.cfgs k).map fun d => (k, d)
    if l.any fun y => y.2.bySwap && (y.2.draining || y.2.state = .saving) then s
    else
      let open_ := l.filter fun y => y.2.state = .ready || y.2.state = .live
      let best := open_.foldl
        (fun (a : Option (Nat × CfgRt)) y =>
          match a with
          | none => some y
          | some z =>
            if y.2.spec.prio < z.2.spec.prio || (y.2.spec.prio = z.2.spec.prio && decide (y.2.liveSince < z.2.liveSince)) then some y
            else some z) none
      match best with
      | some (k, _) => s.swapOut (BitVec.ofNat 10 (k / 65536)) (k % 65536)
      | none => s

/-! ## Install (23:R339, R399) -/

/-- An image in bank rows is written, without a change to the poison of its rows (05:R72); they are emptied where they are
presence-guarded (07:R108). -/
def Cell.putImage (c : Cell) (i : Image) (r : Nat) : Cell :=
  let c := (i.rows.mapIdx fun k x => (r + k, x)).foldl
    (fun c e => if 512 ≤ e.1 then c else c.setRow e.1 e.2) c
  if i.pres then
    { c with bankFull := c.bankFull.filter fun e => !(decide (r ≤ e.1 / 16) && decide (e.1 / 16 < r + i.span)) }
  else c

/-- An image at a virtual address: rows that fail are left out, and counted with the first one's cause and address. -/
def State.writeImage (s : State) (ctx : BitVec 10) (i : Image) : State × Option (Nat × Nat × Nat) :=
  let fail (o : Option (Nat × Nat × Nat)) (cause va : Nat) : Option (Nat × Nat × Nat) :=
    match o with
    | none => some (cause, va, 1)
    | some (c, a, n) => some (c, a, n + 1)
  each (i.rows.mapIdx fun k x => (i.va.toNat + 128 * k, x)) (s, none) fun (s, o) (va, x) =>
    match translateNow s ctx va .plain true with
    | .pa pa => (s.writePhys pa 128 x.toNat false, o)
    | .translation _ _ => (s, fail o Cause.translation va)
    | .protection => (s, fail o Cause.protection va)

/-- The install completion that a cell reports to the home hall's agent (19:R306). -/
def readyMsg (home cell cfg : Nat) (ctx : BitVec 10) : Packet :=
  ⟨cell, home * 0x8000, .msg
    { dst := BitVec.ofNat 18 (home * 0x8000), poison := false, ver := false, op := 0x10, handler := 0
      ccell := BitVec.ofNat 18 cell, ctag := 0xFF, operand := 0 } ctx (some (.ready cfg cell))⟩

/-- A READY configuration gives up its versions: it is UNPLACED again, and no token is on its way to one of them. A decision
is due in the hall of each (05:R81, 07:R129, 23:R337). -/
def State.uninstall (s : State) (ctx : BitVec 10) (i : Nat) : State :=
  match s.cfg ctx i with
  | none => s
  | some c =>
    let s := each c.cells s fun s cell => s.savePromotion cell fun r => r.ctx = ctx && c.places.any (·.gid = r.target)
    let s := each ((c.places.map fun p => (p.cell, p.ver)).dedup) s fun s (cell, ver) =>
      (s.updCell cell fun x => (x.emptyVersion ver).updVersion ver fun v => { v with epochOpen := false }).updHall (hallOf cell)
        fun h => { h with due := h.due + 1 }
    (s.updCfg ctx i fun c =>
      { c with state := .unplaced, places := [], older := [], claims := [], candSince := none, count := 0 }).noteCandidate ctx i

/-- The versions are LOADING, with what the loader writes into them. -/
def State.loadVersions (s : State) (ctx : BitVec 10) (i : Nat) (c : CfgSpec) (p : Placement) (vers : List (Nat × Bool)) :
    State :=
  let s := each vers s fun s (cell, ver) =>
    match (s.version cell ver).state, (s.version cell ver).owner with
    | .ready, some (k, j) => s.uninstall k j
    | _, _ => s
  each vers s fun s (cell, ver) =>
    let s := if (s.cell cell).split.toNat = c.l1At p cell then s else s.changeSplit cell (c.l1At p cell)
    s.updCell cell fun x =>
      (x.updVersion ver fun _ => c.versionAt p vers (ctx, i) cell).updVersion (!ver) fun v => { v with swept := false }

/-- The configuration is LOADING on the cells chosen. -/
def State.nowLoading (s : State) (ctx : BitVec 10) (i : Nat) (c : CfgRt) (p : Placement) (vers : List (Nat × Bool))
    (restore : Bool) : State :=
  let cells := vers.map (·.1)
  let s := s.updCfg ctx i fun c =>
    { c with
      state := .loading, loadPlaces := c.spec.placesOf p vers, loadingCells := cells, claims := vers, credits := [], bySwap := false
      byHold := false, resumed := false, restore := restore, count := 0, candSince := none, stopPending := false
      phase := if restore then c.phase else [], saved := [] }
  each cells s fun s cell => s.send (readyMsg c.home cell i ctx)

/-- An install from UNPLACED. -/
def State.install (s : State) (ctx : BitVec 10) (i : Nat) (c : CfgRt) (p : Placement) (vers : List (Nat × Bool)) : State :=
  let s := (s.loadVersions ctx i c.spec p vers).nowLoading ctx i c p vers false
  let s := each vers s fun s (cell, ver) =>
    s.updCell cell fun x => if (x.version (!ver)).state = .empty then { x with written := 0 } else x
  let places := c.spec.placesOf p vers
  each c.spec.images s fun s m =>
    match p.of m.node, m.bankRow with
    | some cell, some r => s.updCell cell fun x => x.putImage m r
    | some cell, none =>
      match s.writeImage ctx m with
      | (s, none) => s
      | (s, some (cause, va, n)) =>
        match places.find? (·.gid = m.node) with
        | some q => s.nodeFault (nodeRef cell q.ver q.node ctx 0) cause va n
        | none => s
    | none, _ => s

/-! ## Restore (23:R354, R355) -/

/-- A token of the configuration in its new version: its sender may be any distance away from it now. -/
def Token.moveTo (t : Token) (ver : Bool) : Token := { t with ver := ver, scope := .device }

/-- A saved node in its new place. Meanwhile it has had no task on the cell (07:R128). -/
def Node.restored (n fresh : Node) (ver : Bool) (now : Nat) : Node :=
  let edge (o : Option Edge) (f : Option Edge) : Option Edge :=
    match o, f with
    | some e, some f =>
      some { f with ringTokens := e.ringTokens.map fun t =>
        match f.dest with
        | .internal cell tag => { t with ver := ver, dst := BitVec.ofNat 18 cell, rtag := tag }
        | .external _ _ _ => t }
    | _, f => f
  { n with
    handler := fresh.handler
    outputs := (upTo 4).map fun q => edge (n.outputs[q]?).join (fresh.outputs[q]?).join
    passes := n.passes.map fun p => { p with ver := ver }
    deliveries := n.deliveries.map fun d => (d.1, d.2.moveTo ver)
    lastIdle := now, stopPorts := [], stopAgent := false, halted := false, stopSent := [] }

/-- A saved binding under its new sender; an install clears the block bit (17:R253). -/
def Binding.restored (b fresh : Binding) (ver : Bool) : Binding :=
  { b with
    source := fresh.source, fifo := b.fifo.map (·.moveTo ver), pack := b.pack.map (·.moveTo ver), blocked := false
    fullSince := none, fullRaised := false }

/-- A request of the context follows its slot (23:R350): it keeps its queue number and identity. -/
def State.moveRequest (s : State) (old new : Nat) (ver : Bool) (q id : Nat) : State :=
  let h := hallOf old
  match (s.queue h q).find? (·.id = id) with
  | none => s
  | some r =>
    let s := s.setQueue h q ((s.queue h q).filter fun x => x.id ≠ id)
    let r := { r with cell := new, node := { r.node with cell := new, ver := ver } }
    s.setQueue (hallOf new) q (s.queue (hallOf new) q ++ [r])

/-- The saved regions of a bank are loaded; the other rows stay (23:R352). -/
def Cell.loadBank (c x : Cell) : Cell :=
  let load {α : Type} (old new : Tbl α) (unit : Nat) : Tbl α :=
    new.foldl (fun t e => tput t e.1 e.2) (old.filter fun e => !x.written.getLsbD (e.1 / unit))
  { c with
    bank := load c.bank x.bank 64, bankPoison := load c.bankPoison x.bankPoison 64
    bankFull := load c.bankFull x.bankFull 1024, written := c.written ||| x.written }

/-- The cell-level state of an image comes to a cell that holds no other configuration (23:R352). -/
def Cell.withImage (c x : Cell) : Cell :=
  { c.loadBank x with
    q := x.q, qPoison := x.qPoison, pp := x.pp, accS := x.accS, accX := x.accX, tilePoison := x.tilePoison
    latch := x.latch, latchPoison := x.latchPoison, region := x.region, regionPair := x.regionPair
    lfsrSeed := x.lfsrSeed, lfsr := x.lfsr, split := x.split, callMax := x.callMax, accSat := x.accSat
    vstall := x.vstall, served := x.served, eager := x.eager, owner := x.owner
    bars := x.bars, barHeld := x.barHeld, barWaiters := x.barWaiters, barHeldWaits := x.barHeldWaits, slots := x.slots }

/-- It joins a cell that another configuration of the context uses: the saved bank regions with their owner bits, and the
barrier entries, arrivals, waits and slots where the cell has none of its own; the registers are those in use
(log entry 20). -/
def Cell.joinImage (c x : Cell) : Cell :=
  { c.loadBank x with
    owner := (c.owner &&& ~~~x.written) ||| (x.owner &&& x.written)
    bars := (x.bars.filter fun y => c.barIdle y.1).foldl (fun t y => tput t y.1 y.2) c.bars
    barHeld := c.barHeld ++ x.barHeld, barWaiters := c.barWaiters ++ x.barWaiters
    barHeldWaits := c.barHeldWaits ++ x.barHeldWaits
    slots := (x.slots.filter fun y => (c.dslot y.1).state = .empty).foldl (fun t y => tput t y.1 y.2) c.slots }

/-- A task that waits for the record of a slot whose request has ended meanwhile goes on (19:R291). -/
def Task.settleCancel (t : Task) (c : Cell) : Task :=
  match t.wait with
  | .cancel k sd =>
    if (c.dslot k).state = .done then
      { (t.setReg sd (BitVec.ofNat 64 (bitsOf (c.dslot k).record.toNat 64 32))).fallThrough with wait := .none }
    else t
  | _ => t

/-- Saved tasks take free slots; their old slots with the new ones (05:R66, 23:R354). -/
def seatTasks (free : Tbl Task) (l : List (Nat × Task)) (move : Task → Task) : Tbl Task × List (Nat × Nat) :=
  l.foldl (fun x y =>
    match (upTo 8).find? fun k => (tget x.1 k).isNone with
    | some k => (tput x.1 k (move y.2), x.2 ++ [(y.1, k)])
    | none => x) (free, [])

/-- A deferred presence load of a saved task on its new cell. -/
def Op.seated (o : Op) (c : Cell) (seats : List (Nat × Nat)) (id : Nat) : Op :=
  let slot := match seats.find? (·.1 = o.slot) with | some y => y.2 | none => o.slot
  let r := presRow o.va
  let w := presWord o.va
  { o with
    id := id, slot := slot
    kind := match o.kind with
      | .presBank d none =>
        if tgetD c.bankFull false (16 * r + w) then .presBank d (some (rowWord (c.row r) w, c.rowPoisoned r)) else .presBank d none
      | k => k }

/-- The homes know the deferred loads of a restored cell by their new names (07:R109, 23:R355). -/
def State.renameLoads (s : State) (names : List ((Nat × Nat) × (Nat × Nat))) : State :=
  let new (x : Nat × Nat) : Nat × Nat := match names.find? (·.1 = x) with | some y => y.2 | none => x
  let move (l : List (Nat × Nat × Nat)) : List (Nat × Nat × Nat) := l.map fun d => (d.1, new d.2)
  { s with
    memDeferred := move s.memDeferred, memAnswered := move s.memAnswered
    net := s.net.map fun p => match p.body with
      | .presLoad a c op => { p with body := .presLoad a (new (c, op)).1 (new (c, op)).2 }
      | _ => p }

/-- The place of a deferred load of the cell's own bank in its list (07:R109). -/
def Op.place (o : Op) (cell : Nat) : Option (Nat × Nat × Nat) :=
  match o.kind with
  | .presBank _ none => some (16 * presRow o.va + presWord o.va, cell, o.id)
  | _ => none

/-- A token packet that was saved on a link goes to the new version from its sender's new cell (23:R351, R355). -/
def Version.relink (v : Version) (cell : Nat) (ver : Bool) (p : Packet) : Packet :=
  match p.body with
  | .token t _ =>
    let source := (v.bindings[t.rtag.toNat]?).bind (·.source)
    ⟨match source with | some r => r.cell | none => p.src, cell, .token { t.moveTo ver with dst := BitVec.ofNat 18 cell } source⟩
  | .extToken t gid port cfg => ⟨p.src, cell, .extToken { t.moveTo ver with dst := BitVec.ofNat 18 cell } gid port cfg⟩
  | _ => p

/-- What a saved cell holds of the cell itself comes to its new cell, unless another configuration of the context has kept
it there or brought it there (23:R352, R354; log entry 20). -/
def State.restoreShared (s : State) (ctx : BitVec 10) (u : Saved) (cell : Nat) (ver : Bool) : State :=
  if u.at_ = some cell then s
  else
    let alone := ((s.cell cell).version (!ver)).state = .empty
    let mine := u.at_ = none
    let here := s.cell cell
    let slots := u.image.slots.filter fun y => (mine || y.2.req.isNone) && (alone || (here.dslot y.1).state = .empty)
    let reqs := if mine then slots.filterMap fun y => y.2.req else []
    let image : Cell := { u.image with slots := slots }
    let s := if alone then (s.changeSplit cell image.split.toNat).updCell cell (·.withImage image)
      else s.updCell cell (·.joinImage image)
    let s := each reqs s fun s r => s.moveRequest u.cell cell ver r.1 r.2
    let s := if u.cell = cell then s else s.updCell u.cell fun c =>
      { c with slots := c.slots.filter fun y => !(y.2.owner = ctx && (match y.2.req with | some r => reqs.contains r | none => false)) }
    { s with cfgs := s.cfgs.map fun (k, g) =>
        (k, if k / 65536 = ctx.toNat && mine then
            { g with saved := g.saved.map fun y => if y.cell = u.cell && y.at_.isNone then { y with at_ := some cell } else y }
          else g) }

/-- A saved cell is restored on a cell and version. -/
def State.restoreCell (s : State) (ctx : BitVec 10) (u : Saved) (cell : Nat) (ver : Bool) : State :=
  let moved : List (Nat × Nat) :=
    if u.at_ = none then u.image.slots.filterMap fun y => y.2.req.map fun r => (hallOf u.cell, r.2) else []
  let s := s.restoreShared ctx u cell ver
  let c := s.cell cell
  let move (t : Task) : Task :=
    let t := { t with ver := ver, requests := t.requests.map fun r => if moved.contains r then (hallOf cell, r.2) else r }
    t.settleCancel c
  let (tasks, seats) := seatTasks c.tasks u.tasks move
  let ops := u.ops.mapIdx fun k o => o.seated c seats (c.nextOp + k)
  let names := u.ops.mapIdx fun k o => ((u.cell, o.id), (cell, c.nextOp + k))
  let room := 256 - c.store.countP fun e => !e.spilled
  let entries := u.store.mapIdx fun k e => { e with ver := ver, token := e.token.moveTo ver, spilled := decide (room ≤ k) }
  let s := s.updCell cell fun c =>
    { c.updVersion ver fun v =>
        { v with
          handlers := u.handlers
          nodes := v.nodes.mapIdx fun k n => match u.nodes[k]? with | some o => o.restored n ver s.now | none => n
          bindings := v.bindings.mapIdx fun k b => match u.bindings[k]? with | some o => o.restored b ver | none => b
          held := u.links.map (v.relink cell ver) } with
      tasks := tasks, store := c.store ++ entries, ops := c.ops ++ ops, nextOp := c.nextOp + u.ops.length
      deferred := c.deferred ++ ops.filterMap (·.place cell)
      arrivals := c.arrivals ++ u.arrivals.map fun r => (ver, r)
      readyFirings := c.readyFirings ++ u.readyFirings.map fun f => { f with ver := ver } }
  (s.renameLoads names).settleBars cell

/-- Credits that the positions of a packet still to be expanded hold (21:R319). -/
def packOwed (t : Token) (pos : Nat) : Nat := (((upTo (packLength t)).drop pos).filter fun i => !packTakes t i).length

/-- Credits that a restored binding's tokens hold: in its FIFO, in a packet, and on its link (05:R63, 21:R319). -/
def Version.spent (v : Version) (r : Nat) (b : Binding) : Nat :=
  let cost (t : Token) : Nat := if t.free then 0 else if t.kind = 6 then packCredits t else 1
  let link (p : Packet) : Nat :=
    match p.body with
    | .token t _ => if t.rtag.toNat = r then cost t else 0
    | .extToken t gid port _ =>
      if b.external && port = b.port && v.nodes.findIdx? (·.gid = gid) = some b.node then cost t else 0
    | _ => 0
  (b.fifo.map cost).foldl (· + ·) 0 + (match b.pack with | some t => packOwed t b.packPos | none => 0)
    + (v.held.map link).foldl (· + ·) 0

/-- Credits of the restored edges: what their FIFOs leave free. -/
def State.settleCredits (s : State) (ctx : BitVec 10) (i : Nat) (places : List Place) : State :=
  let len (cell : Nat) (tag : Nat) : Nat :=
    match places.find? (·.cell = cell) with
    | some q => (match s.binding cell q.ver tag with | some b => (s.version cell q.ver).spent tag b | none => 0)
    | none => 0
  let s' := each places s fun s p =>
    s.updNode p.cell p.ver p.node fun n =>
      { n with outputs := n.outputs.map (·.map fun e =>
          match e.dest with
          | .internal cell tag => { e with credits := 16 - len cell tag.toNat }
          | .external _ _ _ => e) }
  let ext : List (Nat × Nat) := places.flatMap fun p =>
    let v := s.version p.cell p.ver
    ((v.bindings.mapIdx fun r b => (r, b)).filterMap fun (r, b) =>
      if b.external && b.node = p.node then some (p.gid * 4 + b.port, 16 - v.spent r b) else none)
    ++ (match v.nodes[p.node]? with
      | some n => ((n.deliveries.map (·.1)).dedup).map fun q => (p.gid * 4 + q, 16 - n.deliveries.countP (·.1 = q))
      | none => [])
  s'.updCfg ctx i fun c => { c with credits := ext.foldl (fun t e => tput t e.1 e.2) [] }

/-- The former cells and their replacements, the latest ones last. -/
def movedCells (old new : List (Nat × Nat)) : List (Nat × Nat) :=
  let follow (x : Nat) : Nat := match new.find? (·.1 = x) with | some y => y.2 | none => x
  (old.filter fun y => !new.any (·.1 = y.1)).map (fun y => (y.1, follow y.2)) ++ new

/-- A restore. -/
def State.restore (s : State) (x : Choice) (ctx : BitVec 10) (i : Nat) (c : CfgRt) (p : Placement) (vers : List (Nat × Bool)) :
    State :=
  let verOf (cell : Nat) : Bool := match vers.find? (·.1 = cell) with | some y => y.2 | none => false
  let s := s.loadVersions ctx i c.spec p vers
  let s := each c.saved s fun s u => s.restoreCell ctx u (c.unitCell x u) (verOf (c.unitCell x u))
  let s := s.nowLoading ctx i c p vers true
  let s := s.updCfg ctx i fun c' => { c' with moved := movedCells c'.moved (c.saved.map fun u => (u.cell, c.unitCell x u)) }
  s.settleCredits ctx i (c.spec.placesOf p vers)

/-! ## Decisions (05:R86; 23:R337, R338) -/

/-- The cycle of a candidate's oldest waiting token, or at which it became a candidate. -/
def CfgRt.oldest (c : CfgRt) : Nat :=
  match c.vest with
  | [] => c.candSince.getD 0
  | (_, _, _, a) :: r => (r.map fun y => y.2.2.2).foldl min a

/-- The order of R86. -/
def CfgRt.before (a b : CfgRt) : Bool :=
  decide (b.vest.length < a.vest.length) || (a.vest.length = b.vest.length &&
    (decide (b.spec.prio < a.spec.prio) || (a.spec.prio = b.spec.prio && decide (a.oldest < b.oldest))))

/-- A decision of a hall's block scheduler. -/
def State.makeDecision (s : State) (h : Nat) (x : Choice) : State :=
  let cands := s.cfgs.filter fun y => y.2.home = h && s.candidate y.2 && (s.ctx (BitVec.ofNat 10 (y.1 / 65536))).live
  let known (k : Nat) : Bool := cands.any (·.1 = k)
  let line := (((s.hall h).reserved.toList) ++ (s.hall h).reserveQueue).filter known
  let s := s.updHall h fun y =>
    { y with reserved := line.head?, reserveQueue := line.drop 1, lastDecision := s.now, due := y.due - 1 }
  let fit := cands.filterMap fun (k, c) =>
    (s.fits x k c).map fun y => (k, c, y.1, y.2)
  let best := fit.foldl
    (fun (a : Option (Nat × CfgRt × Placement × List (Nat × Bool))) y =>
      match a with
      | none => some y
      | some z => if y.2.1.before z.2.1 then some y else some z) none
  let pick : Option (Nat × CfgRt × Placement × List (Nat × Bool)) := (line.head?.bind fun r => fit.find? (·.1 = r)).or best
  let picked (k : Nat) : Bool := match pick with | some y => y.1 = k | none => false
  let s : State :=
    if line.isEmpty then
      let late := sortBy (fun (y : Nat × CfgRt) => y.2.oldest) (cands.filter fun y => !picked y.1 && decide (14 ≤ y.2.count))
      let s : State :=
        { s with cfgs := s.cfgs.map fun (k, c) =>
            (k, if known k && !picked k then { c with count := min 15 (c.count + 1) } else c) }
      s.updHall h fun y => { y with reserved := (late.head?).map (·.1), reserveQueue := (late.drop 1).map (·.1) }
    else
      s.updHall h fun y =>
        let rest := line.filter fun k => !picked k
        { y with reserved := rest.head?, reserveQueue := rest.drop 1 }
  let s : State :=
    match pick with
    | some (k, c, p, v) =>
      let ctx := BitVec.ofNat 10 (k / 65536)
      if c.state = CfgState.saved then s.restore x ctx (k % 65536) c p v else s.install ctx (k % 65536) c p v
    | none => s
  let s := s.releaseClaims h
  match (s.hall h).reserved with
  | some r => (s.claimFor x r).swapFor r
  | none => s

/-- SCHEDULER_TIMER: a decision that is due, or 65,536 cycles after the last one while a candidate waits. -/
def execSchedulerTimer (s : State) : Host.Outcome State Fault Refusal :=
  let h := s.choice.hall.toNat
  let y := s.hall h
  let waits := s.cfgs.any fun c => c.2.home = h && s.candidate c.2
  .next (if !y.switching ∧ (0 < y.due ∨ (waits ∧ y.lastDecision + 65536 ≤ s.now)) then s.makeDecision h s.choice else s)

/-! ## The completion of an install; the close of an epoch (05:R81, R85, R96; 23:R339, R355) -/

/-- The cell that holds now what a cell held when a field of saved state named it (23:R355). -/
def State.nowAt (s : State) (ctx : BitVec 10) (cell : Nat) : Nat :=
  if s.holdsContext cell ctx then cell
  else
    (s.cfgs.findSome? fun x =>
      if x.1 / 65536 = ctx.toNat then (x.2.moved.find? (·.1 = cell)).map (·.2) else none).getD cell

/-- Messages and barrier arrivals for the configuration's former versions go to the replacements of their cells, and replies
to them to the replacement of the cell that asked (23:R355). -/
def State.deliverMsgs (s : State) (ctx : BitVec 10) (i : Nat) : State :=
  match s.cfg ctx i with
  | none => s
  | some c =>
    let open_ : Bool := s.cells.any fun x => [x.2.v0, x.2.v1].any fun v => v.epochOpen && v.owner = some (ctx, i)
    if c.places.isEmpty || open_ then s
    else
      let s := s.updCfg ctx i fun c => { c with vestMsgs := [] }
      each c.vestMsgs s fun s p =>
        let cell := match c.moved.find? (·.1 = p.dst) with | some y => y.2 | none => p.dst
        match c.places.find? (·.cell = cell), p.body with
        | some q, .msg m k r =>
          s.send ⟨p.src, cell, .msg
            { m with dst := BitVec.ofNat 18 cell, ver := q.ver, ccell := BitVec.ofNat 18 (s.nowAt k m.ccell.toNat) } k r⟩
        | some q, .token t a => s.send ⟨p.src, cell, .token { t with dst := BitVec.ofNat 18 cell, ver := q.ver } a⟩
        | _, _ => s

/-- What waits for a placed configuration goes out. -/
def State.deliverWaiting (s : State) (ctx : BitVec 10) (i : Nat) : State :=
  (s.deliverMsgs ctx i).deliverVest ctx i (match s.cfg ctx i with | some c => c.vest.length | none => 0)

/-- Every cell has reported: the placement entries are written, held messages are released, and a STOP that came
meanwhile applies. A restored configuration is LIVE (23:R339, R354). -/
def State.installed (s : State) (ctx : BitVec 10) (i : Nat) (c : CfgRt) : State :=
  let live := c.restore
  let s := each c.loadPlaces s fun s p =>
    s.updCell p.cell fun x =>
      let x := if live && (x.version (!p.ver)).state ≠ .live then { x with liveOne := if p.ver then upTo 32 else [] } else x
      x.updVersion p.ver fun v => { v with state := if live then .live else .ready }
  let held := ((c.loadPlaces.map fun p => (p.cell, p.ver)).dedup).flatMap fun y => (s.version y.1 y.2).held
  let s := each c.loadPlaces s fun s p => s.updVersion p.cell p.ver fun v => { v with held := [] }
  let s : State := { s with net := held ++ s.net }
  let s := s.updCfg ctx i fun c =>
    { c.putPlaces c.loadPlaces with
      state := if c.stopPending then .draining else if live then .live else .ready
      stopPending := false, liveSince := s.now, loadPlaces := [], claims := [], wanted := c.wanted && !live }
  s.deliverWaiting ctx i

/-- MRDY: an install completion at a hall agent; a cell drops it (19:R306). -/
def execMrdy (m : Msg) (s : State) : Host.Outcome State Fault Refusal :=
  onMsg s m false fun s a =>
    match a.req with
    | some (.ready i cell) =>
      match s.cfg a.ctx i with
      | none => some s
      | some c =>
        if c.state ≠ .loading then some s
        else
          let c := { c with loadingCells := c.loadingCells.filter (· ≠ cell) }
          let s := s.updCfg a.ctx i fun _ => c
          some (if c.loadingCells.isEmpty then s.installed a.ctx i c else s)
    | _ => some (s.badMsg m)

/-- EPOCH_CLOSE: every token resolved against the old placement has arrived, and no hall's copy of the placement table gives
it any more (05:R81; 06:R96; 23:R336); the hall of the version makes a decision. -/
def execEpochClose (s : State) : Host.Outcome State Fault Refusal :=
  let x := s.choice
  let cell := x.cell.toNat
  let v := s.version cell x.ver
  .next (
    let named : Bool :=
      match v.owner.bind fun y => s.cfg y.1 y.2 with
      | some c => (upTo 8).any fun h => (c.copy h).any fun p => p.cell = cell && p.ver = x.ver
      | none => false
    if v.state = .empty && v.epochOpen && s.quiet cell x.ver && !named then
      let s := s.updVersion cell x.ver fun v => { v with epochOpen := false }
      let s := match v.owner with | some (ctx, i) => s.deliverWaiting ctx i | none => s
      (s.updHall (hallOf cell) fun h => { h with due := h.due + 1 }).makeDecision (hallOf cell) x
    else s)

end Sys2Proof.Machine
end

