-- ==== Sys2Proof/Machine/Contexts.lean ====
section
/-! DEFINITION. Contexts: how a LAUNCH begins one, its exit, the return of its id (05:R74, R77, R87; 23:R334, R340). -/

namespace Sys2Proof.Machine

/-! ## Exit (23:R340) -/

/-- Tokens of channel FIFOs, spill rings and deliveries, with their route tags and nodes. -/
def tokensOf (bindings : List Binding) (nodes : List Node) : List (Nat × Nat × Token) :=
  (bindings.mapIdx fun r b => (b.fifo ++ b.pack.toList).map fun t => (r, b.node, t)).flatten
    ++ (nodes.mapIdx fun i n =>
      (n.outputs.flatMap fun o => match o with | some e => e.ringTokens | none => []).map (fun t => (t.rtag.toNat, i, t))
        ++ n.deliveries.map fun d => (d.2.rtag.toNat, i, d.2)).flatten

/-- Tokens among packets that wait for the install of a LOADING version, or were saved on its links (05:R81, 23:R351). -/
def heldTokens (bindings : List Binding) (nodes : List Node) (l : List Packet) : List (Nat × Nat × Token) :=
  l.filterMap fun p =>
    match p.body with
    | .token t _ => some (t.rtag.toNat, (match bindings[t.rtag.toNat]? with | some b => b.node | none => 0), t)
    | .extToken t gid _ _ => some (t.rtag.toNat, (nodes.findIdx? (·.gid = gid)).getD 0, t)
    | _ => none

/-- Tokens that an exit finds in a version. -/
def Version.tokens (v : Version) : List (Nat × Nat × Token) :=
  tokensOf v.bindings v.nodes ++ heldTokens v.bindings v.nodes v.held

/-- Tokens that an exit finds in a saved cell. -/
def Saved.tokens (u : Saved) : List (Nat × Nat × Token) :=
  tokensOf u.bindings u.nodes ++ heldTokens u.bindings u.nodes u.links
    ++ u.store.map fun e => (e.token.rtag.toNat, e.node, e.token)

/-- A version is given up at its context's exit: its tokens and entries are late, and the rows that its passes have
suppressed are recorded (05:R77, R87; 21:R326). -/
def State.dropVersion (s : State) (cell : Nat) (ver : Bool) : State :=
  let c := s.cell cell
  let v := c.version ver
  let toks := v.tokens ++ (c.store.filter fun e => e.ver = ver).map fun e => (e.token.rtag.toNat, e.node, e.token)
  let s := each toks s fun s (r, i, t) => s.lateToken cell ver r i t
  let s := each ((v.nodes.mapIdx fun i n => n.passes.map fun p => (i, p)).flatten) s fun s (i, p) =>
    s.sinkRecord (nodeRef cell ver i p.ctx p.iter) p
  s.updCell cell fun c =>
    let slots := (c.tasks.filter fun y => y.2.ver = ver).map (·.1)
    { c.emptyVersion ver with
      tasks := c.tasks.filter fun y => y.2.ver ≠ ver
      ops := c.ops.filter fun o => !slots.contains o.slot
      store := c.store.filter fun e => e.ver ≠ ver
      arrivals := c.arrivals.filter fun a => a.1 ≠ ver
      flips := c.flips.filter fun k => !slots.contains k
      readyFirings := c.readyFirings.filter fun f => f.ver ≠ ver
      issueStopped := false, clockStopped := false }

/-- What a cell holds of a context beside its versions: barrier entries, waits, slots (17:R271, 19:R276). -/
def State.dropCell (s : State) (ctx : BitVec 10) (cell : Nat) : State :=
  let c := s.cell cell
  let s := each (c.barHeld.filter (·.ctx = ctx)) s fun s t => s.lateToken cell t.ver 0 0 t
  let s := s.updCell cell fun c =>
    { c with
      bars := c.bars.filter fun y => y.2.owner ≠ some ctx
      barWaiters := c.barWaiters.filter (·.ctx ≠ ctx)
      barHeld := c.barHeld.filter (·.ctx ≠ ctx)
      barHeldWaits := c.barHeldWaits.filter (·.ctx ≠ ctx)
      slots := c.slots.filter fun y => !(y.2.state ≠ .empty && y.2.owner = ctx) }
  s.settleBars cell

/-- A token that a hall's agent discards: it counts in the agent's late count, and in a strict graph it is recorded
(05:R87). A command's RESUME ends with status 0x0303. -/
def State.lateAtAgent (s : State) (h gid : Nat) (t : Token) : State :=
  let s := (s.endCmd t 0x0303).updHall h fun x => { x with late := x.late + 1 }
  if (s.ctx t.ctx).strict then
    s.nodeFault (nodeRef (h * 0x8000) t.ver (gid % 32) t.ctx t.iter) Cause.lateToken t.rtag.toNat t.iter.toNat
  else s

/-- What the agents hold of a configuration is discarded: its vestibule, by the agent of its home hall, and the tokens of
its saved cells, by the agents of the halls that keep them (05:R87; 23:R340, R350); suppressed rows of saved passes are
recorded. -/
def State.dropVest (s : State) (ctx : BitVec 10) (i : Nat) (c : CfgRt) : State :=
  let s := s.updCfg ctx i fun c =>
    { c.putPlaces [] with vest := [], forwarded := 0, vestMsgs := [], saved := [], loadPlaces := [], claims := [] }
  let s := each c.vest s fun s (gid, _, t, _) => s.lateAtAgent c.home gid t
  each c.saved s fun s u =>
    let s := each u.tokens s fun s (_, k, t) =>
      s.lateAtAgent (hallOf u.cell) (match u.nodes[k]? with | some n => n.gid | none => k) t
    each ((u.nodes.mapIdx fun k n => n.passes.map fun p => (k, n, p)).flatten) s fun s (k, n, p) =>
      s.sinkRecord ⟨u.cell, p.ver, k, p.ctx, p.iter, some n.stage⟩ p

/-- Entries and pops of a context leave the meridian queues; entries are late. -/
def State.dropQueues (s : State) (ctx : BitVec 10) : State :=
  { s with halls := s.halls.map fun (k, h) =>
      (k, { h with
        mq := h.mq.filter (·.ctx ≠ ctx), mqPops := h.mqPops.filter (·.ctx ≠ ctx), mqPush := h.mqPush.filter (·.1.ctx ≠ ctx)
        late := h.late + h.mq.countP (·.ctx = ctx) }) }

/-- The exit of a context. -/
def State.exitContext (s : State) (ctx : BitVec 10) : State :=
  let x := s.ctx ctx
  let held := s.cells.filter fun y => [y.2.v0, y.2.v1].any fun v => v.state ≠ .empty && (match v.owner with | some (k, _) => k = ctx | none => false)
  let s := each (held.map (·.1)) s fun s cell =>
    s.savePromotion cell fun r => r.ctx = ctx
  let s := s.endContext ctx
  let s := s.updCtx ctx fun x =>
    { x with live := false, exitedAt := some s.now, admissions := [], stopping := false, stopSeqs := [], exitSeqs := [] }
  let s := each (held.map (·.1)) s fun s cell =>
    each [false, true] s fun s ver =>
      match (s.version cell ver).state, (s.version cell ver).owner with
      | .empty, _ => s
      | _, some (k, _) => if k = ctx then s.dropVersion cell ver else s
      | _, none => s
  let s := each (s.cells.map (·.1)) s fun s cell => s.dropCell ctx cell
  let s := each (s.ctxCfgs ctx) s fun s (i, c) => s.dropVest ctx i c
  let s := s.dropQueues ctx
  let s : State :=
    { s with ports := s.ports.map fun (k, p) =>
        (k, match p.capture with | some (c, _, _) => if c = ctx then { p with capture := none, enabled := false, buffer := [] } else p | none => p) }
  let s := s.finishSeq x.launch (ctx.zeroExtend 16) 0
  each (x.stopSeqs ++ x.exitSeqs) s fun s q => s.finishSeq q (ctx.zeroExtend 16) 0

/-- CONTEXT_EXIT: a context whose end has come (23:R340). -/
def execContextExit (s : State) : Host.Outcome State Fault Refusal :=
  let ctx := s.choice.ctx
  .next (
    if (s.ctx ctx).live && (s.ctxCfgs ctx).all fun c => c.2.state = .exited then s.exitContext ctx else s)

/-! ## The pool of ids; LAUNCH (05:R74; 23:R334) -/

/-- An id may be drawn. -/
def State.idFree (s : State) (k : Nat) : Bool :=
  let x := tgetD s.ctxs {} k
  !x.live && x.exitedAt.isNone

/-- The id that the CP draws: the turn's, or the lowest free one. -/
def State.drawId (s : State) (x : Choice) : Option Nat :=
  if s.idFree x.draw.toNat then some x.draw.toNat else (upTo 1024).find? s.idFree

/-- The home hall of a configuration (23:R398). -/
def CfgSpec.home (c : CfgSpec) : Nat :=
  match c.nodes.head? with
  | some n => (match n.hint with | some x => hallOf x | none => 0)
  | none => 0

/-- The launch token (23:R334): to the entry node's first input port in use. -/
def State.launchToken (s : State) (ctx : BitVec 10) (gid : Nat) (arg : Word) : State :=
  match (s.ctxCfgs ctx).find? (fun c => c.2.spec.nodes.any (·.gid = gid)) with
  | some (i, c) =>
    let port := match c.spec.nodes.find? (·.gid = gid) with | some n => n.inPorts.headD 0 | none => 0
    s.toVest ctx i gid port { ctx := ctx, payload := arg }
  | none => s

/-- A LAUNCH starts with an id (23:R334). -/
def State.startLaunch (s : State) (seq : Nat) (c : Cmd) (id : Nat) : State :=
  match tget s.cp.objs c.maddr.toNat with
  | none => s
  | some o =>
    let ctx := BitVec.ofNat 10 id
    let root := c.haddr.toNat % 2 ^ 48
    let s := s.updCtx ctx fun _ =>
      { live := true, root := if root = 0 then none else some root, strict := o.strict, obj := c.maddr.toNat, launch := seq }
    let new := o.cfgs.mapIdx fun i d => (cfgKey ctx i, ({ spec := d, home := d.home } : CfgRt))
    let s : State := { s with cfgs := new.foldl (fun t e => tput t e.1 e.2) s.cfgs }
    let s := s.updEntry seq fun e => { e with ctx := ctx.zeroExtend 16, state := jActing }
    match o.entry with
    | none => s.exitContext ctx
    | some gid => s.launchToken ctx gid c.arg

/-- No vestibule and no link holds a token of an id, and no version waits for one (05:R74). -/
def State.idQuiet (s : State) (ctx : BitVec 10) : Bool :=
  (s.ctxCfgs ctx).all (fun c => c.2.vest.isEmpty)
    && !s.net.any (fun p =>
      match p.body with
      | .token t _ | .extToken t _ _ _ | .sweep t _ _ _ | .regionStart t _ _ _ => t.ctx = ctx
      | .msg _ c _ => c = ctx
      | .retire c _ _ _ => c = ctx
      | _ => false)
    && s.cells.all fun y => [y.2.v0, y.2.v1].all fun v =>
      !(v.epochOpen && (match v.owner with | some (k, _) => k = ctx | none => false))

/-- The earliest cycle after an exit at which the id returns. -/
def reissueAfter : Nat := 1250000

end Sys2Proof.Machine
end

