-- ==== Sys2Proof/Machine/Hash.lean ====
section
/-! DEFINITION. SHA-256 (25:R363, 27:R387, R388): the spec names the function, and the model takes it from its public
standard (log entry 11). -/

namespace Sys2Proof.Machine

/-- The largest number below 2^bits whose `k`-th power is at most `x`. -/
def rootFloor (k x : Nat) : Nat → Nat → Nat
  | 0, r => r
  | bit + 1, r => rootFloor k x bit (if (r + 2 ^ bit) ^ k ≤ x then r + 2 ^ bit else r)

/-- The first 32 bits of the fraction of the `k`-th root of a number below 2^9. -/
def rootBits (k p : Nat) : Nat := rootFloor k (p * 2 ^ (32 * k)) 37 0 % 2 ^ 32

/-- The primes below 312: the first 64. -/
def shaPrimes : List Nat := (upTo 312).filter fun p => decide (2 ≤ p) && (upTo 18).all fun d => d < 2 || p ≤ d || p % d ≠ 0

/-- The constants of the rounds come from cube roots, the initial value from square roots. -/
def shaK : List Nat := shaPrimes.map (rootBits 3)
def shaInit : List Nat := (shaPrimes.take 8).map (rootBits 2)

/-- A 32-bit word turned right by `n`. -/
def turn32 (n x : Nat) : Nat := x / 2 ^ n + x % 2 ^ n * 2 ^ (32 - n)

/-- The exclusive or of a word turned by each of some distances. -/
def turns (l : List Nat) (x : Nat) : Nat := l.foldl (fun a n => a ^^^ turn32 n x) 0

/-- The schedule of a block, newest word first. -/
def shaSchedule : Nat → List Nat → List Nat
  | 0, w => w
  | k + 1, w =>
    let back (n : Nat) : Nat := w.getD (n - 1) 0
    let mix := (turns [7, 18] (back 15) ^^^ back 15 / 2 ^ 3) + (turns [17, 19] (back 2) ^^^ back 2 / 2 ^ 10)
    shaSchedule k ((back 16 + back 7 + mix) % 2 ^ 32 :: w)

/-- One round over the eight words: they move down by one, the first and the fifth anew. -/
def shaRound (v : List Nat) (k w : Nat) : List Nat :=
  let at_ (i : Nat) : Nat := v.getD i 0
  let choice := at_ 6 ^^^ (at_ 4 &&& (at_ 5 ^^^ at_ 6))
  let most := (at_ 0 &&& (at_ 1 ||| at_ 2)) ||| (at_ 1 &&& at_ 2)
  let fresh := at_ 7 + turns [6, 11, 25] (at_ 4) + choice + k + w
  (v.take 7).mapIdx (fun i x => if i = 3 then (x + fresh) % 2 ^ 32 else x)
    |> ((fresh + turns [2, 13, 22] (at_ 0) + most) % 2 ^ 32 :: ·)

/-- A block of 64 bytes. -/
def shaBlock (v : List Nat) (block : List Nat) : List Nat :=
  let word (i : Nat) : Nat := ((block.drop (4 * i)).take 4).foldl (fun a b => a * 256 + b) 0
  let w := (shaSchedule 48 ((upTo 16).map word).reverse).reverse
  (v.zip ((shaK.zip w).foldl (fun v x => shaRound v x.1 x.2) v)).map fun (x, y) => (x + y) % 2 ^ 32

/-- The bytes with their padding. -/
def shaPad (l : List Nat) : List Nat :=
  let n := l.length
  l ++ [0x80] ++ List.replicate ((119 - n % 64) % 64) 0 ++ (upTo 8).map fun i => 8 * n / 256 ^ (7 - i) % 256

/-- Blocks of a padded message. -/
def shaBlocks (v : List Nat) (l : List Nat) : List Nat :=
  (upTo (l.length / 64)).foldl (fun v i => shaBlock v ((l.drop (64 * i)).take 64)) v

/-- The 32 bytes of the digest. -/
def sha256 (l : List Nat) : List Nat :=
  (shaBlocks shaInit (shaPad l)).flatMap fun w => [w / 2 ^ 24, w / 2 ^ 16 % 256, w / 2 ^ 8 % 256, w % 256]

/-- A digest as a field: its first byte lowest (00:R5). -/
def digestBits (l : List Nat) : BitVec 256 := BitVec.ofNat 256 (l.foldr (fun b v => b + 256 * v) 0)

end Sys2Proof.Machine
end

