-- ==== Sys2Proof/Machine/Management.lean ====
section
/-! DEFINITION. What the commands share, management space, firmware slots and attestation
(25:R359 to R363, R371; 27:R385 to R388, R391, R392). -/

namespace Sys2Proof.Machine

/-! ## Commands (25:R359, R361; 27:R386) -/

namespace Status
def ok : Nat := 0
def unknown : Nat := 0x0301
def range : Nat := 0x0302
def context : Nat := 0x0303
def address : Nat := 0x0304
def signature : Nat := 0x0305
def noImage : Nat := 0x0306
def notRunning : Nat := 0x0307
def poisoned : Nat := 0x0308
def noLeaf : Nat := 0x0309
def warmReset : Nat := 0x030A
def noObject : Nat := 0x030B
end Status

/-- The context that a message names. -/
def cmdCtx (c : Cmd) : BitVec 10 := c.ctx.truncate 10

/-- A command that needs a context: its number, then whether it is held. -/
def State.ctxStatus (s : State) (c : Cmd) : Nat :=
  if c.ctx = 0xFFFF then Status.context
  else if 1024 ≤ c.ctx.toNat then Status.range
  else if !(s.ctx (cmdCtx c)).live then Status.context
  else Status.ok

/-- A command that names a context or none. -/
def State.anyStatus (s : State) (c : Cmd) : Nat := if c.ctx = 0xFFFF then Status.ok else s.ctxStatus c

/-- The message's bytes, lowest first. -/
def cmdBytes (c : Cmd) : List Nat := (upTo 32).map fun i => encodeCmd c / 256 ^ i % 256

/-- A command starts: its entry says so (25:R363). -/
def State.acting (s : State) (seq : Nat) : State := s.updEntry seq fun e => { e with state := jActing }

/-- A command that fails a check ends; any other goes on. -/
def State.unless (s : State) (seq : Nat) (c : Cmd) (status : Nat) (k : State) : State :=
  if status ≠ Status.ok then s.finishSeq seq c.ctx status else k

/-- Bytes of host memory that a message names exist (07:R104). -/
def hostStatus (c : Cmd) (len : Nat) : Nat := if 2 ^ 47 < c.haddr.toNat + len then Status.address else Status.ok

/-- The first failing status of several. -/
def firstStatus (l : List Nat) : Nat := (l.find? (· ≠ Status.ok)).getD Status.ok

/-- Bytes of host memory. -/
def State.hostBytes (s : State) (a n : Nat) : List Byte := (upTo n).map fun i => s.readHostByte (a + i)

/-- A list of bytes written to host memory. -/
def State.putHostBytes (s : State) (a : Nat) (l : List Byte) : State :=
  each (l.mapIdx fun i b => (a + i, b)) s fun (s : State) (x : Nat × Byte) => { s with hostMem := tset s.hostMem 0 x.1 x.2 }

/-- Bytes of a command are on their way to an address of the host: it completes when the host has acknowledged them (07:R139,
25:R361). -/
def State.sentTo (s : State) (a seq : Nat) (c : Cmd) (status : Nat) : State :=
  let s : State := { s with hostStores := s.hostStores ++ [{ addr := 2 ^ 47 + a, read := some (seq, c.ctx, status) }] }
  s.acting seq

/-- Data of a READ, a status block or evidence is on its way to the command's host address. -/
def State.readSent (s : State) (seq : Nat) (c : Cmd) (status : Nat) : State := s.sentTo c.haddr.toNat seq c status

/-! ## Management space (27:R391, R392) -/

def Cp.setSlot (x : Cp) (k : Bool) (f : FwSlot) : Cp := if k then { x with fw1 := f } else { x with fw0 := f }

/-- A bit for each channel of a hall. -/
def channelBits (h : Hall) (f : Channel → Bool) : Nat :=
  ((upTo 16).map fun i => (f (tgetD h.channels {} i)).toNat * 2 ^ i).foldl (· + ·) 0

/-- A 64-bit word of a ring of entries. -/
def ringWord {n : Nat} (t : Tbl (BitVec n)) (o : Nat) : Nat := (tgetD t 0 (o / (n / 8))).toNat / 2 ^ (8 * (o % (n / 8))) % 2 ^ 64

/-- A word of a hall's block, by its offset. -/
def State.hallReg (s : State) (k o : Nat) : Nat :=
  let h := s.hall k
  if o < 0x10000 then
    match o with
    | 0x00 => h.enabled.toNat + 2 * s.cp.fatal.toNat + 4 * (decide (0 < s.cp.level)).toNat
    | 0x08 => channelBits h (·.folded.isSome) + channelBits h (·.offline) * 2 ^ 16
                + channelBits h (fun c => c.folded.getD false) * 2 ^ 32
    | 0x10 => h.aelHead % 2 ^ 32
    | 0x18 => h.aelCorrected % 2 ^ 32 + h.aelUncorrectable % 2 ^ 32 * 2 ^ 32
    | 0x20 => h.belHead % 2 ^ 32
    | 0x28 => h.belRetried % 2 ^ 32 + h.belFolds % 2 ^ 16 * 2 ^ 32 + h.belOffline % 2 ^ 16 * 2 ^ 48
    | 0x30 => h.chronoHead % 2 ^ 32
    | 0x38 => h.frozen.toNat + h.lastFatal.toNat * 256
    | 0x40 => h.temp.toNat
    | 0x48 => h.power.toNat
    | _ => 0
  else if o < 0x14000 then ringWord h.ael (o - 0x10000)
  else if o < 0x20000 then 0
  else if o < 0x24000 then ringWord h.bel (o - 0x20000)
  else if o < 0x40000 then 0
  else if o < 0x60000 then ringWord h.chrono (o - 0x40000)
  else 0

/-- A word of the module block, by its offset. -/
def State.moduleReg (s : State) (o : Nat) : Nat :=
  let x := s.cp
  match o with
  | 0x00 => x.moduleNum.toNat
  | 0x08 => x.powerLimit % 2 ^ 16
  | 0x10 => x.powerNow.toNat
  | 0x18 => x.throttle % 2 ^ 64
  | 0x20 => x.inlet.toNat + x.flow.toNat * 2 ^ 16
  | 0x28 => (x.slot x.running).secver % 2 ^ 32 + x.fuseMin % 2 ^ 32 * 2 ^ 32
  | 0x30 => x.bootStat.toNat
  | 0x38 => x.attestIndex % 2 ^ 21
  | _ =>
    if 0x40 ≤ o ∧ o < 0x78 then
      (upTo 8).foldr (fun i v => (Config.attestPub (o - 0x40 + i)).toNat + 256 * v) 0
    else 0

/-- A word of management space; what no register defines reads as zero. -/
def State.mgmtRead (s : State) (o : Nat) : Nat :=
  if o < 0x800000 then s.hallReg (o / 0x100000) (o % 0x100000)
  else if o < 0x800080 then s.moduleReg (o - 0x800000)
  else 0

/-- A write of 0 to CHRONO_CTL[0] (27:R385). -/
def State.unfreeze (s : State) (k v : Nat) : State :=
  if v % 2 = 0 then s.updHall k fun h => { h with frozen := false } else s

/-- A word written to management space; what cannot be written ignores it. -/
def State.mgmtWrite (s : State) (o v : Nat) : State :=
  if o < 0x800000 then
    let k := o / 0x100000
    match o % 0x100000 with
    | 0x18 => s.updHall k fun h => { h with aelCorrected := v % 2 ^ 32, aelUncorrectable := v / 2 ^ 32 % 2 ^ 32 }
    | 0x28 => s.updHall k fun h =>
        { h with belRetried := v % 2 ^ 32, belFolds := v / 2 ^ 32 % 2 ^ 16, belOffline := v / 2 ^ 48 % 2 ^ 16 }
    | 0x38 => s.unfreeze k v
    | _ => s
  else if o = 0x800000 then
    if s.cp.bootStat.toNat < 5 then { s with cp := { s.cp with moduleNum := BitVec.ofNat 8 v } } else s
  else if o = 0x800008 then
    let w := v % 2 ^ 16
    if 1000 ≤ w ∧ w ≤ 4800 then { s with cp := { s.cp with powerLimit := w } } else s
  else s

/-- Length and offset of a management access. -/
def mgmtStatus (c : Cmd) : Nat :=
  if c.len.toNat % 8 ≠ 0 ∨ c.maddr.toNat % 8 ≠ 0 then Status.range else hostStatus c c.len.toNat

/-- MANAGEMENT_READ. -/
def State.startMgmtRead (s : State) (seq : Nat) (c : Cmd) : State :=
  s.unless seq c (mgmtStatus c)
    ((each (upTo (c.len.toNat / 8)) s fun s i =>
      s.writeHost (c.haddr.toNat + 8 * i) 8 (s.mgmtRead (c.maddr.toNat + 8 * i))).readSent seq c Status.ok)

/-- MANAGEMENT_WRITE, CHRONO_CTL among its registers. -/
def State.startMgmtWrite (s : State) (seq : Nat) (c : Cmd) : State :=
  s.unless seq c (mgmtStatus c)
    ((each (upTo (c.len.toNat / 8)) s fun s i =>
      s.mgmtWrite (c.maddr.toNat + 8 * i) (s.readHost (c.haddr.toNat + 8 * i) 8)).finishSeq seq c.ctx Status.ok)

/-- CHRONO_CTL_UNFREEZE: the one word of a hall's CHRONO_CTL. -/
def State.startUnfreeze (s : State) (seq : Nat) (c : Cmd) : State :=
  s.unless seq c (hostStatus c 8)
    ((s.unfreeze (c.maddr.toNat / 0x100000) (s.readHost c.haddr.toNat 8)).finishSeq seq c.ctx Status.ok)

/-! ## Firmware (25:R371; 27:R387) -/

/-- FWSTAGE: the image is stored, and its slot is valid when its signature verifies and its version is not below the
fused minimum. -/
def State.startFwstage (s : State) (seq : Nat) (c : Cmd) : State :=
  let k := c.arg.getLsbD 0
  s.unless seq c
    (firstStatus [if k = s.cp.running ∧ s.cp.bootStat ≠ 0x81 then Status.range else Status.ok, hostStatus c c.len.toNat])
    (let image := s.hostBytes c.haddr.toNat c.len.toNat
     let ok := Config.lmsVerifies image && decide (s.cp.fuseMin ≤ Config.secVersion image % 2 ^ 32)
     let f : FwSlot := { image := image, secver := Config.secVersion image % 2 ^ 32, verified := ok }
     let s : State := { s with cp := s.cp.setSlot k f }
     s.finishSeq seq c.ctx (if ok then Status.ok else Status.signature))

/-- FWACTIVATE begins: acceptance pauses. -/
def State.startFwactivate (s : State) (seq : Nat) (c : Cmd) : State :=
  s.unless seq c (if (s.cp.slot (!s.cp.running)).verified then Status.ok else Status.noImage)
    (let s : State :=
      { s with
        cp := { s.cp with paused := some s.now, activation := some seq }
        halls := s.halls.map fun x => (x.1, { x.2 with switching := false, switched := false }) }
     s.acting seq)

/-- A hall agent's switch takes no more cycles than these: 250 µs. -/
def switchCycles : Nat := 312500

/-- A hall agent begins its switch, in turn, or ends it. -/
def State.agentSwitch (s : State) (k : Nat) : State :=
  let h := s.hall k
  if h.switching then s.updHall k fun h => { h with switching := false, switched := true }
  else if s.cp.activation.isNone || h.switched || s.halls.any (·.2.switching) then s
  else s.updHall k fun h => { h with switching := true, switchEnd := s.now + switchCycles }

/-- The end of an activation: faults that were queued are recorded, event frames that were held are taken, acceptance may
resume (25:R371; 26:R374). -/
def State.endActivation (s : State) : State :=
  let s : State :=
    { s with
      cp := { s.cp with activation := none, paused := none }
      halls := s.halls.map fun x => (x.1, { x.2 with switching := false, switched := false })
      ports := s.ports.map fun x => (x.1, { x.2 with events := x.2.events ++ x.2.held, held := [] }) }
  s.takeQueued

/-! ## Attestation (27:R388) -/

/-- The shortest buffer that takes the evidence. -/
def evidenceSize : Nat := 1884

/-- A number as bytes, lowest first. -/
def bytesOf (n v : Nat) : List Nat := (upTo n).map fun i => v / 256 ^ i % 256

/-- Bytes 0 to 111 of the evidence. -/
def State.evidence (s : State) (nonce : List Nat) (q : Nat) : List Nat :=
  let sha (f : FwSlot) : List Nat := sha256 (f.image.map (·.toNat))
  let run := s.cp.slot s.cp.running
  let staged := s.cp.slot (!s.cp.running)
  nonce ++ sha run ++ (if staged.verified then sha staged else List.replicate 32 0) ++ bytesOf 4 q ++ bytesOf 4 run.secver
    ++ bytesOf 8 (s.now % 2 ^ 64)

/-- ATTEST: the counter moves first, then the evidence is signed and sent to the host. -/
def State.startAttest (s : State) (seq : Nat) (c : Cmd) : State :=
  let q := s.cp.attestIndex
  s.unless seq c
    (firstStatus [if c.len.toNat < evidenceSize then Status.range else Status.ok, hostStatus c evidenceSize,
      if 2 ^ 20 ≤ q then Status.noLeaf else Status.ok])
    (let e := (s.evidence ((s.hostBytes c.haddr.toNat 32).map (·.toNat)) q).map (BitVec.ofNat 8)
     let s : State := { s with cp := { s.cp with attestIndex := q + 1 } }
     (s.putHostBytes c.haddr.toNat (e ++ (upTo 1772).map (Config.attestSig q e))).readSent seq c Status.ok)

end Sys2Proof.Machine
end

