-- ==== Sys2Proof/Machine/Binds.lean ====
section
/-! DEFINITION. The operations of BIND (25:R364, R367, R368; 21:R317). -/

namespace Sys2Proof.Machine

/-- BIND's checks come first, then its effect; it is complete at once. -/
def State.bind (s : State) (seq : Nat) (c : Cmd) (bad : Bool) (k : State) : State :=
  s.unless seq c (firstStatus [s.ctxStatus c, if bad then Status.range else Status.ok]) (k.finishSeq seq c.ctx Status.ok)

/-- A field of a message's argument. -/
def argBits (c : Cmd) (lo len : Nat) : Nat := bitsOf c.arg.toNat lo len

/-! ## 0x01: the page-table root -/

/-- Leaves of other roots. -/
def dropRoot (r : Nat) (l : List Leaf) : List Leaf := l.filter (·.root ≠ r)

def dropGrant (r : Nat) (g : Option Leaf) : Option Leaf := if g.any (·.root = r) then none else g

/-- Every translation cache drops a root's entries, and a walk in progress for it is not cached (21:R317). -/
def State.invalidateRoot (s : State) (r : Nat) : State :=
  { s with
    cells := s.cells.map fun x =>
      (x.1, { x.2 with
        tlb := dropRoot r x.2.tlb
        tasks := x.2.tasks.map fun y => (y.1, { y.2 with grant := dropGrant r y.2.grant }) })
    halls := s.halls.map fun x =>
      (x.1, { x.2 with
        wcache := dropRoot r x.2.wcache
        walks := x.2.walks.map fun w => { w with noCache := w.noCache || decide (w.root = some r) }
        queues := x.2.queues.map fun q => (q.1, q.2.map fun y => { y with grant := dropGrant r y.grant }) }) }

def State.startBindRoot (s : State) (seq : Nat) (c : Cmd) : State :=
  let x := cmdCtx c
  s.bind seq c (c.maddr.toNat % 4096 ≠ 0 || decide (2 ^ 48 ≤ c.maddr.toNat))
    (let s' := match (s.ctx x).root with
      | some r => if c.arg.getLsbD 8 then s.invalidateRoot r else s
      | none => s
     s'.updCtx x fun y => { y with root := some c.maddr.toNat })

/-! ## 0x02 to 0x04: fault ring, window, threshold -/

def State.startBindRing (s : State) (seq : Nat) (c : Cmd) : State :=
  let m := argBits c 8 6
  s.bind seq c (c.maddr ≠ 0 && (c.maddr.toNat % 32 ≠ 0 || decide (m < 6) || decide (20 < m)))
    (s.updCtx (cmdCtx c) fun y => { y with ring := if c.maddr = 0 then none else some (c.maddr, m), ringCount := 0 })

def State.startBindWindow (s : State) (seq : Nat) (c : Cmd) : State :=
  s.bind seq c false (s.updCtx (cmdCtx c) fun y => { y with window := argBits c 8 4 + 1 })

/-- The smallest hold threshold. -/
def holdMin : Nat := 1250

def State.startBindHold (s : State) (seq : Nat) (c : Cmd) : State :=
  s.bind seq c (decide (argBits c 8 56 < holdMin)) (s.updCtx (cmdCtx c) fun y => { y with hold := argBits c 8 56 })

/-! ## 0x05: a handler entry (19:R306) -/

/-- Where a node of a context's object is placed. -/
def State.placeOf (s : State) (ctx : BitVec 10) (gid : Nat) : Option Place := (s.ctxCfgs ctx).findSome? fun x => x.2.place gid

/-- A node of a context's configuration that is LOADING: what is sent to it is held until the install completes (05:R88). -/
def State.nodeLoading (s : State) (ctx : BitVec 10) (gid : Nat) : Bool :=
  (s.ctxCfgs ctx).any fun x => x.2.state = .loading && x.2.spec.nodes.any (·.gid = gid)

/-- The command's access is held until an install completes (05:R88, 25:R361). -/
def State.holdCmd (s : State) (seq : Nat) (c : Cmd) : State :=
  ({ s with cp := { s.cp with held := s.cp.held ++ [(seq, c)] } }).acting seq

/-- The MCFGW writes the entry of the node's version, one that is LOADING when the install completes; a node that is not placed
has none. -/
def State.startBindHandler (s : State) (seq : Nat) (c : Cmd) : State :=
  let entry := argBits c 8 8
  s.unless seq c (firstStatus [s.ctxStatus c, if entry = 0 ∨ 2 ^ 43 ≤ c.maddr.toNat then Status.range else Status.ok])
    (if s.nodeLoading (cmdCtx c) (argBits c 16 16) then s.holdCmd seq c
     else match s.placeOf (cmdCtx c) (argBits c 16 16) with
     | none => s.finishSeq seq c.ctx Status.context
     | some p =>
       (s.updVersion p.cell p.ver fun v => { v with handlers := tput v.handlers entry { word := c.maddr.truncate 43 } }).finishSeq
         seq c.ctx Status.ok)

/-! ## 0x06: admissions (25:R367) -/

def State.startBindPeer (s : State) (seq : Nat) (c : Cmd) : State :=
  let pair := (argBits c 8 8, argBits c 16 10)
  s.bind seq c false
    (s.updCtx (cmdCtx c) fun y =>
      { y with
        admissions :=
          if argBits c 26 1 = 1 then y.admissions.filter (· ≠ pair)
          else if y.admissions.contains pair then y.admissions else y.admissions ++ [pair] })

/-! ## 0x07: capture (25:R368, R369) -/

/-- The node of a context's object, by its number. -/
def State.specOf (s : State) (ctx : BitVec 10) (gid : Nat) : Option NodeSpec :=
  (s.ctxCfgs ctx).findSome? fun x => x.2.spec.nodes.find? (·.gid = gid)

/-- A port that another context or another node holds, or that PTP has, is not in a state to be bound. -/
def State.startBindCapture (s : State) (seq : Nat) (c : Cmd) : State :=
  let x := cmdCtx c
  let port := argBits c 8 5
  let gid := argBits c 16 16
  let q := argBits c 32 2
  let p := s.port port
  let target := (x, gid, q)
  let ordered : Bool := match s.specOf x gid with | some n => decide ((n.inputs[q]?).join = some true) | none => false
  let taken := p.capture.isSome && decide (p.capture ≠ some target) && (p.enabled || !p.buffer.isEmpty)
  s.unless seq c (firstStatus [s.ctxStatus c, if ordered then Status.ok else Status.range])
    (if argBits c 34 1 = 1 then
       if taken || p.ptp then s.finishSeq seq c.ctx Status.context
       else (s.updPort port fun p => { p with capture := some target, enabled := true }).finishSeq seq c.ctx Status.ok
     else
       (if p.capture = some target then s.updPort port fun p => { p with enabled := false } else s).finishSeq seq c.ctx
         Status.ok)

/-! ## Others -/

/-- A reserved operation. -/
def State.startBindReserved (s : State) (seq : Nat) (c : Cmd) : State := s.finishSeq seq c.ctx Status.range

end Sys2Proof.Machine
end

