-- ==== Sys2Proof/Machine/Commands.lean ====
section
/-! DEFINITION. The host's commands: data movement, contexts, acceptance and start in order; the end of a READ and of an
activation; the reissue of an id (23:R334, R339, R340, R348; 25:R359 to R362, R371; 27:R386). -/

namespace Sys2Proof.Machine

/-! ## Data movement (25:R361; 27:R377, R386) -/

/-- A run of bytes in pieces that each lie in one line. -/
def linePieces (a n : Nat) : List (Nat × Nat) :=
  if n = 0 then []
  else
    (upTo ((a + n - 1) / 128 - a / 128 + 1)).map fun i =>
      let lo := max a ((a / 128 + i) * 128)
      (lo, min (a + n) ((a / 128 + i + 1) * 128) - lo)

/-- An address of a message: virtual in its context, or physical. -/
def State.cmdAddr (s : State) (c : Cmd) (write : Bool) (a : Nat) : Option Nat :=
  if c.ctx = 0xFFFF then (if 2 ^ 48 ≤ a || isHole a then none else some a)
  else match translateNow s (cmdCtx c) a .copy write with | .pa pa => some pa | _ => none

/-- The pieces of a transfer: offset, physical address, bytes; absent where one of them fails. -/
def State.cmdPieces (s : State) (c : Cmd) (write : Bool) : Option (List (Nat × Nat × Nat)) :=
  (linePieces c.maddr.toNat c.len.toNat).mapM fun (a, n) => (s.cmdAddr c write a).map fun pa => (a - c.maddr.toNat, pa, n)

/-- WRITE: bytes for the module's memory are at their homes at once; where some go to the host, it completes when the host has
acknowledged them (07:R139). -/
def State.startWrite (s : State) (seq : Nat) (c : Cmd) : State :=
  s.unless seq c (firstStatus [s.anyStatus c, hostStatus c c.len.toNat])
    (match s.cmdPieces c true with
     | none => s.finishSeq seq c.ctx Status.address
     | some l =>
       let read (o n : Nat) : Nat := s.readHost (c.haddr.toNat + o) n
       let s := each (l.filter fun x => !isHost x.2.1) s fun s (o, pa, n) => s.writePhys pa n (read o n) false
       let out := l.filter fun x => isHost x.2.1
       let s := each out s fun s (o, pa, n) => s.writeHost (pa % 2 ^ 47) n (read o n)
       match out with
       | [] => s.finishSeq seq c.ctx Status.ok
       | (_, pa, _) :: _ => s.sentTo (pa % 2 ^ 47) seq c Status.ok)

/-- READ: the data observes the homes; a poisoned sector shows in the status. -/
def State.startRead (s : State) (seq : Nat) (c : Cmd) : State :=
  s.unless seq c (firstStatus [s.anyStatus c, hostStatus c c.len.toNat])
    (match s.cmdPieces c false with
     | none => s.finishSeq seq c.ctx Status.address
     | some l =>
       let poison := l.any fun (_, pa, n) => (s.readPhys pa n).2
       (each l s fun s (o, pa, n) => (s.readNoted pa none).writeHost (c.haddr.toNat + o) n (s.readPhys pa n).1).readSent seq c
         (if poison then Status.poisoned else Status.ok))

/-- Rows of a bank command: how many, the first, and the node's place. -/
def State.bankStatus (s : State) (c : Cmd) : Nat :=
  let n := c.len.toNat / 128
  let r := c.maddr.toNat % 512
  firstStatus [s.ctxStatus c, hostStatus c c.len.toNat,
    if c.len.toNat % 128 ≠ 0 ∨ 512 < r + n then Status.range else Status.ok,
    if s.nodeLoading (cmdCtx c) (argBits c 16 16) then Status.ok
    else
    match s.placeOf (cmdCtx c) (argBits c 16 16) with
    | none => Status.context
    | some p => if (upTo n).any (fun i => (s.cell p.cell).rowForbidden (r + i)) then Status.address else Status.ok]

/-- The cell of a bank command's node. -/
def State.bankCell (s : State) (c : Cmd) : Nat :=
  match s.placeOf (cmdCtx c) (argBits c 16 16) with | some p => p.cell | none => 0

/-- BANK_WRITE. -/
def State.startBankWrite (s : State) (seq : Nat) (c : Cmd) : State :=
  s.unless seq c (s.bankStatus c)
    (if s.nodeLoading (cmdCtx c) (argBits c 16 16) then s.holdCmd seq c
     else
      (s.updCell (s.bankCell c) fun x =>
        each (upTo (c.len.toNat / 128)) x fun x i =>
          x.putRow (c.maddr.toNat % 512 + i) (BitVec.ofNat 1024 (s.readHost (c.haddr.toNat + 128 * i) 128)) allLanes false).finishSeq
            seq c.ctx Status.ok)

/-- BANK_READ. -/
def State.startBankRead (s : State) (seq : Nat) (c : Cmd) : State :=
  s.unless seq c (s.bankStatus c)
    (let x := s.cell (s.bankCell c)
     let row (i : Nat) : Nat := c.maddr.toNat % 512 + i
     if s.nodeLoading (cmdCtx c) (argBits c 16 16) then s.holdCmd seq c
     else
      (each (upTo (c.len.toNat / 128)) s fun s i =>
       s.writeHost (c.haddr.toNat + 128 * i) 128 (x.row (row i)).toNat).readSent seq c
         (if (upTo (c.len.toNat / 128)).any (fun i => x.rowPoisoned (row i)) then Status.poisoned else Status.ok))

/-! ## Objects and contexts -/

/-- LOADCFG. -/
def State.startLoadcfg (s : State) (seq : Nat) (c : Cmd) : State :=
  s.unless seq c (firstStatus [if c.ctx = 0xFFFF ∨ c.ctx.toNat < 1024 then Status.ok else Status.range, hostStatus c c.len.toNat])
    (let l := s.hostBytes c.haddr.toNat c.len.toNat
     let status := loadStatus l
     (if status = Status.ok then { s with cp := { s.cp with objs := tput s.cp.objs seq (objectOf l) } } else s).finishSeq seq
       c.ctx status)

/-- The checks of a LAUNCH, before it draws an id. -/
def State.launchStatus (s : State) (c : Cmd) : Nat :=
  if c.ctx ≠ 0xFFFF ∨ c.haddr.toNat % 4096 ≠ 0 ∨ 2 ^ 48 ≤ c.haddr.toNat then Status.range
  else if (tget s.cp.objs c.maddr.toNat).isNone then Status.noObject
  else Status.ok

/-- LAUNCH; without a free id it does not start. -/
def State.startLaunchCmd (s : State) (seq : Nat) (c : Cmd) : State :=
  s.unless seq c (s.launchStatus c)
    (match s.drawId s.choice with
     | some id => s.startLaunch seq c id
     | none => s)

/-- A context whose configurations a stop has saved admits no further STOP. -/
def State.stopped (s : State) (ctx : BitVec 10) : Bool :=
  let l := s.ctxCfgs ctx
  !(s.ctx ctx).stopping && l.any (·.2.state = .saved)
    && l.all fun c =>
      c.2.state = .unplaced || c.2.state = .exited || (c.2.state = .saved && !c.2.bySwap && !c.2.resumed)

/-- STOP. -/
def State.startStop (s : State) (seq : Nat) (c : Cmd) : State :=
  let x := cmdCtx c
  s.unless seq c (firstStatus [s.ctxStatus c, if s.stopped x then Status.context else Status.ok])
    ((((s.beginStop x).updCtx x fun y => { y with stopSeqs := y.stopSeqs ++ [seq] }).acting seq).settleStop x)

/-- A stop has saved something of the context that no RESUME has named since, or is about to: RESUME is admitted. -/
def State.resumable (s : State) (ctx : BitVec 10) : Bool :=
  (s.ctx ctx).stopping || (s.ctxCfgs ctx).any fun c =>
    !c.2.bySwap && !c.2.resumed && (c.2.state = .saved || c.2.draining || c.2.state = .saving || c.2.stopPending)

/-- RESUME of a context: what a stop has saved or is to save may be chosen again; under way, the command ends with the
stop. -/
def State.startResumeContext (s : State) (seq : Nat) (c : Cmd) : State :=
  let x := cmdCtx c
  s.unless seq c (firstStatus [s.ctxStatus c, if c.arg ≠ 0 then Status.range else Status.ok,
      if s.resumable x then Status.ok else Status.context])
    (let s := each (s.ctxCfgs x) s fun s (i, d) =>
      if d.state = .unplaced || d.state = .exited then s
      else if d.state = .saved || d.draining || d.state = .saving || d.stopPending then
        (s.updCfg x i fun d => { d with resumed := true }).noteCandidate x i
      else s
     if (s.ctx x).stopping then (s.updCtx x fun y => { y with stopSeqs := y.stopSeqs ++ [seq] }).acting seq
     else s.finishSeq seq c.ctx Status.ok)

/-- RESUME of a held object, laid out as the operand of the instruction (19:R304): it is complete when the object is released,
which a version that is LOADING or saved puts off, and at once where nothing of the context is there. -/
def State.startResumeObject (s : State) (seq : Nat) (c : Cmd) : State :=
  let a := argBits c 0 26
  let cell := a % 2 ^ 18
  let node := a / 2 ^ 18 % 32
  let obj := a / 2 ^ 23
  let ver := (s.cell cell).liveVersion (if obj = 5 then 0 else node)
  let v := s.version cell ver
  let t : Token :=
    { kind := 3, dst := BitVec.ofNat 18 cell, ver := ver, ctx := cmdCtx c, aux := 2, payload := BitVec.ofNat 64 a, cmd := some seq }
  s.unless seq c (firstStatus [s.ctxStatus c, if 6 ≤ obj ∨ (obj = 5 ∧ 16 ≤ node) then Status.range else Status.ok])
    (if !(match v.owner with | some (k, _) => k = cmdCtx c | none => false) && !(obj = 5 && s.holdsContext cell (cmdCtx c)) then
      s.finishSeq seq c.ctx Status.ok
     else if v.state = .loading && obj ≠ 5 then (s.acting seq).send ⟨cell, cell, .token t none⟩
     else (s.acting seq).resumeObject cell node obj t)

/-- EXIT. -/
def State.startExit (s : State) (seq : Nat) (c : Cmd) : State :=
  let x := cmdCtx c
  s.unless seq c (s.ctxStatus c)
    (((s.endContext x).updCtx x fun y => { y with exitSeqs := y.exitSeqs ++ [seq] }).acting seq)

/-- The code of a configuration's state (25:R362). -/
def CfgState.code : CfgState → Nat
  | .unplaced => 0
  | .loading => 1
  | .ready => 2
  | .live => 3
  | .draining => 4
  | .scanning => 5
  | .saving => 6
  | .saved => 7
  | .exited => 8

/-- The words of the status block that are not zero. -/
def State.queryWords (s : State) (ctx : BitVec 10) : List Nat :=
  let l := s.ctxCfgs ctx
  let cells := (l.flatMap fun c => c.2.cells).dedup
  [ (match s.cfg ctx 0 with | some d => d.state.code + 16 * (decide (d.state = .saved) && d.bySwap).toNat | none => 0),
    l.countP (fun c => !(c.2.state = .unplaced || c.2.state = .saved || c.2.state = .exited)),
    (s.ctx ctx).cause,
    (s.halls.map (·.2.late)).foldl (· + ·) 0,
    (cells.map fun k => (s.cell k).vstall).foldl (· + ·) 0 ]

/-- QUERY. -/
def State.startQuery (s : State) (seq : Nat) (c : Cmd) : State :=
  s.unless seq c (firstStatus [s.ctxStatus c, hostStatus c 64])
    ((s.putHostBytes c.haddr.toNat
      ((((s.queryWords (cmdCtx c)) ++ [0, 0, 0]).flatMap (bytesOf 8)).map (BitVec.ofNat 8))).readSent seq c Status.ok)

/-- A code that is no command's. -/
def State.startUnknown (s : State) (seq : Nat) (c : Cmd) : State := s.finishSeq seq c.ctx Status.unknown

/-! ## Acceptance and start (25:R360) -/

/-- How a command of any form starts. -/
def State.startCmd (s : State) (seq : Nat) (c : Cmd) : State :=
  match cmdForm c with
  | .loadcfg => s.startLoadcfg seq c
  | .launch => s.startLaunchCmd seq c
  | .stop => s.startStop seq c
  | .resumeCtx => s.startResumeContext seq c
  | .resumeObj => s.startResumeObject seq c
  | .exit => s.startExit seq c
  | .write => s.startWrite seq c
  | .bankWrite => s.startBankWrite seq c
  | .mgmtWrite => s.startMgmtWrite seq c
  | .unfreeze => s.startUnfreeze seq c
  | .read => s.startRead seq c
  | .bankRead => s.startBankRead seq c
  | .mgmtRead => s.startMgmtRead seq c
  | .bind op =>
    match op with
    | 1 => s.startBindRoot seq c
    | 2 => s.startBindRing seq c
    | 3 => s.startBindWindow seq c
    | 4 => s.startBindHold seq c
    | 5 => s.startBindHandler seq c
    | 6 => s.startBindPeer seq c
    | 7 => s.startBindCapture seq c
    | _ => s.startBindReserved seq c
  | .fwstage => s.startFwstage seq c
  | .fwactivate => s.startFwactivate seq c
  | .query => s.startQuery seq c
  | .attest => s.startAttest seq c
  | .unknown => s.startUnknown seq c

/-- An earlier WRITE, BIND or LOADCFG that names the command's context, or none, is not complete: the command, where it names a
context, waits for it (25:R360). -/
def State.waitsFor (s : State) (seq : Nat) (c : Cmd) : Bool :=
  c.ctx ≠ 0xFFFF && s.cp.live.any fun e =>
    decide (e.1 < seq) && (e.2.1 = 6 || e.2.1 = 8 || e.2.1 = 1) && (e.2.2 = c.ctx || e.2.2 = 0xFFFF)

/-- A command can start: one of a context waits for what R360 names, a LAUNCH that passes its checks for a free id, a second
activation for the end of the first. -/
def State.canStart (s : State) (seq : Nat) (c : Cmd) : Bool :=
  !s.waitsFor seq c &&
  match cmdForm c with
  | .launch => s.launchStatus c ≠ Status.ok || (s.drawId s.choice).isSome
  | .fwactivate => s.cp.activation.isNone
  | _ => true

/-- Accepted commands start in their order. -/
def State.startPending (s : State) : Nat → State
  | 0 => s
  | k + 1 =>
    match s.cp.pending with
    | [] => s
    | (seq, c) :: r =>
      if s.canStart seq c then
        let s : State := { s with cp := { s.cp with pending := r } }
        (s.startCmd seq c).startPending k
      else s

/-- A message is accepted: it takes the next number, and its entry is written (25:R360, R363). -/
def State.acceptCmd (s : State) (c : Cmd) : State :=
  let seq := s.cp.nextSeq
  let s : State := { s with cp := { s.cp with nextSeq := seq + 1, live := tput s.cp.live seq (c.code, c.ctx) } }
  s.putEntry
    { seq := seq, code := c.code.toNat, ctx := c.ctx, status := 0, cause := 0, state := jAccepted
      digest := digestBits (sha256 (cmdBytes c)), accept := s.now % 2 ^ 64, done := 0 }

/-- With no firmware running only FWSTAGE and QUERY are admitted (27:R389). -/
def State.admits (s : State) (c : Cmd) : Bool := s.cp.bootStat ≠ 0x81 || cmdForm c = .fwstage || cmdForm c = .query

/-- A message is accepted, and starts if everything before it has. -/
def State.acceptStart (s : State) (c : Cmd) (start : State → Nat → Cmd → State) : State :=
  let seq := s.cp.nextSeq
  let s := s.acceptCmd c
  if !s.admits c then s.finishSeq seq c.ctx Status.noImage
  else if s.cp.pending.isEmpty && s.canStart seq c then start s seq c
  else { s with cp := { s.cp with pending := s.cp.pending ++ [(seq, c)] } }

/-- Acceptance has opened, is not paused, and no fatal condition holds (25:R360; 27:R385, R389). -/
def State.accepts (s : State) : Bool :=
  !s.cp.fatal && s.cp.paused.isNone && (decide (6 ≤ s.cp.bootStat.toNat))

/-- A message arrives: behind others it waits in the link's buffers. -/
def command (start : State → Nat → Cmd → State) (c : Cmd) (s : State) : Host.Outcome State Fault Refusal :=
  let s : State := { s with cp := { s.cp with replayRun := 0 } }
  .next (
    if s.accepts && s.cp.waiting.isEmpty then s.acceptStart c start
    else { s with cp := { s.cp with waiting := s.cp.waiting ++ [c] } })

/-- Messages that waited are accepted in the order of their arrival. -/
def State.acceptWaiting (s : State) : Nat → State
  | 0 => s
  | k + 1 =>
    match s.cp.waiting with
    | [] => s
    | c :: r =>
      if s.accepts then
        let s : State := { s with cp := { s.cp with waiting := r } }
        (s.acceptStart c State.startCmd).acceptWaiting k
      else s

def execLoadcfg (c : Cmd) (s : State) := command State.startLoadcfg c s
def execLaunch (c : Cmd) (s : State) := command State.startLaunchCmd c s
def execStopCommand (c : Cmd) (s : State) := command State.startStop c s
def execResumeContext (c : Cmd) (s : State) := command State.startResumeContext c s
def execResumeHeldObject (c : Cmd) (s : State) := command State.startResumeObject c s
def execExit (c : Cmd) (s : State) := command State.startExit c s
def execWrite (c : Cmd) (s : State) := command State.startWrite c s
def execRead (c : Cmd) (s : State) := command State.startRead c s
def execBankWrite (c : Cmd) (s : State) := command State.startBankWrite c s
def execBankRead (c : Cmd) (s : State) := command State.startBankRead c s
def execManagementRead (c : Cmd) (s : State) := command State.startMgmtRead c s
def execManagementWrite (c : Cmd) (s : State) := command State.startMgmtWrite c s
def execChronoCtlUnfreeze (c : Cmd) (s : State) := command State.startUnfreeze c s
def execBindRoot (c : Cmd) (s : State) := command State.startBindRoot c s
def execBindFaultRing (c : Cmd) (s : State) := command State.startBindRing c s
def execBindMeridianWindow (c : Cmd) (s : State) := command State.startBindWindow c s
def execBindHoldThreshold (c : Cmd) (s : State) := command State.startBindHold c s
def execBindHandlerEntry (c : Cmd) (s : State) := command State.startBindHandler c s
def execBindPeerAdmission (c : Cmd) (s : State) := command State.startBindPeer c s
def execBindCaptureStream (c : Cmd) (s : State) := command State.startBindCapture c s
def execBindReserved (c : Cmd) (s : State) := command State.startBindReserved c s
def execFwstage (c : Cmd) (s : State) := command State.startFwstage c s
def execFwactivate (c : Cmd) (s : State) := command State.startFwactivate c s
def execQuery (c : Cmd) (s : State) := command State.startQuery c s
def execAttest (c : Cmd) (s : State) := command State.startAttest c s
def execUnknownCommand (c : Cmd) (s : State) := command State.startUnknown c s

/-! ## What completes later -/

/-- HOST_ACKNOWLEDGEMENT: the host has taken the bytes at place `n`; a READ is complete with them (07:R139, 25:R361). -/
def execHostAcknowledgement (s : State) : Host.Outcome State Fault Refusal :=
  .next (match s.hostStores[s.choice.n]? with
    | none => s
    | some x =>
      let s : State := { s with hostStores := ldel s.hostStores s.choice.n, cp := { s.cp with replayRun := 0 } }
      match x.read with
      | some (seq, ctx, status) => (s.finishSeq seq ctx status).startPending s.cp.pending.length
      | none => s)

/-- The end of a cycle: commands that a LOADING version held are performed once it is installed, in their order (05:R88), and what
waited for them starts. -/
def State.settleHeld (s : State) : State :=
  let ready := s.cp.held.filter fun x => !s.nodeLoading (cmdCtx x.2) (argBits x.2 16 16)
  if ready.isEmpty then s
  else
    let s : State := { s with cp := { s.cp with held := s.cp.held.filter fun x => !ready.contains x } }
    let s := each ready s fun s x => s.startCmd x.1 x.2
    s.startPending s.cp.pending.length

/-- Acceptance resumes: waiting activations and messages go on. -/
def State.resumeAcceptance (s : State) : State :=
  let s := s.endActivation.startPending (s.cp.pending.length)
  s.acceptWaiting s.cp.waiting.length

/-- The longest pause: 50 ms. -/
def pauseCycles : Nat := 62500000

/-- ACTIVATION_COMPLETE (25:R371; 27:R384, R387): the new image runs and every agent has switched, within the 50 ms. -/
def execActivationComplete (s : State) : Host.Outcome State Fault Refusal :=
  .next (match s.cp.activation with
    | none => s
    | some seq =>
      let late : Bool := match s.cp.paused with | some since => decide (since + pauseCycles < s.now) | none => false
      if late || !((upTo 8).all fun h => (s.hall h).switched) then s
      else
        let k := !s.cp.running
        let v := (s.cp.slot k).secver
        let s : State := { s with cp := { s.cp with running := k, fuseMin := max s.cp.fuseMin v } }
        let s := each (upTo 8) s fun s h => s.chrono h 0x11 (pack [⟨192, 64, s.now⟩, ⟨96, 32, v⟩])
        (s.finishSeq seq 0xFFFF Status.ok).resumeAcceptance)

/-- FWACTIVATE_TIMEOUT (25:R371): the old slot is restored. -/
def execFwactivateTimeout (s : State) : Host.Outcome State Fault Refusal :=
  .next (match s.cp.activation, s.cp.paused with
    | some seq, some since =>
      if s.now < since + pauseCycles then s
      else (s.finishSeq seq 0xFFFF Status.notRunning).resumeAcceptance
    | _, _ => s)

/-- CONTEXT_ID_REISSUE (05:R74, 23:R334): the id of an exited context returns to the pool, and a LAUNCH that waits takes
it. -/
def execContextIdReissue (s : State) : Host.Outcome State Fault Refusal :=
  let ctx := s.choice.ctx
  .next (match (s.ctx ctx).exitedAt with
    | none => s
    | some a =>
      if s.now < a + reissueAfter || !s.idQuiet ctx then s
      else
        let forget (v : Version) : Version :=
          if v.state = .empty && (match v.owner with | some (k, _) => k = ctx | none => false) then {} else v
        let s : State :=
          { s with
            ctxs := tdel s.ctxs ctx.toNat
            cfgs := s.cfgs.filter fun y => y.1 / 65536 ≠ ctx.toNat
            cells := s.cells.map fun (k, c) => (k, { c with v0 := forget c.v0, v1 := forget c.v1 })
            choice := { s.choice with draw := ctx } }
        s.startPending s.cp.pending.length)

end Sys2Proof.Machine
end

