-- ==== Sys2Proof/Machine/Control.lean ====
section
/-! DEFINITION. Class BR: predicates, branches, calls, loops and END (11:R175 to R180), and the words that are no
instruction (09:R149). -/

namespace Sys2Proof.Machine

/-- A word that is no instruction raises ILLEGAL_OP (09:R149). -/
def execIllegalOp (w : Word) (s : State) : Host.Outcome State Fault Refusal :=
  onTask s fun t => s.raise t Cause.illegalOp t.pc.toNat w.toNat

/-! ## Predicates (11:R175) -/

def execPand (pd pe pf : BitVec 3) (s : State) := predOp s [] pd fun t => t.pred pe && t.pred pf
def execPor (pd pe pf : BitVec 3) (s : State) := predOp s [] pd fun t => t.pred pe || t.pred pf
def execPxor (pd pe pf : BitVec 3) (s : State) := predOp s [] pd fun t => t.pred pe != t.pred pf
def execPnot (pd pe : BitVec 3) (s : State) := predOp s [] pd fun t => !t.pred pe
def execPset (pd : BitVec 3) (v : Bool) (s : State) := predOp s [] pd fun _ => v

/-! ## Branches (11:R176, R179) -/

def execNop (s : State) : Host.Outcome State Fault Refusal := onTask s fun t => s.complete t

/-- A taken branch leaves the loops that do not hold its target (11:R179) and takes two cycles (11:R166). -/
def State.branch (s : State) (t : Task) (target : Nat) : State :=
  s.jump { t with loops := dropLoops t.calls.length target t.loops } target 2

def execBr (target : BitVec 9) (s : State) : Host.Outcome State Fault Refusal :=
  onTask s fun t => s.branch t target.toNat

def execBrp (pt : BitVec 3) (ptn : Bool) (target : BitVec 9) (s : State) : Host.Outcome State Fault Refusal :=
  onTask s fun t => if t.pred pt != ptn then s.branch t target.toNat else s.complete t

/-- The word stands at the end of the loop that governs here (11:R179). -/
def Task.atLoopEnd (t : Task) : Option Nat :=
  match t.loops with
  | l :: _ => if t.pc.toNat = l.last ∧ t.calls.length = l.depth then some l.last else none
  | [] => none

/-- CALL (11:R177, R179): the checks in the order of R179. -/
def execCall (target : BitVec 9) (s : State) : Host.Outcome State Fault Refusal :=
  onTask s fun t =>
    match t.atLoopEnd with
    | some e => s.raise t Cause.protection t.pc.toNat e
    | none =>
      if t.calls.length = 8 then s.raise t Cause.protection t.pc.toNat target.toNat
      else
        let t := { t with calls := (t.pc.toNat + 1) :: t.calls }
        (s.updCell0 fun c => { c with callMax := BitVec.ofNat 4 (max c.callMax.toNat t.calls.length) }).jump t
          target.toNat 2

/-- RET (11:R177): loops deeper than the new CALLDEPTH are dropped; a popped 512 passes the end of the store. -/
def execRet (s : State) : Host.Outcome State Fault Refusal :=
  onTask s fun t =>
    match t.calls with
    | [] => s.raise t Cause.protection t.pc.toNat 0
    | r :: rest =>
      if 512 ≤ r then s.raisePastEnd t
      else
        s.jump { t with calls := rest, loops := t.loops.filter fun l => decide (l.depth ≤ rest.length) } r 2

/-- LOOP (11:R178, R179): the checks in the order of R179. -/
def execLoop (sa : Spec) (target limit : BitVec 9) (s : State) : Host.Outcome State Fault Refusal :=
  onTask s fun t =>
    if limit < target then s.raiseWord t Cause.reservedField
    else
      match t.atLoopEnd with
      | some e => s.raise t Cause.protection t.pc.toNat e
      | none =>
        let n := (t.val sa).toNat
        let u := t.touch [sa]
        if n = 0 then s.branch u (limit.toNat + 1)
        else if 2 ≤ t.loops.length then s.raise u Cause.protection t.pc.toNat target.toNat
        else
          s.jump { u with loops := ⟨target.toNat, limit.toNat, n, t.calls.length⟩ :: t.loops } target.toNat 1

end Sys2Proof.Machine
end

