-- ==== Sys2Proof/Machine/Links.lean ====
section
/-! DEFINITION. The host link and the fabric's hops, raw capture, PTP stamps, and what peers send
(25:R358, R365 to R370; 26:R374; 27:R375). -/

namespace Sys2Proof.Machine

/-! ## Replays (25:R358; 27:R375, R385) -/

/-- TRAPINFO of LINK (25:R366). -/
def linkInfo (port peer reason : Nat) : Nat := port % 256 + peer % 256 * 256 + reason * 65536

/-- The host link as a port. -/
def hostPort : Nat := 0x40

/-- An access to a host address that is under way in a cell: its operation and the node of its task. -/
def State.hostLoads (s : State) : List (Nat × Op × NodeRef) :=
  s.cells.flatMap fun (k, c) =>
    c.ops.filterMap fun o =>
      match o.kind, tget c.tasks o.slot with
      | .load _ none, some t => if isHost o.pa then some (k, o, taskNode k t) else none
      | _, _ => none

/-- A failed retrain: every access to a host address in flight raises LINK against its node. What a load returns then
the spec leaves open (log entry 8). A store that was not acknowledged is over: its bytes stay, and what waited for the
acknowledgement goes on (DESIGN CHOICE, log entry 27). -/
def State.hostLinkFails (s : State) : State :=
  let stores := s.hostStores
  let loads := s.hostLoads
  let s : State := { s with hostStores := stores.filter (·.read.isSome) }
  let s := each loads s fun s (k, o, n) =>
    let kind : OpKind := match o.kind with | .load sc _ => .load sc (some (Config.freeWord s.fresh 40, true)) | x => x
    (s.useFree.updCell k fun c => { c with ops := c.ops.map fun y => if y.id = o.id then { y with kind := kind } else y }).nodeFault
      n Cause.link o.pa (linkInfo hostPort 0 2)
  each stores s fun s x =>
    match x.node with
    | some n => if x.read.isNone then s.nodeFault n Cause.link x.addr (linkInfo hostPort 0 2) else s
    | none => s

/-- Replays of the host link before it retrains. -/
def hostReplays : Nat := 8

/-- FLIT_CRC_ERROR: a replay; `ok` says how a retrain ends. -/
def execFlitCrcError (s : State) : Host.Outcome State Fault Refusal :=
  let run := s.cp.replayRun + 1
  let x := { s.cp with replays := (s.cp.replays + 1) % 2 ^ 32 }
  .next (
    if run < hostReplays then { s with cp := { x with replayRun := run } }
    else
      let s : State := { s with cp := { x with replayRun := 0, retrains := (x.retrains + 1) % 2 ^ 32 } }
      if s.choice.ok then s else s.hostLinkFails)

/-- A fatal condition: every hall writes FATAL and freezes its chronograph; issue and acceptance stop (27:R385). -/
def State.fatal (s : State) (code : Nat) : State :=
  if s.cp.fatal then s
  else
    let s := each (upTo 8) s fun s h =>
      (s.chrono h 0x0F (pack [⟨192, 64, s.now⟩, ⟨96, 8, code⟩])).updHall h fun x =>
        { x with frozen := true, lastFatal := BitVec.ofNat 8 code }
    { s with cp := { s.cp with fatal := true } }

/-- Replays of a fabric hop before it retrains. -/
def hopReplays : Nat := 16

/-- FABRIC_HOP_CRC_ERROR: a replay on the hop from `src` to `dst`; `k` is 0 for the first of a token. -/
def execFabricHopCrcError (s : State) : Host.Outcome State Fault Refusal :=
  let x := s.choice
  let key := x.src * 2 ^ 18 + x.dst
  let run := if x.k = 0 then 1 else tgetD s.hops 0 key + 1
  .next (
    if run < hopReplays then { s with hops := tset s.hops 0 key run }
    else
      let s : State := { s with hops := tdel s.hops key }
      if x.ok then s else s.fatal 1)

/-! ## Raw capture (25:R368 to R370) -/

/-- The PHC corrected to a port's connector: seconds and nanoseconds (25:R370). -/
def State.stamp (s : State) (port : Nat) : Nat × Nat :=
  let n := s.phcS.toNat * 1000000000 + s.phcNs - Config.portDelay port
  (n / 1000000000, n % 1000000000)

/-- Bytes of a stream buffer: 64 MiB. -/
def streamBuffer : Nat := 67108864

/-- The tokens of a frame: aux and payload (25:R368). -/
def frameTokens (port seq : Nat) (stamp : Nat × Nat) (l : List Byte) : List (BitVec 9 × Word) :=
  [ (0x100, BitVec.ofNat 64 (pack [⟨16, 48, stamp.1⟩, ⟨0, 16, l.length⟩])),
    (0x101, BitVec.ofNat 64 (pack [⟨32, 32, stamp.2⟩, ⟨24, 8, port⟩, ⟨0, 24, seq⟩])) ]
  ++ (upTo ((l.length + 7) / 8)).map fun i => (0, BitVec.ofNat 64 (bytesAt l (8 * i) 8))

/-- CAPTURE_FRAME: a frame on a port in raw capture; `ok` says that its FCS is good. -/
def execCaptureFrame (s : State) : Host.Outcome State Fault Refusal :=
  let x := s.choice
  let k := x.port.toNat
  let p := s.port k
  let n := x.bytes.length
  .next (
    if !p.up || !p.enabled || p.capture.isNone then s
    else if !x.ok || decide (n < 64) || decide (9216 < n) then s.updPort k fun p => { p with errors := p.errors + 1 }
    else if streamBuffer < (p.buffer.map (·.1)).foldl (· + ·) 0 + n then
      let s := if p.dropping then s
        else s.chrono (k / 4) 0x0C (pack [⟨192, 64, s.now⟩, ⟨104, 24, p.seq.toNat⟩, ⟨96, 8, k⟩])
      s.updPort k fun p => { p with seq := p.seq + 1, drops := p.drops + 1, dropping := true }
    else
      s.updPort k fun p =>
        { p with seq := p.seq + 1, dropping := false
                 buffer := p.buffer ++ [(n, frameTokens k p.seq.toNat (s.stamp k) x.bytes)] })

/-- A frame of which some tokens have been delivered and some have not. -/
def Port.partWay (p : Port) : Bool :=
  match p.buffer with
  | (n, l) :: _ => decide (l.length < (n + 7) / 8 + 2)
  | [] => false

/-- A token from a hall's agent or port to a port of a configuration: with a credit of its external binding, or into the
vestibule (05:R85, R396). -/
def State.agentSend (s : State) (hall : Nat) (ctx : BitVec 10) (i gid port : Nat) (t : Token) : Option State :=
  match s.cfg ctx i with
  | none => none
  | some c =>
    let direct := match s.resolve hall ctx i gid with
      | some y =>
        if c.vest.isEmpty && decide (0 < tgetD c.credits 16 (gid * 4 + port)) then
          some (s.deliverExt (agentCell hall) ctx i gid port y.cell t)
        else none
      | none => none
    match direct with
    | some s => some s
    | none => if c.vest.length < c.vestCap then some (s.toVest ctx i gid port t) else none

/-- Tokens of a frame in order, as far as they find space; what is left. -/
def State.sendFrame (s : State) (hall : Nat) (ctx : BitVec 10) (i gid port : Nat) :
    List (BitVec 9 × Word) → State × List (BitVec 9 × Word)
  | [] => (s, [])
  | (aux, w) :: r =>
    match s.agentSend hall ctx i gid port { ctx := ctx, aux := aux, payload := w } with
    | some s => s.sendFrame hall ctx i gid port r
    | none => (s, (aux, w) :: r)

/-- CAPTURE_DELIVERY: the oldest frame of a port; another port's frame for the same input port is not broken into
(25:R369, R371). -/
def execCaptureDelivery (s : State) : Host.Outcome State Fault Refusal :=
  let k := s.choice.port.toNat
  let p := s.port k
  .next (match p.capture, p.buffer with
    | some (ctx, gid, q), (n, l) :: r =>
      let broken := s.ports.any fun y => y.1 ≠ k && y.2.capture = p.capture && y.2.partWay
      match (s.ctxCfgs ctx).find? (fun c => c.2.spec.nodes.any (·.gid = gid)) with
      | none => s
      | some (i, _) =>
        if (s.hall (k / 4)).switching || broken then s
        else
          let (s, left) := s.sendFrame (k / 4) ctx i gid q l
          s.updPort k fun p => { p with buffer := if left.isEmpty then r else (n, left) :: r }
    | _, _ => s)

/-! ## PTP (25:R370; 26:R374) -/

/-- Event frames that a port holds while firmware changes. -/
def ptpHeld : Nat := 256

/-- PTP_EVENT_FRAME: firmware takes the frame with its stamp, or the port holds it during a pause. -/
def execPtpEventFrame (s : State) : Host.Outcome State Fault Refusal :=
  let k := s.choice.port.toNat
  let p := s.port k
  .next (
    if !p.up || !p.ptp then s
    else if s.cp.paused.isNone then s.updPort k fun p => { p with events := p.events ++ [((s.stamp k).1, (s.stamp k).2, s.choice.bytes)] }
    else if p.held.length < ptpHeld then s.updPort k fun p => { p with held := p.held ++ [((s.stamp k).1, (s.stamp k).2, s.choice.bytes)] }
    else s.updPort k fun p => { p with ptpDrops := p.ptpDrops + 1 })

/-- The rate word at 1.25 GHz, and 500 ppm of it. -/
def rateNominal : Nat := 3435973837
def rateSlew : Nat := 1717986

/-- Firmware slews the rate word, within its bounds and not during a pause. -/
def State.slew (s : State) (w : Nat) : State :=
  if s.cp.paused.isNone && decide (rateNominal - rateSlew ≤ w) && decide (w ≤ rateNominal + rateSlew) then { s with rate := w } else s

/-- Firmware steps the PHC while no capture binding is enabled, and not during a pause. -/
def State.stepTo (s : State) (sec ns : Nat) : State :=
  if s.cp.paused.isNone && !s.ports.any (·.2.enabled) && decide (ns < 1000000000) then
    { s with phcS := BitVec.ofNat 48 sec, phcNs := ns, phcFrac := 0 }
  else s

/-- Firmware reserves a port for PTP, or gives it back. -/
def State.reservePtp (s : State) (k : Nat) (on : Bool) : State :=
  if on && (s.port k).enabled then s else s.updPort k fun p => { p with ptp := on }

/-! ## Peers (19:R288, R289; 25:R365 to R367) -/

/-- A port carries UET traffic. -/
def Port.transports (p : Port) : Bool := p.up && !p.enabled

/-- The context has admitted the pair. -/
def State.admitted (s : State) (ctx : BitVec 10) (peer : BitVec 8) (pctx : BitVec 10) : Bool :=
  (s.ctx ctx).live && (s.ctx ctx).admissions.contains (peer.toNat, pctx.toNat)

/-- REMOTE_PUT_ARRIVAL: lanes `offset` to `amount` - 1 of a row at a virtual address. A pair that is not admitted, or an
address that fails, is refused: nothing is performed here. In self-refresh nothing reaches the memory (27:R385). -/
def execRemotePutArrival (s : State) : Host.Outcome State Fault Refusal :=
  let x := s.choice
  .next (
    if s.cp.fatal || !s.admitted x.ctx x.peer x.pctx then s
    else
      match translateNow s x.ctx x.addr.toNat .copy true with
      | .pa pa => if x.offset < x.amount.toNat then s.patchRow pa x.row x.offset (min 1024 x.amount.toNat) x.poison else s
      | _ => s)

/-- REMOTE_SIGNAL_ARRIVAL: the amount is added to the word at its home. -/
def execRemoteSignalArrival (s : State) : Host.Outcome State Fault Refusal :=
  let x := s.choice
  .next (
    if s.cp.fatal || !s.admitted x.ctx x.peer x.pctx || x.addr.toNat % 8 ≠ 0 then s
    else
      match translateNow s x.ctx x.addr.toNat .atomic true with
      | .pa pa => s.writeHome pa 8 (atomicNew 0 64 (s.readHome pa 8) x.amount.toNat 0)
      | _ => s)

/-- UUD_PACKET: discarded and counted. -/
def execUudPacket (s : State) : Host.Outcome State Fault Refusal :=
  let k := s.choice.port.toNat
  .next (if (s.port k).transports then s.updPort k fun p => { p with uud := p.uud + 1 } else s)

/-- The plane of an ordered stream: its own, or the next one whose port carries such traffic (25:R366, R368). -/
def State.planeOf (s : State) (sid : Nat) : Nat :=
  (((upTo 32).map fun i => (sid + i) % 32).find? fun k => (s.port k).transports).getD (sid % 32)

/-- The peer address of a row of a request, or of its add. -/
def Request.peerAddr (r : Request) (k : Nat) : Nat :=
  if r.kind = .sig then r.c.toNat
  else
    let d := descOf r.desc
    match d.stepAt true (d.planes true 0) (r.starts d true) k with
    | some x => (d.d.loc (d.stepRow true x)).addr
    | none => 0

/-- A request ends FAILED with LINK at a row. -/
def State.failLink (s : State) (h q : Nat) (r : Request) (row port reason : Nat) : State :=
  s.failRequest h q { r with rowsDone := row } Cause.link (r.peerAddr row) (linkInfo port (r.b.toNat % 256) reason)

/-- Cycles after which an unacknowledged packet ends its request: 10 ms. -/
def packetLimit : Nat := 12500000

/-- PACKET_TIMEOUT: packet `offset` of request `k`; the packets before it are acknowledged. One of no stream is on some port that
carries such traffic (25:R366, R368). -/
def execPacketTimeout (s : State) : Host.Outcome State Fault Refusal :=
  let x := s.choice
  let h := x.hall.toNat
  let q := x.eq.toNat
  .next (match (s.queue h q).find? (·.id = x.k) with
    | none => s
    | some r =>
      match r.sent[x.offset]? with
      | none => s
      | some a =>
        if s.now < a + packetLimit || (!r.ord && !(s.port x.port.toNat).transports) then s
        else s.failLink h q r x.offset (if r.ord then s.planeOf r.sid.toNat else x.port.toNat) 1)

/-- Requests to peers with packets under way, each with its hall and queue. -/
def State.peerRequests (s : State) : List (Nat × Nat × Request) :=
  s.halls.flatMap fun (h, x) => x.queues.flatMap fun (q, l) => (l.filter fun r => !r.sent.isEmpty).map fun r => (h, q, r)

/-- The row of a request whose packet is the first that the peer has not acknowledged; the turn says how many it has, by
request. -/
def Request.unacknowledged (r : Request) (acked : List (Nat × Nat)) : Nat :=
  min ((acked.find? (·.1 = r.id)).map (·.2) |>.getD 0) (r.sent.length - 1)

/-- PORT_DOWN: ordered streams of the port move to the next plane; with no port left, what is under way fails (25:R366). -/
def execPortDown (s : State) : Host.Outcome State Fault Refusal :=
  let k := s.choice.port.toNat
  let s' := s.updPort k fun p => { p with up := false }
  .next (
    if (upTo 32).any fun i => (s'.port i).transports then s'
    else each s'.peerRequests s' fun s (h, q, r) => s.failLink h q r (r.unacknowledged s.choice.acked) k 3)

end Sys2Proof.Machine
end

