-- ==== Sys2Proof/Machine/Integrity.lean ====
section
/-! DEFINITION. DRAM errors, the vertical bus, power and heat, fatal conditions, and the resets (27:R377 to R383, R385,
R389, R390, R393; 28:R394, R395). -/

namespace Sys2Proof.Machine

/-! ## Codewords (27:R377 to R379) -/

/-- A corrected codeword: logged, and owed a conditional write-back. -/
def State.corrected (s : State) (h finder syndrome offset : Nat) : State :=
  (s.logArray h 0 finder syndrome offset).updHall h fun x =>
    { x with writeBacks := x.writeBacks ++ [{ sector := hallAddr h offset / 32, poison := false }] }

/-- The data that an uncorrectable codeword returns: what the spec leaves open (log entry 8). -/
def State.garble (s : State) (pa : Nat) : State :=
  (each (upTo 4) s fun s i => s.writeMem (pa / 32 * 32 + 8 * i) 8 (Config.freeWord s.fresh (41 + i)).toNat).useFree

/-- A journal entry that has become uncorrectable is rewritten while its command is live (27:R386). -/
def State.mendJournal (s : State) (pa : Nat) : State :=
  if pa < journalBase ∨ journalBase + 64 * journalSize ≤ pa then s
  else
    match tget s.cp.journal ((pa - journalBase) / 64) with
    | some e => if (tget s.cp.live e.seq).isSome then s.putEntry e else s
    | none => s

/-- An uncorrectable codeword: logged, raised, poisoned, and owed its rewriting. -/
def State.uncorrectable (s : State) (node : Option NodeRef) (h finder syndrome offset : Nat) : State :=
  let pa := hallAddr h offset
  let bits := aelBits s.now 1 finder syndrome offset % 2 ^ 64
  let s := s.logArray h 1 finder syndrome offset
  let s := (s.garble pa).setSectorPoison pa true
  let s := s.updHall h fun x => { x with writeBacks := x.writeBacks ++ [{ sector := pa / 32, poison := true }] }
  (s.mendJournal pa).raiseMemory node h syndrome pa bits

/-- The syndrome of a poisoned codeword, and those that R383 gives a codeword in error. -/
def poisonSyndrome : Nat := 0x3FF
def syndromeOk (n : Nat) : Bool := decide (1 ≤ n) && decide (n ≤ 0x3FE)

/-- What the die reports of a codeword that it cannot correct. One that the syndrome of the poison marker stands for, a double
error among them, reads as poisoned and is neither logged nor raised (27:R377 to R379). -/
def State.badCodeword (s : State) (node : Option NodeRef) (h finder syndrome offset : Nat) : State :=
  let pa := hallAddr h offset
  if s.sectorPoisoned pa then s
  else if syndrome = poisonSyndrome then (s.garble pa).setSectorPoison pa true
  else if syndromeOk syndrome then s.uncorrectable node h finder syndrome offset
  else s

/-- CONDITIONAL_WRITE_BACK: it stands unless a write has reached the sector (27:R379). It is a transfer of its channel, behind
one that is retried (27:R380; 28:R395). While the DRAM is in self-refresh, after a fatal condition, nothing reaches it
(27:R385). -/
def execConditionalWriteBack (s : State) : Host.Outcome State Fault Refusal :=
  let h := s.choice.hall.toNat
  let k := s.choice.k
  .next (match (s.hall h).writeBacks[k]? with
    | none => s
    | some w =>
      if s.cp.fatal || (tgetD (s.hall h).channels {} (w.sector * 32 / 2 ^ 12 % 16)).xfer.isSome then s
      else
        let s := s.updHall h fun x => { x with writeBacks := ldel x.writeBacks k }
        if w.stale || !w.poison then s else s.setSectorPoison (w.sector * 32) true)

/-- PATROL_SCRUB: the scrubber reads the codeword at an offset; a poisoned one and one whose line is dirty in the L2 are passed
over (27:R377, R379), and in self-refresh every one (27:R385). -/
def execPatrolScrub (s : State) : Host.Outcome State Fault Refusal :=
  let x := s.choice
  let h := x.hall.toNat
  let o := x.offset / 32 * 32
  let n := x.syndrome.toNat
  let l := hallAddr h o / 256
  let sent : Bool := match (tgetD (s.hall h).channels {} (o / 2 ^ 12 % 16)).xfer with | some y => y.write && y.lines.contains l | none => false
  let dirty := tgetD (s.hall h).home false l || sent
  .next (
    if s.cp.fatal || 0xC00000000 ≤ o || dirty || s.sectorPoisoned (hallAddr h o) then s
    else if x.ok then (if syndromeOk n then s.corrected h finderScrub n o else s)
    else s.badCodeword none h finderScrub n o)

/-! ## The vertical bus (27:R380 to R382; 28:R394, R395) -/

def State.channel (s : State) (h k : Nat) : Channel := tgetD (s.hall h).channels {} k

def State.setChannel (s : State) (h k : Nat) (c : Channel) : State :=
  s.updHall h fun x => { x with channels := tset x.channels {} k c }

/-- The node whose access a turn's transfer belongs to; `ok` says that there is one. -/
def finderOf (x : Choice) : Option NodeRef := if x.ok then some (nodeRef x.cell.toNat x.ver x.node x.ctx x.iter) else none

/-- Cycles after the first miss of a transfer in which others join it. -/
def joinCycles : Nat := 16

/-- The read that a channel makes next: the lines of one block that missed within 16 cycles of its oldest miss, in ascending
order; none before that time is over (28:R394). -/
def Channel.nextRead (c : Channel) (now : Nat) : Option Xfer :=
  match c.misses with
  | [] => none
  | (l, t) :: _ =>
    if now ≤ t + joinCycles then none
    else
      let block := l / 16
      let lines := (c.misses.filter fun m => m.1 / 16 = block && decide (m.2 ≤ t + joinCycles)).map (·.1)
      some { write := false, block := block % 2 ^ 24, lines := sortBy id lines.dedup }

/-- The write that a turn names: lines of the block that are dirty in the L2. -/
def State.nextWrite (s : State) (v : VbusTransfer) : Option Xfer :=
  let first := hallAddr v.hall (v.block * 4096) / 256
  let lines := sortBy id ((v.lines.map fun i => first + i % 16).dedup.filter fun l => tgetD (s.hall v.hall).home false l)
  if lines.isEmpty then none else some { write := true, block := v.block, lines := lines }

/-- The transfer that ends in this turn: the one that the channel repeats, before every other, or else the next one
(27:R380). -/
def State.transferOf (s : State) (v : VbusTransfer) : Option Xfer :=
  let c := s.channel v.hall v.channel
  let x := match c.xfer with
    | some x => some x
    | none => if v.write then s.nextWrite v else c.nextRead s.now
  x.filter fun x => x.write = v.write && x.block = v.block

/-- Failures of an attempt by beat and parity group: a line takes a beat of 64 groups, or over a folded channel two beats
of the groups of the half that is kept (01:R24; 27:R381; 28:R394). -/
def vbusFailures (fails : List (Nat × Nat)) (lines : Nat) (folded : Option Bool) : List (Nat × Nat) :=
  fails.filter fun y =>
    match folded with
    | none => decide (y.1 < lines) && decide (y.2 < 64)
    | some upper => decide (y.1 < 2 * lines) && decide (y.2 < 64) && decide (32 ≤ y.2) = upper

/-- A transfer that is accepted. The codewords of its lines that the die reports are logged and handled, but for lines that
the L2 has come to hold, which keep its contents; then the L2 holds the lines of a read (27:R379; 28:R394, R395). -/
def State.acceptTransfer (s : State) (x : Choice) (y : Xfer) : State :=
  let v := x.vbus
  let f := if v.write then finderMerge else finderRead
  let takes (o : Nat) : Bool :=
    let l := hallAddr v.hall o / 256
    y.lines.contains l && (v.write || (tget (s.hall v.hall).home l).isNone)
  let s := each (v.corrected.filter fun z => takes z.1 && syndromeOk z.2) s fun s z => s.corrected v.hall f z.2 (z.1 / 32 * 32)
  let s := each (v.uncorrectable.filter fun z => takes z.1) s fun s z => s.badCodeword (finderOf x) v.hall f z.2 (z.1 / 32 * 32)
  if v.write then s
  else
    each y.lines s fun s l =>
      if (tget (s.hall v.hall).home l).isSome then s
      else (s.roomL2 v.hall (2 * l)).updHall v.hall fun h => { h with home := tput h.home l false }

/-- The channel goes offline (27:R382): what waits for it is answered with poison. -/
def State.takeOffline (s : State) (x : Choice) (retries group beat : Nat) : State :=
  let v := x.vbus
  let o := v.block * 4096
  let c := s.channel v.hall v.channel
  let bits := belBits s.now 2 v.write retries group beat o % 2 ^ 64
  let s := s.logBus v.hall 2 v.write retries group beat o
  let s := (s.chronoLog v.hall 0x0E bits).setChannel v.hall v.channel { c with offline := true, xfer := none, misses := [] }
  s.raiseOffline (finderOf x) (hallAddr v.hall o)

/-- The channel folds to the half without the first failing group of the last attempt; the transfer is made again over
it, before every other (27:R381). -/
def State.fold (s : State) (x : Choice) (y : Xfer) (retries group beat : Nat) : State :=
  let v := x.vbus
  let o := v.block * 4096
  let c := s.channel v.hall v.channel
  let bits := belBits s.now 1 v.write retries group beat o % 2 ^ 64
  let s := s.logBus v.hall 1 v.write retries group beat o
  (s.chronoLog v.hall 0x0E bits).setChannel v.hall v.channel
    { c with folded := some (decide (group < 32)), xfer := some { y with failed := 0, beat := 0, group := 0 } }

/-- The lines of a write stand in the write buffer: the L2 holds them clean (27:R380). -/
def State.writeSent (s : State) (v : VbusTransfer) (y : Xfer) : State :=
  if v.write && y.failed = 0 then
    s.updHall v.hall fun h => { h with home := y.lines.foldl (fun t l => tput t l false) h.home }
  else s

/-- Retries of a transfer. -/
def retryLimit : Nat := 3

/-- VBUS_TRANSFER_RECEIVED: an attempt of a transfer ends; in self-refresh there is none (27:R385). -/
def execVbusTransferReceived (s : State) : Host.Outcome State Fault Refusal :=
  let x := s.choice
  let v := x.vbus
  let c := s.channel v.hall v.channel
  .next (
    if s.cp.fatal ∨ 8 ≤ v.hall ∨ 16 ≤ v.channel ∨ v.block % 16 ≠ v.channel ∨ 0xC00000 ≤ v.block ∨ c.offline then s
    else
      match s.transferOf v with
      | none => s
      | some y =>
        let c := { c with misses := if v.write then c.misses else c.misses.filter fun m => !y.lines.contains m.1 }
        let s := (s.setChannel v.hall v.channel { c with xfer := none }).writeSent v y
        match vbusFailures v.fails y.lines.length c.folded with
        | [] =>
          let s := if y.failed = 0 then s else s.logBus v.hall 0 v.write y.failed y.group y.beat (v.block * 4096)
          s.acceptTransfer x y
        | (beat, group) :: _ =>
          let first := if y.failed = 0 then beat else y.beat
          if y.failed < retryLimit then
            s.setChannel v.hall v.channel { c with xfer := some { y with failed := y.failed + 1, beat := first, group := group } }
          else if c.folded.isSome then s.takeOffline x retryLimit group first
          else s.fold x y retryLimit group first)

/-! ## Errors in banks and caches (27:R375, R376, R378) -/

/-- A row with one 64-bit word replaced by what the spec leaves open (log entry 8). -/
def garbleRow (fresh w : Nat) (r : Row) : Row := setRowWord r w (Config.freeWord fresh 46)

/-- Dirty bytes of one 64-bit word replaced by what the spec leaves open. -/
def garbleDirty (fresh w : Nat) (d : Tbl (Byte × Nat)) : Tbl (Byte × Nat) :=
  d.map fun e => if e.1 / 8 = w then (e.1, BitVec.ofNat 8 ((Config.freeWord fresh 46).toNat / 256 ^ (e.1 % 8)), e.2.2) else e

/-- An uncorrectable error in word `w` of a cache's line: the sectors of `which` are poisoned, as copies and as dirty bytes. -/
def Line.erred (l : Line) (fresh w : Nat) (which : BitVec 4) : Line :=
  { base := l.base.map (garbleRow fresh w)
    dirty := garbleDirty fresh w l.dirty
    poison := if l.base.isSome then l.poison ||| which else 0
    bad := l.bad ||| (sectorMask fun k => which.getLsbD k && touches l.dirty k) }

/-- The line of the L1 that lies in a row of it: the rows are taken in the order of the cell's lines, where the spec gives none
(DESIGN CHOICE, log entry 27). -/
def Cell.lineInRow (c : Cell) (row : Nat) : Option Nat :=
  if c.isL1Row row then (c.l1[row - (448 - 64 * c.split.toNat)]?).map (·.1) else none

/-- An uncorrectable error of a bank row: its poison bit is set, and the line of the L1 that lies in it is poisoned. -/
def State.bankError (s : State) (cell row : Nat) (syndrome : BitVec 10) (finder : Option NodeRef) : State :=
  if 512 ≤ row || (s.cell cell).rowPoisoned row then s
  else
    let w := (Config.freeWord s.fresh 47).toNat % 16
    let s' := s.updCell cell fun c =>
      let c := (c.setRow row (garbleRow s.fresh w (c.row row))).setRowPoison row true
      match c.lineInRow row with
      | some ln => { c with l1 := tset c.l1 {} ln ((tgetD c.l1 {} ln).erred s.fresh w 0xF) }
      | none => c
    s'.useFree.raiseArray finder (hallOf cell) syndrome.toNat (row * 128)

/-- An uncorrectable error of a 64-bit word of a gallery cache's line: the line is poisoned. -/
def State.galleryError (s : State) (g word : Nat) (syndrome : BitVec 10) (finder : Option NodeRef) : State :=
  let ln := word / 16
  let l := s.gcLine g ln
  if l = {} || l.poison = 0xF || decide (256 ≤ g) then s
  else (s.setGc g ln (l.erred s.fresh (word % 16) 0xF)).useFree.raiseArray finder (g / 32) syndrome.toNat (word * 8)

/-- An uncorrectable error of a sector in a hall's L2: the sector is poisoned in that copy, which is the memory's own in the home
hall (01:R25). An entry of the journal is rewritten while its command is live (27:R386). -/
def State.l2Error (s : State) (h sector : Nat) (syndrome : BitVec 10) (finder : Option NodeRef) : State :=
  let pa := 32 * sector
  let ln := pa / 128
  let k := sector % 4
  if isHole pa || isHost pa || (s.l2Poison h ln).getLsbD k then s
  else if homeHall ln = h then
    (((s.garble pa).setSectorPoison pa true).mendJournal pa).raiseArray finder h syndrome.toNat pa
  else
    let l := s.l2Line h ln
    if l = {} then s
    else
      let l := (upTo 4).foldl (fun l i => l.erred (s.fresh + i) (4 * k + i) (BitVec.twoPow 4 k)) l
      ((upTo 4).foldl (fun s _ => s.useFree) (s.setL2 h ln l)).raiseArray finder h syndrome.toNat pa

end Sys2Proof.Machine
end

