-- ==== Sys2Proof/Machine/Reset.lean ====
section
/-! DEFINITION. Power, heat and fatal conditions, and the resets with their bring-up (27:R385, R389, R390, R393). -/

namespace Sys2Proof.Machine

/-! ## Power and heat (27:R393) -/

/-- Cycles of a power window. -/
def windowCycles : Nat := 2 ^ 20

/-- 105 °C and 115 °C in sixteenths. -/
def hotLimit : Nat := 1680
def tripLimit : Nat := 1840

/-- A sensor forces the highest level. -/
def State.hot (s : State) : Bool := s.halls.any fun x => decide (hotLimit ≤ x.2.temp.toNat)

/-- THROTTLE_WINDOW: a window ends with the module's average draw; the halls' draws stand in `bytes`, two a hall. -/
def execThrottleWindow (s : State) : Host.Outcome State Fault Refusal :=
  let x := s.cp
  let draw := s.choice.reading.toNat
  let level :=
    if s.hot then 3
    else if x.powerLimit < draw then min 3 (x.level + 1)
    else if draw * 100 < x.powerLimit * 95 then x.level - 1
    else x.level
  .next (
    if s.now < x.windowEnd then s
    else
      let s : State :=
        { s with cp := { x with level := level, powerNow := s.choice.reading, windowEnd := x.windowEnd + windowCycles } }
      each (upTo 8) s fun s h => s.updHall h fun y => { y with power := BitVec.ofNat 16 (bytesAt s.choice.bytes (2 * h) 2) })

/-- TEMPERATURE_TRIP: a reading of a hall's hottest sensor. -/
def execTemperatureTrip (s : State) : Host.Outcome State Fault Refusal :=
  let n := s.choice.reading.toNat
  let s := s.updHall s.choice.hall.toNat fun h => { h with temp := s.choice.reading }
  .next (
    if n < hotLimit then s
    else
      let s : State := { s with cp := { s.cp with level := 3 } }
      if n < tripLimit then s else s.fatal 3)

/-- 20 L/min in hundredths. -/
def flowMin : Nat := 2000

/-- COOLANT_FLOW_LOSS: a reading of the flow, and of the inlet's temperature. -/
def execCoolantFlowLoss (s : State) : Host.Outcome State Fault Refusal :=
  let s' : State := { s with cp := { s.cp with flow := s.choice.reading, inlet := s.choice.amount.truncate 16 } }
  .next (if s.choice.reading.toNat < flowMin then s'.fatal 4 else s')

/-! ## Fatal conditions (27:R385) -/

def execInterHallLinkDown (s : State) : Host.Outcome State Fault Refusal := .next (s.fatal 2)

def execAgentStateUncorrectable (s : State) : Host.Outcome State Fault Refusal := .next (s.fatal 5)

def execHallAgentFirmwareFault (s : State) : Host.Outcome State Fault Refusal := .next (s.fatal 6)

/-! ## Bring-up (27:R389) -/

/-- The ROM takes a slot's image: its signature verifies, and its version is not below the fused minimum (27:R387). -/
def Cp.takes (x : Cp) (k : Bool) : Bool := (x.slot k).verified && decide (x.fuseMin ≤ (x.slot k).secver)

/-- Step 1: the active slot, or the other one where the image does not verify. -/
def Cp.boot (x : Cp) : Cp :=
  if x.takes x.running then { x with bootStat := 6 }
  else if x.takes (!x.running) then { x with running := !x.running, bootStat := 6 }
  else { x with bootStat := 0x81 }

/-- Whether bring-up goes beyond step 1. -/
def Cp.booted (x : Cp) : Bool := x.bootStat = 6

/-- Step 2: training. A channel with a failing group folds; one that fails at both halves is offline. Channel numbers from
16 stand for a group in the lower half that fails. -/
def trained (one both : List (Nat × Nat)) (h : Nat) : Tbl Channel :=
  (upTo 16).foldl (fun t k =>
    if both.contains (h, k) then tput t k { folded := some false, offline := true }
    else if one.contains (h, k) then tput t k { folded := some false }
    else if one.contains (h, k + 16) then tput t k { folded := some true }
    else t) []

/-- Step 4: the halls' chronographs write their RESET entries (27:R384). -/
def State.resetEntries (s : State) (warm : Bool) : State :=
  each (upTo 8) s fun s h => s.chrono h 0x10 (pack [⟨192, 64, s.now⟩, ⟨96, 1, warm.toNat⟩])

/-- The model's own fields and what lies outside the module go through a reset. -/
def State.outside (s new : State) : State :=
  { new with hostMem := s.hostMem, focus := s.focus, slot := s.slot, turns := s.turns, choice := s.choice, fresh := s.fresh }

/-- COLD_RESET: every step of bring-up, from zeroed DRAM: training writes its FOLD entries before the halls write theirs of the
RESET, and without a firmware image that verifies only the host link comes up. The halves that fail training, and the number that
management sets before the links come up, are the turn's. -/
def execColdReset (s : State) : Host.Outcome State Fault Refusal :=
  let x := s.choice
  let fresh : Cp := {}
  let cp : Cp :=
    { fresh with
      fw0 := s.cp.fw0, fw1 := s.cp.fw1, running := s.cp.running, fuseMin := s.cp.fuseMin, attestIndex := s.cp.attestIndex
      moduleNum := x.peer }
  let cp := cp.boot
  let hall (h : Nat) : Hall :=
    if cp.booted then { channels := trained x.failOne x.failBoth h } else { enabled := false }
  let log (s : State) (y : Nat × Nat) (outcome : Nat) : State :=
    if 8 ≤ y.1 ∨ 32 ≤ y.2 then s
    else
      (s.logBus y.1 outcome false 0 0 0 (y.2 % 16 * 4096)).chronoLog y.1 0x0E
        (belBits 0 outcome false 0 0 0 (y.2 % 16 * 4096) % 2 ^ 64)
  let base : State :=
    { halls := (upTo 8).map fun h => (h, hall h), cp := cp
      ports := if cp.booted then [] else (upTo 32).map fun k => (k, { up := false }) }
  let new :=
    if !cp.booted then base
    else
      let s := each x.failBoth (each (x.failOne.filter fun y => !x.failBoth.contains y) base fun s y => log s y 1) fun s y => log s y 2
      s.resetEntries false
  .next ((s.outside new).mirrorWords)

/-- The commands that are neither complete nor failed end with 0x030A, be it in a COMPLETION entry (25:R363; 27:R386, R390). -/
def State.failCommands (s : State) : State := each s.cp.live s fun s e => s.finishSeq e.1 e.2.2 Status.warmReset

/-- A hall after a warm reset: logs, chronograph, channels and readings are kept (27:R390). -/
def Hall.warm (h : Hall) (on : Bool) : Hall :=
  { chrono := h.chrono, chronoHead := h.chronoHead, frozen := h.frozen, lastFatal := h.lastFatal
    ael := h.ael, aelHead := h.aelHead, aelCorrected := h.aelCorrected, aelUncorrectable := h.aelUncorrectable
    bel := h.bel, belHead := h.belHead, belRetried := h.belRetried, belFolds := h.belFolds, belOffline := h.belOffline
    channels := h.channels.map fun c => (c.1, { c.2 with xfer := none, misses := [] })
    temp := h.temp, power := h.power, enabled := on }

/-- WARM_RESET: contexts, placements and vestibules are freed, cells return to their reset values, commands under way
fail; DRAM, clocks, logs and the journal stay. Then messages that waited are accepted. ACCSAT is cleared with the other
registers of the cells (27:R390), although 03:R51 names the cold reset alone (DESIGN CHOICE, log entry 27). -/
def execWarmReset (s : State) : Host.Outcome State Fault Refusal :=
  let s := s.failCommands.takeQueued
  let cp : Cp :=
    { s.cp with
      paused := none, activation := none, pending := [], held := [], fatal := false, powerLimit := 4800, replayRun := 0 }
  let cp := cp.boot
  let new : State :=
    { s with
      cp := cp, cells := [], net := [], cfgs := [], ctxs := [], memDeferred := [], memAnswered := [], groups := [], hops := []
      hostStores := []
      halls := s.halls.map fun x => (x.1, x.2.warm cp.booted)
      ports := if cp.booted then s.ports.map fun x => (x.1, { up := x.2.up }) else (upTo 32).map fun k => (k, { up := false }) }
  let new := (if cp.booted then new.resetEntries true else new).mirrorWords
  .next (new.acceptWaiting new.cp.waiting.length)

end Sys2Proof.Machine
end

