-- ==== Sys2Proof/Machine/Dispatch.lean ====
section
/-! DEFINITION. Every instruction and every event to its meaning, one arm a constructor. -/

namespace Sys2Proof.Machine

/-- What a step of the module does. -/
def exec (i : Instr) (s : State) : Host.Outcome State Fault Refusal :=
  match i with
  | .add sd sa sb => Sys2Proof.Machine.execAdd sd sa sb s
  | .sub sd sa sb => Sys2Proof.Machine.execSub sd sa sb s
  | .mul sd sa sb => Sys2Proof.Machine.execMul sd sa sb s
  | .mulh sd sa sb => Sys2Proof.Machine.execMulh sd sa sb s
  | .mulhu sd sa sb => Sys2Proof.Machine.execMulhu sd sa sb s
  | .divu sd sa sb => Sys2Proof.Machine.execDivu sd sa sb s
  | .remu sd sa sb => Sys2Proof.Machine.execRemu sd sa sb s
  | .and sd sa sb => Sys2Proof.Machine.execAnd sd sa sb s
  | .or sd sa sb => Sys2Proof.Machine.execOr sd sa sb s
  | .xor sd sa sb => Sys2Proof.Machine.execXor sd sa sb s
  | .andn sd sa sb => Sys2Proof.Machine.execAndn sd sa sb s
  | .shl sd sa sb => Sys2Proof.Machine.execShl sd sa sb s
  | .shr sd sa sb => Sys2Proof.Machine.execShr sd sa sb s
  | .sra sd sa sb => Sys2Proof.Machine.execSra sd sa sb s
  | .rot sd sa sb => Sys2Proof.Machine.execRot sd sa sb s
  | .min sd sa sb => Sys2Proof.Machine.execMin sd sa sb s
  | .max sd sa sb => Sys2Proof.Machine.execMax sd sa sb s
  | .minu sd sa sb => Sys2Proof.Machine.execMinu sd sa sb s
  | .maxu sd sa sb => Sys2Proof.Machine.execMaxu sd sa sb s
  | .clz sd sa => Sys2Proof.Machine.execClz sd sa s
  | .popc sd sa => Sys2Proof.Machine.execPopc sd sa s
  | .bfx sd sa pos len1 => Sys2Proof.Machine.execBfx sd sa pos len1 s
  | .bfi sd sa sb pos len1 => Sys2Proof.Machine.execBfi sd sa sb pos len1 s
  | .madd sd sa sb sc => Sys2Proof.Machine.execMadd sd sa sb sc s
  | .addr sd sa sb sh => Sys2Proof.Machine.execAddr sd sa sb sh s
  | .cmp cc pd sa sb => Sys2Proof.Machine.execCmp cc pd sa sb s
  | .sel sd ps sa sb => Sys2Proof.Machine.execSel sd ps sa sb s
  | .addi sd sa imm => Sys2Proof.Machine.execAddi sd sa imm s
  | .muli sd sa imm => Sys2Proof.Machine.execMuli sd sa imm s
  | .andi sd sa imm => Sys2Proof.Machine.execAndi sd sa imm s
  | .ori sd sa imm => Sys2Proof.Machine.execOri sd sa imm s
  | .xori sd sa imm => Sys2Proof.Machine.execXori sd sa imm s
  | .shli sd sa n => Sys2Proof.Machine.execShli sd sa n s
  | .shri sd sa n => Sys2Proof.Machine.execShri sd sa n s
  | .srai sd sa n => Sys2Proof.Machine.execSrai sd sa n s
  | .roti sd sa n => Sys2Proof.Machine.execRoti sd sa n s
  | .mini sd sa imm => Sys2Proof.Machine.execMini sd sa imm s
  | .maxi sd sa imm => Sys2Proof.Machine.execMaxi sd sa imm s
  | .cmpi cc pd sa imm => Sys2Proof.Machine.execCmpi cc pd sa imm s
  | .li sd imm => Sys2Proof.Machine.execLi sd imm s
  | .lih sd sa imm => Sys2Proof.Machine.execLih sd sa imm s
  | .br target => Sys2Proof.Machine.execBr target s
  | .brp pt ptn target => Sys2Proof.Machine.execBrp pt ptn target s
  | .call target => Sys2Proof.Machine.execCall target s
  | .loop sa target limit => Sys2Proof.Machine.execLoop sa target limit s
  | .pand pd pe pf => Sys2Proof.Machine.execPand pd pe pf s
  | .por pd pe pf => Sys2Proof.Machine.execPor pd pe pf s
  | .pxor pd pe pf => Sys2Proof.Machine.execPxor pd pe pf s
  | .pnot pd pe => Sys2Proof.Machine.execPnot pd pe s
  | .pset pd v => Sys2Proof.Machine.execPset pd v s
  | .padd o => Sys2Proof.Machine.execPadd o s
  | .psub o => Sys2Proof.Machine.execPsub o s
  | .pmul o => Sys2Proof.Machine.execPmul o s
  | .pmac o => Sys2Proof.Machine.execPmac o s
  | .pneg o => Sys2Proof.Machine.execPneg o s
  | .pabs o => Sys2Proof.Machine.execPabs o s
  | .pmin o => Sys2Proof.Machine.execPmin o s
  | .pmax o => Sys2Proof.Machine.execPmax o s
  | .pmov o => Sys2Proof.Machine.execPmov o s
  | .pshl o sh => Sys2Proof.Machine.execPshl o sh s
  | .pshr o sh => Sys2Proof.Machine.execPshr o sh s
  | .psra o sh => Sys2Proof.Machine.execPsra o sh s
  | .pcmp cc qd ba bb pp mask => Sys2Proof.Machine.execPcmp cc qd ba bb pp mask s
  | .psel bd ba bb pp n1 qs => Sys2Proof.Machine.execPsel bd ba bb pp n1 qs s
  | .qand qd qm qk => Sys2Proof.Machine.execQand qd qm qk s
  | .qor qd qm qk => Sys2Proof.Machine.execQor qd qm qk s
  | .qxor qd qm qk => Sys2Proof.Machine.execQxor qd qm qk s
  | .qandn qd qm qk => Sys2Proof.Machine.execQandn qd qm qk s
  | .qnot qd qm => Sys2Proof.Machine.execQnot qd qm s
  | .qld qd ba mask => Sys2Proof.Machine.execQld qd ba mask s
  | .qst bd qd mask => Sys2Proof.Machine.execQst bd qd mask s
  | .plz o => Sys2Proof.Machine.execPlz o s
  | .ppopc o => Sys2Proof.Machine.execPpopc o s
  | .ptrimLane o => Sys2Proof.Machine.execPtrimLane o s
  | .ptrimBlk o => Sys2Proof.Machine.execPtrimBlk o s
  | .preduce op o g => Sys2Proof.Machine.execPreduce op o g s
  | .pbcast o lane => Sys2Proof.Machine.execPbcast o lane s
  | .plut o => Sys2Proof.Machine.execPlut o s
  | .cex dir o g => Sys2Proof.Machine.execCex dir o g s
  | .cexi dir o g => Sys2Proof.Machine.execCexi dir o g s
  | .pexp2 o f g => Sys2Proof.Machine.execPexp2 o f g s
  | .plog2 o f g => Sys2Proof.Machine.execPlog2 o f g s
  | .cvt bd ba pp fmtd fmts mask => Sys2Proof.Machine.execCvt bd ba pp fmtd fmts mask s
  | .cvts bd sa pp fmtd fmts mask => Sys2Proof.Machine.execCvts bd sa pp fmtd fmts mask s
  | .prdTrunc bd ba pp fmts k1 mask => Sys2Proof.Machine.execPrdTrunc bd ba pp fmts k1 mask s
  | .prdRound bd ba pp fmts k1 mask => Sys2Proof.Machine.execPrdRound bd ba pp fmts k1 mask s
  | .pwr bd ba pp fmtd k1 mask => Sys2Proof.Machine.execPwr bd ba pp fmtd k1 mask s
  | .quant keep bd ba pp fmtd fmts tsel mask => Sys2Proof.Machine.execQuant keep bd ba pp fmtd fmts tsel mask s
  | .sclMax bd ba pp fmtd fmts tsel mask => Sys2Proof.Machine.execSclMax bd ba pp fmtd fmts tsel mask s
  | .sclGet bd ba fmts mask => Sys2Proof.Machine.execSclGet bd ba fmts mask s
  | .sclPut bd sa fmtd mask => Sys2Proof.Machine.execSclPut bd sa fmtd mask s
  | .deq bd ba pp fmtd fmts mask => Sys2Proof.Machine.execDeq bd ba pp fmtd fmts mask s
  | .lfsrSeed sa => Sys2Proof.Machine.execLfsrSeed sa s
  | .ppset pp sa => Sys2Proof.Machine.execPpset pp sa s
  | .ppget sd pp => Sys2Proof.Machine.execPpget sd pp s
  | .gather pp bt sa => Sys2Proof.Machine.execGather pp bt sa s
  | .mma ad pp a bb hb => Sys2Proof.Machine.execMma ad pp a bb hb s
  | .mmaS1 ad pp a bb sm => Sys2Proof.Machine.execMmaS1 ad pp a bb sm s
  | .mmaS2 ad pp a bb sm => Sys2Proof.Machine.execMmaS2 ad pp a bb sm s
  | .mmaS4 ad pp a bb sm => Sys2Proof.Machine.execMmaS4 ad pp a bb sm s
  | .mmaX ad pp a bb inP inQ hb => Sys2Proof.Machine.execMmaX ad pp a bb inP inQ hb s
  | .accz ad => Sys2Proof.Machine.execAccz ad s
  | .accrd bd ad pp fmt sl sh => Sys2Proof.Machine.execAccrd bd ad pp fmt sl sh s
  | .accaddTile ad src pp => Sys2Proof.Machine.execAccaddTile ad src pp s
  | .accaddRows ad pp ba sl => Sys2Proof.Machine.execAccaddRows ad pp ba sl s
  | .regionCfg sw => Sys2Proof.Machine.execRegionCfg sw s
  | .sweepG v sc => Sys2Proof.Machine.execSweepG v sc s
  | .sweepR v start => Sys2Proof.Machine.execSweepR v start s
  | .optAddc bw bu pp mask => Sys2Proof.Machine.execOptAddc bw bu pp mask s
  | .optSgd bw bg pp sh mask => Sys2Proof.Machine.execOptSgd bw bg pp sh mask s
  | .optMom bw bg pp sm sh mask => Sys2Proof.Machine.execOptMom bw bg pp sm sh mask s
  | .optAdam2 bv bg pp sh mask => Sys2Proof.Machine.execOptAdam2 bv bg pp sh mask s
  | .optEma be bw pp sh mask => Sys2Proof.Machine.execOptEma be bw pp sh mask s
  | .send g op sa pred aux kind => Sys2Proof.Machine.execSend g op sa pred aux kind s
  | .sendn g op => Sys2Proof.Machine.execSendn g op s
  | .steer g hi sa pt aux kind => Sys2Proof.Machine.execSteer g hi sa pt aux kind s
  | .selectP g sd sa sb pt => Sys2Proof.Machine.execSelectP g sd sa sb pt s
  | .selectNN g sd ia ib pt => Sys2Proof.Machine.execSelectNN g sd ia ib pt s
  | .dup g ports sa pred aux kind => Sys2Proof.Machine.execDup g ports sa pred aux kind s
  | .eos g op => Sys2Proof.Machine.execEos g op s
  | .tagget g sd => Sys2Proof.Machine.execTagget g sd s
  | .tagset g sa => Sys2Proof.Machine.execTagset g sa s
  | .loopbIssue g sd op sa pred aux kind => Sys2Proof.Machine.execLoopbIssue g sd op sa pred aux kind s
  | .loopbRetire g sa => Sys2Proof.Machine.execLoopbRetire g sa s
  | .blk g rtag => Sys2Proof.Machine.execBlk g rtag s
  | .unblk g rtag => Sys2Proof.Machine.execUnblk g rtag s
  | .waitt g sa => Sys2Proof.Machine.execWaitt g sa s
  | .waitf g c scope sd sa sb => Sys2Proof.Machine.execWaitf g c scope sd sa sb s
  | .msend g sa sb => Sys2Proof.Machine.execMsend g sa sb s
  | .ld g sd sa size sx => Sys2Proof.Machine.execLd g sd sa size sx s
  | .ldWave g sd sa size sx ws wp wq => Sys2Proof.Machine.execLdWave g sd sa size sx ws wp wq s
  | .st g sa sb size => Sys2Proof.Machine.execSt g sa sb size s
  | .stWave g sa sb size ws wp wq => Sys2Proof.Machine.execStWave g sa sb size ws wp wq s
  | .ldp g sd sa => Sys2Proof.Machine.execLdp g sd sa s
  | .stp g sa sb => Sys2Proof.Machine.execStp g sa sb s
  | .ldpr g sd sa => Sys2Proof.Machine.execLdpr g sd sa s
  | .stpr g sa sb => Sys2Proof.Machine.execStpr g sa sb s
  | .lda g scope sd sa size sx => Sys2Proof.Machine.execLda g scope sd sa size sx s
  | .str g scope sa sb size => Sys2Proof.Machine.execStr g scope sa sb size s
  | .ldaProm g sd sa sb size sx => Sys2Proof.Machine.execLdaProm g sd sa sb size sx s
  | .fence g scope => Sys2Proof.Machine.execFence g scope s
  | .pref g sa => Sys2Proof.Machine.execPref g sa s
  | .l1Inv g sa => Sys2Proof.Machine.execL1Inv g sa s
  | .l1InvAll g => Sys2Proof.Machine.execL1InvAll g s
  | .l1Wb g sa => Sys2Proof.Machine.execL1Wb g sa s
  | .l1WbAll g => Sys2Proof.Machine.execL1WbAll g s
  | .split g sa => Sys2Proof.Machine.execSplit g sa s
  | .aadd g sd sa sb dbl => Sys2Proof.Machine.execAadd g sd sa sb dbl s
  | .amin g sd sa sb dbl => Sys2Proof.Machine.execAmin g sd sa sb dbl s
  | .amax g sd sa sb dbl => Sys2Proof.Machine.execAmax g sd sa sb dbl s
  | .aand g sd sa sb dbl => Sys2Proof.Machine.execAand g sd sa sb dbl s
  | .aor g sd sa sb dbl => Sys2Proof.Machine.execAor g sd sa sb dbl s
  | .axor g sd sa sb dbl => Sys2Proof.Machine.execAxor g sd sa sb dbl s
  | .aswp g sd sa sb dbl => Sys2Proof.Machine.execAswp g sd sa sb dbl s
  | .acas g sd sa sb sc dbl => Sys2Proof.Machine.execAcas g sd sa sb sc dbl s
  | .ainc g sd sa sb dbl => Sys2Proof.Machine.execAinc g sd sa sb dbl s
  | .barArr g sa sb sc bytes bid => Sys2Proof.Machine.execBarArr g sa sb sc bytes bid s
  | .barWait g sa bid => Sys2Proof.Machine.execBarWait g sa bid s
  | .ownflip g reg own => Sys2Proof.Machine.execOwnflip g reg own s
  | .ownqry g sd => Sys2Proof.Machine.execOwnqry g sd s
  | .teDesc g sd sa sb => Sys2Proof.Machine.execTeDesc g sd sa sb s
  | .teCopy g sd sa q => Sys2Proof.Machine.execTeCopy g sd sa q s
  | .teCopyp g sd sa sb q => Sys2Proof.Machine.execTeCopyp g sd sa sb q s
  | .teGather g sd sa q => Sys2Proof.Machine.execTeGather g sd sa q s
  | .teScatter g sd sa q => Sys2Proof.Machine.execTeScatter g sd sa q s
  | .teFill g sd sa sb q => Sys2Proof.Machine.execTeFill g sd sa sb q s
  | .teTranspose g sd sa q => Sys2Proof.Machine.execTeTranspose g sd sa q s
  | .teDecode g sd sa sb sc q => Sys2Proof.Machine.execTeDecode g sd sa sb sc q s
  | .teRemote g sd sa sb q => Sys2Proof.Machine.execTeRemote g sd sa sb q s
  | .teSig g sd sa sb sc q => Sys2Proof.Machine.execTeSig g sd sa sb sc q s
  | .teQuery g sd sa => Sys2Proof.Machine.execTeQuery g sd sa s
  | .teCancel g sd sa => Sys2Proof.Machine.execTeCancel g sd sa s
  | .xlat g port sa sb => Sys2Proof.Machine.execXlat g port sa sb s
  | .mqpush g sa sb => Sys2Proof.Machine.execMqpush g sa sb s
  | .mqpop g sa => Sys2Proof.Machine.execMqpop g sa s
  | .spawn g sd sa sb sc => Sys2Proof.Machine.execSpawn g sd sa sb sc s
  | .trap code sa => Sys2Proof.Machine.execTrap code sa s
  | .mfs sd reg => Sys2Proof.Machine.execMfs sd reg s
  | .mts reg sa => Sys2Proof.Machine.execMts reg sa s
  | .mtsSplit sa => Sys2Proof.Machine.execMtsSplit sa s
  | .mtsLfsrseed sa => Sys2Proof.Machine.execMtsLfsrseed sa s
  | .mtsTrapcause sa => Sys2Proof.Machine.execMtsTrapcause sa s
  | .stop sa => Sys2Proof.Machine.execStop sa s
  | .resume sa => Sys2Proof.Machine.execResume sa s
  | .bkpt code => Sys2Proof.Machine.execBkpt code s
  | .cycrd sd => Sys2Proof.Machine.execCycrd sd s
  | .phcrd sd => Sys2Proof.Machine.execPhcrd sd s
  | .dbg code sa => Sys2Proof.Machine.execDbg code sa s
  | .illegalOp w => Sys2Proof.Machine.execIllegalOp w s
  | .mnop m => Sys2Proof.Machine.execMnop m s
  | .mld m => Sys2Proof.Machine.execMld m s
  | .mst m => Sys2Proof.Machine.execMst m s
  | .maadd m => Sys2Proof.Machine.execMaadd m s
  | .mamin m => Sys2Proof.Machine.execMamin m s
  | .mamax m => Sys2Proof.Machine.execMamax m s
  | .maand m => Sys2Proof.Machine.execMaand m s
  | .maor m => Sys2Proof.Machine.execMaor m s
  | .maxor m => Sys2Proof.Machine.execMaxor m s
  | .mswp m => Sys2Proof.Machine.execMswp m s
  | .minc m => Sys2Proof.Machine.execMinc m s
  | .mprom m => Sys2Proof.Machine.execMprom m s
  | .mpack m => Sys2Proof.Machine.execMpack m s
  | .mstop m => Sys2Proof.Machine.execMstop m s
  | .mresume m => Sys2Proof.Machine.execMresume m s
  | .mcfgwEntry m => Sys2Proof.Machine.execMcfgwEntry m s
  | .mcfgwPair m => Sys2Proof.Machine.execMcfgwPair m s
  | .mrdy m => Sys2Proof.Machine.execMrdy m s
  | .msgMqpush m => Sys2Proof.Machine.execMsgMqpush m s
  | .msgMqpop m => Sys2Proof.Machine.execMsgMqpop m s
  | .mspawn m => Sys2Proof.Machine.execMspawn m s
  | .mown m => Sys2Proof.Machine.execMown m s
  | .mbar m => Sys2Proof.Machine.execMbar m s
  | .mtrap m => Sys2Proof.Machine.execMtrap m s
  | .mreply m => Sys2Proof.Machine.execMreply m s
  | .loadcfg c => Sys2Proof.Machine.execLoadcfg c s
  | .launch c => Sys2Proof.Machine.execLaunch c s
  | .stopCommand c => Sys2Proof.Machine.execStopCommand c s
  | .resumeContext c => Sys2Proof.Machine.execResumeContext c s
  | .resumeHeldObject c => Sys2Proof.Machine.execResumeHeldObject c s
  | .exit c => Sys2Proof.Machine.execExit c s
  | .write c => Sys2Proof.Machine.execWrite c s
  | .read c => Sys2Proof.Machine.execRead c s
  | .bankWrite c => Sys2Proof.Machine.execBankWrite c s
  | .bankRead c => Sys2Proof.Machine.execBankRead c s
  | .managementRead c => Sys2Proof.Machine.execManagementRead c s
  | .managementWrite c => Sys2Proof.Machine.execManagementWrite c s
  | .chronoCtlUnfreeze c => Sys2Proof.Machine.execChronoCtlUnfreeze c s
  | .bindRoot c => Sys2Proof.Machine.execBindRoot c s
  | .bindFaultRing c => Sys2Proof.Machine.execBindFaultRing c s
  | .bindMeridianWindow c => Sys2Proof.Machine.execBindMeridianWindow c s
  | .bindHoldThreshold c => Sys2Proof.Machine.execBindHoldThreshold c s
  | .bindHandlerEntry c => Sys2Proof.Machine.execBindHandlerEntry c s
  | .bindPeerAdmission c => Sys2Proof.Machine.execBindPeerAdmission c s
  | .bindCaptureStream c => Sys2Proof.Machine.execBindCaptureStream c s
  | .bindReserved c => Sys2Proof.Machine.execBindReserved c s
  | .fwstage c => Sys2Proof.Machine.execFwstage c s
  | .fwactivate c => Sys2Proof.Machine.execFwactivate c s
  | .query c => Sys2Proof.Machine.execQuery c s
  | .attest c => Sys2Proof.Machine.execAttest c s
  | .unknownCommand c => Sys2Proof.Machine.execUnknownCommand c s
  | .nop => Sys2Proof.Machine.execNop s
  | .endFiring => Sys2Proof.Machine.execEndFiring s
  | .ret => Sys2Proof.Machine.execRet s
  | .latchClr => Sys2Proof.Machine.execLatchClr s
  | .regionCfgOff => Sys2Proof.Machine.execRegionCfgOff s
  | .eret => Sys2Proof.Machine.execEret s
  | .tokenArrival => Sys2Proof.Machine.execTokenArrival s
  | .firing => Sys2Proof.Machine.execFiring s
  | .creditReturn => Sys2Proof.Machine.execCreditReturn s
  | .matchFull => Sys2Proof.Machine.execMatchFull s
  | .spillFull => Sys2Proof.Machine.execSpillFull s
  | .phase => Sys2Proof.Machine.execPhase s
  | .ctrlStop => Sys2Proof.Machine.execCtrlStop s
  | .ctrlResume => Sys2Proof.Machine.execCtrlResume s
  | .ctrlEos => Sys2Proof.Machine.execCtrlEos s
  | .ctrlSweep => Sys2Proof.Machine.execCtrlSweep s
  | .regionOperationStart => Sys2Proof.Machine.execRegionOperationStart s
  | .regionCompletion => Sys2Proof.Machine.execRegionCompletion s
  | .barrierArrive => Sys2Proof.Machine.execBarrierArrive s
  | .paddrToken => Sys2Proof.Machine.execPaddrToken s
  | .packExpansion => Sys2Proof.Machine.execPackExpansion s
  | .kindDrop => Sys2Proof.Machine.execKindDrop s
  | .retirementArrival => Sys2Proof.Machine.execRetirementArrival s
  | .waitfReread => Sys2Proof.Machine.execWaitfReread s
  | .waittWake => Sys2Proof.Machine.execWaittWake s
  | .waveOperation => Sys2Proof.Machine.execWaveOperation s
  | .presenceStoreAtHome => Sys2Proof.Machine.execPresenceStoreAtHome s
  | .presenceLoadAtHome => Sys2Proof.Machine.execPresenceLoadAtHome s
  | .agentPromotionLookup => Sys2Proof.Machine.execAgentPromotionLookup s
  | .promotionAccept => Sys2Proof.Machine.execPromotionAccept s
  | .promotionComplete => Sys2Proof.Machine.execPromotionComplete s
  | .eagerPromotionComplete => Sys2Proof.Machine.execEagerPromotionComplete s
  | .engineRequestStart => Sys2Proof.Machine.execEngineRequestStart s
  | .engineRequestComplete => Sys2Proof.Machine.execEngineRequestComplete s
  | .decodeChunk => Sys2Proof.Machine.execDecodeChunk s
  | .walkComplete => Sys2Proof.Machine.execWalkComplete s
  | .loaderPass => Sys2Proof.Machine.execLoaderPass s
  | .storerPass => Sys2Proof.Machine.execStorerPass s
  | .passComplete => Sys2Proof.Machine.execPassComplete s
  | .mqpopServe => Sys2Proof.Machine.execMqpopServe s
  | .schedulerTimer => Sys2Proof.Machine.execSchedulerTimer s
  | .epochClose => Sys2Proof.Machine.execEpochClose s
  | .cellSave => Sys2Proof.Machine.execCellSave s
  | .agentStopDelivery => Sys2Proof.Machine.execAgentStopDelivery s
  | .drainDeadline => Sys2Proof.Machine.execDrainDeadline s
  | .scanComplete => Sys2Proof.Machine.execScanComplete s
  | .holdThreshold => Sys2Proof.Machine.execHoldThreshold s
  | .contextExit => Sys2Proof.Machine.execContextExit s
  | .contextIdReissue => Sys2Proof.Machine.execContextIdReissue s
  | .fwactivateTimeout => Sys2Proof.Machine.execFwactivateTimeout s
  | .flitCrcError => Sys2Proof.Machine.execFlitCrcError s
  | .fabricHopCrcError => Sys2Proof.Machine.execFabricHopCrcError s
  | .captureFrame => Sys2Proof.Machine.execCaptureFrame s
  | .captureDelivery => Sys2Proof.Machine.execCaptureDelivery s
  | .ptpEventFrame => Sys2Proof.Machine.execPtpEventFrame s
  | .remotePutArrival => Sys2Proof.Machine.execRemotePutArrival s
  | .remoteSignalArrival => Sys2Proof.Machine.execRemoteSignalArrival s
  | .uudPacket => Sys2Proof.Machine.execUudPacket s
  | .packetTimeout => Sys2Proof.Machine.execPacketTimeout s
  | .portDown => Sys2Proof.Machine.execPortDown s
  | .vbusTransferReceived => Sys2Proof.Machine.execVbusTransferReceived s
  | .conditionalWriteBack => Sys2Proof.Machine.execConditionalWriteBack s
  | .patrolScrub => Sys2Proof.Machine.execPatrolScrub s
  | .throttleWindow => Sys2Proof.Machine.execThrottleWindow s
  | .temperatureTrip => Sys2Proof.Machine.execTemperatureTrip s
  | .coolantFlowLoss => Sys2Proof.Machine.execCoolantFlowLoss s
  | .interHallLinkDown => Sys2Proof.Machine.execInterHallLinkDown s
  | .coldReset => Sys2Proof.Machine.execColdReset s
  | .warmReset => Sys2Proof.Machine.execWarmReset s
  | .memoryOperationReturn => Sys2Proof.Machine.execMemoryOperationReturn s
  | .inFlightInstructionComplete => Sys2Proof.Machine.execInFlightInstructionComplete s
  | .hostAcknowledgement => Sys2Proof.Machine.execHostAcknowledgement s
  | .activationComplete => Sys2Proof.Machine.execActivationComplete s
  | .hallAgentFirmwareFault => Sys2Proof.Machine.execHallAgentFirmwareFault s
  | .agentStateUncorrectable => Sys2Proof.Machine.execAgentStateUncorrectable s

end Sys2Proof.Machine
end

