-- ==== Sys2Proof/Machine/Turns.lean ====
section
/-! DEFINITION. Which agent moves next and what its move is (log entry 1): the turns that stand in the state, and
without one the issue of the cell at the focus, or else the clock. -/

namespace Sys2Proof.Machine

/-- A move: an instruction or event to execute, or the state after a move that is none of the table's rows. -/
inductive Todo where
  | run (i : Instr) (s : State)
  | done (s : State)

/-- The event that a packet is at its destination (05:R62, 09:R154, 19:R306). -/
def Packet.event (p : Packet) : Option Instr :=
  match p.body with
  | .token t _ | .extToken t _ _ _ =>
    match t.route with
    | .channel => some .tokenArrival
    | .kindDrop => some .kindDrop
    | .paddr => some .paddrToken
    | .pack => some .packExpansion
    | .resume => some .ctrlResume
    | .sweep => some .ctrlSweep
    | .barrier => some .barrierArrive
  | .msg m _ req => if req = some .reserved then none else msgInstr m
  | .sweep _ _ _ _ => some .ctrlSweep
  | .regionStart _ _ _ _ => some .regionOperationStart
  | .credit _ => some .creditReturn
  | .retire _ _ _ _ => some .retirementArrival
  | .presStore _ _ _ _ => some .presenceStoreAtHome
  | .presLoad _ _ _ => some .presenceLoadAtHome
  | .promLookup _ => some .agentPromotionLookup

/-- A message that is none of R156's, or whose bit [64] is 1, is dropped with a BADMSG entry (09:R156). -/
def State.dropBad (s : State) (n : Nat) : State :=
  match s.net[n]? with
  | some ⟨_, _, .msg m _ req⟩ =>
    let s := s.takePacket n
    if req = some .reserved then
      s.chronoAt m.dst.toNat 0x05 (bitsOf (encodeMsg m) 32 96 ||| 2 ^ 32) m.ver
    else s.badMsg m
  | _ => s

/-- The packet at place `n` reaches its destination. -/
def State.deliver (s : State) (n : Nat) : Todo :=
  match s.net[n]? with
  | none => .done s
  | some p =>
    match p.event with
    | some i => .run i { s with choice := { s.choice with n := n } }
    | none => .done (s.dropBad n)

/-- The issue of a cell: round robin, then the word at the pc (05:R67). -/
def State.issueOf (s : State) (cell : Nat) : Option Todo :=
  match s.nextSlot cell with
  | none => none
  | some i =>
    let s := { s with focus := BitVec.ofNat 18 cell, slot := i }
    match s.task s.here with
    | none => none
    | some t =>
      if t.abandoned then some (.done (s.abandonStep t))
      else
        match s.fetch t with
        | .instr i => some (.run i s)
        | .trap s => some (.done s)

/-- The oldest token of a spill ring moves on when its port has a credit (05:R91). -/
def State.ringStep (s : State) (cell : Nat) (ver : Bool) (node port : Nat) : State :=
  match (s.node cell ver node).bind (fun n => (n.outputs[port]?).join) with
  | some e =>
    match e.ringTokens, e.dest with
    | t :: r, .internal dst _ =>
      if e.credits = 0 || (s.cell cell).clockStopped then s
      else
        (s.updNode cell ver node fun n =>
          { n with outputs := lset n.outputs port (·.map fun e => { e with ringTokens := r, credits := e.credits - 1, stalledSince := none }) }).send
          ⟨cell, dst, .token t (some ⟨cell, ver, node, port⟩)⟩
    | _, _ => s
  | none => s

/-- A line leaves a cell's L1, a gallery's cache or a hall's L2, its dirty bytes first (07:R99). -/
def State.evict (s : State) (level place ln : Nat) : State :=
  match level with
  | 1 => s.dropL1 place ln
  | 2 => s.dropGc place ln
  | 3 => (s.dropL2 place ln).dropL2 place (otherHalf ln)
  | _ => s

/-- The oldest message of a cell's outbound queue leaves (17:R256). -/
def State.sendOutbound (s : State) (cell : Nat) : State :=
  match (s.cell cell).outq with
  | p :: r => if (s.cell cell).clockStopped then s else (s.updCell cell fun c => { c with outq := r }).send p
  | [] => s

/-- A cell that has not issued in this cycle and can: the cycle does not end before it has (05:R67). -/
def State.dueCell (s : State) : Option Nat := (s.cells.map (·.1)).find? fun c => (s.nextSlot c).isSome

/-- The end of the cycle, or first the issue of a cell that is due (05:R67). -/
def State.endCycle (s : State) (done : State) : Todo :=
  (s.dueCell.bind s.issueOf).getD (.done done.settleHeld.tickDue)

/-- The next move. -/
def State.todo (s : State) : Todo :=
  match s.turns with
  | [] => (s.issueOf s.focus.toNat).getD (s.endCycle s)
  | t :: r =>
    let s0 := s
    let s := { s with turns := r }
    match t with
    | .issue c => (s.issueOf c.toNat).getD (.done s)
    | .tick => s0.endCycle s
    | .event i c => if (encode i).isSome then .done s else .run i { s with choice := c }
    | .deliver n => s.deliver n
    | .fifo c v r => .done (s.drain c.toNat v r.toNat 17)
    | .ring c v n p => .done (s.ringStep c.toNat v n p)
    | .pack n k f => .done (s.formPack n k f)
    | .halt c v n => .done (s.tryHalt c.toNat v n)
    | .engineRow h q => .done (s.engineTurn h.toNat q.toNat)
    | .table h ctx cfg => .done (s.takeTable h.toNat ctx cfg)
    | .evict level place ln => .done (s.evict level place ln)
    | .outq c => .done (s.sendOutbound c.toNat)
    | .rate w => .done (s.slew w)
    | .phcStep sec ns => .done (s.stepTo sec ns)
    | .ptpPort p on => .done (s.reservePtp p.toNat on)
    | .agentSwitch h => .done (s.agentSwitch h.toNat)
    | .bankError c row syn f => .done (s.bankError c.toNat row syn f)
    | .galleryError g word syn f => .done (s.galleryError g word syn f)
    | .l2Error h sec syn f => .done (s.l2Error h.toNat sec syn f)

/-! ## Placing a word (log entry 2) -/

/-- An instruction word where the cell at the focus fetches next: at the pc of the task that would issue, or for a task
of its own in slot 0 with node 0 of version 0. -/
def State.placeWord (s : State) (w : Word) : State :=
  let s := { s with turns := [] }
  match (s.nextSlot s.focus.toNat).bind (fun i => tget s.cell0.tasks i) with
  | some t => s.updVersion s.focus.toNat t.ver fun v => { v with code := tput v.code t.pc.toNat w }
  | none =>
    s.updCell0 fun c =>
      { c with
        v0 := { c.v0 with state := .live, nodes := [{}], code := tput c.v0.code 0 w }
        tasks := [(0, {})], issuedAt := none, issueStopped := false, clockStopped := false }

/-- A MSG word as the packet that arrives next, a command message as the one that the CP takes next. -/
def State.place (s : State) (nbits w : Nat) : State :=
  if nbits = 64 then s.placeWord (BitVec.ofNat 64 w)
  else if nbits = 128 then
    let arrive (m : Msg) (req : Option MsgReq) : State :=
      { s with net := s.net ++ [⟨s.focus.toNat, m.dst.toNat, .msg m 0 req⟩], turns := [.deliver s.net.length] }
    match msgOf w with
    | some m => arrive m none
    | none =>
      match msgOf (w - 2 ^ 64) with
      | some m => arrive m (some .reserved)
      | none => s
  else { s with turns := [.event (decodeCmd w) {}] }

end Sys2Proof.Machine
end

