-- ==== Sys2Proof/Machine/Step.lean ====
section
/-! DEFINITION. One step of the module, and where a word stands that the next step runs. -/

namespace Sys2Proof.Machine

/-- One step: the next move of the agents, executed. -/
def step (s : State) : Host.Outcome State Fault Refusal :=
  match s.todo with
  | .run i s => exec i s
  | .done s => .next s

/-- The state with the words of an instruction, message or command placed where the next step takes them. -/
def State.withFetchWord (s : State) (nbits w : Nat) : State := s.place nbits w

end Sys2Proof.Machine
end

