-- ==== Sys2Proof/Safety.lean ====
section
/-! DEFINITION. What counts as a well-formed state: the canonical form of the memories, which every step keeps. -/

namespace Sys2Proof.Machine

/-- The canonical form of a memory: addresses strictly rise, and no byte is listed that reads the same unlisted. -/
def Memory.wf (m : List Host.Cell) : Bool := tsorted m && tlean memDefault m

/-- The module's memories have their canonical form. -/
def State.wf (s : State) : Bool := Memory.wf s.mem && Memory.wf s.hostMem

/-- A step that goes on. -/
def State.goesOn (s : State) : Prop := ∃ t, step s = .next t

end Sys2Proof.Machine
end

