-- ==== Sys2Proof/Certificates/Slice0/Obligations.lean ====
section
/-! DEFINITION. The statements about the model. Each is named `Obligations.<Name>`; the vocabulary they share stands
first, under `Claims`. -/

namespace Sys2Proof.Claims

open Sys2Proof.Machine

/-! ## Shared vocabulary -/

/-- A source names a poisoned in-token (05:R71). -/
def poisonedSource (t : Task) : Spec → Bool
  | .s _ => false
  | .inp i => (t.inTok i).poison

/-- What a source gives: s0 reads 0, an in-specifier its token's payload (09:R146). -/
def sourceValue (t : Task) : Spec → Word
  | .s r => if r = 0 then 0 else tgetD t.regs 0 r.toNat
  | .inp i => (t.inTok i).payload

/-- The task after an instruction of one scalar result: sd holds the value unless it is s0, every other scalar is
unchanged, the taint takes that of the sources read, the result is readable after its latency and not before that of an
earlier write, and nothing else of the task changes (11:R165 to R167). -/
def ScalarResult (now : Nat) (t u : Task) (sd : BitVec 5) (srcs : List Spec) (lat : Nat) (v : Word) : Prop :=
  u.reg sd = (if sd = 0 then 0 else v)
  ∧ (∀ r, r ≠ sd → u.reg r = t.reg r)
  ∧ (∀ r, tgetD u.ready 0 r = if r = sd.toNat ∧ sd ≠ 0 then max (now + lat) (tgetD t.ready 0 r) else tgetD t.ready 0 r)
  ∧ u = { t with regs := u.regs, ready := u.ready, taint := t.taint || srcs.any (poisonedSource t) }

/-- In every state the instruction completes for the task at the focus with this one scalar result, and the task goes
on after one cycle. -/
def Computes (i : Instr) (sd : BitVec 5) (srcs : List Spec) (lat : Nat) (f : Task → Word) : Prop :=
  ∀ (s : State) (t : Task), s.task s.here = some t →
    ∃ u, exec i s = .next (s.complete u) ∧ ScalarResult s.now t u sd srcs lat (f t)

/-- The task after an instruction that writes predicate pd: p0 discards the write, every other predicate is unchanged,
and nothing else of the task changes but the taint of the sources read (09:R151, 11:R165). -/
def PredResult (t u : Task) (pd : BitVec 3) (srcs : List Spec) (v : Bool) : Prop :=
  u.pred pd = (if pd = 0 then true else v)
  ∧ (∀ p, p ≠ pd → u.pred p = t.pred p)
  ∧ u = { t with preds := u.preds, taint := t.taint || srcs.any (poisonedSource t) }

/-- In every state the instruction completes for the task at the focus with this one predicate. -/
def Decides (i : Instr) (pd : BitVec 3) (srcs : List Spec) (f : Task → Bool) : Prop :=
  ∀ (s : State) (t : Task), s.task s.here = some t →
    ∃ u, exec i s = .next (s.complete u) ∧ PredResult t u pd srcs (f t)

end Sys2Proof.Claims

section

open Sys2Proof Sys2Proof.Machine Sys2Proof.Claims

/-! ## Classes SR, SI and BR -/

/-- 11:R168: addition, subtraction and the logical operations, a and b taken as unsigned integers and the result
stored mod 2^64. -/
def Sys2Proof.Claims.ScalarAddSubLogic : Prop :=
  ∀ (sd : BitVec 5) (sa sb : Spec),
    Computes (.add sd sa sb) sd [sa, sb] 1
      (fun t => BitVec.ofNat 64 ((sourceValue t sa).toNat + (sourceValue t sb).toNat))
    ∧ Computes (.sub sd sa sb) sd [sa, sb] 1
      (fun t => BitVec.ofInt 64 ((sourceValue t sa).toNat - (sourceValue t sb).toNat))
    ∧ Computes (.and sd sa sb) sd [sa, sb] 1 (fun t => sourceValue t sa &&& sourceValue t sb)
    ∧ Computes (.or sd sa sb) sd [sa, sb] 1 (fun t => sourceValue t sa ||| sourceValue t sb)
    ∧ Computes (.xor sd sa sb) sd [sa, sb] 1 (fun t => sourceValue t sa ^^^ sourceValue t sb)
    ∧ Computes (.andn sd sa sb) sd [sa, sb] 1 (fun t => sourceValue t sa &&& ~~~(sourceValue t sb))

/-- 11:R168, R171: the products, signed and unsigned, with their latency of 3, and ADDR. -/
def Sys2Proof.Claims.ScalarProducts : Prop :=
  ∀ (sd : BitVec 5) (sa sb sc : Spec) (sh : BitVec 4),
    Computes (.mul sd sa sb) sd [sa, sb] 3
      (fun t => BitVec.ofNat 64 ((sourceValue t sa).toNat * (sourceValue t sb).toNat))
    ∧ Computes (.mulh sd sa sb) sd [sa, sb] 3
      (fun t => BitVec.ofInt 64 ((sourceValue t sa).toInt * (sourceValue t sb).toInt / 2 ^ 64))
    ∧ Computes (.mulhu sd sa sb) sd [sa, sb] 3
      (fun t => BitVec.ofNat 64 ((sourceValue t sa).toNat * (sourceValue t sb).toNat / 2 ^ 64))
    ∧ Computes (.madd sd sa sb sc) sd [sa, sb, sc] 3
      (fun t => BitVec.ofNat 64 ((sourceValue t sa).toNat * (sourceValue t sb).toNat + (sourceValue t sc).toNat))
    ∧ Computes (.addr sd sa sb sh) sd [sa, sb] 1
      (fun t => BitVec.ofNat 64 ((sourceValue t sa).toNat + (sourceValue t sb).toNat * 2 ^ sh.toNat))

/-- 11:R168: shifts by b[5:0], the left rotation, and the four minima and maxima. -/
def Sys2Proof.Claims.ScalarShiftsMinMax : Prop :=
  ∀ (sd : BitVec 5) (sa sb : Spec),
    Computes (.shl sd sa sb) sd [sa, sb] 1
      (fun t => BitVec.ofNat 64 ((sourceValue t sa).toNat * 2 ^ ((sourceValue t sb).toNat % 64)))
    ∧ Computes (.shr sd sa sb) sd [sa, sb] 1
      (fun t => BitVec.ofNat 64 ((sourceValue t sa).toNat / 2 ^ ((sourceValue t sb).toNat % 64)))
    ∧ Computes (.sra sd sa sb) sd [sa, sb] 1
      (fun t => BitVec.ofInt 64 ((sourceValue t sa).toInt / 2 ^ ((sourceValue t sb).toNat % 64)))
    ∧ Computes (.rot sd sa sb) sd [sa, sb] 1
      (fun t => let n := (sourceValue t sb).toNat % 64
        BitVec.ofNat 64 ((sourceValue t sa).toNat * 2 ^ n + (sourceValue t sa).toNat / 2 ^ (64 - n)))
    ∧ Computes (.min sd sa sb) sd [sa, sb] 1
      (fun t => BitVec.ofInt 64 (Min.min (sourceValue t sa).toInt (sourceValue t sb).toInt))
    ∧ Computes (.max sd sa sb) sd [sa, sb] 1
      (fun t => BitVec.ofInt 64 (Max.max (sourceValue t sa).toInt (sourceValue t sb).toInt))
    ∧ Computes (.minu sd sa sb) sd [sa, sb] 1
      (fun t => BitVec.ofNat 64 (Min.min (sourceValue t sa).toNat (sourceValue t sb).toNat))
    ∧ Computes (.maxu sd sa sb) sd [sa, sb] 1
      (fun t => BitVec.ofNat 64 (Max.max (sourceValue t sa).toNat (sourceValue t sb).toNat))

/-- 11:R172, R173: counts of bits, bit fields that lie within the word, and SEL, which reads both sources. -/
def Sys2Proof.Claims.ScalarBitsSelect : Prop :=
  ∀ (sd : BitVec 5) (sa sb : Spec) (pos len1 : BitVec 6) (ps : BitVec 3),
    Computes (.clz sd sa) sd [sa] 1
      (fun t => let a := (sourceValue t sa).toNat
        BitVec.ofNat 64 (if a = 0 then 64 else 63 - Nat.log2 a))
    ∧ Computes (.popc sd sa) sd [sa] 1
      (fun t => BitVec.ofNat 64 ((List.range 64).countP fun j => (sourceValue t sa).getLsbD j))
    ∧ Computes (.bfx sd sa pos len1) sd [sa] 1
      (fun t => BitVec.ofNat 64 ((sourceValue t sa).toNat / 2 ^ pos.toNat % 2 ^ (len1.toNat + 1)))
    ∧ Computes (.bfi sd sa sb pos len1) sd [sa, sb] 1
      (fun t => let m : Word := BitVec.ofNat 64 ((2 ^ (len1.toNat + 1) - 1) * 2 ^ pos.toNat)
        (sourceValue t sb &&& ~~~m) ||| ((sourceValue t sa <<< pos.toNat) &&& m))
    ∧ Computes (.sel sd ps sa sb) sd [sa, sb] 1
      (fun t => if t.pred ps then sourceValue t sa else sourceValue t sb)

/-- 11:R169, R174: the immediate forms, the immediate taken as SignExtend(imm, 32); LIH takes it unsigned. -/
def Sys2Proof.Claims.ScalarImmediates : Prop :=
  ∀ (sd : BitVec 5) (sa : Spec) (imm : BitVec 32) (n : BitVec 6),
    let i : Word := BitVec.ofInt 64 imm.toInt
    Computes (.addi sd sa imm) sd [sa] 1 (fun t => sourceValue t sa + i)
    ∧ Computes (.muli sd sa imm) sd [sa] 3 (fun t => sourceValue t sa * i)
    ∧ Computes (.andi sd sa imm) sd [sa] 1 (fun t => sourceValue t sa &&& i)
    ∧ Computes (.ori sd sa imm) sd [sa] 1 (fun t => sourceValue t sa ||| i)
    ∧ Computes (.xori sd sa imm) sd [sa] 1 (fun t => sourceValue t sa ^^^ i)
    ∧ Computes (.shli sd sa n) sd [sa] 1 (fun t => BitVec.ofNat 64 ((sourceValue t sa).toNat * 2 ^ n.toNat))
    ∧ Computes (.shri sd sa n) sd [sa] 1 (fun t => BitVec.ofNat 64 ((sourceValue t sa).toNat / 2 ^ n.toNat))
    ∧ Computes (.srai sd sa n) sd [sa] 1 (fun t => BitVec.ofInt 64 ((sourceValue t sa).toInt / 2 ^ n.toNat))
    ∧ Computes (.roti sd sa n) sd [sa] 1 (fun t => BitVec.ofNat 64
        ((sourceValue t sa).toNat * 2 ^ n.toNat + (sourceValue t sa).toNat / 2 ^ (64 - n.toNat)))
    ∧ Computes (.mini sd sa imm) sd [sa] 1 (fun t => BitVec.ofInt 64 (Min.min (sourceValue t sa).toInt imm.toInt))
    ∧ Computes (.maxi sd sa imm) sd [sa] 1 (fun t => BitVec.ofInt 64 (Max.max (sourceValue t sa).toInt imm.toInt))
    ∧ Computes (.li sd imm) sd [] 1 (fun _ => i)
    ∧ Computes (.lih sd sa imm) sd [sa] 1
        (fun t => BitVec.ofNat 64 (imm.toNat * 2 ^ 32 + (sourceValue t sa).toNat % 2 ^ 32))

/-- 11:R170, R167: DIVU and REMU with a divisor and a free divider give quotient and remainder after 34 cycles and hold
the cell's divider for 32 cycles; a zero divisor raises ARITH with the instruction's index and the dividend, whatever
the divider does; a busy divider leaves the task waiting with its registers as they were. -/
def Obligations.Division : Prop :=
  ∀ (s : State) (t : Task) (sd : BitVec 5) (sa sb : Spec), s.task s.here = some t →
    let a := (sourceValue t sa).toNat
    let b := (sourceValue t sb).toNat
    let busy := s.cell0.flights.any fun f => f.unit_ = .divider && decide (s.now < f.until_)
    let held := s.updCell0 fun c => { c with flights := ⟨.divider, s.now + 32, [], []⟩ :: c.flights }
    let tainted := { t with taint := t.taint || [sa, sb].any (poisonedSource t) }
    (b ≠ 0 → busy = false →
      (∃ u, exec (.divu sd sa sb) s = .next (held.complete u)
        ∧ ScalarResult s.now t u sd [sa, sb] 34 (BitVec.ofNat 64 (a / b)))
      ∧ ∃ u, exec (.remu sd sa sb) s = .next (held.complete u)
        ∧ ScalarResult s.now t u sd [sa, sb] 34 (BitVec.ofNat 64 (a - b * (a / b))))
    ∧ (b = 0 →
      exec (.divu sd sa sb) s = .next (s.raise tainted 0x30 t.pc.toNat a)
      ∧ exec (.remu sd sa sb) s = .next (s.raise tainted 0x30 t.pc.toNat a))
    ∧ (b ≠ 0 → busy = true →
      exec (.divu sd sa sb) s = .next (s.retry t none)
      ∧ exec (.remu sd sa sb) s = .next (s.retry t none))

end

namespace Sys2Proof.Claims

open Sys2Proof.Machine

end Sys2Proof.Claims

section

open Sys2Proof Sys2Proof.Machine Sys2Proof.Claims

/-- 11:R173, R148: CMP and CMPI decide each condition on the operands as signed or unsigned integers. -/
def Sys2Proof.Claims.CompareConditions : Prop :=
  ∀ (cc : Cond) (pd : BitVec 3) (sa sb : Spec) (imm : BitVec 32),
    let holds (a b : Word) : Bool := match cc with
      | .eq => decide (a.toNat = b.toNat)
      | .ne => decide (a.toNat ≠ b.toNat)
      | .lt => decide (a.toInt < b.toInt)
      | .ge => decide (b.toInt ≤ a.toInt)
      | .ltu => decide (a.toNat < b.toNat)
      | .geu => decide (b.toNat ≤ a.toNat)
      | .gt => decide (b.toInt < a.toInt)
      | .le => decide (a.toInt ≤ b.toInt)
      | .gtu => decide (b.toNat < a.toNat)
      | .leu => decide (a.toNat ≤ b.toNat)
      | .tst => (List.range 64).any fun j => a.getLsbD j && b.getLsbD j
    Decides (.cmp cc pd sa sb) pd [sa, sb] (fun t => holds (sourceValue t sa) (sourceValue t sb))
    ∧ Decides (.cmpi cc pd sa imm) pd [sa] (fun t => holds (sourceValue t sa) (BitVec.ofInt 64 imm.toInt))

/-- 11:R175: the predicate instructions; p0 reads true and discards a write. -/
def Sys2Proof.Claims.PredicateInstructions : Prop :=
  ∀ (pd pe pf : BitVec 3) (v : Bool),
    let p (t : Task) (k : BitVec 3) : Bool := k = 0 || t.preds.getLsbD k.toNat
    Decides (.pand pd pe pf) pd [] (fun t => p t pe && p t pf)
    ∧ Decides (.por pd pe pf) pd [] (fun t => p t pe || p t pf)
    ∧ Decides (.pxor pd pe pf) pd [] (fun t => p t pe != p t pf)
    ∧ Decides (.pnot pd pe) pd [] (fun t => !p t pe)
    ∧ Decides (.pset pd v) pd [] (fun _ => v)

/-- 11:R176, R179: NOP and an untaken BRP fall through; BR and a taken BRP go to their target after two cycles and pop,
from the top, the loops of the present call depth that do not hold it; nothing else of the task or the module changes. -/
def Sys2Proof.Claims.Branches : Prop :=
  ∀ (s : State) (t : Task) (x : BitVec 9) (pt : BitVec 3) (ptn : Bool), s.task s.here = some t →
    let taken : State := s.issued
      { t with
        pc := x.zeroExtend 10
        loops := t.loops.dropWhile fun l =>
          decide (l.depth = t.calls.length) && !(decide (l.start ≤ x.toNat) && decide (x.toNat ≤ l.last)) } 2
    exec .nop s = .next (s.complete t)
    ∧ exec (.br x) s = .next taken
    ∧ exec (.brp pt ptn x) s = .next (if xor (t.pred pt) ptn then taken else s.complete t)

/-- 11:R177, R179: CALL pushes the next index, counts in CALLMAX and goes to its target; at the end of the loop that
governs, or with eight indices on the stack, it raises PROTECTION. RET returns to the index pushed last and drops the
loops deeper than what is left of the stack; with none it raises PROTECTION. -/
def Sys2Proof.Claims.CallsAndReturns : Prop :=
  ∀ (s : State) (t : Task) (x : BitVec 9), s.task s.here = some t →
    let atEnd (e : Nat) : Prop :=
      ∃ l r, t.loops = l :: r ∧ t.pc.toNat = l.last ∧ t.calls.length = l.depth ∧ e = l.last
    ((∀ e, ¬ atEnd e) → t.calls.length < 8 →
      exec (.call x) s = .next ((s.updCell0 fun c =>
          { c with callMax := BitVec.ofNat 4 (Nat.max c.callMax.toNat (t.calls.length + 1)) }).issued
        { t with pc := x.zeroExtend 10, calls := (t.pc.toNat + 1) :: t.calls } 2))
    ∧ (∀ e, atEnd e → exec (.call x) s = .next (s.raise t 0x09 t.pc.toNat e))
    ∧ ((∀ e, ¬ atEnd e) → t.calls.length = 8 → exec (.call x) s = .next (s.raise t 0x09 t.pc.toNat x.toNat))
    ∧ (∀ r rest, t.calls = r :: rest → r ≤ 511 →
      exec .ret s = .next (s.issued
        { t with
          pc := BitVec.ofNat 10 r, calls := rest
          loops := t.loops.filter fun l => decide (l.depth ≤ rest.length) } 2))
    ∧ (t.calls = [] → exec .ret s = .next (s.raise t 0x09 t.pc.toNat 0))

/-- 11:R178, R179: LOOP with a count pushes its body and enters it; a count of 0 is a taken branch past the body; a
target past the limit, a place at the end of the loop that governs, and a full stack stop it, in this order. -/
def Sys2Proof.Claims.LoopEntry : Prop :=
  ∀ (s : State) (t : Task) (sa : Spec) (x y : BitVec 9), s.task s.here = some t →
    let n := (sourceValue t sa).toNat
    let u := { t with taint := t.taint || poisonedSource t sa }
    let atEnd (e : Nat) : Prop :=
      ∃ l r, t.loops = l :: r ∧ t.pc.toNat = l.last ∧ t.calls.length = l.depth ∧ e = l.last
    (x.toNat ≤ y.toNat → (∀ e, ¬ atEnd e) → 0 < n → t.loops.length < 2 →
      exec (.loop sa x y) s = .next (s.issued
        { u with pc := x.zeroExtend 10, loops := ⟨x.toNat, y.toNat, n, t.calls.length⟩ :: t.loops } 1))
    ∧ (x.toNat ≤ y.toNat → (∀ e, ¬ atEnd e) → n = 0 →
      exec (.loop sa x y) s = .next (s.issued
        { u with
          pc := BitVec.ofNat 10 (y.toNat + 1)
          loops := t.loops.dropWhile fun l =>
            decide (l.depth = t.calls.length) && !(decide (l.start ≤ y.toNat + 1) && decide (y.toNat + 1 ≤ l.last)) } 2))
    ∧ (y.toNat < x.toNat → exec (.loop sa x y) s = .next (s.raise t 0x02 t.pc.toNat (s.curWord t).toNat))
    ∧ (∀ e, x.toNat ≤ y.toNat → atEnd e → exec (.loop sa x y) s = .next (s.raise t 0x09 t.pc.toNat e))
    ∧ (x.toNat ≤ y.toNat → (∀ e, ¬ atEnd e) → 0 < n → 2 ≤ t.loops.length →
      exec (.loop sa x y) s = .next (s.raise u 0x09 t.pc.toNat x.toNat))

/-- 11:R179: the word at the end of the innermost loop, at the loop's call depth, steps the loop: back to its start
while iterations remain, else past its end with the loop popped; elsewhere, and at another call depth, control goes to
the next word. Said of NOP, whose only effect it is. -/
def Sys2Proof.Claims.LoopBackEdge : Prop :=
  ∀ (s : State) (t : Task), s.task s.here = some t →
    (∀ l r, t.loops = l :: r → t.pc.toNat = l.last → t.calls.length = l.depth → 1 < l.remaining →
      exec .nop s = .next (s.issued
        { t with pc := BitVec.ofNat 10 l.start, loops := { l with remaining := l.remaining - 1 } :: r } 1))
    ∧ (∀ l r, t.loops = l :: r → t.pc.toNat = l.last → t.calls.length = l.depth → l.remaining ≤ 1 →
      exec .nop s = .next (s.issued { t with pc := BitVec.ofNat 10 (l.last + 1), loops := r } 1))
    ∧ ((∀ l r, t.loops = l :: r → t.pc.toNat ≠ l.last ∨ t.calls.length ≠ l.depth) →
      exec .nop s = .next (s.issued { t with pc := BitVec.ofNat 10 (t.pc.toNat + 1) } 1))

/-- 11:R180: END of a compute task that has sent on every port in use frees its slot and sends nothing; the other
slots, and the module outside the cell, keep what they hold. -/
def Sys2Proof.Claims.EndOfFiring : Prop :=
  ∀ (s : State) (t : Task) (n : Node), s.task s.here = some t → s.node s.focus.toNat t.ver t.node = some n →
    n.role = .compute → n.stopAgent = false → s.cell0.readyFirings = [] → s.cell0.ops = [] →
    (∀ p e, n.outputs[p]? = some (some e) → p ∈ t.sent) →
    ∃ s', exec .endFiring s = .next s' ∧ s'.task s.here = none
      ∧ (∀ k, k ≠ s.slot → s'.task ⟨s.focus.toNat, k⟩ = s.task ⟨s.focus.toNat, k⟩)
      ∧ s'.net = s.net ∧ s'.mem = s.mem ∧ ∀ c, c ≠ s.focus.toNat → s'.cell c = s.cell c

/-- 23:R343, R344, 19:R302: a task fault. An armed task that is not in its handler records cause, address and
information and the index of the word (after TRAP and BKPT of the next), is marked, goes to its node's handler and issues
nothing for four cycles; its scalars, predicates, stacks, send tag and taint stay. Any other task records the same, is
tainted and will be abandoned. Nothing else of the module changes but the cell's record of its issue. -/
def Sys2Proof.Claims.TrapEntry : Prop :=
  ∀ (s : State) (t : Task) (n : Node) (cause addr info : Nat), s.node s.focus.toNat t.ver t.node = some n →
    let fault : Task := { t with
      trapCause := BitVec.ofNat 8 cause, trapAddr := BitVec.ofNat 64 addr, trapInfo := BitVec.ofNat 64 info
      wait := .none, waitAt := none, done := [], grant := none, taken := none }
    let after (u : Task) : State :=
      s.updCell0 fun c => { c with tasks := tput c.tasks s.slot u, rr := s.slot, issuedAt := some s.now }
    (t.armed = true → t.marked = false →
      s.raise t cause addr info = after { fault with
        epc := if cause = 0x3E ∨ cause = 0x3F then BitVec.ofNat 10 (t.pc.toNat + 1) else t.pc
        marked := true, pc := BitVec.ofNat 10 n.handler, nextIssue := s.now + 4 })
    ∧ (t.armed = false ∨ t.marked = true →
      s.raise t cause addr info = after { fault with taint := true, abandoned := true, nextIssue := s.now + 1 })

/-- 09:R149, 23:R342: a word that is no instruction raises ILLEGAL_OP, with its index as the address and the word as the
information. -/
def Sys2Proof.Claims.IllegalWords : Prop :=
  ∀ (s : State) (t : Task) (w : Word), s.task s.here = some t →
    exec (.illegalOp w) s = .next (s.raise t 0x01 t.pc.toNat w.toNat)

/-- 19:R302: ERET of a marked task with an EPC in the store goes there and clears the mark; with an EPC past the store
it raises ILLEGAL_OP naming index 511; without a mark it raises PROTECTION. -/
def Sys2Proof.Claims.ReturnFromTrap : Prop :=
  ∀ (s : State) (t : Task), s.task s.here = some t →
    (t.marked = true → t.epc.toNat ≤ 511 → exec .eret s = .next (s.issued { t with marked := false, pc := t.epc } 1))
    ∧ (t.marked = true → 512 ≤ t.epc.toNat →
      ∃ u info, u.marked = true ∧ exec .eret s = .next (s.raise u 0x01 511 info))
    ∧ (t.marked = false → exec .eret s = .next (s.raise t 0x09 t.pc.toNat (s.curWord t).toNat))

/-- 09:R152, 19:R299, R300: what MFS reads for each special register, undefined bits as zero, with latency 2. ACCSAT and LFSRSEED wait for array instructions in flight that change them. -/
def Sys2Proof.Claims.SpecialRegisterReads : Prop :=
  ∀ (s : State) (t : Task) (n : Node) (sd : BitVec 5) (r : SReg), s.task s.here = some t →
    s.node s.focus.toNat t.ver t.node = some n →
    let c := s.cell0
    let nat (x : Nat) : Word := BitVec.ofNat 64 x
    let v : Word := match r with
      | .cyc => nat s.now
      | .phcS => nat s.phcS.toNat
      | .phcNs => nat s.phcNs
      | .coord => nat s.focus.toNat
      | .stage => nat t.stage.toNat
      | .ctxid => nat t.ctx.toNat
      | .iter => nat t.iter.toNat
      | .ver => nat t.ver.toNat
      | .calldepth => nat t.calls.length
      | .callmax => nat c.callMax.toNat
      | .split => nat c.split.toNat
      | .lfsrseed => nat c.lfsrSeed.toNat
      | .stall0 => nat n.stall0
      | .stall1 => nat n.stall1
      | .stall2 => nat n.stall2
      | .stall3 => nat n.stall3
      | .promlog => nat (c.log.length % 32 + 32 * c.eagerMark.isSome.toNat + 256 * (c.eager % 256)
          + 2 ^ 16 * (c.served % 2 ^ 16) + 2 ^ 32 * (c.vstall % 2 ^ 32))
      | .accsat => nat c.accSat.toNat
      | .lateCnt => nat c.lateCnt
      | .trapcause => nat t.trapCause.toNat
      | .trapaddr => t.trapAddr
      | .trapinfo => t.trapInfo
      | .epc => nat t.epc.toNat
    (c.flights = [] ∨ (r ≠ .accsat ∧ r ≠ .lfsrseed) →
      ∃ u, exec (.mfs sd r) s = .next (s.complete u) ∧ ScalarResult s.now t u sd [] 2 v)

/-- 09:R152, 19:R299, 23:R343: what MTS writes, of each register the defined bits only; a read-only register raises
PROTECTION and nothing is written; a write to TRAPCAUSE arms the task; a write to LFSRSEED reseeds every lane. -/
def Sys2Proof.Claims.SpecialRegisterWrites : Prop :=
  ∀ (s : State) (t : Task) (sa : Spec) (r : SReg), s.task s.here = some t → s.cell0.flights = [] →
    let v := (sourceValue t sa).toNat
    let u : Task := { t with taint := t.taint || poisonedSource t sa }
    let cell (f : Cell → Cell) : Prop := exec (.mts r sa) s = .next ((s.updCell0 f).complete u)
    let node (f : Node → Node) : Prop := exec (.mts r sa) s = .next ((s.updNode s.focus.toNat t.ver t.node f).complete u)
    let task (x : Task) : Prop := exec (.mts r sa) s = .next (s.complete x)
    (match r with
      | .callmax => cell fun c => { c with callMax := BitVec.ofNat 4 v }
      | .stall0 => node fun x => { x with stall0 := v % 2 ^ 32 }
      | .stall1 => node fun x => { x with stall1 := v % 2 ^ 32 }
      | .stall2 => node fun x => { x with stall2 := v % 2 ^ 32 }
      | .stall3 => node fun x => { x with stall3 := v % 2 ^ 32 }
      | .promlog => cell fun c =>
          { c with vstall := v / 2 ^ 32, served := v / 2 ^ 16 % 2 ^ 16, eager := v / 2 ^ 8 % 2 ^ 8 }
      | .accsat => cell fun c => { c with accSat := BitVec.ofNat 5 v }
      | .lateCnt => cell fun c => { c with lateCnt := v % 2 ^ 32 }
      | .trapaddr => task { u with trapAddr := sourceValue t sa }
      | .trapinfo => task { u with trapInfo := sourceValue t sa }
      | .epc => task { u with epc := BitVec.ofNat 10 v }
      | .split | .lfsrseed | .trapcause => True
      | _ => exec (.mts r sa) s = .next (s.raise t 0x09 t.pc.toNat (s.curWord t).toNat))
    ∧ exec (.mtsTrapcause sa) s = .next (s.complete { u with trapCause := BitVec.ofNat 8 v, armed := true })
    ∧ exec (.mtsLfsrseed sa) s = .next ((s.updCell0 fun c => { c with lfsrSeed := BitVec.ofNat 16 v, lfsr := [] }).complete u)

end

namespace Sys2Proof.Claims

open Sys2Proof.Machine

/-! ## The arrays -/

/-- No scoped load of the task at the focus is outstanding, ahead of which no access of it goes (17:R261). -/
def ScopedLoadsDone (s : State) : Prop :=
  ∀ o ∈ s.cell0.ops, o.slot = s.slot → (∀ sc, o.kind ≠ .load (some sc) none) ∧ ∀ a b, o.kind ≠ .prom a b

/-- No instruction of an array is in flight, no region operation holds the matrix array, and the task waits for no scoped
load. -/
def ArraysFree (s : State) : Prop := s.cell0.flights = [] ∧ s.cell0.regionOp = none ∧ ScopedLoadsDone s

/-- `n` rows from a base. -/
def rowsFrom (base n : Nat) : List Nat := (List.range n).map (base + ·)

/-- Rows that an instruction of a task may use: within the bank, not L1, not an enabled overflow area, owned by CELL
(13:R183). -/
def RowsOpen (s : State) (rows : List Nat) : Prop :=
  ∀ r ∈ rows, r < 512 ∧ s.cell0.isL1Row r = false ∧ (480 ≤ r → s.cell0.overflowOn = false)
    ∧ s.cell0.owner.getLsbD (r / 64) = false

/-- The code of lane j in n planes from a base row, plane 0 the most significant (03:R30, 13:R181). -/
def codeAt (c : Cell) (base n j : Nat) : Nat :=
  (List.range n).foldl (fun a k => 2 * a + ((c.row (base + k)).getLsbD j).toNat) 0

/-- The value of an integer code of w planes: INT (format 0) in two's complement, UINT as it stands (03:R30). -/
def intOf (fmt w code : Nat) : Int := if fmt = 0 ∧ 2 ^ (w - 1) ≤ code then (code : Int) - 2 ^ w else code

/-- `Fit` of 13:R188: the exact value kept in n planes, saturated or wrapped. -/
def fitTo (v : Int) (signed : Bool) (n : Nat) (sat : Bool) : Nat :=
  let lo : Int := if signed then -2 ^ (n - 1) else 0
  let hi : Int := if signed then 2 ^ (n - 1) - 1 else 2 ^ n - 1
  ((if sat then Max.max lo (Min.min v hi) else v) % 2 ^ n).toNat

/-- The lanes that are written (13:R182). -/
def lanesOf (c : Cell) : Option (BitVec 3) → Row
  | some q => tgetD c.q 0 q.toNat
  | none => BitVec.allOnes 1024

def maskRegs : Option (BitVec 3) → List Nat
  | some q => [q.toNat]
  | none => []

/-- The bank rows from bd to bd + n - 1 take the lane values given in the lanes of a mask and keep the other lanes and
every other row; a tainted task poisons the rows it writes, a whole-row write of an untainted one clears their poison; the
bank notes the 8 KiB regions of the rows written, which a save keeps (05:R72, 13:R182, R185, 23:R352). -/
def LanesWritten (c c' : Cell) (bd n : Nat) (mask : Row) (taint : Bool) (val : Nat → Nat) : Prop :=
  (∀ j, j < 1024 → codeAt c' bd n j = if mask.getLsbD j then val j else codeAt c bd n j)
  ∧ (∀ r, r < bd ∨ bd + n ≤ r → c'.row r = c.row r ∧ c'.rowPoisoned r = c.rowPoisoned r)
  ∧ (∀ r, bd ≤ r → r < bd + n →
      c'.rowPoisoned r = if mask = 0 then c.rowPoisoned r else taint || (c.rowPoisoned r && decide (mask ≠ BitVec.allOnes 1024)))
  ∧ ∀ k, k < 8 → c'.written.getLsbD k =
      (c.written.getLsbD k || (decide (mask ≠ 0) && (List.range n).any fun i => decide ((bd + i) / 64 = k)))

/-- The taint that a task has after reading rows and plane registers (05:R71, 13:R185). -/
def taintAfter (c : Cell) (t : Task) (rows qs : List Nat) : Bool :=
  t.taint || rows.any c.rowPoisoned || qs.any fun q => c.qPoison.contains q

/-- An instruction of the lane array that writes bank rows completes with the task given: it holds the array for its
cycles, the lanes are written, the random generators of the lanes that draw step once, ACCSAT is as given, and nothing
else of the module changes but what the issue of any instruction changes. -/
def LaneRun (i : Instr) (s : State) (u : Task) (bd n : Nat) (mask : Row) (draws : Nat → Bool) (cycles : Nat)
    (accSat : BitVec 5) (val : Nat → Nat) : Prop :=
  let c := s.cell0
  ∃ c', exec i s = .next ((s.updCell0 fun _ => c').complete u)
    ∧ LanesWritten c c' bd n mask u.taint val
    ∧ (∀ j, j < 1024 → c'.lfsrAt j = if draws j then (lfsrStep (BitVec.ofNat 16 (c.lfsrAt j))).toNat else c.lfsrAt j)
    ∧ c'.flights.map (fun f => (f.unit_, f.until_)) = [(.lane, s.now + cycles)]
    ∧ c' = { c with
        bank := c'.bank, written := c'.written, bankPoison := c'.bankPoison, lfsr := c'.lfsr, flights := c'.flights, accSat := accSat }

/-- The same for an instruction whose task only takes the taint of what it reads, and that draws in the written lanes
or nowhere. -/
def LaneOp (i : Instr) (s : State) (t : Task) (rows qs : List Nat) (bd n : Nat) (mask : Row) (draws : Bool)
    (cycles : Nat) (val : Nat → Nat) : Prop :=
  LaneRun i s { t with taint := taintAfter s.cell0 t rows qs } bd n mask (fun j => draws && mask.getLsbD j) cycles
    s.cell0.accSat val

/-- An instruction that writes a plane register in the lanes of a mask completes; the other plane registers and the bank
keep what they hold (13:R185, R193). -/
def PlaneRegOp (i : Instr) (s : State) (t : Task) (rows qs : List Nat) (qd : BitVec 3) (mask : Row) (cycles : Nat)
    (val : Nat → Bool) : Prop :=
  let c := s.cell0
  let taint := taintAfter c t rows qs
  ∃ c', exec i s = .next ((s.updCell0 fun _ => c').complete { t with taint := taint })
    ∧ (∀ j, j < 1024 → (c'.qRow qd).getLsbD j = if mask.getLsbD j then val j else (c.qRow qd).getLsbD j)
    ∧ (∀ q, q ≠ qd → c'.qRow q = c.qRow q ∧ (q.toNat ∈ c'.qPoison ↔ q.toNat ∈ c.qPoison))
    ∧ (qd.toNat ∈ c'.qPoison ↔
        if mask = 0 then qd.toNat ∈ c.qPoison
        else taint = true ∨ (qd.toNat ∈ c.qPoison ∧ mask ≠ BitVec.allOnes 1024))
    ∧ c'.flights.map (fun f => (f.unit_, f.until_)) = [(.lane, s.now + cycles)]
    ∧ c' = { c with q := c'.q, qPoison := c'.qPoison, flights := c'.flights }

end Sys2Proof.Claims

section

open Sys2Proof Sys2Proof.Machine Sys2Proof.Claims

/-- 13:R181, R182, R191: the three-operand integer instructions give, in every written lane, the exact result kept by
Fit in n planes, INT where an operand is INT; PMAC adds its product to the destination's old value. -/
def Sys2Proof.Claims.PlaneIntegerThreeOperand : Prop :=
  ∀ (s : State) (t : Task) (o : Pl3), s.task s.here = some t → ArraysFree s →
    let c := s.cell0
    let p := c.pair o.pp
    let n := o.n1.toNat + 1
    let d := o.bd.toNat
    p.fmtA ≤ 1 → p.fmtB ≤ 1 → RowsOpen s (rowsFrom o.ba.toNat p.pa ++ rowsFrom o.bb.toNat p.pb ++ rowsFrom d n) →
    let a (j : Nat) := intOf p.fmtA p.pa (codeAt c o.ba.toNat p.pa j)
    let b (j : Nat) := intOf p.fmtB p.pb (codeAt c o.bb.toNat p.pb j)
    let signed : Bool := decide (p.fmtA = 0) || decide (p.fmtB = 0)
    let src := rowsFrom o.ba.toNat p.pa ++ rowsFrom o.bb.toNat p.pb
    let m := lanesOf c o.mask
    let add := 2 + Nat.max p.pa (Nat.max p.pb n)
    LaneOp (.padd o) s t src (maskRegs o.mask) d n m false add (fun j => fitTo (a j + b j) signed n p.sat)
    ∧ LaneOp (.psub o) s t src (maskRegs o.mask) d n m false add (fun j => fitTo (a j - b j) signed n p.sat)
    ∧ LaneOp (.pmul o) s t src (maskRegs o.mask) d n m false (4 + p.pa * p.pb) (fun j => fitTo (a j * b j) signed n p.sat)
    ∧ LaneOp (.pmin o) s t src (maskRegs o.mask) d n m false add (fun j => fitTo (Min.min (a j) (b j)) signed n p.sat)
    ∧ LaneOp (.pmax o) s t src (maskRegs o.mask) d n m false add (fun j => fitTo (Max.max (a j) (b j)) signed n p.sat)
    ∧ LaneOp (.pmac o) s t (src ++ rowsFrom d n) (maskRegs o.mask) d n m false (4 + p.pa * p.pb + n)
        (fun j => fitTo (intOf (if signed then 0 else 1) n (codeAt c d n j) + a j * b j) signed n p.sat)

/-- 13:R191: the two-operand integer instructions; PSHR takes the code without sign, PSRA with it, and both round by
the pair's mode, drawing once in each written lane in mode SR. -/
def Sys2Proof.Claims.PlaneIntegerTwoOperand : Prop :=
  ∀ (s : State) (t : Task) (o : Pl2) (sh : BitVec 5) (lane : BitVec 10), s.task s.here = some t → ArraysFree s →
    let c := s.cell0
    let p := c.pair o.pp
    let n := o.n1.toNat + 1
    let d := o.bd.toNat
    p.fmtA ≤ 1 → RowsOpen s (rowsFrom o.ba.toNat p.pa ++ rowsFrom d n) →
    let code (j : Nat) := codeAt c o.ba.toNat p.pa j
    let a (j : Nat) := intOf p.fmtA p.pa (code j)
    let src := rowsFrom o.ba.toNat p.pa
    let m := lanesOf c o.mask
    let sg : Bool := decide (p.fmtA = 0)
    let sr : Bool := decide (p.mode = 4)
    let w (j : Nat) := if sr then c.lfsrAt j else 0
    let run (i : Instr) (val : Nat → Nat) := LaneOp i s t src (maskRegs o.mask) d n m false (2 + Nat.max p.pa n) val
    run (.pneg o) (fun j => fitTo (-a j) true n p.sat)
    ∧ run (.pabs o) (fun j => fitTo (a j).natAbs sg n p.sat)
    ∧ run (.pmov o) (fun j => fitTo (a j) sg n p.sat)
    ∧ run (.pshl o sh) (fun j => fitTo (a j * 2 ^ sh.toNat) sg n p.sat)
    ∧ run (.pbcast o lane) (fun _ => fitTo (a lane.toNat) sg n p.sat)
    ∧ LaneOp (.pshr o sh) s t src (maskRegs o.mask) d n m sr (2 + Nat.max p.pa n)
        (fun j => fitTo (roundDiv (intOf 1 p.pa (code j)) (2 ^ sh.toNat) p.mode (w j)) false n p.sat)
    ∧ LaneOp (.psra o sh) s t src (maskRegs o.mask) d n m sr (2 + Nat.max p.pa n)
        (fun j => fitTo (roundDiv (intOf 0 p.pa (code j)) (2 ^ sh.toNat) p.mode (w j)) true n p.sat)

/-- 13:R194, R195: counts of a lane's planes and of its trim, and reductions over groups of 2^g lanes: the first lane
of a group takes the sum, minimum or maximum of the group's selected lanes, the others zero. -/
def Sys2Proof.Claims.PlaneCountsReductions : Prop :=
  ∀ (s : State) (t : Task) (o : Pl2) (op : RedOp) (g : BitVec 5), s.task s.here = some t → ArraysFree s →
    let c := s.cell0
    let p := c.pair o.pp
    let n := o.n1.toNat + 1
    let d := o.bd.toNat
    p.fmtA ≤ 1 → RowsOpen s (rowsFrom o.ba.toNat p.pa ++ rowsFrom d n) →
    let code (j : Nat) := codeAt c o.ba.toNat p.pa j
    let bit (j k : Nat) : Bool := (c.row (o.ba.toNat + k)).getLsbD j
    let src := rowsFrom o.ba.toNat p.pa
    let m := lanesOf c o.mask
    let sg : Bool := decide (p.fmtA = 0)
    let count (i : Instr) (val : Nat → Nat) :=
      LaneOp i s t src (maskRegs o.mask) d n m false (2 + p.pa + n) (fun j => fitTo (val j) false n p.sat)
    let trim (j : Nat) : Nat :=
      if sg then Nat.min (p.pa - 1) (((List.range p.pa).takeWhile fun k => bit j k == bit j 0).length - 1)
      else Nat.min (p.pa - 1) ((List.range p.pa).takeWhile fun k => !bit j k).length
    let picked (j : Nat) : List Int :=
      ((List.range (2 ^ g.toNat)).filter fun i => m.getLsbD (j + i)).map fun i => intOf p.fmtA p.pa (code (j + i))
    let reduced (l : List Int) : Int := match l with
      | [] => 0
      | x :: r => r.foldl (fun a b => match op with | .sum => a + b | .min => Min.min a b | .max => Max.max a b) x
    count (.plz o) (fun j => ((List.range p.pa).takeWhile fun k => !bit j k).length)
    ∧ count (.ppopc o) (fun j => (List.range p.pa).countP (bit j))
    ∧ count (.ptrimLane o) trim
    ∧ count (.ptrimBlk o) (fun j => (List.range 32).foldl (fun a i => Nat.min a (trim (j / 32 * 32 + i))) (p.pa - 1))
    ∧ (g.toNat ≤ 10 →
      LaneOp (.preduce op o g) s t src (maskRegs o.mask) d n m false (2 + p.pa + n * g.toNat)
        (fun j => if j % 2 ^ g.toNat = 0 then fitTo (reduced (picked j)) sg n p.sat else 0))

/-- 13:R192, R193: PCMP, PSEL, the logic of plane registers, and QLD and QST between them and the bank. -/
def Sys2Proof.Claims.PlaneRegisters : Prop :=
  ∀ (s : State) (t : Task) (cc : Cond) (bd ba bb : BitVec 9) (pp : BitVec 2) (n1 : BitVec 5) (qd qm qk : BitVec 3)
    (mask : Option (BitVec 3)), s.task s.here = some t → ArraysFree s →
    let c := s.cell0
    let p := c.pair pp
    let n := n1.toNat + 1
    let a (j : Nat) := intOf p.fmtA p.pa (codeAt c ba.toNat p.pa j)
    let b (j : Nat) := intOf p.fmtB p.pb (codeAt c bb.toNat p.pb j)
    let src := rowsFrom ba.toNat p.pa ++ rowsFrom bb.toNat p.pb
    let all : Row := BitVec.allOnes 1024
    let q (r : BitVec 3) (j : Nat) : Bool := (c.qRow r).getLsbD j
    let cond (x y : Int) : Bool := match cc with
      | .eq => decide (x = y)
      | .ne => decide (x ≠ y)
      | .lt | .ltu => decide (x < y)
      | .ge | .geu => decide (y ≤ x)
      | .gt | .gtu => decide (y < x)
      | .le | .leu => decide (x ≤ y)
      | .tst => (List.range 32).any fun k => (BitVec.ofInt 32 x).getLsbD k && (BitVec.ofInt 32 y).getLsbD k
    (p.fmtA ≤ 1 → p.fmtB ≤ 1 → RowsOpen s src →
      PlaneRegOp (.pcmp cc qd ba bb pp mask) s t src (maskRegs mask) qd (lanesOf c mask) (2 + Nat.max p.pa p.pb)
        (fun j => cond (a j) (b j)))
    ∧ (p.fmtA ≤ 1 → p.fmtB ≤ 1 → RowsOpen s (src ++ rowsFrom bd.toNat n) →
      LaneOp (.psel bd ba bb pp n1 qm) s t src [qm.toNat] bd.toNat n all false (2 + n)
        (fun j => fitTo (if q qm j then a j else b j) (decide (p.fmtA = 0) || decide (p.fmtB = 0)) n p.sat))
    ∧ PlaneRegOp (.qand qd qm qk) s t [] [qm.toNat, qk.toNat] qd all 1 (fun j => q qm j && q qk j)
    ∧ PlaneRegOp (.qor qd qm qk) s t [] [qm.toNat, qk.toNat] qd all 1 (fun j => q qm j || q qk j)
    ∧ PlaneRegOp (.qxor qd qm qk) s t [] [qm.toNat, qk.toNat] qd all 1 (fun j => xor (q qm j) (q qk j))
    ∧ PlaneRegOp (.qandn qd qm qk) s t [] [qm.toNat, qk.toNat] qd all 1 (fun j => q qm j && !q qk j)
    ∧ PlaneRegOp (.qnot qd qm) s t [] [qm.toNat] qd all 1 (fun j => !q qm j)
    ∧ (RowsOpen s [ba.toNat] →
      PlaneRegOp (.qld qd ba mask) s t [ba.toNat] (maskRegs mask) qd (lanesOf c mask) 1
        (fun j => (c.row ba.toNat).getLsbD j))
    ∧ (RowsOpen s [bd.toNat] →
      LaneOp (.qst bd qd mask) s t [] (qd.toNat :: maskRegs mask) bd.toNat 1 (lanesOf c mask) false 1
        (fun j => (q qd j).toNat))

/-- 13:R197, R199, R200: the interpolated lookup, and the compare-exchange of lanes 2^g apart, with CEXI carrying an
index with each key. -/
def Sys2Proof.Claims.PlaneLookupExchange : Prop :=
  ∀ (s : State) (t : Task) (o : Pl3) (dir : CexDir) (g : BitVec 5), s.task s.here = some t → ArraysFree s →
    let c := s.cell0
    let p := c.pair o.pp
    let n := o.n1.toNat + 1
    let d := o.bd.toNat
    let o2 : Pl2 := ⟨o.bd, o.ba, o.pp, o.n1, o.mask⟩
    let ka (j : Nat) := codeAt c o.ba.toNat p.pa j
    let kb (j : Nat) := codeAt c o.bb.toNat p.pb j
    let key (j : Nat) := intOf p.fmtA p.pa (ka j)
    let idx (j : Nat) := intOf p.fmtB p.pb (kb j)
    let m := lanesOf c o.mask
    let srcA := rowsFrom o.ba.toNat p.pa
    let srcB := rowsFrom o.bb.toNat p.pb
    let sr : Bool := decide (p.mode = 4)
    -- the lane that lane j takes its key from
    let asc (l : Nat) : Bool := match dir with
      | .asc => true
      | .desc => false
      | .bit h => decide (l / 2 ^ h.toNat % 2 = 0)
    let take (less : Nat → Nat → Bool) (j : Nat) : Nat :=
      let l := if j / 2 ^ g.toNat % 2 = 0 then j else j - 2 ^ g.toNat
      let h := l + 2 ^ g.toNat
      if m.getLsbD l && m.getLsbD h && (if asc l then less h l else less l h) then (if j = l then h else l) else j
    p.fmtA ≤ 1 →
    (p.fmtB ≤ 1 → 8 ≤ p.pa → p.pa ≤ 24 → RowsOpen s (srcA ++ srcB ++ rowsFrom d n) →
      LaneOp (.plut o) s t (srcA ++ srcB) (maskRegs o.mask) d n m sr (6 + p.pa + p.pb + (p.pa - 8) * (p.pb + 1))
        (fun j =>
          let u := (if p.fmtA = 0 then key j + 2 ^ (p.pa - 1) else key j).toNat
          let step := 2 ^ (p.pa - 8)
          let at_ (i : Nat) := intOf p.fmtB p.pb (kb (Nat.min i 255))
          let i := u / step
          fitTo (roundDiv (at_ i * step + (at_ (i + 1) - at_ i) * (u - i * step : Nat)) step p.mode
            (if sr then c.lfsrAt j else 0)) (decide (p.fmtB = 0)) n p.sat))
    ∧ (g.toNat ≤ 9 → n = p.pa → RowsOpen s (srcA ++ rowsFrom d n) →
      LaneOp (.cex dir o2 g) s t srcA (maskRegs o.mask) d n m false (2 + 2 * p.pa)
        (fun j => ka (take (fun x y => decide (key x < key y)) j)))
    ∧ (g.toNat ≤ 9 → n = p.pa → p.fmtB ≤ 1 → RowsOpen s (srcA ++ srcB ++ rowsFrom d n) →
      (d + n ≤ o.bb.toNat ∨ o.bb.toNat + p.pb ≤ d) →
      let less (x y : Nat) : Bool := decide (key x < key y) || (decide (key x = key y) && decide (idx x < idx y))
      let taint := taintAfter c t (srcA ++ srcB) (maskRegs o.mask)
      ∃ c', exec (.cexi dir o g) s = .next ((s.updCell0 fun _ => c').complete { t with taint := taint })
        ∧ (∀ j, j < 1024 → codeAt c' d n j = if m.getLsbD j then ka (take less j) else codeAt c d n j)
        ∧ (∀ j, j < 1024 → codeAt c' o.bb.toNat p.pb j = if m.getLsbD j then kb (take less j) else kb j)
        ∧ (∀ r, (r < d ∨ d + n ≤ r) → (r < o.bb.toNat ∨ o.bb.toNat + p.pb ≤ r) →
            c'.row r = c.row r ∧ c'.rowPoisoned r = c.rowPoisoned r)
        ∧ c' = { c with bank := c'.bank, written := c'.written, bankPoison := c'.bankPoison, flights := c'.flights })

/-- 13:R201: PEXP2 and PLOG2 complete. Of the value the spec states bounds, exact points and monotony and leaves the
rest open: the statement says what holds whatever that rest is (log entry 8): 2 to an integer power is exact, and so is the
logarithm of a power of two; PLOG2 of zero gives the least value. -/
def Sys2Proof.Claims.PlaneExponentials : Prop :=
  ∀ (s : State) (t : Task) (o : Pl2) (f : BitVec 5) (g : BitVec 4), s.task s.here = some t → ArraysFree s →
    let c := s.cell0
    let p := c.pair o.pp
    let n := o.n1.toNat + 1
    let d := o.bd.toNat
    let code (j : Nat) := codeAt c o.ba.toNat p.pa j
    let src := rowsFrom o.ba.toNat p.pa
    f.toNat ≤ p.pa → RowsOpen s (src ++ rowsFrom d n) →
    (p.fmtA = 0 → ∃ val, LaneOp (.pexp2 o f g) s t src (maskRegs o.mask) d n (lanesOf c o.mask) false
          (12 + p.pa + 2 * n) val
        ∧ ∀ (j : Nat) (k : Int), j < 1024 → intOf 0 p.pa (code j) = k * 2 ^ f.toNat → 0 ≤ k + g.toNat →
            val j = fitTo (2 ^ (k + g.toNat).toNat) false n true)
    ∧ (p.fmtA = 1 → ∃ val, LaneOp (.plog2 o f g) s t src (maskRegs o.mask) d n (lanesOf c o.mask) false
          (12 + p.pa + 2 * n) val
        ∧ (∀ j, j < 1024 → code j = 0 → val j = 2 ^ (n - 1))
        ∧ ∀ j k : Nat, j < 1024 → code j = 2 ^ k → val j = fitTo (((k : Int) - f.toNat) * 2 ^ g.toNat) true n true)

end

namespace Sys2Proof.Claims

open Sys2Proof.Machine

/-! ## Exact numbers, said with rationals -/

/-- The rational that a finite exact value stands for. -/
def ratOf : Ev → ℚ
  | .num neg m e => (if neg then -1 else 1) * m * 2 ^ e
  | _ => 0

/-- `Sr(r)` with the lane's word: the leading 16 bits of the fraction exceed it (03:R46). -/
def srTakes (r : ℚ) (w : Nat) : Bool := decide ((w : Int) < ⌊r * 2 ^ 16⌋)

/-- RoundInt of 13:R188, the integer column of 03:R44. -/
def exactInt (x : ℚ) (mode w : Nat) : Int :=
  let b := ⌊x⌋
  let r := x - b
  let inc : Bool := match mode with
    | 0 => decide (1 / 2 < r) || (decide (r = 1 / 2) && decide (b % 2 = 1))
    | 1 => decide (b < 0) && decide (r ≠ 0)
    | 3 => decide (r ≠ 0)
    | 4 => srTakes r w
    | _ => false
  b + inc.toNat

/-- A magnitude above a step `q` by the fraction `r` goes to the next one: the float column of 03:R44, for a value of the sign
given. -/
def magnitudeUp (mode : Nat) (neg odd : Bool) (r : ℚ) (w : Nat) : Bool :=
  match mode with
  | 0 => decide (1 / 2 < r) || (decide (r = 1 / 2) && odd)
  | 2 => neg && decide (r ≠ 0)
  | 3 => !neg && decide (r ≠ 0)
  | 4 => srTakes r w
  | _ => false

/-- A magnitude rounded to an integer by the float column of 03:R44. -/
def exactMag (x : ℚ) (neg : Bool) (mode w : Nat) : Int :=
  ⌊x⌋ + (magnitudeUp mode neg (decide (⌊x⌋ % 2 = 1)) (x - ⌊x⌋) w).toNat

/-- The magnitude of a float's code without sign, by exponent and fraction field (03:R33, R34, R36). -/
def magValue (eb fb code : Nat) : ℚ :=
  let bias : Int := 2 ^ (eb - 1) - 1
  let x := code / 2 ^ fb
  let fr := code % 2 ^ fb
  if x = 0 then fr * 2 ^ (1 - bias - fb) else (2 ^ fb + fr) * 2 ^ (x - bias - fb)

/-- A value is the one of a float's code times 2^k: sign, exponent, fraction, and the specials of the format (03:R33, R34,
R36). Kind 0 has infinities and NaNs as IEEE 754, kind 1 one NaN magnitude, kind 2 neither. -/
def IsFloat (v : Ev) (eb fb kind code : Nat) (k : Int) : Prop :=
  let neg : Bool := decide (code / 2 ^ (eb + fb) % 2 = 1)
  let mag := code % 2 ^ (eb + fb)
  if kind = 0 ∧ mag / 2 ^ fb = 2 ^ eb - 1 then v = if mag % 2 ^ fb = 0 then .inf neg else .nan
  else if kind = 1 ∧ mag = 2 ^ (eb + fb) - 1 then v = .nan
  else ∃ (m : Nat) (e : Int), v = .num neg m e ∧ (m : ℚ) * 2 ^ e = magValue eb fb mag * 2 ^ k

/-- The table of Q4A by type and code (03:R40). -/
def q4Table (ty code : Nat) : ℚ :=
  match ty with
  | 0 => [0, 1, 2, 3, 4, 5, 6, 7, -8, -7, -6, -5, -4, -3, -2, -1].getD code 0
  | 1 => [0, 1 / 2, 1, 3 / 2, 2, 3, 4, 6, 0, -1 / 2, -1, -3 / 2, -2, -3, -4, -6].getD code 0
  | 2 => [0, 1 / 64, 1 / 32, 1 / 16, 1 / 8, 1 / 4, 1 / 2, 1,
          0, -1 / 64, -1 / 32, -1 / 16, -1 / 8, -1 / 4, -1 / 2, -1].getD code 0
  | _ => [0, 1, 2, 3, 4, 8, 16, 32, 0, -1, -2, -3, -4, -8, -16, -32].getD code 0

/-- The codes of a Q4A type by rising value, without 0x8 (13:R210). -/
def q4Order (ty : Nat) : List Nat :=
  (if ty = 0 then [9, 10, 11, 12, 13, 14, 15] else [15, 14, 13, 12, 11, 10, 9]) ++ [0, 1, 2, 3, 4, 5, 6, 7]

/-- Greatest exponent of a power of two that the greatest magnitude of some values reaches. -/
def TopIs (xs : List Ev) (k : Int) : Prop := (∃ x ∈ xs, (2 : ℚ) ^ k ≤ |ratOf x|) ∧ ∀ x ∈ xs, |ratOf x| < 2 ^ (k + 1)

/-- A value as the non-finite mode CLAMP takes it, with the scale of its block (03:R49, 13:R208). -/
def clampedTo (fmt : Nat) (k : Int) (x : Ev) : Ev :=
  match x with
  | .nan => .num false 0 0
  | .inf neg => (match maxFinite fmt with | .num _ m e => .num neg m (e + k) | v => v)
  | v => v

/-- A code is `a * x + b * y` of 15:R239, computed exactly as IEEE 754 does with infinities and NaNs and rounded once. Each
factor is a sign and a rational; the sign of an exact zero sum of unlike signs is log entry 15's. -/
def RoundedSum (f : FloatFmt) (p : Pair) (w : Nat) (a : Bool × ℚ) (x : Ev) (b : Bool × ℚ) (y : Ev) (code : Nat) : Prop :=
  let neg (v : Ev) : Bool := match v with | .num s _ _ => s | .inf s => s | .nan => false
  let isInf (v : Ev) : Bool := match v with | .inf _ => true | _ => false
  let sx := a.1 != neg x
  let sy := b.1 != neg y
  let total : ℚ := a.2 * ratOf x + b.2 * ratOf y
  let invalid : Bool := decide (x = .nan) || decide (y = .nan) || (isInf x && decide (a.2 = 0))
    || (isInf y && decide (b.2 = 0)) || (isInf x && isInf y && sx != sy)
  if invalid then code = f.nan
  else if isInf x then code = f.inf sx
  else if isInf y then code = f.inf sy
  else ∃ (m : Nat) (e : Int), |total| = (m : ℚ) * 2 ^ e ∧ code = roundFloat f
    (if total = 0 then (if sx = sy then sx else decide (p.mode = 2)) else decide (total < 0)) m e p.mode p.sat w

end Sys2Proof.Claims

section

open Sys2Proof Sys2Proof.Machine Sys2Proof.Claims

/-- 03:R30, R33 to R41: what the code of each format stands for: integers, the float formats, accumulator words, and the
elements of the block-scaled formats with their scale byte; the canonical NaNs; the largest finite values of the formats that
have infinities. -/
def Sys2Proof.Claims.FormatValues : Prop :=
  (∀ (w code : Nat), 1 ≤ w → code < 2 ^ w →
      valOf 0 code w = .ofInt (intOf 0 w code) ∧ valOf 1 code w = .ofInt code
      ∧ ratOf (valOf 0 code w) = intOf 0 w code ∧ ratOf (valOf 1 code w) = code)
  ∧ (∀ (code w : Nat), IsFloat (valOf 0x02 code w) 5 10 0 code 0 ∧ IsFloat (valOf 0x03 code w) 8 23 0 code 0
      ∧ IsFloat (valOf 0x04 code w) 4 3 1 code 0 ∧ IsFloat (valOf 0x05 code w) 5 2 0 code 0
      ∧ IsFloat (valOf 0x06 code w) 8 7 0 code 0)
  ∧ (∀ (sig : BitVec 48) (x : BitVec 10) w, let v := valOf 0x10 (sig.toNat * 2 ^ 16 + x.toNat * 2 ^ 6) w
      v.finite = true ∧ ratOf v = sig.toInt * 2 ^ x.toInt)
  ∧ (∀ (byte code : Nat), byte < 255 → let k : Int := byte - 127
      IsFloat (blockVal 0x08 byte code) 5 2 0 code k ∧ IsFloat (blockVal 0x09 byte code) 4 3 1 code k
      ∧ IsFloat (blockVal 0x0A byte code) 3 2 2 code k ∧ IsFloat (blockVal 0x0B byte code) 2 3 2 code k
      ∧ IsFloat (blockVal 0x0C byte code) 2 1 2 code k
      ∧ (code < 256 → (blockVal 0x0D byte code).finite = true
          ∧ ratOf (blockVal 0x0D byte code) = intOf 0 8 code * 2 ^ (k - 6)))
  ∧ (∀ (fmt code : Nat), fmt ∈ [0x08, 0x09, 0x0A, 0x0B, 0x0C, 0x0D] → blockVal fmt 255 code = .nan)
  ∧ (∀ (ty x code : Nat), ty < 4 → x < 64 → code < 16 → let v := blockVal 0x0E (64 * ty + x) code
      if x = 63 then v = .nan else v.finite = true ∧ ratOf v = q4Table ty code * 2 ^ ((x : Int) - 31))
  ∧ (∀ c f, floatFmt c = some f →
      (c = 0x02 → f.nan = 0x7E00) ∧ (c = 0x03 → f.nan = 0x7FC00000) ∧ (c = 0x04 → f.nan = 0x7F) ∧ (c = 0x05 → f.nan = 0x7E)
      ∧ (c = 0x06 → f.nan = 0x7FC0))
  ∧ ratOf (maxFinite 0x02) = 65504 ∧ ratOf (maxFinite 0x03) = (2 ^ 24 - 1) * 2 ^ 104 ∧ ratOf (maxFinite 0x05) = 57344
  ∧ ratOf (maxFinite 0x06) = (2 ^ 8 - 1) * 2 ^ 120 ∧ ratOf (maxFinite 0x08) = 57344

/-- 03:R44, R46, 13:R188: RoundInt and RoundMag of an exact value give the integer that the columns of R44 name, and RoundFloat
the code of one of the two neighbours of the value in the format, or past the largest finite one the overflow of R188; a zero
keeps the value's sign. `w` is the lane's random word. -/
def Sys2Proof.Claims.RoundingModes : Prop :=
  ∀ (neg : Bool) (m : Nat) (e : Int) (mode w : Nat),
    let v := Ev.num neg m e
    let x := |ratOf v|
    roundInt v mode w = exactInt (ratOf v) mode w
    ∧ roundMag v mode w = (if neg then -1 else 1) * exactMag x neg mode w
    ∧ ∀ (f : FloatFmt) (sat : Bool),
        f ∈ [⟨5, 10, 0⟩, ⟨8, 23, 0⟩, ⟨4, 3, 1⟩, ⟨5, 2, 0⟩, ⟨8, 7, 0⟩, ⟨3, 2, 2⟩, ⟨2, 3, 2⟩, ⟨2, 1, 2⟩] →
        let value (code : Nat) := magValue f.ebits f.fbits code
        let bits := 2 ^ (f.ebits + f.fbits)
        let sign := if neg then bits else 0
        let top := match f.kind with | 0 => (2 ^ f.ebits - 1) * 2 ^ f.fbits - 1 | 1 => bits - 2 | _ => bits - 1
        let towardZero : Bool := mode = 1 || mode = 5 || (mode = 2 && !neg) || (mode = 3 && neg)
        let past := if f.kind = 0 ∧ sat = false ∧ towardZero = false then top + 1 else top
        let out := roundFloat f neg m e mode sat w
        mode ≤ 5 →
        (m = 0 → out = sign)
        ∧ (m ≠ 0 → ∀ code, code ≤ top → value code ≤ x → x < value (code + 1) →
            let r := (x - value code) / (value (code + 1) - value code)
            let near := if magnitudeUp mode neg (decide (code % 2 = 1)) r w then code + 1 else code
            out = sign + if near ≤ top then near else past)
        ∧ (value (top + 1) ≤ x → out = sign + past)

/-- 03:R35, R45: a prefix read of k of n planes: an integer's value over 2^(n - k) rounded, and saturated or wrapped in k
planes; a float's magnitude rounded in the same way with its sign kept, an infinity past the largest finite magnitude held
back where the pair saturates; NaNs keep their leading fraction bits with the first set, or become infinities where no fraction
is left. -/
def Sys2Proof.Claims.PrefixRounding : Prop :=
  ∀ (fmt n k v mode w : Nat) (sat : Bool), fmt ∈ [0, 1, 2, 3, 5, 6] → v < 2 ^ n → prefixOk fmt n k = true →
    (2 ≤ fmt → n = storedPlanes fmt 0) → mode ≤ 5 →
    let out := roundPrefix fmt v n k mode sat w
    let eb := if fmt = 2 ∨ fmt = 5 then 5 else 8
    let mag := v % 2 ^ (n - 1)
    let sign := v / 2 ^ (n - 1) * 2 ^ (k - 1)
    let special := mag / 2 ^ (n - 1 - eb) = 2 ^ eb - 1
    let inf := (2 ^ eb - 1) * 2 ^ (k - 1 - eb)
    (k = n → out = v)
    ∧ (k < n → fmt ≤ 1 →
        let q := exactInt ((intOf fmt n v : ℚ) / 2 ^ (n - k)) mode w
        let hi : Int := if fmt = 0 then 2 ^ (k - 1) - 1 else 2 ^ k - 1
        out = ((if hi < q ∧ sat = true then hi else q) % 2 ^ k).toNat)
    ∧ (k < n → 2 ≤ fmt → ¬special →
        let q := exactMag ((mag : ℚ) / 2 ^ (n - k)) (decide (sign ≠ 0)) mode w
        (out : Int) = sign + if (inf : Int) ≤ q ∧ sat = true then (inf : Int) - 1 else q)
    ∧ (k < n → 2 ≤ fmt → special →
        out = sign + if mag % 2 ^ (n - 1 - eb) = 0 ∨ k = eb + 1 then inf
          else Nat.lor (mag / 2 ^ (n - k)) (2 ^ (k - 2 - eb)))

/-- 13:R208 to R210: what one block becomes. The scale byte that ChooseScale derives from the greatest magnitude, for Q4A of
the type given or of the type of least square error; the code that Element gives a value; and the blocks that are finished
before it: a kept NaN scale, and a non-finite value in mode POISON. -/
def Sys2Proof.Claims.QuantisedBlocks : Prop :=
  (∀ (fmt tsel : Nat) (xs : List Ev), xs.length = 32 → (∀ x ∈ xs, x.finite = true) →
      let byte := chooseScale fmt tsel xs
      let least (ty : Nat) (y : Nat) : Prop :=
        let most : ℚ := [7, 6, 1, 32].getD ty 0
        ∃ x : Int, -31 ≤ x ∧ x ≤ 31 ∧ (y : Int) = 64 * ty + x + 31
          ∧ (x < 31 → ∀ v ∈ xs, |ratOf v| ≤ most * 2 ^ x)
          ∧ ∀ z : Int, -31 ≤ z → z < x → ∃ v ∈ xs, most * 2 ^ z < |ratOf v|
      let loss (y : Nat) : ℚ :=
        (xs.map fun v => (ratOf v - ratOf (blockVal 0x0E y (elemCode 0x0E y v 0 0))) ^ 2).sum
      (8 ≤ fmt → fmt ≤ 0x0D →
        ((∀ x ∈ xs, ratOf x = 0) → byte = 0)
        ∧ ∀ k, TopIs xs k → (byte : Int) = Max.max 0 (Min.min (k - [15, 8, 4, 2, 2, 0].getD (fmt - 8) 0 + 127) 254))
      ∧ (fmt = 0x0E → tsel < 4 → least tsel byte)
      ∧ (fmt = 0x0E → tsel = 4 → ∃ (ty : Nat) (y : Nat → Nat), ty < 4 ∧ byte = y ty
          ∧ ∀ u, u < 4 → least u (y u) ∧ loss (y ty) ≤ loss (y u) ∧ (u < ty → loss (y ty) < loss (y u))))
  ∧ (∀ (byte m mode w : Nat) (neg : Bool) (e : Int), byte < 256 → mode ≤ 5 →
      let x := Ev.num neg m e
      let mx (fmt : Nat) := elemCode fmt byte x mode w
      (mx 0x08 = roundFloat ⟨5, 2, 0⟩ neg m (e - (byte - 127)) mode true w
        ∧ mx 0x09 = roundFloat ⟨4, 3, 1⟩ neg m (e - (byte - 127)) mode true w
        ∧ mx 0x0A = roundFloat ⟨3, 2, 2⟩ neg m (e - (byte - 127)) mode true w
        ∧ mx 0x0B = roundFloat ⟨2, 3, 2⟩ neg m (e - (byte - 127)) mode true w
        ∧ mx 0x0C = roundFloat ⟨2, 1, 2⟩ neg m (e - (byte - 127)) mode true w)
      ∧ mx 0x0D = ((Max.max (-127) (Min.min 127
          ((if neg then -1 else 1) * exactMag (|ratOf x| * 2 ^ (6 - ((byte : Int) - 127))) neg mode w))) % 256).toNat
      ∧ (byte % 64 ≠ 63 →
          let ty := byte / 64
          let y := ratOf x * 2 ^ (31 - ((byte % 64 : Nat) : Int))
          let at_ (i : Nat) := (q4Order ty).getD i 0
          let value (i : Nat) := q4Table ty (at_ i)
          (y ≤ value 0 → mx 0x0E = at_ 0) ∧ (value 14 ≤ y → mx 0x0E = 7)
          ∧ ∀ i, i < 14 → value i ≤ y → y < value (i + 1) →
              let far := if 0 ≤ value i then i + 1 else i
              let near := if 0 ≤ value i then i else i + 1
              let r := (y - value near) / (value far - value near)
              mx 0x0E = at_ (if y = value i then i
                else match mode with
                  | 0 => if r < 1 / 2 ∨ (r = 1 / 2 ∧ at_ near % 2 = 0) then near else far
                  | 2 => i
                  | 3 => i + 1
                  | 4 => if srTakes r w then far else near
                  | _ => near)))
  ∧ ∀ (keep : Bool) (fmtd fmts tsel old : Nat) (p : Pair) (xs : List Ev) (w : Nat → Nat), xs.length = 32 →
      8 ≤ fmtd → fmtd ≤ 0x0E → old < 256 →
      let q := quantBlock keep fmtd fmts tsel p xs old w
      let nanByte (y : Nat) : Prop := if fmtd = 0x0E then y % 64 = 63 else y = 255
      let odd : Prop := ∃ x ∈ xs, x.finite = false
      let values := xs.map (clampedTo fmts 0)
      (keep = true → nanByte old → q.byte = old ∧ (∀ i, q.codes.getD i 0 = 0) ∧ q.tainted = false ∧ q.clamped = false)
      ∧ (¬(keep = true ∧ nanByte old) → odd → p.clamp = false →
          q.byte = (if keep then old else if fmtd = 0x0E then 0x3F else 0xFF) ∧ (∀ i, q.codes.getD i 0 = 0)
          ∧ q.tainted = true ∧ q.clamped = false)
      ∧ (¬(keep = true ∧ nanByte old) → (odd → p.clamp = true) →
          q.byte = (if keep then old else chooseScale fmtd tsel values)
          ∧ (∀ i, i < 32 → q.codes.getD i 0 = elemCode fmtd q.byte (values.getD i .nan) p.mode (w i))
          ∧ q.tainted = false ∧ (q.clamped = true ↔ odd))

/-- 03:R49: BlockAlign of a block: all zeros and poisoned where a value is not finite in mode POISON; else, with the clamped
values, the exponent by which the greatest magnitude fills p bits, and every value rounded to a multiple of its power of two
and clipped to a symmetric range. -/
def Sys2Proof.Claims.BlockAlignment : Prop :=
  ∀ (fmt p mode byte : Nat) (clamp : Bool) (xs : List Ev) (w : Nat → Nat), xs.length = 32 → fmt ≤ 0x0E → 2 ≤ p → mode ≤ 5 →
    let a := blockAlign fmt p mode clamp byte xs w
    let odd : Prop := ∃ x ∈ xs, x.finite = false
    let k : Int := if fmt < 8 then 0 else if fmt = 0x0E then (byte % 64 : Nat) - 31 else byte - 127
    let values := xs.map (clampedTo fmt k)
    let lim : Int := 2 ^ (p - 1) - 1
    (odd → clamp = false → a.poison = true ∧ a.drew = false ∧ a.clamped = false ∧ a.e = 0 ∧ ∀ i, a.q.getD i 0 = 0)
    ∧ ((odd → clamp = true) → a.poison = false ∧ (a.clamped = true ↔ odd)
      ∧ ((∀ x ∈ values, ratOf x = 0) → a.e = 0 ∧ a.drew = false ∧ ∀ i, a.q.getD i 0 = 0)
      ∧ ∀ top, TopIs values top → a.e = top - (p - 2) ∧ a.drew = decide (mode = 4)
          ∧ ∀ i, i < 32 → ∀ neg m e, values.getD i .nan = .num neg m e →
            a.q.getD i 0 = Max.max (-lim) (Min.min lim
              ((if neg then -1 else 1) * exactMag (|ratOf (.num neg m e)| * 2 ^ (-a.e)) neg mode (w i))))

/-- 03:R53: AddAW. Integers add into the significand, saturated to 48 bits. Otherwise the exact sum is kept at the least
exponent, not below the smaller of the two and -512, at which its nearest integer (ties to even) has 47 bits, or becomes the
largest word of its sign where that exponent passes 511. -/
def Sys2Proof.Claims.AccumulatorWords : Prop :=
  ∀ (sig x term y : Int),
    (addAw true (sig, x) term y).1 = (Max.max (-2 ^ 47) (Min.min (sig + term) (2 ^ 47 - 1)), x)
    ∧ ((addAw true (sig, x) term y).2 = true ↔ sig + term < -2 ^ 47 ∨ 2 ^ 47 - 1 < sig + term)
    ∧ (let v : ℚ := sig * 2 ^ x + term * 2 ^ y
       let first := Max.max (if sig = 0 then y else Min.min x y) (-512)
       let kept (z : Int) : Int := exactInt (v * 2 ^ (-z)) 0 0
       ∀ z, first ≤ z → |kept z| ≤ 2 ^ 47 - 1 → (∀ u, first ≤ u → u < z → 2 ^ 47 - 1 < |kept u|) →
        addAw false (sig, x) term y =
          if 511 < z then ((if 0 < v then 2 ^ 47 - 1 else -(2 ^ 47 - 1), 511), true) else ((kept z, z), false))

end

namespace Sys2Proof.Claims

open Sys2Proof.Machine

/-- A value in a destination format (13:R203, R204): NaN and infinities as R204 lays down, other values by RoundInt and
Fit, or by RoundFloat. -/
def converted (p : Pair) (fmtd : Nat) (v : Ev) (w : Nat) : Nat :=
  match floatFmt fmtd, v with
  | some f, .nan => f.nan
  | some f, .inf neg => f.inf neg
  | some f, .num neg m e => roundFloat f neg m e p.mode p.sat w
  | none, .nan => 0
  | none, .inf neg =>
    if fmtd = 0 then (if neg then 2 ^ (p.pb - 1) else 2 ^ (p.pb - 1) - 1) else (if neg then 0 else 2 ^ p.pb - 1)
  | none, .num neg m e => fitTo (roundInt (.num neg m e) p.mode w) (decide (fmtd = 0)) p.pb p.sat

/-- The formats INT, UINT, NF16, NF32, E4M3, E5M2 and BF16 (03:R30). -/
def plainFormat (f : Nat) : Prop := f ≤ 6

/-- The block-scaled formats (03:R30). -/
def blockFormat (f : Nat) : Prop := 8 ≤ f ∧ f ≤ 14

end Sys2Proof.Claims

section

open Sys2Proof Sys2Proof.Machine Sys2Proof.Claims

/-- 13:R203 to R205, R213: CVT of a tensor, CVTS of a scalar and DEQ of a block-scaled tensor convert every written lane;
a NaN that becomes an integer taints the task in mode POISON and sets ACCSAT[4] in mode CLAMP; a lane with a finite
value draws once in mode SR. -/
def Sys2Proof.Claims.Conversions : Prop :=
  ∀ (s : State) (t : Task) (bd ba : BitVec 9) (pp : BitVec 2) (fmtd fmts : BitVec 5) (sa : Spec)
    (mask : Option (BitVec 3)), s.task s.here = some t → ArraysFree s →
    let c := s.cell0
    let p := c.pair pp
    let fd := fmtd.toNat
    let fs := fmts.toNat
    let ns := storedPlanes fs p.pa
    let nd := storedPlanes fd p.pb
    let m := lanesOf c mask
    let sr : Bool := decide (p.mode = 4)
    -- an instruction that gives lane j the value v j, after reading the rows given for a task tainted as given
    let run (i : Instr) (rows : List Nat) (u : Task) (cycles : Nat) (v : Nat → Ev) : Prop :=
      let hit : Bool := decide (fd ≤ 1) && (List.range 1024).any fun j => m.getLsbD j && decide (v j = .nan)
      LaneRun i s { u with taint := taintAfter c u rows (maskRegs mask) || (hit && !p.clamp) } bd.toNat nd m
        (fun j => sr && m.getLsbD j && (v j).finite) cycles (if hit && p.clamp then c.accSat ||| 16 else c.accSat)
        (fun j => converted p fd (v j) (if sr then c.lfsrAt j else 0))
    let src := rowsFrom ba.toNat ns
    (plainFormat fd → plainFormat fs ∨ fs = 0x10 → (fs = 0x10 → ∀ j, j < 1024 → codeAt c ba.toNat ns j % 64 = 0) →
      RowsOpen s (src ++ rowsFrom bd.toNat nd) →
      run (.cvt bd ba pp fmtd fmts mask) src t (4 + ns + nd) (fun j => valOf fs (codeAt c ba.toNat ns j) p.pa))
    ∧ (plainFormat fd → plainFormat fs → RowsOpen s (rowsFrom bd.toNat nd) →
      run (.cvts bd sa pp fmtd fmts mask) [] { t with taint := t.taint || poisonedSource t sa } (4 + nd)
        (fun _ => valOf fs (sourceValue t sa).toNat p.pa))
    ∧ (fd ∈ [0x02, 0x03, 0x05, 0x06] → blockFormat fs → RowsOpen s (rowsFrom ba.toNat (ns + 1) ++ rowsFrom bd.toNat nd) →
      run (.deq bd ba pp fmtd fmts mask) (rowsFrom ba.toNat (ns + 1)) t (8 + (ns + 1) + nd) (fun j =>
        let byte := (c.row (ba.toNat + ns)).toNat / 2 ^ (8 * (j / 32)) % 256
        match blockVal fs byte (codeAt c ba.toNat ns j) with
        | .num neg x e => if fs = 14 ∧ x = 0 then .num false x e else .num neg x e
        | v => v))

/-- 13:R206, R207: a prefix read rounds or truncates every lane to k planes, a prefix write puts k planes and zeros
below them; block-scaled tensors are copied with their scale row. The rows that PRD must be able to read are those of
R206; which value the planes beyond them have is log entry 14's. -/
def Sys2Proof.Claims.PrefixReadWrite : Prop :=
  ∀ (s : State) (t : Task) (bd ba : BitVec 9) (pp : BitVec 2) (fmt k1 : BitVec 5) (mask : Option (BitVec 3)),
    s.task s.here = some t → ArraysFree s →
    let c := s.cell0
    let p := c.pair pp
    let f := fmt.toNat
    let k := k1.toNat + 1
    let n := storedPlanes f p.pa
    let m := lanesOf c mask
    let code (j : Nat) := codeAt c ba.toNat n j
    let sr : Bool := decide (p.mode = 4)
    plainFormat f ∨ blockFormat f → prefixOk f n k = true →
    let copy (i : Instr) (x : Nat) := RowsOpen s (rowsFrom ba.toNat (k + x) ++ rowsFrom bd.toNat (n + x)) →
      ∃ cycles, LaneOp i s t (rowsFrom ba.toNat (k + x)) (maskRegs mask) bd.toNat (n + x) m false cycles
        (fun j => codeAt c ba.toNat (k + x) j * 2 ^ (n - k))
    (plainFormat f → RowsOpen s (rowsFrom ba.toNat k ++ rowsFrom bd.toNat k) →
      LaneOp (.prdTrunc bd ba pp fmt k1 mask) s t (rowsFrom ba.toNat k) (maskRegs mask) bd.toNat k m false (2 + k + k)
        (fun j => roundPrefix f (code j) n k 5 p.sat 0))
    ∧ (plainFormat f →
      let r := if p.mode = 4 then Nat.min n (k + 16) else n
      RowsOpen s (rowsFrom ba.toNat r ++ rowsFrom bd.toNat k) →
      LaneRun (.prdRound bd ba pp fmt k1 mask) s { t with taint := taintAfter c t (rowsFrom ba.toNat r) (maskRegs mask) }
        bd.toNat k m (fun j => sr && m.getLsbD j && prefixDraws f (code j) n k p.mode) (2 + r + k) c.accSat
        (fun j => roundPrefix f (code j) n k p.mode p.sat (if sr then c.lfsrAt j else 0)))
    ∧ (blockFormat f → copy (.prdTrunc bd ba pp fmt k1 mask) 1 ∧ copy (.prdRound bd ba pp fmt k1 mask) 1
      ∧ copy (.pwr bd ba pp fmt k1 mask) 1)
    ∧ (plainFormat f → copy (.pwr bd ba pp fmt k1 mask) 0)

/-- 13:R208 to R211: QUANT gives every processed block the scale byte and the codes of R208, and SCL.MAX the scale byte
alone; bytes 32 to 127 of the scale row become zero; blocks that are not processed keep byte and codes; a block
poisoned by a non-finite value taints the task, a clamped one sets ACCSAT[4]. What one block becomes is `quantBlock`. -/
def Sys2Proof.Claims.BlockQuantisation : Prop :=
  ∀ (s : State) (t : Task) (keep : Bool) (bd ba : BitVec 9) (pp : BitVec 2) (fmtd fmts : BitVec 5) (tsel : BitVec 3)
    (mask : Option (BitVec 3)), s.task s.here = some t → ArraysFree s →
    let c := s.cell0
    let p := c.pair pp
    let fd := fmtd.toNat
    let fs := fmts.toNat
    let n := elemWidth fd
    let ns := storedPlanes fs p.pa
    let scale := bd.toNat + n
    let m := lanesOf c mask
    let byteOf (x : Cell) (b : Nat) := (x.row scale).toNat / 2 ^ (8 * b) % 256
    let block (kp only : Bool) (b : Nat) := quantBlock kp fd fs tsel.toNat p
      ((List.range 32).map fun i => valOf fs (codeAt c ba.toNat ns (32 * b + i)) p.pa) (byteOf c b)
      fun i => if p.mode = 4 ∧ only = false then c.lfsrAt (32 * b + i) else 0
    let after (i : Instr) (kp only : Bool) : Prop :=
      let rows := rowsFrom ba.toNat ns ++ (if kp then [scale] else [])
      let any (f : QBlock → Bool) : Bool := (List.range 32).any fun b => m.getLsbD (32 * b) && f (block kp only b)
      ∃ c', exec i s = .next ((s.updCell0 fun _ => c').complete
          { t with taint := taintAfter c t rows (maskRegs mask) || any (·.tainted) })
        ∧ (∀ b, b < 32 → byteOf c' b = if m.getLsbD (32 * b) then (block kp only b).byte % 256 else byteOf c b)
        ∧ (∀ b, 32 ≤ b → b < 128 → byteOf c' b = 0)
        ∧ (∀ b i, b < 32 → i < 32 → codeAt c' bd.toNat n (32 * b + i) =
            if m.getLsbD (32 * b) ∧ only = false then (block kp only b).codes.getD i 0 % 2 ^ n
            else codeAt c bd.toNat n (32 * b + i))
        ∧ (∀ r, r < bd.toNat ∨ scale < r → c'.row r = c.row r)
        ∧ c'.accSat = (if any (·.clamped) then c.accSat ||| 16 else c.accSat)
        ∧ c' = { c with
            bank := c'.bank, written := c'.written, bankPoison := c'.bankPoison, lfsr := c'.lfsr, flights := c'.flights, accSat := c'.accSat }
    plainFormat fs → blockFormat fd → RowsOpen s (rowsFrom ba.toNat ns ++ rowsFrom bd.toNat (n + 1)) →
    after (.quant keep bd ba pp fmtd fmts tsel mask) keep false
    ∧ after (.sclMax bd ba pp fmtd fmts tsel mask) false true

/-- 13:R212, R214: SCL.GET spreads a scale row over lanes, SCL.PUT writes scale bytes from a scalar, LFSR.SEED reseeds
every lane. -/
def Sys2Proof.Claims.ScaleRowsAndSeeding : Prop :=
  ∀ (s : State) (t : Task) (bd ba : BitVec 9) (fmt : BitVec 5) (sa : Spec) (mask : Option (BitVec 3)),
    s.task s.here = some t → ArraysFree s →
    let c := s.cell0
    let n := elemWidth fmt.toNat
    let m := lanesOf c mask
    let u : Task := { t with taint := t.taint || poisonedSource t sa }
    let v := (sourceValue t sa).toNat
    (blockFormat fmt.toNat → RowsOpen s ((ba.toNat + n) :: rowsFrom bd.toNat 8) →
      LaneOp (.sclGet bd ba fmt mask) s t [ba.toNat + n] (maskRegs mask) bd.toNat 8 m false 12
        (fun j => (c.row (ba.toNat + n)).toNat / 2 ^ (8 * (j / 32)) % 256))
    ∧ (blockFormat fmt.toNat → RowsOpen s [bd.toNat + n] →
      ∃ c', exec (.sclPut bd sa fmt mask) s = .next ((s.updCell0 fun _ => c').complete
            { u with taint := taintAfter c u [] (maskRegs mask) })
        ∧ (∀ b, b < 128 → (c'.row (bd.toNat + n)).toNat / 2 ^ (8 * b) % 256 =
            if b < 32 ∧ m.getLsbD (32 * b) then v % 256 else (c.row (bd.toNat + n)).toNat / 2 ^ (8 * b) % 256)
        ∧ (∀ r, r ≠ bd.toNat + n → c'.row r = c.row r)
        ∧ c' = { c with bank := c'.bank, written := c'.written, bankPoison := c'.bankPoison, flights := c'.flights })
    ∧ ∃ c', exec (.lfsrSeed sa) s = .next ((s.updCell0 fun _ => c').complete u)
        ∧ c'.lfsrSeed.toNat = v % 2 ^ 16
        ∧ (∀ j, j < 1024 → c'.lfsrAt j =
            let x := Nat.xor (v % 2 ^ 16) (j * 0x9E37 % 2 ^ 16)
            if x = 0 then 0xACE1 else x)
        ∧ c' = { c with lfsrSeed := c'.lfsrSeed, lfsr := c'.lfsr, flights := c'.flights }

end

namespace Sys2Proof.Claims

open Sys2Proof.Machine

/-- An instruction of a unit of the cell completes with the task given: the cell becomes `c'`, the unit is taken for
its cycles. -/
def UnitRun (i : Instr) (s : State) (u : Task) (unit_ : UnitName) (cycles : Nat) (c' : Cell) : Prop :=
  exec i s = .next ((s.updCell0 fun _ => c').complete u)
  ∧ c'.flights.map (fun f => (f.unit_, f.until_)) = [(unit_, s.now + cycles)]

/-- Only the accumulators of one tile, its poison, ACCSAT's bit of it and bit 4, the lanes' generators and the unit may
differ (15:R219, R226, R229). -/
def OnlyTile (c c' : Cell) (tile : Nat) : Prop :=
  (∀ k r col, k ≠ tile → r < 8 → col < 8 → c'.acc k r col = c.acc k r col)
  ∧ (∀ k, k ≠ tile → (k ∈ c'.tilePoison ↔ k ∈ c.tilePoison))
  ∧ (∀ b, b ≠ tile → b ≠ 4 → c'.accSat.getLsbD b = c.accSat.getLsbD b)
  ∧ c' = { c with
      accS := c'.accS, accX := c'.accX, tilePoison := c'.tilePoison, accSat := c'.accSat, lfsr := c'.lfsr
      flights := c'.flights }

/-- The rows of an operand: element planes, and a scale row where the format has one (15:R223). -/
def operandRows (base fmt w : Nat) : List Nat := rowsFrom base (groupRows fmt w)

/-- Significands are kept in 48 bits, saturating (03:R53). -/
def sat48 (v : Int) : Int := Max.max (-2 ^ 47) (Min.min v (2 ^ 47 - 1))

/-- The sum of a function over the numbers below n. -/
def sumTo (n : Nat) (f : Nat → Int) : Int := (List.range n).foldl (fun a k => a + f k) 0

/-- Scalars and tokens read: the task with their taint. -/
def reads (t : Task) (srcs : List Spec) : Task := { t with taint := t.taint || srcs.any (poisonedSource t) }

end Sys2Proof.Claims

section

open Sys2Proof Sys2Proof.Machine Sys2Proof.Claims

/-- 15:R222, 03:R43: PPSET of a legal pair word installs it, of the operand's low 32 bits; a word of the checks of R43
raises what they name and changes no pair; PPGET reads the pair word. -/
def Sys2Proof.Claims.PrecisionPairs : Prop :=
  ∀ (s : State) (t : Task) (pp : BitVec 2) (sa : Spec) (sd : BitVec 5), s.task s.here = some t → s.cell0.flights = [] →
    let a := (sourceValue t sa).toNat
    (pairFault (a % 2 ^ 32) = none →
      ∃ c', exec (.ppset pp sa) s = .next ((s.updCell0 fun _ => c').complete (reads t [sa]))
        ∧ (c'.pairBits pp).toNat = a % 2 ^ 32
        ∧ (∀ k, k ≠ pp → c'.pairBits k = s.cell0.pairBits k)
        ∧ c' = { s.cell0 with pp := c'.pp })
    ∧ (∀ cause, pairFault (a % 2 ^ 32) = some cause →
      exec (.ppset pp sa) s = .next (s.raise t cause t.pc.toNat (s.curWord t).toNat))
    ∧ ∃ u, exec (.ppget sd pp) s = .next (s.complete u)
        ∧ ScalarResult s.now t u sd [] 1 ((s.cell0.pairBits pp).zeroExtend 64)

/-- 15:R219, R226, R229, 03:R53: the dense form on integers. A is eight rows of 64 in one half of its lanes, B eight
columns of 64 in one half of its; every position of the tile gains the exact dot product of its row and column,
saturated to 48 bits and noted in ACCSAT; the exponents, the other tiles and everything else stay. Without trimming it
takes 6 + PA * PB cycles. -/
def Sys2Proof.Claims.DenseIntegerProduct : Prop :=
  ∀ (s : State) (t : Task) (ad pp : BitVec 2) (ba bb : BitVec 9) (ha hb : Bool), s.task s.here = some t → ArraysFree s →
    let c := s.cell0
    let p := c.pair pp
    p.fmtA ≤ 1 → p.fmtB ≤ 1 → p.pa ≤ 16 → p.pb ≤ 16 →
    RowsOpen s (operandRows ba.toNat p.fmtA p.pa ++ operandRows bb.toNat p.fmtB p.pb) →
    let a (r k : Nat) := intOf p.fmtA p.pa (codeAt c ba.toNat p.pa (512 * ha.toNat + 64 * r + k))
    let b (k col : Nat) := intOf p.fmtB p.pb (codeAt c bb.toNat p.pb (512 * hb.toNat + 64 * col + k))
    let sum (r col : Nat) : Int := (c.acc ad.toNat r col).1 + sumTo 64 fun k => a r k * b k col
    ∃ c' cycles, UnitRun (.mma ad pp (.rows ba ha) bb hb) s
        { t with taint := t.taint || (rowsFrom ba.toNat p.pa ++ rowsFrom bb.toNat p.pb).any c.rowPoisoned
                  || c.tilePoison.contains ad.toNat } .matrix cycles c'
      ∧ OnlyTile c c' ad.toNat
      ∧ (∀ r col, r < 8 → col < 8 → c'.acc ad.toNat r col = (sat48 (sum r col), (c.acc ad.toNat r col).2))
      ∧ (c'.accSat.getLsbD ad.toNat = (c.accSat.getLsbD ad.toNat
          || (List.range 64).any fun x => decide (sat48 (sum (x / 8) (x % 8)) ≠ sum (x / 8) (x % 8))))
      ∧ c'.accSat.getLsbD 4 = c.accSat.getLsbD 4
      ∧ (∀ j, j < 1024 → c'.lfsrAt j = c.lfsrAt j)
      ∧ (p.trimA = false → p.trimB = false → cycles = 6 + p.pa * p.pb)

/-- 15:R227: the sparse forms on integers. N of every eight places of a row of A are stored, 64 elements a row; the
metadata planes give each its place in its group of eight; B has 512 / N rows. -/
def Sys2Proof.Claims.SparseIntegerProducts : Prop :=
  ∀ (s : State) (t : Task) (ad pp : BitVec 2) (ba bb : BitVec 9) (ha : Bool) (sm : Spec), s.task s.here = some t →
    ArraysFree s →
    let c := s.cell0
    let p := c.pair pp
    let meta_ := (sourceValue t sm).toNat % 512
    p.fmtA ≤ 1 → p.fmtB ≤ 1 → p.pa ≤ 16 → p.pb ≤ 16 →
    let form (i : Instr) (n : Nat) : Prop :=
      let k := 512 / n
      let groups := (8 * k + 1023) / 1024
      RowsOpen s (rowsFrom ba.toNat p.pa ++ rowsFrom bb.toNat (p.pb * groups) ++ rowsFrom meta_ 3) →
      let a (r i : Nat) := intOf p.fmtA p.pa (codeAt c ba.toNat p.pa (512 * ha.toNat + 64 * r + i))
      let place (r i : Nat) := 8 * (i / n) + codeAt c meta_ 3 (512 * ha.toNat + 64 * r + i)
      let b (x col : Nat) :=
        intOf p.fmtB p.pb (codeAt c (bb.toNat + (k * col + x) / 1024 * p.pb) p.pb ((k * col + x) % 1024))
      ∃ c' cycles u, UnitRun i s u .matrix cycles c' ∧ OnlyTile c c' ad.toNat
        ∧ u = { reads t [sm] with taint := u.taint }
        ∧ (∀ r col, r < 8 → col < 8 → c'.acc ad.toNat r col =
            (sat48 ((c.acc ad.toNat r col).1 + sumTo 64 fun i => a r i * b (place r i) col),
              (c.acc ad.toNat r col).2))
        ∧ (p.trimA = false → p.trimB = false → cycles = 8 + p.pa * p.pb)
    form (.mmaS1 ad pp (.rows ba ha) bb sm) 1 ∧ form (.mmaS2 ad pp (.rows ba ha) bb sm) 2
      ∧ form (.mmaS4 ad pp (.rows ba ha) bb sm) 4

/-- 15:R219, R225 to R229: every multiply-accumulate form completes in every format it accepts, from rows and from the
latch, and touches nothing but its tile, ACCSAT, the generators and the taint; MMA.X takes two SCALE tokens. A
poisoned operand or token poisons the tile. -/
def Sys2Proof.Claims.MatrixFormsComplete : Prop :=
  ∀ (s : State) (t : Task) (ad pp : BitVec 2) (a : MatA) (bb : BitVec 9) (hb : Bool) (sm : Spec) (inP inQ : BitVec 2),
    s.task s.here = some t → ArraysFree s →
    let c := s.cell0
    let p := c.pair pp
    let sound (f w : Nat) : Prop := f ≤ 1 ∧ w ≤ 16 ∨ f ≠ 0x10 ∧ 2 ≤ f ∧ 2 ≤ w ∧ w ≤ 16
    let latchOk : Prop := c.latch.planes ≠ [] ∧ c.latch.fmt.toNat = p.fmtA ∧ c.latch.width = p.pa
    let rowsA (x : Bool) : List Nat :=
      match a with
      | .rows ba _ => if x then rowsFrom ba.toNat (storedPlanes p.fmtA p.pa) else operandRows ba.toNat p.fmtA p.pa
      | .latch => []
    sound p.fmtA p.pa → sound p.fmtB p.pb → (a = .latch → latchOk) →
    let form (i : Instr) (srcs : List Spec) (x : Bool) (depth : Nat) (rows : List Nat) : Prop :=
      RowsOpen s (rowsA x ++ rowsFrom bb.toNat (groupRows p.fmtB p.pb * ((8 * depth + 1023) / 1024)) ++ rows) →
      ∃ c' cycles u, UnitRun i s u .matrix cycles c' ∧ OnlyTile c c' ad.toNat
        ∧ u = { reads t srcs with taint := u.taint }
        ∧ ((reads t srcs).taint = true → u.taint = true)
        ∧ (u.taint = true → ad.toNat ∈ c'.tilePoison)
        ∧ (ad.toNat ∈ c.tilePoison → ad.toNat ∈ c'.tilePoison)
        ∧ (c.accSat.getLsbD ad.toNat = true → c'.accSat.getLsbD ad.toNat = true)
        ∧ (c.accSat.getLsbD 4 = true → c'.accSat.getLsbD 4 = true)
    let metaRows := rowsFrom ((sourceValue t sm).toNat % 512) 3
    form (.mma ad pp a bb hb) [] false 64 [] ∧ form (.mmaS1 ad pp a bb sm) [sm] false 512 metaRows
      ∧ form (.mmaS2 ad pp a bb sm) [sm] false 256 metaRows ∧ form (.mmaS4 ad pp a bb sm) [sm] false 128 metaRows
      ∧ (blockFormat p.fmtA → (t.inTok inP).kind = 2 → (t.inTok inQ).kind = 2 →
        form (.mmaX ad pp a bb inP inQ hb) [.inp inP, .inp inQ] true 64 [])

/-- 15:R224, R225: GATHER makes eight table entries of 64 elements the eight rows of the latch; LATCH.CLR invalidates
it. -/
def Sys2Proof.Claims.OperandLatch : Prop :=
  ∀ (s : State) (t : Task) (pp : BitVec 2) (bt : BitVec 9) (sa : Spec), s.task s.here = some t → ArraysFree s →
    let c := s.cell0
    let p := c.pair pp
    let n := storedPlanes p.fmtA p.pa
    let g := groupRows p.fmtA p.pa
    let e (r : Nat) := (sourceValue t sa).toNat / 2 ^ (8 * r) % 256
    let rows := (List.range 8).flatMap fun r => rowsFrom (bt.toNat + e r / 16 * g) g
    ((p.fmtA ≤ 1 ∧ p.pa ≤ 16 ∨ p.fmtA ≠ 0x10 ∧ 2 ≤ p.fmtA ∧ 2 ≤ p.pa ∧ p.pa ≤ 16) → RowsOpen s rows →
      ∃ c', let u := { reads t [sa] with taint := (reads t [sa]).taint || rows.any c.rowPoisoned }
        UnitRun (.gather pp bt sa) s u .matrix (4 + g) c'
        ∧ c'.latch.fmt.toNat = p.fmtA % 32 ∧ c'.latch.width = p.pa ∧ c'.latch.planes.length = n
        ∧ (∀ i r k, i < n → r < 8 → k < 64 →
            (c'.latch.planes.getD i 0).getLsbD (64 * r + k)
              = (c.row (bt.toNat + e r / 16 * g + i)).getLsbD (64 * (e r % 16) + k))
        ∧ c'.latchPoison = u.taint
        ∧ c' = { c with latch := c'.latch, latchPoison := c'.latchPoison, flights := c'.flights })
    ∧ ∃ c', UnitRun .latchClr s t .matrix 1 c' ∧ c'.latch.planes = [] ∧ c'.latchPoison = false
        ∧ c' = { c with latch := c'.latch, latchPoison := false, flights := c'.flights }

/-- 15:R231: ACCRD writes the 64 positions of a tile to one slot of 64 lanes,
converted with the shift and rounding of R231, or in format AW as significand and exponent. -/
def Sys2Proof.Claims.AccumulatorRead : Prop :=
  ∀ (s : State) (t : Task) (bd : BitVec 9) (ad pp : BitVec 2) (fmt : BitVec 5) (sl sh : Spec),
    s.task s.here = some t → ArraysFree s →
    let c := s.cell0
    let p := c.pair pp
    let f := fmt.toNat
    let n := storedPlanes f p.pb
    let slot := (sourceValue t sl).toNat % 16
    let shift : Int := ((sourceValue t sh).truncate 8).toInt
    let pos (j : Nat) := c.acc ad.toNat (j % 64 / 8) (j % 8)
    let sr : Bool := decide (p.mode = 4) && decide (f ≠ 0x10)
    (plainFormat f ∨ f = 0x10 → RowsOpen s (rowsFrom bd.toNat n) →
      ∃ c', let u := { reads t [sl, sh] with taint := (reads t [sl, sh]).taint || c.tilePoison.contains ad.toNat }
        UnitRun (.accrd bd ad pp fmt sl sh) s u .accport (4 + n) c'
        ∧ LanesWritten c c' bd.toNat n (BitVec.ofNat 1024 ((2 ^ 64 - 1) * 2 ^ (64 * slot))) u.taint (fun j =>
            let w := if sr then c.lfsrAt j else 0
            if f = 0x10 then (((pos j).1 % 2 ^ 48).toNat * 2 ^ 16 + ((pos j).2 % 2 ^ 10).toNat * 2 ^ 6)
            else
              let v := Ev.num (decide ((pos j).1 < 0)) (pos j).1.natAbs ((pos j).2 - shift)
              converted p f v w)
        ∧ (∀ j, j < 1024 → c'.lfsrAt j =
            if sr ∧ j / 64 = slot then (lfsrStep (BitVec.ofNat 16 (c.lfsrAt j))).toNat else c.lfsrAt j)
        ∧ c' = { c with bank := c'.bank, written := c'.written, bankPoison := c'.bankPoison, lfsr := c'.lfsr, flights := c'.flights })

/-- 15:R232: ACCADD of a tile adds its positions to another tile, of rows the 64 AW codes of a slot; with an integer
pair a source of exponent 0 adds significands, saturated to 48 bits. A source exponent other than 0 under an integer
pair, or an AW code with low bits, raises FORMAT. -/
def Sys2Proof.Claims.AccumulatorAdd : Prop :=
  ∀ (s : State) (t : Task) (ad src pp : BitVec 2) (ba : BitVec 9) (sl : Spec), s.task s.here = some t → ArraysFree s →
    let c := s.cell0
    let p := c.pair pp
    let ints : Bool := decide (p.fmtA ≤ 1) && decide (p.fmtB ≤ 1)
    let slot := (sourceValue t sl).toNat % 16
    let code (r col : Nat) := codeAt c ba.toNat 64 (64 * slot + 8 * r + col)
    let aw (r col : Nat) : Int × Int :=
      ((BitVec.ofNat 48 (code r col / 2 ^ 16)).toInt, (BitVec.ofNat 10 (code r col / 2 ^ 6)).toInt)
    let clean (f : Nat → Nat → Int × Int) : Prop := ints = true → ∀ r col, r < 8 → col < 8 → (f r col).2 = 0
    let added (i : Instr) (u : Task) (cycles : Nat) (f : Nat → Nat → Int × Int) : Prop :=
      ∃ c', UnitRun i s u .accport cycles c' ∧ OnlyTile c c' ad.toNat
        ∧ (u.taint = true → ad.toNat ∈ c'.tilePoison)
        ∧ (ints = true → ∀ r col, r < 8 → col < 8 →
            c'.acc ad.toNat r col = (sat48 ((c.acc ad.toNat r col).1 + (f r col).1), (c.acc ad.toNat r col).2))
        ∧ (ints = false → ∀ r col, r < 8 → col < 8 →
            c'.acc ad.toNat r col = (addAw false (c.acc ad.toNat r col) (f r col).1 (f r col).2).1)
    let badWord (i : Instr) : Prop := exec i s = .next (s.raise t 0x03 t.pc.toNat (s.curWord t).toNat)
    (clean (c.acc src.toNat) → added (.accaddTile ad src pp)
      { t with taint := t.taint || c.tilePoison.contains src.toNat || c.tilePoison.contains ad.toNat } 4 (c.acc src.toNat))
    ∧ (RowsOpen s (rowsFrom ba.toNat 64) → clean aw → (∀ r col, r < 8 → col < 8 → code r col % 64 = 0) →
      added (.accaddRows ad pp ba sl)
        { reads t [sl] with taint := (reads t [sl]).taint || (rowsFrom ba.toNat 64).any c.rowPoisoned
                              || c.tilePoison.contains ad.toNat } 68 aw)
    ∧ (∀ r col, r < 8 → col < 8 → ints = true → (c.acc src.toNat r col).2 ≠ 0 → badWord (.accaddTile ad src pp))
    ∧ (∀ r col, r < 8 → col < 8 → RowsOpen s (rowsFrom ba.toNat 64) →
        code r col % 64 ≠ 0 ∨ (ints = true ∧ (aw r col).2 ≠ 0) → badWord (.accaddRows ad pp ba sl))

/-- 15:R217, R233, R234: REGION.CFG installs a region word that passes its checks with a copy of its pair, REGION.CFG OFF
takes it away, and either keeps the region's readers waiting for its 2 cycles; SWEEP.R sends a sweep of the region's cells from the first, with START the region word of bit 0 set and the
pair beside it, and without a region raises PROTECTION; SWEEP.G sends a sweep to the first cell of a gallery. -/
def Sys2Proof.Claims.SystolicRegions : Prop :=
  ∀ (s : State) (t : Task) (sw : Spec) (v start : Bool), s.task s.here = some t → ArraysFree s →
    let c := s.cell0
    let a := (sourceValue t sw).toNat
    let field (lo n : Nat) := a / 2 ^ lo % 2 ^ n
    let rows := field 57 3 + 1
    let cols := field 54 3 + 1
    let row0 := field 49 5
    let col0 := field 44 5
    let steps := field 36 8 + 1
    let p := c.pair (BitVec.ofNat 2 (field 14 2))
    let pairWord := c.pairBits (BitVec.ofNat 2 (field 14 2))
    let here := s.focus.toNat
    let sound (f w : Nat) : Prop := f ≤ 1 ∧ w ≤ 16 ∨ f ≠ 0x10 ∧ 2 ≤ f ∧ 2 ≤ w ∧ w ≤ 16
    let sweepTok (dst payload : Nat) : Token :=
      { kind := 3, poison := t.taint, ver := t.ver, ctx := t.ctx, iter := t.sendIter, pred := .none
        dst := BitVec.ofNat 18 dst, aux := BitVec.ofNat 9 (4 + 16 * v.toNat), payload := BitVec.ofNat 64 payload }
    let sent (u : Task) (src dst : Nat) (b : Body) : State := State.complete { s with net := s.net ++ [⟨src, dst, b⟩] } u
    (a / 2 ^ 60 = 0 → a % 2 ^ 7 = 0 → 1 ≤ row0 → row0 + rows ≤ 32 → col0 + cols ≤ 32 →
      row0 ≤ here % 1024 / 32 → here % 1024 / 32 < row0 + rows → col0 ≤ here % 32 → here % 32 < col0 + cols →
      sound p.fmtA p.pa → sound p.fmtB p.pb →
      field 27 9 + steps * groupRows p.fmtA p.pa ≤ 512 → field 18 9 + steps * groupRows p.fmtB p.pb ≤ 512 →
      exec (.regionCfg sw) s = .next
        ((s.updCell0 fun x =>
          { x with
            region := BitVec.ofNat 64 a, regionPair := pairWord
            flights := [⟨.region, s.now + 2, [.pair (field 14 2)], [.region]⟩] }).issued (reads t [sw]).fallThrough 2))
    ∧ (a / 2 ^ 60 ≠ 0 ∨ a % 2 ^ 7 ≠ 0 →
      exec (.regionCfg sw) s = .next (s.raise t 0x02 t.pc.toNat (s.curWord t).toNat))
    ∧ exec .regionCfgOff s = .next ((s.updCell0 fun x =>
          { x with region := 0, regionPair := 0, flights := [⟨.region, s.now + 2, [], [.region]⟩] }).issued t.fallThrough 2)
    ∧ (c.region = 0 → exec (.sweepR v start) s = .next (s.raise t 0x09 t.pc.toNat (s.curWord t).toNat))
    ∧ (c.region ≠ 0 →
      let w := c.region.toNat
      let first := here / 1024 * 1024 + w / 2 ^ 49 % 32 * 32 + w / 2 ^ 44 % 32
      exec (.sweepR v start) s = .next (sent t here first (.sweep
        (sweepTok first (if start then Nat.lor w 1 else w))
        (if start then some (sweepTok first (0xF * 2 ^ 60 + c.regionPair.toNat)) else none) [] none)))
    ∧ (let first := a / 2 ^ 10 % 256 * 1024
      exec (.sweepG v sw) s = .next (sent (reads t [sw]) here first (.sweep
        { sweepTok first 0 with poison := (reads t [sw]).taint } none [] none)))

/-- 15:R238 to R241: the optimiser. Each written lane of the state (and for OPT.MOM of the momentum rows, whose rounded value
the state then uses) takes the result of R239's formula, computed exactly and rounded once per result: integers by Fit, floats
with the pair's mode; the sign of an exact zero sum of unlike signs is log entry 15's (DESIGN CHOICE). A lane with a non-finite
update is not written in mode POISON; the task takes taint from it; in mode SR each result steps its lane's generator once, of
integers too. A non-finite hyperparameter that R239 does not call ignored raises ARITH. -/
def Obligations.OptimiserInstructions : Prop :=
  ∀ (s : State) (t : Task) (bw bg : BitVec 9) (pp : BitVec 2) (sm sh : Spec) (mask : Option (BitVec 3)),
    s.task s.here = some t → ArraysFree s →
    let c := s.cell0
    let p := c.pair pp
    let nw := storedPlanes p.fmtA p.pa
    let ng := storedPlanes p.fmtB p.pb
    let float : Prop := p.fmtA = 2 ∨ p.fmtA = 3 ∨ p.fmtA = 6
    let f : FloatFmt := match p.fmtA with | 2 => ⟨5, 10, 0⟩ | 3 => ⟨8, 23, 0⟩ | _ => ⟨8, 7, 0⟩
    let h := (sourceValue t sh).toNat
    let h0 := valOf 3 (h % 2 ^ 32) 32
    let h1 := valOf 3 (h / 2 ^ 32) 32
    let mb := (sourceValue t sm).toNat % 512
    let g (j : Nat) := valOf p.fmtB (codeAt c bg.toNat ng j) p.pb
    let m := lanesOf c mask
    let sr : Bool := decide (p.mode = 4)
    let odd (j : Nat) : Bool := m.getLsbD j && !(g j).finite
    let on (j : Nat) : Bool := m.getLsbD j && !(odd j && !p.clamp)
    let u (j : Nat) : Ev := clampedTo p.fmtB 0 (g j)
    let w1 (j : Nat) := if sr then c.lfsrAt j else 0
    let w2 (j : Nat) := if sr then (lfsrStep (BitVec.ofNat 16 (c.lfsrAt j))).toNat else 0
    let state (j : Nat) := valOf p.fmtA (codeAt c bw.toNat nw j) p.pa
    let moment (j : Nat) := valOf p.fmtA (codeAt c mb nw j) p.pa
    -- the factors 1, h, -h and 1 - h
    let sign (v : Ev) : Bool := match v with | .num neg _ _ => neg | _ => false
    let one : Bool × ℚ := (false, 1)
    let times (v : Ev) : Bool × ℚ := (sign v, ratOf v)
    let less (v : Ev) : Bool × ℚ := (!sign v, -ratOf v)
    let rest (v : Ev) : Bool × ℚ :=
      (if ratOf v = 1 then decide (p.mode = 2) else decide (1 < ratOf v), 1 - ratOf v)
    let square (v : Ev) : Ev := match v with | .num _ x e => .num false (x * x) (e + e) | v => v
    -- the new codes of lane j's state and, of OPT.MOM, momentum
    let result (k : OptKind) (j newW newM : Nat) : Prop := match k with
      | .addc =>
        if p.fmtA ≤ 1 then
          newW = fitTo (intOf p.fmtA p.pa (codeAt c bw.toNat nw j) + intOf p.fmtB p.pb (codeAt c bg.toNat ng j))
            (decide (p.fmtA = 0)) p.pa p.sat
        else RoundedSum f p (w1 j) one (state j) one (u j) newW
      | .sgd => RoundedSum f p (w1 j) one (state j) (less h0) (u j) newW
      | .mom => RoundedSum f p (w1 j) (times h1) (moment j) one (u j) newM
          ∧ RoundedSum f p (w2 j) one (state j) (less h0) (valOf p.fmtA newM p.pa) newW
      | .adam2 => RoundedSum f p (w1 j) (times h1) (state j) (rest h1) (square (u j)) newW
      | .ema => RoundedSum f p (w1 j) (times h0) (state j) (rest h0) (u j) newW
    let hit := (List.range 1024).any odd
    let after (i : Instr) (k : OptKind) (srcs : List Spec) (rows : List Nat) (cycles : Nat) : Prop :=
      RowsOpen s (rowsFrom bw.toNat nw ++ rows ++ rowsFrom bg.toNat ng) →
      ∃ c', let u0 := reads t srcs
        let u := { u0 with taint := taintAfter c u0 (rowsFrom bw.toNat nw ++ rows ++ rowsFrom bg.toNat ng) (maskRegs mask)
                              || (hit && !p.clamp) }
        UnitRun i s u .lane cycles c'
        ∧ (∀ j, j < 1024 → on j = true → (k = .mom → mb + nw ≤ bw.toNat ∨ bw.toNat + nw ≤ mb) →
            result k j (codeAt c' bw.toNat nw j) (codeAt c' mb nw j))
        ∧ (∀ j, j < 1024 → on j = false → codeAt c' bw.toNat nw j = codeAt c bw.toNat nw j
            ∧ (k = .mom → codeAt c' mb nw j = codeAt c mb nw j))
        ∧ (∀ r, r ∉ rowsFrom bw.toNat nw ++ rows → c'.row r = c.row r ∧ c'.rowPoisoned r = c.rowPoisoned r)
        ∧ c'.accSat = (if hit && p.clamp then c.accSat ||| 16 else c.accSat)
        ∧ (∀ j, j < 1024 → c'.lfsrAt j =
            if sr && on j then (lfsrStep^[if k = .mom then 2 else 1] (BitVec.ofNat 16 (c.lfsrAt j))).toNat else c.lfsrAt j)
        ∧ c' = { c with
            bank := c'.bank, written := c'.written, bankPoison := c'.bankPoison, lfsr := c'.lfsr, flights := c'.flights, accSat := c'.accSat }
    let momRows := rowsFrom mb nw
    let arith (i : Instr) : Prop := exec i s = .next (s.raise t 0x30 t.pc.toNat h)
    plainFormat p.fmtB →
    (float ∨ (p.fmtA ≤ 1 ∧ p.fmtB ≤ 1) → after (.optAddc bw bg pp mask) .addc [] [] (4 + nw + ng))
    ∧ (float → h0.finite = true → h1.finite = true → after (.optSgd bw bg pp sh mask) .sgd [sh] [] (8 + nw + ng))
    ∧ (float → h0.finite = true → h1.finite = true →
        after (.optMom bw bg pp sm sh mask) .mom [sm, sh] momRows (12 + 2 * nw + ng))
    ∧ (float → h1.finite = true → after (.optAdam2 bw bg pp sh mask) .adam2 [sh] [] (10 + nw + 2 * ng))
    ∧ (float → h0.finite = true → after (.optEma bw bg pp sh mask) .ema [sh] [] (8 + 2 * nw))
    ∧ (float → RowsOpen s (rowsFrom bw.toNat nw ++ rowsFrom bg.toNat ng) →
        (h0.finite = false ∨ h1.finite = false → arith (.optSgd bw bg pp sh mask))
        ∧ (h0.finite = false → arith (.optEma bw bg pp sh mask))
        ∧ (h1.finite = false → arith (.optAdam2 bw bg pp sh mask))
        ∧ (h0.finite = false ∨ h1.finite = false → RowsOpen s momRows → arith (.optMom bw bg pp sm sh mask)))

end

namespace Sys2Proof.Claims

open Sys2Proof.Machine

/-- A lane's word after `n` draws (03:R46, R47). -/
def wordAfter (c : Cell) (n lane : Nat) : Nat := (lfsrStep^[n] (BitVec.ofNat 16 (c.lfsrAt lane))).toNat

/-- An operand of 32-element blocks: its format, width, and each block's first lane, scale byte and codes. -/
structure Blocks where
  fmt : Nat
  width : Nat
  lane : Nat → Nat
  byte : Nat → Nat
  code : Nat → Nat → Nat

/-- The blocks of an operand, numbered from `first`, as they enter the array: integers as they are, the others by BlockAlign,
whose random words follow the draws of the blocks before (03:R46, R49; 15:R226). `lane` gives every block's first lane. -/
def AlignedFrom (c : Cell) (p : Pair) (o : Blocks) (first n : Nat) (lane : Nat → Nat) (al : Nat → Aligned) : Prop :=
  ∀ b, b < n →
    if o.fmt ≤ 1 then
      al (first + b) = { q := (List.range 32).map fun i => intOf o.fmt o.width (o.code b i) }
    else
      al (first + b) = blockAlign o.fmt o.width p.mode p.clamp (o.byte b)
        ((List.range 32).map fun i =>
          if 8 ≤ o.fmt then blockVal o.fmt (o.byte b) (o.code b i) else valOf o.fmt (o.code b i) o.width)
        fun i => if p.mode = 4 then
            wordAfter c ((List.range (first + b)).countP fun d => (al d).drew && decide (lane d = o.lane b)) (o.lane b + i)
          else 0

end Sys2Proof.Claims

section

open Sys2Proof Sys2Proof.Machine Sys2Proof.Claims

/-- 15:R223, R225 to R228, 03:R49, R52, R53: what the multiply-accumulate forms add where an operand is not an integer. The
blocks of A and then those of B are aligned in order, and every position of the tile takes by AddAW, in ascending k, the exact
dot product of its row and column over 32 places with the sum of the two blocks' exponents; of the sparse forms a row's stored
elements are put in the places that the metadata give. A poisoned block poisons the tile, a clamped one sets ACCSAT[4], and each
block that draws steps its lanes once. -/
def Sys2Proof.Claims.ProductsOfBlocks : Prop :=
  ∀ (s : State) (t : Task) (ad pp : BitVec 2) (a : MatA) (bb : BitVec 9) (hb : Bool) (sm : Spec) (inP inQ : BitVec 2),
    s.task s.here = some t → ArraysFree s →
    let c := s.cell0
    let p := c.pair pp
    let sound (f w : Nat) : Prop := f ≤ 1 ∧ w ≤ 16 ∨ 2 ≤ f ∧ f ≤ 0x0E ∧ 2 ≤ w ∧ w ≤ 16
    let na := storedPlanes p.fmtA p.pa
    let nb := storedPlanes p.fmtB p.pb
    let half : Nat := match a with | .rows _ ha => ha.toNat | .latch => 0
    let meta_ := (sourceValue t sm).toNat % 512
    sound p.fmtA p.pa → sound p.fmtB p.pb → ¬(p.fmtA ≤ 1 ∧ p.fmtB ≤ 1) →
    (a = .latch → c.latch.planes ≠ [] ∧ c.latch.fmt.toNat = p.fmtA ∧ c.latch.width = p.pa) →
    let blocksA (x : Bool) : Blocks :=
      { fmt := p.fmtA
        width := p.pa
        lane := fun j => 512 * half + 32 * j
        byte := fun j =>
          if x then (t.inTok (if j % 2 = 0 then inP else inQ)).payload.toNat / 2 ^ (8 * (j / 2)) % 256
          else match a with
            | .rows ba _ => (c.row (ba.toNat + na)).toNat / 2 ^ (8 * (16 * half + j)) % 256
            | .latch => c.latch.scale.toNat / 2 ^ (8 * j) % 256
        code := fun j i =>
          match a with
          | .rows ba _ => codeAt c ba.toNat na (512 * half + 32 * j + i)
          | .latch => c.latch.planes.foldl (fun a r => 2 * a + (r.getLsbD (32 * j + i)).toNat) 0 }
    -- B of k places a column, from lane 512 * h of its first group on
    let blocksB (h : Nat) : Blocks :=
      { fmt := p.fmtB
        width := p.pb
        lane := fun j => (512 * h + 32 * j) % 1024
        byte := fun j =>
          let base := bb.toNat + (512 * h + 32 * j) / 1024 * groupRows p.fmtB p.pb
          (c.row (base + nb)).toNat / 2 ^ (8 * ((512 * h + 32 * j) % 1024 / 32)) % 256
        code := fun j i =>
          codeAt c (bb.toNat + (512 * h + 32 * j) / 1024 * groupRows p.fmtB p.pb) nb ((512 * h + 32 * j) % 1024 + i) }
    -- a form of depth k; `elem al r x` is row r's element at place x
    let form (i : Instr) (srcs : List Spec) (x : Bool) (k h : Nat) (rows : List Nat)
        (elem : (Nat → Aligned) → Nat → Nat → Int) : Prop :=
      let rowsA := match a with
        | .rows ba _ => if x then rowsFrom ba.toNat na else operandRows ba.toNat p.fmtA p.pa
        | .latch => []
      RowsOpen s (rowsA ++ rowsFrom bb.toNat (groupRows p.fmtB p.pb * ((8 * k + 1023) / 1024)) ++ rows) →
      let count := 16 + 8 * k / 32
      let lane (d : Nat) : Nat := if d < 16 then (blocksA x).lane d else (blocksB h).lane (d - 16)
      ∃ (c' : Cell) (cycles : Nat) (u : Task) (al : Nat → Aligned),
        UnitRun i s u .matrix cycles c' ∧ u = { reads t srcs with taint := u.taint }
        ∧ AlignedFrom c p (blocksA x) 0 16 lane al ∧ AlignedFrom c p (blocksB h) 16 (8 * k / 32) lane al
        ∧ (∀ r col, r < 8 → col < 8 → c'.acc ad.toNat r col =
            (List.range (k / 32)).foldl (fun acc b =>
                let colBlock := al (16 + col * (k / 32) + b)
                (addAw false acc (sumTo 32 fun i => elem al r (32 * b + i) * colBlock.q.getD i 0)
                  ((al (2 * r + b / (k / 64))).e + colBlock.e)).1)
              (c.acc ad.toNat r col))
        ∧ (ad.toNat ∈ c'.tilePoison ↔
            ad.toNat ∈ c.tilePoison ∨ u.taint = true ∨ ∃ d, d < count ∧ (al d).poison = true)
        ∧ (c'.accSat.getLsbD 4 = (c.accSat.getLsbD 4 || (List.range count).any fun d => (al d).clamped))
        ∧ (∀ j, j < 1024 → c'.lfsrAt j =
            wordAfter c ((List.range count).countP fun d => (al d).drew && decide (lane d = 32 * (j / 32))) j)
    let dense (al : Nat → Aligned) (r x : Nat) : Int := (al (2 * r + x / 32)).q.getD (x % 32) 0
    -- of the sparse forms, the stored elements whose place is x
    let sparse (n : Nat) (al : Nat → Aligned) (r x : Nat) : Int :=
      sumTo 64 fun m =>
        if 8 * (m / n) + codeAt c meta_ 3 (512 * half + 64 * r + m) = x then (al (2 * r + m / 32)).q.getD (m % 32) 0 else 0
    form (.mma ad pp a bb hb) [] false 64 hb.toNat [] dense
      ∧ form (.mmaS1 ad pp a bb sm) [sm] false 512 0 (rowsFrom meta_ 3) (sparse 1)
      ∧ form (.mmaS2 ad pp a bb sm) [sm] false 256 0 (rowsFrom meta_ 3) (sparse 2)
      ∧ form (.mmaS4 ad pp a bb sm) [sm] false 128 0 (rowsFrom meta_ 3) (sparse 4)
      ∧ (blockFormat p.fmtA → (t.inTok inP).kind = 2 → (t.inTok inQ).kind = 2 →
        form (.mmaX ad pp a bb inP inQ hb) [.inp inP, .inp inQ] true 64 hb.toNat [] dense)

end

namespace Sys2Proof.Claims

open Sys2Proof.Machine

/-! ## Tokens -/

/-- A token with the sending task's context, send iteration, version and taint (17:R245). -/
def tokenOf (t : Task) (kind : Nat) (pred : TPred) (aux : BitVec 9) (v : Word) : Token :=
  { kind := BitVec.ofNat 3 kind, dst := 0, poison := t.taint, ver := t.ver, rtag := 0, ctx := t.ctx, iter := t.sendIter
    pred := pred, aux := aux, payload := v }

/-- The node of a task, as the module's records and packets name it. -/
def nodeOf (s : State) (t : Task) : NodeRef := ⟨s.focus.toNat, t.ver, t.node, t.ctx, t.iter, some t.stage⟩

/-- Nothing that a release of the task waits for: no operation of it outstanding, no presence store of its firing on its
way, no store of an STR at SYSTEM of the cell that the host has not acknowledged (07:R113, R139). -/
def NothingEarlier (s : State) (t : Task) : Prop :=
  s.taskOps = [] ∧ (∀ p ∈ s.net, ∀ a v n, p.body ≠ .presStore a v n (nodeOf s t))
  ∧ ∀ x ∈ s.hostStores, x.releases = true → x.cell ≠ some s.focus.toNat

/-- Each port of a list has an edge inside the configuration with a credit and an empty ring; no promotion holds the
cell's releases, and nothing earlier does (05:R70, 07:R113, R127). -/
def PortsReady (s : State) (t : Task) (edge : Nat → Edge) (dst : Nat → Nat) (rtag : Nat → BitVec 8) (ports : List Nat) :
    Prop :=
  s.cell0.prom = none ∧ NothingEarlier s t ∧ t.done = []
  ∧ ∃ n, s.node s.focus.toNat t.ver t.node = some n ∧ ∀ p ∈ ports,
      n.outputs[p]? = some (some (edge p)) ∧ (edge p).dest = .internal (dst p) (rtag p) ∧ 0 < (edge p).credits
      ∧ (edge p).ringTokens = [] ∧ s.hostPending s.focus.toNat (edge p).scope = false

/-- A token has left on a port: the release of the edge's scope, one credit less, the token on its way with the edge's
destination and route tag. -/
def sentOn (t : Task) (edge : Nat → Edge) (dst : Nat → Nat) (rtag : Nat → BitVec 8) (s : State) (x : Nat × Token) : State :=
  let here := s.focus.toNat
  let s1 := (s.release here t.node (edge x.1).scope).updNode here t.ver t.node fun n =>
    { n with outputs := lset n.outputs x.1 (·.map fun e => { e with credits := e.credits - 1, stalledSince := none }) }
  { s1 with net := s1.net ++ [⟨here, dst x.1,
      .token { x.2 with ver := t.ver, dst := BitVec.ofNat 18 (dst x.1), rtag := rtag x.1, scope := (edge x.1).scope }
        (some ⟨here, t.ver, t.node, x.1⟩)⟩] }

def sendAll (s : State) (t : Task) (edge : Nat → Edge) (dst : Nat → Nat) (rtag : Nat → BitVec 8) (l : List (Nat × Token)) :
    State := l.foldl (sentOn t edge dst rtag) s

/-- The instruction sends these tokens, in this order, and completes with the task noting the ports. -/
def Sends (i : Instr) (s : State) (t : Task) (edge : Nat → Edge) (dst : Nat → Nat) (rtag : Nat → BitVec 8)
    (l : List (Nat × Token)) (delay : Nat) : Prop :=
  let u : Task := { t with sent := (l.map fun x => x.1).reverse ++ t.sent }
  exec i s = .next ((sendAll s t edge dst rtag l).issued u.fallThrough delay)

/-- An instruction whose guard fails does nothing but complete (09:R145). -/
def Skips (i : Instr) (s : State) (t : Task) (g : Guard) : Prop :=
  t.holds g = false → exec i s = .next (s.complete t)

/-- A scalar result of a guarded instruction. -/
def GuardedResult (i : Instr) (s : State) (t : Task) (g : Guard) (sd : BitVec 5) (srcs : List Spec) (v : Word) : Prop :=
  Skips i s t g ∧ (t.holds g = true → ∃ u, exec i s = .next (s.complete u) ∧ ScalarResult s.now t u sd srcs 1 v)

end Sys2Proof.Claims

section

open Sys2Proof Sys2Proof.Machine Sys2Proof.Claims

/-- 17:R245, R246, R249, R257, 09:R145: SEND sends its operand, SENDN a null token, EOS a CTRL token, DUP its operand on
every port of its mask, which takes the cell's issue slot for as many cycles; a failed guard sends null tokens on the
same ports. -/
def Sys2Proof.Claims.SendsOnEdges : Prop :=
  ∀ (s : State) (t : Task) (g : Guard) (op : BitVec 2) (ports : BitVec 4) (sa : Spec) (pred : TPred) (aux : BitVec 9)
    (kind : TkKind) (edge : Nat → Edge) (dst : Nat → Nat) (rtag : Nat → BitVec 8), s.task s.here = some t →
    let u := reads t [sa]
    let null := tokenOf t 0 .null 0 0
    let tok := tokenOf u kind.code pred aux (sourceValue t sa)
    let mask := (List.range 4).filter fun p => ports.getLsbD p
    (PortsReady s t edge dst rtag [op.toNat] →
      (t.holds g = true → Sends (.send g op sa pred aux kind) s u edge dst rtag [(op.toNat, tok)] 1)
      ∧ (t.holds g = true → Sends (.sendn g op) s t edge dst rtag [(op.toNat, null)] 1)
      ∧ (t.holds g = true → exec (.eos g op) s = .next
          (((sendAll s t edge dst rtag [(op.toNat, tokenOf t 3 .none 3 0)]).endInputs s.focus.toNat t.ver t.node).complete
            { t with sent := op.toNat :: t.sent }))
      ∧ (t.holds g = false → Sends (.send g op sa pred aux kind) s t edge dst rtag [(op.toNat, null)] 1
        ∧ Sends (.sendn g op) s t edge dst rtag [(op.toNat, null)] 1
        ∧ Sends (.eos g op) s t edge dst rtag [(op.toNat, null)] 1))
    ∧ (PortsReady s t edge dst rtag mask → ports ≠ 0 →
      let dup (w : Task) (x : Token) : Prop := exec (.dup g ports sa pred aux kind) s = .next
        (((sendAll s w edge dst rtag (mask.map fun p => (p, x))).issued
            ({ w with sent := mask.reverse ++ w.sent } : Task).fallThrough mask.length).updCell0 fun c =>
          { c with issuedAt := some (s.now + mask.length - 1) })
      (t.holds g = true → dup u tok) ∧ (t.holds g = false → dup t null))

/-- 17:R247: STEER sends its operand on the port that its predicate chooses of the pair and a null token on the other;
with a failed guard null tokens on both. -/
def Sys2Proof.Claims.SteerSelectsPort : Prop :=
  ∀ (s : State) (t : Task) (g : Guard) (hi : Bool) (sa : Spec) (pt : BitVec 3) (aux : BitVec 9) (kind : TkKind)
    (edge : Nat → Edge) (dst : Nat → Nat) (rtag : Nat → BitVec 8), s.task s.here = some t →
    let lo := if hi then 2 else 0
    let u := reads t [sa]
    let tok (p : TPred) := tokenOf u kind.code p aux (sourceValue t sa)
    let i : Instr := .steer g hi sa pt aux kind
    PortsReady s t edge dst rtag [lo, lo + 1] →
    (t.holds g = true → t.pred pt = true →
      Sends i s u edge dst rtag [(lo, tok .true), (lo + 1, tokenOf u 0 .null 0 0)] 1)
    ∧ (t.holds g = true → t.pred pt = false →
      Sends i s u edge dst rtag [(lo, tokenOf u 0 .null 0 0), (lo + 1, tok .false)] 1)
    ∧ (t.holds g = false →
      Sends i s t edge dst rtag [(lo, tokenOf t 0 .null 0 0), (lo + 1, tokenOf t 0 .null 0 0)] 1)

/-- 05:R70, R91, R396, 07:R119, R127: where a token of SENDN goes that does not take an edge's credit. A port not in use
raises PROTECTION; a full edge with ring space puts the token on the ring; one without keeps the task waiting in STALL1;
an edge to another configuration delivers to its place against the agent's credit, or enters the vestibule while that has
room, within the declared scope, and raises SCOPE outside it; a promotion in progress keeps the task waiting. -/
def Sys2Proof.Claims.SendTokenRoutes : Prop :=
  ∀ (s : State) (t : Task) (n : Node) (g : Guard) (op : BitVec 2), s.task s.here = some t →
    s.node s.focus.toNat t.ver t.node = some n → NothingEarlier s t → t.done = [] →
    let here := s.focus.toNat
    let p := op.toNat
    let i : Instr := .sendn g op
    let null := tokenOf t 0 .null 0 0
    let noted : Task := { t with sent := p :: t.sent }
    let setEdge (s : State) (f : Edge → Edge) : State :=
      s.updNode here t.ver t.node fun n => { n with outputs := lset n.outputs p (·.map f) }
    let stalled : State :=
      (setEdge s fun e => { e with stalledSince := some (e.stalledSince.getD s.now) }).retry t (some 1)
    ((∀ e, n.outputs[p]? ≠ some (some e)) → exec i s = .next (s.raise t 0x09 t.pc.toNat (s.curWord t).toNat))
    ∧ (∀ e, n.outputs[p]? = some (some e) → (∃ dst rtag, e.dest = .internal dst rtag) → s.cell0.prom ≠ none →
        exec i s = .next (s.retry t none true))
    ∧ (∀ e, n.outputs[p]? = some (some e) → s.cell0.prom = none → s.hostPending here e.scope = false →
      ∀ dst rtag, e.dest = .internal dst rtag → e.credits = 0 ∨ e.ringTokens ≠ [] →
        (∀ cap, e.ring = some cap → e.ringTokens.length < cap →
          exec i s = .next ((setEdge (s.release here t.node e.scope) fun e =>
            { e with
              ringTokens := e.ringTokens ++
                [{ null with ver := t.ver, dst := BitVec.ofNat 18 dst, rtag := rtag, scope := e.scope }]
              stalledSince := none }).complete noted))
        ∧ ((∀ cap, e.ring = some cap → cap ≤ e.ringTokens.length) → exec i s = .next stalled))
    ∧ (∀ e, n.outputs[p]? = some (some e) → ∀ cfg node port c, e.dest = .external cfg node port →
      s.cfg t.ctx cfg = some c →
      let place := s.resolve (hallOf here) t.ctx cfg node
      let credit := tgetD c.credits 16 (node * 4 + port)
      let sent (sc : Scope) : State := setEdge (s.release here t.node sc) fun e => { e with stalledSince := none }
      let tok (sc : Scope) : Token :=
        { null with scope := sc, edge := (s.version here t.ver).owner.map fun o => (o.2, n.gid, p) }
      let toVest (sc : Scope) : Prop :=
        exec i s = .next (((sent sc).toVest t.ctx cfg node port (tok sc)).complete noted)
      (∀ x, place = some x → n.role ≠ .landing → Scope.le (scopeBetween here x.cell) n.scope = false →
        exec i s = .next (s.raise t 0x18 t.pc.toNat x.cell))
      ∧ ((∀ x, place = some x → n.role = .landing ∨ Scope.le (scopeBetween here x.cell) n.scope = true) →
        (s.cell0.prom ≠ none → exec i s = .next (s.retry t none true))
        ∧ (s.cell0.prom = none → s.hostPending here e.scope = false → (s.hall (hallOf here)).switching = false →
          (∀ x, place = some x → let sc := scopeBetween here x.cell
            (c.vest = [] → 0 < credit →
              exec i s = .next (State.complete
                (((sent sc).updCfg t.ctx cfg fun c =>
                    { c with credits := tput c.credits (node * 4 + port) (tgetD c.credits 16 (node * 4 + port) - 1) }).send
                  ⟨here, x.cell, .extToken { tok sc with dst := BitVec.ofNat 18 x.cell } node port cfg⟩) noted))
            ∧ (c.vest ≠ [] ∨ credit = 0 → c.vest.length < c.vestCap → toVest sc)
            ∧ (c.vest ≠ [] ∨ credit = 0 → c.vestCap ≤ c.vest.length → exec i s = .next stalled))
          ∧ (place = none →
            (c.vest.length < c.vestCap → toVest .device) ∧ (c.vestCap ≤ c.vest.length → exec i s = .next stalled)))))

/-- 17:R248: SELECT.P reads only the operand its predicate chooses; SELECT.NN takes the first of two tokens that is not
null and says in its predicate whether it was the first. -/
def Sys2Proof.Claims.Selections : Prop :=
  ∀ (s : State) (t : Task) (g : Guard) (sd : BitVec 5) (sa sb : Spec) (ia ib : BitVec 2) (pt : BitVec 3),
    s.task s.here = some t →
    let x := if t.pred pt then sa else sb
    let a := t.inTok ia
    let b := t.inTok ib
    GuardedResult (.selectP g sd sa sb pt) s t g sd [x] (sourceValue t x)
    ∧ Skips (.selectNN g sd ia ib pt) s t g
    ∧ (t.holds g = true → ∃ u, exec (.selectNN g sd ia ib pt) s = .next (s.complete u)
        ∧ u.reg sd = (if sd = 0 then 0 else if a.pred ≠ .null then a.payload else if b.pred ≠ .null then b.payload else 0)
        ∧ (∀ r, r ≠ sd → u.reg r = t.reg r)
        ∧ u.pred pt = (if pt = 0 then true else decide (a.pred ≠ .null))
        ∧ (∀ q, q ≠ pt → u.pred q = t.pred q)
        ∧ u = { t with
            regs := u.regs, ready := u.ready, preds := u.preds
            taint := t.taint || (if a.pred ≠ .null then a.poison else decide (b.pred ≠ .null) && b.poison) })

/-- 17:R250: TAGGET gives context and send iteration; TAGSET sets the send iteration to a live tag of the context's
LOOPB window, where there is none to 0, and raises TAG_WINDOW on any other; a window kept on another cell is asked for
and the task waits. -/
def Sys2Proof.Claims.IterationTags : Prop :=
  ∀ (s : State) (t : Task) (g : Guard) (sd : BitVec 5) (sa : Spec), s.task s.here = some t →
    let a := (sourceValue t sa).toNat
    let u := reads t [sa]
    let set : Prop := exec (.tagset g sa) s = .next (s.complete { u with sendIter := BitVec.ofNat 12 a })
    let bad : Prop := exec (.tagset g sa) s = .next (s.raise u 0x12 (a % 4096) a)
    GuardedResult (.tagget g sd) s t g sd [] (BitVec.ofNat 64 (t.ctx.toNat * 4096 + t.sendIter.toNat))
    ∧ Skips (.tagset g sa) s t g
    ∧ (t.holds g = true →
      (s.loopbSpec t.ctx = none → (a % 4096 = 0 → set) ∧ (a % 4096 ≠ 0 → bad))
      ∧ (∀ x p n, s.loopbSpec t.ctx = some x → s.loopbPlace t.ctx = some p → p.cell = s.focus.toNat →
          s.node p.cell p.ver p.node = some n →
          ((a % 4096 + 4096 - n.loopBase) % 4096 < n.window → set)
          ∧ (n.window ≤ (a % 4096 + 4096 - n.loopBase) % 4096 → bad))
      ∧ (∀ x, s.loopbSpec t.ctx = some x → (∀ p, s.loopbPlace t.ctx = some p → p.cell ≠ s.focus.toNat) →
          ∃ s', exec (.tagset g sa) s = .next s'
            ∧ s'.task s.here = some { u with wait := .op s.cell0.nextOp, waitAt := some s.now }))

/-- 17:R251, R252: LOOPB.ISSUE on a LOOPB node whose window has room takes the next tag, sends its operand with it and
returns it; a full window keeps the task waiting in STALL1; on another node it raises PROTECTION. LOOPB.RETIRE
sends the retirement of its tag to the LOOPB node's cell, or while the hall's agent changes firmware keeps it on its own cell;
without a LOOPB node it raises TAG_WINDOW. -/
def Sys2Proof.Claims.LoopbWindow : Prop :=
  ∀ (s : State) (t : Task) (n : Node) (g : Guard) (sd : BitVec 5) (op : BitVec 2) (sa : Spec) (pred : TPred)
    (aux : BitVec 9) (kind : TkKind) (edge : Nat → Edge) (dst : Nat → Nat) (rtag : Nat → BitVec 8),
    s.task s.here = some t → s.node s.focus.toNat t.ver t.node = some n → t.holds g = true → t.taken = none →
    let here := s.focus.toNat
    let i : Instr := .loopbIssue g sd op sa pred aux kind
    let u := reads t [sa]
    let a := sourceValue t sa
    let used := (n.loopNext + 4096 - n.loopBase) % 4096
    (n.role = .loopb → PortsReady s t edge dst rtag [op.toNat] → used < n.window →
      let tok := { tokenOf u kind.code pred aux a with iter := BitVec.ofNat 12 n.loopNext }
      let v : Word := BitVec.ofNat 64 n.loopNext
      let s1 := s.takeTag t n.loopNext
      (s1.node here t.ver t.node).map (·.loopNext) = some ((n.loopNext + 1) % 4096)
      ∧ ∃ w, exec i s = .next ((sendAll s1 u edge dst rtag [(op.toNat, tok)]).complete w)
        ∧ ScalarResult s.now { t with sent := op.toNat :: t.sent, done := [op.toNat], taken := some n.loopNext } w sd [sa] 1 v)
    ∧ (n.role = .loopb → (∃ e, n.outputs[op.toNat]? = some (some e)) → n.window ≤ used →
      exec i s = .next (s.retry t (some 1)))
    ∧ (n.role ≠ .loopb ∨ (∀ e, n.outputs[op.toNat]? ≠ some (some e)) →
      exec i s = .next (s.raise t 0x09 t.pc.toNat (s.curWord t).toNat))
    ∧ (∀ x p, s.loopbSpec t.ctx = some x → s.loopbSeen (hallOf here) t.ctx = some p →
      exec (.loopbRetire g sa) s = .next (State.complete
        { s with net := s.net ++
            [⟨here, if (s.hall (hallOf here)).switching then here else p.cell, .retire t.ctx a (nodeOf s t) n.gid⟩] } u))
    ∧ (s.loopbSpec t.ctx = none → exec (.loopbRetire g sa) s = .next (s.raise u 0x12 (a.toNat % 4096) a.toNat))

/-- 17:R253: BLK holds back a bound route tag's FIFO, UNBLK lets it move on; an unbound tag raises PROTECTION. Where the
FIFO is empty UNBLK changes nothing else. -/
def Sys2Proof.Claims.Blocking : Prop :=
  ∀ (s : State) (t : Task) (g : Guard) (r : BitVec 8), s.task s.here = some t → t.holds g = true →
    let here := s.focus.toNat
    let v := s.version here t.ver
    let set (f : Binding → Binding) : State := (s.updBinding here t.ver r.toNat f).complete t
    (∀ b, v.bindings[r.toNat]? = some b →
      exec (.blk g r) s = .next (set fun b => { b with blocked := true, fullSince := none })
      ∧ (b.fifo = [] → exec (.unblk g r) s = .next (set fun b => { b with blocked := false }))
      ∧ exec (.unblk g r) s = .next ((set fun b => { b with blocked := false }).drain here t.ver r.toNat 17))
    ∧ (v.bindings[r.toNat]? = none →
      exec (.blk g r) s = .next (s.raise t 0x09 t.pc.toNat (s.curWord t).toNat)
      ∧ exec (.unblk g r) s = .next (s.raise t 0x09 t.pc.toNat (s.curWord t).toNat))

/-- 01:R26, 17:R254, 23:R343: WAITT completes once CYC, which wraps at 2^64, has reached its operand, waits before, and raises PROMISE_MISS when a
request of the task has missed its promise. -/
def Sys2Proof.Claims.WaitForTime : Prop :=
  ∀ (s : State) (t : Task) (g : Guard) (sa : Spec), s.task s.here = some t →
    let a := sourceValue t sa
    let u := reads t [sa]
    let missed (p : Nat) : Prop := ((t.requests.filterMap fun x =>
      (((s.hall x.1).queues.flatMap (·.2)).find? fun r => decide (r.id = x.2) && decide (r.promise ≤ a.toNat)).map
        (·.promise)).head?) = some p
    Skips (.waitt g sa) s t g
    ∧ (t.holds g = true → a.toNat ≤ s.now % 2 ^ 64 → (∀ p, ¬ missed p) →
        exec (.waitt g sa) s = .next (s.complete u))
    ∧ (t.holds g = true → a.toNat ≤ s.now % 2 ^ 64 → ∀ p, missed p →
        exec (.waitt g sa) s = .next (s.raise u 0x16 t.pc.toNat p))
    ∧ (t.holds g = true → s.now % 2 ^ 64 < a.toNat →
        ∃ s', exec (.waitt g sa) s = .next s' ∧ s'.task s.here = some { u with wait := .waitt a, waitAt := some s.now })

/-- 17:R256: MSEND is a release and puts its message in the cell's outbound queue of 16; opcodes of the module raise
PROTECTION; a full queue keeps the task waiting in STALL1. -/
def Sys2Proof.Claims.MessageSend : Prop :=
  ∀ (s : State) (t : Task) (g : Guard) (sa sb : Spec), s.task s.here = some t → t.holds g = true →
    let a := (sourceValue t sa).toNat
    let op := a / 2 ^ 18 % 64
    let here := s.focus.toNat
    let u := reads t [sa, sb]
    let modules : Prop := op ∈ [0x0B, 0x0D, 0x0E, 0x0F, 0x10, 0x14, 0x15, 0x16]
    let msg : Msg :=
      { dst := BitVec.ofNat 18 a, poison := u.taint, ver := t.ver, op := BitVec.ofNat 6 op
        handler := BitVec.ofNat 8 (a / 2 ^ 24), ccell := BitVec.ofNat 18 (a / 2 ^ 32), ctag := BitVec.ofNat 8 (a / 2 ^ 50)
        operand := sourceValue t sb }
    (¬ modules → s.cell0.prom = none → NothingEarlier s t → s.cell0.outq.length < 16 →
      exec (.msend g sa sb) s = .next (((s.release here t.node (scopeBetween here (a % 2 ^ 18))).updCell0 fun x =>
        { x with outq := x.outq ++ [⟨here, a % 2 ^ 18, .msg msg t.ctx none⟩] }).complete u))
    ∧ (¬ modules → s.cell0.prom = none → 16 ≤ s.cell0.outq.length → exec (.msend g sa sb) s = .next (s.retry t (some 1)))
    ∧ (modules → exec (.msend g sa sb) s = .next (s.raise t 0x09 t.pc.toNat a))

end

namespace Sys2Proof.Claims

open Sys2Proof.Machine

/-! ## Memory -/

/-- An access of n bytes of the task passes every check of 17:R258 at a physical address, by a leaf that its cell
holds, and nothing keeps it waiting. -/
def Reaches (s : State) (t : Task) (va : Word) (n : Nat) (k : Access) (write : Bool) (pa : Nat) (l : Leaf) : Prop :=
  va.toNat % n = 0 ∧ va.toNat < 2 ^ 52 ∧ t.grant = none ∧ s.taskOps = []
  ∧ (∀ x ∈ t.l1Wait, x.1 = pa / 128 → x.2 ≤ s.now)
  ∧ (∀ x, s.node s.focus.toNat t.ver t.node = some x → x.heldSince = none)
  ∧ ∃ root, (s.ctx t.ctx).root = some root
      ∧ (s.leaves s.focus.toNat).find?
          (fun l => l.root = root && decide (l.vbase ≤ va.toNat) && decide (va.toNat < l.vbase + l.size)) = some l
      ∧ leafAdmits l va.toNat k write = true ∧ pa = l.frame + (va.toNat - l.vbase)

/-- The state after an access that its leaf has let go: the leaf is the most recently used of those that hold it
(21:R315, R316). -/
def Gives (i : Instr) (s : State) (l : Leaf) (s' : State) : Prop := exec i s = .next (s'.useLeaf s.focus.toNat l)

/-- The caches of a cell have room for two more lines, so that an access gives none up (07:R99). -/
def RoomFor (s : State) (c : Nat) : Prop :=
  ((s.cell c).split ≠ 0 → (s.cell c).l1.length + 2 ≤ 64 * (s.cell c).split.toNat)
  ∧ (s.gcTable (galleryOf c)).length + 2 ≤ 8192
  ∧ (((s.hall (hallOf c)).l2.map fun x => x.1 / 2).eraseDups).length + (s.hall (hallOf c)).home.length + 2 ≤ 262144

/-- A load-like operation of the task begins: it is listed with the cell's next identity, and its register waits. -/
def beginOp (s : State) (u : Task) (kind : OpKind) (sd : BitVec 5) (pa : Nat) (va : Word) (z : Size) (sx : Bool) :
    State × Task :=
  (s.updCell0 fun c =>
      { c with ops := c.ops ++ [⟨c.nextOp, s.slot, kind, sd, pa, va, z, sx⟩], nextOp := c.nextOp + 1 },
    if sd = 0 then u else { u with pending := sd.toNat :: u.pending })

/-- The dirty bytes that a cell's L1 held of a line, which are what its plain loads of them gave, have reached its gallery cache:
the line there reads as before with those bytes over it (07:R100, R101, 17:R267). -/
def WroteBack (s s' : State) (c line : Nat) : Prop :=
  let g := galleryOf c
  ∀ k, k < 128 →
    rowBytes (s'.gcRow g line).2 k 1 = (match tget (s.l1Line c line).dirty k with
      | some x => x.1.toNat
      | none => rowBytes (s.gcRow g line).2 k 1)
    ∧ ∀ x, tget (s.l1Line c line).dirty k = some x → (s.cell c).split ≠ 0 → isHost (128 * line + k) = false →
        (s.readAt c (128 * line + k) 1 none).2 = x.1.toNat

/-- A line written back stays in L1, clean, with the bytes that it showed (17:R267). -/
def StaysClean (s s' : State) (c line : Nat) : Prop :=
  let old := s.l1Line c line
  let new := s'.l1Line c line
  new.dirty = [] ∧ new.base.isSome = old.base.isSome
  ∧ ∀ b b', old.base = some b → new.base = some b' → ∀ k, k < 128 →
      rowBytes b' k 1 = match tget old.dirty k with | some x => x.1.toNat | none => rowBytes b k 1

/-- Bytes of an access size (09:R148). -/
def bytesOf : Size → Nat
  | .b => 1
  | .h => 2
  | .w => 4
  | .d => 8

end Sys2Proof.Claims

section

open Sys2Proof Sys2Proof.Machine Sys2Proof.Claims

/-- 17:R244, R258, R260, R261, R263, R264: LD, LDA, LDP and LDA.PROM that pass their checks begin an operation whose
register waits; a presence load and a promotion request, which is a release, travel; the task of LDA.PROM waits. -/
def Sys2Proof.Claims.LoadsBegin : Prop :=
  ∀ (s : State) (t : Task) (g : Guard) (scope : Scope) (sd : BitVec 5) (sa sb : Spec) (z : Size) (sx : Bool) (pa : Nat)
    (l : Leaf), s.task s.here = some t →
    let here := s.focus.toNat
    let a := sourceValue t sa
    let b := sourceValue t sb
    let u := reads t [sa]
    let u2 := reads t [sa, sb]
    let begun (u : Task) (k : OpKind) := beginOp s u k sd pa a z sx
    (t.holds g = false → exec (.ld g sd sa z sx) s = .next (s.complete t)
      ∧ exec (.lda g scope sd sa z sx) s = .next (s.complete t) ∧ exec (.ldp g sd sa) s = .next (s.complete t)
      ∧ exec (.ldaProm g sd sa sb z sx) s = .next (s.complete t))
    ∧ (t.holds g = true → Reaches s t a (bytesOf z) .plain false pa l →
      Gives (.ld g sd sa z sx) s l ((begun u (.load none none)).1.complete (begun u (.load none none)).2)
      ∧ Gives (.lda g scope sd sa z sx) s l
          ((begun u (.load (some scope) none)).1.complete (begun u (.load (some scope) none)).2)
      ∧ (s.cell0.prom = none → NothingEarlier s t → ∃ s', exec (.ldaProm g sd sa sb z sx) s = .next s'
        ∧ s'.net = s.net ++ [⟨here, hallOf here * 2 ^ 15, .promLookup
            ⟨here, s.cell0.nextOp, BitVec.ofNat 10 b.toNat, b.toNat / 2 ^ 10 % 2 ^ 16⟩⟩]
        ∧ s'.cell0.ops = s.cell0.ops ++ [⟨s.cell0.nextOp, s.slot, .prom false false, sd, pa, b, z, sx⟩]
        ∧ s'.task s.here = some { (beginOp s u2 (.prom false false) sd pa b z sx).2 with wait := .op s.cell0.nextOp, waitAt := some s.now })
      ∧ (s.cell0.prom ≠ none → Gives (.ldaProm g sd sa sb z sx) s l (s.retry u2 none true)))
    ∧ (t.holds g = true → Reaches s t a 8 .presence false pa l →
      let x := beginOp s u (.pres none) sd pa a .d false
      Gives (.ldp g sd sa) s l (State.complete
        { x.1 with net := x.1.net ++ [⟨here, pa / 2 ^ 36 % 8 * 2 ^ 15, .presLoad pa here s.cell0.nextOp⟩] } x.2))

/-- 17:R258: the checks of an access, said of LD and ST: a misaligned address raises ALIGN, one of 2^52 or more
TRANSLATION, an address whose leaf does not admit the access PROTECTION; an access of a cell that holds no leaf waits
for a walk, unless the node's address port is held. -/
def Sys2Proof.Claims.AccessChecks : Prop :=
  ∀ (s : State) (t : Task) (g : Guard) (sd : BitVec 5) (sa sb : Spec) (z : Size) (sx : Bool),
    s.task s.here = some t → t.holds g = true → t.grant = none →
    let a := sourceValue t sa
    let word := (s.curWord t).toNat
    let checks (i : Instr) (u : Task) (write : Bool) : Prop :=
      (a.toNat % bytesOf z ≠ 0 → exec i s = .next (s.raise u 0x05 a.toNat word))
      ∧ (a.toNat % bytesOf z = 0 → 2 ^ 52 ≤ a.toNat → exec i s = .next (s.raise u 0x08 a.toNat a.toNat))
      ∧ (a.toNat % bytesOf z = 0 → a.toNat < 2 ^ 52 → ∀ root l, (s.ctx t.ctx).root = some root →
          (s.leaves s.focus.toNat).find?
            (fun l => l.root = root && decide (l.vbase ≤ a.toNat) && decide (a.toNat < l.vbase + l.size)) = some l →
          leafAdmits l a.toNat .plain write = false → exec i s = .next (s.raise u 0x09 a.toNat word))
      ∧ (a.toNat % bytesOf z = 0 → a.toNat < 2 ^ 52 → (s.ctx t.ctx).root = none →
          (∀ x, s.node s.focus.toNat t.ver t.node = some x → x.heldSince = none) →
          exec i s = .next (s.missTask u a write))
    checks (.ld g sd sa z sx) (reads t [sa]) false ∧ checks (.st g sa sb z) (reads t [sa, sb]) true

/-- 17:R258, R260, R261, 07:R113, R127: ST writes its bytes as a plain store, STR after a release at its scope's point; of a
tainted task neither writes, and the node takes POISON_SINK, whose record carries the task's send iteration (log entry 17,
DEDUCED). FENCE releases and acquires. -/
def Sys2Proof.Claims.StoresAndFences : Prop :=
  ∀ (s : State) (t : Task) (g : Guard) (scope : Scope) (sa sb : Spec) (z : Size) (pa : Nat) (l : Leaf),
    s.task s.here = some t →
    let here := s.focus.toNat
    let a := sourceValue t sa
    let b := (sourceValue t sb).toNat
    let u := reads t [sa, sb]
    let me := nodeOf s t
    let sunk (s : State) : State := s.poisonSink { me with iter := t.sendIter } a.toNat 1 2
    let ready : Prop := s.cell0.prom = none ∧ s.hostPending here scope = false ∧ NothingEarlier s t
    (t.holds g = false → exec (.st g sa sb z) s = .next (s.complete t)
      ∧ exec (.str g scope sa sb z) s = .next (s.complete t) ∧ exec (.fence g scope) s = .next (s.complete t))
    ∧ (t.holds g = true → Reaches s t a (bytesOf z) .plain true pa l →
      (u.taint = false → Gives (.st g sa sb z) s l ((s.storePlain here pa (bytesOf z) b (some me)).complete u))
      ∧ (u.taint = true → Gives (.st g sa sb z) s l ((sunk s).complete u))
      ∧ (ready → u.taint = false → Gives (.str g scope sa sb z) s l
          (((s.release here t.node scope).storeAt here pa (bytesOf z) b scope (some me)).complete u))
      ∧ (ready → u.taint = true → Gives (.str g scope sa sb z) s l ((sunk (s.release here t.node scope)).complete u))
      ∧ (s.cell0.prom ≠ none → Gives (.str g scope sa sb z) s l (s.retry u none true)))
    ∧ (t.holds g = true → ready →
      exec (.fence g scope) s = .next (((s.release here t.node scope).acquire here scope).complete t))
    ∧ (t.holds g = true → s.cell0.prom ≠ none → exec (.fence g scope) s = .next (s.retry t none true))

/-- 07:R99 to R101, 17:R260: a plain load after a plain store of the same cell and bytes gives the bytes stored, little
endian. Where no cache must give up a line for it and the channel of its line is online, every byte outside them reads as before, and the cells of other
galleries, and the home, keep what they read. -/
def Sys2Proof.Claims.StoreThenLoad : Prop :=
  ∀ (s : State) (c pa n v : Nat) (by_ : Option NodeRef), n ∈ [1, 2, 4, 8] → pa % n = 0 → isHost pa = false →
    let s' := s.storePlain c pa n v by_
    (s'.readAt c pa n none).2 = v % 256 ^ n
    ∧ (RoomFor s c → s.offline pa = false →
      (∀ b, b < pa ∨ pa + n ≤ b → isHost b = false → (s'.readAt c b 1 none).2 = (s.readAt c b 1 none).2)
      ∧ (∀ b, s'.readByte b = s.readByte b)
      ∧ (∀ d b, galleryOf d ≠ galleryOf c → RoomFor s d → isHost b = false →
          (s'.readAt d b 1 none).2 = (s.readAt d b 1 none).2))

/-- 07:R101, R113: the bytes of a plain store have reached their home after a release at DEVICE scope by the cell, and no
other byte of memory has changed. Said of caches on the way that hold nothing dirty before the store. -/
def Sys2Proof.Claims.ReleaseReachesHome : Prop :=
  ∀ (s : State) (c node pa n v : Nat) (by_ : Option NodeRef), n ∈ [1, 2, 4, 8] → pa % n = 0 → isHost pa = false →
    s.offline pa = false →
    (∀ l, (s.l1Line c l).dirty = [] ∧ (s.gcLine (galleryOf c) l).dirty = [] ∧ (s.l2Line (hallOf c) l).dirty = []) →
    let s' := (s.storePlain c pa n v by_).release c node .device
    s'.readMem pa n = v % 256 ^ n ∧ ∀ b, b < pa ∨ pa + n ≤ b → s'.readByte b = s.readByte b

/-- 07:R134, R135, 17:R260: LD.WAVE and ST.WAVE reach the interface of the task's configuration with their place in the
wave, as a release; a failed guard sends a null operation that fills the place; without an interface they raise
PROTECTION, whether or not the guard holds (log entry 27); a misaligned address raises ALIGN. Which checks are made when the
instruction issues, and which at the interface, is log entry 16's (DEDUCED). -/
def Sys2Proof.Claims.WaveAccesses : Prop :=
  ∀ (s : State) (t : Task) (g : Guard) (sd : BitVec 5) (sa sb : Spec) (z : Size) (sx : Bool) (ws wp wq : BitVec 8),
    s.task s.here = some t →
    let here := s.focus.toNat
    let a := sourceValue t sa
    let ld : Instr := .ldWave g sd sa z sx ws wp wq
    let st : Instr := .stWave g sa sb z ws wp wq
    let op (u : Task) (store : Bool) (null : Bool) (data : Word) (o : Option (Nat × Nat)) : WaveOp :=
      { ctx := t.ctx, iter := t.sendIter, ws := ws.toNat, wp := wp.toNat, wq := wq.toNat, null := null, poison := u.taint
        store := store, addr := a, data := data, size := z, sx := if store then false else sx
        source := nodeOf s t, op := o, word := s.curWord t }
    let lu := if t.holds g then reads t [sa] else t
    let su := if t.holds g then reads t [sa, sb] else t
    (s.waveInterface t = none → exec ld s = .next (s.raise lu 0x09 a.toNat (s.curWord t).toNat)
      ∧ exec st s = .next (s.raise su 0x09 a.toNat (s.curWord t).toNat))
    ∧ ∀ p, s.waveInterface t = some p →
      let at_ (w : WaveOp) : State :=
        (s.release here t.node (scopeBetween here p.cell)).updNode p.cell p.ver p.node fun n => { n with waves := n.waves ++ [w] }
      (t.holds g = true → a.toNat % bytesOf z ≠ 0 →
        exec ld s = .next (s.raise (reads t [sa]) 0x05 a.toNat (s.curWord t).toNat)
        ∧ exec st s = .next (s.raise (reads t [sa, sb]) 0x05 a.toNat (s.curWord t).toNat))
      ∧ (s.cell0.prom = none → NothingEarlier s t →
        (t.holds g = true → a.toNat % bytesOf z = 0 → a.toNat < 2 ^ 52 →
          let u := reads t [sa]
          let w := op u false false 0 (some (here, s.cell0.nextOp))
          (exec st s = .next ((at_ (op (reads t [sa, sb]) true false (sourceValue t sb) none)).complete (reads t [sa, sb])))
          ∧ exec ld s = .next (((at_ w).updCell0 fun c =>
              { c with ops := c.ops ++ [⟨s.cell0.nextOp, s.slot, .wave none, sd, 0, a, z, sx⟩], nextOp := s.cell0.nextOp + 1 }).complete
                (if sd = 0 then u else { u with pending := sd.toNat :: u.pending })))
        ∧ (t.holds g = false →
          exec st s = .next ((at_ (op t true true (sourceValue t sb) none)).complete t)
          ∧ exec ld s = .next ((at_ (op t false true 0 none)).complete t)))

/-- 07:R108, R109, 17:R264, R265: STP's store travels to the word's home; LDPR of a full bank word begins with its value,
of an empty one is deferred; STPR fills an empty word and wakes the loads deferred on it, and raises PRESENCE_REWRITE
against the writer's node on a full one. A tainted STP stores nothing, and its record carries the task's send iteration (log
entry 17, DEDUCED). -/
def Sys2Proof.Claims.PresenceAccesses : Prop :=
  ∀ (s : State) (t : Task) (g : Guard) (sd : BitVec 5) (sa sb : Spec) (pa : Nat) (l : Leaf),
    s.task s.here = some t →
    let here := s.focus.toNat
    let c := s.cell0
    let a := sourceValue t sa
    let v := sourceValue t sb
    let u := reads t [sa]
    let w := reads t [sa, sb]
    let me := nodeOf s t
    let row := a.toNat % 512
    let at_ := a.toNat / 512 % 16
    let key := 16 * row + at_
    let full := tgetD c.bankFull false key
    (t.holds g = false → exec (.stp g sa sb) s = .next (s.complete t) ∧ exec (.ldpr g sd sa) s = .next (s.complete t)
      ∧ exec (.stpr g sa sb) s = .next (s.complete t))
    ∧ (t.holds g = true → Reaches s t a 8 .presence true pa l →
      (w.taint = false → Gives (.stp g sa sb) s l (State.complete
        { s with net := s.net ++ [⟨here, pa / 2 ^ 36 % 8 * 2 ^ 15, .presStore pa a v me⟩] } w))
      ∧ (w.taint = true → Gives (.stp g sa sb) s l
        ((s.poisonSink { me with iter := t.sendIter } a.toNat 1 2).complete w)))
    ∧ (t.holds g = true → c.flights = [] → RowsOpen s [row] → s.taskOps = [] →
      (full = true →
        let x := beginOp s u (.presBank false (some (BitVec.ofNat 64 ((c.row row).toNat / 2 ^ (64 * at_)), c.rowPoisoned row))) sd 0 a
          .d false
        exec (.ldpr g sd sa) s = .next (x.1.complete x.2))
      ∧ (full = false → c.deferred.length < 16 →
        let x := beginOp s u (.presBank true none) sd 0 a .d false
        exec (.ldpr g sd sa) s = .next ((x.1.updCell0 fun c =>
          { c with deferred := c.deferred ++ [(key, here, s.cell0.nextOp)] }).complete x.2))
      ∧ (full = true →
        exec (.stpr g sa sb) s = .next ((s.nodeFault me 0x10 a.toNat v.toNat).complete w))
      ∧ (full = false → ∃ c', exec (.stpr g sa sb) s = .next ((s.updCell0 fun _ => c').complete w)
        ∧ (c'.row row).toNat / 2 ^ (64 * at_) % 2 ^ 64 = v.toNat
        ∧ (∀ k, k < 16 → k ≠ at_ → (c'.row row).toNat / 2 ^ (64 * k) % 2 ^ 64 = (c.row row).toNat / 2 ^ (64 * k) % 2 ^ 64)
        ∧ (∀ r, r ≠ row → c'.row r = c.row r)
        ∧ tgetD c'.bankFull false key = true
        ∧ (∀ k, k ≠ key → tgetD c'.bankFull false k = tgetD c.bankFull false k)
        ∧ c'.deferred = c.deferred.filter (fun d => d.1 ≠ key)
        ∧ (∀ o ∈ c'.ops, (∃ d ∈ c.deferred, d.1 = key ∧ d.2.2 = o.id) →
            o.kind = .presBank true (some (v, c'.rowPoisoned row)))
        ∧ (w.taint = true → c'.rowPoisoned row = true)))

/-- 17:R266, R267, 07:R100, R101: PREF brings its line into L1; L1.WB writes its dirty bytes back to the gallery cache and keeps
it, clean; L1.INV writes them back and drops it; and the forms ALL do so for every line. Each dirty line takes the L1 port for two cycles, and the task notes until when; an
address that fails its checks does nothing. -/
def Sys2Proof.Claims.CacheInstructions : Prop :=
  ∀ (s : State) (t : Task) (g : Guard) (sa : Spec) (pa : Nat) (l : Leaf), s.task s.here = some t →
    let here := s.focus.toNat
    let a := sourceValue t sa
    let u := reads t [sa]
    let line := pa / 128
    let start := Nat.max s.now s.cell0.l1Until
    let dirty := s.cell0.l1.filter fun x => decide (x.2.dirty ≠ [])
    -- the gallery cache gives up no line for those of L1
    let room : Prop := (s.gcTable (galleryOf here)).length + s.cell0.l1.length + 1 ≤ 8192
    -- the port of the state given, and the lines that the task given waits for, after n dirty lines
    let port (s' : State) (w v : Task) (n : Nat) (lines : List Nat) : Prop :=
      s'.cell0.l1Until = (if n = 0 then s.cell0.l1Until else start + 2 * n)
      ∧ v = { w with l1Wait := v.l1Wait } ∧ ∀ x ∈ lines, ∃ m, (x, m) ∈ v.l1Wait ∧ start + 2 ≤ m
    (t.holds g = false → exec (.pref g sa) s = .next (s.complete t) ∧ exec (.l1Wb g sa) s = .next (s.complete t)
      ∧ exec (.l1Inv g sa) s = .next (s.complete t) ∧ exec (.l1WbAll g) s = .next (s.complete t)
      ∧ exec (.l1InvAll g) s = .next (s.complete t))
    ∧ (t.holds g = true → Reaches s t a 1 .plain false pa l → isHost pa = false →
      let n := if (s.l1Line here line).dirty = [] then 0 else 1
      let mine := if (s.l1Line here line).dirty = [] then [] else [line]
      (∃ s' : State, Gives (.pref g sa) s l (s'.complete u)
        ∧ (s.cell0.split = 0 → s' = s)
        ∧ (s.cell0.split ≠ 0 → (s'.l1Line here line).base.isSome = true)
        ∧ (RoomFor s here → ∀ b, s'.readByte b = s.readByte b))
      ∧ (∃ (s' : State) (v : Task), Gives (.l1Wb g sa) s l (s'.complete v) ∧ StaysClean s s' here line
        ∧ (RoomFor s here → WroteBack s s' here line)
        ∧ (∀ l, l ≠ line → s'.l1Line here l = s.l1Line here l) ∧ port s' u v n mine)
      ∧ ∃ (s' : State) (v : Task), Gives (.l1Inv g sa) s l (s'.complete v) ∧ s'.l1Line here line = {}
        ∧ (RoomFor s here → WroteBack s s' here line)
        ∧ (∀ l, l ≠ line → s'.l1Line here l = s.l1Line here l) ∧ port s' u v n mine)
    ∧ (t.holds g = true → 2 ^ 52 ≤ a.toNat → exec (.pref g sa) s = .next (s.complete u)
      ∧ exec (.l1Wb g sa) s = .next (s.complete u) ∧ exec (.l1Inv g sa) s = .next (s.complete u))
    ∧ (t.holds g = true → ScopedLoadsDone s → (s.cell0.l1.map (·.1)).Nodup →
      (∃ (s' : State) (v : Task), exec (.l1WbAll g) s = .next (s'.complete v)
        ∧ (∀ l, StaysClean s s' here l) ∧ (room → ∀ l, WroteBack s s' here l)
        ∧ port s' t v dirty.length (dirty.map (·.1)))
      ∧ ∃ (s' : State) (v : Task), exec (.l1InvAll g) s = .next (s'.complete v)
        ∧ (∀ l, s'.l1Line here l = {}) ∧ (room → ∀ l, WroteBack s s' here l)
        ∧ port s' t v dirty.length (dirty.map (·.1)))

/-- 17:R268, 07:R100, 09:R152: SPLIT and MTS SPLIT with a number of steps up to 4 write back L1's dirty bytes to the gallery cache and empty it, set the split,
clear the rows that become scratchpad, and take 4 cycles and 2 for each dirty line; SPLIT takes its whole operand, MTS
SPLIT its low three bits; more than 4 raise RESERVED_FIELD. -/
def Sys2Proof.Claims.SplitChanges : Prop :=
  ∀ (s : State) (t : Task) (g : Guard) (sa : Spec), s.task s.here = some t → t.holds g = true → s.cell0.flights = [] →
    let here := s.focus.toNat
    let c := s.cell0
    let u := reads t [sa]
    let a := (sourceValue t sa).toNat
    let inL1 (n r : Nat) : Bool := decide (448 - 64 * n ≤ r) && decide (r < 448)
    let form (i : Instr) (n : Nat) : Prop :=
      (4 < n → exec i s = .next (s.raise u 0x02 t.pc.toNat (s.curWord t).toNat))
      ∧ (n ≤ 4 → (∀ r, inL1 n r = true → c.engineRow r = false) →
        ∃ s' : State, exec i s = .next (s'.issued u.fallThrough (4 + 2 * (c.l1.filter fun x => x.2.dirty ≠ []).length))
          ∧ (s'.cell here).split.toNat = n ∧ (∀ l, s'.l1Line here l = {})
          ∧ (∀ r, (s'.cell here).row r = if inL1 c.split.toNat r && !inL1 n r then 0 else c.row r)
          ∧ ((s.gcTable (galleryOf here)).length + c.l1.length + 1 ≤ 8192 → (c.l1.map (·.1)).Nodup →
              (∀ b, s'.readByte b = s.readByte b) ∧ ∀ l, WroteBack s s' here l))
    form (.split g sa) a ∧ form (.mtsSplit sa) (a % 8)

/-- 17:R255, R261, 27:R382: WAITF reads its word at the scope's visibility point: where the condition holds the wait ends with
the value and an acquire, otherwise the task waits. -/
def Sys2Proof.Claims.WaitForMemory : Prop :=
  ∀ (s : State) (t : Task) (g : Guard) (c : WaitCond) (scope : Scope) (sd : BitVec 5) (sa sb : Spec) (pa : Nat)
    (l : Leaf), s.task s.here = some t →
    let here := s.focus.toNat
    let u := reads t [sa, sb]
    let b := sourceValue t sb
    let v : Word := BitVec.ofNat 64 (s.readAt here pa 8 (some scope)).2
    -- the state after the read, which of an offline channel raises MEM_UNCORRECTABLE
    let s1 := (s.readAt here pa 8 (some scope)).1.raiseOffline (some (nodeOf s t)) pa
    let met : Prop := match c with
      | .ne => v.toNat ≠ b.toNat
      | .eq => v.toNat = b.toNat
      | .geu => b.toNat ≤ v.toNat
    let w : Task := { u with taint := u.taint || s1.readPoison here pa (some scope) }
    Skips (.waitf g c scope sd sa sb) s t g
    ∧ (t.holds g = true → Reaches s t (sourceValue t sa) 8 .plain false pa l →
      (met → Gives (.waitf g c scope sd sa sb) s l
          ((s1.acquire here scope).complete (w.setReg sd v)))
      ∧ (¬ met → ∃ s' : State, exec (.waitf g c scope sd sa sb) s = .next s'
          ∧ s'.task s.here = some
              { w with wait := .waitf c scope sd pa (decide (pa / 2 ^ 47 % 2 = 1)) b s.now, waitAt := some s.now }))

/-! ## Class AT -/

/-- 17:R244, R258, R270: the atomics begin as operations with their opcode and operands; a tainted task's are not
performed, and the record of that carries the task's send iteration (log entry 17, DEDUCED). -/
def Sys2Proof.Claims.AtomicsBegin : Prop :=
  ∀ (s : State) (t : Task) (g : Guard) (sd : BitVec 5) (sa sb sc : Spec) (dbl : Bool) (pa : Nat) (l : Leaf),
    s.task s.here = some t →
    let a := sourceValue t sa
    let b := sourceValue t sb
    let z : Size := if dbl then .d else .w
    let form (i : Instr) (op : Nat) (srcs : List Spec) (c : Word) : Prop :=
      Skips i s t g
      ∧ (t.holds g = true → Reaches s t a (bytesOf z) .atomic true pa l →
        let u := reads t srcs
        let x := beginOp s u (.atomic op b c none) sd pa a z false
        (u.taint = false → Gives i s l (x.1.complete x.2))
        ∧ (u.taint = true → Gives i s l ((s.poisonSink { nodeOf s t with iter := t.sendIter }
            a.toNat 1 2).complete u)))
    form (.aadd g sd sa sb dbl) 0 [sa, sb] 0 ∧ form (.amin g sd sa sb dbl) 1 [sa, sb] 0
    ∧ form (.amax g sd sa sb dbl) 2 [sa, sb] 0 ∧ form (.aand g sd sa sb dbl) 3 [sa, sb] 0
    ∧ form (.aor g sd sa sb dbl) 4 [sa, sb] 0 ∧ form (.axor g sd sa sb dbl) 5 [sa, sb] 0
    ∧ form (.aswp g sd sa sb dbl) 6 [sa, sb] 0 ∧ form (.acas g sd sa sb sc dbl) 7 [sa, sb, sc] (sourceValue t sc)
    ∧ form (.ainc g sd sa sb dbl) 8 [sa, sb] 0

/-- 17:R270: what each atomic makes of a word: of w = 32 or 64 bits, minimum and maximum signed, AINC wraps past its
limit. -/
def Sys2Proof.Claims.AtomicFunctions : Prop :=
  ∀ (w : Nat), w = 32 ∨ w = 64 → ∀ o b c : Nat, o < 2 ^ w → b < 2 ^ w → c < 2 ^ w →
    let sg (x : Nat) : Int := if 2 ^ (w - 1) ≤ x then (x : Int) - 2 ^ w else x
    atomicNew 0 w o b c = (o + b) % 2 ^ w
    ∧ sg (atomicNew 1 w o b c) = Min.min (sg o) (sg b) ∧ sg (atomicNew 2 w o b c) = Max.max (sg o) (sg b)
    ∧ (∀ k, (atomicNew 3 w o b c).testBit k = (o.testBit k && b.testBit k))
    ∧ (∀ k, (atomicNew 4 w o b c).testBit k = (o.testBit k || b.testBit k))
    ∧ (∀ k, (atomicNew 5 w o b c).testBit k = xor (o.testBit k) (b.testBit k))
    ∧ atomicNew 6 w o b c = b ∧ atomicNew 7 w o b c = (if o = c then b else o)
    ∧ atomicNew 8 w o b c = (if b ≤ o then 0 else o + 1)

/-- 17:R270, 07:R112, R137: an atomic is performed at its word's home: where nothing of the line is dirty above it, the
home's word is read, the new value stored, and no other byte changes; the old value is what it returns. -/
def Sys2Proof.Claims.AtomicAtHome : Prop :=
  ∀ (s : State) (c pa n op : Nat) (b d : Word), (n = 4 ∨ n = 8) → pa % n = 0 → s.offline pa = false →
    (s.l1Line c (pa / 128)).dirty = [] → (s.gcLine (galleryOf c) (pa / 128)).dirty = [] →
    (s.l2Line (hallOf c) (pa / 128)).dirty = [] →
    let r := s.atomicAt c pa n op b d
    r.2.1.toNat = s.readMem pa n
    ∧ r.1.readMem pa n = atomicNew op (8 * n) (s.readMem pa n) b.toNat d.toNat
    ∧ ∀ a, a < pa ∨ pa + n ≤ a → r.1.readByte a = s.readByte a

/-- 17:R271 to R274: BAR.ARR is a release and sends a BARRIER token with its amount, expected total, kind and entry to
the home; BAR.WAIT at its own cell ends at once where the phase is past, with an acquire, and else waits; at another
cell it sends MBAR, a release, and waits. MBAR's operand, the send iteration above the entry's number, is log entry 18's
(DESIGN CHOICE). -/
def Sys2Proof.Claims.Barriers : Prop :=
  ∀ (s : State) (t : Task) (g : Guard) (sa sb sc : Spec) (bytes : Bool) (bid : BitVec 8), s.task s.here = some t →
    let here := s.focus.toNat
    let home := (sourceValue t sa).toNat % 2 ^ 18
    let u := reads t [sa, sb, sc]
    let w := reads t [sa]
    let amount := (sourceValue t sb).toNat % 2 ^ 24
    let expected := (sourceValue t sc).toNat % 2 ^ 24
    let payload : Word := BitVec.ofNat 64 (expected * 2 ^ 36 + amount * 2 ^ 12 + bytes.toNat * 2 ^ 8 + bid.toNat)
    let waiter : BarWaiter := ⟨bid.toNat, t.ctx, t.sendIter, ⟨here, s.slot⟩⟩
    let parked : Task := { w with wait := .bar home bid.toNat t.sendIter, waitAt := some s.now }
    let e := s.cell0.bar bid.toNat
    Skips (.barArr g sa sb sc bytes bid) s t g ∧ Skips (.barWait g sa bid) s t g
    ∧ (t.holds g = true → s.cell0.prom = none → NothingEarlier s t →
      exec (.barArr g sa sb sc bytes bid) s = .next (((s.release here t.node (scopeBetween here home)).send
        ⟨here, home, .token { tokenOf u 3 .none 5 payload with dst := BitVec.ofNat 18 home } none⟩).complete u))
    ∧ (t.holds g = true → home = here → e.owner = some t.ctx →
      (let d := (e.phase.toNat + 4096 - t.sendIter.toNat) % 4096
       (1 ≤ d → d ≤ 2047 → ∃ s' : State, exec (.barWait g sa bid) s = .next ((s'.acquire here .cell).complete w)
          ∧ s' = s.updCell here fun c => c.setBar bid.toNat e)
       ∧ (d = 0 ∨ 2048 ≤ d → s.cell0.barWaiters.length < 64 →
          ∃ s' : State, exec (.barWait g sa bid) s = .next s' ∧ s'.task s.here = some parked
            ∧ s'.cell0.barWaiters = s.cell0.barWaiters ++ [waiter])))
    ∧ (t.holds g = true → home ≠ here → s.cell0.prom = none → NothingEarlier s t →
      ∃ s' : State, exec (.barWait g sa bid) s = .next s' ∧ s'.task s.here = some parked
        ∧ s'.net = s.net ++ [⟨here, home,
            .msg { dst := BitVec.ofNat 18 home, poison := false, ver := t.ver, op := 0x15, handler := 0, ccell := s.focus
                   ctag := 0xFE, operand := BitVec.ofNat 64 (t.sendIter.toNat * 256 + bid.toNat) } t.ctx (some (.bar waiter))⟩])

/-- 17:R275, 07:R131, R132: OWNFLIP to ENGINE is a release at CELL scope and sets the region's bit, to CELL clears it
with an acquire when no access of a request or pass issued before it is still to come in the region, and otherwise joins the cell's flips, which take effect in order; a region of L1 or the overflow area raises PROTECTION;
OWNQRY reads the bits. -/
def Sys2Proof.Claims.OwnerBits : Prop :=
  ∀ (s : State) (t : Task) (g : Guard) (reg : BitVec 3) (sd : BitVec 5), s.task s.here = some t → s.cell0.flights = [] →
    s.cell0.flips = [] → t.wait = .none →
    let here := s.focus.toNat
    let n := reg.toNat
    let c := s.cell0
    let toEngine : Instr := .ownflip g reg true
    let toCell : Instr := .ownflip g reg false
    let free : Prop := ∀ r, 64 * n ≤ r → r < 64 * n + 64 → c.isL1Row r = false ∧ (480 ≤ r → c.overflowOn = false)
    GuardedResult (.ownqry g sd) s t g sd [] (BitVec.ofNat 64 c.owner.toNat)
    ∧ Skips toEngine s t g ∧ Skips toCell s t g
    ∧ (t.holds g = true →
      (free → c.owner.getLsbD n = false → c.prom = none → NothingEarlier s t →
        ∃ b : BitVec 8, b.getLsbD n = true ∧ (∀ k, k ≠ n → b.getLsbD k = c.owner.getLsbD k)
          ∧ exec toEngine s = .next (((s.release here t.node .cell).updCell0 fun x => { x with owner := b }).issued
              t.fallThrough 2))
      ∧ (¬ free → exec toEngine s = .next (s.raise t 0x09 (64 * n) (s.curWord t).toNat))
      ∧ (free → c.owner.getLsbD n = true → exec toEngine s = .next (s.issued t.fallThrough 2))
      ∧ (c.owner.getLsbD n = false → exec toCell s = .next (s.issued t.fallThrough 2))
      ∧ (c.owner.getLsbD n = true → s.regionBusy here n s.now = false →
        ∃ b : BitVec 8, b.getLsbD n = false ∧ (∀ k, k ≠ n → b.getLsbD k = c.owner.getLsbD k)
          ∧ exec toCell s = .next (((s.acquire here .cell).updCell0 fun x => { x with owner := b }).issued t.fallThrough 2))
      ∧ (c.owner.getLsbD n = true → s.regionBusy here n s.now = true →
        exec toCell s = .next ((s.updCell0 fun x => { x with flips := [s.slot] }).setTask s.here
          { t with wait := .flip n false s.now, waitAt := some s.now })))

end

namespace Sys2Proof.Claims

open Sys2Proof.Machine

/-- ⌈n / m⌉. -/
def ceilOf (n m : Nat) : Nat := (n + m - 1) / m

/-- The cost of a request whose destination rows hold `bytes` bytes, of `slices` slices (19:R278). -/
def requestCost (k : ReqKind) (bytes slices chunks : Nat) : Nat :=
  match k with
  | .copy | .copyp | .fill => 256 + ceilOf bytes 512
  | .gather | .scatter => 256 + 4 * slices + ceilOf bytes 512
  | .transpose => 256 + ceilOf bytes 8
  | .decode => 256 + ceilOf (4096 * chunks) 512
  | .remote => 4096 + ceilOf bytes 160
  | .sig => 4096

end Sys2Proof.Claims

section

open Sys2Proof Sys2Proof.Machine Sys2Proof.Claims

/-- 19:R276, R277, R283, R285: TE.DESC checks the image of a row and writes it to a slot that is not BUSY and belongs to
the context or to none; it returns the rows of a group and takes 8 cycles and one for each slice; a failed check raises
its cause and leaves the slot. -/
def Sys2Proof.Claims.DescriptorSlots : Prop :=
  ∀ (s : State) (t : Task) (g : Guard) (sd : BitVec 5) (sa sb : Spec), s.task s.here = some t → s.cell0.flights = [] →
    ScopedLoadsDone s →
    let c := s.cell0
    let row := (sourceValue t sa).toNat % 512
    let k := (sourceValue t sb).toNat % 16
    let x := tgetD c.slots {} k
    let image := c.row row
    let d := descOf image
    let slices := image.toNat / 2 ^ 48 % 256 + 1
    -- the rows of descriptor order on the destination, or on the source of a descriptor without one
    let rowsOf (x : Side) (padL padR mask : Nat) : Nat := ((List.range slices).map fun i =>
      let a := x.off + i * x.stride
      ((a + d.elems + padR - 1) / 1024 - (a - padL) / 1024 + 1)
        * (if mask = 0 then groupRows d.fmt d.w else ((List.range 32).filter fun b => mask.testBit b).length)).sum
    let rows := if d.d.kind ≠ 0 then rowsOf d.d d.padL d.padR d.dmask else if d.s.kind ≠ 0 then rowsOf d.s 0 0 0 else 0
    let u0 := reads t [sa, sb]
    let u := { u0 with taint := u0.taint || c.rowPoisoned row }
    let i : Instr := .teDesc g sd sa sb
    let word := (s.curWord t).toNat
    Skips i s t g
    ∧ (t.holds g = true →
      (x.state ≠ .empty → x.owner ≠ t.ctx → exec i s = .next (s.raise u0 0x09 t.pc.toNat word))
      ∧ (x.state = .empty ∨ x.owner = t.ctx →
        (x.state = .busy → exec i s = .next (s.retry u0 none))
        ∧ (x.state ≠ .busy → RowsOpen s [row] →
          (s.descFault t.ctx image = none →
            ∃ w : Task, exec i s = .next ((s.updCell0 fun y =>
                { y with slots := tput y.slots k { state := .ready, owner := t.ctx, desc := image } }).issued w.fallThrough
                  (8 + slices))
              ∧ ScalarResult s.now { t with taint := u.taint } w sd [] (8 + slices) (BitVec.ofNat 64 rows))
          ∧ (∀ cause, s.descFault t.ctx image = some cause →
            exec i s = .next (s.raise u cause (if cause = 0x0A ∨ cause = 0x0B then k else t.pc.toNat) word)))))

/-- 19:R277 to R279: an engine request on a READY or DONE slot of the context, whose descriptor suits it and whose operands
pass, enters its queue behind the earlier ones with the next identity and makes its slot BUSY; it returns as its promise
the present cycle and the costs of the requests ahead and its own. An EMPTY slot or a descriptor that does not suit raises
DESC naming the slot, a slot of another context PROTECTION; a BUSY slot and a full queue keep the task waiting in STALL1; a
put or signal waits behind a release to the host that is not acknowledged (07:R139); a tainted task enters nothing, and its
node takes POISON_SINK. The request's node, and the record, carry the task's send iteration (log entry 17, DEDUCED). -/
def Sys2Proof.Claims.EngineRequests : Prop :=
  ∀ (s : State) (t : Task) (g : Guard) (sd : BitVec 5) (sa sb sc : Spec) (q : QSel), s.task s.here = some t →
    let here := s.focus.toNat
    let h := hallOf here
    let e := q.eq.toNat
    let k := (sourceValue t sa).toNat % 16
    let x := tgetD s.cell0.slots {} k
    let d := descOf x.desc
    let queue := tgetD (s.hall h).queues [] e
    let id := s.nextReqId
    let form (i : Instr) (kind : ReqKind) (srcs : List Spec) (b c : Word) : Prop :=
      let u := reads t srcs
      let cost := requestCost kind (128 * d.destRows kind) d.slices c.toNat
      let promise := (s.now + (queue.map fun r => r.cost).sum + cost) % 2 ^ 64
      let remote : Prop := kind = .remote ∨ kind = .sig
      let word := (s.curWord t).toNat
      let r : Request :=
        { id := id, cell := here, slot := k, node := { nodeOf s t with iter := t.sendIter }, kind := kind, desc := x.desc
          a := sourceValue t sa, b := b, c := c, ord := q.ord, sid := q.sid, cost := cost, promise := promise
          word := s.curWord t, issuedAt := s.now }
      Skips i s t g
      ∧ (t.holds g = true →
        (x.state = .empty → exec i s = .next (s.raise u 0x0A k word))
        ∧ (x.state ≠ .empty → x.owner ≠ t.ctx → exec i s = .next (s.raise u 0x09 t.pc.toNat word))
        ∧ (x.state ≠ .empty → x.owner = t.ctx →
          (x.state = .busy → exec i s = .next (s.retry u (some 1)))
          ∧ (x.state ≠ .busy → d.suits kind b = false → exec i s = .next (s.raise u 0x0A k word))
          ∧ (∀ cause, x.state ≠ .busy → d.suits kind b = true → d.operandFault kind s.cp.moduleNum b c = some cause →
            exec i s = .next (s.raise u cause (if cause = 0x0A ∨ cause = 0x0B then k else t.pc.toNat) word))
          ∧ (x.state ≠ .busy → d.suits kind b = true → d.operandFault kind s.cp.moduleNum b c = none →
            (64 ≤ queue.length → exec i s = .next (s.retry u (some 1)))
            ∧ (queue.length < 64 → remote → s.releasePending here = true → exec i s = .next (s.retry u none))
            ∧ (queue.length < 64 → (remote → s.releasePending here = false) → u.taint = false →
              ∃ (s1 : State) (w : Task), exec i s = .next (s1.complete w)
                ∧ ScalarResult s.now { t with requests := t.requests ++ [(h, id)] } w sd srcs 2 (BitVec.ofNat 64 promise)
                ∧ tgetD (s1.hall h).queues [] e = queue ++ [r]
                ∧ (∀ j, j ≠ e → tgetD (s1.hall h).queues [] j = tgetD (s.hall h).queues [] j)
                ∧ (∀ y, y ≠ h → s1.hall y = s.hall y)
                ∧ tgetD s1.cell0.slots {} k = { x with state := .busy, req := some (e, id) }
                ∧ (∀ j, j ≠ k → tgetD s1.cell0.slots {} j = tgetD s.cell0.slots {} j)
                ∧ s1 = { s with halls := s1.halls, cells := s1.cells })
            ∧ (queue.length < 64 → (remote → s.releasePending here = false) → u.taint = true →
              ∃ w, exec i s = .next ((s.poisonSink { nodeOf s t with iter := t.sendIter } (d.firstByte kind c (s.firstStart t.ctx d kind)) 1 2).complete w)
                ∧ ScalarResult s.now t w sd srcs 2 (BitVec.ofNat 64 s.now)))))
    let b := sourceValue t sb
    let c := sourceValue t sc
    form (.teCopy g sd sa q) .copy [sa] 0 0 ∧ form (.teCopyp g sd sa sb q) .copyp [sa, sb] b 0
    ∧ form (.teGather g sd sa q) .gather [sa] 0 0 ∧ form (.teScatter g sd sa q) .scatter [sa] 0 0
    ∧ form (.teFill g sd sa sb q) .fill [sa, sb] b 0 ∧ form (.teTranspose g sd sa q) .transpose [sa] 0 0
    ∧ form (.teDecode g sd sa sb sc q) .decode [sa, sb, sc] b c ∧ form (.teRemote g sd sa sb q) .remote [sa, sb] b 0
    ∧ form (.teSig g sd sa sb sc q) .sig [sa, sb, sc] b c

/-- 19:R290, R291: TE.QUERY gives the state of a slot with the cause and the rows of its request, pass or record; TE.CANCEL
of a slot that is not BUSY gives all ones, of a BUSY one marks its request or its passes, keeping what held it as the
record's cause, and waits for the record; an EMPTY slot raises DESC. -/
def Sys2Proof.Claims.QueryAndCancel : Prop :=
  ∀ (s : State) (t : Task) (g : Guard) (sd : BitVec 5) (sa : Spec), s.task s.here = some t →
    let k := (sourceValue t sa).toNat % 16
    let x := tgetD s.cell0.slots {} k
    let h := hallOf s.focus.toNat
    let u := reads t [sa]
    let word := (s.curWord t).toNat
    let answer (i : Instr) (lat : Nat) (v : Nat) : Prop :=
      ∃ w, exec i s = .next (s.complete w) ∧ ScalarResult s.now t w sd [sa] lat (BitVec.ofNat 64 v)
    let q : Instr := .teQuery g sd sa
    let c : Instr := .teCancel g sd sa
    Skips q s t g ∧ Skips c s t g
    ∧ (t.holds g = true →
      (x.state = .empty → answer q 4 0 ∧ exec c s = .next (s.raise u 0x0A k word))
      ∧ (x.state ≠ .empty → x.owner ≠ t.ctx →
        exec q s = .next (s.raise u 0x09 t.pc.toNat word) ∧ exec c s = .next (s.raise u 0x09 t.pc.toNat word))
      ∧ (x.owner = t.ctx →
        (x.state = .ready → answer q 4 (1 * 2 ^ 61))
        ∧ (x.state = .done → answer q 4
            ((4 + x.record.toNat / 2 ^ 120) % 8 * 2 ^ 61 + x.record.toNat / 2 ^ 112 % 256 * 2 ^ 48
              + x.record.toNat / 2 ^ 64 % 2 ^ 32))
        ∧ (x.state = .ready ∨ x.state = .done → answer c 1 (2 ^ 64 - 1))
        ∧ (∀ e id r, x.state = .busy → x.req = some (e, id) →
            (tgetD (s.hall h).queues [] e).find? (fun r => r.id = id) = some r →
            (r.heldSince = none → answer q 4 ((if r.started then 3 else 2) * 2 ^ 61 + r.rowsDone % 2 ^ 32))
            ∧ (r.heldSince ≠ none → answer q 4 (4 * 2 ^ 61 + 0x08 * 2 ^ 48 + r.rowsDone % 2 ^ 32))
            ∧ ∃ s', exec c s = .next s'
                ∧ s'.task s.here = some { u with wait := .cancel k sd, waitAt := some s.now }
                ∧ tgetD (s'.hall h).queues [] e = (tgetD (s.hall h).queues [] e).map fun r =>
                    if r.id = id ∧ r.cancelled = false then
                      { r with
                        cancelled := true, cancelCause := if r.heldSince = none then 0 else 0x08, heldSince := none
                        grant := none }
                    else r)
        ∧ (∀ n p run, x.state = .busy → x.req = none → s.slotPass s.focus.toNat k = some (n, p, run) →
            (run = false → answer q 4 (2 * 2 ^ 61 + p.rowsDone % 2 ^ 32))
            ∧ (run = true → n.heldSince = none → answer q 4 (3 * 2 ^ 61 + p.rowsDone % 2 ^ 32))
            ∧ (run = true → n.heldSince ≠ none → answer q 4 (4 * 2 ^ 61 + 0x08 * 2 ^ 48 + p.rowsDone % 2 ^ 32)))
        ∧ (x.state = .busy → x.req = none → ∃ s', exec c s = .next s'
            ∧ s'.task s.here = some { u with wait := .cancel k sd, waitAt := some s.now }
            ∧ ∀ ver, ∀ n ∈ (s'.version s.focus.toNat ver).nodes, ∀ p ∈ n.passes, p.slot = k → p.cancelled ≠ none)))

/-- 19:R292: XLAT sends the translation of an address as a PADDR token; an address that fails a check gives a fault of the
node and a null PADDR token, a failed guard the null token alone, a port not in use PROTECTION. -/
def Sys2Proof.Claims.AddressTranslation : Prop :=
  ∀ (s : State) (t : Task) (g : Guard) (port : BitVec 2) (sa sb : Spec) (pa : Nat) (l : Leaf) (edge : Nat → Edge)
    (dst : Nat → Nat) (rtag : Nat → BitVec 8), s.task s.here = some t →
    let a := sourceValue t sa
    let write := (sourceValue t sb).getLsbD 0
    let u := reads t [sa, sb]
    let i : Instr := .xlat g port sa sb
    let null (t : Task) := tokenOf t 5 .null 0 0
    (PortsReady s t edge dst rtag [port.toNat] →
      (t.holds g = false → Sends i s t edge dst rtag [(port.toNat, null t)] 1)
      ∧ (t.holds g = true → Reaches s t a 1 .plain write pa l →
        Gives i s l (State.complete
          (sendAll s u edge dst rtag [(port.toNat, tokenOf u 5 .none 0 (BitVec.ofNat 64 (pa % 2 ^ 48)))])
          { u with sent := port.toNat :: t.sent }))
      ∧ (t.holds g = true → 2 ^ 52 ≤ a.toNat →
        exec i s = .next (State.complete
          ((sendAll s u edge dst rtag [(port.toNat, null u)]).nodeFault (nodeOf s t) 0x08 a.toNat a.toNat)
          { u with sent := port.toNat :: t.sent })))
    ∧ (∀ n, s.node s.focus.toNat t.ver t.node = some n → (∀ e, n.outputs[port.toNat]? ≠ some (some e)) →
      t.holds g = true → exec i s = .next (s.raise u 0x09 t.pc.toNat (s.curWord t).toNat))

/-- 19:R293 to R296: MQPUSH is a release at HALL scope and adds an entry to the hall's queue, which holds 65,536; MQPOP adds
a request for an entry to it; SPAWN pushes while there is room and answers 1, and otherwise calls the child's handler with
the entry in s30 and s31, or waits where the call stack is full. -/
def Sys2Proof.Claims.MeridianQueue : Prop :=
  ∀ (s : State) (t : Task) (g : Guard) (sd : BitVec 5) (sa sb sc : Spec), s.task s.here = some t →
    let here := s.focus.toNat
    let h := hallOf here
    let a := sourceValue t sa
    let b := sourceValue t sb
    let u2 := reads t [sa, sb]
    let u3 := reads t [sa, sb, sc]
    let room : Prop := (s.hall h).mq.length < 65536
    let pushed (u : Task) : State := (s.release here t.node .hall).updHall h fun x =>
      { x with mq := x.mq ++ [⟨BitVec.ofNat 32 a.toNat, b, t.ctx, u.taint⟩] }
    Skips (.mqpush g sa sb) s t g ∧ Skips (.mqpop g sa) s t g ∧ Skips (.spawn g sd sa sb sc) s t g
    ∧ (t.holds g = true →
      (s.cell0.prom = none → NothingEarlier s t → room → exec (.mqpush g sa sb) s = .next ((pushed u2).complete u2))
      ∧ (s.cell0.prom = none → ¬ room → exec (.mqpush g sa sb) s = .next (s.retry u2 (some 1)))
      ∧ (s.cell0.prom ≠ none → exec (.mqpush g sa sb) s = .next (s.retry u2 none true))
      ∧ (∀ n owner, (s.version here t.ver).nodes[a.toNat % 32]? = some n → (s.version here t.ver).owner = some owner →
          let port := a.toNat / 32 % 4
          ((∃ o, n.inputs[port]? = some (some o)) ∨ ((∀ o, some o ∉ n.inputs) ∧ port = 0)) →
          exec (.mqpop g sa) s = .next ((s.updHall h fun y =>
            { y with mqPops := y.mqPops ++ [⟨t.ctx, t.sendIter, n.gid, owner.2, port, none⟩] }).complete (reads t [sa])))
      ∧ ((s.version here t.ver).nodes[a.toNat % 32]? = none →
          exec (.mqpop g sa) s = .next (s.raise (reads t [sa]) 0x09 t.pc.toNat (s.curWord t).toNat))
      ∧ (∀ n, (s.version here t.ver).nodes[(sourceValue t sc).toNat % 32]? = some n →
        (n.role ≠ .compute → exec (.spawn g sd sa sb sc) s = .next (s.raise u3 0x09 t.pc.toNat (s.curWord t).toNat))
        ∧ (n.role = .compute →
          (room → s.cell0.prom = none → NothingEarlier s t →
            ∃ w, exec (.spawn g sd sa sb sc) s = .next ((pushed u3).complete w) ∧ ScalarResult s.now t w sd [sa, sb, sc] 1 1)
          ∧ (¬ room → t.calls.length < 8 →
            ∃ w : Task, exec (.spawn g sd sa sb sc) s = .next ((s.updCell0 fun c =>
                { c with callMax := BitVec.ofNat 4 (Nat.max c.callMax.toNat (t.calls.length + 1)) }).issued w 2)
              ∧ w.pc = BitVec.ofNat 10 n.handler ∧ w.calls = (t.pc.toNat + 1) :: t.calls
              ∧ w.reg 30 = BitVec.ofNat 64 (a.toNat % 2 ^ 32) ∧ w.reg 31 = b
              ∧ (sd ≠ 30 → sd ≠ 31 → w.reg sd = 0)
              ∧ (∀ r, r ≠ sd → r ≠ 30 → r ≠ 31 → w.reg r = t.reg r)
              ∧ w = { u3 with regs := w.regs, pc := w.pc, calls := w.calls })
          ∧ (¬ room → t.calls.length = 8 → exec (.spawn g sd sa sb sc) s = .next (s.retry u3 (some 1))))))

/-- 19:R303 to R305, 27:R384: STOP writes a chronograph entry of its operand and begins the stop of its context, and
does nothing while one is under way; RESUME sends a RESUME token to the cell of the held object, of a node where the
placement table has it, or raises RESERVED_FIELD or
PROTECTION; DBG writes an entry of its code and operand. -/
def Sys2Proof.Claims.StopResumeDebug : Prop :=
  ∀ (s : State) (t : Task) (sa : Spec) (code : BitVec 8), s.task s.here = some t →
    let here := s.focus.toNat
    let a := (sourceValue t sa).toNat
    let u := reads t [sa]
    let entry (type detail : Nat) : State := s.chronoAt here type detail t.ver t.node t.iter.toNat t.ctx.toNat
    let cell := a % 2 ^ 18
    let n := a / 2 ^ 18 % 32
    let obj := a / 2 ^ 23 % 8
    let x := tgetD (s.cell cell).slots {} n
    let live := s.version cell ((s.cell cell).liveVersion n)
    let mine : Prop := (∃ o, live.owner = some o ∧ o.1 = t.ctx) ∧ n < live.nodes.length
    let dest := if obj = 5 then (cell, n) else s.resumeTarget (hallOf here) cell n t.ctx
    let word := (s.curWord t).toNat
    ((s.ctx t.ctx).stopping = false → exec (.stop sa) s = .next (((entry 0x0A a).beginStop t.ctx).complete u))
    ∧ ((s.ctx t.ctx).stopping = true → exec (.stop sa) s = .next (s.complete u))
    ∧ (6 ≤ obj ∨ (obj = 5 ∧ 16 ≤ n) → exec (.resume sa) s = .next (s.raise u 0x02 t.pc.toNat word))
    ∧ (obj = 5 → n < 16 → x.state ≠ .empty → x.owner ≠ t.ctx → exec (.resume sa) s = .next (s.raise u 0x09 t.pc.toNat word))
    ∧ (obj < 5 → ¬ mine → exec (.resume sa) s = .next (s.raise u 0x09 t.pc.toNat word))
    ∧ ((obj = 5 ∧ n < 16 ∧ (x.state = .empty ∨ x.owner = t.ctx)) ∨ (obj < 5 ∧ mine) →
      exec (.resume sa) s = .next (State.complete
        { s with net := s.net ++ [⟨here, dest.1, .token
            { tokenOf u 3 .none 2 (BitVec.ofNat 64 (dest.1 + dest.2 * 2 ^ 18 + obj * 2 ^ 23)) with
              dst := BitVec.ofNat 18 dest.1 } none⟩] } u))
    ∧ exec (.dbg code sa) s = .next ((entry 0x0B (code.toNat + a * 2 ^ 8)).complete u)

end

namespace Sys2Proof.Claims

open Sys2Proof.Machine

/-! ## Messages -/

/-- The message stands in the net at the place that the turn names, from a sender and with its context, no earlier
packet goes the same way, and the version it names runs (05:R63, R81, R88). -/
def Arrives (s : State) (m : Msg) (src : Nat) (ctx : BitVec 10) (req : Option MsgReq) : Prop :=
  s.net[s.choice.n]? = some ⟨src, m.dst.toNat, .msg m ctx req⟩
  ∧ ((s.net.take s.choice.n).any fun q => q.sameWay ⟨src, m.dst.toNat, .msg m ctx req⟩) = false
  ∧ ((s.version m.dst.toNat m.ver).state = .ready ∨ (s.version m.dst.toNat m.ver).state = .live)

/-- The state in which the message acts: it has left the net, and its handling is an acquire (07:R118). -/
def handling (s : State) (m : Msg) (src : Nat) : State :=
  State.acquire { s with net := ldel s.net s.choice.n } m.dst.toNat (scopeBetween src m.dst.toNat)

/-- The reply to a message's continuation: none for tag 0xFF, else MREPLY after a release (19:R306, 07:R118). -/
def replied (s : State) (m : Msg) (v : Word) (poison : Bool) (req : Option MsgReq) : State :=
  let here := m.dst.toNat
  let there := m.ccell.toNat
  if m.ctag = 0xFF then s
  else
    let s := s.pushTo here (scopeBetween here there)
    { s with net := s.net ++ [⟨here, there, .msg
        { dst := m.ccell, poison := poison, ver := m.ver, op := 0x17, handler := 0, ccell := m.dst, ctag := m.ctag
          operand := v } 0 req⟩] }

/-- The handler entry of a message: base, stride and limit of its elements in words of the bank (09:R156). -/
def entry (s : State) (m : Msg) (e : HEntry) : Prop :=
  m.handler ≠ 0 ∧ tget (s.version m.dst.toNat m.ver).handlers m.handler.toNat = some e ∧ e.word.toNat / 2 ^ 27 % 2 ^ 14 ≠ 0

def limitOf (e : HEntry) : Nat := e.word.toNat / 2 ^ 27 % 2 ^ 14

/-- Word of element i. -/
def elementAt (e : HEntry) (i : Nat) : Nat := e.word.toNat % 2 ^ 13 + i * (e.word.toNat / 2 ^ 13 % 2 ^ 14)

/-- Element i can be accessed: below the limit, in the bank, its row open. -/
def ElementOpen (c : Cell) (e : HEntry) (i : Nat) : Prop :=
  i < limitOf e ∧ elementAt e i < 8192 ∧ c.rowForbidden (elementAt e i / 16) = false

/-- Word w of a bank. -/
def bankWord (c : Cell) (w : Nat) : Nat := (c.row (w / 16)).toNat / 2 ^ (64 * (w % 16)) % 2 ^ 64

/-- One word of the bank is written; a tainted write poisons its row, no other row's poison changes (05:R72). -/
def WordWritten (c c' : Cell) (w : Nat) (v : Word) (taint : Bool) : Prop :=
  bankWord c' w = v.toNat ∧ (∀ x, x ≠ w → bankWord c' x = bankWord c x)
  ∧ c'.rowPoisoned (w / 16) = (taint || c.rowPoisoned (w / 16))
  ∧ (∀ r, r ≠ w / 16 → c'.rowPoisoned r = c.rowPoisoned r)

end Sys2Proof.Claims

section

open Sys2Proof Sys2Proof.Machine Sys2Proof.Claims

/-- 05:R81, R88, 09:R156: a message of a version that is LOADING is held there; of one that is EMPTY it goes with the
configuration that left, or is dropped with a BADMSG entry; one that names no handler entry is dropped with BADMSG and not
answered. Said of MNOP, MLD, MST, MPACK, the atomics, MQPUSH, MQPOP and MSPAWN. The messages of the module MPROM, MSTOP,
MRESUME, MCFGW and MTRAP are held and forwarded alike, and so is MBAR, forwarded while the epoch of the version that left is
open. -/
def Sys2Proof.Claims.MessagesWithoutHandler : Prop :=
  ∀ (s : State) (m : Msg) (src : Nat) (ctx : BitVec 10) (req : Option MsgReq),
    s.net[s.choice.n]? = some ⟨src, m.dst.toNat, .msg m ctx req⟩ →
    ((s.net.take s.choice.n).any fun q => q.sameWay ⟨src, m.dst.toNat, .msg m ctx req⟩) = false →
    let here := m.dst.toNat
    let v := s.version here m.ver
    let p : Packet := ⟨src, here, .msg m ctx req⟩
    let taken : State := { s with net := ldel s.net s.choice.n }
    let drop (s : State) : State := s.chronoAt here 0x05 ((encodeMsg m) / 2 ^ 32 % 2 ^ 96) m.ver
    let held : State := taken.updVersion here m.ver fun v => { v with held := v.held ++ [p] }
    let forwarded (o : BitVec 10 × Nat) : State :=
      taken.updCfg o.1 o.2 fun x => { x with vestMsgs := x.vestMsgs ++ [p] }
    let handlers := [Instr.mnop m, .mld m, .mst m, .mpack m, .maadd m, .mamin m, .mamax m, .maand m, .maor m, .maxor m,
      .mswp m, .minc m, .msgMqpush m, .msgMqpop m, .mspawn m]
    (∀ i ∈ handlers ++ [.mprom m, .mstop m, .mresume m, .mcfgwEntry m, .mcfgwPair m, .mtrap m],
      (v.state = .loading → exec i s = .next held)
      ∧ (∀ o, v.state = .empty → v.owner = some o → exec i s = .next (forwarded o))
      ∧ (v.state = .empty → v.owner = none → exec i s = .next (drop taken)))
    ∧ (v.state = .loading → exec (.mbar m) s = .next held)
    ∧ (∀ o, v.state = .empty → v.epochOpen = true → v.owner = some o → exec (.mbar m) s = .next (forwarded o))
    ∧ ∀ i ∈ handlers,
      v.state = .ready ∨ v.state = .live →
        (m.handler = 0 ∨ tget v.handlers m.handler.toNat = none
          ∨ ∃ e, tget v.handlers m.handler.toNat = some e ∧ limitOf e = 0) →
        exec i s = .next (drop (handling s m src))

/-- 19:R306, 09:R156: MNOP replies zero; MLD replies the element its operand names; MST writes its operand to the element at
the entry's cursor, moves the cursor on and replies where it wrote; MPACK does so for each word of its packet, zeros or
repeats of the last word stored. An element that cannot be accessed, or an entry without the permission, is dropped with
BADMSG and a null reply; a message waits for an instruction in flight on a row of its elements, before it can fail
(13:R184, 15:R217). -/
def Sys2Proof.Claims.ElementMessages : Prop :=
  ∀ (s : State) (m : Msg) (src : Nat) (ctx : BitVec 10) (req : Option MsgReq) (e : HEntry), Arrives s m src ctx req →
    entry s m e →
    let here := m.dst.toNat
    let h := handling s m src
    let c := h.cell here
    let x := m.operand.toNat
    let lim := limitOf e
    let failed : State := replied (h.chronoAt here 0x05 ((encodeMsg m) / 2 ^ 32 % 2 ^ 96) m.ver) m 0 m.poison (some .null)
    let only (s' : State) : Prop := s' = { h with cells := s'.cells } ∧ ∀ d, d ≠ here → s'.cell d = h.cell d
    let moved (s' : State) (cursor : Nat) (last : Word) : Prop :=
      tget (s'.version here m.ver).handlers m.handler.toNat = some { e with cursor := cursor, last := last }
    let n := x % 2 ^ 16 + 1
    let at_ (i : Nat) := (e.cursor + i) % lim
    exec (.mnop m) s = .next (replied h m 0 m.poison (some .answer))
    ∧ (c.flights = [] → ElementOpen c e (x % 8192) →
      exec (.mld m) s = .next (replied h m (BitVec.ofNat 64 (bankWord c (elementAt e (x % 8192))))
        (m.poison || c.rowPoisoned (elementAt e (x % 8192) / 16)) (some .answer)))
    ∧ (c.flights = [] → ¬ ElementOpen c e (x % 8192) → exec (.mld m) s = .next failed)
    ∧ (c.elemsHeld s.now e [x % 8192] = true → exec (.mld m) s = .next s)
    ∧ (c.flights = [] → ElementOpen c e e.cursor → e.word.getLsbD 41 = true →
      ∃ s', exec (.mst m) s = .next (replied s' m (BitVec.ofNat 64 e.cursor) m.poison (some .answer))
        ∧ WordWritten c (s'.cell here) (elementAt e e.cursor) m.operand m.poison
        ∧ moved s' ((e.cursor + 1) % lim) m.operand ∧ only s')
    ∧ (c.flights = [] → ¬ ElementOpen c e e.cursor ∨ e.word.getLsbD 41 = false → exec (.mst m) s = .next failed)
    ∧ (c.elemsHeld s.now e [e.cursor] = true → exec (.mst m) s = .next s)
    ∧ (c.flights = [] → x / 2 ^ 16 % 2 ^ 45 = 0 → x / 2 ^ 61 ≤ 1 → e.word.getLsbD 41 = true →
      (∀ i, i < n → i < lim → ElementOpen c e (at_ i)) →
      let v : Word := if x / 2 ^ 61 = 0 then 0 else e.last
      ∃ s', exec (.mpack m) s = .next (replied s' m (BitVec.ofNat 64 ((e.cursor + n - 1) % lim)) m.poison (some .answer))
        ∧ (∀ i, i < n → i < lim → bankWord (s'.cell here) (elementAt e (at_ i)) = v.toNat)
        ∧ (∀ w, (∀ i, i < n → i < lim → w ≠ elementAt e (at_ i)) → bankWord (s'.cell here) w = bankWord c w)
        ∧ moved s' ((e.cursor + n) % lim) v ∧ only s')
    ∧ (c.flights = [] → x / 2 ^ 16 % 2 ^ 45 ≠ 0 ∨ 2 ≤ x / 2 ^ 61 ∨ e.word.getLsbD 41 = false →
      exec (.mpack m) s = .next failed)

/-- 19:R306, 07:R137: the atomic messages replace element 0 by the result of their operation on 64 bits and reply its old
value, with the poison of the message and of the row; they wait for an instruction in flight on the row; without permission they are dropped with BADMSG and a null reply. -/
def Sys2Proof.Claims.AtomicMessages : Prop :=
  ∀ (s : State) (m : Msg) (src : Nat) (ctx : BitVec 10) (req : Option MsgReq) (e : HEntry), Arrives s m src ctx req →
    entry s m e →
    let here := m.dst.toNat
    let h := handling s m src
    let c := h.cell here
    let w := elementAt e 0
    let old := bankWord c w
    let b := m.operand.toNat
    let sg (x : Nat) : Int := if 2 ^ 63 ≤ x then (x : Int) - 2 ^ 64 else x
    let taint := m.poison || c.rowPoisoned (w / 16)
    let form (i : Instr) (new : Nat) : Prop :=
      (c.flights = [] → ElementOpen c e 0 → e.word.getLsbD 42 = true →
        ∃ s', exec i s = .next (replied s' m (BitVec.ofNat 64 old) taint (some .answer))
          ∧ WordWritten c (s'.cell here) w (BitVec.ofNat 64 new) taint
          ∧ s' = { h with cells := s'.cells } ∧ (∀ d, d ≠ here → s'.cell d = h.cell d)
          ∧ s'.version here m.ver = h.version here m.ver)
      ∧ (c.elemsHeld s.now e [0] = true → exec i s = .next s)
      ∧ (c.flights = [] → ¬ ElementOpen c e 0 ∨ e.word.getLsbD 42 = false →
        exec i s = .next (replied (h.chronoAt here 0x05 ((encodeMsg m) / 2 ^ 32 % 2 ^ 96) m.ver) m 0 m.poison (some .null)))
    form (.maadd m) ((old + b) % 2 ^ 64)
    ∧ form (.mamin m) (if sg old ≤ sg b then old else b) ∧ form (.mamax m) (if sg old ≤ sg b then b else old)
    ∧ form (.maand m) (Nat.land old b) ∧ form (.maor m) (Nat.lor old b) ∧ form (.maxor m) (Nat.xor old b)
    ∧ form (.mswp m) b ∧ form (.minc m) (if b ≤ old then 0 else old + 1)

/-- 19:R306, 23:R347, R349, 09:R156, 15:R222: the messages of the module. MSTOP marks its node; MRESUME releases its ports;
MCFGW writes a handler entry, or a pair that passes the checks of R43; MOWN sets the owner bits; MPROM joins the promotion in
progress of its requester or waits, and where scan-out has stopped issue is accepted with those that wait (24:R357); MBAR waits at its home, or is answered; MTRAP raises its cause against its node
(address and iteration of that record are free values: log entry 8). That MRESUME releases every port and that an entry
written has its cursor at 0 is log entry 19's (DEDUCED). -/
def Sys2Proof.Claims.ModuleMessages : Prop :=
  ∀ (s : State) (m : Msg) (src : Nat) (ctx : BitVec 10) (req : Option MsgReq), Arrives s m src ctx req →
    let here := m.dst.toNat
    let h := handling s m src
    let c := h.cell here
    let x := m.operand.toNat
    let node := x % 32
    exec (.mstop m) s = .next (h.updNode here m.ver node fun n => { n with stopAgent := true })
    ∧ exec (.mresume m) s = .next
        ((each [0, 1, 2, 3] h fun s p => s.releasePort here m.ver node p).releaseAddress here m.ver node)
    ∧ exec (.mcfgwEntry m) s = .next (h.updVersion here m.ver fun v =>
        { v with handlers := tput v.handlers (x / 2 ^ 54) { word := BitVec.ofNat 43 x } })
    ∧ (∀ k, k < 4 → x / 2 ^ 54 = 0x100 + k → pairFault (x % 2 ^ 32) = none → c.flights = [] →
      ∃ c', exec (.mcfgwPair m) s = .next (h.updCell here fun _ => c')
        ∧ (c'.pairBits (BitVec.ofNat 2 k)).toNat = x % 2 ^ 32
        ∧ (∀ j, j < 4 → j ≠ k → c'.pairBits (BitVec.ofNat 2 j) = c.pairBits (BitVec.ofNat 2 j)) ∧ c' = { c with pp := c'.pp })
    ∧ exec (.mown m) s = .next (h.updCell here fun c => { c with owner := BitVec.ofNat 8 x })
    ∧ (∀ r, req = some (.prom r) → c.issueStopped = false →
      (∀ l k, c.prom = some (l, k) → (∃ q ∈ l, q.cell = r.cell) →
        exec (.mprom m) s = .next (h.updCell here fun c => { c with prom := some (l ++ [r], k) }))
      ∧ ((∀ l k, c.prom = some (l, k) → ∀ q ∈ l, q.cell ≠ r.cell) →
        exec (.mprom m) s = .next (h.updCell here fun c => { c with promWaiting := c.promWaiting ++ [r] })))
    ∧ (∀ r, req = some (.prom r) → c.issueStopped = true → c.prom = none →
        exec (.mprom m) s = .next ((h.updCell here fun c => { c with promWaiting := c.promWaiting ++ [r] }).settlePromotions
          here (c.promWaiting.length + 2)))
    ∧ (∀ w e, req = some (.bar w) → e = c.bar w.bid → e.owner = some w.ctx →
      let d := (e.phase.toNat + 4096 - w.phase.toNat) % 4096
      (d = 0 ∨ 2048 ≤ d → c.barWaiters.length < 64 →
        exec (.mbar m) s = .next (h.updCell here fun c =>
          { c.setBar w.bid e with barWaiters := c.barWaiters ++ [w] }))
      ∧ (d = 0 ∨ 2048 ≤ d → 64 ≤ c.barWaiters.length →
        exec (.mbar m) s = .next (h.updCell here fun c => { c with barHeldWaits := c.barHeldWaits ++ [w] }))
      ∧ (1 ≤ d → d ≤ 2047 → w.task.cell ≠ here →
        ∃ s', exec (.mbar m) s = .next s' ∧ s'.net = h.net ++ [⟨here, w.task.cell, .msg
          { dst := BitVec.ofNat 18 w.task.cell, poison := false, ver := false, op := 0x17, handler := 0, ccell := m.dst
            ctag := 0xFF, operand := 0 } w.ctx (some (.bar w))⟩]))
    ∧ ∃ (addr : Nat) (iter : BitVec 12), exec (.mtrap m) s = .next ((h.useFree).nodeFault
        (nodeRef here m.ver (x / 2 ^ 8 % 32) (match (h.version here m.ver).owner with | some o => o.1 | none => 0) iter)
        (x % 256) addr (x / 2 ^ 13))

/-- 23:R339, 19:R306: MRDY of a cell counts towards the install of its configuration while that is LOADING; the last one
installs it; any other is passed over. -/
def Sys2Proof.Claims.InstallReports : Prop :=
  ∀ (s : State) (m : Msg) (src : Nat) (ctx : BitVec 10) (i cell : Nat) (c : CfgRt),
    Arrives s m src ctx (some (.ready i cell)) → (handling s m src).cfg ctx i = some c →
    let h := handling s m src
    let rest := c.loadingCells.filter fun x => x ≠ cell
    let counted : State := h.updCfg ctx i fun _ => { c with loadingCells := rest }
    (c.state ≠ .loading → exec (.mrdy m) s = .next h)
    ∧ (c.state = .loading → rest ≠ [] → exec (.mrdy m) s = .next counted)
    ∧ (c.state = .loading → rest = [] →
      exec (.mrdy m) s = .next (counted.installed ctx i { c with loadingCells := [] }))

/-- 19:R293 to R295, R306: the queue's messages. MQPUSH adds an entry of its operand's halves and replies zero, and fails
on a full queue; MQPOP waits at the queue for its reply; MSPAWN adds its entry, or waits while the queue is full. -/
def Sys2Proof.Claims.QueueMessages : Prop :=
  ∀ (s : State) (m : Msg) (src : Nat) (ctx : BitVec 10) (req : Option MsgReq) (he : HEntry), Arrives s m src ctx req →
    entry s m he →
    let here := m.dst.toNat
    let h := handling s m src
    let hall := hallOf here
    let room : Prop := (h.hall hall).mq.length < 65536
    let e : MqEntry := ⟨BitVec.ofNat 32 (m.operand.toNat / 2 ^ 32), BitVec.ofNat 64 (m.operand.toNat % 2 ^ 32), ctx, m.poison⟩
    let added : State := h.updHall hall fun x => { x with mq := x.mq ++ [e] }
    let drop (s : State) : State := s.chronoAt here 0x05 ((encodeMsg m) / 2 ^ 32 % 2 ^ 96) m.ver
    (room → exec (.msgMqpush m) s = .next (replied added m 0 m.poison (some .answer)))
    ∧ (¬ room → exec (.msgMqpush m) s = .next (replied (drop h) m 0 m.poison (some .null)))
    ∧ (m.ctag ≠ 0xFF → exec (.msgMqpop m) s = .next (h.updHall hall fun x =>
        { x with mqPops := x.mqPops ++ [⟨ctx, 0, 0, 0, 0, some m⟩] }))
    ∧ (m.ctag = 0xFF → exec (.msgMqpop m) s = .next (drop h))
    ∧ (room → exec (.mspawn m) s = .next (replied added m 0 m.poison (some .answer)))
    ∧ (¬ room → exec (.mspawn m) s = .next (h.updHall hall fun x => { x with mqPush := x.mqPush ++ [(e, some m)] }))

/-- 19:R306, 07:R123: MREPLY answers the promotion request or the remote wait it belongs to; any other becomes a DATA token,
null for a null reply, on the ORDERED port that its continuation tag is bound to, and is dropped with BADMSG where there
is none; one that a task has formed must name a handler entry, and one of the module need not (log entry 19, DEDUCED). The
iteration of that token is a free value (log entry 8). -/
def Sys2Proof.Claims.Replies : Prop :=
  ∀ (s : State) (m : Msg) (src : Nat) (ctx : BitVec 10) (req : Option MsgReq), Arrives s m src ctx req →
    let here := m.dst.toNat
    let h := handling s m src
    let v := h.version here m.ver
    let drop : State := h.chronoAt here 0x05 ((encodeMsg m) / 2 ^ 32 % 2 ^ 96) m.ver
    (∀ r, req = some (.prom r) → exec (.mreply m) s = .next (h.updCell r.cell fun c =>
      { c with ops := c.ops.map fun o =>
          if o.id = r.op then (match o.kind with | .prom _ _ => { o with kind := .prom true false } | _ => o) else o }))
    ∧ (∀ w t, req = some (.bar w) → h.task ⟨here, w.task.slot⟩ = some t → t.wait = .bar src w.bid w.phase →
      (∀ n, h.node here t.ver t.node = some n → n.halted = false) →
      ∃ s', exec (.mreply m) s = .next s'
        ∧ ∃ u, s'.task ⟨here, w.task.slot⟩ = some u ∧ u.wait = .none ∧ u.taint = (t.taint || m.poison)
          ∧ u.regs = t.regs ∧ u.preds = t.preds)
    ∧ (req = none → (∀ e, ¬ entry s m e) → exec (.mreply m) s = .next drop)
    ∧ (req = some .answer ∨ req = some .null ∨ (req = none ∧ ∃ e, entry s m e) →
      (∀ b n o, v.bindings[m.ctag.toNat]? = some b → v.nodes[b.node]? = some n → v.owner = some o →
        (n.inputs[b.port]? = some (some true) → b.fifo.length < 16 →
          ∃ iter, exec (.mreply m) s = .next (h.useFree.enterFifo here m.ver m.ctag.toNat
            { kind := 0, dst := m.dst, poison := m.poison, ver := m.ver, rtag := m.ctag, ctx := o.1, iter := iter
              pred := if req = some .null then .null else .none, aux := 0, payload := m.operand
              scope := scopeBetween m.ccell.toNat here, free := true }))
        ∧ (n.inputs[b.port]? = some (some true) → 16 ≤ b.fifo.length → exec (.mreply m) s = .next s)
        ∧ (n.inputs[b.port]? ≠ some (some true) → exec (.mreply m) s = .next drop))
      ∧ (v.bindings[m.ctag.toNat]? = none → exec (.mreply m) s = .next drop))

end

namespace Sys2Proof.Claims

open Sys2Proof.Machine

/-! ## Commands -/

/-- No earlier LOADCFG, WRITE or BIND that is incomplete names the command's context or none: the command, where it names a
context, need not wait for its start (25:R360). -/
def MayStart (s : State) (c : Cmd) : Prop :=
  c.ctx = 0xFFFF ∨ ∀ e ∈ s.cp.live, e.1 < s.cp.nextSeq → e.2.1 ∈ [1, 6, 8] → e.2.2 ≠ c.ctx ∧ e.2.2 ≠ 0xFFFF

/-- The CP accepts and nothing waits before a message: acceptance is open and not paused, firmware runs, no earlier
message waits for acceptance or for its start (25:R360; 27:R385, R389). -/
def Ready (s : State) : Prop :=
  s.cp.fatal = false ∧ s.cp.paused = none ∧ s.cp.waiting = [] ∧ s.cp.pending = [] ∧ 6 ≤ s.cp.bootStat.toNat
  ∧ s.cp.bootStat ≠ 0x81

/-- The command is accepted and starts at once. -/
def Open (s : State) (c : Cmd) : Prop := Ready s ∧ MayStart s c

/-- The message accepted: its number is taken and its journal entry written. -/
def accepted (s : State) (c : Cmd) : State :=
  State.acceptCmd { s with cp := { s.cp with replayRun := 0 } } c

/-- The command is accepted and complete with a status; `f` is what it has done. -/
def Ends (i : Instr) (s : State) (c : Cmd) (f : State → State) (status : Nat) : Prop :=
  exec i s = .next ((f (accepted s c)).finishSeq s.cp.nextSeq c.ctx status)

/-- The command names a live context. -/
def InContext (s : State) (c : Cmd) : Prop := c.ctx.toNat < 1024 ∧ (s.ctx (BitVec.ofNat 10 c.ctx.toNat)).live = true

/-- What a command that needs a context ends with where it has none: no context named or not live, or a number past
the ids (27:R386). -/
def NoContext (i : Instr) (s : State) (c : Cmd) : Prop :=
  (c.ctx = 0xFFFF → Ends i s c id 0x0303) ∧ (c.ctx ≠ 0xFFFF → 1024 ≤ c.ctx.toNat → Ends i s c id 0x0302)
  ∧ (c.ctx.toNat < 1024 → (s.ctx (BitVec.ofNat 10 c.ctx.toNat)).live = false → Ends i s c id 0x0303)

/-- The bytes of host memory that a command names exist. -/
def InHost (c : Cmd) (n : Nat) : Prop := c.haddr.toNat + n ≤ 2 ^ 47

def argOf (c : Cmd) (lo n : Nat) : Nat := c.arg.toNat / 2 ^ lo % 2 ^ n

end Sys2Proof.Claims

section

open Sys2Proof Sys2Proof.Machine Sys2Proof.Claims

/-- 25:R360, R363; 27:R386, R389: acceptance. A message takes the next number and an entry of the journal with its code, its
context and the cycle; behind messages that wait, or while acceptance is closed or paused, it waits in the link's
buffers; behind commands that have not started, or while a LOADCFG, WRITE or BIND of its context or of
none is incomplete, it is accepted and waits to start; without firmware a command other than
FWSTAGE and QUERY ends with 0x0306; a code that is no command ends with 0x0301, a reserved BIND with 0x0302. -/
def Obligations.CommandAcceptance : Prop :=
  ∀ (s : State) (c : Cmd),
    let n := s.cp.nextSeq
    let quiet : State := { s with cp := { s.cp with replayRun := 0 } }
    let a := accepted s c
    (a.cp.nextSeq = n + 1
      ∧ ∃ e, tget a.cp.journal (n % 2 ^ 18) = some e ∧ e.seq = n ∧ e.code = c.code.toNat ∧ e.ctx = c.ctx ∧ e.state = 0
        ∧ e.status = 0 ∧ e.accept = s.now % 2 ^ 64
      ∧ ∀ k, k ≠ n % 2 ^ 18 → tget a.cp.journal k = tget s.cp.journal k)
    ∧ (s.cp.fatal = true ∨ s.cp.paused ≠ none ∨ s.cp.bootStat.toNat < 6 ∨ s.cp.waiting ≠ [] →
      exec (.unknownCommand c) s = .next { quiet with cp := { quiet.cp with waiting := s.cp.waiting ++ [c] } })
    ∧ (s.cp.fatal = false → s.cp.paused = none → 6 ≤ s.cp.bootStat.toNat → s.cp.waiting = [] → s.cp.bootStat ≠ 0x81 →
      s.cp.pending ≠ [] →
      exec (.unknownCommand c) s = .next { a with cp := { a.cp with pending := s.cp.pending ++ [(n, c)] } })
    ∧ (s.cp.fatal = false → s.cp.paused = none → s.cp.waiting = [] → s.cp.bootStat = 0x81 →
      c.code ≠ 9 → c.code ≠ 11 → Ends (.unknownCommand c) s c id 0x0306)
    ∧ (Ready s → ¬ MayStart s c →
      exec (.unknownCommand c) s = .next { a with cp := { a.cp with pending := [(n, c)] } })
    ∧ (Open s c → (c.code = 0 ∨ 13 ≤ c.code.toNat) → Ends (.unknownCommand c) s c id 0x0301)
    ∧ (Open s c → c.code = 8 → Ends (.bindReserved c) s c id 0x0302)

/-- 25:R361; 07:R139; 27:R377, R386: WRITE and READ. With every address in order a WRITE ends with 0, at once or with the host's
acknowledgement, and a READ's data goes to the host and the command completes when the host has it. A physical WRITE of present
DRAM stores the host's bytes, byte by byte, and changes no other byte of memory; one to host memory stores them there and waits
for the acknowledgement. A READ gives the host memory's bytes. An address that fails ends it with 0x0304. -/
def Sys2Proof.Claims.DataTransfers : Prop :=
  ∀ (s : State) (c : Cmd), Open s c →
    let a := accepted s c
    let m := c.maddr.toNat
    let h := c.haddr.toNat
    let len := c.len.toNat
    let physical : Prop := c.ctx = 0xFFFF ∧ m + len ≤ 2 ^ 47
      ∧ ∀ i, i < len → isHole (m + i) = false ∧ s.offline (m + i) = false
    let named : Prop := c.ctx = 0xFFFF ∨ InContext s c
    (cmdForm c = .write →
      (InHost c len → named → a.cmdPieces c true ≠ none →
        ∃ s' : State,
          (exec (.write c) s = .next (s'.finishSeq s.cp.nextSeq c.ctx 0)
            ∨ ∃ pa, exec (.write c) s = .next (s'.sentTo pa s.cp.nextSeq c 0))
          ∧ (physical → exec (.write c) s = .next (s'.finishSeq s.cp.nextSeq c.ctx 0)
            ∧ (∀ i, i < len → s'.readByte (m + i) = s.readHostByte (h + i))
            ∧ (∀ b, b < m ∨ m + len ≤ b → s'.readByte b = a.readByte b) ∧ s'.hostMem = s.hostMem)
          ∧ (c.ctx = 0xFFFF → 2 ^ 47 ≤ m → m + len ≤ 2 ^ 48 → 0 < len →
            exec (.write c) s = .next (s'.sentTo (m - 2 ^ 47) s.cp.nextSeq c 0)
            ∧ (∀ i, i < len → s'.readHostByte (m - 2 ^ 47 + i) = s.readHostByte (h + i))
            ∧ (∀ b, b < m - 2 ^ 47 ∨ m - 2 ^ 47 + len ≤ b → s'.readHostByte b = s.readHostByte b)
            ∧ s' = { a with hostMem := s'.hostMem }))
      ∧ (InHost c len → named → a.cmdPieces c true = none → Ends (.write c) s c id 0x0304)
      ∧ (2 ^ 47 < h + len → named → Ends (.write c) s c id 0x0304))
    ∧ (cmdForm c = .read →
      (InHost c len → named → a.cmdPieces c false ≠ none →
        ∃ (s' : State) (status : Nat), exec (.read c) s = .next (s'.readSent s.cp.nextSeq c status)
          ∧ (status = 0 ∨ status = 0x0308)
          ∧ (physical → (∀ i, i < len → s'.readHostByte (h + i) = a.readByte (m + i))
            ∧ (∀ b, b < h ∨ h + len ≤ b → s'.readHostByte b = s.readHostByte b) ∧ s'.mem = a.mem))
      ∧ (InHost c len → named → a.cmdPieces c false = none → Ends (.read c) s c id 0x0304)
      ∧ (2 ^ 47 < h + len → named → Ends (.read c) s c id 0x0304))

/-- 25:R361: BANK_WRITE stores rows of the host in the bank of its node's cell, clean of poison; BANK_READ gives rows to the
host, with 0x0308 where one is poisoned. A length that is no number of rows, or past the bank, ends with 0x0302, a node that
is not placed with 0x0303; where the node's configuration is LOADING the access is held until the install completes (05:R88).
That a row ENGINE owns ends it with 0x0304 is log entry 23. -/
def Sys2Proof.Claims.BankTransfers : Prop :=
  ∀ (s : State) (c : Cmd), Open s c → InContext s c → InHost c c.len.toNat →
    let a := accepted s c
    let h := c.haddr.toNat
    let n := c.len.toNat / 128
    let first := c.maddr.toNat % 512
    let place := a.placeOf (BitVec.ofNat 10 c.ctx.toNat) (argOf c 16 16)
    let bytesOf (x : Row) (i : Nat) : Byte := BitVec.ofNat 8 (x.toNat / 2 ^ (8 * i))
    let sound : Prop := c.len.toNat % 128 = 0 ∧ first + n ≤ 512
    let loading : Bool := a.nodeLoading (BitVec.ofNat 10 c.ctx.toNat) (argOf c 16 16)
    let refuse (i : Instr) : Prop :=
      (¬ sound → Ends i s c id 0x0302) ∧ (sound → place = none → loading = false → Ends i s c id 0x0303)
      ∧ (sound → loading = true → exec i s = .next
          (State.acting { a with cp := { a.cp with held := s.cp.held ++ [(s.cp.nextSeq, c)] } } s.cp.nextSeq))
      ∧ (∀ p r, sound → place = some p → loading = false → first ≤ r → r < first + n →
          (a.cell p.cell).rowForbidden r = true → Ends i s c id 0x0304)
    let ready (p : Place) : Prop := sound ∧ place = some p ∧ loading = false
      ∧ ∀ r, first ≤ r → r < first + n → (a.cell p.cell).rowForbidden r = false
    (cmdForm c = .bankWrite → refuse (.bankWrite c) ∧ ∀ p, ready p →
      ∃ c', Ends (.bankWrite c) s c (fun a => a.updCell p.cell fun _ => c') 0
        ∧ (∀ r i, r < n → i < 128 → bytesOf (c'.row (first + r)) i = s.readHostByte (h + 128 * r + i))
        ∧ (∀ r, r < n → c'.rowPoisoned (first + r) = false)
        ∧ (∀ r, r < first ∨ first + n ≤ r → c'.row r = (a.cell p.cell).row r
            ∧ c'.rowPoisoned r = (a.cell p.cell).rowPoisoned r)
        ∧ c' = { a.cell p.cell with bank := c'.bank, written := c'.written, bankPoison := c'.bankPoison })
    ∧ (cmdForm c = .bankRead → refuse (.bankRead c) ∧ ∀ p, ready p →
      ∃ s' : State, exec (.bankRead c) s = .next (s'.readSent s.cp.nextSeq c
          (if (List.range n).any fun r => (a.cell p.cell).rowPoisoned (first + r) then 0x0308 else 0))
        ∧ (∀ r i, r < n → i < 128 → s'.readHostByte (h + 128 * r + i) = bytesOf ((a.cell p.cell).row (first + r)) i)
        ∧ (∀ b, b < h ∨ h + c.len.toNat ≤ b → s'.readHostByte b = s.readHostByte b)
        ∧ s' = { a with hostMem := s'.hostMem })

/-- 25:R361, 27:R385, R391, R392: management space. A read gives the host each word that a register defines and zero
elsewhere; a write reaches the counters, CHRONO_CTL and the limits that may be written, and nothing else; the unfreeze
form clears FROZEN with a 0. A length or address that is no multiple of 8 ends with 0x0302, which is log entry 23. -/
def Sys2Proof.Claims.ManagementSpace : Prop :=
  ∀ (s : State) (c : Cmd), Open s c → InHost c c.len.toNat →
    let a := accepted s c
    let h := c.haddr.toNat
    let m := c.maddr.toNat
    let n := c.len.toNat / 8
    let sound : Prop := c.len.toNat % 8 = 0 ∧ m % 8 = 0
    let word (s : State) (i : Nat) := s.readHost (h + 8 * i) 8
    (cmdForm c = .mgmtRead →
      (¬ sound → Ends (.managementRead c) s c id 0x0302)
      ∧ (sound → ∃ s' : State, exec (.managementRead c) s = .next (s'.readSent s.cp.nextSeq c 0)
        ∧ (∀ i, i < n → word s' i = a.mgmtRead (m + 8 * i) % 2 ^ 64)
        ∧ (∀ b, b < h ∨ h + c.len.toNat ≤ b → s'.readHostByte b = s.readHostByte b)
        ∧ s' = { a with hostMem := s'.hostMem }))
    ∧ (cmdForm c = .mgmtWrite →
      (¬ sound → Ends (.managementWrite c) s c id 0x0302)
      ∧ (sound → c.len = 8 →
        let v := word s 0
        let hall := m / 2 ^ 20
        let writes (f : State → State) : Prop := Ends (.managementWrite c) s c f 0
        (m < 2 ^ 23 → m % 2 ^ 20 = 0x18 → writes fun s => s.updHall hall fun x =>
          { x with aelCorrected := v % 2 ^ 32, aelUncorrectable := v / 2 ^ 32 % 2 ^ 32 })
        ∧ (m < 2 ^ 23 → m % 2 ^ 20 = 0x28 → writes fun s => s.updHall hall fun x =>
          { x with belRetried := v % 2 ^ 32, belFolds := v / 2 ^ 32 % 2 ^ 16, belOffline := v / 2 ^ 48 % 2 ^ 16 })
        ∧ (m < 2 ^ 23 → m % 2 ^ 20 ∉ [0x18, 0x28, 0x38] → writes id)
        ∧ (m = 0x800008 → 1000 ≤ v % 2 ^ 16 → v % 2 ^ 16 ≤ 4800 →
            writes fun s => { s with cp := { s.cp with powerLimit := v % 2 ^ 16 } })
        ∧ (m = 0x800008 → (v % 2 ^ 16 < 1000 ∨ 4800 < v % 2 ^ 16) → writes id)
        ∧ (0x800000 ≤ m → m ≠ 0x800008 → writes id)))
    ∧ (cmdForm c = .unfreeze →
      (word s 0 % 2 = 0 → Ends (.chronoCtlUnfreeze c) s c
        (fun s => s.updHall (m / 2 ^ 20) fun x => { x with frozen := false }) 0)
      ∧ (word s 0 % 2 = 1 → Ends (.chronoCtlUnfreeze c) s c id 0))

/-- 25:R364, R367, R368; 21:R317, R328: BIND of a context. Root, fault ring, window, hold threshold, handler entry, admission
and capture stream are installed, each after its checks, which end with 0x0302 or, for a node that is not placed and a port
that another target holds, 0x0303; the handler entry of a node whose configuration is LOADING waits for the install (05:R88).
That 0x0303 is the status of these two, and that a root may lie at address 0, is log entry 23. -/
def Obligations.BindCommands : Prop :=
  ∀ (s : State) (c : Cmd), Open s c → InContext s c →
    let x : BitVec 10 := BitVec.ofNat 10 c.ctx.toNat
    let a := accepted s c
    let m := c.maddr.toNat
    let ctxIs (i : Instr) (f : Ctx → Ctx) : Prop := Ends i s c (fun s => s.updCtx x f) 0
    let range (i : Instr) : Prop := Ends i s c id 0x0302
    (cmdForm c = .bind 1 →
      (m % 4096 = 0 → m < 2 ^ 48 →
        (argOf c 8 1 = 0 ∨ (s.ctx x).root = none → ctxIs (.bindRoot c) fun y => { y with root := some m })
        ∧ (∀ r, argOf c 8 1 = 1 → (s.ctx x).root = some r →
          Ends (.bindRoot c) s c (fun s => (s.invalidateRoot r).updCtx x fun y => { y with root := some m }) 0
          ∧ (∀ h, ∀ l ∈ ((a.invalidateRoot r).hall h).wcache, l.root ≠ r)
          ∧ ∀ k, ∀ l ∈ ((a.invalidateRoot r).cell k).tlb, l.root ≠ r))
      ∧ (m % 4096 ≠ 0 ∨ 2 ^ 48 ≤ m → range (.bindRoot c)))
    ∧ (cmdForm c = .bind 2 →
      (m = 0 → ctxIs (.bindFaultRing c) fun y => { y with ring := none, ringCount := 0 })
      ∧ (m ≠ 0 → m % 32 = 0 → 6 ≤ argOf c 8 6 → argOf c 8 6 ≤ 20 →
        ctxIs (.bindFaultRing c) fun y => { y with ring := some (c.maddr, argOf c 8 6), ringCount := 0 })
      ∧ (m ≠ 0 → m % 32 ≠ 0 ∨ argOf c 8 6 < 6 ∨ 20 < argOf c 8 6 → range (.bindFaultRing c)))
    ∧ (cmdForm c = .bind 3 → ctxIs (.bindMeridianWindow c) fun y => { y with window := argOf c 8 4 + 1 })
    ∧ (cmdForm c = .bind 4 →
      (1250 ≤ argOf c 8 56 → ctxIs (.bindHoldThreshold c) fun y => { y with hold := argOf c 8 56 })
      ∧ (argOf c 8 56 < 1250 → range (.bindHoldThreshold c)))
    ∧ (cmdForm c = .bind 5 →
      (argOf c 8 8 = 0 ∨ 2 ^ 43 ≤ m → range (.bindHandlerEntry c))
      ∧ (argOf c 8 8 ≠ 0 → m < 2 ^ 43 →
        (a.nodeLoading x (argOf c 16 16) = true → exec (.bindHandlerEntry c) s = .next
          (State.acting { a with cp := { a.cp with held := s.cp.held ++ [(s.cp.nextSeq, c)] } } s.cp.nextSeq))
        ∧ (a.nodeLoading x (argOf c 16 16) = false → a.placeOf x (argOf c 16 16) = none →
          Ends (.bindHandlerEntry c) s c id 0x0303)
        ∧ ∀ p, a.nodeLoading x (argOf c 16 16) = false → a.placeOf x (argOf c 16 16) = some p →
          Ends (.bindHandlerEntry c) s c (fun s => s.updVersion p.cell p.ver fun v =>
            { v with handlers := tput v.handlers (argOf c 8 8) { word := BitVec.ofNat 43 m } }) 0))
    ∧ (cmdForm c = .bind 6 →
      let pair := (argOf c 8 8, argOf c 16 10)
      ∃ f : Ctx → Ctx, ctxIs (.bindPeerAdmission c) f
        ∧ (∀ q, q ≠ pair → (q ∈ (f (s.ctx x)).admissions ↔ q ∈ (s.ctx x).admissions))
        ∧ (pair ∈ (f (s.ctx x)).admissions ↔ argOf c 26 1 = 0))
    ∧ (cmdForm c = .bind 7 →
      let port := argOf c 8 5
      let target := (x, argOf c 16 16, argOf c 32 2)
      let p := a.port port
      let ordered : Prop := ∃ n, a.specOf x (argOf c 16 16) = some n ∧ n.inputs[argOf c 32 2]? = some (some true)
      (¬ ordered → range (.bindCaptureStream c))
      ∧ (ordered → argOf c 34 1 = 1 → p.ptp = false → p.capture = none ∨ p.capture = some target →
        Ends (.bindCaptureStream c) s c (fun s => s.updPort port fun p => { p with capture := some target, enabled := true }) 0)
      ∧ (ordered → argOf c 34 1 = 1 → p.ptp = true ∨ (p.capture ≠ none ∧ p.capture ≠ some target ∧ p.enabled = true) →
        Ends (.bindCaptureStream c) s c id 0x0303)
      ∧ (ordered → argOf c 34 1 = 0 → p.capture = some target →
        Ends (.bindCaptureStream c) s c (fun s => s.updPort port fun p => { p with enabled := false }) 0)
      ∧ (ordered → argOf c 34 1 = 0 → p.capture ≠ some target → Ends (.bindCaptureStream c) s c id 0))

/-- 25:R361, R362; 23:R334, R340, R348: LOADCFG stores an object that passes its checks under its number, and ends with what
`loadStatus` finds; LAUNCH of an object draws a free id and begins its context, every configuration UNPLACED, and waits
while there is none; STOP begins the stop of its context and ends with it; EXIT ends every configuration; QUERY sends the
status block to the host and is complete when the host has it. That a STOP, an EXIT or a QUERY without a live context, and a
STOP of a context already stopped, end with 0x0303 is log entry 23. -/
def Sys2Proof.Claims.ObjectAndContextCommands : Prop :=
  ∀ (s : State) (c : Cmd), Open s c →
    let a := accepted s c
    let seq := s.cp.nextSeq
    let x : BitVec 10 := BitVec.ofNat 10 c.ctx.toNat
    let m := c.maddr.toNat
    let root := c.haddr.toNat % 2 ^ 48
    (cmdForm c = .loadcfg → (c.ctx = 0xFFFF ∨ c.ctx.toNat < 1024) → InHost c c.len.toNat →
      let l := (List.range c.len.toNat).map fun i => s.readHostByte (c.haddr.toNat + i)
      (loadStatus l = 0 →
        Ends (.loadcfg c) s c (fun s => { s with cp := { s.cp with objs := tput s.cp.objs seq (objectOf l) } }) 0)
      ∧ (loadStatus l ≠ 0 → Ends (.loadcfg c) s c id (loadStatus l)))
    ∧ (cmdForm c = .launch →
      (c.ctx ≠ 0xFFFF ∨ c.haddr.toNat % 4096 ≠ 0 ∨ 2 ^ 48 ≤ c.haddr.toNat → Ends (.launch c) s c id 0x0302)
      ∧ (c.ctx = 0xFFFF → c.haddr.toNat % 4096 = 0 → c.haddr.toNat < 2 ^ 48 →
        (tget s.cp.objs m = none → Ends (.launch c) s c id 0x030B)
        ∧ (∀ o, tget s.cp.objs m = some o → (∀ k, k < 1024 → s.idFree k = false) →
          exec (.launch c) s = .next { a with cp := { a.cp with pending := [(seq, c)] } })
        ∧ (∀ o gid k, tget s.cp.objs m = some o → o.entry = some gid → k < 1024 → s.idFree k = true →
          ∃ (s' : State) (id : Nat), exec (.launch c) s = .next s' ∧ id < 1024 ∧ s.idFree id = true
            ∧ s'.ctx (BitVec.ofNat 10 id) = { live := true, root := if root = 0 then none else some root
                                              strict := o.strict, obj := m, launch := seq }
            ∧ (∀ i d, o.cfgs[i]? = some d → i < 65536 →
                ∃ r, s'.cfg (BitVec.ofNat 10 id) i = some r ∧ r.spec = d ∧ r.state = .unplaced ∧ r.places = [])
            ∧ (∀ j : BitVec 10, j.toNat ≠ id → s'.ctx j = s.ctx j))))
    ∧ (cmdForm c = .stop → NoContext (.stopCommand c) s c ∧ (InContext s c → s.stopped x = false →
        exec (.stopCommand c) s = .next (((((a.beginStop x).updCtx x fun y =>
          { y with stopSeqs := y.stopSeqs ++ [seq] }).acting seq)).settleStop x)))
    ∧ (cmdForm c = .stop → InContext s c → s.stopped x = true → Ends (.stopCommand c) s c id 0x0303)
    ∧ (cmdForm c = .exit → NoContext (.exit c) s c ∧ (InContext s c →
        exec (.exit c) s = .next (((a.endContext x).updCtx x fun y =>
          { y with exitSeqs := y.exitSeqs ++ [seq] }).acting seq)))
    ∧ (cmdForm c = .query → NoContext (.query c) s c ∧ (InContext s c → InHost c 64 →
        ∃ s' : State, exec (.query c) s = .next (s'.readSent seq c 0) ∧ s' = { a with hostMem := s'.hostMem }
          ∧ (∀ i, i < 8 → s'.readHost (c.haddr.toNat + 8 * i) 8 = (a.queryWords x).getD i 0 % 2 ^ 64)
          ∧ ∀ b, b < c.haddr.toNat ∨ c.haddr.toNat + 64 ≤ b → s'.readHostByte b = s.readHostByte b))

/-- 23:R348, 19:R304: RESUME of a context lets what a stop has saved be chosen again, at once or with the end of the stop
under way, and ends with 0x0302 for an argument and 0x0303 where no stop has saved anything; RESUME of a held object names
it as the instruction does, and is complete when the object is released: the token that names it carries the command's number,
and a version that is LOADING puts it off. The two uses of 0x0303 are log entry 23. -/
def Sys2Proof.Claims.ResumeCommands : Prop :=
  ∀ (s : State) (c : Cmd), Open s c →
    let a := accepted s c
    let seq := s.cp.nextSeq
    let x : BitVec 10 := BitVec.ofNat 10 c.ctx.toNat
    let saved (d : CfgRt) : Bool :=
      decide (d.state = .saved) || d.draining || decide (d.state = .saving) || d.stopPending
    let chosen : State := each (s.ctxCfgs x) a fun t y =>
      if y.2.state = .unplaced ∨ y.2.state = .exited then t
      else if saved y.2 then (t.updCfg x y.1 fun d => { d with resumed := true }).noteCandidate x y.1 else t
    let cell := argOf c 0 18
    let node := argOf c 18 5
    let obj := argOf c 23 3
    let ver := (s.cell cell).liveVersion (if obj = 5 then 0 else node)
    let owned : Prop := ∃ o, (s.version cell ver).owner = some o ∧ o.1 = x
    let tok : Token :=
      { kind := 3, dst := BitVec.ofNat 18 cell, ver := ver, ctx := x, aux := 2, payload := BitVec.ofNat 64 (argOf c 0 26)
        cmd := some seq }
    (cmdForm c = .resumeCtx → NoContext (.resumeContext c) s c ∧ (InContext s c →
      (c.arg ≠ 0 → Ends (.resumeContext c) s c id 0x0302)
      ∧ (c.arg = 0 → s.resumable x = false → Ends (.resumeContext c) s c id 0x0303)
      ∧ (c.arg = 0 → s.resumable x = true →
        ((s.ctx x).stopping = false → Ends (.resumeContext c) s c (fun _ => chosen) 0)
        ∧ ((s.ctx x).stopping = true → exec (.resumeContext c) s = .next
            ((chosen.updCtx x fun y => { y with stopSeqs := y.stopSeqs ++ [seq] }).acting seq)))))
    ∧ (cmdForm c = .resumeObj → NoContext (.resumeHeldObject c) s c ∧ (InContext s c →
      (6 ≤ obj ∨ (obj = 5 ∧ 16 ≤ node) → Ends (.resumeHeldObject c) s c id 0x0302)
      ∧ (obj < 5 ∨ (obj = 5 ∧ node < 16) → ¬ owned → (obj = 5 → s.holdsContext cell x = false) →
        Ends (.resumeHeldObject c) s c id 0)
      ∧ (obj < 5 ∨ (obj = 5 ∧ node < 16) → owned → (s.version cell ver).state = .loading → obj < 5 →
        exec (.resumeHeldObject c) s =
          .next { a.acting seq with net := s.net ++ [⟨cell, cell, .token tok none⟩] })
      ∧ (obj < 5 ∨ (obj = 5 ∧ node < 16) → owned → (s.version cell ver).state ≠ .loading ∨ obj = 5 →
        exec (.resumeHeldObject c) s = .next ((a.acting seq).resumeObject cell node obj tok))))

/-- 25:R371; 27:R387, R388: FWSTAGE puts an image into a slot, valid where its signature verifies and its version is not
below the fused minimum, and ends with 0x0305 otherwise; FWACTIVATE of a valid slot pauses acceptance and begins; ATTEST
takes the next index, signs its evidence and sends it to the host, and is complete when the host has it; it ends with 0x0309 when the indices are used up. What a signature
is the specification leaves to the algorithm: it is open (log entry 9). -/
def Sys2Proof.Claims.FirmwareCommands : Prop :=
  ∀ (s : State) (c : Cmd), Open s c →
    let a := accepted s c
    let seq := s.cp.nextSeq
    let k := c.arg.getLsbD 0
    let image := (List.range c.len.toNat).map fun i => s.readHostByte (c.haddr.toNat + i)
    let version := Config.secVersion image % 2 ^ 32
    let valid : Bool := Config.lmsVerifies image && decide (s.cp.fuseMin ≤ version)
    let slot (x : Cp) (k : Bool) : FwSlot := if k then x.fw1 else x.fw0
    (cmdForm c = .fwstage →
      (k = s.cp.running → Ends (.fwstage c) s c id 0x0302)
      ∧ (k ≠ s.cp.running → InHost c c.len.toNat →
        ∃ f, Ends (.fwstage c) s c f (if valid then 0 else 0x0305)
          ∧ slot (f a).cp k = { image := image, secver := version, verified := valid }
          ∧ slot (f a).cp (!k) = slot s.cp (!k) ∧ f a = { a with cp := (f a).cp }))
    ∧ (cmdForm c = .fwactivate → s.cp.activation = none →
      ((slot s.cp (!s.cp.running)).verified = false → Ends (.fwactivate c) s c id 0x0306)
      ∧ ((slot s.cp (!s.cp.running)).verified = true →
        exec (.fwactivate c) s = .next (State.acting
          { a with
            cp := { a.cp with paused := some s.now, activation := some seq }
            halls := a.halls.map fun x => (x.1, { x.2 with switching := false, switched := false }) } seq)))
    ∧ (cmdForm c = .attest →
      (c.len.toNat < 1884 → Ends (.attest c) s c id 0x0302)
      ∧ (1884 ≤ c.len.toNat → InHost c 1884 → 2 ^ 20 ≤ s.cp.attestIndex → Ends (.attest c) s c id 0x0309)
      ∧ (1884 ≤ c.len.toNat → InHost c 1884 → s.cp.attestIndex < 2 ^ 20 →
        ∃ s' : State, exec (.attest c) s = .next (s'.readSent seq c 0)
          ∧ s'.cp = { a.cp with attestIndex := s.cp.attestIndex + 1 }
          ∧ (∀ i, i < 32 → s'.readHostByte (c.haddr.toNat + i) = s.readHostByte (c.haddr.toNat + i))
          ∧ (∀ b, b < c.haddr.toNat ∨ c.haddr.toNat + 1884 ≤ b → s'.readHostByte b = s.readHostByte b)
          ∧ s' = { a with cp := s'.cp, hostMem := s'.hostMem }))

end

namespace Sys2Proof.Claims

open Sys2Proof.Machine

/-! ## Tokens that arrive -/

/-- The packet stands in the net at the place that the turn names, and none before it goes the same way (05:R63). -/
def InNet (s : State) (p : Packet) : Prop :=
  s.net[s.choice.n]? = some p ∧ ((s.net.take s.choice.n).any fun q => q.sameWay p) = false

/-- The packet that the turn names has left the net. -/
def taken (s : State) : State := { s with net := ldel s.net s.choice.n }

/-- A token's entry of the chronograph: its bits 127 to 32 (27:R384). -/
def tokenEntry (s : State) (cell type : Nat) (t : Token) : State :=
  s.chronoAt cell type (t.bits / 2 ^ 32 % 2 ^ 96) t.ver 0 t.iter.toNat t.ctx.toNat

/-- A token counts as late at a cell, and faults in a strict context (05:R87). -/
def discardedLate (s : State) (cell : Nat) (ver : Bool) (tag node : Nat) (t : Token) : State :=
  let s := s.updCell cell fun c => { c with lateCnt := min (c.lateCnt + 1) (2 ^ 32 - 1) }
  if (s.ctx t.ctx).strict then s.nodeFault ⟨cell, ver, node, t.ctx, t.iter, none⟩ 0x13 tag t.iter.toNat else s

/-- A credit goes back to the port that spent it (05:R63). -/
def credited (s : State) (here : Nat) (p : PortRef) : State := { s with net := s.net ++ [⟨here, p.cell, .credit p⟩] }

/-- Tokens that travel through their channel: DATA, PLANE, SCALE with a block tag, CTRL of PHASE, STOP and EOS
(05:R62, 09:R154). A command sends none of them (25:R361). -/
def Channels (t : Token) : Prop :=
  t.cmd = none
  ∧ (t.kind.toNat ≤ 1 ∨ (t.kind.toNat = 2 ∧ t.aux.toNat < 32) ∨ (t.kind.toNat = 3 ∧ t.aux.toNat ∈ [0, 1, 3]))

/-- The token's edge has ended, its own or the whole binding (05:R93, 17:R249). -/
def Late (b : Binding) (t : Token) : Prop := b.ended = true ∨ ∃ e, t.edge = some e ∧ e ∈ b.endedEdges

/-- A kind, or fields of a kind, without a meaning (09:R154). -/
def Meaningless (t : Token) : Prop :=
  let a := t.aux.toNat
  t.kind.toNat = 4 ∨ t.kind.toNat = 7 ∨ (t.kind.toNat = 2 ∧ 32 ≤ a)
  ∨ (t.kind.toNat = 3 ∧ (32 ≤ a ∨ 6 ≤ a % 16 ∨ (a % 16 ≠ 4 ∧ 16 ≤ a)))
  ∨ (t.kind.toNat = 5 ∧ (a ≠ 0 ∨ 2 ^ 48 ≤ t.payload.toNat))

/-- A version that is installed. -/
def Runs (v : Version) : Prop := v.state = .ready ∨ v.state = .live

/-- No PACK packet is in expansion at a binding, or it is a token's turn there (21:R320). -/
def TokensTurn (s : State) (cell : Nat) (ver : Bool) (r : Nat) : Prop :=
  ∀ b k, s.binding cell ver r = some b → b.pack = some k → k.aux.toNat / 64 = 2 ∧ k.payload.getLsbD b.packPos = true

/-- A head stays in its FIFO: CTRL tokens do, and those of ports that are not TAGGED, and those that complete a firing
(05:R63, R77). -/
def HeadStays (c : Cell) (ver : Bool) (n : Node) (b : Binding) (x : Token) : Prop :=
  x.kind.toNat = 3 ∨ n.inputs[b.port]? ≠ some (some false) ∨ c.completes ver b.node b.port n x = true

/-- Tokens of a PACK packet, and its first position (21:R319, R320). -/
def packTokens (t : Token) : Nat := if t.aux.toNat / 64 = 2 then 32 else t.payload.toNat % 2 ^ 16 + 1
def packStart (t : Token) : Nat := t.payload.toNat / 2 ^ (if t.aux.toNat / 64 = 2 then 32 else 16) % 512

/-- A position that takes the edge's next token. -/
def leftOut (t : Token) (i : Nat) : Bool := decide (t.aux.toNat / 64 = 2) && t.payload.getLsbD i

/-- A PACK packet that a binding can expand (21:R319). -/
def GoodPack (t : Token) (b : Binding) : Prop :=
  t.aux.toNat / 64 ≤ 2 ∧ t.aux.toNat % 32 = 0 ∧ t.payload.toNat < 2 ^ 41
  ∧ (t.aux.toNat / 64 = 2 ∨ t.payload.toNat / 2 ^ 25 % 2 ^ 16 = 0)
  ∧ (t.aux.toNat / 64 = 1 → b.last ≠ none) ∧ (t.aux.getLsbD 5 = true → packStart t + packTokens t ≤ 512)

end Sys2Proof.Claims

section

open Sys2Proof Sys2Proof.Machine Sys2Proof.Claims

/-! ## Events of the dataflow -/

/-- 05:R62, R63, R77, R78, R81, R87: a token of an internal edge reaches its cell. It is held while its version is LOADING;
forwarded to the vestibule of the configuration that left an EMPTY one; dropped with an UNBOUND entry where no binding has
its tag; discarded as late in an ended context or on an ended edge, its credit returned; else it enters its FIFO, and from
there the matching store or the overflow area where its port is TAGGED and it completes no firing. -/
def Sys2Proof.Claims.InternalArrivals : Prop :=
  ∀ (s : State) (t : Token) (src dst : Nat) (sender : Option PortRef), InNet s ⟨src, dst, .token t sender⟩ → Channels t →
    TokensTurn s dst t.ver t.rtag.toNat →
    let r := t.rtag.toNat
    let v := s.version dst t.ver
    let h := taken s
    let n := h.noteToken dst t.ver
    let moved (s : State) : State :=
      match v.bindings[r]? with | some _ => s.updBinding dst t.ver r Binding.packNext | none => s
    let ends (s' : State) : Prop := exec .tokenArrival s = .next (moved s')
    (v.state = .loading → ends (h.updVersion dst t.ver fun v => { v with held := v.held ++ [⟨src, dst, .token t sender⟩] }))
    ∧ (v.state = .empty → (s.ctx t.ctx).live = false →
      (∀ o b, v.owner = some o → v.bindings[r]? = some b → ends (discardedLate h dst t.ver r b.node t))
      ∧ ((v.owner = none ∨ v.bindings[r]? = none) → ends (discardedLate h dst t.ver r 0 t)))
    ∧ (v.state = .empty → (s.ctx t.ctx).live = true → ∀ o b, v.owner = some o → v.bindings[r]? = some b →
      ends ((h.updBinding dst t.ver r fun b => { b with last := some t.payload }).forwardVest o.1 o.2 (match v.nodes[b.node]? with | some x => x.gid | none => b.node) b.port t))
    ∧ (v.state = .empty → (s.ctx t.ctx).live = true → (v.owner = none ∨ v.bindings[r]? = none) → ends (tokenEntry h dst 3 t))
    ∧ (Runs v → v.bindings[r]? = none → ends (tokenEntry h dst 3 t))
    ∧ (Runs v → ∀ b, v.bindings[r]? = some b →
      (∀ q, b.source = some q → ((s.ctx t.ctx).live = false ∨ Late b t) →
        ends (credited (discardedLate h dst t.ver r b.node t) dst q))
      ∧ ((s.ctx t.ctx).live = true → ¬ Late b t → b.fullSince = none → ∀ x, v.nodes[b.node]? = some x →
        (∀ e, (b.fifo ++ [t]).head? = some e →
          (s.ctx e.ctx).live = true ∧ ¬ Late b e ∧ (b.blocked = true ∨ b.heldSince ≠ none ∨ HeadStays (s.cell dst) t.ver x b e)) →
        ends ((n.updBinding dst t.ver r fun b => { b with fifo := b.fifo ++ [t], last := some t.payload }).updCell dst fun c =>
          { c with arrivals := c.arrivals ++ [(t.ver, r)] }))
      ∧ ((s.ctx t.ctx).live = true → ¬ Late b t → b.blocked = false → b.heldSince = none → b.fifo = [] →
        t.free = false → ∀ x q, v.nodes[b.node]? = some x → b.source = some q → ¬ HeadStays (s.cell dst) t.ver x b t →
        let c := s.cell dst
        let stored := (c.store.filter fun e => !e.spilled).length
        let spilled := (c.store.filter fun e => e.spilled).length
        let out (s' : State) (store : List MatchEntry) : Prop :=
          ends s' ∧ (s'.cell dst).store = store ∧ s'.net = (credited h dst q).net
          ∧ s'.binding dst t.ver r = some { b with last := some t.payload, fullSince := none, fullRaised := false }
        (stored < 256 → ∃ s', out s' (c.store ++ [⟨t.ver, b.node, b.port, t, false⟩]))
        ∧ (256 ≤ stored → c.overflowOn = true → spilled < 256 →
          ∃ s', out s' (c.store ++ [⟨t.ver, b.node, b.port, t, true⟩]))
        ∧ (256 ≤ stored → (c.overflowOn = false ∨ 256 ≤ spilled) →
          ∃ s', ends s' ∧ s'.binding dst t.ver r = some
            { b with fifo := [t], last := some t.payload, fullSince := some (b.fullSince.getD s.now) })))
    ∧ (v.state = .ready → ∀ o, v.owner = some o → (n.version dst t.ver).state = .live)

/-- 05:R64, R82, R83, R85, R87, R96, R98, R396: a token of an external edge takes its node's live version, which a sweep may have
made the other one, or the version that is not live where its partner waits. There it enters the external binding of its
port, or waits for a node without input ports to fire; where no version holds its configuration, or the configuration has left
the cell, it goes to the configuration's vestibule; an ended context's is late, and so is one of an edge that has ended. One for
a version that another configuration holds spends that one's credit, and waits for it (log entry 16). What the live version of
a node is while no sweep has related the cell's two versions is the model's choice (log entry 27). -/
def Sys2Proof.Claims.ExternalArrivals : Prop :=
  ∀ (s : State) (t : Token) (src dst gid port cfg : Nat), InNet s ⟨src, dst, .extToken t gid port cfg⟩ → Channels t →
    let h := taken s
    let c := s.cell dst
    let live := (s.ctx t.ctx).live
    let goes := c.extDest t cfg gid port
    let bound (ver : Bool) (node : Nat) : Option (Nat × Binding) :=
      ((c.version ver).bindingsOf node port).find? (·.2.external)
    let own : Prop := ∀ x, goes = some x → (c.version x.1).owner = some (t.ctx, cfg)
    let turn : Prop := ∀ x y, goes = some x → bound x.1 x.2 = some y → TokensTurn s dst x.1 y.1
    let moved (s' : State) : State :=
      match goes.bind fun x => (bound x.1 x.2).map fun y => (x.1, y.1) with
      | some z => s'.updBinding dst z.1 z.2 Binding.packNext
      | none => s'
    let ends (s' : State) : Prop := exec .tokenArrival s = .next (moved s')
    let left : Prop := ∃ v ∈ [c.v0, c.v1], v.epochOpen = true ∧ v.owner = some (t.ctx, cfg)
    (c.versionOf t.ctx cfg gid = none ∨ left → goes = none)
    ∧ (∀ was node, c.versionOf t.ctx cfg gid = some (was, node) → ¬ left →
      let now := if (c.version was).swept then !was else was
      ((c.version (!now)).swept = false ∨ c.partnerIn (!now) node port t = false → goes = some (now, node))
      ∧ ((c.version (!now)).swept = true → c.partnerIn (!now) node port t = true → goes = some (!now, node)))
    ∧ (own → turn → live = false →
      let z := c.lateNode t.ctx cfg gid
      ends (discardedLate h dst z.1 ((bound z.1 z.2).elim 0 fun y => y.1) z.2 t))
    ∧ (live = true → goes = none → ends (h.forwardVest t.ctx cfg gid port t))
    ∧ (own → turn → live = true → ∀ ver node n, goes = some (ver, node) → (c.version ver).nodes[node]? = some n →
      let u : Token := { t with ver := ver }
      let waits : Prop := n.firingPorts = [] ∧ n.role ≠ .storer ∧ t.kind.toNat ≠ 3
      ((c.version ver).state = .loading →
        ends (h.updVersion dst ver fun v => { v with held := v.held ++ [⟨src, dst, .extToken t gid port cfg⟩] }))
      ∧ (Runs (c.version ver) → waits → ends ((h.noteToken dst ver).updNode dst ver node fun n =>
          { n with deliveries := n.deliveries ++ [(port, u)] }))
      ∧ (Runs (c.version ver) → ¬ waits → ∀ r b, bound ver node = some (r, b) →
        (Late b t → ends ((discardedLate h dst ver r node u).returnCredit dst (c.version ver) b))
        ∧ (¬ Late b t → ends (h.enterFifo dst ver r { u with rtag := BitVec.ofNat 8 r })))
      ∧ (Runs (c.version ver) → ¬ waits → bound ver node = none →
        ends ((tokenEntry h dst 3 u).agentCredit dst t.ctx cfg n.gid port)))
    ∧ (∀ ver node n o d, goes = some (ver, node) → (c.version ver).nodes[node]? = some n →
      (c.version ver).owner = some o → o.2 ≠ cfg → s.cfg o.1 o.2 = some d → tgetD d.credits 16 (n.gid * 4 + port) = 0 →
      turn → exec .tokenArrival s = .next s)

/-- 05:R62, R63, R91, 09:R154, 19:R292: a token without a meaning is dropped with a KIND entry and its credit returns, to
its sender or to the agent; a credit raises its port's count, at most to 16, or sends the oldest token of the port's ring; a PADDR token enters the
port of a STORER of its context and is dropped elsewhere. -/
def Sys2Proof.Claims.DropsCreditsAddresses : Prop :=
  ∀ (s : State) (t : Token) (src dst : Nat) (q : PortRef),
    let h := taken s
    let r := t.rtag.toNat
    let v := s.version dst t.ver
    (InNet s ⟨src, dst, .token t (some q)⟩ → Meaningless t →
      exec .kindDrop s = .next (credited (tokenEntry h dst 4 t) dst q))
    ∧ (InNet s ⟨src, dst, .token t none⟩ → Meaningless t → exec .kindDrop s = .next (tokenEntry h dst 4 t))
    ∧ (∀ gid port cfg, InNet s ⟨src, dst, .extToken t gid port cfg⟩ → Meaningless t →
      exec .kindDrop s = .next ((tokenEntry h dst 4 t).agentCredit dst t.ctx cfg gid port))
    ∧ (s.net[s.choice.n]? = some ⟨src, dst, .credit q⟩ →
      ∀ n e, s.node q.cell q.ver q.node = some n → n.outputs[q.port]? = some (some e) →
      let edge (f : Edge → Edge) : State :=
        h.updNode q.cell q.ver q.node fun n => { n with outputs := lset n.outputs q.port (·.map f) }
      (e.ringTokens = [] →
        exec .creditReturn s = .next (edge fun e => { e with credits := min 16 (e.credits + 1) }))
      ∧ (∀ x rest d tag, e.ringTokens = x :: rest → e.dest = .internal d tag →
        exec .creditReturn s = .next { edge fun e => { e with ringTokens := rest } with
          net := h.net ++ [⟨q.cell, d, .token x (some q)⟩] }))
    ∧ (InNet s ⟨src, dst, .token t (some q)⟩ → t.kind.toNat = 5 → t.aux = 0 → t.payload.toNat < 2 ^ 48 →
      TokensTurn s dst t.ver r → Runs v → ∀ b o n, v.bindings[r]? = some b → v.owner = some o → v.nodes[b.node]? = some n →
      (o.1 = t.ctx → n.role = .storer → (s.ctx t.ctx).live = true → ¬ Late b t → t.cmd = none →
        exec .paddrToken s = .next ((h.enterFifo dst t.ver r t).updBinding dst t.ver r Binding.packNext))
      ∧ ((o.1 ≠ t.ctx ∨ n.role ≠ .storer) →
        exec .paddrToken s = .next (credited (tokenEntry h dst 4 t) dst q)))

/-- 21:R319, R320: a PACK packet begins its expansion at the binding it names, of an internal edge or an external one; one
with a reserved bit, a repeat of nothing, or a plane past 31 is dropped with a KIND entry, and the credits of its tokens
return. The expansion gives one token at a time: zeros or repeats, of one aux for DATA and of rising aux for PLANE. A
sending port's turn replaces a run of zero tokens of an internal edge by the ZRUN packet that expands to them. -/
def Sys2Proof.Claims.PackExpansions : Prop :=
  ∀ (s : State) (t : Token),
    (∀ src dst gid port cfg ver node r b, InNet s ⟨src, dst, .extToken t gid port cfg⟩ → t.kind.toNat = 6 →
      let c := s.cell dst
      c.extDest t cfg gid port = some (ver, node) →
      ((c.version ver).bindingsOf node port).find? (·.2.external) = some (r, b) → Runs (c.version ver) → b.pack = none →
      GoodPack t b → (s.ctx t.ctx).live = true → ¬ Late b t →
      exec .packExpansion s = .next ((taken s).updBinding dst ver r fun b => { b with pack := some t, packPos := 0 }))
    ∧ (∀ src dst q b, InNet s ⟨src, dst, .token t (some q)⟩ → t.kind.toNat = 6 →
      let v := s.version dst t.ver
      Runs v → v.bindings[t.rtag.toNat]? = some b → b.pack = none →
      (GoodPack t b → (s.ctx t.ctx).live = true → ¬ Late b t → exec .packExpansion s = .next ((taken s).updBinding dst t.ver t.rtag.toNat fun b =>
        { b with pack := some t, packPos := 0 }))
      ∧ (¬ GoodPack t b →
        let e := tokenEntry (taken s) dst 4 t
        let k := ((List.range (packTokens t)).filter fun i => !leftOut t i).length
        exec .packExpansion s = .next { e with net := e.net ++ List.replicate k ⟨dst, q.cell, .credit q⟩ }))
    ∧ (∀ b, s.net[s.choice.n]? = none → s.binding s.choice.cell.toNat s.choice.ver s.choice.rtag.toNat = some b →
      b.pack = some t → leftOut t b.packPos = false →
      let x := s.choice
      (s.version x.cell.toNat x.ver).state ≠ .empty → b.fifo.length < 16 →
      let plane := t.aux.getLsbD 5
      exec .packExpansion s = .next ((s.updBinding x.cell.toNat x.ver x.rtag.toNat fun b =>
          if packTokens t ≤ b.packPos + 1 then { b with pack := none, packPos := 0 } else { b with packPos := b.packPos + 1 }).enterFifo
        x.cell.toNat x.ver x.rtag.toNat
        { t with
          kind := if plane then 1 else 0
          aux := BitVec.ofNat 9 (packStart t + if plane then b.packPos else 0)
          payload := if t.aux.toNat / 64 = 1 then b.last.getD 0 else 0
          ver := x.ver, rtag := BitVec.ofNat 8 x.rtag.toNat }))
    ∧ (∀ src dst q pre post turns, t.kind.toNat = 6 → t.aux.toNat / 64 = 0 → GoodPack t { node := 0, port := 0 } →
      s.turns = .pack pre.length (packTokens t) 0 :: turns →
      s.net = pre ++ (List.range (packTokens t)).map (fun i => ⟨src, dst, .token
        { t with
          kind := if t.aux.getLsbD 5 then 1 else 0
          aux := BitVec.ofNat 9 (packStart t + if t.aux.getLsbD 5 then i else 0)
          payload := 0 } (some q)⟩) ++ post →
      step s = .next { s with turns := turns, net := pre ++ ⟨src, dst, .token t (some q)⟩ :: post })

end

namespace Sys2Proof.Claims

open Sys2Proof.Machine

/-! ## Firings -/

/-- The predicate of a firing: NULL where a token is null, else that of the first token that has one (05:R65). -/
def predOf (l : List Token) : TPred :=
  if l.any fun t => decide (t.pred = .null) then .null
  else match l.find? (fun t => decide (t.pred ≠ .none)) with | some t => t.pred | none => .none

/-- A firing of this predicate runs its handler (05:R65). -/
def RunsOn (m : PMatch) (p : TPred) : Prop :=
  match m with
  | .any => p ≠ .null
  | .tru => p = .true
  | .fls => p = .false
  | .null => p = .null

/-- The node that the turn names can fire with these tokens: one for each port of its rule, in order, each a FIFO head of
an ORDERED port or the oldest of the turn's tag and keys of a TAGGED one; its version is installed, it has not
stopped, every output port has space, and one with an ORDERED port has no task (05:R64, R68). -/
def CanFire (s : State) (n : Node) (l : List (Nat × Bool × Source × Token)) : Prop :=
  let x := s.choice
  let c := s.cell x.cell.toNat
  (c.version x.ver).nodes[x.node]? = some n ∧ Runs (c.version x.ver)
  ∧ n.stopAgent = false ∧ n.halted = false ∧ c.issueStopped = false ∧ s.cp.fatal = false
  ∧ s.outputSpace ⟨x.cell.toNat, x.ver, x.node, 0⟩ x.ctx = true
  ∧ l ≠ [] ∧ n.firingPorts = l.map (fun y => (y.1, y.2.1))
  ∧ (∀ y ∈ l, (if y.2.1 then c.orderedSource x.ver x.node y.1
      else c.taggedSource x.ver x.node y.1 fun t => t.fits x.ctx x.iter x.plane x.scale) = some (y.2.2.1, y.2.2.2))
  ∧ ((∀ y ∈ l, y.2.1 = true) → ∀ y ∈ l.head?, y.2.2.2.ctx = x.ctx ∧ y.2.2.2.iter = x.iter)
  ∧ ((∃ y ∈ l, y.2.1 = true) → c.nodeBusy x.ver x.node = false)

/-- A CTRL token of a subtype stands at the head of the channel that the turn names, and may leave (05:R62). -/
def CtrlAt (s : State) (sub : Nat) (b : Binding) (t : Token) : Prop :=
  s.binding s.choice.cell.toNat s.choice.ver s.choice.rtag.toNat = some b ∧ b.blocked = false ∧ b.heldSince = none
  ∧ b.fifo.head? = some t ∧ t.kind.toNat = 3 ∧ t.aux.toNat % 16 = sub

end Sys2Proof.Claims

section

open Sys2Proof Sys2Proof.Machine Sys2Proof.Claims

/-- 05:R64 to R68, R75; 23:R343: a firing takes one token from each port of its rule. One whose predicate matches runs: a free
slot holds a task with the tokens as in0 to in3, the turn's context and iteration, p0 alone true, empty stacks, at the
node's handler; its scalars are free values (log entry 8). The head of an ORDERED port leaves its FIFO and its credit
returns; entries of TAGGED ports leave the matching store. That a node whose ports are all ORDERED fires under the tag of its
lowest port's head, and which head an ORDERED port with several edges gives, is the model's choice (log entry 27). -/
def Sys2Proof.Claims.Firings : Prop :=
  ∀ (s : State) (n : Node) (l : List (Nat × Bool × Source × Token)), CanFire s n l → n.role ≠ .reduce →
    RunsOn n.pmatch (predOf (l.map fun y => y.2.2.2)) →
    let x := s.choice
    let cell := x.cell.toNat
    let c := s.cell cell
    c.readyFirings = [] → ∀ i, c.freeSlot? = some i →
    ∃ s', exec .firing s = .next s'
      ∧ (∃ t, s'.task ⟨cell, i⟩ = some t ∧ t.node = x.node ∧ t.ver = x.ver ∧ t.ctx = x.ctx ∧ t.iter = x.iter
        ∧ t.sendIter = x.iter ∧ t.stage = n.stage ∧ t.pc = BitVec.ofNat 10 n.handler ∧ t.preds = 1 ∧ t.calls = []
        ∧ t.loops = [] ∧ t.taint = false ∧ t.armed = false ∧ t.marked = false ∧ t.wait = .none
        ∧ t.ins = (List.range 4).map fun p => match l.find? (fun y => decide (y.1 = p)) with | some y => y.2.2.2 | none => {})
      ∧ (∀ j, j ≠ i → s'.task ⟨cell, j⟩ = s.task ⟨cell, j⟩)
      ∧ (∀ p r tok rest b q, l = [(p, true, .head r, tok)] → s.binding cell x.ver r = some b → b.fifo = tok :: rest →
        b.source = some q → tok.free = false → (∀ e ∈ rest.head?, (s.ctx e.ctx).live = true ∧ ¬ Late b e) →
        s'.binding cell x.ver r = some { b with fifo := rest, fullSince := none, fullRaised := false }
        ∧ s'.net = s.net ++ [⟨cell, q.cell, .credit q⟩])
      ∧ (∀ p q a b ta tb, l = [(p, false, .store a, ta), (q, false, .store b, tb)] → a ≠ b →
        (s'.cell cell).store =
          ((List.range c.store.length).filter fun k => decide (k ≠ a) && decide (k ≠ b)).filterMap (c.store[·]?))

/-- 05:R65, 21:R331, 03:R56: a firing whose predicate does not match is passed: it takes its tokens and sends a null token
of its tag on every output port in use, but not on out0 of a LOADER; no task runs. One of a REDUCE node adds its tokens to
what the node sums. -/
def Sys2Proof.Claims.PassedFirings : Prop :=
  ∀ (s : State) (n : Node) (l : List (Nat × Bool × Source × Token)), CanFire s n l →
    let x := s.choice
    let cell := x.cell.toNat
    let c := s.cell cell
    let toks := l.map fun y => y.2.2.2
    (n.role ≠ .reduce → ¬ RunsOn n.pmatch (predOf toks) → c.prom = none →
      (∀ (p : Nat) (e : Edge), n.outputs[p]? = some (some e) →
        (∃ d tag, e.dest = .internal d tag) ∧ 0 < e.credits ∧ e.ringTokens = [] ∧ s.hostPending cell e.scope = false) →
      ∃ s' : State, exec .firing s = .next s' ∧ (s'.cell cell).tasks = c.tasks
        ∧ ∀ p e d tag, p < 4 → n.outputs[p]? = some (some e) → e.dest = .internal d tag → ¬ (p = 0 ∧ n.role = .loader) →
          (⟨cell, d, .token
            { kind := 0, dst := BitVec.ofNat 18 d, poison := toks.any (·.poison), ver := x.ver, rtag := tag, ctx := x.ctx
              iter := x.iter, pred := .null, aux := 0, payload := 0, scope := e.scope } (some ⟨cell, x.ver, x.node, p⟩)⟩ : Packet) ∈ s'.net)
    ∧ (n.role = .reduce →
      ∃ s' : State, exec .firing s = .next s' ∧ (s'.cell cell).tasks = c.tasks
        ∧ s'.node cell x.ver x.node = some { n with
            contribs := n.contribs ++ l.map fun y =>
              (x.iter.toNat, y.1, y.2.2.2.payload, y.2.2.2.poison, decide (y.2.2.2.pred = .null)) })

/-- 05:R79, R92: a head that has waited 65,536 cycles for an entry of the store raises MATCH_FULL, once for an unbroken wait;
when a sender has stalled that long on a full ring, and its configuration has taken no token, SPILL_FULL is raised for
every stalled port and the context stops. -/
def Sys2Proof.Claims.WaitingTokensFault : Prop :=
  ∀ (s : State),
    let x := s.choice
    let cell := x.cell.toNat
    let r := x.rtag.toNat
    (∀ b a t rest, s.binding cell x.ver r = some b → b.fullSince = some a → b.fifo = t :: rest →
      (b.fullRaised = false → a + 65536 ≤ s.now → (s.cell cell).headWaits x.ver b = true →
        exec .matchFull s = .next ((s.updBinding cell x.ver r fun b => { b with fullRaised := true }).nodeFault
          ⟨cell, x.ver, b.node, t.ctx, t.iter, none⟩ 0x11 r b.node))
      ∧ ((b.fullRaised = true ∨ s.now < a + 65536 ∨ (s.cell cell).headWaits x.ver b = false) → exec .matchFull s = .next s))
    ∧ (∀ c l, s.cfg x.ctx x.cfg = some c → l = s.stalledPorts c → (∃ y ∈ l, y.2.2.1 = true ∧ y.2.2.2 + 65536 ≤ s.now) →
      c.lastAccept + 65536 ≤ s.now → (s.ctx x.ctx).live = true → x.cfg < 65536 →
      (c.state = .ready ∨ c.state = .live ∨ c.state = .draining) →
      ∃ s', exec .spillFull s = .next s' ∧ (s'.ctx x.ctx).stopping = true
        ∧ s' = l.foldl (fun s y =>
            s.nodeFault ⟨y.1.cell, y.1.ver, y.1.node, x.ctx, 0, none⟩ 0x14 (y.1.node * 4 + y.2.1) l.length)
          (l.foldl (fun s y => s.updNode y.1.cell y.1.ver y.1.node fun n =>
            { n with outputs := lset n.outputs y.2.1 (·.map fun e => { e with stalledSince := some s.now }) }) s))

/-- 05:R84, 23:R340: a PHASE token posts its predicate for its gallery; the last gallery's ends the phase with the AND or OR
of the bits. The successor that the result selects becomes a candidate where it is not placed, and else a sweep goes to
each gallery and version it lies in; without a successor the context ends. -/
def Sys2Proof.Claims.PredicateNetwork : Prop :=
  ∀ (s : State) (b : Binding) (t : Token) (o : BitVec 10 × Nat) (c : CfgRt), CtrlAt s 0 b t →
    let cell := s.choice.cell.toNat
    let h := s.popHead
    (s.version cell s.choice.ver).owner = some o → h.cfg o.1 o.2 = some c →
    (t.pred = .true ∨ t.pred = .false) → (∀ y ∈ c.phase, y.1 ≠ galleryOf cell) →
    let bits := c.phase ++ [(galleryOf cell, decide (t.pred = .true))]
    let all : Prop := ∀ p ∈ c.places, ∃ y ∈ bits, y.1 = galleryOf p.cell
    let result : Bool := if c.spec.opOr then bits.any (·.2) else bits.all (·.2)
    let ended := h.updCfg o.1 o.2 fun c => { c with phase := [] }
    let next := if result then c.spec.onTrue else c.spec.onFalse
    (¬ all → exec .phase s = .next (h.updCfg o.1 o.2 fun c => { c with phase := bits }))
    ∧ (all → next = none → exec .phase s = .next { ended with
        cfgs := ended.cfgs.map fun y => if y.1 / 65536 = o.1.toNat then (y.1, { y.2 with state := .exited }) else y })
    ∧ (all → ∀ j d, next = some j → ended.cfg o.1 j = some d →
      ((d.state = .unplaced ∨ d.state = .saved) →
        exec .phase s = .next ((ended.updCfg o.1 j fun d => { d with wanted := true }).noteCandidate o.1 j))
      ∧ (d.state ≠ .unplaced → d.state ≠ .saved →
        exec .phase s = .next { ended with
          net := ended.net ++ ((d.places.map fun p => (galleryOf p.cell, p.ver)).dedup.map fun y =>
            ⟨d.home * 0x8000, y.1 * 1024, .sweep
              { kind := 3, dst := BitVec.ofNat 18 (y.1 * 1024), ctx := o.1, aux := BitVec.ofNat 9 (4 + 16 * y.2.toNat) }
              none [] none⟩) }))

/-- 05:R93, R396, 03:R56: EOS ends its edge: the binding of an internal edge at once, the external binding of a port with
the last of the edges that share it, whose tokens are late from the edge's own EOS on. When the last edge of a REDUCE node has ended, and no firing of it is owed, the node sends
the sum of its contributions in the order of their tags and within a tag of their ports, null when there were none,
poisoned when one was; the token's iteration is a free value (log entry 8). That the order of the sum
begins at LOOPB's oldest live tag of that moment is the model's choice (log entry 27). -/
def Sys2Proof.Claims.EndOfStream : Prop :=
  ∀ (s : State) (b : Binding) (t : Token) (n : Node), CtrlAt s 3 b t →
    let x := s.choice
    let cell := x.cell.toNat
    let h := (s.endEdge cell x.ver x.rtag.toNat t).popHead
    let v := h.version cell x.ver
    let c := h.cell cell
    h.node cell x.ver b.node = some n →
    let owed : Prop := ∃ e ∈ c.store,
      e.ver = x.ver ∧ e.node = b.node ∧ c.completes x.ver b.node e.port n e.token = true
    let base := match s.loopbPlace t.ctx with
      | some p => (match s.node p.cell p.ver p.node with | some y => y.loopBase | none => 0)
      | none => 0
    let key (y : Nat × Nat × Word × Bool × Bool) : Nat := (y.1 + 4096 - base) % 4096 * 4 + y.2.1
    ((h.binding cell x.ver x.rtag.toNat).map (·.ended)
        = some (b.ended || !b.external || decide (b.edges ≤ b.eos + 1)))
    ∧ (∀ e y, b.external = true → t.edge = some e → h.binding cell x.ver x.rtag.toNat = some y →
        y.eos = b.eos + 1 ∧ y.endedEdges = e :: b.endedEdges ∧ ∀ u : Token, u.edge = some e → Late y u)
    ∧ ((n.role ≠ .reduce ∨ v.inputsEnded b.node = false) → exec .ctrlEos s = .next h)
    ∧ (n.role = .reduce → v.inputsEnded b.node = true → owed → exec .ctrlEos s = .next s)
    ∧ (n.role = .reduce → v.inputsEnded b.node = true → ¬ owed → c.prom = none →
      ∀ e d tag, n.outputs[0]? = some (some e) → e.dest = .internal d tag → 0 < e.credits → e.ringTokens = [] →
      h.hostPending cell e.scope = false →
      ∀ l, (l.Perm (n.contribs.filter fun y => !y.2.2.2.2)) → l.Pairwise (fun y z => key y < key z) →
      ∃ s' iter, exec .ctrlEos s = .next s'
        ∧ s'.net = h.net ++ [⟨cell, d, .token
            { kind := 0, dst := BitVec.ofNat 18 d, poison := l.any (·.2.2.2.1), ver := x.ver, rtag := tag, ctx := t.ctx, iter := iter
              pred := if l = [] then .null else .none, aux := 0, payload := BitVec.ofNat 64 (reduceSum (l.map (·.2.2.1)))
              scope := e.scope }
            (some ⟨cell, x.ver, b.node, 0⟩)⟩]
        ∧ ∃ m, s'.node cell x.ver b.node = some m ∧ m.contribs = [])

end

namespace Sys2Proof.Claims

open Sys2Proof.Machine

/-! ## Stops, holds, sweeps, regions, barriers -/

/-- Distance of two iteration tags (05:R75). -/
def tagAfter (a b : BitVec 12) : Nat := (b.toNat + 4096 - a.toNat) % 4096

/-- The live version of a cell's nodes is the one named, in place of the other where that holds a configuration (05:R83). -/
def liveIs (c : Cell) (v : Bool) : Cell :=
  (({ c with liveOne := if v then List.range 32 else [] }).updVersion v fun x => { x with swept := false }).updVersion (!v)
    fun x => { x with swept := x.swept || decide (x.state ≠ VerState.empty) }

/-- A token that a command sent is over, and the command with it, with a status (25:R361). -/
def cmdOver (s : State) (t : Token) (status : Nat) : State :=
  match t.cmd with
  | some seq => s.finishSeq seq (BitVec.ofNat 16 t.ctx.toNat) status
  | none => s

/-- The operand of a step: a holder reads its own bank, once the rows are ENGINE's; another cell takes what the stream has
brought by this cycle (15:R235, R236). -/
def OperandOf (c : Cell) (holds : Bool) (base n now : Nat) (stream : List (Nat × List Row × Bool)) (x : List Row × Bool) : Prop :=
  if holds then
    (∀ k < n, c.engineRow (base + k) = true)
      ∧ x = ((List.range n).map fun k => c.row (base + k), (List.range n).any fun k => c.rowPoisoned (base + k))
  else ∃ at_ r, stream = (at_, x) :: r ∧ at_ ≤ now

end Sys2Proof.Claims

section

open Sys2Proof Sys2Proof.Machine Sys2Proof.Claims

/-- 23:R348, R349, R350: STOP at the head of a channel is consumed; when each port has had one for every forward edge that feeds
it the node is stopped,
and a node that no forward edge feeds is stopped by the agents once the lower stages have halted. A stopped node with no
task, waiting firing or pass, and no forward edge to send STOP on, halts; when every node of the drained set has halted
its configurations go on to SAVING. -/
def Sys2Proof.Claims.StopsOfNodes : Prop :=
  ∀ (s : State),
    let x := s.choice
    let cell := x.cell.toNat
    let stop (s : State) (node : Nat) : State := s.updNode cell x.ver node fun n => { n with stopAgent := true }
    (∀ b t o n, CtrlAt s 1 b t →
      let h := s.popHead.updNode cell x.ver b.node fun n => { n with stopPorts := b.port :: n.stopPorts }
      (h.version cell x.ver).owner = some o → h.node cell x.ver b.node = some n →
      let feeds := forwardIn (h.drainedSet o.1 o.2) o.2 n.gid
      ((∃ p ∈ feeds, n.stopPorts.count p < feeds.count p) → exec .ctrlStop s = .next h)
      ∧ ((∀ p ∈ feeds, feeds.count p ≤ n.stopPorts.count p) →
        exec .ctrlStop s = .next ((stop h b.node).tryHalt cell x.ver b.node)))
    ∧ (∀ o n, (s.version cell x.ver).owner = some o → s.node cell x.ver x.node = some n →
      let l := s.drainedSet o.1 o.2
      (∃ y ∈ l, y.1 = o.2) → forwardIn l o.2 n.gid = [] →
      (∀ y ∈ l, ∀ p ∈ y.2.places, n.stage.toNat ≤ y.2.stage p.gid ∨ ∀ m, s.node p.cell p.ver p.node = some m → m.halted = true) →
      exec .agentStopDelivery s = .next ((stop s x.node).tryHalt cell x.ver x.node)
      ∧ (n.halted = false → n.passes = [] → forwardOut l o.2 n.gid = [] →
        (∀ y ∈ (s.cell cell).tasks, ¬ (y.2.ver = x.ver ∧ y.2.node = x.node)) →
        (∀ f ∈ (s.cell cell).readyFirings, ¬ (f.ver = x.ver ∧ f.node = x.node)) →
        let h := (stop s x.node).updNode cell x.ver x.node fun n => { n with halted := true }
        exec .agentStopDelivery s = .next (h.settleDrain o.1 o.2)
        ∧ ((∀ y ∈ l, ∀ p ∈ y.2.places, p.cell ∈ y.2.scanCells ∨ ∀ m, h.node p.cell p.ver p.node = some m → m.halted = true) →
          ∀ y ∈ l, s.cfg o.1 y.1 = some y.2 → y.2.state = .draining →
            ∃ d, (h.settleDrain o.1 o.2).cfg o.1 y.1 = some d ∧ d.state = .saving
              ∧ d.savingCells = (y.2.places.map (·.cell)).dedup)))

/-- 19:R304, 23:R347: CTRL_RESUME releases what it names: the tokens of an input port, the accesses of the address port, or
the engine request of a descriptor slot of its context; of a node that has left its cell it waits in the vestibule; in
an ended context it is late. A version that is LOADING keeps it waiting. A command that sent it is complete when the object is
released, or ends with 0x0303 when its context has ended (25:R361; the status is log entry 23). -/
def Sys2Proof.Claims.HoldsReleased : Prop :=
  ∀ (s : State) (t : Token) (src dst : Nat) (q : Option PortRef), InNet s ⟨src, dst, .token t q⟩ →
    t.kind.toNat = 3 → t.aux.toNat = 2 →
    let h := taken s
    let c := s.cell dst
    let node := t.payload.toNat / 2 ^ 18 % 32
    let obj := t.payload.toNat / 2 ^ 23 % 8
    let ver := c.liveVersion node
    let v := c.version ver
    ((s.ctx t.ctx).live = false → exec .ctrlResume s = .next (discardedLate (cmdOver h t 0x0303) dst false 0 node t))
    ∧ ((s.ctx t.ctx).live = true → v.state = .loading → obj ≠ 5 → exec .ctrlResume s = .next s)
    ∧ ((s.ctx t.ctx).live = true → Runs v → obj ≤ 3 →
      ∃ s', exec .ctrlResume s = .next s' ∧ s' = cmdOver (h.releasePort dst ver node obj) t 0
        ∧ ∀ r b, s'.binding dst ver r = some b → b.node = node → b.port = obj → b.heldSince = none)
    ∧ ((s.ctx t.ctx).live = true → Runs v → obj = 4 →
      exec .ctrlResume s = .next (cmdOver ((h.updNode dst ver node fun n => { n with heldSince := none }).updCell dst fun c =>
        { c with tasks := c.tasks.map fun y =>
            (y.1, if y.2.ver = ver ∧ y.2.node = node then
                (match y.2.wait with | .held _ => { y.2 with wait := .retry none false, waitAt := none } | _ => y.2)
              else y.2) }) t 0))
    ∧ ((s.ctx t.ctx).live = true → obj = 5 → (c.version (c.liveVersion 0)).state ≠ .empty ∨ h.holdsContext dst t.ctx = true →
      ∀ k id, (c.dslot node).req = some (k, id) →
      ((c.dslot node).owner = t.ctx →
        exec .ctrlResume s = .next (cmdOver (h.updRequest (hallOf dst) k id fun r => { r with heldSince := none }) t 0))
      ∧ ((c.dslot node).owner ≠ t.ctx → exec .ctrlResume s = .next (cmdOver h t 0)))
    ∧ ((s.ctx t.ctx).live = true → v.state = .empty → obj ≤ 4 → ∀ o n, v.owner = some o → v.nodes[node]? = some n →
      exec .ctrlResume s = .next ((h.updCfg o.1 o.2 fun c =>
        { c with vest := c.vest ++ [(n.gid, obj, t, s.now)], resumed := c.resumed || c.byHold }).noteCandidate o.1 o.2))

/-- 05:R63, R83, 15:R234, R235: a sweep, behind the tokens and sweeps that its link carries before it, visits the cells of its gallery in order and makes its version the live one of each; a
READY version becomes LIVE, an EMPTY one gives a chronograph entry. A start sweep visits the cells of its region, and
notes those whose register and pair value match and the first that fails; at the last one the operation starts. -/
def Sys2Proof.Claims.Sweeps : Prop :=
  ∀ (s : State) (t : Token) (src dst : Nat), dst < 2 ^ 18 → (s.ctx t.ctx).live = true →
    let h := taken s
    let c := s.cell dst
    let ver := t.aux.getLsbD 4
    let v := c.version ver
    let on (s : State) (next : Nat) (pair : Option Token) (m : List Nat) (f : Option Nat) : State :=
      { s with net := s.net ++ [⟨dst, next, .sweep { t with dst := BitVec.ofNat 18 next } pair m f⟩] }
    let gallery (s : State) : State := if dst % 1024 < 1023 then on s (dst + 1) none [] none else s
    (∀ q, InNet s ⟨src, dst, .token t q⟩ → t.kind.toNat = 3 → (t.aux.toNat = 4 ∨ t.aux.toNat = 20) →
      t.payload = 0 →
      (v.state = .empty →
        exec .ctrlSweep s = .next (gallery (h.chronoAt dst 7 ver.toNat ver 0 t.iter.toNat t.ctx.toNat)))
      ∧ (v.state = .live → exec .ctrlSweep s = .next (gallery (h.updCell dst fun c => liveIs c ver)))
      ∧ (v.state = .loading → exec .ctrlSweep s = .next s)
      ∧ (v.state = .ready → ∀ o, v.owner = some o →
        ∃ s' : State, exec .ctrlSweep s = .next (gallery s') ∧ s'.net = h.net ∧ (s'.version dst ver).state = .live
          ∧ (s'.cell dst).liveOne = (liveIs c ver).liveOne
          ∧ ∀ g, s.cfg o.1 o.2 = some g → g.state = .ready →
            ∃ g', s'.cfg o.1 o.2 = some g' ∧ g'.state = .live ∧ g'.liveSince = s.now))
    ∧ (∀ q m f, InNet s ⟨src, dst, .sweep t (some q) m f⟩ → Runs v → c.regionOp = none →
      let w := t.payload.toNat
      let same : Prop := c.region.toNat = w - w % 2 ∧ c.regionPair.toNat = q.payload.toNat % 2 ^ 32
      let rows : Prop := c.passesStart dst w q.payload.toNat = true
      let h := h.flip dst ver
      let go (m : List Nat) (f : Option Nat) : Prop :=
        (∀ next, ((sweepCells t dst).filter fun d => decide (dst < d)).head? = some next →
          exec .ctrlSweep s = .next (on h next (some q) m f))
        ∧ (((sweepCells t dst).filter fun d => decide (dst < d)).head? = none →
          exec .ctrlSweep s = .next { h with net := h.net ++ [⟨dst, dst, .regionStart t q m f⟩] })
      (same → rows → go (m ++ [dst]) f) ∧ (same → ¬ rows → go (m ++ [dst]) (some (f.getD dst)))
      ∧ (¬ same → go m (some (f.getD dst))))

/-- 15:R235, R237, 16:R242: a start sweep that every cell has passed starts the operation on each; one that has failed leaves a
chronograph entry and owes the completion tokens of the cells that matched. A step takes a holder's rows
from its own bank, or what the streams have brought, adds their product to the cell's tile, and sends them on to the next
cells, which have them two cycles later; without both operands it waits. The poison of the start sweep poisons the tile as a row's does
(log entry 27). After the last step the completion token, of the number of steps or
of a failure, enters the port that the register names, against its credit. The external binding of that token, what a
streamed step reads and the wait for instructions under way are log entry 16's (DEDUCED). -/
def Sys2Proof.Claims.RegionOperations : Prop :=
  ∀ (s : State),
    (∀ t q m f src dst, s.net[s.choice.n]? = some ⟨src, dst, .regionStart t q m f⟩ → (s.ctx t.ctx).live = true →
      let word := t.payload &&& ~~~(1 : Word)
      let r := regionOf word.toNat
      let cells := r.cells (galleryOf dst)
      (∀ c ∈ cells, (s.cell c).regionOp = none) →
      ∃ s' : State, exec .regionOperationStart s = .next s' ∧ s'.net = (taken s).net
        ∧ (f = none → ∀ c ∈ cells, (s'.cell c).regionOp = some
          { ctx := t.ctx, iter := t.iter, word := word, pair := q.payload.truncate 32, poison := t.poison, fails := false
            steps := 0, until_ := s.now + 1 + 2 * (cellRowOf c - r.row0 + (cellColOf c - r.col0)) })
        ∧ (f = none → ∀ c, c ∉ cells → s'.cell c = s.cell c)
        ∧ (∀ bad, f = some bad → (∀ c ∈ m, (s'.cell c).regionOp = some
          { ctx := t.ctx, iter := t.iter, word := word, pair := q.payload.truncate 32, poison := t.poison, fails := true
            steps := 0, until_ := s.now + 1 }) ∧ ∀ c, c ∉ m → s'.cell c = s.cell c))
    ∧ (∀ o, (s.cell s.choice.cell.toNat).regionOp = some o → o.until_ ≤ s.now → s.cp.fatal = false →
      let cell := s.choice.cell.toNat
      let c := s.cell cell
      let r := regionOf o.word.toNat
      let p := pairOf o.pair
      let ra := groupRows p.fmtA p.pa
      let rb := groupRows p.fmtB p.pb
      let holdsA : Bool := decide (cellColOf cell = r.col0)
      let holdsB : Bool := decide (cellRowOf cell = r.row0)
      let isA := OperandOf c holdsA (r.abase + o.steps * ra) ra s.now o.inA
      let isB := OperandOf c holdsB (r.bbase + o.steps * rb) rb s.now o.inB
      let held : Prop := ∃ f ∈ c.flights, f.until_ ≠ 2 ^ 100 ∧ s.now < f.until_
        ∧ ∃ x ∈ f.reads ++ f.writes, x ∈ Res.tile r.tile :: r.holderRows p cell
      (o.fails = false → o.steps < r.steps → s.throttled = false →
        ((¬ ∃ x, isA x) ∨ (¬ ∃ x, isB x) ∨ (o.steps = 0 ∧ held) → exec .regionCompletion s = .next s)
        ∧ (∀ a b, isA a → isB b → (0 < o.steps ∨ ¬ held) →
          let bank := (a.1.mapIdx fun i x => (i, x)) ++ b.1.mapIdx fun i x => (256 + i, x)
          let m : Mac :=
            { tile := r.tile, ppi := r.pair, pair := { p with trimA := false, trimB := false }, a := .rows 0 0, bb := 256 }
          let fed : Cell := { c with bank := bank }
          let next : RegionOp :=
            { o with steps := o.steps + 1, until_ := s.now + 6 + p.pa * p.pb, inA := o.inA.tail, inB := o.inB.tail }
          let sum := fed.accumulate m (fed.macOut m) (o.poison || a.2 || b.2)
          ∃ s' : State, exec .regionCompletion s = .next s'
            ∧ s'.cell cell = { sum with bank := c.bank, regionOp := some next }
            ∧ (∀ u, (s.cell (cell + 1)).regionOp = some u → cellColOf cell < 31 → r.holds (cell + 1) = true →
              (s'.cell (cell + 1)).regionOp = some { u with inA := u.inA ++ [(s.now + 2, a)] })
            ∧ (∀ u, (s.cell (cell + 32)).regionOp = some u → cellRowOf cell < 31 → r.holds (cell + 32) = true →
              (s'.cell (cell + 32)).regionOp = some { u with inB := u.inB ++ [(s.now + 2, b)] })
            ∧ (∀ k, k ≠ cell → k ≠ cell + 1 → k ≠ cell + 32 → s'.cell k = s.cell k) ∧ s'.net = s.net))
      ∧ ((o.fails = true ∨ r.steps ≤ o.steps) → (s.ctx o.ctx).live = true →
        let ver := c.liveVersion r.node
        let v := c.version ver
        let h := s.updCell cell fun c =>
          { c with regionOp := none, flights := c.flights.filter fun f => decide (f.until_ ≠ 2 ^ 100) }
        let tok : Token :=
          { kind := 0, dst := BitVec.ofNat 18 cell, poison := c.tilePoison.contains r.tile
            ver := ver, rtag := 0, ctx := o.ctx, iter := o.iter, pred := if o.fails then .false else .true, aux := 0
            payload := if o.fails then 0 else BitVec.ofNat 64 r.steps }
        Runs v → ∀ i n, v.owner = some i → v.nodes[r.node]? = some n →
        (n.inputs[r.port]? = none ∨ n.inputs[r.port]? = some none → exec .regionCompletion s = .next (tokenEntry h cell 3 tok))
        ∧ (∀ k tag b g, n.inputs[r.port]? = some (some k) →
          (v.bindingsOf r.node r.port).find? (·.2.external) = some (tag, b) → s.cfg i.1 i.2 = some g →
          let credit := tgetD g.credits 16 (n.gid * 4 + r.port)
          (credit = 0 → exec .regionCompletion s = .next s)
          ∧ (0 < credit → exec .regionCompletion s = .next
            ((h.updCfg i.1 i.2 fun g => { g with credits := tput g.credits (n.gid * 4 + r.port) (credit - 1) }).enterFifo
              cell ver tag { tok with rtag := BitVec.ofNat 8 tag, scope := .cell })))))

/-- 17:R271 to R274: an arrival at a barrier entry of its context. Of a past phase it is late, of a later one it is held; of
the present one it adds its amount, or raises BAR_OVERFLOW where kind, total or amount do not fit. The arrival that reaches
the total ends the phase: the entry goes on to the next, and its waiters go on with the phase's poison. A payload with
reserved bits is a KIND entry. It is held while its version is LOADING (05:R81), and follows a configuration that has left the
cell (23:R355). -/
def Sys2Proof.Claims.BarrierArrivals : Prop :=
  ∀ (s : State) (t : Token) (src dst : Nat) (q : Option PortRef), InNet s ⟨src, dst, .token t q⟩ →
    t.kind.toNat = 3 → t.aux.toNat = 5 → t.cmd = none → dst < 2 ^ 18 →
    let h := taken s
    let c := s.cell dst
    let x := t.payload.toNat
    let bid := x % 256
    let amount := x / 2 ^ 12 % 2 ^ 24
    let expected := x / 2 ^ 36 % 2 ^ 24
    let bytes := t.payload.getLsbD 8
    let fits : Prop := x / 2 ^ 9 % 8 = 0 ∧ x < 2 ^ 60
    let e0 := c.bar bid
    let e := if e0.expected = 0 then { e0 with expected := expected, bytes := bytes } else e0
    let bad : Prop := bytes ≠ e.bytes ∨ expected ≠ e.expected ∨ e.expected = 0 ∨ amount = 0 ∨ e.expected < e.total + amount
    let counted := { e with total := e.total + amount, poison := e.poison || t.poison }
    let d := tagAfter t.iter e0.phase
    let here : Prop := (s.version dst t.ver).state ≠ .loading ∧ h.leftBy dst t.ctx = none
    ((s.ctx t.ctx).live = false → exec .barrierArrive s = .next (discardedLate h dst t.ver 0 0 t))
    ∧ ((s.ctx t.ctx).live = true → (s.version dst t.ver).state = .loading → exec .barrierArrive s =
      .next (h.updVersion dst t.ver fun v => { v with held := v.held ++ [⟨src, dst, .token t q⟩] }))
    ∧ ((s.ctx t.ctx).live = true → (s.version dst t.ver).state ≠ .loading → ∀ i, h.leftBy dst t.ctx = some i →
      exec .barrierArrive s = .next (h.updCfg t.ctx i fun x => { x with vestMsgs := x.vestMsgs ++ [⟨src, dst, .token t q⟩] }))
    ∧ ((s.ctx t.ctx).live = true → here → ¬ fits → exec .barrierArrive s = .next (tokenEntry h dst 4 t))
    ∧ ((s.ctx t.ctx).live = true → here → fits → e0.owner = some t.ctx → c.barHeld = [] → c.barHeldWaits = [] →
      (1 ≤ d → d ≤ 2047 →
        exec .barrierArrive s = .next (h.updCell dst fun c => { c with lateCnt := min (c.lateCnt + 1) (2 ^ 32 - 1) }))
      ∧ (2049 ≤ d → exec .barrierArrive s = .next (h.updCell dst fun c => { c with barHeld := [t] }))
      ∧ ((d = 0 ∨ d = 2048) → bad →
        exec .barrierArrive s = .next ((h.updCell dst fun c => c.setBar bid e).nodeFault (s.overflowNode dst t.ctx t.iter) 0x15
          (expected * 256 + bid) amount))
      ∧ ((d = 0 ∨ d = 2048) → ¬ bad → counted.total < counted.expected →
        exec .barrierArrive s = .next (h.updCell dst fun c => c.setBar bid counted))
      ∧ ((d = 0 ∨ d = 2048) → ¬ bad → counted.total = counted.expected →
        let next : BarEntry := { counted with phase := counted.phase + 1, total := 0, expected := 0, poison := false }
        let due (w : BarWaiter) : Bool := decide (w.bid = bid) && decide (w.phase = counted.phase)
        (c.barWaiters.all (fun w => !due w) →
          exec .barrierArrive s = .next (h.updCell dst fun c => c.setBar bid next))
        ∧ (∀ w u, c.barWaiters.filter due = [w] → w.task.cell = dst → s.task w.task = some u → u.wait = .bar dst bid w.phase →
          (∀ n, s.node dst u.ver u.node = some n → n.halted = false) →
          ∃ s' u', exec .barrierArrive s = .next s' ∧ s'.task w.task = some u' ∧ u'.wait = .none
            ∧ u'.taint = (u.taint || counted.poison) ∧ u'.regs = u.regs ∧ (s'.cell dst).bar bid = next
            ∧ (s'.cell dst).barWaiters = c.barWaiters.filter fun w => !due w)))

/-- 17:R252, 05:R75: a retirement reaches the LOOPB node of its context: a tag of the window that has not retired retires, and
the window's base passes every retired tag; any other raises TAG_WINDOW. It follows a node that has moved, and waits there for
an agent that changes firmware (25:R371). -/
def Sys2Proof.Claims.Retirements : Prop :=
  ∀ (s : State) (src dst : Nat) (ctx : BitVec 10) (a : Word) (by_ : NodeRef) (gid : Nat) (p : Place) (n : Node),
    InNet s ⟨src, dst, .retire ctx a by_ gid⟩ → s.loopbPlace ctx = some p →
    let h := taken s
    (p.cell ≠ dst → (s.hall (hallOf dst)).switching = true → exec .retirementArrival s = .next s)
    ∧ (p.cell ≠ dst → (s.hall (hallOf dst)).switching = false →
      exec .retirementArrival s = .next { s with net := s.net.set s.choice.n ⟨src, p.cell, .retire ctx a by_ gid⟩ })
    ∧ (p.cell = dst → s.node p.cell p.ver p.node = some n → n.loopBase < 4096 →
      let k := a.toNat % 4096
      let issued := (n.loopNext + 4096 - n.loopBase) % 4096
      let place := (k + 4096 - n.loopBase) % 4096
      ((k ∈ n.retired ∨ issued ≤ place) → exec .retirementArrival s = .next (h.nodeFault by_ 0x12 k a.toNat))
      ∧ (k ∉ n.retired → place < issued →
        ∃ d, d ≤ 4096 ∧ (∀ j < d, (n.loopBase + j) % 4096 ∈ k :: n.retired)
          ∧ (d < 4096 → (n.loopBase + d) % 4096 ∉ k :: n.retired)
          ∧ exec .retirementArrival s = .next (h.updNode p.cell p.ver p.node fun n =>
            { n with
              retired := (k :: n.retired).filter fun r => (List.range d).all fun j => decide (r ≠ (n.loopBase + j) % 4096)
              loopBase := (n.loopBase + d) % 4096 })))

/-- 17:R254, R255: a task in WAITT goes on once CYC has reached its value, or takes PROMISE_MISS where a request of it has
passed its promise; one in WAITF reads again after 32 cycles, and goes on with the value when the condition holds. A
task of a halted node stays. -/
def Sys2Proof.Claims.WaitsEnd : Prop :=
  ∀ (s : State) (t : Task), s.task ⟨s.choice.cell.toNat, s.choice.slot⟩ = some t →
    let at_ : TaskRef := ⟨s.choice.cell.toNat, s.choice.slot⟩
    let halted : Prop := ∃ n, s.node at_.cell t.ver t.node = some n ∧ n.halted = true
    (∀ a, t.wait = .waitt a →
      let missed := (t.requests.filterMap fun y =>
        (((s.hall y.1).queues.flatMap (·.2)).find? fun r => decide (r.id = y.2) && decide (r.promise ≤ a.toNat)).map
          (·.promise)).head?
      ((s.now % 2 ^ 64 < a.toNat ∨ halted) → ∃ s', exec .waittWake s = .next s' ∧ s'.task at_ = some t)
      ∧ (a.toNat ≤ s.now % 2 ^ 64 → ¬ halted → missed = none →
        ∃ s', exec .waittWake s = .next s'
          ∧ s'.task at_ = some { t.fallThrough with wait := .none, waitAt := none, done := [], grant := none, taken := none, nextIssue := s.now + 1 })
      ∧ (a.toNat ≤ s.now % 2 ^ 64 → ¬ halted → ∀ p, missed = some p → t.armed = false →
        ∃ s' u, exec .waittWake s = .next s' ∧ s'.task at_ = some u ∧ u.trapCause = 0x16
          ∧ u.trapInfo = BitVec.ofNat 64 p ∧ u.abandoned = true))
    ∧ (∀ c sc sd pa host b a, t.wait = .waitf c sc sd pa host b a →
      let read := s.readAt at_.cell pa 8 (some sc)
      let got := read.2
      let met : Prop := match c with
        | .ne => got % 2 ^ 64 ≠ b.toNat
        | .eq => got % 2 ^ 64 = b.toNat
        | .geu => b.toNat ≤ got % 2 ^ 64
      let u : Task := { t with taint := t.taint || read.1.readPoison at_.cell pa (some sc) }
      (pa / 2 ^ 47 % 2 = 1 ∨ s.offline pa = false) →
      ((s.now < a + 32 ∨ halted) → ∃ s', exec .waitfReread s = .next s' ∧ s'.task at_ = some t)
      ∧ (a + 32 ≤ s.now → ¬ halted → ¬ met → ∃ s', exec .waitfReread s = .next s' ∧ s'.task at_ = some
          { u with wait := .waitf c sc sd pa (decide (pa / 2 ^ 47 % 2 = 1)) b s.now })
      ∧ (a + 32 ≤ s.now → ¬ halted → met → ∃ s', exec .waitfReread s = .next s' ∧ s'.task at_ = some
          { (u.setReg sd (BitVec.ofNat 64 got)).fallThrough with
            wait := .none, waitAt := none, done := [], grant := none, taken := none, nextIssue := s.now + 1 }))

end

namespace Sys2Proof.Claims

open Sys2Proof.Machine

/-! ## Events of memory -/

/-- Leaves that an agent finds: an edge cell's own, then those of the hall's walker (21:R315, R316). -/
def found (s : State) (edge : Option Nat) (hall : Nat) : List Leaf :=
  (match edge with | some c => (s.cell c).tlb | none => []) ++ (s.hall hall).wcache

/-- A leaf of an address in a table. -/
def maps (r va : Nat) (l : Leaf) : Bool := decide (l.root = r) && decide (l.vbase ≤ va) && decide (va < l.vbase + l.size)

/-- A leaf is the one used last, in the walker's cache where it was found there, and in the edge cell's own (21:R315,
R316). -/
def used (s : State) (edge : Option Nat) (hall : Nat) (l : Leaf) : State :=
  let shared (s : State) : State := s.updHall hall fun x => { x with wcache := lruInsert x.wcache l 4096 }
  match edge with
  | some c =>
    (if l ∈ (s.cell c).tlb then s else shared s).updCell c fun x => { x with tlb := lruInsert x.tlb l 64 }
  | none => shared s

/-- An agent's address reaches a physical one by a leaf that it finds; the state then has it as the leaf used last
(21:R315). -/
def Maps (s : State) (edge : Option Nat) (hall : Nat) (ctx : BitVec 10) (va : Nat) (k : Access) (write : Bool) (pa : Nat)
    (s' : State) : Prop :=
  va < 2 ^ 52 ∧ ∃ r l, (s.ctx ctx).root = some r
    ∧ (found s edge hall).find? (maps r va) = some l
    ∧ leafAdmits l va k write = true ∧ pa = l.frame + (va - l.vbase) ∧ s' = used s edge hall l

/-- The value of an operation has reached its task: its register, which no longer waits, and its taint; the cell lists
the operation no more (11:R167, 17:R244). -/
def Returned (s s' : State) (cell : Nat) (o : Op) (v : Word) (poison : Bool) : Prop :=
  (∀ t, s.task ⟨cell, o.slot⟩ = some t →
    s'.task ⟨cell, o.slot⟩ = some { t.setReg o.sd v with
      pending := t.pending.erase o.sd.toNat, taint := t.taint || poison })
  ∧ (∀ x ∈ (s'.cell cell).ops, x.id ≠ o.id)

/-- The operation of a cell named by its identity has this value (07:R109). -/
def answered (s : State) (cell id : Nat) (k : OpKind) : State :=
  s.updCell cell fun c => { c with ops := c.ops.map fun o =>
    if o.id = id then
      (match o.kind, k with
       | .pres _, .pres _ => { o with kind := k }
       | .prom _ _, .prom _ _ => { o with kind := k }
       | _, _ => o)
    else o }

/-- A deferred load has its value, on its cell or where its task is saved (07:R109, 23:R352). -/
def given (s : State) (cell id : Nat) (v : Word) (poison : Bool) : State :=
  let give (l : List Op) : List Op := l.map fun o =>
    if o.id = id then (match o.kind with | .pres _ => { o with kind := .pres (some (v, poison)) } | _ => o) else o
  let s := s.updCell cell fun c => { c with ops := give c.ops }
  { s with cfgs := s.cfgs.map fun y =>
      (y.1, { y.2 with saved := y.2.saved.map fun u => if u.cell = cell then { u with ops := give u.ops } else u }) }

/-- The task of a deferred load has not ended: the load is listed at its cell, or where the cell is saved (11:R180). -/
def awaits (s : State) (d : Nat × Nat × Nat) : Bool :=
  (s.cell d.2.1).ops.any (fun o => decide (o.id = d.2.2))
    || s.cfgs.any fun y => y.2.saved.any fun u => decide (u.cell = d.2.1) && u.ops.any fun o => decide (o.id = d.2.2)

/-- A deferred load has its value, but one of the same word that reached the home before it has not completed (07:R108). -/
def Behind (s : State) (cell id : Nat) : Prop :=
  ∃ a l r, s.memAnswered = l ++ (a, cell, id) :: r ∧ (∀ x ∈ l, x.2 ≠ (cell, id)) ∧ ∃ x ∈ l, x.1 = a

/-- The same of a presence load of a bank word that has waited: an earlier one of the cell's list (07:R108). -/
def BankBehind (c : Cell) (o : Op) : Prop :=
  (∃ v, o.kind = .presBank true v) ∧ ∃ l r, c.ops = l ++ o :: r ∧ (∀ x ∈ l, x.id ≠ o.id)
    ∧ ∃ x ∈ l, (∃ v, x.kind = .presBank true v) ∧ x.va.toNat % 512 = o.va.toNat % 512
      ∧ x.va.toNat / 512 % 16 = o.va.toNat / 512 % 16

/-- A request that the cell may accept: the first of its requester, which may ask again (07:R126, R128). -/
def Next (c : Cell) (now : Nat) (r : PromReq) : Bool :=
  decide (c.promWaiting.find? (fun q => decide (q.cell = r.cell)) = some r) && c.mayAccept now r

/-- It is takenUp, with the others of that requester (07:R124, R128). -/
def takenUp (s : State) (cell : Nat) (r : PromReq) : State :=
  s.updCell cell fun c =>
    { c with
      prom := some (c.promWaiting.filter fun q => decide (q.cell = r.cell), c.log.length)
      promWaiting := c.promWaiting.filter fun q => decide (q.cell ≠ r.cell) }

/-- A node's port holds an access, or one of the nodes that share its memory interface, the first LOADER and the first
STORER of its configuration (21:R313). -/
def InterfaceHeld (s : State) (cell : Nat) (ver : Bool) (node : Nat) : Prop :=
  let shares (i : Nat) : Prop :=
    ∃ r ∈ [Role.loader, .storer], ∃ o g k, (s.version cell ver).owner = some o ∧ s.cfg o.1 o.2 = some g
      ∧ g.spec.nodes.find? (fun m => decide (m.role = r)) = some k
      ∧ (s.version cell ver).nodes.findIdx? (fun m => decide (m.gid = k.gid)) = some i
  ∃ i m, s.node cell ver i = some m ∧ m.heldSince ≠ none ∧ (i = node ∨ (shares node ∧ shares i))

/-- A wave operation is performed: it leaves, and its place in the wave is noted (17:R260, 21:R313). -/
def performed (s : State) (cell : Nat) (ver : Bool) (node : Nat) (w : WaveOp) : State :=
  s.updNode cell ver node fun n =>
    { n with
      waves := n.waves.erase w
      waveDone := (w.ctx.toNat, w.iter.toNat, w.ws) :: n.waveDone }

end Sys2Proof.Claims

section

open Sys2Proof Sys2Proof.Machine Sys2Proof.Claims

/-- 17:R244, R250, R261, R263, 07:R109, R113, R123: an operation returns: a load with what it reads, after its acquire for a
scoped one; an atomic with the old value; presence, wave and bank presence loads with the value they were given; LDA.PROM
after its reply as LDA.DEVICE, or with SCOPE for an unknown target; deferred loads of one word in the order of their arrival; TAGSET sets its tag where the window holds it and
else raises TAG_WINDOW. One that has no value yet stays. -/
def Sys2Proof.Claims.OperationReturns : Prop :=
  ∀ (s : State) (o : Op),
    let cell := s.choice.cell.toNat
    (s.cell cell).ops.find? (fun x => decide (x.id = s.choice.k)) = some o →
    let run (s' : State) : Prop := exec .memoryOperationReturn s = .next s'
    (∀ sc, o.kind = .load sc none →
      let s1 := match sc with | some x => (s.pushLine cell (lineOf o.pa) x).acquire cell x | none => s
      let got := s1.readAt cell o.pa (bytesOf o.size) sc
      ∃ s', run s' ∧ Returned s s' cell o (extendLoad got.2 o.size o.sx) (got.1.readPoison cell o.pa sc))
    ∧ (∀ sc v p, o.kind = .load sc (some (v, p)) → ∃ s', run s' ∧ Returned s s' cell o v p)
    ∧ (∀ op b d, o.kind = .atomic op b d none →
      let got := (s.atomicAt cell o.pa (bytesOf o.size) op b d).2
      ∃ s', run s' ∧ Returned s s' cell o got.1 got.2)
    ∧ (∀ op b d v p, o.kind = .atomic op b d (some (v, p)) → ∃ s', run s' ∧ Returned s s' cell o v p)
    ∧ (∀ v p, (o.kind = .pres (some (v, p)) ∧ ¬ Behind s cell o.id)
        ∨ ((∃ w, o.kind = .presBank w (some (v, p))) ∧ ¬ BankBehind (s.cell cell) o) ∨ o.kind = .wave (some (v, p)) →
      ∃ s', run s' ∧ Returned s s' cell o v p)
    ∧ ((o.kind = .pres none ∨ (∃ w, o.kind = .presBank w none) ∨ o.kind = .wave none ∨ o.kind = .prom false false) → run s)
    ∧ (∀ v, (o.kind = .pres (some v) ∧ Behind s cell o.id)
        ∨ ((∃ w, o.kind = .presBank w (some v)) ∧ BankBehind (s.cell cell) o) → run s)
    ∧ (∀ t, s.task ⟨cell, o.slot⟩ = some t →
      let u : Task := { t with pending := t.pending.erase o.sd.toNat }
      let s1 := (s.pushLine cell (lineOf o.pa) .device).acquire cell .device
      let got := s1.readAt cell o.pa (bytesOf o.size) (some .device)
      (o.kind = .prom true true → t.armed = false →
        ∃ s' x, run s' ∧ s'.task ⟨cell, o.slot⟩ = some x ∧ x.trapCause = 0x18 ∧ x.trapInfo = o.va ∧ x.abandoned = true)
      ∧ (o.kind = .prom true false → (o.pa / 2 ^ 47 % 2 = 1 ∨ s.offline o.pa = false) →
        ∃ s', run s' ∧ s'.task ⟨cell, o.slot⟩ = some
          { ({ u.setReg o.sd (extendLoad got.2 o.size o.sx) with
                taint := u.taint || got.1.readPoison cell o.pa (some .device) } : Task).fallThrough with
            wait := .none, waitAt := none, done := [], grant := none, taken := none, nextIssue := s.now + 1 })
      ∧ (∀ a, o.kind = .tagset a →
        let n := s.loopbNode t.ctx
        let place := (a.toNat % 4096 + 4096 - n.loopBase) % 4096
        (place < n.window → ∃ s' x, run s' ∧ s'.task ⟨cell, o.slot⟩ = some x ∧ x.sendIter.toNat = a.toNat % 4096
          ∧ x.wait = .none ∧ x.iter = t.iter)
        ∧ (n.window ≤ place → t.armed = false → ∃ s' x, run s' ∧ s'.task ⟨cell, o.slot⟩ = some x ∧ x.trapCause = 0x12
          ∧ x.abandoned = true)))

/-- 07:R134, R135, 17:R260, 21:R313, R318, R326: the storer performs the wave operations of its interface in the order of their
places: one whose predecessor has not been performed waits, as one does while the interface holds an access of its LOADER or STORER; a place taken twice is
dropped with a WAVE entry, whose detail is bits 127 to 32 of the operation's token (27:R384; what the specification does not lay
out of that token is free, log entry 8); a null one only takes its place, a poisoned store is suppressed with a record; a store
writes its bytes, a load has its value; one that its leaf does not admit raises PROTECTION against its node and takes its
place, a load's value then being free (log entry 8). -/
def Sys2Proof.Claims.WaveOperations : Prop :=
  ∀ (s : State) (n : Node) (w : WaveOp),
    let x := s.choice
    let cell := x.cell.toNat
    s.node cell x.ver x.node = some n → n.waves[x.n]? = some w →
    let has (q : Nat) : Prop := (w.ctx.toNat, w.iter.toNat, q) ∈ n.waveDone
    let done (s : State) : State := performed s cell x.ver x.node w
    let value (s : State) (v : Word) (p : Bool) : State :=
      match w.op with
      | none => s
      | some (c, id) => s.updCell c fun y => { y with ops := y.ops.map fun o =>
          if o.id = id then (match o.kind with | .wave _ => { o with kind := .wave (some (v, p)), pa := cell } | _ => o) else o }
    let run (s' : State) : Prop := exec .waveOperation s = .next s'
    let held : Prop := InterfaceHeld s cell x.ver x.node
    let turn : Prop := w.ws ≠ 255 ∧ ¬ has w.ws ∧ (w.wp = 255 ∨ has w.wp) ∧ ¬ held
    ((w.ws = 255 ∨ has w.ws) →
      ∃ t : Token, t.dst = x.cell ∧ t.poison = w.poison ∧ t.ver = x.ver ∧ t.ctx = w.ctx ∧ t.iter = w.iter
        ∧ t.pred = (if w.null then .null else .none)
        ∧ run ((s.updNode cell x.ver x.node fun n => { n with waves := ldel n.waves x.n }).useFree.chronoAt cell 6
          (t.bits / 2 ^ 32 % 2 ^ 96) x.ver x.node w.iter.toNat w.ctx.toNat))
    ∧ (w.ws ≠ 255 → ¬ has w.ws → ((w.wp ≠ 255 ∧ ¬ has w.wp) ∨ held) → run s)
    ∧ (turn → w.null = true → run (done s))
    ∧ (turn → w.null = false → w.store = true → w.poison = true →
      run (done (s.poisonSink ⟨cell, x.ver, x.node, w.ctx, w.iter, none⟩ w.addr.toNat 1 1)))
    ∧ (turn → s.cp.fatal = false → w.null = false → ∀ pa s1, Maps s (some cell) (hallOf cell) w.ctx w.addr.toNat .plain w.store pa s1 →
      (w.store = true → w.poison = false →
        run (done (s1.writePhys pa (bytesOf w.size) (w.data.toNat % 2 ^ (8 * bytesOf w.size)) false (some w.source))))
      ∧ (w.store = false →
        let got := s1.readPhys pa (bytesOf w.size)
        run (done (value (s1.readNoted pa (some w.source)) (extendLoad got.1 w.size w.sx) (w.poison || got.2)))))
    ∧ (turn → s.cp.fatal = false → w.null = false → (w.store = true → w.poison = false) → w.addr.toNat < 2 ^ 52 →
      ∀ r, (s.ctx w.ctx).root = some r →
      let leaf := (found s (some cell) (hallOf cell)).find? (maps r w.addr.toNat)
      (∀ l, leaf = some l → leafAdmits l w.addr.toNat .plain w.store = false →
        ∃ v, run (done (value (s.nodeFault w.source 9 w.addr.toNat w.word.toNat).useFree v w.poison)))
      ∧ (leaf = none →
        run (s.missAt (hallOf cell) (some r) w.addr w.store (.wave cell x.ver x.node w.key))))

/-- 07:R108, R109; 11:R180; 27:R382: a presence store to an empty word writes and fills it, and every load deferred on it has its
value, those of ended tasks aside; one to an offline channel raises MEM_UNCORRECTABLE besides; to a
full word it raises PRESENCE_REWRITE and changes nothing. A presence load of a full word has its value, of an empty one
is deferred, of a slice whose table of 4,096 is full is tried again. -/
def Sys2Proof.Claims.PresenceAtHome : Prop :=
  ∀ (s : State) (a : Nat),
    let h := taken s
    let full := tgetD s.memFull false (a / 8)
    (∀ src dst va v by_, InNet s ⟨src, dst, .presStore a va v by_⟩ →
      (full = true → exec .presenceStoreAtHome s = .next (h.nodeFault by_ 0x10 va.toNat v.toNat))
      ∧ (full = false →
        let w := (h.raiseOffline (some by_) a).writeHome a 8 v.toNat
        let w : State := { w with
          memFull := tset w.memFull false (a / 8) true, memDeferred := s.memDeferred.filter fun d => decide (d.1 ≠ a)
          memAnswered := s.memAnswered ++ (s.memDeferred.filter fun d => decide (d.1 = a)).filter (awaits s) }
        exec .presenceStoreAtHome s = .next ((s.memDeferred.filter fun d => decide (d.1 = a)).foldl
          (fun s d => given s d.2.1 d.2.2 v (s.sectorPoisoned a)) w)))
    ∧ (∀ src dst c id, InNet s ⟨src, dst, .presLoad a c id⟩ →
      let slice (y : Nat) : Nat × Nat := (homeHall (lineOf y), y / 256 % 16)
      (full = true → ∃ by_, exec .presenceLoadAtHome s = .next
        (given (h.readNoted a by_) c id (BitVec.ofNat 64 (h.readHome a 8)) (h.sectorPoisoned a)))
      ∧ (full = false → (s.memDeferred.filter fun d => decide (slice d.1 = slice a)).length < 4096 →
        exec .presenceLoadAtHome s = .next { h with memDeferred := s.memDeferred ++ [(a, c, id)] })
      ∧ (full = false → 4096 ≤ (s.memDeferred.filter fun d => decide (slice d.1 = slice a)).length →
        exec .presenceLoadAtHome s = .next s))

/-- 07:R122 to R129: a promotion request goes from the agent to its target's cell, or is answered at once; a cell accepts one
whose requester may ask again, with the others of that requester; when it completes, every write of the cell has reached
its home, the entries it covers leave the log, SERVED counts and the requesters have replies, each a release back; one
that has waited for it is takenUp then, and completes in the same cycle. An eager promotion writes
back likewise and clears its mark. -/
def Sys2Proof.Claims.Promotions : Prop :=
  ∀ (s : State),
    let cell := s.choice.cell.toNat
    let c := s.cell cell
    (∀ src dst r, s.net[s.choice.n]? = some ⟨src, dst, .promLookup r⟩ → (s.hall (hallOf dst)).switching = false →
      let h := taken s
      let run (s' : State) : Prop := exec .agentPromotionLookup s = .next s'
      ((s.ctx r.ctx).live = false → run (answered h r.cell r.op (.prom true false)))
      ∧ ((s.ctx r.ctx).live = true → s.cfgWith r.ctx r.target = none → run (answered h r.cell r.op (.prom true true)))
      ∧ ((s.ctx r.ctx).live = true → ∀ g, s.cfgWith r.ctx r.target = some g →
        let place := (g.copy (hallOf dst)).find? fun p => decide (p.gid = r.target)
        (place = none → run (answered h r.cell r.op (.prom true false)))
        ∧ (∀ p, place = some p → run { h with net := h.net ++ [⟨dst, p.cell,
            .msg { dst := BitVec.ofNat 18 p.cell, poison := false, ver := p.ver, op := 0x0B, handler := 0
                   ccell := BitVec.ofNat 18 r.cell, ctag := 0xFE, operand := BitVec.ofNat 64 r.target } r.ctx
              (some (.prom r))⟩] })))
    ∧ (∀ r, c.prom = none → c.promWaiting.find? (Next c s.now) = some r →
      exec .promotionAccept s = .next (takenUp s cell r))
    ∧ ((c.prom ≠ none ∨ ∀ r ∈ c.promWaiting, Next c s.now r = false) → exec .promotionAccept s = .next s)
    ∧ (∀ l k, c.prom = some (l, k) →
      let pushed := l.foldl (fun u r => u.pushTo cell (scopeBetween cell r.cell)) (s.promoteWrites cell)
      ∃ t : State, (t.cell cell).prom = none ∧ (t.cell cell).log = c.log.drop k ∧ (t.cell cell).eagerMark = none
        ∧ (t.cell cell).served = min (c.served + 1) 65535 ∧ (t.cell cell).promWaiting = c.promWaiting ∧ t.mem = pushed.mem
        ∧ t.net = s.net ++ l.map (fun r => ⟨cell, r.cell,
            .msg { dst := BitVec.ofNat 18 r.cell, poison := false, ver := false, op := 0x17, handler := 0
                   ccell := BitVec.ofNat 18 cell, ctag := 0xFE, operand := 0 } r.ctx (some (.prom r))⟩)
        ∧ ((∀ r ∈ c.promWaiting, Next (t.cell cell) s.now r = false) → exec .promotionComplete s = .next t)
        ∧ (∀ r, c.promWaiting.find? (Next (t.cell cell) s.now) = some r →
          exec .promotionComplete s = exec .promotionComplete (takenUp t cell r)))
    ∧ (c.prom = none → exec .promotionComplete s = .next s)
    ∧ (∀ k, c.eagerMark = some k → exec .eagerPromotionComplete s =
        .next ((s.promoteWrites cell).updCell cell fun c => { c with eagerMark := none }))

/-- 13:R215, 15:R216: instructions whose time is over leave the units of their cell, and no other does. -/
def Sys2Proof.Claims.UnitsFree : Prop :=
  ∀ (s : State),
    let cell := s.choice.cell.toNat
    ∃ s', exec .inFlightInstructionComplete s = .next s'
      ∧ (∀ f, f ∈ (s'.cell cell).flights ↔ f ∈ (s.cell cell).flights ∧ s.now < f.until_)
      ∧ s'.cell cell = { s.cell cell with flights := (s'.cell cell).flights }
      ∧ (∀ d, d ≠ cell → s'.cell d = s.cell d) ∧ s' = { s with cells := s'.cells }

end

namespace Sys2Proof.Claims

open Sys2Proof.Machine

/-! ## Transit engines and passes -/

/-- A request has ended: it has left its queue, and its slot is DONE with the status, cause, rows and cycle of the
completion record (19:R280). -/
def RequestEnded (s' : State) (h q : Nat) (r : Request) (status cause rows now : Nat) : Prop :=
  (∀ x ∈ s'.queue h q, x.id ≠ r.id)
  ∧ ((s'.cell r.cell).dslot r.slot).state = .done ∧ ((s'.cell r.cell).dslot r.slot).req = none
  ∧ ∃ w : Nat, w = ((s'.cell r.cell).dslot r.slot).record.toNat
    ∧ w / 2 ^ 120 = status ∧ w / 2 ^ 112 % 2 ^ 8 = cause ∧ w / 2 ^ 64 % 2 ^ 32 = rows % 2 ^ 32 ∧ w % 2 ^ 64 = now % 2 ^ 64

/-- A request whose slot is its own, with no record in memory, on a cell that holds its context. -/
def Plain (s : State) (q : Nat) (r : Request) : Prop :=
  let x := (s.cell r.cell).dslot r.slot
  x.req = some (q, r.id) ∧ (descOf r.desc).record = 0 ∧ s.holdsContext r.cell x.owner = true ∧ r.slot < 16

/-- The operations of a PACKED body (21:R323). -/
inductive StreamOp where
  | literal (l : List Nat)
  | zeros (n : Nat)
  | copy (distance n : Nat)
  | longZeros (n : Nat)

/-- The bytes of an operation, for counts that it can state. -/
def StreamOp.bytes : StreamOp → List Nat
  | .literal l => (l.length - 1) :: l
  | .zeros n => [64 + (n - 1)]
  | .copy d n => [128 + (n - 3), d % 256, d / 256]
  | .longZeros n => [192 + (n - 1) / 256, (n - 1) % 256]

def StreamOp.ok (have_ : Nat) : StreamOp → Prop
  | .literal l => 1 ≤ l.length ∧ l.length ≤ 64
  | .zeros n => 1 ≤ n ∧ n ≤ 64
  | .copy d n => 3 ≤ n ∧ n ≤ 66 ∧ 1 ≤ d ∧ d ≤ 4096 ∧ d ≤ have_
  | .longZeros n => 1 ≤ n ∧ n ≤ 16384

/-- What an operation adds: byte i of a copy is the byte of the output `distance` places back. -/
def StreamOp.adds (out : List Nat) : StreamOp → List Nat
  | .literal l => l
  | .zeros n => List.replicate n 0
  | .copy d n => (List.range n).map fun i => out.getD (out.length - d + i % d) 0
  | .longZeros n => List.replicate n 0

/-- A body of operations that stays within a chunk, and the output that it gives. -/
def Unpacks : List Nat → List StreamOp → List Nat → Prop
  | out, [], final => final = out
  | out, o :: r, final => o.ok out.length ∧ out.length ≤ 4096 ∧ Unpacks (out ++ o.adds out) r final

end Sys2Proof.Claims

section

open Sys2Proof Sys2Proof.Machine Sys2Proof.Claims

/-- 19:R279, R280, R282, R289, R291: an engine starts the first request of its queue that its stream allows, up to eight; a
signal to a misaligned word fails with ALIGN. A request ends when its rows are done, when a peer has acknowledged it or
has refused it, or when it is cancelled, and no row of it is on its way to the host: it leaves its queue and its slot is
DONE with its record. -/
def Sys2Proof.Claims.EngineStartsAndEnds : Prop :=
  ∀ (s : State) (r : Request),
    let x := s.choice
    let h := x.hall.toNat
    let q := x.eq.toNat
    let l := s.queue h q
    let allowed (r : Request) : Prop :=
      r.ord = false ∨ ∀ y ∈ s.halls, ∀ z ∈ y.2.queues, ∀ o ∈ z.2,
        o.ord = true → o.sid = r.sid → o.node.ctx = r.node.ctx → r.id ≤ o.id
    let begin_ (r : Request) : Request := { r with started := true, sent := if r.kind = .sig then [s.now] else r.sent }
    let free (r : Request) : Prop := r.started = false ∧ r.cancelled = false ∧ allowed r
    (∀ a b, l = a ++ r :: b → free r → (∀ y ∈ a, ¬ free y) →
      ((l.filter (·.started)).length < 8 → ¬ (r.kind = .sig ∧ r.c.toNat % 8 ≠ 0) →
        exec .engineRequestStart s = .next (s.setQueue h q (l.map fun y => if y.id = r.id then begin_ y else y)))
      ∧ ((l.filter (·.started)).length < 8 → r.kind = .sig → r.c.toNat % 8 ≠ 0 → Plain s q r →
        ∃ s', exec .engineRequestStart s = .next s' ∧ RequestEnded s' h q r 3 5 0 s.now)
      ∧ (8 ≤ (l.filter (·.started)).length → exec .engineRequestStart s = .next s))
    ∧ ((∀ y ∈ l, ¬ free y) → exec .engineRequestStart s = .next s)
    ∧ (l.find? (fun y => decide (y.id = x.k)) = some r → Plain s q r →
      let total := r.total (descOf r.desc)
      let rows := if r.kind = .sig then 0 else r.rowsDone
      let pending : Prop := ∃ y ∈ s.hostStores, y.request = some (h, r.id)
      (pending → exec .engineRequestComplete s = .next s)
      ∧ (¬ pending →
      (r.cancelled = true → ∃ s', exec .engineRequestComplete s = .next s'
        ∧ RequestEnded s' h q r 2 r.cancelCause
          (if r.kind = .sig then 0 else if r.sent = [] ∨ x.ok = true then r.rowsDone else min r.rowsDone x.offset) s.now)
      ∧ (r.cancelled = false → r.started = true → r.heldSince = none → r.kind ≠ .remote → r.kind ≠ .sig →
        (total ≤ r.rowsDone → ∃ s', exec .engineRequestComplete s = .next s' ∧ RequestEnded s' h q r 1 0 rows s.now)
        ∧ (r.rowsDone < total → exec .engineRequestComplete s = .next s))
      ∧ (r.cancelled = false → r.started = true → r.heldSince = none → (r.kind = .remote ∨ r.kind = .sig) → r.sent ≠ [] →
        (x.ok = true → total ≤ r.rowsDone →
          ∃ s', exec .engineRequestComplete s = .next s' ∧ RequestEnded s' h q r 1 0 rows s.now)
        ∧ (x.ok = false →
          ∃ s', exec .engineRequestComplete s = .next s' ∧ RequestEnded s' h q r 3
            (if x.amount = 0 then 9 else x.amount.toNat % 256) (if r.kind = .sig then 0 else min r.rowsDone x.offset) s.now))))

/-- 19:R280, R281, R284, 21:R307: a turn of an engine whose one started request copies whole rows between banks owned by ENGINE,
where no other request writes a group: the next row of
the destination, in descriptor order, becomes the row of the source, with its poison; no other row of any bank changes,
and the request is one row further. -/
def Sys2Proof.Claims.EngineCopiesRows : Prop :=
  ∀ (s : State) (h : BitVec 3) (q : BitVec 4) (r : Request) (rest : List Turn) (x : RowStep),
    s.turns = .engineRow h q :: rest → (s.queue h.toNat q.toNat).find? (fun y => decide (y.id = r.id)) = some r →
    (s.queue h.toNat q.toNat).filter (·.started) = [r] → (∀ g ∈ s.groups, g.request = r.id) →
    r.started = true → r.heldSince = none → r.cancelled = false → r.kind = .copy →
    let d := descOf r.desc
    d.s.kind = 2 → d.d.kind = 2 → d.padL = 0 → d.padR = 0 → d.dmask = 0 → d.elems % 1024 = 0 → 0 < d.elems →
    d.stepAt true (d.planes true 0) ((List.range d.slices).map fun i => (i, d.start true i)) r.rowsDone = some x →
    x.start % 1024 = 0 → d.start false x.slice % 1024 = 0 →
    let from_ := (d.start false x.slice / 1024 + (x.group - x.start / 1024)) * d.p + x.plane
    let sc := d.s.base % 2 ^ 18
    let sr := d.s.base / 2 ^ 18 % 512 + from_
    let dc := d.d.base % 2 ^ 18
    let dr := d.d.base / 2 ^ 18 % 512 + (x.group * d.p + x.plane)
    (s.cell sc).engineRow sr = true → (s.cell dc).engineRow dr = true →
    ∃ s', step s = .next s' ∧ s'.turns = rest
      ∧ (s'.cell dc).row dr = (s.cell sc).row sr
      ∧ (s'.cell dc).rowPoisoned dr = (s.cell sc).rowPoisoned sr
      ∧ (∀ c w, ¬ (c = dc ∧ w = dr) → (s'.cell c).row w = (s.cell c).row w ∧ (s'.cell c).rowPoisoned w = (s.cell c).rowPoisoned w)
      ∧ s'.queue h.toNat q.toNat = (s.queue h.toNat q.toNat).map fun y =>
          if y.id = r.id then { y with rowsDone := y.rowsDone + 1, grant := none } else y

/-- 21:R323, R325: a RAW chunk is its 4,096 bytes; a PACKED one the output of its operations, where that is 4,096 bytes; both
only where their CRC-32C holds. -/
def Sys2Proof.Claims.ChunkFormats : Prop :=
  ∀ (crc : Nat),
    (∀ body out, expandChunk 0 crc body = some out ↔ out = body ∧ body.length = 4096 ∧ crc32c body = crc)
    ∧ (∀ ops out, Unpacks [] ops out →
      unpack (ops.flatMap StreamOp.bytes).length (ops.flatMap StreamOp.bytes) [] = some out
      ∧ (out.length = 4096 → crc32c out = crc → expandChunk 1 crc (ops.flatMap StreamOp.bytes) = some out)
      ∧ (out.length ≠ 4096 ∨ crc32c out ≠ crc → expandChunk 1 crc (ops.flatMap StreamOp.bytes) = none))

/-- 19:R287, 21:R322 to R325: a free lane takes the lowest chunk of its request that none has taken, as long as the reorder
buffer's eight places and its lookahead of seven chunks allow. A turn then writes the next row of the lowest chunk, with its poison, and
leaves a chronograph entry at the first row of a poisoned one; a stream without the chunk, or a chunk past the stream's
end, fails with DESC. -/
def Sys2Proof.Claims.ChunksDecoded : Prop :=
  ∀ (s s1 : State) (r : Request),
    let h := s.choice.hall.toNat
    let q := s.choice.eq.toNat
    let d := descOf r.desc
    let low := r.rowsDone / 32
    let c := (r.chunks.map fun x => x.1 + 1).foldl max low
    let buffered := ((s.queue h q).map fun y => y.chunks.length).foldl (· + ·) 0
    (s.queue h q).find? (fun y => decide (y.id = s.choice.k)) = some r → r.started = true → r.heldSince = none →
    r.cancelled = false → r.kind = .decode →
    (∀ x, c < r.c.toNat → c < low + 8 → buffered < 8 → s.chunkIn (r.via h) d (r.b.toNat + c) = .ok s1 x →
      exec .decodeChunk s = .next (s1.setQueue h q ((s1.queue h q).map fun y =>
        if y.id = r.id then { y with chunks := y.chunks ++ [(c, x)], grant := none } else y)))
    ∧ ((r.c.toNat ≤ c ∨ low + 8 ≤ c ∨ 8 ≤ buffered) → exec .decodeChunk s = .next s)
    ∧ (∀ rest, s.turns = .engineRow s.choice.hall s.choice.eq :: rest → (s.queue h q).filter (·.started) = [r] →
      r.rowsDone < 32 * r.c.toNat →
      (tget r.chunks low = some none → Plain s q r →
        ∃ s', step s = .next s' ∧ s'.turns = rest ∧ RequestEnded s' h q r 3 0x0A r.rowsDone s.now)
      ∧ (∀ bytes poison, tget r.chunks low = some (some (bytes, poison)) → d.d.kind = 2 → d.start true 0 % 1024 = 0 →
        let t := r.rowsDone % 32
        let dc := d.d.base % 2 ^ 18
        let dr := d.d.base / 2 ^ 18 % 512 + (d.start true 0 / 1024 + r.rowsDone)
        (s.cell dc).engineRow dr = true →
        ∃ s', step s = .next s' ∧ s'.turns = rest
          ∧ (s'.cell dc).row dr = BitVec.ofNat 1024 (((bytes.drop (128 * t)).take 128).foldr (fun b a => b + 256 * a) 0)
          ∧ (s'.cell dc).rowPoisoned dr = poison
          ∧ (∀ k w, ¬ (k = dc ∧ w = dr) → (s'.cell k).row w = (s.cell k).row w ∧ (s'.cell k).rowPoisoned w = (s.cell k).rowPoisoned w)
          ∧ s'.queue h q = (s.queue h q).map fun y =>
              if y.id = r.id then
                { y with
                  rowsDone := y.rowsDone + 1, grant := none
                  chunks := if t = 31 then y.chunks.filter fun x => decide (x.1 ≠ low) else y.chunks }
              else y))

/-- 21:R316 to R318, 19:R282, 23:R347: a walk ends for who waits on it. A leaf is cached by the walker, unless its root has been
invalidated, and by an edge cell; a task runs again with it, a request goes on with it. A missing entry raises TRANSLATION
and holds the access; a forbidden one fails the request, or the pass. What the walk has read of entries is noted first: lines that
miss at their homes, and an offline channel's error against the node that asked (27:R382; 28:R394). -/
def Sys2Proof.Claims.WalksEnd : Prop :=
  ∀ (s : State) (w : Walk) (y : Waiter) (va : Word) (wr : Bool),
    let h := s.choice.hall.toNat
    let n := s.choice.n
    (s.hall h).walks[n]? = some w → n < 32 → w.waiters = [(y, va, wr)] →
    let gone := (s.walkNoted w).updHall h fun x => { x with walks := ldel x.walks n }
    let run (s' : State) : Prop := exec .walkComplete s = .next s'
    (∀ l, walkRoot s w.root w.va.toNat = .leaf l →
      let kept := if w.noCache then gone else gone.updHall h fun x => { x with wcache := lruInsert x.wcache l 4096 }
      let edge (c : Nat) : State :=
        if w.noCache = true ∨ 32 ≤ c % 1024 then kept else kept.updCell c fun c => { c with tlb := lruInsert c.tlb l 64 }
      (∀ h' q id, y = .engine h' q id →
        run (kept.setQueue h' q ((kept.queue h' q).map fun r => if r.id = id then { r with grant := some l } else r)))
      ∧ (∀ c v i, y = .pass c v i → run (edge c)) ∧ (∀ c v i k, y = .wave c v i k → run (edge c))
      ∧ (∀ c i t, y = .task c i → c < 2 ^ 18 → s.task ⟨c, i⟩ = some t → t.wait = .walk →
        ∃ s', run s' ∧ s'.task ⟨c, i⟩ = some { t with wait := .retry none false, waitAt := none, grant := some l }
          ∧ (s'.cell c).tlb = ((edge c).cell c).tlb))
    ∧ (∀ level noRoot, walkRoot s w.root w.va.toNat = .translation level noRoot →
      let info := level + 256 * wr.toNat + 512 * noRoot.toNat
      let hold (c : Nat) (v : Bool) (i : Nat) : State :=
        gone.updNode c v i fun n => { n with heldSince := some (n.heldSince.getD s.now) }
      (∀ h' q id r, y = .engine h' q id → (gone.queue h' q).find? (fun r => decide (r.id = id)) = some r →
        (r.cancelled = true → run gone)
        ∧ (r.cancelled = false → run (((gone.setQueue h' q ((gone.queue h' q).map fun r =>
          if r.id = id then { r with heldSince := some s.now } else r)).noteCandidates r.node.ctx).nodeFault r.node 8 va.toNat
            info)))
      ∧ (∀ c v i m p rest, y = .pass c v i → s.node c v i = some m → m.passes = p :: rest → p.paddr = none →
        run ((hold c v i).nodeFault ⟨c, v, i, p.ctx, p.iter, none⟩ 8 va.toNat info))
      ∧ (∀ c v i k m o, y = .wave c v i k → s.node c v i = some m → m.waves.find? (fun o => decide (o.key = k)) = some o →
        run ((hold c v i).nodeFault ⟨c, v, i, o.ctx, o.iter, none⟩ 8 va.toNat info))
      ∧ (∀ c i t g sd sa z sx, y = .task c i → c < 2 ^ 18 → s.task ⟨c, i⟩ = some t → t.wait = .walk →
        s.instrAt c t = some (.ld g sd sa z sx) →
        ∃ s', run s' ∧ s'.task ⟨c, i⟩ = some { t with wait := .held s.now, waitAt := some s.now }
          ∧ ∀ m, s.node c t.ver t.node = some m → ∃ m', s'.node c t.ver t.node = some m' ∧ m'.heldSince ≠ none))
    ∧ (walkRoot s w.root w.va.toNat = .protection →
      (∀ h' q id r, y = .engine h' q id → (gone.queue h' q).find? (fun r => decide (r.id = id)) = some r → Plain s q r → r.cancelled = false →
        ∃ s', run s' ∧ RequestEnded s' h' q r 3 9 (if r.kind = .sig then 0 else r.rowsDone) s.now)
      ∧ (∀ c v i m p rest, y = .pass c v i → s.node c v i = some m → m.passes = p :: rest →
        run ((gone.updNode c v i fun m => { m with passes := { p with failed := some 9 } :: rest }).nodeFault
          ⟨c, v, i, p.ctx, p.iter, none⟩ 9 va.toNat 0x2040000000000000)))

/-- 19:R293 to R296, 05:R89: the meridian queue serves the first pop of a context with an entry that its window admits: its
reply goes to the port of the popping node, against its credit or by the vestibule, or answers the message, whose poison joins the entry's. It waits for an agent that changes firmware (25:R371). A push that
waits moves in when there is space. -/
def Sys2Proof.Claims.QueueServes : Prop :=
  ∀ (s : State) (p : MqPop) (e : MqEntry),
    let x := s.choice
    let h := x.hall.toNat
    let y := s.hall h
    let w := (s.ctx p.ctx).window
    let smaller := (y.mq.filter fun f => decide (f.ctx = e.ctx) && decide (f.key < e.key)).length
    let equalBefore := ((y.mq.take x.e).filter fun f => decide (f.ctx = e.ctx) && decide (f.key = e.key)).length
    let admitted : Prop := if w ≤ 1 then smaller = 0 ∧ equalBefore = 0 else smaller < w
    let left := s.updHall h fun y => { y with mq := ldel y.mq x.e, mqPops := ldel y.mqPops x.k }
    let tok : Token := { ctx := p.ctx, iter := p.iter, poison := e.poison, payload := e.value, scope := .hall }
    (y.mqPops[x.k]? = some p → y.mq[x.e]? = some e → y.mqPush = [] → e.ctx = p.ctx →
      (∀ z ∈ y.mqPops.take x.k, z.ctx ≠ p.ctx) →
      (¬ admitted ∨ y.switching = true → exec .mqpopServe s = .next s)
      ∧ (y.switching = false → admitted → ∀ m, p.reply = some m →
        exec .mqpopServe s = .next (replied left m e.value (e.poison || m.poison) (some .answer)))
      ∧ (y.switching = false → admitted → p.reply = none → ∀ c, s.cfg p.ctx p.cfg = some c →
        let credit := tgetD c.credits 16 (p.gid * 4 + p.port)
        let cap := match c.spec.vest with | none => 4096 | some b => max 1 ((b + 4095) / 4096) * 256
        (∀ z, s.resolve h p.ctx p.cfg p.gid = some z → c.vest = [] → 0 < credit →
          exec .mqpopServe s = .next
            { left.updCfg p.ctx p.cfg (fun c => { c with credits := tput c.credits (p.gid * 4 + p.port) (credit - 1) }) with
              net := s.net ++ [⟨agentCell h, z.cell,
                .extToken { tok with dst := BitVec.ofNat 18 z.cell } p.gid p.port p.cfg⟩] })
        ∧ ((s.resolve h p.ctx p.cfg p.gid = none ∨ c.vest ≠ [] ∨ credit = 0) → c.vest.length < cap →
          exec .mqpopServe s = .next ((left.updCfg p.ctx p.cfg fun c =>
            { c with vest := c.vest ++ [(p.gid, p.port, tok, s.now)] }).noteCandidate p.ctx p.cfg))
        ∧ ((s.resolve h p.ctx p.cfg p.gid = none ∨ c.vest ≠ [] ∨ credit = 0) → cap ≤ c.vest.length →
          exec .mqpopServe s = .next s)))
    ∧ (∀ m, y.mqPops = [] → y.mqPush = [(e, m)] → y.mq.length < 65536 →
      let moved := s.updHall h fun y => { y with mq := y.mq ++ [e], mqPush := [] }
      exec .mqpopServe s = .next (match m with | some m => replied moved m 0 m.poison (some .answer) | none => moved))

end

namespace Sys2Proof.Claims

open Sys2Proof.Machine

/-- An engine's turn of its one started request, which nothing holds, and beside whose groups stands none of another's
(19:R279, R284; 08:R141). -/
def EngineTurn (s : State) (h : BitVec 3) (q : BitVec 4) (r : Request) (rest : List Turn) : Prop :=
  s.turns = .engineRow h q :: rest ∧ (s.queue h.toNat q.toNat).find? (fun y => decide (y.id = r.id)) = some r
  ∧ (s.queue h.toNat q.toNat).filter (·.started) = [r] ∧ (∀ g ∈ s.groups, g.request = r.id)
  ∧ r.started = true ∧ r.heldSince = none ∧ r.cancelled = false

/-- The slices of a side with their first elements: of the destination of a SCATTER and the source of a GATHER those of the
index table (19:R283, R286). -/
def sliceStarts (r : Request) (d : Desc) (dst : Bool) : List (Nat × Nat) :=
  (List.range d.slices).map fun i =>
    (i, if (dst = true ∧ r.kind = .scatter) ∨ (dst = false ∧ r.kind = .gather) then tgetD r.offs 0 i
        else (if dst then d.d.off + i * d.d.stride else d.s.off + i * d.s.stride))

/-- Cell and row of a row of a BANK side (19:R283). -/
def bankCell (x : Side) : Nat := x.base % 2 ^ 18
def bankRow (x : Side) (k : Nat) : Nat := x.base / 2 ^ 18 % 512 + k

/-- After a turn that wrote row `dr` of cell `dc`: its lanes are as given where the slice covers them and as before elsewhere,
no other row of any bank has changed, and the request is one row further (19:R284). -/
def WroteRow (s s' : State) (rest : List Turn) (h q : Nat) (r : Request) (dc dr lo hi : Nat) (lane : Nat → Bool) : Prop :=
  s'.turns = rest
  ∧ (∀ l, l < 1024 → ((s'.cell dc).row dr).getLsbD l = if lo ≤ l ∧ l < hi then lane l else ((s.cell dc).row dr).getLsbD l)
  ∧ (∀ c w, ¬ (c = dc ∧ w = dr) → (s'.cell c).row w = (s.cell c).row w ∧ (s'.cell c).rowPoisoned w = (s.cell c).rowPoisoned w)
  ∧ s'.queue h q = (s.queue h q).map fun y => if y.id = r.id then { y with rowsDone := y.rowsDone + 1, grant := none } else y

end Sys2Proof.Claims

section

open Sys2Proof Sys2Proof.Machine Sys2Proof.Claims

/-- 19:R281, R283, R284, R286, R288: what a turn of an engine does for a request between banks owned by ENGINE. A GATHER reads
the index of the slice that it reaches, a SCATTER all of them first, each a 32-bit word; a GATHER's outside the range ends it with
DESC, pads of a SCATTER that meet another slice with DESC_OVERLAP. The next row in descriptor order then takes, for each valid element, the source element's bit (COPY, COPYP, GATHER, SCATTER), the
value's bit or in word mode the whole word, whose presence is empty then (FILL), or the element's bit between the layouts (TRANSPOSE),
zero for pads, and is poisoned where a source row was; other lanes stay. A TE.REMOTE row is read and sent, and nothing of the
module changes but the count of rows. -/
def Sys2Proof.Claims.EngineStepValues : Prop :=
  ∀ (s : State) (h : BitVec 3) (q : BitVec 4) (r : Request) (rest : List Turn), EngineTurn s h q r rest →
    let d := descOf r.desc
    let hn := h.toNat
    let qn := q.toNat
    let planes := if d.dmask = 0 then List.range d.p else (List.range 32).filter fun i => d.dmask.testBit i
    let z := if d.p ≤ 8 then 1 else if d.p ≤ 16 then 2 else 4
    let srcRow (k : Nat) : Row := (s.cell (bankCell d.s)).row (bankRow d.s k)
    let srcPoison (k : Nat) : Bool := (s.cell (bankCell d.s)).rowPoisoned (bankRow d.s k)
    let srcOpen (k : Nat) : Prop := (s.cell (bankCell d.s)).engineRow (bankRow d.s k) = true
    let dstOpen (k : Nat) : Prop := (s.cell (bankCell d.d)).engineRow (bankRow d.d k) = true
    let dirty (s' : State) (k : Nat) : Prop := (s'.cell (bankCell d.d)).rowPoisoned (bankRow d.d k) = true
    -- the row of a PMG source that holds plane `p` of an element, and its bit there; and of an element-major source
    let pmg (j p : Nat) : Nat := j / 1024 * d.p + p
    let em (j : Nat) : Nat := j / (128 / z)
    let emBit (j b : Nat) : Bool := (srcRow (em j)).getLsbD (8 * z * (j % (128 / z)) + b)
    let indexed : Prop := (r.kind = .gather ∨ r.kind = .scatter)
    -- index steps
    (∀ i pa s1, indexed → r.grant = none → s.cp.fatal = false →
      (r.kind = .scatter → i = r.offs.length ∧ i < d.slices) →
      (r.kind = .gather → ∃ x, d.stepAt true planes (sliceStarts r d true) r.rowsDone = some x ∧ x.slice = i
        ∧ tget r.offs i = none) →
      Maps s none hn r.node.ctx (d.index + 4 * i) .copy false pa s1 →
      let v := (s1.readPhys pa 4).1
      let meets : Prop := r.kind = .scatter ∧ (tput r.offs i v).length = d.slices
        ∧ d.overlap ((List.range d.slices).map fun j => tgetD (tput r.offs i v) 0 j) = true
      (¬ meets → (r.kind = .scatter ∨ d.inRange false v = true) → ∃ s', step s = .next s' ∧ s'.turns = rest
        ∧ s'.queue hn qn = (s.queue hn qn).map fun y =>
            if y.id = r.id then { y with offs := tput y.offs i v, grant := none } else y)
      ∧ (meets → Plain s qn r → ∃ s', step s = .next s' ∧ RequestEnded s' hn qn r 3 0x0B r.rowsDone s.now)
      ∧ (r.kind = .gather → d.inRange false v = false → Plain s qn r →
        ∃ s', step s = .next s' ∧ RequestEnded s' hn qn r 3 0x0A r.rowsDone s.now))
    -- rows of a destination in plane order
    ∧ (∀ x, d.d.kind = 2 → d.stepAt true planes (sliceStarts r d true) r.rowsDone = some x →
      let k := x.group * planes.length + planes.idxOf x.plane
      let lo := x.start - d.padL - 1024 * x.group
      let hi := min (x.start + d.elems + d.padR - 1024 * x.group) 1024
      let valid (l : Nat) : Bool := decide (x.start ≤ 1024 * x.group + l) && decide (1024 * x.group + l < x.start + d.elems)
      let writes (lane : Nat → Bool) (s' : State) : Prop :=
        step s = .next s' ∧ WroteRow s s' rest hn qn r (bankCell d.d) (bankRow d.d k) lo hi fun l => valid l && lane l
      let src := ((sliceStarts r d false).getD x.slice (0, 0)).2
      let elem (l : Nat) : Nat := src + (1024 * x.group + l - x.start)
      dstOpen k →
      ((r.kind = .copy ∨ r.kind = .copyp ∨ indexed) → d.s.kind = 2 → (r.kind = .gather → tget r.offs x.slice ≠ none) →
        (r.kind = .scatter → d.slices ≤ r.offs.length ∧ d.inRange true x.start = true) →
        (∀ l, l < 1024 → valid l = true → srcOpen (pmg (elem l) x.plane)) →
        ∃ s', writes (fun l => (srcRow (pmg (elem l) x.plane)).getLsbD (elem l % 1024)) s'
          ∧ ∀ l, l < 1024 → valid l = true → srcPoison (pmg (elem l) x.plane) = true → dirty s' k)
      ∧ (r.kind = .fill → d.words = false → ∃ s', writes (fun _ => r.b.getLsbD (d.p - 1 - x.plane)) s')
      ∧ (r.kind = .fill → d.words = true → x.start % 64 = 0 → d.elems % 64 = 0 → d.padL % 64 = 0 → d.padR % 64 = 0 →
        ∃ s', writes (fun l => r.b.getLsbD (l % 64)) s'
          ∧ ∀ w, lo ≤ 64 * w → 64 * w < hi →
            tgetD (s'.cell (bankCell d.d)).bankFull false (16 * bankRow d.d k + w) = false)
      ∧ (r.kind = .transpose → d.dir = true → d.s.kind = 2 → d.p ≤ 32 → (∀ l, l < 1024 → valid l = true → srcOpen (em (elem l))) →
        ∃ s', writes (fun l => emBit (elem l) (d.p - 1 - x.plane)) s'
          ∧ ∀ l, l < 1024 → valid l = true → srcPoison (em (elem l)) = true → dirty s' k))
    -- rows of an element-major destination, of which each element has z bytes
    ∧ (∀ i a k, r.kind = .transpose → d.dir = false → d.s.kind = 2 → d.d.kind = 2 → 0 < d.p → d.p ≤ 32 →
      d.emStep (sliceStarts r d true) r.rowsDone = some (i, a, k) → dstOpen k →
      let m := 128 / z
      let lo := 8 * z * (a - d.padL - k * m)
      let hi := min (8 * z * (a + d.elems + d.padR - k * m)) 1024
      let e (l : Nat) : Nat := k * m + l / (8 * z)
      let valid (l : Nat) : Bool := decide (a ≤ e l) && decide (e l < a + d.elems)
      let elem (l : Nat) : Nat := d.s.off + i * d.s.stride + (e l - a)
      (∀ l p, l < 1024 → valid l = true → p < d.p → srcOpen (pmg (elem l) p)) →
      ∃ s', step s = .next s'
        ∧ WroteRow s s' rest hn qn r (bankCell d.d) (bankRow d.d k) lo hi (fun l =>
          valid l && decide (l % (8 * z) < d.p)
            && (srcRow (pmg (elem l) (d.p - 1 - l % (8 * z)))).getLsbD (elem l % 1024))
        ∧ ∀ l p, l < 1024 → valid l = true → p < d.p → srcPoison (pmg (elem l) p) = true → dirty s' k)
    -- a row that goes to a peer
    ∧ (∀ x, r.kind = .remote → d.s.kind = 2 →
      d.stepAt true planes (sliceStarts r d true) r.rowsDone = some x →
      (∀ e, x.start ≤ e → e < x.start + d.elems → e / 1024 = x.group →
        srcOpen (pmg (d.s.off + x.slice * d.s.stride + (e - x.start)) x.plane)) →
      ∃ s', step s = .next s' ∧ s'.turns = rest ∧ (∀ c, s'.cell c = s.cell c) ∧ s'.mem = s.mem ∧ s'.hostMem = s.hostMem
        ∧ s'.queue hn qn = (s.queue hn qn).map fun y =>
            if y.id = r.id then { y with rowsDone := y.rowsDone + 1, grant := none, sent := y.sent ++ [s.now] } else y)

end

namespace Sys2Proof.Claims

open Sys2Proof.Machine

/-! ## Passes and schedulers -/

/-- The running pass of the node that the turn names: it is the first, it has not failed, nothing holds its memory
interface, and a cancelled one has a row in progress (19:R291, 21:R309, R313, R318). -/
def RunningPass (s : State) (n : Node) (p : Pass) : Prop :=
  s.node s.choice.cell.toNat s.choice.ver s.choice.node = some n
  ∧ ¬ InterfaceHeld s s.choice.cell.toNat s.choice.ver s.choice.node ∧ n.passes.head? = some p
  ∧ p.failed = none ∧ p.ind = false ∧ (p.cancelled = none ∨ p.buf ≠ none ∨ p.got ≠ [])

/-- The node's running pass is changed. -/
def passIs (s : State) (f : Pass → Pass) : State :=
  s.updNode s.choice.cell.toNat s.choice.ver s.choice.node fun n =>
    { n with passes := match n.passes with | p :: r => f p :: r | [] => [] }

/-- The translation of a pass: its cell's own (21:R315). -/
def passVia (s : State) (p : Pass) : Via :=
  { edge := some s.choice.cell.toNat, hall := hallOf s.choice.cell.toNat, ctx := p.ctx
    by_ := some ⟨s.choice.cell.toNat, s.choice.ver, s.choice.node, p.ctx, p.iter, none⟩ }

/-- Row k of a pass in descriptor order. -/
def passStep (p : Pass) (dst : Bool) : Option RowStep :=
  let d := descOf p.desc
  d.stepAt dst (d.planes dst p.mask) ((List.range d.slices).map fun i => (i, d.start dst i)) p.rowsDone

end Sys2Proof.Claims

section

open Sys2Proof Sys2Proof.Machine Sys2Proof.Claims

/-- 21:R310, 05:R70: a loader pass reads its next row in descriptor order and sends it on out0 as sixteen PLANE tokens of its
plane index and segment, with the pass's tag and the row's poison; elements outside the slice are zero. Without space
the rest of the row waits. -/
def Sys2Proof.Claims.LoaderPasses : Prop :=
  ∀ (s s1 : State) (n : Node) (p : Pass) (y : RowStep) (row : Row) (poison : Bool), RunningPass s n p → n.role = .loader →
    passStep p false = some y → p.buf = none →
    let d := descOf p.desc
    let here := s.choice.cell.toNat
    s.rowIn (passVia s p) (d.s.loc (d.stepRow false y)) = .ok s1 (row, poison) →
    let lo := max y.start (1024 * y.group) - 1024 * y.group
    let hi := min (y.start + d.elems) (1024 * (y.group + 1)) - 1024 * y.group
    let out := row &&& BitVec.ofNat 1024 ((2 ^ (hi - lo) - 1) * 2 ^ lo)
    let tok (dst : Nat) (tag : BitVec 8) (sc : Scope) (k : Nat) : Packet := ⟨here, dst, .token
      { kind := 1, dst := BitVec.ofNat 18 dst, poison := poison || p.taint, ver := s.choice.ver, rtag := tag, ctx := p.ctx
        iter := p.iter, scope := sc, pred := .none, aux := BitVec.ofNat 9 (y.plane * 16 + k)
        payload := BitVec.ofNat 64 (out.toNat / 2 ^ (64 * k)) } (some ⟨here, s.choice.ver, s.choice.node, 0⟩)⟩
    (∀ e dst tag, n.outputs[0]? = some (some e) → e.dest = .internal dst tag → e.ringTokens = [] →
      (s.cell here).prom = none → s.hostPending here e.scope = false →
      (16 ≤ e.credits →
        ∃ s' : State, exec .loaderPass s = .next s' ∧ s'.net = s1.net ++ (List.range 16).map (tok dst tag e.scope)
          ∧ ∃ n' p', s'.node here s.choice.ver s.choice.node = some n' ∧ n'.passes.head? = some p'
            ∧ p'.rowsDone = p.rowsDone + 1 ∧ p'.buf = none)
      ∧ (e.credits < 16 → e.ring = none →
        ∃ s' : State, exec .loaderPass s = .next s' ∧ s'.net = s1.net ++ (List.range e.credits).map (tok dst tag e.scope)
          ∧ ∃ n' p', s'.node here s.choice.ver s.choice.node = some n' ∧ n'.passes.head? = some p'
            ∧ p'.rowsDone = p.rowsDone ∧ p'.buf = some (out, poison || p.taint) ∧ (0 < e.credits → p'.segs = e.credits)))

/-- 21:R311, R326: a storer pass takes the tokens of its stream at the heads of in0 and returns their credits. A row of
sixteen is left out where one is null, suppressed and counted where one was poisoned, and else written to its
place in descriptor order, pads zero. -/
def Sys2Proof.Claims.StorerPasses : Prop :=
  ∀ (s : State) (n : Node) (p : Pass) (y : RowStep), RunningPass s n p → n.role = .storer → passStep p true = some y →
    let d := descOf p.desc
    let here := s.choice.cell.toNat
    let ver := s.choice.ver
    let run (s' : State) : Prop := exec .storerPass s = .next s'
    (∀ r b t q, p.got.length < 15 → (s.version here ver).bindingsOf s.choice.node 0 = [(r, b)] → b.fifo = [t] →
      b.blocked = false → b.heldSince = none → t.kind.toNat ≠ 3 → t.free = false → b.source = some q →
      ∃ s' : State, run s' ∧ s'.net = s.net ++ [⟨here, q.cell, .credit q⟩]
        ∧ s'.binding here ver r = some { b with fifo := [], fullSince := none, fullRaised := false }
        ∧ ∃ n' p', s'.node here ver s.choice.node = some n' ∧ n'.passes.head? = some p'
          ∧ p' = { p with got := p.got ++ [(t.payload, t.poison, decide (t.pred = .null))] })
    ∧ (p.got.length = 16 →
      let done (s : State) : State := passIs s fun p => { p with got := [], rowsDone := p.rowsDone + 1 }
      ((∃ g ∈ p.got, g.2.2 = true) ∨ p.paddr = some none → run (done s))
      ∧ ((∀ g ∈ p.got, g.2.2 = false) → p.paddr = none → (∃ g ∈ p.got, g.2.1 = true) →
        ∃ s', run s' ∧ s'.mem = s.mem ∧ ∃ n' p', s'.node here ver s.choice.node = some n' ∧ n'.passes.head? = some p'
          ∧ p'.suppressed = p.suppressed + 1 ∧ p'.rowsDone = p.rowsDone + 1 ∧ p'.got = [])
      ∧ ((∀ g ∈ p.got, g.2.2 = false ∧ g.2.1 = false) → p.paddr = none →
        let row : Row := BitVec.ofNat 1024 (p.got.foldr (fun g a => g.1.toNat + 2 ^ 64 * a) 0)
        let va := max y.start (1024 * y.group) - 1024 * y.group
        let vb := min (y.start + d.elems) (1024 * (y.group + 1)) - 1024 * y.group
        let a := max (y.start - d.padL) (1024 * y.group) - 1024 * y.group
        let b := min (y.start + d.elems + d.padR) (1024 * (y.group + 1)) - 1024 * y.group
        let lanes : Row := if va < vb then BitVec.ofNat 1024 ((2 ^ (vb - va) - 1) * 2 ^ va) else 0
        (∀ s1 leaf, s.rowOut (passVia s p) (d.d.loc (d.stepRow true y)) (row &&& lanes) a b false .copy = .ok s1 leaf →
          run (done s1))
        ∧ (s.rowOut (passVia s p) (d.d.loc (d.stepRow true y)) (row &&& lanes) a b false .copy = .busy → run s)))

/-- 21:R309, R326, 19:R280: R291, 07:R139: the end of a pass that has done its rows, has failed, or has been cancelled with no
row in progress, once the host has acknowledged its rows: it leaves its node and its slot is DONE with the rows and the
cause of its failure or of what held it when it was cancelled; suppressed rows are recorded once, with the first address and their count. -/
def Sys2Proof.Claims.PassesEnd : Prop :=
  ∀ (s : State) (n : Node) (p : Pass) (rest : List Pass),
    let x := s.choice
    let here := x.cell.toNat
    s.node here x.ver x.node = some n → n.passes = p :: rest → n.stopAgent = false →
    (descOf p.desc).record = 0 → s.holdsContext here ((s.cell here).dslot p.slot).owner = true →
    (∀ m ∈ rest, m.slot ≠ p.slot) →
    (∀ v i m, s.node here v i = some m → (v = x.ver ∧ i = x.node) ∨ ∀ k ∈ m.passes, k.slot ≠ p.slot) →
    let owes : Prop := ∃ y ∈ s.hostStores, y.node = some ⟨here, x.ver, x.node, p.ctx, p.iter, none⟩ ∧ y.read = none
    let isOver : Prop := p.failed ≠ none ∨ (p.cancelled ≠ none ∧ p.buf = none ∧ p.got = [])
      ∨ (p.ind = false ∧ passStep p (decide (n.role = .storer)) = none)
    (isOver → owes → exec .passComplete s = .next s)
    ∧ (isOver → ¬ owes →
      let recorded := if p.suppressed = 0 then s
        else s.poisonSink ⟨here, x.ver, x.node, p.ctx, p.iter, none⟩ p.suppressedAddr p.suppressed 0 p.suppressedPhys
          (some p.suppressedAt)
      ∃ s', exec .passComplete s = .next s'
        ∧ (∃ n', s'.node here x.ver x.node = some n' ∧ n'.passes = rest)
        ∧ ((s'.cell here).dslot p.slot).state = .done
        ∧ (let w := ((s'.cell here).dslot p.slot).record.toNat
           w / 2 ^ 120 = (if p.failed ≠ none then 3 else if p.cancelled ≠ none then 2 else 1)
           ∧ w / 2 ^ 112 % 2 ^ 8 = (p.failed.or p.cancelled).getD 0 % 256
           ∧ w / 2 ^ 64 % 2 ^ 32 = p.rowsDone % 2 ^ 32 ∧ w % 2 ^ 64 = s.now % 2 ^ 64)
        ∧ s'.cp = recorded.cp ∧ s'.mem = recorded.mem)
    ∧ (p.ind = false → ¬ isOver → (∀ m ∈ rest, m.cancelled = none) → exec .passComplete s = .next s)

/-- 25:R366, R367, 26:R373, 19:R288, R289: a remote put to a pair that the context has admitted writes its lanes of the row at its
address; a remote signal adds its amount to the word; one that is not admitted, or whose address does not translate for
writing, or that comes after a fatal entry, when the DRAM refreshes itself (27:R385), changes nothing here. -/
def Sys2Proof.Claims.PeersWrite : Prop :=
  ∀ (s : State),
    let x := s.choice
    let admitted : Prop := (s.ctx x.ctx).live = true ∧ (x.peer.toNat, x.pctx.toNat) ∈ (s.ctx x.ctx).admissions
    (s.cp.fatal = false → admitted → ∀ pa, translateNow s x.ctx x.addr.toNat .copy true = .pa pa →
      (x.offset < x.amount.toNat →
        exec .remotePutArrival s = .next (s.patchRow pa x.row x.offset (min 1024 x.amount.toNat) x.poison))
      ∧ (x.amount.toNat ≤ x.offset → exec .remotePutArrival s = .next s))
    ∧ (s.cp.fatal = false → admitted → ∀ pa, x.addr.toNat % 8 = 0 → translateNow s x.ctx x.addr.toNat .atomic true = .pa pa →
      exec .remoteSignalArrival s = .next (s.writeHome pa 8 ((s.readHome pa 8 + x.amount.toNat) % 2 ^ 64)))
    ∧ ((s.cp.fatal = true ∨ ¬ admitted ∨ ∀ pa, translateNow s x.ctx x.addr.toNat .copy true ≠ .pa pa) → exec .remotePutArrival s = .next s)
    ∧ ((s.cp.fatal = true ∨ ¬ admitted ∨ x.addr.toNat % 8 ≠ 0 ∨ ∀ pa, translateNow s x.ctx x.addr.toNat .atomic true ≠ .pa pa) →
      exec .remoteSignalArrival s = .next s)

end

namespace Sys2Proof.Claims

open Sys2Proof.Machine

/-- A journal entry has ended with a status (25:R363, 27:R386). -/
def EntryEnds (s s' : State) (seq status : Nat) : Prop :=
  ∀ e, s.entrySeq seq = some e → s'.entrySeq seq = some
    { e with state := if status = 0 then 2 else 3, status := status, done := s.now % 2 ^ 64 }

/-- The candidates of a hall (23:R337). -/
def candidatesOf (s : State) (h : Nat) : List (Nat × CfgRt) :=
  s.cfgs.filter fun y => decide (y.2.home = h) && s.candidate y.2 && (s.ctx (BitVec.ofNat 10 (y.1 / 65536))).live

/-- A decision of the hall's scheduler is due: one that an event has asked for, or 65,536 cycles after the last while a
candidate waits; not while its agent switches firmware (23:R337, 25:R371). -/
def DecisionDue (s : State) (h : Nat) : Prop :=
  (s.hall h).switching = false
  ∧ (0 < (s.hall h).due ∨ ((∃ y ∈ s.cfgs, y.2.home = h ∧ s.candidate y.2 = true) ∧ (s.hall h).lastDecision + 65536 ≤ s.now))

/-- A saved cell of a configuration holds what its version held (23:R352). -/
def Saves (s : State) (cell : Nat) (ver : Bool) (u : Saved) : Prop :=
  u.cell = cell ∧ u.nodes = (s.version cell ver).nodes
  ∧ u.store = (s.cell cell).store.filter (fun e => decide (e.ver = ver))
  ∧ u.readyFirings = (s.cell cell).readyFirings.filter (fun f => decide (f.ver = ver))
  ∧ (∀ i t, (i, t) ∈ (s.cell cell).tasks → t.ver = ver → ∃ t', (i, t') ∈ u.tasks ∧ t' = { t with
      wait := t'.wait, waitAt := none, grant := none })

/-- The version is EMPTY, with its epoch open, and holds no task, entry or firing (05:R81, 23:R350). -/
def GivenUp (s : State) (cell : Nat) (ver : Bool) : Prop :=
  (s.version cell ver).state = .empty ∧ (s.version cell ver).epochOpen = true
  ∧ (∀ y ∈ (s.cell cell).tasks, y.2.ver ≠ ver) ∧ (∀ e ∈ (s.cell cell).store, e.ver ≠ ver)
  ∧ (∀ f ∈ (s.cell cell).readyFirings, f.ver ≠ ver)

end Sys2Proof.Claims

section

open Sys2Proof Sys2Proof.Machine Sys2Proof.Claims

/-- 05:R81, R86, R96, 23:R337 to R339: a decision that is not due changes nothing. One that finds a single candidate installs it
where it fits: its versions are LOADING and its cells will report; where it does not fit, the candidate's count rises,
and one whose count was 14 before it rises to 15 is reserved (details of decisions: log entry 22, DEDUCED). An epoch closes when every token resolved against the old placement has arrived and no
hall's copy of the placement table names the version; its hall then makes a decision. -/
def Sys2Proof.Claims.SchedulerDecides : Prop :=
  ∀ (s : State),
    let x := s.choice
    let h := x.hall.toNat
    (¬ DecisionDue s h → exec .schedulerTimer s = .next s)
    ∧ (DecisionDue s h → (s.hall h).reserved = none → (s.hall h).reserveQueue = [] →
      (∀ y ∈ s.cfgs, y.1 < 2 ^ 26) → ∀ k c, candidatesOf s h = [(k, c)] → tget s.cfgs k = some c →
      let ctx := BitVec.ofNat 10 (k / 65536)
      (∀ p v, s.fits x k c = some (p, v) → c.state = .unplaced →
        ∃ s' c', exec .schedulerTimer s = .next s' ∧ tget s'.cfgs k = some c' ∧ c'.state = .loading
          ∧ c'.loadPlaces = c.spec.placesOf p v ∧ c'.loadingCells = v.map (·.1)
          ∧ (∀ y ∈ v, (s'.version y.1 y.2).state = .loading ∧ (s'.version y.1 y.2).owner = some (ctx, k % 65536))
          ∧ (∀ y ∈ v, readyMsg c.home y.1 (k % 65536) ctx ∈ s'.net)
          ∧ (s'.hall h).lastDecision = s.now)
      ∧ (s.fits x k c = none →
        ∃ s', exec .schedulerTimer s = .next s' ∧ (s'.hall h).lastDecision = s.now ∧ (s'.hall h).due = (s.hall h).due - 1
          ∧ (∃ c', tget s'.cfgs k = some c' ∧ c'.count = min 15 (c.count + 1) ∧ c'.state = c.state)
          ∧ (s'.hall h).reserved = if c.count < 14 then none else some k))
    ∧ (let cell := x.cell.toNat
       let v := s.version cell x.ver
       let named : Prop := ∃ o c, v.owner = some o ∧ s.cfg o.1 o.2 = some c
         ∧ ∃ a < 8, ∃ p ∈ c.copy a, p.cell = cell ∧ p.ver = x.ver
       let on : Prop := ∃ p ∈ s.net, p.toVersion cell v x.ver = true
       let closed := s.updVersion cell x.ver fun v => { v with epochOpen := false }
       let due (s : State) : State := s.updHall (hallOf cell) fun y => { y with due := y.due + 1 }
       (v.state = .empty → v.epochOpen = true → ¬ on → ¬ named →
         (v.owner = none → exec .epochClose s = .next ((due closed).makeDecision (hallOf cell) x))
         ∧ (∀ o, v.owner = some o →
           exec .epochClose s = .next ((due (closed.deliverWaiting o.1 o.2)).makeDecision (hallOf cell) x)))
       ∧ ((v.state ≠ .empty ∨ v.epochOpen = false ∨ on ∨ named) → exec .epochClose s = .next s))

/-- 23:R347, R348, R350 to R353, 24:R357: the save of a stopped configuration's cell: what the version holds goes into the saved
state and the version is EMPTY; with the last cell the configuration is SAVED. At the deadline issue stops on every cell with a
node that has not halted, and the configuration is SCANNING; scan-out waits for the cell's work in flight and then saves
it. What a saved cell holds and the operations that its save waits for are DEDUCED (log entries 16, 20). A configuration that has held an access for the context's threshold is swapped out. -/
def Sys2Proof.Claims.SavesAndDeadlines : Prop :=
  ∀ (s : State),
    let x := s.choice
    let cell := x.cell.toNat
    let c := s.cell cell
    let idle : Prop := c.prom = none ∧ c.promWaiting = [] ∧ c.flights = [] ∧ s.bankWritten cell = false
    let owed (ver : Bool) : Prop := ∃ o ∈ c.ops, o.deferred = false ∧ ∃ t, tget c.tasks o.slot = some t ∧ t.ver = ver
    let save (i : Instr) (ctx : BitVec 10) (k : Nat) (g : CfgRt) (p : Place) : Prop :=
      ∃ s' g' u, exec i s = .next s' ∧ s'.cfg ctx k = some g' ∧ u ∈ g'.saved ∧ Saves s cell p.ver u ∧ GivenUp s' cell p.ver
        ∧ (∀ v ∈ g'.saved, v.cell ≠ cell → ∃ w ∈ g.saved, w.cell = v.cell ∧ w.nodes = v.nodes ∧ w.tasks = v.tasks)
        ∧ ((∀ d ∈ g.savingCells ++ g.scanCells, d = cell) → (g.state = .saving ∨ g.state = .scanning) →
          g'.state = .saved ∧ ∀ q ∈ g'.places, q.cell ≠ cell)
        ∧ ((∃ d ∈ g.savingCells, d ≠ cell) → (∀ d ∈ g.scanCells, d = cell) → (g.state = .saving ∨ g.state = .scanning) →
          g'.state = .saving)
    (∀ ctx k g p l, s.savers cell false = (ctx, k, g) :: l → s.cfg ctx k = some g →
      g.places.find? (fun p => decide (p.cell = cell)) = some p →
      (idle → s.waveOwed cell p.ver = false → ¬ owed p.ver → save .cellSave ctx k g p)
      ∧ ((s.bankWritten cell = true ∨ s.waveOwed cell p.ver = true ∨ owed p.ver ∨ ∃ f ∈ c.flights, s.now < f.until_) →
        exec .cellSave s = .next s))
    ∧ (∀ ctx k g p, s.savers cell true = [(ctx, k, g)] → s.cfg ctx k = some g →
      g.places.find? (fun p => decide (p.cell = cell)) = some p → c.issueStopped = true →
      (idle → c.regionOp = none → (∀ o ∈ c.ops, o.deferred = true) → s.waveOwed cell p.ver = false →
        save .scanComplete ctx k g p)
      ∧ ((s.bankWritten cell = true ∨ c.regionOp ≠ none ∨ (∃ o ∈ c.ops, o.deferred = false) ∨ s.waveOwed cell p.ver = true ∨ ∃ f ∈ c.flights, s.now < f.until_) →
        exec .scanComplete s = .next s))
    ∧ (c.issueStopped = false → exec .scanComplete s = .next s)
    ∧ (∀ g, s.drainedSet x.ctx x.cfg = [(x.cfg, g)] → s.cfg x.ctx x.cfg = some g → g.state = .draining →
      let busy (d : Nat) : Prop := ∃ p ∈ g.places, p.cell = d ∧ ∃ n, s.node p.cell p.ver p.node = some n ∧ n.halted = false
      (s.now < g.deadline → exec .drainDeadline s = .next s)
      ∧ (g.deadline ≤ s.now → (∃ p ∈ g.places, busy p.cell) →
        ∃ s' g', exec .drainDeadline s = .next s' ∧ s'.cfg x.ctx x.cfg = some g' ∧ g'.state = .scanning
          ∧ (∀ d, d ∈ g'.scanCells ↔ busy d) ∧ (∀ d, d ∈ g'.savingCells ↔ (∃ p ∈ g.places, p.cell = d) ∧ ¬ busy d)
          ∧ (∀ d, busy d → (s'.cell d).issueStopped = true)
          ∧ ∀ d, ¬ busy d → (s'.cell d).issueStopped = (s.cell d).issueStopped))
    ∧ (∀ g, s.cfg x.ctx x.cfg = some g →
      let hold := (s.ctx x.ctx).hold
      let old : Prop := ∃ p ∈ g.places, ∃ n a, s.node p.cell p.ver p.node = some n ∧ n.heldSince = some a ∧ a + hold ≤ s.now
      ((g.state = .ready ∨ g.state = .live) → old →
        exec .holdThreshold s = .next (s.updCfg x.ctx x.cfg fun c =>
          { c with state := .draining, bySwap := true, byHold := true, resumed := false, deadline := s.now + 125000 }))
      ∧ (g.state ≠ .ready → g.state ≠ .live → exec .holdThreshold s = .next s)
      ∧ (s.now < hold → exec .holdThreshold s = .next s))

/-- 05:R74, R77, R87, 23:R334, R340: a context whose configurations have ended exits: nothing of it stays on the cells, in the
meridian queues or at the capture ports, and its LAUNCH is complete (its entry, while the ring has not come round). Its id returns to the pool 1,250,000 cycles later at
the earliest, and not before the links are quiet. -/
def Sys2Proof.Claims.ContextsEnd : Prop :=
  ∀ (s : State),
    let ctx := s.choice.ctx
    let x := s.ctx ctx
    (x.live = true → (∀ y ∈ s.cfgs, y.1 / 65536 = ctx.toNat → y.2.state = .exited) → x.stopSeqs = [] → x.exitSeqs = [] →
      x.launch < s.cp.nextSeq →
      ∃ s', exec .contextExit s = .next s'
        ∧ (s'.ctx ctx).live = false ∧ (s'.ctx ctx).exitedAt = some s.now ∧ (s'.ctx ctx).admissions = []
        ∧ (∀ c v i, (s'.version c v).owner = some (ctx, i) → (s'.version c v).state = .empty)
        ∧ (∀ c, ∀ y ∈ (s'.cell c).bars, y.2.owner ≠ some ctx)
        ∧ (∀ h, (∀ e ∈ (s'.hall h).mq, e.ctx ≠ ctx) ∧ (∀ e ∈ (s'.hall h).mqPops, e.ctx ≠ ctx))
        ∧ (∀ k, ∀ y, (s'.port k).capture = some y → y.1 ≠ ctx)
        ∧ ∀ e, s.entrySeq x.launch = some e → s'.cp.nextSeq < x.launch + journalSize →
          ∃ e', s'.entrySeq x.launch = some e' ∧ e'.state = 2 ∧ e'.status = 0 ∧ e'.done = s.now % 2 ^ 64 ∧ e'.code = e.code)
    ∧ ((x.live = false ∨ ∃ y ∈ s.cfgs, y.1 / 65536 = ctx.toNat ∧ y.2.state ≠ .exited) → exec .contextExit s = .next s)
    ∧ (∀ a, x.exitedAt = some a →
      (s.now < a + 1250000 ∨ s.idQuiet ctx = false → exec .contextIdReissue s = .next s)
      ∧ (a + 1250000 ≤ s.now → s.idQuiet ctx = true → s.cp.pending = [] →
        ∃ s', exec .contextIdReissue s = .next s' ∧ tget s'.ctxs ctx.toNat = none
          ∧ (∀ k, k ≠ ctx.toNat → tget s'.ctxs k = tget s.ctxs k)
          ∧ (∀ k, tget s'.cfgs k = if k / 65536 = ctx.toNat then none else tget s.cfgs k)))

/-- 25:R358, R361, R371; 27:R384, R387; 07:R139: the host's acknowledgement ends the access, and a READ with its data. When every
agent has switched, an activation is complete: the other slot runs, the fused minimum is at least its version, every hall
writes FIRMWARE, and the fault records that the CP queued meanwhile are taken; after 50 ms it fails with 0x0307 and the old slot stays. Either way acceptance resumes. -/
def Sys2Proof.Claims.ActivationsAndAcknowledgements : Prop :=
  ∀ (s : State),
    (∀ y, s.hostStores[s.choice.n]? = some y →
      let a : State := { s with hostStores := ldel s.hostStores s.choice.n, cp := { s.cp with replayRun := 0 } }
      (y.read = none → exec .hostAcknowledgement s = .next a)
      ∧ (∀ seq ctx status, y.read = some (seq, ctx, status) → s.cp.pending = [] →
        exec .hostAcknowledgement s = .next (a.finishSeq seq ctx status)))
    ∧ (∀ seq, s.cp.activation = some seq → s.cp.pending = [] → s.cp.waiting = [] → (∀ q ∈ s.cp.queued, q.1 ≠ some seq) →
      let late : Prop := ∃ since, s.cp.paused = some since ∧ since + 62500000 < s.now
      let version := (if s.cp.running then s.cp.fw0 else s.cp.fw1).secver
      (late ∨ (∃ h < 8, (s.hall h).switched = false) → exec .activationComplete s = .next s)
      ∧ (¬ late → (∀ h < 8, (s.hall h).switched = true) →
        ∃ s', exec .activationComplete s = .next s' ∧ s'.cp.running = !s.cp.running
          ∧ s'.cp.fuseMin = max s.cp.fuseMin version ∧ s'.cp.activation = none ∧ s'.cp.paused = none
          ∧ s'.cp.records = s.cp.records ++ s.cp.queued.map (·.2) ∧ EntryEnds s s' seq 0
          ∧ ∀ h < 8, (s.hall h).frozen = false →
            (s'.hall h).chronoHead = ((s.hall h).chronoHead + 1) % 2 ^ 32
            ∧ ∃ w : BitVec 256, tget (s'.hall h).chrono ((s.hall h).chronoHead % 4096) = some w ∧ w.toNat / 2 ^ 28 % 256 = 0x11
              ∧ w.toNat / 2 ^ 192 = s.now % 2 ^ 64 ∧ w.toNat / 2 ^ 96 % 2 ^ 32 = version % 2 ^ 32)
      ∧ (∀ since, s.cp.paused = some since →
        (s.now < since + 62500000 → exec .fwactivateTimeout s = .next s)
        ∧ (since + 62500000 ≤ s.now →
          ∃ s', exec .fwactivateTimeout s = .next s' ∧ s'.cp.running = s.cp.running ∧ s'.cp.fuseMin = s.cp.fuseMin
            ∧ s'.cp.activation = none ∧ s'.cp.paused = none ∧ EntryEnds s s' seq 0x0307)))

end

namespace Sys2Proof.Claims

open Sys2Proof.Machine

/-- Every hall has written FATAL with the code and frozen its chronograph, and the module's issue and acceptance have
stopped (27:R385). -/
def Stopped (s s' : State) (code : Nat) : Prop :=
  s'.cp.fatal = true ∧ ∀ h < 8, (s'.hall h).frozen = true ∧ (s'.hall h).lastFatal = BitVec.ofNat 8 code
    ∧ ((s.hall h).frozen = false →
      ∃ w : BitVec 256, tget (s'.hall h).chrono ((s.hall h).chronoHead % 4096) = some w ∧ w.toNat / 2 ^ 28 % 256 = 0x0F
        ∧ w.toNat / 2 ^ 96 % 256 = code ∧ w.toNat / 2 ^ 192 = s.now % 2 ^ 64
        ∧ (s'.hall h).chronoHead = ((s.hall h).chronoHead + 1) % 2 ^ 32)

/-- A node fault of LINK, with the port, the peer and the reason as its information (25:R366). -/
def linkFault (s : State) (n : NodeRef) (addr port peer reason : Nat) : State :=
  s.nodeFault n 0x22 addr (port % 256 + peer % 256 * 256 + reason * 65536)

/-- A hall's array log has a new entry: kind 0 corrected or 1 uncorrectable, finder, syndrome, sector (27:R383). -/
def ArrayLogged (s s' : State) (h kind finder syndrome offset : Nat) : Prop :=
  ∃ w : BitVec 128, tget (s'.hall h).ael ((s.hall h).aelHead % 1024) = some w ∧ w.toNat / 2 ^ 64 = s.now % 2 ^ 64
    ∧ w.toNat / 2 ^ 62 % 4 = kind ∧ w.toNat / 2 ^ 60 % 4 = finder ∧ w.toNat / 2 ^ 50 % 1024 = syndrome
    ∧ w.toNat / 2 ^ 5 % 2 ^ 31 = offset / 32 % 2 ^ 31
    ∧ (s'.hall h).aelHead = ((s.hall h).aelHead + 1) % 2 ^ 32
    ∧ (s'.hall h).aelCorrected = (if kind = 0 then ((s.hall h).aelCorrected + 1) % 2 ^ 32 else (s.hall h).aelCorrected)
    ∧ (s'.hall h).aelUncorrectable = (if kind = 0 then (s.hall h).aelUncorrectable else ((s.hall h).aelUncorrectable + 1) % 2 ^ 32)

/-- A hall's bus log has a new entry: outcome 0 RETRIED, 1 FOLDED, 2 OFFLINE, direction, retries, failing group and beat,
block (27:R383). -/
def BusLogged (s s' : State) (h outcome : Nat) (write : Bool) (retries group beat block : Nat) : Prop :=
  ∃ w : BitVec 128, tget (s'.hall h).bel ((s.hall h).belHead % 1024) = some w ∧ w.toNat / 2 ^ 64 = s.now % 2 ^ 64
    ∧ w.toNat / 2 ^ 62 % 4 = outcome ∧ w.toNat / 2 ^ 61 % 2 = write.toNat ∧ w.toNat / 2 ^ 59 % 4 = retries % 4
    ∧ w.toNat / 2 ^ 53 % 64 = group % 64 ∧ w.toNat / 2 ^ 48 % 32 = beat % 32 ∧ w.toNat / 2 ^ 12 % 2 ^ 24 = block % 2 ^ 24
    ∧ (s'.hall h).belHead = ((s.hall h).belHead + 1) % 2 ^ 32

/-- The transfer of a channel that ends in a turn: the one that it repeats, or else the next. A read takes the lines of one block
that have missed within 16 cycles of the channel's oldest miss, once these are over; a write those that the turn names of
the block's lines that are dirty in the L2; both in ascending order, a beat each (27:R380, 28:R394). -/
def NextTransfer (s : State) (v : VbusTransfer) (y : Xfer) : Prop :=
  let c := s.channel v.hall v.channel
  y.write = v.write ∧ y.block = v.block
  ∧ (c.xfer = some y
    ∨ (c.xfer = none ∧ y.failed = 0 ∧ y.beat = 0 ∧ y.group = 0 ∧ y.lines ≠ [] ∧ y.lines.Pairwise (· < ·)
      ∧ (v.write = false → ∃ l t m, c.misses = (l, t) :: m ∧ t + 16 < s.now ∧ l / 16 % 2 ^ 24 = v.block
        ∧ ∀ k, k ∈ y.lines ↔ ∃ a, (k, a) ∈ c.misses ∧ k / 16 = l / 16 ∧ a ≤ t + 16)
      ∧ (v.write = true → ∀ k, k ∈ y.lines ↔
        (∃ i ∈ v.lines, k = v.hall * 2 ^ 28 + v.block * 16 + i % 16) ∧ tget (s.hall v.hall).home k = some true)))

/-- Beat and parity group of the failures that an attempt can have: a line takes a beat of 64 groups, over a folded channel two
beats of the groups of the half that is kept (27:R381, 28:R394). -/
def failuresOf (c : Channel) (v : VbusTransfer) (y : Xfer) : List (Nat × Nat) :=
  v.fails.filter fun f =>
    match c.folded with
    | none => decide (f.1 < y.lines.length ∧ f.2 < 64)
    | some upper => decide (f.1 < 2 * y.lines.length ∧ f.2 < 64) && (decide (32 ≤ f.2) == upper)

/-- Nothing has been added to a hall's bus log. -/
def BusQuiet (s s' : State) (h : Nat) : Prop := (s'.hall h).bel = (s.hall h).bel ∧ (s'.hall h).belHead = (s.hall h).belHead

end Sys2Proof.Claims

section

open Sys2Proof Sys2Proof.Machine Sys2Proof.Claims

/-- 25:R358, 27:R375, R385: an error of the host link or of a fabric hop is replayed; the eighth in a row of the link, and the
sixteenth of a hop, retrains. A hop that cannot retrain is fatal; a link that cannot fails every access to host memory
under way with LINK, which is said here of stores; that these are over then is the model's choice (log entry 27). -/
def Sys2Proof.Claims.ReplaysAndRetrains : Prop :=
  ∀ (s : State),
    let x := s.choice
    let counted : Cp := { s.cp with replays := (s.cp.replays + 1) % 2 ^ 32 }
    (s.cp.replayRun < 7 →
      exec .flitCrcError s = .next { s with cp := { counted with replayRun := s.cp.replayRun + 1 } })
    ∧ (7 ≤ s.cp.replayRun →
      let r : State := { s with cp := { counted with replayRun := 0, retrains := (s.cp.retrains + 1) % 2 ^ 32 } }
      (x.ok = true → exec .flitCrcError s = .next r)
      ∧ (x.ok = false → s.hostLoads = [] → (∀ y ∈ s.hostStores, ∃ n, y.node = some n ∧ y.read = none) →
        exec .flitCrcError s = .next (s.hostStores.foldl
          (fun s y => match y.node with | some n => linkFault s n y.addr 0x40 0 2 | none => s) { r with hostStores := [] })))
    ∧ (let key := x.src * 2 ^ 18 + x.dst
       let run := if x.k = 0 then 1 else tgetD s.hops 0 key + 1
       (run < 16 → exec .fabricHopCrcError s = .next { s with hops := tset s.hops 0 key run })
       ∧ (16 ≤ run → x.ok = true → exec .fabricHopCrcError s = .next { s with hops := tdel s.hops key })
       ∧ (16 ≤ run → x.ok = false → s.cp.fatal = false →
         ∃ s', exec .fabricHopCrcError s = .next s' ∧ Stopped s s' 1))

/-- 25:R368 to R371, 26:R374: a frame of a capture port becomes its tokens: two of stamp, length, port and sequence number, and
its bytes eight at a time; a bad one counts as an error, one without space as a drop, the first of a run with a
chronograph entry. The oldest frame is delivered token by token, as far as its port takes them. An event frame
goes to firmware with its stamp, or is held with it during a pause, up to 256. The stamp is the PHC less the port's
constant delay, a free value of Config (DESIGN CHOICE, log entry 24). -/
def Sys2Proof.Claims.CaptureAndStamps : Prop :=
  ∀ (s : State),
    let x := s.choice
    let k := x.port.toNat
    let p := s.port k
    let n := x.bytes.length
    let set (f : Port → Port) : State := s.updPort k f
    let held := (p.buffer.map (·.1)).foldl (· + ·) 0
    let ns := s.phcS.toNat * 1000000000 + s.phcNs - Config.portDelay k
    let stamp : Nat × Nat := (ns / 1000000000, ns % 1000000000)
    (p.up = false ∨ p.enabled = false ∨ p.capture = none → exec .captureFrame s = .next s)
    ∧ (p.up = true → p.enabled = true → p.capture ≠ none →
      (x.ok = false ∨ n < 64 ∨ 9216 < n → exec .captureFrame s = .next (set fun p => { p with errors := p.errors + 1 }))
      ∧ (x.ok = true → 64 ≤ n → n ≤ 9216 → held + n ≤ 67108864 →
        exec .captureFrame s = .next (set fun p =>
          { p with
            seq := p.seq + 1, dropping := false
            buffer := p.buffer ++ [(n,
              [((0x100 : BitVec 9), (BitVec.ofNat 64 (stamp.1 % 2 ^ 48 * 2 ^ 16 + n % 2 ^ 16) : Word)),
               (0x101, BitVec.ofNat 64 (stamp.2 % 2 ^ 32 * 2 ^ 32 + k % 256 * 2 ^ 24 + p.seq.toNat))]
              ++ (List.range ((n + 7) / 8)).map fun i => (0, BitVec.ofNat 64 (bytesAt x.bytes (8 * i) 8)))] }))
      ∧ (x.ok = true → 64 ≤ n → n ≤ 9216 → 67108864 < held + n →
        ∃ s', exec .captureFrame s = .next s'
          ∧ s'.port k = { p with seq := p.seq + 1, drops := p.drops + 1, dropping := true }
          ∧ (p.dropping = true → s' = set fun p => { p with seq := p.seq + 1, drops := p.drops + 1, dropping := true })
          ∧ (p.dropping = false → (s.hall (k / 4)).frozen = false →
            ∃ w : BitVec 256, tget (s'.hall (k / 4)).chrono ((s.hall (k / 4)).chronoHead % 4096) = some w
              ∧ w.toNat / 2 ^ 28 % 256 = 0x0C ∧ w.toNat / 2 ^ 104 % 2 ^ 24 = p.seq.toNat ∧ w.toNat / 2 ^ 96 % 256 = k)))
    ∧ (∀ ctx gid q m l r i c, p.capture = some (ctx, gid, q) → p.buffer = (m, l) :: r →
      (s.ctxCfgs ctx).find? (fun c => c.2.spec.nodes.any fun y => decide (y.gid = gid)) = some (i, c) → s.cfg ctx i = some c →
      (s.hall (k / 4)).switching = false → (∀ y ∈ s.ports, y.1 ≠ k → y.2.capture = p.capture → y.2.buffer = []) →
      let cap := match c.spec.vest with | none => 4096 | some b => max 1 ((b + 4095) / 4096) * 256
      (s.resolve (k / 4) ctx i gid = none → c.vest.length + l.length ≤ cap →
        ∃ s' c', exec .captureDelivery s = .next s' ∧ (s'.port k).buffer = r ∧ s'.cfg ctx i = some c'
          ∧ c'.vest = c.vest ++ l.map fun t => (gid, q, { ctx := ctx, aux := t.1, payload := t.2 }, s.now))
      ∧ (cap ≤ c.vest.length → l ≠ [] →
        ∃ s', exec .captureDelivery s = .next s' ∧ (s'.port k).buffer = (m, l) :: r ∧ s'.cfgs = s.cfgs ∧ s'.net = s.net))
    ∧ ((p.up = false ∨ p.ptp = false) → exec .ptpEventFrame s = .next s)
    ∧ (p.up = true → p.ptp = true →
      (s.cp.paused = none → exec .ptpEventFrame s = .next (set fun p => { p with events := p.events ++ [(stamp.1, stamp.2, x.bytes)] }))
      ∧ (s.cp.paused ≠ none → p.held.length < 256 →
        exec .ptpEventFrame s = .next (set fun p => { p with held := p.held ++ [(stamp.1, stamp.2, x.bytes)] }))
      ∧ (s.cp.paused ≠ none → 256 ≤ p.held.length →
        exec .ptpEventFrame s = .next (set fun p => { p with ptpDrops := p.ptpDrops + 1 })))

/-- 25:R365 to R367: traffic that is not the module's is discarded and counted. A packet that a peer has not acknowledged for
10 ms fails its request with LINK, reason 1, and the rows before it; when the last port that carries such traffic is down every
request to a peer fails so, reason 3, with the rows that the peer has acknowledged; a port that goes down while another is up
costs nothing. A port that is bound to raw capture carries none of it (25:R368). -/
def Sys2Proof.Claims.PeerLinksFail : Prop :=
  ∀ (s : State),
    let x := s.choice
    let k := x.port.toNat
    let p := s.port k
    let h := x.hall.toNat
    let q := x.eq.toNat
    let down := s.updPort k fun p => { p with up := false }
    (p.up = true → p.enabled = false → exec .uudPacket s = .next (s.updPort k fun p => { p with uud := p.uud + 1 }))
    ∧ (p.up = false ∨ p.enabled = true → exec .uudPacket s = .next s)
    ∧ (∀ r a, (s.queue h q).find? (fun r => decide (r.id = x.k)) = some r → r.sent[x.offset]? = some a →
      let carried : Prop := r.ord = true ∨ (p.up = true ∧ p.enabled = false)
      (s.now < a + 12500000 ∨ ¬ carried → exec .packetTimeout s = .next s)
      ∧ (a + 12500000 ≤ s.now → carried → Plain s q r →
        ∃ s', exec .packetTimeout s = .next s'
          ∧ RequestEnded s' h q r 3 0x22 (if r.kind = .sig then 0 else x.offset) s.now
          ∧ (s.cp.activation = none → ∃ rec, s'.cp.records = s.cp.records ++ [rec] ∧ rec.toNat / 2 ^ 88 % 256 = 0x22
            ∧ (r.ord = false → rec.toNat / 2 ^ 96 % 2 ^ 32 = k + r.b.toNat % 256 * 256 + 65536))))
    ∧ (let last : Prop := ∀ i < 32, (down.port i).up = false ∨ (down.port i).enabled = true
      (¬ last → exec .portDown s = .next down)
      ∧ (last → s.peerRequests = [] → exec .portDown s = .next down)
      ∧ (∀ r j z n, last → s.peerRequests = [(j, z, r)] → Plain s z r →
        (s.queue j z).find? (fun y => decide (y.id = r.id)) = some r →
        n = ((x.acked.find? fun y => decide (y.1 = r.id)).map (·.2)).getD 0 → n < r.sent.length →
        ∃ s', exec .portDown s = .next s' ∧ RequestEnded s' j z r 3 0x22 (if r.kind = .sig then 0 else n) s.now))

/-- 27:R377 to R383, R385, 28:R394, R395: the scrubber passes over a codeword that is poisoned or whose line is dirty in the L2;
one that is corrected is logged and owed a conditional write-back; one that is not is logged and its sector poisoned, and
one whose syndrome is the poison marker's only reads as poisoned. A write-back whose sector has been written since is
dropped; it waits while its channel retries. A transfer that fails at a beat and parity group that it has is retried before
every other; the fourth failure folds the channel, over which it is made again, or takes a folded one offline; a transfer
accepted after retries is logged, and a line that was read is in the L2. While the DRAM refreshes itself nothing of this
happens. -/
def Sys2Proof.Claims.MemoryIntegrity : Prop :=
  ∀ (s : State),
    let x := s.choice
    let h := x.hall.toNat
    let o := x.offset / 32 * 32
    let pa := h * 2 ^ 36 + o
    let sent : Prop := ∃ y, (s.channel h (o / 4096 % 16)).xfer = some y ∧ y.write = true ∧ pa / 256 ∈ y.lines
    let scrubs : Prop := s.cp.fatal = false ∧ o < 0xC00000000 ∧ s.sectorPoisoned pa = false
      ∧ tget (s.hall h).home (pa / 256) ≠ some true ∧ ¬ sent
    let syn := x.syndrome.toNat
    (¬ scrubs ∨ syn = 0 ∨ (syn = 0x3FF ∧ x.ok = true) → exec .patrolScrub s = .next s)
    ∧ (scrubs → x.ok = true → 1 ≤ syn → syn ≤ 0x3FE →
      ∃ s', exec .patrolScrub s = .next s' ∧ ArrayLogged s s' h 0 1 syn o
        ∧ (s'.hall h).writeBacks = (s.hall h).writeBacks ++ [{ sector := pa / 32, poison := false }] ∧ s'.mem = s.mem)
    ∧ (scrubs → x.ok = false → 1 ≤ syn → syn ≤ 0x3FE →
      ∃ s', exec .patrolScrub s = .next s' ∧ ArrayLogged s s' h 1 1 syn o
        ∧ (pa < 0xBFF000000 ∨ 0xC00000000 ≤ pa → s'.sectorPoisoned pa = true)
        ∧ ({ sector := pa / 32, poison := true } : WriteBack) ∈ ((s'.hall h).writeBacks.map fun w => { w with stale := false })
        ∧ ∀ a, a / 32 ≠ pa / 32 → (a < 0xBFF000000 ∨ 0xC00000000 ≤ a) → s'.readByte a = s.readByte a)
    ∧ (scrubs → x.ok = false → syn = 0x3FF →
      ∃ s', exec .patrolScrub s = .next s' ∧ s'.sectorPoisoned pa = true ∧ s'.halls = s.halls ∧ s'.cp = s.cp
        ∧ ∀ a, a / 32 ≠ pa / 32 → s'.readByte a = s.readByte a)
    ∧ (∀ w, (s.hall h).writeBacks[x.k]? = some w →
      let gone := s.updHall h fun y => { y with writeBacks := ldel y.writeBacks x.k }
      let waits : Prop := s.cp.fatal = true ∨ (s.channel h (w.sector * 32 / 4096 % 16)).xfer ≠ none
      (waits → exec .conditionalWriteBack s = .next s)
      ∧ (¬ waits → w.stale = true ∨ w.poison = false → exec .conditionalWriteBack s = .next gone)
      ∧ (¬ waits → w.stale = false → w.poison = true →
        exec .conditionalWriteBack s = .next (gone.setSectorPoison (w.sector * 32) true)))
    ∧ (let v := x.vbus
       let c := s.channel v.hall v.channel
       let good : Prop := v.hall < 8 ∧ v.channel < 16 ∧ v.block % 16 = v.channel ∧ v.block < 0xC00000
         ∧ s.cp.fatal = false ∧ c.offline = false
       let run (P : State → Prop) : Prop := ∃ s', exec .vbusTransferReceived s = .next s' ∧ P s'
       (¬ good ∨ (∀ y, ¬ NextTransfer s v y) → exec .vbusTransferReceived s = .next s)
       ∧ (∀ y, good → NextTransfer s v y →
         let kept : Channel :=
           { c with xfer := none, misses := if v.write then c.misses else c.misses.filter fun m => decide (m.1 ∉ y.lines) }
         (∀ b g r, failuresOf c v y = (b, g) :: r →
           let first := if y.failed = 0 then b else y.beat
           (y.failed < 3 → run fun s' => BusQuiet s s' v.hall ∧ s'.mem = s.mem
             ∧ s'.channel v.hall v.channel = { kept with xfer := some { y with failed := y.failed + 1, beat := first, group := g } })
           ∧ (3 ≤ y.failed → c.folded = none → run fun s' => BusLogged s s' v.hall 1 v.write 3 g first v.block
             ∧ s'.channel v.hall v.channel
               = { kept with folded := some (decide (g < 32)), xfer := some { y with failed := 0, beat := 0, group := 0 } })
           ∧ (3 ≤ y.failed → c.folded ≠ none → x.ok = false → run fun s' => BusLogged s s' v.hall 2 v.write 3 g first v.block
             ∧ (s'.channel v.hall v.channel).offline = true))
         ∧ (failuresOf c v y = [] → v.corrected = [] → v.uncorrectable = [] → run fun s' =>
           s'.channel v.hall v.channel = kept
           ∧ (y.failed = 0 → BusQuiet s s' v.hall)
           ∧ (0 < y.failed → BusLogged s s' v.hall 0 v.write y.failed y.group y.beat v.block)
           ∧ (∀ l, y.lines = [l] → v.write = false → tget (s.hall v.hall).home l = none →
             tget (s'.hall v.hall).home l = some false))))

/-- 27:R385, R393: a power window ends with the throttle level one up above the limit, one down below 95 % of it, three while a
sensor is hot; a reading of 105 °C forces level three, of 115 °C is fatal; so are a flow below 20 L/min, an inter-hall link
that is down, an agent's state that cannot be corrected and an agent's firmware that fails. What is fatal once changes
nothing more. -/
def Obligations.PowerHeatFatal : Prop :=
  ∀ (s : State),
    let x := s.choice
    let r := x.reading.toNat
    let fatal (i : Instr) (s : State) (t : State) (code : Nat) : Prop :=
      (s.cp.fatal = true → exec i s = .next t) ∧ (s.cp.fatal = false → ∃ s', exec i s = .next s' ∧ Stopped t s' code)
    let hot : Prop := ∃ y ∈ s.halls, 1680 ≤ y.2.temp.toNat
    (s.now < s.cp.windowEnd → exec .throttleWindow s = .next s)
    ∧ (s.cp.windowEnd ≤ s.now →
      ∃ s', exec .throttleWindow s = .next s' ∧ s'.cp.powerNow = x.reading ∧ s'.cp.windowEnd = s.cp.windowEnd + 2 ^ 20
        ∧ (hot → s'.cp.level = 3) ∧ (¬ hot → s.cp.powerLimit < r → s'.cp.level = min 3 (s.cp.level + 1))
        ∧ (¬ hot → r ≤ s.cp.powerLimit → r * 100 < s.cp.powerLimit * 95 → s'.cp.level = s.cp.level - 1)
        ∧ (¬ hot → r ≤ s.cp.powerLimit → s.cp.powerLimit * 95 ≤ r * 100 → s'.cp.level = s.cp.level)
        ∧ ∀ h < 8, (s'.hall h).power = BitVec.ofNat 16 (bytesAt x.bytes (2 * h) 2))
    ∧ (let t := s.updHall x.hall.toNat fun h => { h with temp := x.reading }
       let u : State := { t with cp := { t.cp with level := 3 } }
       (r < 1680 → exec .temperatureTrip s = .next t) ∧ (1680 ≤ r → r < 1840 → exec .temperatureTrip s = .next u)
       ∧ (1840 ≤ r → fatal .temperatureTrip s u 3))
    ∧ (let t : State := { s with cp := { s.cp with flow := x.reading, inlet := x.amount.truncate 16 } }
       (2000 ≤ r → exec .coolantFlowLoss s = .next t) ∧ (r < 2000 → fatal .coolantFlowLoss s t 4))
    ∧ fatal .interHallLinkDown s s 2 ∧ fatal .agentStateUncorrectable s s 5 ∧ fatal .hallAgentFirmwareFault s s 6

/-- 27:R389: cold reset. Step 1 takes the slot that runs, or the other where its image does not verify; with neither the module
stays at 0x81 with its halls off. An image verifies also in that its version is not below the fused minimum. Then memory reads zero, CYC and PHC count from
zero, no cell, context, object or packet is
left, the fused minimum, the slots and the attestation index stay, and channels that failed training are folded or
offline; the last entry of each hall's chronograph is that of the reset. At 0x81 no fabric port comes up. The module number and
the channels that failed are the turn's (DEDUCED, log entry 23); that no word has a presence bit set is the model's choice
(log entry 3). -/
def Sys2Proof.Claims.ColdReset : Prop :=
  ∀ (s : State),
    let x := s.choice
    let slot (k : Bool) : FwSlot := if k then s.cp.fw1 else s.cp.fw0
    let takes (k : Bool) : Prop := (slot k).verified = true ∧ s.cp.fuseMin ≤ (slot k).secver
    ∃ s', exec .coldReset s = .next s'
      ∧ s'.now = 0 ∧ s'.phcS = 0 ∧ s'.phcNs = 0 ∧ s'.mem = [] ∧ s'.memPoison = [] ∧ s'.memFull = [] ∧ s'.cells = []
      ∧ s'.net = [] ∧ s'.ctxs = [] ∧ s'.cfgs = [] ∧ s'.hostMem = s.hostMem
      ∧ s'.cp.journal = [] ∧ s'.cp.nextSeq = 1 ∧ s'.cp.objs = [] ∧ s'.cp.powerLimit = 4800 ∧ s'.cp.fatal = false
      ∧ s'.cp.paused = none ∧ s'.cp.fw0 = s.cp.fw0 ∧ s'.cp.fw1 = s.cp.fw1 ∧ s'.cp.fuseMin = s.cp.fuseMin
      ∧ s'.cp.attestIndex = s.cp.attestIndex ∧ s'.cp.moduleNum = x.peer
      ∧ (takes s.cp.running → s'.cp.running = s.cp.running ∧ s'.cp.bootStat = 6)
      ∧ (¬ takes s.cp.running → takes (!s.cp.running) →
        s'.cp.running = !s.cp.running ∧ s'.cp.bootStat = 6)
      ∧ (¬ takes s.cp.running → ¬ takes (!s.cp.running) →
        s'.cp.bootStat = 0x81 ∧ (∀ h < 8, (s'.hall h).enabled = false) ∧ ∀ k < 32, (s'.port k).up = false)
      ∧ (s'.cp.bootStat = 6 → s'.ports = [] ∧ ∀ h < 8, (s'.hall h).enabled = true
        ∧ (∃ w : BitVec 256, tget (s'.hall h).chrono (((s'.hall h).chronoHead + 4095) % 4096) = some w
          ∧ w.toNat / 2 ^ 28 % 256 = 0x10)
        ∧ ∀ k < 16,
        s'.channel h k =
          if (h, k) ∈ x.failBoth then { folded := some false, offline := true }
          else if (h, k) ∈ x.failOne then { folded := some false }
          else if (h, k + 16) ∈ x.failOne then { folded := some true } else {})

/-- 27:R390: warm reset. Contexts, placements and what is on its way are gone and the cells are as after reset; DRAM, the clocks,
objects, the journal, the logs and the chronographs stay, each hall with a new RESET entry; commands that were neither
complete nor failed have failed with 0x030A, in a COMPLETION entry where the ring has come round; the fatal condition and a
pause are over. Said of a CP at which no message waits and that has queued no fault record. That ACCSAT is cleared with the
cells is the model's choice (log entry 27), and so are reset values that R390 does not state (log entry 3). -/
def Sys2Proof.Claims.WarmReset : Prop :=
  ∀ (s : State), s.cp.waiting = [] → s.cp.queued = [] →
    ∃ s', exec .warmReset s = .next s'
      ∧ s'.cells = [] ∧ s'.net = [] ∧ s'.ctxs = [] ∧ s'.cfgs = [] ∧ s'.memDeferred = [] ∧ s'.memAnswered = []
      ∧ s'.now = s.now ∧ s'.phcS = s.phcS ∧ s'.phcNs = s.phcNs ∧ s'.rate = s.rate
      ∧ s'.cp.objs = s.cp.objs ∧ s'.cp.fatal = false ∧ s'.cp.paused = none
      ∧ s'.cp.activation = none ∧ s'.cp.powerLimit = 4800 ∧ s'.cp.fuseMin = s.cp.fuseMin
      ∧ (∀ a, (a < 0xBFF000000 ∨ 0xC00000000 ≤ a) → s'.readByte a = s.readByte a)
      ∧ (∀ h, (s'.hall h).ael = (s.hall h).ael ∧ (s'.hall h).bel = (s.hall h).bel
        ∧ (s'.hall h).lastFatal = (s.hall h).lastFatal ∧ (s'.hall h).frozen = (s.hall h).frozen)
      ∧ (tsorted s.cp.journal = true → (∀ y ∈ s.cp.live, (s.entrySeq y.1).isSome = true) →
        s'.cp.nextSeq = s.cp.nextSeq ∧ ∀ k e, tget s.cp.journal k = some e →
          tget s'.cp.journal k = some (if e.seq % 2 ^ 18 = k ∧ ∃ y ∈ s.cp.live, y.1 = e.seq then
            { e with state := 3, status := 0x030A, done := s.now % 2 ^ 64 } else e))
      ∧ (∀ q code ctx, s.cp.live = [(q, code, ctx)] → s.entrySeq q = none → s'.cp.nextSeq = s.cp.nextSeq + 1
        ∧ ∃ e, tget s'.cp.journal (s.cp.nextSeq % 2 ^ 18) = some e ∧ e.seq = s.cp.nextSeq ∧ e.code = 0x0080 ∧ e.ctx = ctx
          ∧ e.state = 3 ∧ e.status = 0x030A ∧ e.digest.toNat / 2 ^ 192 = q % 2 ^ 64)
      ∧ (s'.cp.bootStat = 6 → ∀ h < 8, (s.hall h).frozen = false →
        (s'.hall h).chronoHead = ((s.hall h).chronoHead + 1) % 2 ^ 32
        ∧ ∃ w : BitVec 256, tget (s'.hall h).chrono ((s.hall h).chronoHead % 4096) = some w
          ∧ w.toNat / 2 ^ 192 = s.now % 2 ^ 64)

end

namespace Sys2Proof.Claims

open Sys2Proof.Machine

/-- An instruction word of a class, an opcode and the values of its fields, each at its lowest bit (09:R144, R147). -/
def wordOf (cls op : Nat) (fs : List (Nat × Nat)) : Word :=
  BitVec.ofNat 64 (cls * 2 ^ 60 + op * 2 ^ 54 + (fs.map fun f => f.2 * 2 ^ f.1).sum)

/-- The slot whose task issues: the first that may, round robin from the one after the last (05:R67). -/
def NextIn (s : State) (cell k : Nat) : Prop :=
  let c := s.cell cell
  let may (i : Nat) : Prop := ∃ t, tget c.tasks i = some t ∧ s.runnable cell t = true
  ∃ d < 8, k = (c.rr + 1 + d) % 8 ∧ may k ∧ ∀ e < d, ¬ may ((c.rr + 1 + e) % 8)

/-- The PHC in units of 2⁻³² ns (01:R27). -/
def phcTotal (s : State) : Nat := (s.phcS.toNat * 1000000000 + s.phcNs) * 2 ^ 32 + s.phcFrac

end Sys2Proof.Claims

section

open Sys2Proof Sys2Proof.Machine Sys2Proof.Claims

/-- 09:R144 to R153: the word of a well-formed instruction decodes to it, with every operand at every value that the encoding
admits. -/
def Sys2Proof.Claims.EncodedInstructionsDecode : Prop :=
  ∀ (i : Instr) (w : Word), i.wellFormed = true → encode i = some w → decode w = .instr i

/-- 09:R144 to R149: a word that decodes to an instruction is the one word of that instruction, and the instruction is well
formed: no bit of a word is dropped. -/
def Sys2Proof.Claims.DecodedWordsEncode : Prop :=
  ∀ (w : Word) (i : Instr), decode w = .instr i → i.wellFormed = true ∧ encode i = some w

/-- 09:R155, R156; 25:R359, R361: the 128 bits of a message and the 256 bits of a command message are read back as what they
were made from. -/
def Sys2Proof.Claims.MessagesAndCommandsDecode : Prop :=
  ∀ (i : Instr), i.wellFormed = true →
    (∀ k m, msgOp i = some (k, m) → decodeTableWord 128 (encodeMsg m) = some i)
    ∧ (∀ k c, cmdOf i = some (k, c) → decodeTableWord 256 (encodeCmd c) = some i)
    ∧ (∀ c, i = .unknownCommand c → decodeTableWord 256 (encodeCmd c) = some i)

/-- 09:R144 to R147: words written out from the encoding tables, one a class. -/
def Obligations.WordsOfEachClass : Prop :=
  decode (wordOf 0 0x00 [(45, 3), (39, 1), (33, 34)]) = .instr (.add 3 (.s 1) (.inp 2))
  ∧ decode (wordOf 1 0x16 [(39, 4), (36, 5), (32, 3), (0, 0xFFFFFFFE)]) = .instr (.cmpi .ge 5 (.s 4) 0xFFFFFFFE)
  ∧ decode (wordOf 2 0x03 [(47, 2), (46, 1), (31, 300)]) = .instr (.brp 2 true 300)
  ∧ decode (wordOf 3 0x02 [(41, 10), (32, 20), (23, 30), (21, 1), (9, 7), (15, 6), (14, 1)])
      = .instr (.pmul ⟨10, 20, 30, 1, 7, some 6⟩)
  ∧ decode (wordOf 4 0x00 [(41, 10), (32, 20), (30, 2), (25, 9), (20, 3)]) = .instr (.cvt 10 20 2 9 3 none)
  ∧ decode (wordOf 5 0x03 [(48, 1), (46, 2), (37, 40), (28, 50), (8, 1), (9, 1)])
      = .instr (.mma 1 2 (.rows 40 true) 50 true)
  ∧ decode (wordOf 6 0x00 [(51, 5), (50, 1), (48, 3), (40, 33), (32, 2), (15, 7), (5, 0)])
      = .instr (.send ⟨5, true⟩ 3 (.inp 1) .true 7 .data)
  ∧ decode (wordOf 7 0x07 [(39, 6), (33, 7), (30, 3), (28, 2)]) = .instr (.str ⟨0, false⟩ .device (.s 6) (.s 7) .w)
  ∧ decode (wordOf 8 0x07 [(45, 1), (39, 2), (33, 3), (27, 4), (26, 1), (25, 1)])
      = .instr (.acas ⟨0, false⟩ 1 (.s 2) (.s 3) (.s 4) true)
  ∧ decode (wordOf 9 0x05 [(45, 1), (39, 2), (33, 3), (23, 6), (22, 1), (14, 9)])
      = .instr (.teFill ⟨0, false⟩ 1 (.s 2) (.s 3) ⟨6, true, 9⟩)
  ∧ decode (wordOf 10 0x02 [(45, 8), (31, 0x16)]) = .instr (.mfs 8 .epc)

/-- 09:R149, R150: the all-zeros word, a class without instructions and an opcode that its class does not assign are no
instruction; a bit set outside the fields of an instruction, and a source specifier above 35, make a word that raises
RESERVED_FIELD; a format code absent from 03:R30 one that raises FORMAT. -/
def Obligations.WordsRefused : Prop :=
  (∀ w : Word, w = 0 ∨ 11 ≤ w.toNat / 2 ^ 60 ∨ (w.toNat / 2 ^ 60 = 0 ∧ 0x1B ≤ w.toNat / 2 ^ 54 % 64)
      ∨ w.toNat / 2 ^ 54 = 2 * 64 + 7 ∨ w.toNat / 2 ^ 54 = 7 * 64 + 14 ∨ w.toNat / 2 ^ 54 = 10 * 64 + 10 →
    decode w = .instr (.illegalOp w))
  ∧ (∀ w : Word, (w.toNat / 2 ^ 54 = 2 * 64 ∨ w.toNat / 2 ^ 54 = 2 * 64 + 1 ∨ w.toNat / 2 ^ 54 = 2 * 64 + 5
      ∨ w.toNat / 2 ^ 54 = 10 * 64 + 1) → w.toNat % 2 ^ 54 ≠ 0 → decode w = .reserved)
  ∧ (∀ w : Word, w.toNat / 2 ^ 54 ≤ 0x0F → w ≠ 0 → (36 ≤ w.toNat / 2 ^ 39 % 64 ∨ 36 ≤ w.toNat / 2 ^ 33 % 64) →
    decode w = .reserved)
  ∧ (∀ bd ba pp d s, bd < 512 → ba < 512 → pp < 4 → d < 32 → s < 32 →
    (d = 7 ∨ d = 15 ∨ 17 ≤ d ∨ s = 7 ∨ s = 15 ∨ 17 ≤ s) →
    decode (wordOf 4 0x00 [(41, bd), (32, ba), (30, pp), (25, d), (20, s)]) = .format)

/-- 05:R67, 09:R144, R149, R150, 15:R218: when nothing else takes a turn, or a cell is given the turn, the word at the pc of the
next task in round robin is decoded and executed for that task; an MX word on an edge cell is no instruction; a pc past
the store, a reserved field and a format fault raise their causes; and with no task that may issue, nothing issues. -/
def Obligations.StepRunsDecoded : Prop :=
  ∀ (s : State) (c : CellId) (r : List Turn),
    let at_ (k : Nat) : State := { s with turns := r, focus := c, slot := k }
    (s.turns = [] ∧ r = [] ∧ c = s.focus) ∨ s.turns = .issue c :: r →
    (∀ k t, s.issues c.toNat = true → NextIn s c.toNat k → tget (s.cell c.toNat).tasks k = some t → t.abandoned = false →
      let w := tgetD (s.version c.toNat t.ver).code 0 t.pc.toNat
      let edgeMx : Prop := c.toNat % 1024 < 32 ∧ w.toNat / 2 ^ 60 = 5
      (t.pc.toNat < 512 → ¬ edgeMx → ∀ i, decode w = .instr i → step s = exec i (at_ k))
      ∧ (t.pc.toNat < 512 → edgeMx → step s = exec (.illegalOp w) (at_ k))
      ∧ (512 ≤ t.pc.toNat → step s = .next ((at_ k).raise { t with pc := 511 } 0x01 511
        (tgetD (s.version c.toNat t.ver).code 0 511).toNat))
      ∧ (t.pc.toNat < 512 → ¬ edgeMx → decode w = .reserved → step s = .next ((at_ k).raise t 0x02 t.pc.toNat w.toNat))
      ∧ (t.pc.toNat < 512 → ¬ edgeMx → decode w = .format → step s = .next ((at_ k).raise t 0x03 t.pc.toNat w.toNat)))
    ∧ (s.turns ≠ [] → (s.issues c.toNat = false ∨ ∀ k, ¬ NextIn s c.toNat k) → step s = .next { s with turns := r })

/-- 01:R26, R27; 05:R67; 17:R255; 27:R392: with no turn given, or the clock's, and in no cell a task that may issue in this cycle,
a cycle passes: CYC counts one and the PHC advances by the rate word. Unless a WAITF is due to read its word again, which it
does first, that is all but for what is counted: THROTTLE counts the cycle when a level is set, stall counters and the times
of waiting heads follow, slots freed in the cycle are free; registers, banks, programs, FIFOs, memory and the network stay, and
tasks but for firings that take slots. A cell that may issue does so before the cycle ends. That the agents move in turns is
the model's own (DESIGN CHOICE, log entry 1), and so is the PHC's unit of 2⁻³² ns (log entry 4). -/
def Sys2Proof.Claims.CyclePasses : Prop :=
  ∀ (s : State), (s.turns = [] ∨ ∃ r, s.turns = .tick :: r) →
    let still (k : Nat) : Prop := s.issues k = false ∨ ∀ i, ¬ NextIn s k i
    let uncounted (b : Binding) : Binding := { b with fullSince := none, fullRaised := false }
    ((∀ k, still k) → (∀ x ∈ s.cp.held, s.nodeLoading (cmdCtx x.2) (argBits x.2 16 16) = true) →
      ∃ s', step s = .next s' ∧ s'.now = s.now + 1
        ∧ (s.phcS.toNat * 1000000000 + s.phcNs + s.rate / 2 ^ 32 + 1 < 2 ^ 48 * 1000000000 → s.phcFrac < 2 ^ 32 →
          phcTotal s' = phcTotal s + s.rate)
        ∧ s'.phcNs < 1000000000 ∧ s'.phcFrac < 2 ^ 32
        ∧ ((∀ x ∈ s.cells, ∀ y ∈ x.2.tasks, ∀ c sc sd pa p b since, y.2.wait = .waitf c sc sd pa p b since →
            s.now < since + 256) →
          s'.cp = (if s.cp.level = 0 then s.cp else { s.cp with throttle := (s.cp.throttle + 1) % 2 ^ 64 })
          ∧ s'.mem = s.mem ∧ s'.hostMem = s.hostMem ∧ s'.net = s.net ∧ s'.cfgs = s.cfgs ∧ s'.ctxs = s.ctxs ∧ s'.ports = s.ports
          ∧ ∀ k, (s'.cell k).bank = (s.cell k).bank ∧ (s'.cell k).store = (s.cell k).store ∧ (s'.cell k).freed = []
            ∧ ((s.cell k).readyFirings = [] → (s'.cell k).tasks = (s.cell k).tasks)
            ∧ ∀ ver, (s'.version k ver).code = (s.version k ver).code
              ∧ (s'.version k ver).bindings.map uncounted = (s.version k ver).bindings.map uncounted))
    ∧ ((∃ x ∈ s.cells, ¬ still x.1) → (∀ x ∈ s.cells, x.1 < 2 ^ 18) →
      ∃ c : CellId, ¬ still c.toNat ∧ step s = step { s with turns := .issue c :: s.turns })

/-- 05:R62; 09:R154 to R156; 19:R306: an event's turn executes it with what the turn fixes, and a packet's turn executes what its
arrival is; a message without a meaning, or with a reserved bit set, is dropped. -/
def Sys2Proof.Claims.TurnsExecute : Prop :=
  ∀ (s : State) (r : List Turn),
    (∀ i x, s.turns = .event i x :: r → encode i = none → step s = exec i { s with turns := r, choice := x })
    ∧ (∀ n p, s.turns = .deliver n :: r → s.net[n]? = some p →
      let t : State := { s with turns := r, choice := { s.choice with n := n } }
      (∀ m a b i, p.body = .msg m a b → b ≠ some .reserved → msgInstr m = some i → step s = exec i t)
      ∧ (∀ m a b, p.body = .msg m a b → msgInstr m = none ∨ b = some .reserved →
        ∃ s', step s = .next s' ∧ s'.net = s.net.eraseIdx n ∧ s'.mem = s.mem ∧ s'.cells = s.cells)
      ∧ (∀ k e, p.body = .token k e → k.route = .channel → step s = exec .tokenArrival t)
      ∧ (∀ e, p.body = .credit e → step s = exec .creditReturn t))
    ∧ (∀ n, s.turns = .deliver n :: r → s.net.length ≤ n → step s = .next { s with turns := r })

/-- 27:R377, R382: a write at the home reaches DRAM byte by byte, least significant first, and no other byte. A sector that it
covers is poisoned no more, a sector that it covers in part or not at all is as before; an offline channel takes
nothing. -/
def Sys2Proof.Claims.HomeWrites : Prop :=
  ∀ (s : State) (a n v : Nat), 0 < n → (a + n - 1) / 4096 = a / 4096 →
    let s' := s.writeHome a n v
    (s.offline a = true → s' = s)
    ∧ (s.offline a = false →
      (∀ i < n, s'.readByte (a + i) = BitVec.ofNat 8 (v / 256 ^ i))
      ∧ (∀ x, (x < a ∨ a + n ≤ x) → s'.readByte x = s.readByte x)
      ∧ ∀ x, s'.sectorPoisoned x =
        if a ≤ x / 32 * 32 ∧ x / 32 * 32 + 32 ≤ a + n then false else s.sectorPoisoned x)

/-- 27:R389, R390: after a cold reset CYC and the PHC are 0; DRAM, the cells, contexts and placements are empty; the journal is
empty and its next number is 1; channels are whole, logs empty, chronographs unfrozen with their RESET entry. SPLIT 0 and
other values that R389 and R390 do not state are the model's choice (DESIGN CHOICE, log entry 3). -/
def Obligations.ResetState : Prop :=
  let s := State.reset
  s.now = 0 ∧ s.phcS = 0 ∧ s.phcNs = 0 ∧ s.phcFrac = 0 ∧ (∀ a, s.readByte a = 0) ∧ (∀ a, s.sectorPoisoned a = false)
  ∧ s.cfgs = [] ∧ s.ctxs = [] ∧ s.net = []
  ∧ (∀ k, let c := s.cell k
      c.split = 0 ∧ c.owner = 0 ∧ c.tasks = [] ∧ c.store = [] ∧ ∀ r, c.row r = 0 ∧ c.rowPoisoned r = false)
  ∧ s.cp.journal = [] ∧ s.cp.nextSeq = 1 ∧ s.cp.bootStat = 6 ∧ s.cp.fatal = false
  ∧ ∀ h < 8, let x := s.hall h
      x.frozen = false ∧ x.enabled = true ∧ x.ael = [] ∧ x.bel = [] ∧ x.gc = [] ∧ x.l2 = [] ∧ (∀ k, s.channel h k = {})
      ∧ x.chronoHead = 1 ∧ ∃ w, x.chrono = [(0, w)] ∧ w.toNat / 2 ^ 28 % 256 = 0x10 ∧ w.toNat / 2 ^ 192 = 0

/-- 07:R104, 27:R391 (the model's own form of memory, log entry 3): every step keeps the canonical form of DRAM and of host
memory: addresses strictly rise and no byte is listed that an unlisted one reads as. -/
def Obligations.StepKeepsMemories : Prop :=
  ∀ (s t : State), s.wf = true → step s = .next t → t.wf = true

/-- The memories after reset have their canonical form. -/
def Obligations.ResetMemories : Prop := State.reset.wf = true


/-- 19:R300: CYCRD writes sd := CYC of its issue cycle; PHCRD writes s[D] := the PHC seconds, zero-extended, and s[D + 1] :=
the nanoseconds, both of the one state it runs in; D of 0 or 31 raises RESERVED_FIELD. -/
def Obligations.ClockReads : Prop :=
  ∀ (s : State) (t : Task) (sd : BitVec 5), s.task s.here = some t →
    let w := wordOf 10 0x08 [(45, sd.toNat)]
    (∃ u, exec (.cycrd sd) s = .next (s.complete u) ∧ ScalarResult s.now t u sd [] 2 (BitVec.ofNat 64 s.now))
    ∧ (sd ≠ 0 → sd ≠ 31 → decode w = .instr (.phcrd sd)
      ∧ ∃ u, exec (.phcrd sd) s = .next (s.complete u)
        ∧ u.reg sd = s.phcS.zeroExtend 64 ∧ u.reg (sd + 1) = BitVec.ofNat 64 s.phcNs
        ∧ (∀ q, q ≠ sd → q ≠ sd + 1 → u.reg q = t.reg q)
        ∧ u = { t with regs := u.regs, ready := u.ready })
    ∧ (sd = 0 ∨ sd = 31 → t.pc.toNat < 512 → s.curWord t = w →
      s.fetch t = .trap (s.raise t 0x02 t.pc.toNat w.toNat))

/-- 15:R230: ACCZ sets S := 0 and X := 0 in all 64 positions of its tile and clears the tile's poison bit; it takes 2 cycles of
the accumulator port. Nothing else of the cell changes. -/
def Obligations.AccumulatorCleared : Prop :=
  ∀ (s : State) (t : Task) (ad : BitVec 2), s.task s.here = some t → ArraysFree s →
    ∃ c', UnitRun (.accz ad) s t .accport 2 c'
      ∧ (∀ r col, r < 8 → col < 8 → c'.acc ad.toNat r col = (0, 0))
      ∧ ad.toNat ∉ c'.tilePoison ∧ c'.accSat = s.cell0.accSat ∧ OnlyTile s.cell0 c' ad.toNat

/-- 19:R301: TRAP sets TRAPINFO := (code << 56) OR a[55:0] and raises cause 0x3E; BKPT sets TRAPINFO := code and raises 0x3F.
Each ends as a fault whose return index is the next word: a task that is armed and unmarked enters its handler with it
in EPC, another is abandoned. -/
def Obligations.SoftwareTraps : Prop :=
  ∀ (s : State) (t : Task) (code : BitVec 8) (sa : Spec), s.task s.here = some t →
    let raises (i : Instr) (u : Task) (cause : Nat) (info : Word) : Prop :=
      exec i s = .next (s.raise u cause t.pc.toNat info.toNat)
      ∧ ∃ s' v, exec i s = .next s' ∧ s'.task s.here = some v ∧ v.trapCause.toNat = cause ∧ v.trapInfo = info
        ∧ (t.armed = true → t.marked = false → v.marked = true ∧ v.epc = t.pc + 1 ∧ v.abandoned = t.abandoned)
        ∧ (t.armed = false ∨ t.marked = true → v.abandoned = true ∧ v.epc = t.epc)
    raises (.trap code sa) (reads t [sa]) 0x3E (BitVec.zeroExtend 64 code <<< 56 ||| (sourceValue t sa &&& 0x00FFFFFFFFFFFFFF))
    ∧ raises (.bkpt code) t 0x3F (BitVec.zeroExtend 64 code)


/-- 15:R238, R239: the optimiser instructions complete on the formats that they take: OPT.ADDC on floats or on integers, the
others on floats, with every hyperparameter that R239 does not call ignored finite. The lane unit is theirs for the cycles of
R241, and no row but those of their state and momentum changes. -/
def Sys2Proof.Claims.OptimiserFormsComplete : Prop :=
  ∀ (s : State) (t : Task) (bw bg : BitVec 9) (pp : BitVec 2) (sm sh : Spec) (mask : Option (BitVec 3)),
    s.task s.here = some t → ArraysFree s →
    let c := s.cell0
    let p := c.pair pp
    let nw := storedPlanes p.fmtA p.pa
    let ng := storedPlanes p.fmtB p.pb
    let float : Prop := p.fmtA = 2 ∨ p.fmtA = 3 ∨ p.fmtA = 6
    let h := (sourceValue t sh).toNat
    let fine (x : Nat) : Prop := ((FloatFmt.mk 8 23 0).val x).finite = true
    let momentum := rowsFrom ((sourceValue t sm).toNat % 512) nw
    let completes (i : Instr) (srcs : List Spec) (rows : List Nat) (cycles : Nat) : Prop :=
      RowsOpen s (rowsFrom bw.toNat nw ++ rows ++ rowsFrom bg.toNat ng) →
      ∃ c' u, UnitRun i s u .lane cycles c' ∧ u = { reads t srcs with taint := u.taint }
        ∧ ∀ r, r ∉ rowsFrom bw.toNat nw ++ rows → c'.row r = c.row r
    plainFormat p.fmtB →
    (float ∨ (p.fmtA ≤ 1 ∧ p.fmtB ≤ 1) → completes (.optAddc bw bg pp mask) [] [] (4 + nw + ng))
    ∧ (float → fine (h % 2 ^ 32) → fine (h / 2 ^ 32) → completes (.optSgd bw bg pp sh mask) [sh] [] (8 + nw + ng)
        ∧ completes (.optMom bw bg pp sm sh mask) [sm, sh] momentum (12 + 2 * nw + ng))
    ∧ (float → fine (h / 2 ^ 32) → completes (.optAdam2 bw bg pp sh mask) [sh] [] (10 + nw + 2 * ng))
    ∧ (float → fine (h % 2 ^ 32) → completes (.optEma bw bg pp sh mask) [sh] [] (8 + 2 * nw))

/-- Every instruction of a cell answers a next state for the task that issues it, and every message, command and event
one in every state: no form of the table is refused or ends a run. -/
def Obligations.EveryFormAnswers : Prop :=
  ∀ (i : Instr) (s : State), ((∃ t, s.task s.here = some t) ∨ encode i = none) → ∃ s', exec i s = .next s'

end

section

open Sys2Proof Sys2Proof.Machine Sys2Proof.Claims
/-! ## The statements that gather several claims -/

/-- The scalar arithmetic instructions, in every state with a task at the focus: the sums, products, logic, shifts, minima, maxima, bit counts, bit fields, selections and their immediate forms write sd with the result of R168 to R174, readable after its latency; every other register, and everything else of the task and module, is as before. -/
def Obligations.ScalarArithmetic : Prop :=
  Claims.ScalarAddSubLogic
  ∧ Claims.ScalarProducts
  ∧ Claims.ScalarShiftsMinMax
  ∧ Claims.ScalarBitsSelect
  ∧ Claims.ScalarImmediates

/-- CMP and CMPI decide each condition on the operands as signed or unsigned integers; the predicate instructions compute from p0 to p7; p0 reads true and discards a write; nothing else changes. -/
def Obligations.ComparesAndPredicates : Prop :=
  Claims.CompareConditions
  ∧ Claims.PredicateInstructions

/-- NOP, BR, BRP, CALL, RET and LOOP: targets, the call and loop stacks, the loops that a branch or return drops, the back edge at the end of the governing loop, and the faults of a full or empty stack. END of a compute task that has sent on every port in use frees its slot and sends nothing; the other slots, and the module outside the cell, keep what they hold. -/
def Obligations.ControlFlow : Prop :=
  Claims.Branches
  ∧ Claims.CallsAndReturns
  ∧ Claims.LoopEntry
  ∧ Claims.LoopBackEdge
  ∧ Claims.EndOfFiring

/-- A task fault of an armed, unmarked task records cause, address, information and the return index, marks the task and goes to the handler of its node; of any other task it records the same and abandons it. A word that is no instruction raises ILLEGAL_OP. ERET goes to EPC and clears the mark, and faults without a mark or with an EPC past the store. -/
def Obligations.TaskTraps : Prop :=
  Claims.TrapEntry
  ∧ Claims.IllegalWords
  ∧ Claims.ReturnFromTrap

/-- MFS gives each special register, undefined bits as zero; MTS writes the defined bits of a writable one, raises PROTECTION on a read-only one, arms the task through TRAPCAUSE and reseeds every lane through LFSRSEED. -/
def Obligations.SpecialRegisters : Prop :=
  Claims.SpecialRegisterReads
  ∧ Claims.SpecialRegisterWrites

/-- The two- and three-operand integer plane instructions give, in every written lane, the exact result kept by Fit in n planes; lanes that are masked out and every other row are as before. PCMP, PSEL, QAND to QANDN, QLD and QST on the plane registers. -/
def Obligations.PlaneIntegers : Prop :=
  Claims.PlaneIntegerThreeOperand
  ∧ Claims.PlaneIntegerTwoOperand
  ∧ Claims.PlaneRegisters

/-- PLZ, PTRIM, PPOPC, PREDUCE, PBCAST, PMOV, PLUT, CEX, CEXI, PEXP2 and PLOG2. Of PEXP2 and PLOG2 the spec states bounds and exact points; the rest of their value is open (log entry 8), and the statement holds whatever it is. -/
def Obligations.PlaneReductionsTablesAndExponentials : Prop :=
  Claims.PlaneCountsReductions
  ∧ Claims.PlaneLookupExchange
  ∧ Claims.PlaneExponentials

/-- CVT, CVTS, DEQ, PRD and PWR convert every written lane; QUANT and SCL.MAX give every processed block its scale byte and codes; SCL.GET, SCL.PUT and LFSR.SEED. What these compute is stated apart from the model's functions, with rationals: the value of every code of every format, what RoundInt, RoundMag and RoundFloat give, prefix reads, and the scale byte and codes of a quantised block. The value PRD gives a whole encoding is the model's choice (log entry 14). -/
def Obligations.ConversionsAndScales : Prop :=
  Claims.FormatValues
  ∧ Claims.RoundingModes
  ∧ Claims.PrefixRounding
  ∧ Claims.QuantisedBlocks
  ∧ Claims.Conversions
  ∧ Claims.PrefixReadWrite
  ∧ Claims.BlockQuantisation
  ∧ Claims.ScaleRowsAndSeeding

/-- PPSET installs a legal pair word and faults on an illegal one, PPGET reads it; GATHER fills the operand latch from a table; LATCH.CLR empties it. -/
def Obligations.PairsAndLatch : Prop :=
  Claims.PrecisionPairs
  ∧ Claims.OperandLatch

/-- The dense and sparse forms on integers add the exact dot product of row and column to every position of their tile, saturating at 48 bits, and touch nothing else of the accumulators, in the cycles of R229. On floating-point and block-scaled operands every form adds, block after block, the exact dot product of the aligned significands with the sum of the blocks' exponents; what BlockAlign makes of a block is stated with rationals. -/
def Obligations.MatrixProducts : Prop :=
  Claims.DenseIntegerProduct
  ∧ Claims.SparseIntegerProducts
  ∧ Claims.BlockAlignment
  ∧ Claims.ProductsOfBlocks

/-- Every multiply-accumulate form, in every format it accepts, from rows and from the latch, completes and touches nothing but its tile, ACCSAT, the generators and the taint. REGION.CFG installs a region that passes its checks, REGION.CFG OFF takes it away, SWEEP.R and SWEEP.G send their sweeps. The optimiser instructions complete on the formats they take with finite hyperparameters. -/
def Obligations.ArrayFormsComplete : Prop :=
  Claims.MatrixFormsComplete
  ∧ Claims.SystolicRegions
  ∧ Claims.OptimiserFormsComplete

/-- ACCRD writes the 64 positions of a tile to one slot of 64 lanes, converted or in format AW; ACCADD adds a tile, or rows of AW codes, to a tile. What AddAW makes of a position and a term is stated with rationals. -/
def Obligations.Accumulators : Prop :=
  Claims.AccumulatorRead
  ∧ Claims.AccumulatorAdd
  ∧ Claims.AccumulatorWords

/-- What a sweep does in each cell it visits; the operation that a start sweep begins, its steps on what the streams bring, and its completion token. The completion token's external binding, what streamed steps read and the wait for flights are the model's reading (log entry 16, DEDUCED); that a sweep's poison reaches the tiles is its choice (log entry 27). -/
def Obligations.SystolicRegionsRun : Prop :=
  Claims.Sweeps
  ∧ Claims.RegionOperations

/-- SEND, SENDN, EOS, DUP, STEER and the selections: the token sent and the port it takes; the routes of a send by credit, ring, agent credit and vestibule; PROTECTION on an unused port, SCOPE, and the waits of a full edge and a promotion. -/
def Obligations.TokenSends : Prop :=
  Claims.SendsOnEdges
  ∧ Claims.SteerSelectsPort
  ∧ Claims.SendTokenRoutes
  ∧ Claims.Selections

/-- TAGGET, TAGSET, LOOPB.ISSUE and LOOPB.RETIRE, and what a retirement does at the LOOPB node. -/
def Obligations.IterationsAndLoops : Prop :=
  Claims.IterationTags
  ∧ Claims.LoopbWindow
  ∧ Claims.Retirements

/-- BLK and UNBLK hold back and release a bound route tag; WAITT and WAITF complete, wait or raise PROMISE_MISS, and go on when their event comes, not on a halted node. -/
def Obligations.WaitsAndBlocking : Prop :=
  Claims.Blocking
  ∧ Claims.WaitForTime
  ∧ Claims.WaitForMemory
  ∧ Claims.WaitsEnd

/-- The loads that pass their checks begin an operation; the checks raise ALIGN, TRANSLATION and PROTECTION and ask for a walk; ST and STR write, of a tainted task nothing; FENCE releases and acquires; an operation returns with what it reads. The iteration of a suppressed store's record is the task's send iteration (log entry 17, DEDUCED). -/
def Obligations.LoadsAndStores : Prop :=
  Claims.LoadsBegin
  ∧ Claims.AccessChecks
  ∧ Claims.StoresAndFences
  ∧ Claims.OperationReturns

/-- A plain load after a plain store of the same cell gives the bytes stored, little endian, and no other byte reads differently; after a release at DEVICE scope they stand at the home; a promotion completes with every write of its target at its home. -/
def Obligations.VisibilityOfWrites : Prop :=
  Claims.StoreThenLoad
  ∧ Claims.ReleaseReachesHome
  ∧ Claims.Promotions

/-- LD.WAVE and ST.WAVE reach the interface and are performed in the order of their places; presence stores and loads fill, are deferred on and are woken by full and empty words, at the home and in the bank. The wave checks at issue are log entry 16 and the send iteration of a record log entry 17 (both DEDUCED). -/
def Obligations.WaveAndPresenceAccesses : Prop :=
  Claims.WaveAccesses
  ∧ Claims.WaveOperations
  ∧ Claims.PresenceAccesses
  ∧ Claims.PresenceAtHome

/-- PREF, L1.WB, L1.INV and their ALL forms complete: every byte written back reads at the gallery as L1 held it, and L1.WB keeps the line; SPLIT and MTS SPLIT write back L1, set the split and clear the rows that become scratchpad. -/
def Obligations.CachesAndSplit : Prop :=
  Claims.CacheInstructions
  ∧ Claims.SplitChanges

/-- The atomics begin as operations, compute the functions of R270, and are performed at their word's home, where no other byte changes. The iteration of a suppressed atomic's record is the task's send iteration (log entry 17, DEDUCED). -/
def Obligations.AtomicOperations : Prop :=
  Claims.AtomicsBegin
  ∧ Claims.AtomicFunctions
  ∧ Claims.AtomicAtHome

/-- BAR.ARR and BAR.WAIT, what an arrival does at its home, and OWNFLIP and OWNQRY. What MBAR's operand holds of the iteration is the model's choice (log entry 18, DESIGN CHOICE). -/
def Obligations.BarriersAndOwners : Prop :=
  Claims.Barriers
  ∧ Claims.BarrierArrivals
  ∧ Claims.OwnerBits

/-- TE.DESC, the engine requests with the promise they return, TE.QUERY and TE.CANCEL, with the faults and waits of each. The iteration of a request's node and of its records is the task's send iteration (log entry 17, DEDUCED). -/
def Obligations.EngineInstructions : Prop :=
  Claims.DescriptorSlots
  ∧ Claims.EngineRequests
  ∧ Claims.QueryAndCancel

/-- XLAT sends its translation; a walk ends for who waits on it; MQPUSH, MQPOP and SPAWN, and how the queue serves pops and pushes. -/
def Obligations.TranslationAndQueue : Prop :=
  Claims.AddressTranslation
  ∧ Claims.WalksEnd
  ∧ Claims.MeridianQueue
  ∧ Claims.QueueServes

/-- STOP begins the stop of its context with its chronograph entry; RESUME names a held object; DBG writes an entry; MSEND queues its message after a release. -/
def Obligations.StopResumeDebugAndMessages : Prop :=
  Claims.StopResumeDebug
  ∧ Claims.MessageSend

/-- What a message does without a handler entry, those of the meridian queue among them, or to a version that is not placed; MNOP, MLD, MST and MPACK; the atomic messages. -/
def Obligations.CellMessages : Prop :=
  Claims.MessagesWithoutHandler
  ∧ Claims.ElementMessages
  ∧ Claims.AtomicMessages

/-- MSTOP, MRESUME, MCFGW, MOWN, MPROM, MBAR, MTRAP, MRDY, MQPUSH, MQPOP, MSPAWN and MREPLY. Address and iteration of MTRAP's record and the iteration of a reply's token are free values (log entry 8). MRESUME's release of all ports, a handler entry's cursor and replies without an entry are the model's reading (log entry 19, DEDUCED). -/
def Obligations.ModuleAndQueueMessages : Prop :=
  Claims.ModuleMessages
  ∧ Claims.InstallReports
  ∧ Claims.QueueMessages
  ∧ Claims.Replies

/-- WRITE and READ of memory, BANK_WRITE and BANK_READ of bank rows, and management space, with the status that ends each, at once or with the host's acknowledgement; what a LOADING version holds. Statuses of management space, of nodes that are not placed and of rows that are taken are log entry 23 (DEDUCED). -/
def Obligations.HostTransfers : Prop :=
  Claims.DataTransfers
  ∧ Claims.BankTransfers
  ∧ Claims.ManagementSpace

/-- The commands of objects, contexts and firmware, with their checks and statuses. What a signature is stays open (log entry 9). Status 0x0303 of context 0xFFFF and of a RESUME with nothing saved is log entry 23 (DEDUCED). -/
def Obligations.ContextAndFirmwareCommands : Prop :=
  Claims.ObjectAndContextCommands
  ∧ Claims.ResumeCommands
  ∧ Claims.FirmwareCommands

/-- A token of an internal or external edge enters its FIFO, the matching store, the overflow area or a vestibule, is held while its version is LOADING, or is discarded as late; a channel drains into the matching store. Points of the live version that the spec leaves open are the model's choice (log entries 16 and 27). -/
def Obligations.TokenArrivals : Prop :=
  Claims.InternalArrivals
  ∧ Claims.ExternalArrivals

/-- A token without a meaning is dropped and its credit returns; a credit raises its port's count or moves a ring token; a PADDR token enters a STORER's port; a PACK packet expands to its tokens, and a sending port may put one in the place of a run. -/
def Obligations.DropsCreditsAndPackets : Prop :=
  Claims.DropsCreditsAddresses
  ∧ Claims.PackExpansions

/-- A firing takes its tokens and starts a task with scalars that are free values (log entry 8); one whose predicate does not match passes null tokens; one of a REDUCE node adds to what the node sums. The key of a node whose ports are all ORDERED and the head that such a port takes are the model's choice (log entry 27, DESIGN CHOICE). -/
def Obligations.FiringRules : Prop :=
  Claims.Firings
  ∧ Claims.PassedFirings

/-- Waits raise MATCH_FULL and SPILL_FULL; PHASE tokens choose the successor; EOS ends its edge and a REDUCE node sends its sum, whose iteration is a free value (log entry 8). The order of a REDUCE sum follows the LOOPB base at the last EOS (log entry 27, DESIGN CHOICE). -/
def Obligations.WaitsPhasesAndEnds : Prop :=
  Claims.WaitingTokensFault
  ∧ Claims.PredicateNetwork
  ∧ Claims.EndOfStream

/-- STOP at the head of a channel, the stop of a node, its halt, and the end of a drain; CTRL_RESUME releases what it names. -/
def Obligations.StopsAndHolds : Prop :=
  Claims.StopsOfNodes
  ∧ Claims.HoldsReleased

/-- An engine starts the first request its stream allows; a step of a copy moves one row with its poison; a step of a gather or a scatter reads an index; a row of a copy, gather, scatter, fill, transpose or remote put between banks has the lanes its descriptors give; a request ends with its record. -/
def Obligations.EngineRuns : Prop :=
  Claims.EngineStartsAndEnds
  ∧ Claims.EngineCopiesRows
  ∧ Claims.EngineStepValues

/-- What a chunk holds, checked by its CRC-32C, which chunk a lane takes next, and the rows that the engine then writes in order. -/
def Obligations.ChunkedStreams : Prop :=
  Claims.ChunkFormats
  ∧ Claims.ChunksDecoded

/-- A loader pass sends its rows as PLANE tokens, a storer pass writes the rows of its stream, and either ends with its record. -/
def Obligations.PassesRun : Prop :=
  Claims.LoaderPasses
  ∧ Claims.StorerPasses
  ∧ Claims.PassesEnd

/-- Puts and signals of admitted pairs are performed, others change nothing; packets unacknowledged for 10 ms and the loss of the last port fail requests with LINK. -/
def Obligations.PeerTraffic : Prop :=
  Claims.PeersWrite
  ∧ Claims.PeerLinksFail

/-- What a decision installs, how a stopped configuration is saved, and what a deadline does. What a saved cell holds, the operations that its save waits for and details of decisions are log entries 16, 20 and 22 (DEDUCED). -/
def Obligations.SchedulingAndSaves : Prop :=
  Claims.SchedulerDecides
  ∧ Claims.SavesAndDeadlines

/-- How a context exits and its id returns to the pool, and how a firmware activation and a host access end. -/
def Obligations.ContextsAndActivations : Prop :=
  Claims.ContextsEnd
  ∧ Claims.ActivationsAndAcknowledgements

/-- Errors of the host link and of hops are replayed and retrain; capture frames become tokens and are delivered; event frames go to firmware with their stamps. The stamp is the PHC less the port's constant delay, a free value (log entry 24, DESIGN CHOICE); that the stores of a failed link are over is the model's choice (log entry 27). -/
def Obligations.LinksAndCapture : Prop :=
  Claims.ReplaysAndRetrains
  ∧ Claims.CaptureAndStamps

/-- Scrubbed and transferred codewords are logged and poisoned, channels fold and go offline; a write at the home reaches its bytes and clears the poison of the sectors it covers. -/
def Obligations.MemoryErrors : Prop :=
  Claims.MemoryIntegrity
  ∧ Claims.HomeWrites

/-- Cold reset runs bring-up from zeroed DRAM; warm reset keeps memory, clocks, journal and logs and fails commands under way. The module number and the channels that failed are the turn's (log entry 23, DEDUCED); values that R389 and R390 do not state are the model's choice (log entries 3 and 27); the warm reset is said of a CP with no message waiting. -/
def Obligations.Resets : Prop :=
  Claims.ColdReset
  ∧ Claims.WarmReset

/-- The word of a well-formed instruction decodes to it, with every operand at every value the encoding admits; and a word that decodes to an instruction is that instruction's one word. The 128 bits of a message and the 256 bits of a command message are read back as what they were made from. -/
def Obligations.EncodingRoundTrip : Prop :=
  Claims.EncodedInstructionsDecode
  ∧ Claims.DecodedWordsEncode
  ∧ Claims.MessagesAndCommandsDecode

/-- An event's turn executes it with what the turn fixes, a packet's turn executes what its arrival is; with nothing to do a cycle passes: CYC counts one and the PHC advances by the rate word. Instructions whose time is over leave the units of their cell, and no other does. That the agents move in turns is the model's own (log entry 1) and the PHC's unit of 2^-32 ns its choice (log entry 4, DESIGN CHOICE). -/
def Obligations.TurnsAndCycles : Prop :=
  Claims.TurnsExecute
  ∧ Claims.CyclePasses
  ∧ Claims.UnitsFree

end
end

