-- ==== Sys2Proof/Laws/Encode.lean ====
section
/-! SUPPORT. Laws of packing: fields that lie apart are read back as they were placed. -/

namespace Sys2Proof

/-- Two fields share no bit. -/
def Field.apart (f g : Field) : Bool := decide (f.lo + f.len ≤ g.lo) || decide (g.lo + g.len ≤ f.lo)

/-- The fields lie below bit `top` and share no bit. -/
def fieldsApart (top : Nat) : List Field → Bool
  | [] => true
  | f :: r => decide (f.lo + f.len ≤ top) && r.all f.apart && fieldsApart top r

/-- Numbers without a common bit add as they combine. -/
theorem add_eq_or_of_disjoint {a b : Nat} (h : a &&& b = 0) : a + b = a ||| b := by
  have ha : a < 2 ^ (max a b + 1) := Nat.lt_of_lt_of_le (Nat.lt_two_pow_self) (Nat.pow_le_pow_right (by omega) (by omega))
  have hb : b < 2 ^ (max a b + 1) := Nat.lt_of_lt_of_le (Nat.lt_two_pow_self) (Nat.pow_le_pow_right (by omega) (by omega))
  have := BitVec.toNat_add_of_and_eq_zero (x := BitVec.ofNat (max a b + 1) a) (y := BitVec.ofNat (max a b + 1) b)
    (by apply BitVec.eq_of_toNat_eq; simp [Nat.mod_eq_of_lt ha, Nat.mod_eq_of_lt hb, h])
  have h2 := congrArg BitVec.toNat (BitVec.add_eq_or_of_and_eq_zero (BitVec.ofNat (max a b + 1) a) (BitVec.ofNat (max a b + 1) b)
    (by apply BitVec.eq_of_toNat_eq; simp [Nat.mod_eq_of_lt ha, Nat.mod_eq_of_lt hb, h]))
  rw [this] at h2
  simpa [Nat.mod_eq_of_lt ha, Nat.mod_eq_of_lt hb] using h2

theorem testBit_field (f : Field) (i : Nat) :
    (f.val % 2 ^ f.len * 2 ^ f.lo).testBit i
      = (decide (f.lo ≤ i) && decide (i < f.lo + f.len) && f.val.testBit (i - f.lo)) := by
  rw [Nat.testBit_mul_two_pow, Nat.testBit_mod_two_pow]
  by_cases h : f.lo ≤ i
  · have : decide (i - f.lo < f.len) = decide (i < f.lo + f.len) := by
      apply decide_eq_decide.2; omega
    simp [h, this]
  · simp [h]

/-- The bits of a packed word are those of its fields. -/
theorem testBit_pack {top : Nat} {fs : List Field} (h : fieldsApart top fs = true) (i : Nat) :
    (pack fs).testBit i
      = fs.any fun f => decide (f.lo ≤ i) && decide (i < f.lo + f.len) && f.val.testBit (i - f.lo) := by
  induction fs generalizing i with
  | nil => simp [pack]
  | cons f r ih =>
    simp only [fieldsApart, Bool.and_eq_true, List.all_eq_true] at h
    have hd : f.val % 2 ^ f.len * 2 ^ f.lo &&& pack r = 0 := by
      apply Nat.eq_of_testBit_eq
      intro j
      rw [Nat.testBit_and, testBit_field]
      by_cases hb : f.lo ≤ j ∧ j < f.lo + f.len
      · suffices (pack r).testBit j = false by simp [this]
        rw [Bool.eq_false_iff]
        intro hj
        rw [ih h.2 j] at hj
        obtain ⟨g, hg, hgj⟩ := List.any_eq_true.1 hj
        have := h.1.2 g hg
        simp only [Field.apart, Bool.or_eq_true, Bool.and_eq_true, decide_eq_true_eq] at this hgj
        omega
      · have : (decide (f.lo ≤ j) && decide (j < f.lo + f.len)) = false := by
          simp only [Bool.and_eq_false_iff, decide_eq_false_iff_not]; omega
        simp [this]
    rw [pack, add_eq_or_of_disjoint hd, Nat.testBit_or, testBit_field, ih h.2 i]
    simp

/-- A packed word reads at each of its fields what was placed there. -/
theorem bitsOf_pack {top : Nat} {fs : List Field} (h : fieldsApart top fs = true) {f : Field} (hf : f ∈ fs) :
    bitsOf (pack fs) f.lo f.len = f.val % 2 ^ f.len := by
  have key : ∀ {gs : List Field}, fieldsApart top gs = true → ∀ a ∈ gs, ∀ b ∈ gs, ∀ j,
      a.lo ≤ j → j < a.lo + a.len → b.lo ≤ j → j < b.lo + b.len → a = b := by
    intro gs
    induction gs with
    | nil => simp
    | cons g r ih =>
      intro hg a ha b hb j h1 h2 h3 h4
      simp only [fieldsApart, Bool.and_eq_true, List.all_eq_true] at hg
      rcases List.mem_cons.1 ha with ea | ha <;> rcases List.mem_cons.1 hb with eb | hb
      · rw [ea, eb]
      · have := hg.1.2 b hb
        subst ea
        simp only [Field.apart, Bool.or_eq_true, decide_eq_true_eq] at this
        omega
      · have := hg.1.2 a ha
        subst eb
        simp only [Field.apart, Bool.or_eq_true, decide_eq_true_eq] at this
        omega
      · exact ih hg.2 a ha b hb j h1 h2 h3 h4
  apply Nat.eq_of_testBit_eq
  intro i
  unfold bitsOf
  rw [Nat.testBit_mod_two_pow, Nat.testBit_mod_two_pow, Nat.testBit_div_two_pow, testBit_pack h]
  by_cases hi : i < f.len
  · have : (fs.any fun g => decide (g.lo ≤ i + f.lo) && decide (i + f.lo < g.lo + g.len) && g.val.testBit (i + f.lo - g.lo))
        = f.val.testBit i := by
      rw [Bool.eq_iff_iff, List.any_eq_true]
      constructor
      · rintro ⟨g, hg, hb⟩
        simp only [Bool.and_eq_true, decide_eq_true_eq] at hb
        have := key h f hf g hg (i + f.lo) (by omega) (by omega) hb.1.1 hb.1.2
        subst this
        simpa using hb.2
      · intro hb
        refine ⟨f, hf, ?_⟩
        simp only [Bool.and_eq_true, decide_eq_true_eq, Nat.add_sub_cancel, hb, and_true]
        omega
    simp [hi, this]
  · simp [hi]

/-- A packed word has no bit at or above the fields' bound. -/
theorem pack_lt {top : Nat} {fs : List Field} (h : fieldsApart top fs = true) : pack fs < 2 ^ top := by
  apply Nat.lt_pow_two_of_testBit
  intro i hi
  rw [testBit_pack h, Bool.eq_false_iff]
  intro hb
  obtain ⟨f, hf, hb⟩ := List.any_eq_true.1 hb
  have : ∀ {gs : List Field}, fieldsApart top gs = true → f ∈ gs → f.lo + f.len ≤ top := by
    intro gs
    induction gs with
    | nil => simp
    | cons g r ih =>
      intro hg hm
      simp only [fieldsApart, Bool.and_eq_true, decide_eq_true_eq] at hg
      rcases List.mem_cons.1 hm with rfl | hm
      · exact hg.1.1
      · exact ih hg.2 hm
  have := this h hf
  simp only [Bool.and_eq_true, decide_eq_true_eq] at hb
  omega

/-- A packed word reads as zero where no field lies. -/
theorem bitsOf_pack_free {top : Nat} {fs : List Field} {lo len : Nat}
    (h : fieldsApart top (⟨lo, len, 0⟩ :: fs) = true) : bitsOf (pack fs) lo len = 0 := by
  have := bitsOf_pack h (List.mem_cons_self ..)
  simpa [pack] using this

theorem fld_eq_bitsOf (w lo len : Nat) : fld w lo len = BitVec.ofNat len (bitsOf w lo len) := by
  apply BitVec.eq_of_toNat_eq
  simp [fld, bitsOf]

theorem bitAt_eq_bitsOf (w lo : Nat) : bitAt w lo = decide (bitsOf w lo 1 = 1) := rfl

/-- A scalar source specifier is read back from its code. -/
@[simp] theorem spec6_code (x : Spec) : spec6 x.code = some x := by
  cases x with
  | s r => revert r; decide
  | inp i => revert i; decide

@[simp] theorem Spec.code_mod (x : Spec) : x.code % 2 ^ 6 = x.code := by
  apply Nat.mod_eq_of_lt
  cases x with
  | s r => have := r.isLt; simp only [Spec.code]; omega
  | inp i => have := i.isLt; simp only [Spec.code]; omega

/-- What the fields give for the bits `[lo + len - 1 : lo]`: a field of that place, zero where none lies; none where a
field lies across. -/
def fieldAt : List Field → Nat → Nat → Option Nat
  | [], _, _ => some 0
  | f :: r, lo, len =>
    if f.lo = lo ∧ f.len = len then some (f.val % 2 ^ len)
    else if f.apart ⟨lo, len, 0⟩ then fieldAt r lo len else none

theorem bitsOf_pack_fieldAt {top : Nat} {fs : List Field} (h : fieldsApart top fs = true) {lo len v : Nat}
    (hv : fieldAt fs lo len = some v) : bitsOf (pack fs) lo len = v := by
  suffices hs : ∀ {gs : List Field}, fieldAt gs lo len = some v →
      (∃ f ∈ gs, f.lo = lo ∧ f.len = len ∧ f.val % 2 ^ len = v) ∨ (v = 0 ∧ ∀ f ∈ gs, f.apart ⟨lo, len, 0⟩ = true) by
    rcases hs hv with ⟨f, hf, rfl, rfl, rfl⟩ | ⟨rfl, hf⟩
    · exact bitsOf_pack h hf
    · apply Nat.eq_of_testBit_eq
      intro i
      unfold bitsOf
      rw [Nat.testBit_mod_two_pow, Nat.testBit_div_two_pow, testBit_pack h, Nat.zero_testBit]
      by_cases hi : i < len
      · simp only [hi, decide_true, Bool.true_and]
        rw [Bool.eq_false_iff]
        intro hb
        obtain ⟨f, hm, hb⟩ := List.any_eq_true.1 hb
        have := hf f hm
        simp only [Field.apart, Bool.or_eq_true, Bool.and_eq_true, decide_eq_true_eq] at this hb
        omega
      · simp [hi]
  intro gs hg
  induction gs with
  | nil => simp only [fieldAt, Option.some.injEq] at hg; exact .inr ⟨hg.symm, by simp⟩
  | cons f r ih =>
    unfold fieldAt at hg
    split at hg
    · rename_i he
      exact .inl ⟨f, by simp, he.1, he.2, by simpa using hg⟩
    · split at hg
      · rename_i ha
        rcases ih hg with ⟨g, hm, hg⟩ | ⟨hz, hg⟩
        · exact .inl ⟨g, List.mem_cons_of_mem _ hm, hg⟩
        · refine .inr ⟨hz, fun x hx => ?_⟩
          rcases List.mem_cons.1 hx with rfl | hx
          · exact ha
          · exact hg x hx
      · exact absurd hg (by simp)

/-- A packed word has no bit outside places that cover its fields. -/
theorem onlyFields_pack {fs : List Field} {us : List (Nat × Nat)} (h : fieldsApart 64 fs = true)
    (hu : fieldsApart 64 (us.map fun u => ⟨u.1, u.2, 0⟩) = true)
    (hc : ∀ f ∈ fs, (f.lo, f.len) ∈ us ∨ f.val % 2 ^ f.len = 0) : onlyFields (pack fs) us = true := by
  have hu' : fieldsApart 64 (us.map fun u => ⟨u.1, u.2, bitsOf (pack fs) u.1 u.2⟩) = true := by
    clear hc
    induction us with
    | nil => rfl
    | cons u r ih =>
      simp only [List.map_cons, fieldsApart, Bool.and_eq_true, List.all_eq_true, List.mem_map] at hu ⊢
      refine ⟨⟨hu.1.1, ?_⟩, ih hu.2⟩
      rintro x ⟨y, hy, rfl⟩
      exact hu.1.2 ⟨y.1, y.2, 0⟩ ⟨y, hy, rfl⟩
  simp only [onlyFields, decide_eq_true_eq]
  apply Nat.eq_of_testBit_eq
  intro i
  rw [testBit_pack hu', Bool.eq_iff_iff, List.any_eq_true]
  constructor
  · intro hi
    have hi' := hi
    rw [testBit_pack h] at hi'
    obtain ⟨f, hf, hb⟩ := List.any_eq_true.1 hi'
    simp only [Bool.and_eq_true, decide_eq_true_eq] at hb
    rcases hc f hf with hm | hz
    · refine ⟨⟨f.lo, f.len, bitsOf (pack fs) f.lo f.len⟩, List.mem_map.2 ⟨_, hm, rfl⟩, ?_⟩
      simp only [bitsOf, Nat.testBit_mod_two_pow, Nat.testBit_div_two_pow, Bool.and_eq_true, decide_eq_true_eq]
      refine ⟨hb.1, by omega, ?_⟩
      rwa [Nat.sub_add_cancel hb.1.1]
    · exfalso
      have : (f.val % 2 ^ f.len).testBit (i - f.lo) = true := by
        rw [Nat.testBit_mod_two_pow, hb.2]; simp; omega
      rw [hz] at this
      simp at this
  · rintro ⟨f, hf, hb⟩
    obtain ⟨u, _, rfl⟩ := List.mem_map.1 hf
    simp only [bitsOf, Nat.testBit_mod_two_pow, Nat.testBit_div_two_pow, Bool.and_eq_true, decide_eq_true_eq] at hb
    have h2 := hb.2.2
    rwa [Nat.sub_add_cancel hb.1.1] at h2

/-- Decode of a packed word whose fields pass the checks. -/
theorem decode_pack {cls op : Nat} {fs : List Field} {i : Instr}
    (h : fieldsApart 64 (⟨60, 4, cls⟩ :: ⟨54, 6, op⟩ :: fs) = true) (hc : cls < 16) (ho : op < 64)
    (ha : assigned cls op = true) (hz : cls ≠ 0 ∨ op ≠ 0 ∨ pack fs ≠ 0)
    (hi : (formOf (pack (⟨60, 4, cls⟩ :: ⟨54, 6, op⟩ :: fs)) cls op).instr = some i)
    (hu : onlyFields (pack (⟨60, 4, cls⟩ :: ⟨54, 6, op⟩ :: fs))
      ([(60, 4), (54, 6)] ++ (formOf (pack (⟨60, 4, cls⟩ :: ⟨54, 6, op⟩ :: fs)) cls op).used) = true)
    (hf : fieldsOk i = true) (hm : formatsOk i = true) :
    decode (BitVec.ofNat 64 (pack (⟨60, 4, cls⟩ :: ⟨54, 6, op⟩ :: fs))) = .instr i := by
  have hlt := pack_lt h
  have h1 : bitsOf (pack (⟨60, 4, cls⟩ :: ⟨54, 6, op⟩ :: fs)) 60 4 = cls := by
    rw [bitsOf_pack h (f := ⟨60, 4, cls⟩) (by simp)]; exact Nat.mod_eq_of_lt hc
  have h2 : bitsOf (pack (⟨60, 4, cls⟩ :: ⟨54, 6, op⟩ :: fs)) 54 6 = op := by
    rw [bitsOf_pack h (f := ⟨54, 6, op⟩) (by simp)]; exact Nat.mod_eq_of_lt ho
  have hn : pack (⟨60, 4, cls⟩ :: ⟨54, 6, op⟩ :: fs) ≠ 0 := by
    intro h0
    rw [h0] at h1 h2
    simp only [bitsOf, Nat.zero_div, Nat.zero_mod] at h1 h2
    rcases hz with hz | hz | hz
    · exact hz h1.symm
    · exact hz h2.symm
    · simp only [pack] at h0; omega
  generalize hP : pack (⟨60, 4, cls⟩ :: ⟨54, 6, op⟩ :: fs) = P at *
  have ht : (BitVec.ofNat 64 P).toNat = P := by rw [BitVec.toNat_ofNat]; exact Nat.mod_eq_of_lt hlt
  have hw : BitVec.ofNat 64 P ≠ 0 := by
    intro h0
    have := congrArg BitVec.toNat h0
    rw [ht] at this
    exact hn this
  simp only [decode, isIllegal, ht, h1, h2, ha, hw, hi, hu, hf, hm, decide_false, Bool.not_true, Bool.or_self,
    Bool.false_eq_true, if_false]

end Sys2Proof
end

