-- ==== Sys2Proof/Laws/State.lean ====
section
/-! SUPPORT. What each update of the state leaves in each other field: one lemma per field per update, so that no proof
unfolds a record update. -/

namespace Sys2Proof.Machine

@[simp] theorem State.updCell_now (s : State) (c : Nat) (f : Cell → Cell) : (s.updCell c f).now = s.now := rfl
@[simp] theorem State.updCell_phcS (s : State) (c : Nat) (f : Cell → Cell) : (s.updCell c f).phcS = s.phcS := rfl
@[simp] theorem State.updCell_phcNs (s : State) (c : Nat) (f : Cell → Cell) : (s.updCell c f).phcNs = s.phcNs := rfl
@[simp] theorem State.updCell_phcFrac (s : State) (c : Nat) (f : Cell → Cell) : (s.updCell c f).phcFrac = s.phcFrac := rfl
@[simp] theorem State.updCell_rate (s : State) (c : Nat) (f : Cell → Cell) : (s.updCell c f).rate = s.rate := rfl
@[simp] theorem State.updCell_mem (s : State) (c : Nat) (f : Cell → Cell) : (s.updCell c f).mem = s.mem := rfl
@[simp] theorem State.updCell_memPoison (s : State) (c : Nat) (f : Cell → Cell) : (s.updCell c f).memPoison = s.memPoison := rfl
@[simp] theorem State.updCell_memFull (s : State) (c : Nat) (f : Cell → Cell) : (s.updCell c f).memFull = s.memFull := rfl
@[simp] theorem State.updCell_memDeferred (s : State) (c : Nat) (f : Cell → Cell) : (s.updCell c f).memDeferred = s.memDeferred := rfl
@[simp] theorem State.updCell_memAnswered (s : State) (c : Nat) (f : Cell → Cell) : (s.updCell c f).memAnswered = s.memAnswered := rfl
@[simp] theorem State.updCell_hostMem (s : State) (c : Nat) (f : Cell → Cell) : (s.updCell c f).hostMem = s.hostMem := rfl
@[simp] theorem State.updCell_hostStores (s : State) (c : Nat) (f : Cell → Cell) : (s.updCell c f).hostStores = s.hostStores := rfl
@[simp] theorem State.updCell_halls (s : State) (c : Nat) (f : Cell → Cell) : (s.updCell c f).halls = s.halls := rfl
@[simp] theorem State.updCell_groups (s : State) (c : Nat) (f : Cell → Cell) : (s.updCell c f).groups = s.groups := rfl
@[simp] theorem State.updCell_net (s : State) (c : Nat) (f : Cell → Cell) : (s.updCell c f).net = s.net := rfl
@[simp] theorem State.updCell_hops (s : State) (c : Nat) (f : Cell → Cell) : (s.updCell c f).hops = s.hops := rfl
@[simp] theorem State.updCell_cfgs (s : State) (c : Nat) (f : Cell → Cell) : (s.updCell c f).cfgs = s.cfgs := rfl
@[simp] theorem State.updCell_ctxs (s : State) (c : Nat) (f : Cell → Cell) : (s.updCell c f).ctxs = s.ctxs := rfl
@[simp] theorem State.updCell_cp (s : State) (c : Nat) (f : Cell → Cell) : (s.updCell c f).cp = s.cp := rfl
@[simp] theorem State.updCell_mirror (s : State) (c : Nat) (f : Cell → Cell) : (s.updCell c f).mirror = s.mirror := rfl
@[simp] theorem State.updCell_ports (s : State) (c : Nat) (f : Cell → Cell) : (s.updCell c f).ports = s.ports := rfl
@[simp] theorem State.updCell_focus (s : State) (c : Nat) (f : Cell → Cell) : (s.updCell c f).focus = s.focus := rfl
@[simp] theorem State.updCell_slot (s : State) (c : Nat) (f : Cell → Cell) : (s.updCell c f).slot = s.slot := rfl
@[simp] theorem State.updCell_turns (s : State) (c : Nat) (f : Cell → Cell) : (s.updCell c f).turns = s.turns := rfl
@[simp] theorem State.updCell_choice (s : State) (c : Nat) (f : Cell → Cell) : (s.updCell c f).choice = s.choice := rfl
@[simp] theorem State.updCell_fresh (s : State) (c : Nat) (f : Cell → Cell) : (s.updCell c f).fresh = s.fresh := rfl

@[simp] theorem State.updCell0_now (s : State) (f : Cell → Cell) : (s.updCell0 f).now = s.now := rfl
@[simp] theorem State.updCell0_phcS (s : State) (f : Cell → Cell) : (s.updCell0 f).phcS = s.phcS := rfl
@[simp] theorem State.updCell0_phcNs (s : State) (f : Cell → Cell) : (s.updCell0 f).phcNs = s.phcNs := rfl
@[simp] theorem State.updCell0_phcFrac (s : State) (f : Cell → Cell) : (s.updCell0 f).phcFrac = s.phcFrac := rfl
@[simp] theorem State.updCell0_rate (s : State) (f : Cell → Cell) : (s.updCell0 f).rate = s.rate := rfl
@[simp] theorem State.updCell0_mem (s : State) (f : Cell → Cell) : (s.updCell0 f).mem = s.mem := rfl
@[simp] theorem State.updCell0_memPoison (s : State) (f : Cell → Cell) : (s.updCell0 f).memPoison = s.memPoison := rfl
@[simp] theorem State.updCell0_memFull (s : State) (f : Cell → Cell) : (s.updCell0 f).memFull = s.memFull := rfl
@[simp] theorem State.updCell0_memDeferred (s : State) (f : Cell → Cell) : (s.updCell0 f).memDeferred = s.memDeferred := rfl
@[simp] theorem State.updCell0_memAnswered (s : State) (f : Cell → Cell) : (s.updCell0 f).memAnswered = s.memAnswered := rfl
@[simp] theorem State.updCell0_hostMem (s : State) (f : Cell → Cell) : (s.updCell0 f).hostMem = s.hostMem := rfl
@[simp] theorem State.updCell0_hostStores (s : State) (f : Cell → Cell) : (s.updCell0 f).hostStores = s.hostStores := rfl
@[simp] theorem State.updCell0_halls (s : State) (f : Cell → Cell) : (s.updCell0 f).halls = s.halls := rfl
@[simp] theorem State.updCell0_groups (s : State) (f : Cell → Cell) : (s.updCell0 f).groups = s.groups := rfl
@[simp] theorem State.updCell0_net (s : State) (f : Cell → Cell) : (s.updCell0 f).net = s.net := rfl
@[simp] theorem State.updCell0_hops (s : State) (f : Cell → Cell) : (s.updCell0 f).hops = s.hops := rfl
@[simp] theorem State.updCell0_cfgs (s : State) (f : Cell → Cell) : (s.updCell0 f).cfgs = s.cfgs := rfl
@[simp] theorem State.updCell0_ctxs (s : State) (f : Cell → Cell) : (s.updCell0 f).ctxs = s.ctxs := rfl
@[simp] theorem State.updCell0_cp (s : State) (f : Cell → Cell) : (s.updCell0 f).cp = s.cp := rfl
@[simp] theorem State.updCell0_mirror (s : State) (f : Cell → Cell) : (s.updCell0 f).mirror = s.mirror := rfl
@[simp] theorem State.updCell0_ports (s : State) (f : Cell → Cell) : (s.updCell0 f).ports = s.ports := rfl
@[simp] theorem State.updCell0_focus (s : State) (f : Cell → Cell) : (s.updCell0 f).focus = s.focus := rfl
@[simp] theorem State.updCell0_slot (s : State) (f : Cell → Cell) : (s.updCell0 f).slot = s.slot := rfl
@[simp] theorem State.updCell0_turns (s : State) (f : Cell → Cell) : (s.updCell0 f).turns = s.turns := rfl
@[simp] theorem State.updCell0_choice (s : State) (f : Cell → Cell) : (s.updCell0 f).choice = s.choice := rfl
@[simp] theorem State.updCell0_fresh (s : State) (f : Cell → Cell) : (s.updCell0 f).fresh = s.fresh := rfl

@[simp] theorem State.updVersion_now (s : State) (c : Nat) (v : Bool) (f : Version → Version) : (s.updVersion c v f).now = s.now := rfl
@[simp] theorem State.updVersion_phcS (s : State) (c : Nat) (v : Bool) (f : Version → Version) : (s.updVersion c v f).phcS = s.phcS := rfl
@[simp] theorem State.updVersion_phcNs (s : State) (c : Nat) (v : Bool) (f : Version → Version) : (s.updVersion c v f).phcNs = s.phcNs := rfl
@[simp] theorem State.updVersion_phcFrac (s : State) (c : Nat) (v : Bool) (f : Version → Version) : (s.updVersion c v f).phcFrac = s.phcFrac := rfl
@[simp] theorem State.updVersion_rate (s : State) (c : Nat) (v : Bool) (f : Version → Version) : (s.updVersion c v f).rate = s.rate := rfl
@[simp] theorem State.updVersion_mem (s : State) (c : Nat) (v : Bool) (f : Version → Version) : (s.updVersion c v f).mem = s.mem := rfl
@[simp] theorem State.updVersion_memPoison (s : State) (c : Nat) (v : Bool) (f : Version → Version) : (s.updVersion c v f).memPoison = s.memPoison := rfl
@[simp] theorem State.updVersion_memFull (s : State) (c : Nat) (v : Bool) (f : Version → Version) : (s.updVersion c v f).memFull = s.memFull := rfl
@[simp] theorem State.updVersion_memDeferred (s : State) (c : Nat) (v : Bool) (f : Version → Version) : (s.updVersion c v f).memDeferred = s.memDeferred := rfl
@[simp] theorem State.updVersion_memAnswered (s : State) (c : Nat) (v : Bool) (f : Version → Version) : (s.updVersion c v f).memAnswered = s.memAnswered := rfl
@[simp] theorem State.updVersion_hostMem (s : State) (c : Nat) (v : Bool) (f : Version → Version) : (s.updVersion c v f).hostMem = s.hostMem := rfl
@[simp] theorem State.updVersion_hostStores (s : State) (c : Nat) (v : Bool) (f : Version → Version) : (s.updVersion c v f).hostStores = s.hostStores := rfl
@[simp] theorem State.updVersion_halls (s : State) (c : Nat) (v : Bool) (f : Version → Version) : (s.updVersion c v f).halls = s.halls := rfl
@[simp] theorem State.updVersion_groups (s : State) (c : Nat) (v : Bool) (f : Version → Version) : (s.updVersion c v f).groups = s.groups := rfl
@[simp] theorem State.updVersion_net (s : State) (c : Nat) (v : Bool) (f : Version → Version) : (s.updVersion c v f).net = s.net := rfl
@[simp] theorem State.updVersion_hops (s : State) (c : Nat) (v : Bool) (f : Version → Version) : (s.updVersion c v f).hops = s.hops := rfl
@[simp] theorem State.updVersion_cfgs (s : State) (c : Nat) (v : Bool) (f : Version → Version) : (s.updVersion c v f).cfgs = s.cfgs := rfl
@[simp] theorem State.updVersion_ctxs (s : State) (c : Nat) (v : Bool) (f : Version → Version) : (s.updVersion c v f).ctxs = s.ctxs := rfl
@[simp] theorem State.updVersion_cp (s : State) (c : Nat) (v : Bool) (f : Version → Version) : (s.updVersion c v f).cp = s.cp := rfl
@[simp] theorem State.updVersion_mirror (s : State) (c : Nat) (v : Bool) (f : Version → Version) : (s.updVersion c v f).mirror = s.mirror := rfl
@[simp] theorem State.updVersion_ports (s : State) (c : Nat) (v : Bool) (f : Version → Version) : (s.updVersion c v f).ports = s.ports := rfl
@[simp] theorem State.updVersion_focus (s : State) (c : Nat) (v : Bool) (f : Version → Version) : (s.updVersion c v f).focus = s.focus := rfl
@[simp] theorem State.updVersion_slot (s : State) (c : Nat) (v : Bool) (f : Version → Version) : (s.updVersion c v f).slot = s.slot := rfl
@[simp] theorem State.updVersion_turns (s : State) (c : Nat) (v : Bool) (f : Version → Version) : (s.updVersion c v f).turns = s.turns := rfl
@[simp] theorem State.updVersion_choice (s : State) (c : Nat) (v : Bool) (f : Version → Version) : (s.updVersion c v f).choice = s.choice := rfl
@[simp] theorem State.updVersion_fresh (s : State) (c : Nat) (v : Bool) (f : Version → Version) : (s.updVersion c v f).fresh = s.fresh := rfl

@[simp] theorem State.updNode_now (s : State) (c : Nat) (v : Bool) (n : Nat) (f : Node → Node) : (s.updNode c v n f).now = s.now := rfl
@[simp] theorem State.updNode_phcS (s : State) (c : Nat) (v : Bool) (n : Nat) (f : Node → Node) : (s.updNode c v n f).phcS = s.phcS := rfl
@[simp] theorem State.updNode_phcNs (s : State) (c : Nat) (v : Bool) (n : Nat) (f : Node → Node) : (s.updNode c v n f).phcNs = s.phcNs := rfl
@[simp] theorem State.updNode_phcFrac (s : State) (c : Nat) (v : Bool) (n : Nat) (f : Node → Node) : (s.updNode c v n f).phcFrac = s.phcFrac := rfl
@[simp] theorem State.updNode_rate (s : State) (c : Nat) (v : Bool) (n : Nat) (f : Node → Node) : (s.updNode c v n f).rate = s.rate := rfl
@[simp] theorem State.updNode_mem (s : State) (c : Nat) (v : Bool) (n : Nat) (f : Node → Node) : (s.updNode c v n f).mem = s.mem := rfl
@[simp] theorem State.updNode_memPoison (s : State) (c : Nat) (v : Bool) (n : Nat) (f : Node → Node) : (s.updNode c v n f).memPoison = s.memPoison := rfl
@[simp] theorem State.updNode_memFull (s : State) (c : Nat) (v : Bool) (n : Nat) (f : Node → Node) : (s.updNode c v n f).memFull = s.memFull := rfl
@[simp] theorem State.updNode_memDeferred (s : State) (c : Nat) (v : Bool) (n : Nat) (f : Node → Node) : (s.updNode c v n f).memDeferred = s.memDeferred := rfl
@[simp] theorem State.updNode_memAnswered (s : State) (c : Nat) (v : Bool) (n : Nat) (f : Node → Node) : (s.updNode c v n f).memAnswered = s.memAnswered := rfl
@[simp] theorem State.updNode_hostMem (s : State) (c : Nat) (v : Bool) (n : Nat) (f : Node → Node) : (s.updNode c v n f).hostMem = s.hostMem := rfl
@[simp] theorem State.updNode_hostStores (s : State) (c : Nat) (v : Bool) (n : Nat) (f : Node → Node) : (s.updNode c v n f).hostStores = s.hostStores := rfl
@[simp] theorem State.updNode_halls (s : State) (c : Nat) (v : Bool) (n : Nat) (f : Node → Node) : (s.updNode c v n f).halls = s.halls := rfl
@[simp] theorem State.updNode_groups (s : State) (c : Nat) (v : Bool) (n : Nat) (f : Node → Node) : (s.updNode c v n f).groups = s.groups := rfl
@[simp] theorem State.updNode_net (s : State) (c : Nat) (v : Bool) (n : Nat) (f : Node → Node) : (s.updNode c v n f).net = s.net := rfl
@[simp] theorem State.updNode_hops (s : State) (c : Nat) (v : Bool) (n : Nat) (f : Node → Node) : (s.updNode c v n f).hops = s.hops := rfl
@[simp] theorem State.updNode_cfgs (s : State) (c : Nat) (v : Bool) (n : Nat) (f : Node → Node) : (s.updNode c v n f).cfgs = s.cfgs := rfl
@[simp] theorem State.updNode_ctxs (s : State) (c : Nat) (v : Bool) (n : Nat) (f : Node → Node) : (s.updNode c v n f).ctxs = s.ctxs := rfl
@[simp] theorem State.updNode_cp (s : State) (c : Nat) (v : Bool) (n : Nat) (f : Node → Node) : (s.updNode c v n f).cp = s.cp := rfl
@[simp] theorem State.updNode_mirror (s : State) (c : Nat) (v : Bool) (n : Nat) (f : Node → Node) : (s.updNode c v n f).mirror = s.mirror := rfl
@[simp] theorem State.updNode_ports (s : State) (c : Nat) (v : Bool) (n : Nat) (f : Node → Node) : (s.updNode c v n f).ports = s.ports := rfl
@[simp] theorem State.updNode_focus (s : State) (c : Nat) (v : Bool) (n : Nat) (f : Node → Node) : (s.updNode c v n f).focus = s.focus := rfl
@[simp] theorem State.updNode_slot (s : State) (c : Nat) (v : Bool) (n : Nat) (f : Node → Node) : (s.updNode c v n f).slot = s.slot := rfl
@[simp] theorem State.updNode_turns (s : State) (c : Nat) (v : Bool) (n : Nat) (f : Node → Node) : (s.updNode c v n f).turns = s.turns := rfl
@[simp] theorem State.updNode_choice (s : State) (c : Nat) (v : Bool) (n : Nat) (f : Node → Node) : (s.updNode c v n f).choice = s.choice := rfl
@[simp] theorem State.updNode_fresh (s : State) (c : Nat) (v : Bool) (n : Nat) (f : Node → Node) : (s.updNode c v n f).fresh = s.fresh := rfl

@[simp] theorem State.updBinding_now (s : State) (c : Nat) (v : Bool) (r : Nat) (f : Binding → Binding) : (s.updBinding c v r f).now = s.now := rfl
@[simp] theorem State.updBinding_phcS (s : State) (c : Nat) (v : Bool) (r : Nat) (f : Binding → Binding) : (s.updBinding c v r f).phcS = s.phcS := rfl
@[simp] theorem State.updBinding_phcNs (s : State) (c : Nat) (v : Bool) (r : Nat) (f : Binding → Binding) : (s.updBinding c v r f).phcNs = s.phcNs := rfl
@[simp] theorem State.updBinding_phcFrac (s : State) (c : Nat) (v : Bool) (r : Nat) (f : Binding → Binding) : (s.updBinding c v r f).phcFrac = s.phcFrac := rfl
@[simp] theorem State.updBinding_rate (s : State) (c : Nat) (v : Bool) (r : Nat) (f : Binding → Binding) : (s.updBinding c v r f).rate = s.rate := rfl
@[simp] theorem State.updBinding_mem (s : State) (c : Nat) (v : Bool) (r : Nat) (f : Binding → Binding) : (s.updBinding c v r f).mem = s.mem := rfl
@[simp] theorem State.updBinding_memPoison (s : State) (c : Nat) (v : Bool) (r : Nat) (f : Binding → Binding) : (s.updBinding c v r f).memPoison = s.memPoison := rfl
@[simp] theorem State.updBinding_memFull (s : State) (c : Nat) (v : Bool) (r : Nat) (f : Binding → Binding) : (s.updBinding c v r f).memFull = s.memFull := rfl
@[simp] theorem State.updBinding_memDeferred (s : State) (c : Nat) (v : Bool) (r : Nat) (f : Binding → Binding) : (s.updBinding c v r f).memDeferred = s.memDeferred := rfl
@[simp] theorem State.updBinding_memAnswered (s : State) (c : Nat) (v : Bool) (r : Nat) (f : Binding → Binding) : (s.updBinding c v r f).memAnswered = s.memAnswered := rfl
@[simp] theorem State.updBinding_hostMem (s : State) (c : Nat) (v : Bool) (r : Nat) (f : Binding → Binding) : (s.updBinding c v r f).hostMem = s.hostMem := rfl
@[simp] theorem State.updBinding_hostStores (s : State) (c : Nat) (v : Bool) (r : Nat) (f : Binding → Binding) : (s.updBinding c v r f).hostStores = s.hostStores := rfl
@[simp] theorem State.updBinding_halls (s : State) (c : Nat) (v : Bool) (r : Nat) (f : Binding → Binding) : (s.updBinding c v r f).halls = s.halls := rfl
@[simp] theorem State.updBinding_groups (s : State) (c : Nat) (v : Bool) (r : Nat) (f : Binding → Binding) : (s.updBinding c v r f).groups = s.groups := rfl
@[simp] theorem State.updBinding_net (s : State) (c : Nat) (v : Bool) (r : Nat) (f : Binding → Binding) : (s.updBinding c v r f).net = s.net := rfl
@[simp] theorem State.updBinding_hops (s : State) (c : Nat) (v : Bool) (r : Nat) (f : Binding → Binding) : (s.updBinding c v r f).hops = s.hops := rfl
@[simp] theorem State.updBinding_cfgs (s : State) (c : Nat) (v : Bool) (r : Nat) (f : Binding → Binding) : (s.updBinding c v r f).cfgs = s.cfgs := rfl
@[simp] theorem State.updBinding_ctxs (s : State) (c : Nat) (v : Bool) (r : Nat) (f : Binding → Binding) : (s.updBinding c v r f).ctxs = s.ctxs := rfl
@[simp] theorem State.updBinding_cp (s : State) (c : Nat) (v : Bool) (r : Nat) (f : Binding → Binding) : (s.updBinding c v r f).cp = s.cp := rfl
@[simp] theorem State.updBinding_mirror (s : State) (c : Nat) (v : Bool) (r : Nat) (f : Binding → Binding) : (s.updBinding c v r f).mirror = s.mirror := rfl
@[simp] theorem State.updBinding_ports (s : State) (c : Nat) (v : Bool) (r : Nat) (f : Binding → Binding) : (s.updBinding c v r f).ports = s.ports := rfl
@[simp] theorem State.updBinding_focus (s : State) (c : Nat) (v : Bool) (r : Nat) (f : Binding → Binding) : (s.updBinding c v r f).focus = s.focus := rfl
@[simp] theorem State.updBinding_slot (s : State) (c : Nat) (v : Bool) (r : Nat) (f : Binding → Binding) : (s.updBinding c v r f).slot = s.slot := rfl
@[simp] theorem State.updBinding_turns (s : State) (c : Nat) (v : Bool) (r : Nat) (f : Binding → Binding) : (s.updBinding c v r f).turns = s.turns := rfl
@[simp] theorem State.updBinding_choice (s : State) (c : Nat) (v : Bool) (r : Nat) (f : Binding → Binding) : (s.updBinding c v r f).choice = s.choice := rfl
@[simp] theorem State.updBinding_fresh (s : State) (c : Nat) (v : Bool) (r : Nat) (f : Binding → Binding) : (s.updBinding c v r f).fresh = s.fresh := rfl

@[simp] theorem State.updHall_now (s : State) (h : Nat) (f : Hall → Hall) : (s.updHall h f).now = s.now := rfl
@[simp] theorem State.updHall_phcS (s : State) (h : Nat) (f : Hall → Hall) : (s.updHall h f).phcS = s.phcS := rfl
@[simp] theorem State.updHall_phcNs (s : State) (h : Nat) (f : Hall → Hall) : (s.updHall h f).phcNs = s.phcNs := rfl
@[simp] theorem State.updHall_phcFrac (s : State) (h : Nat) (f : Hall → Hall) : (s.updHall h f).phcFrac = s.phcFrac := rfl
@[simp] theorem State.updHall_rate (s : State) (h : Nat) (f : Hall → Hall) : (s.updHall h f).rate = s.rate := rfl
@[simp] theorem State.updHall_mem (s : State) (h : Nat) (f : Hall → Hall) : (s.updHall h f).mem = s.mem := rfl
@[simp] theorem State.updHall_memPoison (s : State) (h : Nat) (f : Hall → Hall) : (s.updHall h f).memPoison = s.memPoison := rfl
@[simp] theorem State.updHall_memFull (s : State) (h : Nat) (f : Hall → Hall) : (s.updHall h f).memFull = s.memFull := rfl
@[simp] theorem State.updHall_memDeferred (s : State) (h : Nat) (f : Hall → Hall) : (s.updHall h f).memDeferred = s.memDeferred := rfl
@[simp] theorem State.updHall_memAnswered (s : State) (h : Nat) (f : Hall → Hall) : (s.updHall h f).memAnswered = s.memAnswered := rfl
@[simp] theorem State.updHall_hostMem (s : State) (h : Nat) (f : Hall → Hall) : (s.updHall h f).hostMem = s.hostMem := rfl
@[simp] theorem State.updHall_hostStores (s : State) (h : Nat) (f : Hall → Hall) : (s.updHall h f).hostStores = s.hostStores := rfl
@[simp] theorem State.updHall_cells (s : State) (h : Nat) (f : Hall → Hall) : (s.updHall h f).cells = s.cells := rfl
@[simp] theorem State.updHall_groups (s : State) (h : Nat) (f : Hall → Hall) : (s.updHall h f).groups = s.groups := rfl
@[simp] theorem State.updHall_net (s : State) (h : Nat) (f : Hall → Hall) : (s.updHall h f).net = s.net := rfl
@[simp] theorem State.updHall_hops (s : State) (h : Nat) (f : Hall → Hall) : (s.updHall h f).hops = s.hops := rfl
@[simp] theorem State.updHall_cfgs (s : State) (h : Nat) (f : Hall → Hall) : (s.updHall h f).cfgs = s.cfgs := rfl
@[simp] theorem State.updHall_ctxs (s : State) (h : Nat) (f : Hall → Hall) : (s.updHall h f).ctxs = s.ctxs := rfl
@[simp] theorem State.updHall_cp (s : State) (h : Nat) (f : Hall → Hall) : (s.updHall h f).cp = s.cp := rfl
@[simp] theorem State.updHall_mirror (s : State) (h : Nat) (f : Hall → Hall) : (s.updHall h f).mirror = s.mirror := rfl
@[simp] theorem State.updHall_ports (s : State) (h : Nat) (f : Hall → Hall) : (s.updHall h f).ports = s.ports := rfl
@[simp] theorem State.updHall_focus (s : State) (h : Nat) (f : Hall → Hall) : (s.updHall h f).focus = s.focus := rfl
@[simp] theorem State.updHall_slot (s : State) (h : Nat) (f : Hall → Hall) : (s.updHall h f).slot = s.slot := rfl
@[simp] theorem State.updHall_turns (s : State) (h : Nat) (f : Hall → Hall) : (s.updHall h f).turns = s.turns := rfl
@[simp] theorem State.updHall_choice (s : State) (h : Nat) (f : Hall → Hall) : (s.updHall h f).choice = s.choice := rfl
@[simp] theorem State.updHall_fresh (s : State) (h : Nat) (f : Hall → Hall) : (s.updHall h f).fresh = s.fresh := rfl

@[simp] theorem State.updCtx_now (s : State) (c : BitVec 10) (f : Ctx → Ctx) : (s.updCtx c f).now = s.now := rfl
@[simp] theorem State.updCtx_phcS (s : State) (c : BitVec 10) (f : Ctx → Ctx) : (s.updCtx c f).phcS = s.phcS := rfl
@[simp] theorem State.updCtx_phcNs (s : State) (c : BitVec 10) (f : Ctx → Ctx) : (s.updCtx c f).phcNs = s.phcNs := rfl
@[simp] theorem State.updCtx_phcFrac (s : State) (c : BitVec 10) (f : Ctx → Ctx) : (s.updCtx c f).phcFrac = s.phcFrac := rfl
@[simp] theorem State.updCtx_rate (s : State) (c : BitVec 10) (f : Ctx → Ctx) : (s.updCtx c f).rate = s.rate := rfl
@[simp] theorem State.updCtx_mem (s : State) (c : BitVec 10) (f : Ctx → Ctx) : (s.updCtx c f).mem = s.mem := rfl
@[simp] theorem State.updCtx_memPoison (s : State) (c : BitVec 10) (f : Ctx → Ctx) : (s.updCtx c f).memPoison = s.memPoison := rfl
@[simp] theorem State.updCtx_memFull (s : State) (c : BitVec 10) (f : Ctx → Ctx) : (s.updCtx c f).memFull = s.memFull := rfl
@[simp] theorem State.updCtx_memDeferred (s : State) (c : BitVec 10) (f : Ctx → Ctx) : (s.updCtx c f).memDeferred = s.memDeferred := rfl
@[simp] theorem State.updCtx_memAnswered (s : State) (c : BitVec 10) (f : Ctx → Ctx) : (s.updCtx c f).memAnswered = s.memAnswered := rfl
@[simp] theorem State.updCtx_hostMem (s : State) (c : BitVec 10) (f : Ctx → Ctx) : (s.updCtx c f).hostMem = s.hostMem := rfl
@[simp] theorem State.updCtx_hostStores (s : State) (c : BitVec 10) (f : Ctx → Ctx) : (s.updCtx c f).hostStores = s.hostStores := rfl
@[simp] theorem State.updCtx_cells (s : State) (c : BitVec 10) (f : Ctx → Ctx) : (s.updCtx c f).cells = s.cells := rfl
@[simp] theorem State.updCtx_halls (s : State) (c : BitVec 10) (f : Ctx → Ctx) : (s.updCtx c f).halls = s.halls := rfl
@[simp] theorem State.updCtx_groups (s : State) (c : BitVec 10) (f : Ctx → Ctx) : (s.updCtx c f).groups = s.groups := rfl
@[simp] theorem State.updCtx_net (s : State) (c : BitVec 10) (f : Ctx → Ctx) : (s.updCtx c f).net = s.net := rfl
@[simp] theorem State.updCtx_hops (s : State) (c : BitVec 10) (f : Ctx → Ctx) : (s.updCtx c f).hops = s.hops := rfl
@[simp] theorem State.updCtx_cfgs (s : State) (c : BitVec 10) (f : Ctx → Ctx) : (s.updCtx c f).cfgs = s.cfgs := rfl
@[simp] theorem State.updCtx_cp (s : State) (c : BitVec 10) (f : Ctx → Ctx) : (s.updCtx c f).cp = s.cp := rfl
@[simp] theorem State.updCtx_mirror (s : State) (c : BitVec 10) (f : Ctx → Ctx) : (s.updCtx c f).mirror = s.mirror := rfl
@[simp] theorem State.updCtx_ports (s : State) (c : BitVec 10) (f : Ctx → Ctx) : (s.updCtx c f).ports = s.ports := rfl
@[simp] theorem State.updCtx_focus (s : State) (c : BitVec 10) (f : Ctx → Ctx) : (s.updCtx c f).focus = s.focus := rfl
@[simp] theorem State.updCtx_slot (s : State) (c : BitVec 10) (f : Ctx → Ctx) : (s.updCtx c f).slot = s.slot := rfl
@[simp] theorem State.updCtx_turns (s : State) (c : BitVec 10) (f : Ctx → Ctx) : (s.updCtx c f).turns = s.turns := rfl
@[simp] theorem State.updCtx_choice (s : State) (c : BitVec 10) (f : Ctx → Ctx) : (s.updCtx c f).choice = s.choice := rfl
@[simp] theorem State.updCtx_fresh (s : State) (c : BitVec 10) (f : Ctx → Ctx) : (s.updCtx c f).fresh = s.fresh := rfl

@[simp] theorem State.updPort_now (s : State) (p : Nat) (f : Port → Port) : (s.updPort p f).now = s.now := rfl
@[simp] theorem State.updPort_phcS (s : State) (p : Nat) (f : Port → Port) : (s.updPort p f).phcS = s.phcS := rfl
@[simp] theorem State.updPort_phcNs (s : State) (p : Nat) (f : Port → Port) : (s.updPort p f).phcNs = s.phcNs := rfl
@[simp] theorem State.updPort_phcFrac (s : State) (p : Nat) (f : Port → Port) : (s.updPort p f).phcFrac = s.phcFrac := rfl
@[simp] theorem State.updPort_rate (s : State) (p : Nat) (f : Port → Port) : (s.updPort p f).rate = s.rate := rfl
@[simp] theorem State.updPort_mem (s : State) (p : Nat) (f : Port → Port) : (s.updPort p f).mem = s.mem := rfl
@[simp] theorem State.updPort_memPoison (s : State) (p : Nat) (f : Port → Port) : (s.updPort p f).memPoison = s.memPoison := rfl
@[simp] theorem State.updPort_memFull (s : State) (p : Nat) (f : Port → Port) : (s.updPort p f).memFull = s.memFull := rfl
@[simp] theorem State.updPort_memDeferred (s : State) (p : Nat) (f : Port → Port) : (s.updPort p f).memDeferred = s.memDeferred := rfl
@[simp] theorem State.updPort_memAnswered (s : State) (p : Nat) (f : Port → Port) : (s.updPort p f).memAnswered = s.memAnswered := rfl
@[simp] theorem State.updPort_hostMem (s : State) (p : Nat) (f : Port → Port) : (s.updPort p f).hostMem = s.hostMem := rfl
@[simp] theorem State.updPort_hostStores (s : State) (p : Nat) (f : Port → Port) : (s.updPort p f).hostStores = s.hostStores := rfl
@[simp] theorem State.updPort_cells (s : State) (p : Nat) (f : Port → Port) : (s.updPort p f).cells = s.cells := rfl
@[simp] theorem State.updPort_halls (s : State) (p : Nat) (f : Port → Port) : (s.updPort p f).halls = s.halls := rfl
@[simp] theorem State.updPort_groups (s : State) (p : Nat) (f : Port → Port) : (s.updPort p f).groups = s.groups := rfl
@[simp] theorem State.updPort_net (s : State) (p : Nat) (f : Port → Port) : (s.updPort p f).net = s.net := rfl
@[simp] theorem State.updPort_hops (s : State) (p : Nat) (f : Port → Port) : (s.updPort p f).hops = s.hops := rfl
@[simp] theorem State.updPort_cfgs (s : State) (p : Nat) (f : Port → Port) : (s.updPort p f).cfgs = s.cfgs := rfl
@[simp] theorem State.updPort_ctxs (s : State) (p : Nat) (f : Port → Port) : (s.updPort p f).ctxs = s.ctxs := rfl
@[simp] theorem State.updPort_cp (s : State) (p : Nat) (f : Port → Port) : (s.updPort p f).cp = s.cp := rfl
@[simp] theorem State.updPort_mirror (s : State) (p : Nat) (f : Port → Port) : (s.updPort p f).mirror = s.mirror := rfl
@[simp] theorem State.updPort_focus (s : State) (p : Nat) (f : Port → Port) : (s.updPort p f).focus = s.focus := rfl
@[simp] theorem State.updPort_slot (s : State) (p : Nat) (f : Port → Port) : (s.updPort p f).slot = s.slot := rfl
@[simp] theorem State.updPort_turns (s : State) (p : Nat) (f : Port → Port) : (s.updPort p f).turns = s.turns := rfl
@[simp] theorem State.updPort_choice (s : State) (p : Nat) (f : Port → Port) : (s.updPort p f).choice = s.choice := rfl
@[simp] theorem State.updPort_fresh (s : State) (p : Nat) (f : Port → Port) : (s.updPort p f).fresh = s.fresh := rfl

@[simp] theorem State.send_now (s : State) (p : Packet) : (s.send p).now = s.now := rfl
@[simp] theorem State.send_phcS (s : State) (p : Packet) : (s.send p).phcS = s.phcS := rfl
@[simp] theorem State.send_phcNs (s : State) (p : Packet) : (s.send p).phcNs = s.phcNs := rfl
@[simp] theorem State.send_phcFrac (s : State) (p : Packet) : (s.send p).phcFrac = s.phcFrac := rfl
@[simp] theorem State.send_rate (s : State) (p : Packet) : (s.send p).rate = s.rate := rfl
@[simp] theorem State.send_mem (s : State) (p : Packet) : (s.send p).mem = s.mem := rfl
@[simp] theorem State.send_memPoison (s : State) (p : Packet) : (s.send p).memPoison = s.memPoison := rfl
@[simp] theorem State.send_memFull (s : State) (p : Packet) : (s.send p).memFull = s.memFull := rfl
@[simp] theorem State.send_memDeferred (s : State) (p : Packet) : (s.send p).memDeferred = s.memDeferred := rfl
@[simp] theorem State.send_memAnswered (s : State) (p : Packet) : (s.send p).memAnswered = s.memAnswered := rfl
@[simp] theorem State.send_hostMem (s : State) (p : Packet) : (s.send p).hostMem = s.hostMem := rfl
@[simp] theorem State.send_hostStores (s : State) (p : Packet) : (s.send p).hostStores = s.hostStores := rfl
@[simp] theorem State.send_cells (s : State) (p : Packet) : (s.send p).cells = s.cells := rfl
@[simp] theorem State.send_halls (s : State) (p : Packet) : (s.send p).halls = s.halls := rfl
@[simp] theorem State.send_groups (s : State) (p : Packet) : (s.send p).groups = s.groups := rfl
@[simp] theorem State.send_hops (s : State) (p : Packet) : (s.send p).hops = s.hops := rfl
@[simp] theorem State.send_cfgs (s : State) (p : Packet) : (s.send p).cfgs = s.cfgs := rfl
@[simp] theorem State.send_ctxs (s : State) (p : Packet) : (s.send p).ctxs = s.ctxs := rfl
@[simp] theorem State.send_cp (s : State) (p : Packet) : (s.send p).cp = s.cp := rfl
@[simp] theorem State.send_mirror (s : State) (p : Packet) : (s.send p).mirror = s.mirror := rfl
@[simp] theorem State.send_ports (s : State) (p : Packet) : (s.send p).ports = s.ports := rfl
@[simp] theorem State.send_focus (s : State) (p : Packet) : (s.send p).focus = s.focus := rfl
@[simp] theorem State.send_slot (s : State) (p : Packet) : (s.send p).slot = s.slot := rfl
@[simp] theorem State.send_turns (s : State) (p : Packet) : (s.send p).turns = s.turns := rfl
@[simp] theorem State.send_choice (s : State) (p : Packet) : (s.send p).choice = s.choice := rfl
@[simp] theorem State.send_fresh (s : State) (p : Packet) : (s.send p).fresh = s.fresh := rfl

@[simp] theorem State.useFree_now (s : State) : (s.useFree).now = s.now := rfl
@[simp] theorem State.useFree_phcS (s : State) : (s.useFree).phcS = s.phcS := rfl
@[simp] theorem State.useFree_phcNs (s : State) : (s.useFree).phcNs = s.phcNs := rfl
@[simp] theorem State.useFree_phcFrac (s : State) : (s.useFree).phcFrac = s.phcFrac := rfl
@[simp] theorem State.useFree_rate (s : State) : (s.useFree).rate = s.rate := rfl
@[simp] theorem State.useFree_mem (s : State) : (s.useFree).mem = s.mem := rfl
@[simp] theorem State.useFree_memPoison (s : State) : (s.useFree).memPoison = s.memPoison := rfl
@[simp] theorem State.useFree_memFull (s : State) : (s.useFree).memFull = s.memFull := rfl
@[simp] theorem State.useFree_memDeferred (s : State) : (s.useFree).memDeferred = s.memDeferred := rfl
@[simp] theorem State.useFree_memAnswered (s : State) : (s.useFree).memAnswered = s.memAnswered := rfl
@[simp] theorem State.useFree_hostMem (s : State) : (s.useFree).hostMem = s.hostMem := rfl
@[simp] theorem State.useFree_hostStores (s : State) : (s.useFree).hostStores = s.hostStores := rfl
@[simp] theorem State.useFree_cells (s : State) : (s.useFree).cells = s.cells := rfl
@[simp] theorem State.useFree_halls (s : State) : (s.useFree).halls = s.halls := rfl
@[simp] theorem State.useFree_groups (s : State) : (s.useFree).groups = s.groups := rfl
@[simp] theorem State.useFree_net (s : State) : (s.useFree).net = s.net := rfl
@[simp] theorem State.useFree_hops (s : State) : (s.useFree).hops = s.hops := rfl
@[simp] theorem State.useFree_cfgs (s : State) : (s.useFree).cfgs = s.cfgs := rfl
@[simp] theorem State.useFree_ctxs (s : State) : (s.useFree).ctxs = s.ctxs := rfl
@[simp] theorem State.useFree_cp (s : State) : (s.useFree).cp = s.cp := rfl
@[simp] theorem State.useFree_mirror (s : State) : (s.useFree).mirror = s.mirror := rfl
@[simp] theorem State.useFree_ports (s : State) : (s.useFree).ports = s.ports := rfl
@[simp] theorem State.useFree_focus (s : State) : (s.useFree).focus = s.focus := rfl
@[simp] theorem State.useFree_slot (s : State) : (s.useFree).slot = s.slot := rfl
@[simp] theorem State.useFree_turns (s : State) : (s.useFree).turns = s.turns := rfl
@[simp] theorem State.useFree_choice (s : State) : (s.useFree).choice = s.choice := rfl

@[simp] theorem State.writeByte_now (s : State) (a : Nat) (b : Byte) : (s.writeByte a b).now = s.now := rfl
@[simp] theorem State.writeByte_phcS (s : State) (a : Nat) (b : Byte) : (s.writeByte a b).phcS = s.phcS := rfl
@[simp] theorem State.writeByte_phcNs (s : State) (a : Nat) (b : Byte) : (s.writeByte a b).phcNs = s.phcNs := rfl
@[simp] theorem State.writeByte_phcFrac (s : State) (a : Nat) (b : Byte) : (s.writeByte a b).phcFrac = s.phcFrac := rfl
@[simp] theorem State.writeByte_rate (s : State) (a : Nat) (b : Byte) : (s.writeByte a b).rate = s.rate := rfl
@[simp] theorem State.writeByte_memPoison (s : State) (a : Nat) (b : Byte) : (s.writeByte a b).memPoison = s.memPoison := rfl
@[simp] theorem State.writeByte_memFull (s : State) (a : Nat) (b : Byte) : (s.writeByte a b).memFull = s.memFull := rfl
@[simp] theorem State.writeByte_memDeferred (s : State) (a : Nat) (b : Byte) : (s.writeByte a b).memDeferred = s.memDeferred := rfl
@[simp] theorem State.writeByte_memAnswered (s : State) (a : Nat) (b : Byte) : (s.writeByte a b).memAnswered = s.memAnswered := rfl
@[simp] theorem State.writeByte_hostMem (s : State) (a : Nat) (b : Byte) : (s.writeByte a b).hostMem = s.hostMem := rfl
@[simp] theorem State.writeByte_hostStores (s : State) (a : Nat) (b : Byte) : (s.writeByte a b).hostStores = s.hostStores := rfl
@[simp] theorem State.writeByte_cells (s : State) (a : Nat) (b : Byte) : (s.writeByte a b).cells = s.cells := rfl
@[simp] theorem State.writeByte_halls (s : State) (a : Nat) (b : Byte) : (s.writeByte a b).halls = s.halls := rfl
@[simp] theorem State.writeByte_groups (s : State) (a : Nat) (b : Byte) : (s.writeByte a b).groups = s.groups := rfl
@[simp] theorem State.writeByte_net (s : State) (a : Nat) (b : Byte) : (s.writeByte a b).net = s.net := rfl
@[simp] theorem State.writeByte_hops (s : State) (a : Nat) (b : Byte) : (s.writeByte a b).hops = s.hops := rfl
@[simp] theorem State.writeByte_cfgs (s : State) (a : Nat) (b : Byte) : (s.writeByte a b).cfgs = s.cfgs := rfl
@[simp] theorem State.writeByte_ctxs (s : State) (a : Nat) (b : Byte) : (s.writeByte a b).ctxs = s.ctxs := rfl
@[simp] theorem State.writeByte_cp (s : State) (a : Nat) (b : Byte) : (s.writeByte a b).cp = s.cp := rfl
@[simp] theorem State.writeByte_mirror (s : State) (a : Nat) (b : Byte) : (s.writeByte a b).mirror = s.mirror := rfl
@[simp] theorem State.writeByte_ports (s : State) (a : Nat) (b : Byte) : (s.writeByte a b).ports = s.ports := rfl
@[simp] theorem State.writeByte_focus (s : State) (a : Nat) (b : Byte) : (s.writeByte a b).focus = s.focus := rfl
@[simp] theorem State.writeByte_slot (s : State) (a : Nat) (b : Byte) : (s.writeByte a b).slot = s.slot := rfl
@[simp] theorem State.writeByte_turns (s : State) (a : Nat) (b : Byte) : (s.writeByte a b).turns = s.turns := rfl
@[simp] theorem State.writeByte_choice (s : State) (a : Nat) (b : Byte) : (s.writeByte a b).choice = s.choice := rfl
@[simp] theorem State.writeByte_fresh (s : State) (a : Nat) (b : Byte) : (s.writeByte a b).fresh = s.fresh := rfl

@[simp] theorem State.dirtyHome_now (s : State) (a : Nat) : (s.dirtyHome a).now = s.now := rfl
@[simp] theorem State.dirtyHome_phcS (s : State) (a : Nat) : (s.dirtyHome a).phcS = s.phcS := rfl
@[simp] theorem State.dirtyHome_phcNs (s : State) (a : Nat) : (s.dirtyHome a).phcNs = s.phcNs := rfl
@[simp] theorem State.dirtyHome_phcFrac (s : State) (a : Nat) : (s.dirtyHome a).phcFrac = s.phcFrac := rfl
@[simp] theorem State.dirtyHome_rate (s : State) (a : Nat) : (s.dirtyHome a).rate = s.rate := rfl
@[simp] theorem State.dirtyHome_mem (s : State) (a : Nat) : (s.dirtyHome a).mem = s.mem := rfl
@[simp] theorem State.dirtyHome_memPoison (s : State) (a : Nat) : (s.dirtyHome a).memPoison = s.memPoison := rfl
@[simp] theorem State.dirtyHome_memFull (s : State) (a : Nat) : (s.dirtyHome a).memFull = s.memFull := rfl
@[simp] theorem State.dirtyHome_memDeferred (s : State) (a : Nat) : (s.dirtyHome a).memDeferred = s.memDeferred := rfl
@[simp] theorem State.dirtyHome_memAnswered (s : State) (a : Nat) : (s.dirtyHome a).memAnswered = s.memAnswered := rfl
@[simp] theorem State.dirtyHome_hostMem (s : State) (a : Nat) : (s.dirtyHome a).hostMem = s.hostMem := rfl
@[simp] theorem State.dirtyHome_hostStores (s : State) (a : Nat) : (s.dirtyHome a).hostStores = s.hostStores := rfl
@[simp] theorem State.dirtyHome_cells (s : State) (a : Nat) : (s.dirtyHome a).cells = s.cells := rfl
@[simp] theorem State.dirtyHome_groups (s : State) (a : Nat) : (s.dirtyHome a).groups = s.groups := rfl
@[simp] theorem State.dirtyHome_net (s : State) (a : Nat) : (s.dirtyHome a).net = s.net := rfl
@[simp] theorem State.dirtyHome_hops (s : State) (a : Nat) : (s.dirtyHome a).hops = s.hops := rfl
@[simp] theorem State.dirtyHome_cfgs (s : State) (a : Nat) : (s.dirtyHome a).cfgs = s.cfgs := rfl
@[simp] theorem State.dirtyHome_ctxs (s : State) (a : Nat) : (s.dirtyHome a).ctxs = s.ctxs := rfl
@[simp] theorem State.dirtyHome_cp (s : State) (a : Nat) : (s.dirtyHome a).cp = s.cp := rfl
@[simp] theorem State.dirtyHome_mirror (s : State) (a : Nat) : (s.dirtyHome a).mirror = s.mirror := rfl
@[simp] theorem State.dirtyHome_ports (s : State) (a : Nat) : (s.dirtyHome a).ports = s.ports := rfl
@[simp] theorem State.dirtyHome_focus (s : State) (a : Nat) : (s.dirtyHome a).focus = s.focus := rfl
@[simp] theorem State.dirtyHome_slot (s : State) (a : Nat) : (s.dirtyHome a).slot = s.slot := rfl
@[simp] theorem State.dirtyHome_turns (s : State) (a : Nat) : (s.dirtyHome a).turns = s.turns := rfl
@[simp] theorem State.dirtyHome_choice (s : State) (a : Nat) : (s.dirtyHome a).choice = s.choice := rfl
@[simp] theorem State.dirtyHome_fresh (s : State) (a : Nat) : (s.dirtyHome a).fresh = s.fresh := rfl

@[simp] theorem State.setSectorPoison_now (s : State) (a : Nat) (b : Bool) : (s.setSectorPoison a b).now = s.now := rfl
@[simp] theorem State.setSectorPoison_phcS (s : State) (a : Nat) (b : Bool) : (s.setSectorPoison a b).phcS = s.phcS := rfl
@[simp] theorem State.setSectorPoison_phcNs (s : State) (a : Nat) (b : Bool) : (s.setSectorPoison a b).phcNs = s.phcNs := rfl
@[simp] theorem State.setSectorPoison_phcFrac (s : State) (a : Nat) (b : Bool) : (s.setSectorPoison a b).phcFrac = s.phcFrac := rfl
@[simp] theorem State.setSectorPoison_rate (s : State) (a : Nat) (b : Bool) : (s.setSectorPoison a b).rate = s.rate := rfl
@[simp] theorem State.setSectorPoison_mem (s : State) (a : Nat) (b : Bool) : (s.setSectorPoison a b).mem = s.mem := rfl
@[simp] theorem State.setSectorPoison_memFull (s : State) (a : Nat) (b : Bool) : (s.setSectorPoison a b).memFull = s.memFull := rfl
@[simp] theorem State.setSectorPoison_memDeferred (s : State) (a : Nat) (b : Bool) : (s.setSectorPoison a b).memDeferred = s.memDeferred := rfl
@[simp] theorem State.setSectorPoison_memAnswered (s : State) (a : Nat) (b : Bool) : (s.setSectorPoison a b).memAnswered = s.memAnswered := rfl
@[simp] theorem State.setSectorPoison_hostMem (s : State) (a : Nat) (b : Bool) : (s.setSectorPoison a b).hostMem = s.hostMem := rfl
@[simp] theorem State.setSectorPoison_hostStores (s : State) (a : Nat) (b : Bool) : (s.setSectorPoison a b).hostStores = s.hostStores := rfl
@[simp] theorem State.setSectorPoison_cells (s : State) (a : Nat) (b : Bool) : (s.setSectorPoison a b).cells = s.cells := rfl
@[simp] theorem State.setSectorPoison_halls (s : State) (a : Nat) (b : Bool) : (s.setSectorPoison a b).halls = s.halls := rfl
@[simp] theorem State.setSectorPoison_groups (s : State) (a : Nat) (b : Bool) : (s.setSectorPoison a b).groups = s.groups := rfl
@[simp] theorem State.setSectorPoison_net (s : State) (a : Nat) (b : Bool) : (s.setSectorPoison a b).net = s.net := rfl
@[simp] theorem State.setSectorPoison_hops (s : State) (a : Nat) (b : Bool) : (s.setSectorPoison a b).hops = s.hops := rfl
@[simp] theorem State.setSectorPoison_cfgs (s : State) (a : Nat) (b : Bool) : (s.setSectorPoison a b).cfgs = s.cfgs := rfl
@[simp] theorem State.setSectorPoison_ctxs (s : State) (a : Nat) (b : Bool) : (s.setSectorPoison a b).ctxs = s.ctxs := rfl
@[simp] theorem State.setSectorPoison_cp (s : State) (a : Nat) (b : Bool) : (s.setSectorPoison a b).cp = s.cp := rfl
@[simp] theorem State.setSectorPoison_mirror (s : State) (a : Nat) (b : Bool) : (s.setSectorPoison a b).mirror = s.mirror := rfl
@[simp] theorem State.setSectorPoison_ports (s : State) (a : Nat) (b : Bool) : (s.setSectorPoison a b).ports = s.ports := rfl
@[simp] theorem State.setSectorPoison_focus (s : State) (a : Nat) (b : Bool) : (s.setSectorPoison a b).focus = s.focus := rfl
@[simp] theorem State.setSectorPoison_slot (s : State) (a : Nat) (b : Bool) : (s.setSectorPoison a b).slot = s.slot := rfl
@[simp] theorem State.setSectorPoison_turns (s : State) (a : Nat) (b : Bool) : (s.setSectorPoison a b).turns = s.turns := rfl
@[simp] theorem State.setSectorPoison_choice (s : State) (a : Nat) (b : Bool) : (s.setSectorPoison a b).choice = s.choice := rfl
@[simp] theorem State.setSectorPoison_fresh (s : State) (a : Nat) (b : Bool) : (s.setSectorPoison a b).fresh = s.fresh := rfl

@[simp] theorem State.chrono_now (s : State) (h type word : Nat) : (s.chrono h type word).now = s.now := rfl
@[simp] theorem State.chrono_phcS (s : State) (h type word : Nat) : (s.chrono h type word).phcS = s.phcS := rfl
@[simp] theorem State.chrono_phcNs (s : State) (h type word : Nat) : (s.chrono h type word).phcNs = s.phcNs := rfl
@[simp] theorem State.chrono_phcFrac (s : State) (h type word : Nat) : (s.chrono h type word).phcFrac = s.phcFrac := rfl
@[simp] theorem State.chrono_rate (s : State) (h type word : Nat) : (s.chrono h type word).rate = s.rate := rfl
@[simp] theorem State.chrono_mem (s : State) (h type word : Nat) : (s.chrono h type word).mem = s.mem := rfl
@[simp] theorem State.chrono_memPoison (s : State) (h type word : Nat) : (s.chrono h type word).memPoison = s.memPoison := rfl
@[simp] theorem State.chrono_memFull (s : State) (h type word : Nat) : (s.chrono h type word).memFull = s.memFull := rfl
@[simp] theorem State.chrono_memDeferred (s : State) (h type word : Nat) : (s.chrono h type word).memDeferred = s.memDeferred := rfl
@[simp] theorem State.chrono_memAnswered (s : State) (h type word : Nat) : (s.chrono h type word).memAnswered = s.memAnswered := rfl
@[simp] theorem State.chrono_hostMem (s : State) (h type word : Nat) : (s.chrono h type word).hostMem = s.hostMem := rfl
@[simp] theorem State.chrono_hostStores (s : State) (h type word : Nat) : (s.chrono h type word).hostStores = s.hostStores := rfl
@[simp] theorem State.chrono_cells (s : State) (h type word : Nat) : (s.chrono h type word).cells = s.cells := rfl
@[simp] theorem State.chrono_groups (s : State) (h type word : Nat) : (s.chrono h type word).groups = s.groups := rfl
@[simp] theorem State.chrono_net (s : State) (h type word : Nat) : (s.chrono h type word).net = s.net := rfl
@[simp] theorem State.chrono_hops (s : State) (h type word : Nat) : (s.chrono h type word).hops = s.hops := rfl
@[simp] theorem State.chrono_cfgs (s : State) (h type word : Nat) : (s.chrono h type word).cfgs = s.cfgs := rfl
@[simp] theorem State.chrono_ctxs (s : State) (h type word : Nat) : (s.chrono h type word).ctxs = s.ctxs := rfl
@[simp] theorem State.chrono_cp (s : State) (h type word : Nat) : (s.chrono h type word).cp = s.cp := rfl
@[simp] theorem State.chrono_mirror (s : State) (h type word : Nat) : (s.chrono h type word).mirror = s.mirror := rfl
@[simp] theorem State.chrono_ports (s : State) (h type word : Nat) : (s.chrono h type word).ports = s.ports := rfl
@[simp] theorem State.chrono_focus (s : State) (h type word : Nat) : (s.chrono h type word).focus = s.focus := rfl
@[simp] theorem State.chrono_slot (s : State) (h type word : Nat) : (s.chrono h type word).slot = s.slot := rfl
@[simp] theorem State.chrono_turns (s : State) (h type word : Nat) : (s.chrono h type word).turns = s.turns := rfl
@[simp] theorem State.chrono_choice (s : State) (h type word : Nat) : (s.chrono h type word).choice = s.choice := rfl
@[simp] theorem State.chrono_fresh (s : State) (h type word : Nat) : (s.chrono h type word).fresh = s.fresh := rfl

@[simp] theorem State.setTask_now (s : State) (r : TaskRef) (t : Task) : (s.setTask r t).now = s.now := rfl
@[simp] theorem State.setTask_phcS (s : State) (r : TaskRef) (t : Task) : (s.setTask r t).phcS = s.phcS := rfl
@[simp] theorem State.setTask_phcNs (s : State) (r : TaskRef) (t : Task) : (s.setTask r t).phcNs = s.phcNs := rfl
@[simp] theorem State.setTask_phcFrac (s : State) (r : TaskRef) (t : Task) : (s.setTask r t).phcFrac = s.phcFrac := rfl
@[simp] theorem State.setTask_rate (s : State) (r : TaskRef) (t : Task) : (s.setTask r t).rate = s.rate := rfl
@[simp] theorem State.setTask_mem (s : State) (r : TaskRef) (t : Task) : (s.setTask r t).mem = s.mem := rfl
@[simp] theorem State.setTask_memPoison (s : State) (r : TaskRef) (t : Task) : (s.setTask r t).memPoison = s.memPoison := rfl
@[simp] theorem State.setTask_memFull (s : State) (r : TaskRef) (t : Task) : (s.setTask r t).memFull = s.memFull := rfl
@[simp] theorem State.setTask_memDeferred (s : State) (r : TaskRef) (t : Task) : (s.setTask r t).memDeferred = s.memDeferred := rfl
@[simp] theorem State.setTask_memAnswered (s : State) (r : TaskRef) (t : Task) : (s.setTask r t).memAnswered = s.memAnswered := rfl
@[simp] theorem State.setTask_hostMem (s : State) (r : TaskRef) (t : Task) : (s.setTask r t).hostMem = s.hostMem := rfl
@[simp] theorem State.setTask_hostStores (s : State) (r : TaskRef) (t : Task) : (s.setTask r t).hostStores = s.hostStores := rfl
@[simp] theorem State.setTask_halls (s : State) (r : TaskRef) (t : Task) : (s.setTask r t).halls = s.halls := rfl
@[simp] theorem State.setTask_groups (s : State) (r : TaskRef) (t : Task) : (s.setTask r t).groups = s.groups := rfl
@[simp] theorem State.setTask_net (s : State) (r : TaskRef) (t : Task) : (s.setTask r t).net = s.net := rfl
@[simp] theorem State.setTask_hops (s : State) (r : TaskRef) (t : Task) : (s.setTask r t).hops = s.hops := rfl
@[simp] theorem State.setTask_cfgs (s : State) (r : TaskRef) (t : Task) : (s.setTask r t).cfgs = s.cfgs := rfl
@[simp] theorem State.setTask_ctxs (s : State) (r : TaskRef) (t : Task) : (s.setTask r t).ctxs = s.ctxs := rfl
@[simp] theorem State.setTask_cp (s : State) (r : TaskRef) (t : Task) : (s.setTask r t).cp = s.cp := rfl
@[simp] theorem State.setTask_mirror (s : State) (r : TaskRef) (t : Task) : (s.setTask r t).mirror = s.mirror := rfl
@[simp] theorem State.setTask_ports (s : State) (r : TaskRef) (t : Task) : (s.setTask r t).ports = s.ports := rfl
@[simp] theorem State.setTask_focus (s : State) (r : TaskRef) (t : Task) : (s.setTask r t).focus = s.focus := rfl
@[simp] theorem State.setTask_slot (s : State) (r : TaskRef) (t : Task) : (s.setTask r t).slot = s.slot := rfl
@[simp] theorem State.setTask_turns (s : State) (r : TaskRef) (t : Task) : (s.setTask r t).turns = s.turns := rfl
@[simp] theorem State.setTask_choice (s : State) (r : TaskRef) (t : Task) : (s.setTask r t).choice = s.choice := rfl
@[simp] theorem State.setTask_fresh (s : State) (r : TaskRef) (t : Task) : (s.setTask r t).fresh = s.fresh := rfl

@[simp] theorem State.issued_now (s : State) (t : Task) (d : Nat) : (s.issued t d).now = s.now := rfl
@[simp] theorem State.issued_phcS (s : State) (t : Task) (d : Nat) : (s.issued t d).phcS = s.phcS := rfl
@[simp] theorem State.issued_phcNs (s : State) (t : Task) (d : Nat) : (s.issued t d).phcNs = s.phcNs := rfl
@[simp] theorem State.issued_phcFrac (s : State) (t : Task) (d : Nat) : (s.issued t d).phcFrac = s.phcFrac := rfl
@[simp] theorem State.issued_rate (s : State) (t : Task) (d : Nat) : (s.issued t d).rate = s.rate := rfl
@[simp] theorem State.issued_mem (s : State) (t : Task) (d : Nat) : (s.issued t d).mem = s.mem := rfl
@[simp] theorem State.issued_memPoison (s : State) (t : Task) (d : Nat) : (s.issued t d).memPoison = s.memPoison := rfl
@[simp] theorem State.issued_memFull (s : State) (t : Task) (d : Nat) : (s.issued t d).memFull = s.memFull := rfl
@[simp] theorem State.issued_memDeferred (s : State) (t : Task) (d : Nat) : (s.issued t d).memDeferred = s.memDeferred := rfl
@[simp] theorem State.issued_memAnswered (s : State) (t : Task) (d : Nat) : (s.issued t d).memAnswered = s.memAnswered := rfl
@[simp] theorem State.issued_hostMem (s : State) (t : Task) (d : Nat) : (s.issued t d).hostMem = s.hostMem := rfl
@[simp] theorem State.issued_hostStores (s : State) (t : Task) (d : Nat) : (s.issued t d).hostStores = s.hostStores := rfl
@[simp] theorem State.issued_halls (s : State) (t : Task) (d : Nat) : (s.issued t d).halls = s.halls := rfl
@[simp] theorem State.issued_groups (s : State) (t : Task) (d : Nat) : (s.issued t d).groups = s.groups := rfl
@[simp] theorem State.issued_net (s : State) (t : Task) (d : Nat) : (s.issued t d).net = s.net := rfl
@[simp] theorem State.issued_hops (s : State) (t : Task) (d : Nat) : (s.issued t d).hops = s.hops := rfl
@[simp] theorem State.issued_cfgs (s : State) (t : Task) (d : Nat) : (s.issued t d).cfgs = s.cfgs := rfl
@[simp] theorem State.issued_ctxs (s : State) (t : Task) (d : Nat) : (s.issued t d).ctxs = s.ctxs := rfl
@[simp] theorem State.issued_cp (s : State) (t : Task) (d : Nat) : (s.issued t d).cp = s.cp := rfl
@[simp] theorem State.issued_mirror (s : State) (t : Task) (d : Nat) : (s.issued t d).mirror = s.mirror := rfl
@[simp] theorem State.issued_ports (s : State) (t : Task) (d : Nat) : (s.issued t d).ports = s.ports := rfl
@[simp] theorem State.issued_focus (s : State) (t : Task) (d : Nat) : (s.issued t d).focus = s.focus := rfl
@[simp] theorem State.issued_slot (s : State) (t : Task) (d : Nat) : (s.issued t d).slot = s.slot := rfl
@[simp] theorem State.issued_turns (s : State) (t : Task) (d : Nat) : (s.issued t d).turns = s.turns := rfl
@[simp] theorem State.issued_choice (s : State) (t : Task) (d : Nat) : (s.issued t d).choice = s.choice := rfl
@[simp] theorem State.issued_fresh (s : State) (t : Task) (d : Nat) : (s.issued t d).fresh = s.fresh := rfl

@[simp] theorem State.complete_now (s : State) (t : Task) : (s.complete t).now = s.now := rfl
@[simp] theorem State.complete_phcS (s : State) (t : Task) : (s.complete t).phcS = s.phcS := rfl
@[simp] theorem State.complete_phcNs (s : State) (t : Task) : (s.complete t).phcNs = s.phcNs := rfl
@[simp] theorem State.complete_phcFrac (s : State) (t : Task) : (s.complete t).phcFrac = s.phcFrac := rfl
@[simp] theorem State.complete_rate (s : State) (t : Task) : (s.complete t).rate = s.rate := rfl
@[simp] theorem State.complete_mem (s : State) (t : Task) : (s.complete t).mem = s.mem := rfl
@[simp] theorem State.complete_memPoison (s : State) (t : Task) : (s.complete t).memPoison = s.memPoison := rfl
@[simp] theorem State.complete_memFull (s : State) (t : Task) : (s.complete t).memFull = s.memFull := rfl
@[simp] theorem State.complete_memDeferred (s : State) (t : Task) : (s.complete t).memDeferred = s.memDeferred := rfl
@[simp] theorem State.complete_memAnswered (s : State) (t : Task) : (s.complete t).memAnswered = s.memAnswered := rfl
@[simp] theorem State.complete_hostMem (s : State) (t : Task) : (s.complete t).hostMem = s.hostMem := rfl
@[simp] theorem State.complete_hostStores (s : State) (t : Task) : (s.complete t).hostStores = s.hostStores := rfl
@[simp] theorem State.complete_halls (s : State) (t : Task) : (s.complete t).halls = s.halls := rfl
@[simp] theorem State.complete_groups (s : State) (t : Task) : (s.complete t).groups = s.groups := rfl
@[simp] theorem State.complete_net (s : State) (t : Task) : (s.complete t).net = s.net := rfl
@[simp] theorem State.complete_hops (s : State) (t : Task) : (s.complete t).hops = s.hops := rfl
@[simp] theorem State.complete_cfgs (s : State) (t : Task) : (s.complete t).cfgs = s.cfgs := rfl
@[simp] theorem State.complete_ctxs (s : State) (t : Task) : (s.complete t).ctxs = s.ctxs := rfl
@[simp] theorem State.complete_cp (s : State) (t : Task) : (s.complete t).cp = s.cp := rfl
@[simp] theorem State.complete_mirror (s : State) (t : Task) : (s.complete t).mirror = s.mirror := rfl
@[simp] theorem State.complete_ports (s : State) (t : Task) : (s.complete t).ports = s.ports := rfl
@[simp] theorem State.complete_focus (s : State) (t : Task) : (s.complete t).focus = s.focus := rfl
@[simp] theorem State.complete_slot (s : State) (t : Task) : (s.complete t).slot = s.slot := rfl
@[simp] theorem State.complete_turns (s : State) (t : Task) : (s.complete t).turns = s.turns := rfl
@[simp] theorem State.complete_choice (s : State) (t : Task) : (s.complete t).choice = s.choice := rfl
@[simp] theorem State.complete_fresh (s : State) (t : Task) : (s.complete t).fresh = s.fresh := rfl

@[simp] theorem State.completeIn_now (s : State) (t : Task) (d : Nat) : (s.completeIn t d).now = s.now := rfl
@[simp] theorem State.completeIn_phcS (s : State) (t : Task) (d : Nat) : (s.completeIn t d).phcS = s.phcS := rfl
@[simp] theorem State.completeIn_phcNs (s : State) (t : Task) (d : Nat) : (s.completeIn t d).phcNs = s.phcNs := rfl
@[simp] theorem State.completeIn_phcFrac (s : State) (t : Task) (d : Nat) : (s.completeIn t d).phcFrac = s.phcFrac := rfl
@[simp] theorem State.completeIn_rate (s : State) (t : Task) (d : Nat) : (s.completeIn t d).rate = s.rate := rfl
@[simp] theorem State.completeIn_mem (s : State) (t : Task) (d : Nat) : (s.completeIn t d).mem = s.mem := rfl
@[simp] theorem State.completeIn_memPoison (s : State) (t : Task) (d : Nat) : (s.completeIn t d).memPoison = s.memPoison := rfl
@[simp] theorem State.completeIn_memFull (s : State) (t : Task) (d : Nat) : (s.completeIn t d).memFull = s.memFull := rfl
@[simp] theorem State.completeIn_memDeferred (s : State) (t : Task) (d : Nat) : (s.completeIn t d).memDeferred = s.memDeferred := rfl
@[simp] theorem State.completeIn_memAnswered (s : State) (t : Task) (d : Nat) : (s.completeIn t d).memAnswered = s.memAnswered := rfl
@[simp] theorem State.completeIn_hostMem (s : State) (t : Task) (d : Nat) : (s.completeIn t d).hostMem = s.hostMem := rfl
@[simp] theorem State.completeIn_hostStores (s : State) (t : Task) (d : Nat) : (s.completeIn t d).hostStores = s.hostStores := rfl
@[simp] theorem State.completeIn_halls (s : State) (t : Task) (d : Nat) : (s.completeIn t d).halls = s.halls := rfl
@[simp] theorem State.completeIn_groups (s : State) (t : Task) (d : Nat) : (s.completeIn t d).groups = s.groups := rfl
@[simp] theorem State.completeIn_net (s : State) (t : Task) (d : Nat) : (s.completeIn t d).net = s.net := rfl
@[simp] theorem State.completeIn_hops (s : State) (t : Task) (d : Nat) : (s.completeIn t d).hops = s.hops := rfl
@[simp] theorem State.completeIn_cfgs (s : State) (t : Task) (d : Nat) : (s.completeIn t d).cfgs = s.cfgs := rfl
@[simp] theorem State.completeIn_ctxs (s : State) (t : Task) (d : Nat) : (s.completeIn t d).ctxs = s.ctxs := rfl
@[simp] theorem State.completeIn_cp (s : State) (t : Task) (d : Nat) : (s.completeIn t d).cp = s.cp := rfl
@[simp] theorem State.completeIn_mirror (s : State) (t : Task) (d : Nat) : (s.completeIn t d).mirror = s.mirror := rfl
@[simp] theorem State.completeIn_ports (s : State) (t : Task) (d : Nat) : (s.completeIn t d).ports = s.ports := rfl
@[simp] theorem State.completeIn_focus (s : State) (t : Task) (d : Nat) : (s.completeIn t d).focus = s.focus := rfl
@[simp] theorem State.completeIn_slot (s : State) (t : Task) (d : Nat) : (s.completeIn t d).slot = s.slot := rfl
@[simp] theorem State.completeIn_turns (s : State) (t : Task) (d : Nat) : (s.completeIn t d).turns = s.turns := rfl
@[simp] theorem State.completeIn_choice (s : State) (t : Task) (d : Nat) : (s.completeIn t d).choice = s.choice := rfl
@[simp] theorem State.completeIn_fresh (s : State) (t : Task) (d : Nat) : (s.completeIn t d).fresh = s.fresh := rfl

@[simp] theorem State.jump_now (s : State) (t : Task) (n d : Nat) : (s.jump t n d).now = s.now := rfl
@[simp] theorem State.jump_phcS (s : State) (t : Task) (n d : Nat) : (s.jump t n d).phcS = s.phcS := rfl
@[simp] theorem State.jump_phcNs (s : State) (t : Task) (n d : Nat) : (s.jump t n d).phcNs = s.phcNs := rfl
@[simp] theorem State.jump_phcFrac (s : State) (t : Task) (n d : Nat) : (s.jump t n d).phcFrac = s.phcFrac := rfl
@[simp] theorem State.jump_rate (s : State) (t : Task) (n d : Nat) : (s.jump t n d).rate = s.rate := rfl
@[simp] theorem State.jump_mem (s : State) (t : Task) (n d : Nat) : (s.jump t n d).mem = s.mem := rfl
@[simp] theorem State.jump_memPoison (s : State) (t : Task) (n d : Nat) : (s.jump t n d).memPoison = s.memPoison := rfl
@[simp] theorem State.jump_memFull (s : State) (t : Task) (n d : Nat) : (s.jump t n d).memFull = s.memFull := rfl
@[simp] theorem State.jump_memDeferred (s : State) (t : Task) (n d : Nat) : (s.jump t n d).memDeferred = s.memDeferred := rfl
@[simp] theorem State.jump_memAnswered (s : State) (t : Task) (n d : Nat) : (s.jump t n d).memAnswered = s.memAnswered := rfl
@[simp] theorem State.jump_hostMem (s : State) (t : Task) (n d : Nat) : (s.jump t n d).hostMem = s.hostMem := rfl
@[simp] theorem State.jump_hostStores (s : State) (t : Task) (n d : Nat) : (s.jump t n d).hostStores = s.hostStores := rfl
@[simp] theorem State.jump_halls (s : State) (t : Task) (n d : Nat) : (s.jump t n d).halls = s.halls := rfl
@[simp] theorem State.jump_groups (s : State) (t : Task) (n d : Nat) : (s.jump t n d).groups = s.groups := rfl
@[simp] theorem State.jump_net (s : State) (t : Task) (n d : Nat) : (s.jump t n d).net = s.net := rfl
@[simp] theorem State.jump_hops (s : State) (t : Task) (n d : Nat) : (s.jump t n d).hops = s.hops := rfl
@[simp] theorem State.jump_cfgs (s : State) (t : Task) (n d : Nat) : (s.jump t n d).cfgs = s.cfgs := rfl
@[simp] theorem State.jump_ctxs (s : State) (t : Task) (n d : Nat) : (s.jump t n d).ctxs = s.ctxs := rfl
@[simp] theorem State.jump_cp (s : State) (t : Task) (n d : Nat) : (s.jump t n d).cp = s.cp := rfl
@[simp] theorem State.jump_mirror (s : State) (t : Task) (n d : Nat) : (s.jump t n d).mirror = s.mirror := rfl
@[simp] theorem State.jump_ports (s : State) (t : Task) (n d : Nat) : (s.jump t n d).ports = s.ports := rfl
@[simp] theorem State.jump_focus (s : State) (t : Task) (n d : Nat) : (s.jump t n d).focus = s.focus := rfl
@[simp] theorem State.jump_slot (s : State) (t : Task) (n d : Nat) : (s.jump t n d).slot = s.slot := rfl
@[simp] theorem State.jump_turns (s : State) (t : Task) (n d : Nat) : (s.jump t n d).turns = s.turns := rfl
@[simp] theorem State.jump_choice (s : State) (t : Task) (n d : Nat) : (s.jump t n d).choice = s.choice := rfl
@[simp] theorem State.jump_fresh (s : State) (t : Task) (n d : Nat) : (s.jump t n d).fresh = s.fresh := rfl

@[simp] theorem State.retry_now (s : State) (t : Task) (k : Option Nat) (v : Bool) : (s.retry t k v).now = s.now := rfl
@[simp] theorem State.retry_phcS (s : State) (t : Task) (k : Option Nat) (v : Bool) : (s.retry t k v).phcS = s.phcS := rfl
@[simp] theorem State.retry_phcNs (s : State) (t : Task) (k : Option Nat) (v : Bool) : (s.retry t k v).phcNs = s.phcNs := rfl
@[simp] theorem State.retry_phcFrac (s : State) (t : Task) (k : Option Nat) (v : Bool) : (s.retry t k v).phcFrac = s.phcFrac := rfl
@[simp] theorem State.retry_rate (s : State) (t : Task) (k : Option Nat) (v : Bool) : (s.retry t k v).rate = s.rate := rfl
@[simp] theorem State.retry_mem (s : State) (t : Task) (k : Option Nat) (v : Bool) : (s.retry t k v).mem = s.mem := rfl
@[simp] theorem State.retry_memPoison (s : State) (t : Task) (k : Option Nat) (v : Bool) : (s.retry t k v).memPoison = s.memPoison := rfl
@[simp] theorem State.retry_memFull (s : State) (t : Task) (k : Option Nat) (v : Bool) : (s.retry t k v).memFull = s.memFull := rfl
@[simp] theorem State.retry_memDeferred (s : State) (t : Task) (k : Option Nat) (v : Bool) : (s.retry t k v).memDeferred = s.memDeferred := rfl
@[simp] theorem State.retry_memAnswered (s : State) (t : Task) (k : Option Nat) (v : Bool) : (s.retry t k v).memAnswered = s.memAnswered := rfl
@[simp] theorem State.retry_hostMem (s : State) (t : Task) (k : Option Nat) (v : Bool) : (s.retry t k v).hostMem = s.hostMem := rfl
@[simp] theorem State.retry_hostStores (s : State) (t : Task) (k : Option Nat) (v : Bool) : (s.retry t k v).hostStores = s.hostStores := rfl
@[simp] theorem State.retry_halls (s : State) (t : Task) (k : Option Nat) (v : Bool) : (s.retry t k v).halls = s.halls := rfl
@[simp] theorem State.retry_groups (s : State) (t : Task) (k : Option Nat) (v : Bool) : (s.retry t k v).groups = s.groups := rfl
@[simp] theorem State.retry_net (s : State) (t : Task) (k : Option Nat) (v : Bool) : (s.retry t k v).net = s.net := rfl
@[simp] theorem State.retry_hops (s : State) (t : Task) (k : Option Nat) (v : Bool) : (s.retry t k v).hops = s.hops := rfl
@[simp] theorem State.retry_cfgs (s : State) (t : Task) (k : Option Nat) (v : Bool) : (s.retry t k v).cfgs = s.cfgs := rfl
@[simp] theorem State.retry_ctxs (s : State) (t : Task) (k : Option Nat) (v : Bool) : (s.retry t k v).ctxs = s.ctxs := rfl
@[simp] theorem State.retry_cp (s : State) (t : Task) (k : Option Nat) (v : Bool) : (s.retry t k v).cp = s.cp := rfl
@[simp] theorem State.retry_mirror (s : State) (t : Task) (k : Option Nat) (v : Bool) : (s.retry t k v).mirror = s.mirror := rfl
@[simp] theorem State.retry_ports (s : State) (t : Task) (k : Option Nat) (v : Bool) : (s.retry t k v).ports = s.ports := rfl
@[simp] theorem State.retry_focus (s : State) (t : Task) (k : Option Nat) (v : Bool) : (s.retry t k v).focus = s.focus := rfl
@[simp] theorem State.retry_slot (s : State) (t : Task) (k : Option Nat) (v : Bool) : (s.retry t k v).slot = s.slot := rfl
@[simp] theorem State.retry_turns (s : State) (t : Task) (k : Option Nat) (v : Bool) : (s.retry t k v).turns = s.turns := rfl
@[simp] theorem State.retry_choice (s : State) (t : Task) (k : Option Nat) (v : Bool) : (s.retry t k v).choice = s.choice := rfl
@[simp] theorem State.retry_fresh (s : State) (t : Task) (k : Option Nat) (v : Bool) : (s.retry t k v).fresh = s.fresh := rfl

@[simp] theorem State.park_now (s : State) (t : Task) (w : Wait) : (s.park t w).now = s.now := rfl
@[simp] theorem State.park_phcS (s : State) (t : Task) (w : Wait) : (s.park t w).phcS = s.phcS := rfl
@[simp] theorem State.park_phcNs (s : State) (t : Task) (w : Wait) : (s.park t w).phcNs = s.phcNs := rfl
@[simp] theorem State.park_phcFrac (s : State) (t : Task) (w : Wait) : (s.park t w).phcFrac = s.phcFrac := rfl
@[simp] theorem State.park_rate (s : State) (t : Task) (w : Wait) : (s.park t w).rate = s.rate := rfl
@[simp] theorem State.park_mem (s : State) (t : Task) (w : Wait) : (s.park t w).mem = s.mem := rfl
@[simp] theorem State.park_memPoison (s : State) (t : Task) (w : Wait) : (s.park t w).memPoison = s.memPoison := rfl
@[simp] theorem State.park_memFull (s : State) (t : Task) (w : Wait) : (s.park t w).memFull = s.memFull := rfl
@[simp] theorem State.park_memDeferred (s : State) (t : Task) (w : Wait) : (s.park t w).memDeferred = s.memDeferred := rfl
@[simp] theorem State.park_memAnswered (s : State) (t : Task) (w : Wait) : (s.park t w).memAnswered = s.memAnswered := rfl
@[simp] theorem State.park_hostMem (s : State) (t : Task) (w : Wait) : (s.park t w).hostMem = s.hostMem := rfl
@[simp] theorem State.park_hostStores (s : State) (t : Task) (w : Wait) : (s.park t w).hostStores = s.hostStores := rfl
@[simp] theorem State.park_halls (s : State) (t : Task) (w : Wait) : (s.park t w).halls = s.halls := rfl
@[simp] theorem State.park_groups (s : State) (t : Task) (w : Wait) : (s.park t w).groups = s.groups := rfl
@[simp] theorem State.park_net (s : State) (t : Task) (w : Wait) : (s.park t w).net = s.net := rfl
@[simp] theorem State.park_hops (s : State) (t : Task) (w : Wait) : (s.park t w).hops = s.hops := rfl
@[simp] theorem State.park_cfgs (s : State) (t : Task) (w : Wait) : (s.park t w).cfgs = s.cfgs := rfl
@[simp] theorem State.park_ctxs (s : State) (t : Task) (w : Wait) : (s.park t w).ctxs = s.ctxs := rfl
@[simp] theorem State.park_cp (s : State) (t : Task) (w : Wait) : (s.park t w).cp = s.cp := rfl
@[simp] theorem State.park_mirror (s : State) (t : Task) (w : Wait) : (s.park t w).mirror = s.mirror := rfl
@[simp] theorem State.park_ports (s : State) (t : Task) (w : Wait) : (s.park t w).ports = s.ports := rfl
@[simp] theorem State.park_focus (s : State) (t : Task) (w : Wait) : (s.park t w).focus = s.focus := rfl
@[simp] theorem State.park_slot (s : State) (t : Task) (w : Wait) : (s.park t w).slot = s.slot := rfl
@[simp] theorem State.park_turns (s : State) (t : Task) (w : Wait) : (s.park t w).turns = s.turns := rfl
@[simp] theorem State.park_choice (s : State) (t : Task) (w : Wait) : (s.park t w).choice = s.choice := rfl
@[simp] theorem State.park_fresh (s : State) (t : Task) (w : Wait) : (s.park t w).fresh = s.fresh := rfl

@[simp] theorem State.raise_now (s : State) (t : Task) (c a i : Nat) : (s.raise t c a i).now = s.now := rfl
@[simp] theorem State.raise_phcS (s : State) (t : Task) (c a i : Nat) : (s.raise t c a i).phcS = s.phcS := rfl
@[simp] theorem State.raise_phcNs (s : State) (t : Task) (c a i : Nat) : (s.raise t c a i).phcNs = s.phcNs := rfl
@[simp] theorem State.raise_phcFrac (s : State) (t : Task) (c a i : Nat) : (s.raise t c a i).phcFrac = s.phcFrac := rfl
@[simp] theorem State.raise_rate (s : State) (t : Task) (c a i : Nat) : (s.raise t c a i).rate = s.rate := rfl
@[simp] theorem State.raise_mem (s : State) (t : Task) (c a i : Nat) : (s.raise t c a i).mem = s.mem := rfl
@[simp] theorem State.raise_memPoison (s : State) (t : Task) (c a i : Nat) : (s.raise t c a i).memPoison = s.memPoison := rfl
@[simp] theorem State.raise_memFull (s : State) (t : Task) (c a i : Nat) : (s.raise t c a i).memFull = s.memFull := rfl
@[simp] theorem State.raise_memDeferred (s : State) (t : Task) (c a i : Nat) : (s.raise t c a i).memDeferred = s.memDeferred := rfl
@[simp] theorem State.raise_memAnswered (s : State) (t : Task) (c a i : Nat) : (s.raise t c a i).memAnswered = s.memAnswered := rfl
@[simp] theorem State.raise_hostMem (s : State) (t : Task) (c a i : Nat) : (s.raise t c a i).hostMem = s.hostMem := rfl
@[simp] theorem State.raise_hostStores (s : State) (t : Task) (c a i : Nat) : (s.raise t c a i).hostStores = s.hostStores := rfl
@[simp] theorem State.raise_halls (s : State) (t : Task) (c a i : Nat) : (s.raise t c a i).halls = s.halls := rfl
@[simp] theorem State.raise_groups (s : State) (t : Task) (c a i : Nat) : (s.raise t c a i).groups = s.groups := rfl
@[simp] theorem State.raise_net (s : State) (t : Task) (c a i : Nat) : (s.raise t c a i).net = s.net := rfl
@[simp] theorem State.raise_hops (s : State) (t : Task) (c a i : Nat) : (s.raise t c a i).hops = s.hops := rfl
@[simp] theorem State.raise_cfgs (s : State) (t : Task) (c a i : Nat) : (s.raise t c a i).cfgs = s.cfgs := rfl
@[simp] theorem State.raise_ctxs (s : State) (t : Task) (c a i : Nat) : (s.raise t c a i).ctxs = s.ctxs := rfl
@[simp] theorem State.raise_cp (s : State) (t : Task) (c a i : Nat) : (s.raise t c a i).cp = s.cp := rfl
@[simp] theorem State.raise_mirror (s : State) (t : Task) (c a i : Nat) : (s.raise t c a i).mirror = s.mirror := rfl
@[simp] theorem State.raise_ports (s : State) (t : Task) (c a i : Nat) : (s.raise t c a i).ports = s.ports := rfl
@[simp] theorem State.raise_focus (s : State) (t : Task) (c a i : Nat) : (s.raise t c a i).focus = s.focus := rfl
@[simp] theorem State.raise_slot (s : State) (t : Task) (c a i : Nat) : (s.raise t c a i).slot = s.slot := rfl
@[simp] theorem State.raise_turns (s : State) (t : Task) (c a i : Nat) : (s.raise t c a i).turns = s.turns := rfl
@[simp] theorem State.raise_choice (s : State) (t : Task) (c a i : Nat) : (s.raise t c a i).choice = s.choice := rfl
@[simp] theorem State.raise_fresh (s : State) (t : Task) (c a i : Nat) : (s.raise t c a i).fresh = s.fresh := rfl

@[simp] theorem State.result_now (s : State) (t : Task) (d : BitVec 5) (v : Word) (l : Nat) : (s.result t d v l).now = s.now := rfl
@[simp] theorem State.result_phcS (s : State) (t : Task) (d : BitVec 5) (v : Word) (l : Nat) : (s.result t d v l).phcS = s.phcS := rfl
@[simp] theorem State.result_phcNs (s : State) (t : Task) (d : BitVec 5) (v : Word) (l : Nat) : (s.result t d v l).phcNs = s.phcNs := rfl
@[simp] theorem State.result_phcFrac (s : State) (t : Task) (d : BitVec 5) (v : Word) (l : Nat) : (s.result t d v l).phcFrac = s.phcFrac := rfl
@[simp] theorem State.result_rate (s : State) (t : Task) (d : BitVec 5) (v : Word) (l : Nat) : (s.result t d v l).rate = s.rate := rfl
@[simp] theorem State.result_mem (s : State) (t : Task) (d : BitVec 5) (v : Word) (l : Nat) : (s.result t d v l).mem = s.mem := rfl
@[simp] theorem State.result_memPoison (s : State) (t : Task) (d : BitVec 5) (v : Word) (l : Nat) : (s.result t d v l).memPoison = s.memPoison := rfl
@[simp] theorem State.result_memFull (s : State) (t : Task) (d : BitVec 5) (v : Word) (l : Nat) : (s.result t d v l).memFull = s.memFull := rfl
@[simp] theorem State.result_memDeferred (s : State) (t : Task) (d : BitVec 5) (v : Word) (l : Nat) : (s.result t d v l).memDeferred = s.memDeferred := rfl
@[simp] theorem State.result_memAnswered (s : State) (t : Task) (d : BitVec 5) (v : Word) (l : Nat) : (s.result t d v l).memAnswered = s.memAnswered := rfl
@[simp] theorem State.result_hostMem (s : State) (t : Task) (d : BitVec 5) (v : Word) (l : Nat) : (s.result t d v l).hostMem = s.hostMem := rfl
@[simp] theorem State.result_hostStores (s : State) (t : Task) (d : BitVec 5) (v : Word) (l : Nat) : (s.result t d v l).hostStores = s.hostStores := rfl
@[simp] theorem State.result_halls (s : State) (t : Task) (d : BitVec 5) (v : Word) (l : Nat) : (s.result t d v l).halls = s.halls := rfl
@[simp] theorem State.result_groups (s : State) (t : Task) (d : BitVec 5) (v : Word) (l : Nat) : (s.result t d v l).groups = s.groups := rfl
@[simp] theorem State.result_net (s : State) (t : Task) (d : BitVec 5) (v : Word) (l : Nat) : (s.result t d v l).net = s.net := rfl
@[simp] theorem State.result_hops (s : State) (t : Task) (d : BitVec 5) (v : Word) (l : Nat) : (s.result t d v l).hops = s.hops := rfl
@[simp] theorem State.result_cfgs (s : State) (t : Task) (d : BitVec 5) (v : Word) (l : Nat) : (s.result t d v l).cfgs = s.cfgs := rfl
@[simp] theorem State.result_ctxs (s : State) (t : Task) (d : BitVec 5) (v : Word) (l : Nat) : (s.result t d v l).ctxs = s.ctxs := rfl
@[simp] theorem State.result_cp (s : State) (t : Task) (d : BitVec 5) (v : Word) (l : Nat) : (s.result t d v l).cp = s.cp := rfl
@[simp] theorem State.result_mirror (s : State) (t : Task) (d : BitVec 5) (v : Word) (l : Nat) : (s.result t d v l).mirror = s.mirror := rfl
@[simp] theorem State.result_ports (s : State) (t : Task) (d : BitVec 5) (v : Word) (l : Nat) : (s.result t d v l).ports = s.ports := rfl
@[simp] theorem State.result_focus (s : State) (t : Task) (d : BitVec 5) (v : Word) (l : Nat) : (s.result t d v l).focus = s.focus := rfl
@[simp] theorem State.result_slot (s : State) (t : Task) (d : BitVec 5) (v : Word) (l : Nat) : (s.result t d v l).slot = s.slot := rfl
@[simp] theorem State.result_turns (s : State) (t : Task) (d : BitVec 5) (v : Word) (l : Nat) : (s.result t d v l).turns = s.turns := rfl
@[simp] theorem State.result_choice (s : State) (t : Task) (d : BitVec 5) (v : Word) (l : Nat) : (s.result t d v l).choice = s.choice := rfl
@[simp] theorem State.result_fresh (s : State) (t : Task) (d : BitVec 5) (v : Word) (l : Nat) : (s.result t d v l).fresh = s.fresh := rfl

@[simp] theorem State.updCfg_now (s : State) (c : BitVec 10) (i : Nat) (f : CfgRt → CfgRt) : (s.updCfg c i f).now = s.now := by
  unfold State.updCfg; split <;> rfl
@[simp] theorem State.updCfg_phcS (s : State) (c : BitVec 10) (i : Nat) (f : CfgRt → CfgRt) : (s.updCfg c i f).phcS = s.phcS := by
  unfold State.updCfg; split <;> rfl
@[simp] theorem State.updCfg_phcNs (s : State) (c : BitVec 10) (i : Nat) (f : CfgRt → CfgRt) : (s.updCfg c i f).phcNs = s.phcNs := by
  unfold State.updCfg; split <;> rfl
@[simp] theorem State.updCfg_phcFrac (s : State) (c : BitVec 10) (i : Nat) (f : CfgRt → CfgRt) : (s.updCfg c i f).phcFrac = s.phcFrac := by
  unfold State.updCfg; split <;> rfl
@[simp] theorem State.updCfg_rate (s : State) (c : BitVec 10) (i : Nat) (f : CfgRt → CfgRt) : (s.updCfg c i f).rate = s.rate := by
  unfold State.updCfg; split <;> rfl
@[simp] theorem State.updCfg_mem (s : State) (c : BitVec 10) (i : Nat) (f : CfgRt → CfgRt) : (s.updCfg c i f).mem = s.mem := by
  unfold State.updCfg; split <;> rfl
@[simp] theorem State.updCfg_memPoison (s : State) (c : BitVec 10) (i : Nat) (f : CfgRt → CfgRt) : (s.updCfg c i f).memPoison = s.memPoison := by
  unfold State.updCfg; split <;> rfl
@[simp] theorem State.updCfg_memFull (s : State) (c : BitVec 10) (i : Nat) (f : CfgRt → CfgRt) : (s.updCfg c i f).memFull = s.memFull := by
  unfold State.updCfg; split <;> rfl
@[simp] theorem State.updCfg_memDeferred (s : State) (c : BitVec 10) (i : Nat) (f : CfgRt → CfgRt) : (s.updCfg c i f).memDeferred = s.memDeferred := by
  unfold State.updCfg; split <;> rfl
@[simp] theorem State.updCfg_memAnswered (s : State) (c : BitVec 10) (i : Nat) (f : CfgRt → CfgRt) : (s.updCfg c i f).memAnswered = s.memAnswered := by
  unfold State.updCfg; split <;> rfl
@[simp] theorem State.updCfg_hostMem (s : State) (c : BitVec 10) (i : Nat) (f : CfgRt → CfgRt) : (s.updCfg c i f).hostMem = s.hostMem := by
  unfold State.updCfg; split <;> rfl
@[simp] theorem State.updCfg_hostStores (s : State) (c : BitVec 10) (i : Nat) (f : CfgRt → CfgRt) : (s.updCfg c i f).hostStores = s.hostStores := by
  unfold State.updCfg; split <;> rfl
@[simp] theorem State.updCfg_cells (s : State) (c : BitVec 10) (i : Nat) (f : CfgRt → CfgRt) : (s.updCfg c i f).cells = s.cells := by
  unfold State.updCfg; split <;> rfl
@[simp] theorem State.updCfg_halls (s : State) (c : BitVec 10) (i : Nat) (f : CfgRt → CfgRt) : (s.updCfg c i f).halls = s.halls := by
  unfold State.updCfg; split <;> rfl
@[simp] theorem State.updCfg_groups (s : State) (c : BitVec 10) (i : Nat) (f : CfgRt → CfgRt) : (s.updCfg c i f).groups = s.groups := by
  unfold State.updCfg; split <;> rfl
@[simp] theorem State.updCfg_net (s : State) (c : BitVec 10) (i : Nat) (f : CfgRt → CfgRt) : (s.updCfg c i f).net = s.net := by
  unfold State.updCfg; split <;> rfl
@[simp] theorem State.updCfg_hops (s : State) (c : BitVec 10) (i : Nat) (f : CfgRt → CfgRt) : (s.updCfg c i f).hops = s.hops := by
  unfold State.updCfg; split <;> rfl
@[simp] theorem State.updCfg_ctxs (s : State) (c : BitVec 10) (i : Nat) (f : CfgRt → CfgRt) : (s.updCfg c i f).ctxs = s.ctxs := by
  unfold State.updCfg; split <;> rfl
@[simp] theorem State.updCfg_cp (s : State) (c : BitVec 10) (i : Nat) (f : CfgRt → CfgRt) : (s.updCfg c i f).cp = s.cp := by
  unfold State.updCfg; split <;> rfl
@[simp] theorem State.updCfg_mirror (s : State) (c : BitVec 10) (i : Nat) (f : CfgRt → CfgRt) : (s.updCfg c i f).mirror = s.mirror := by
  unfold State.updCfg; split <;> rfl
@[simp] theorem State.updCfg_ports (s : State) (c : BitVec 10) (i : Nat) (f : CfgRt → CfgRt) : (s.updCfg c i f).ports = s.ports := by
  unfold State.updCfg; split <;> rfl
@[simp] theorem State.updCfg_focus (s : State) (c : BitVec 10) (i : Nat) (f : CfgRt → CfgRt) : (s.updCfg c i f).focus = s.focus := by
  unfold State.updCfg; split <;> rfl
@[simp] theorem State.updCfg_slot (s : State) (c : BitVec 10) (i : Nat) (f : CfgRt → CfgRt) : (s.updCfg c i f).slot = s.slot := by
  unfold State.updCfg; split <;> rfl
@[simp] theorem State.updCfg_turns (s : State) (c : BitVec 10) (i : Nat) (f : CfgRt → CfgRt) : (s.updCfg c i f).turns = s.turns := by
  unfold State.updCfg; split <;> rfl
@[simp] theorem State.updCfg_choice (s : State) (c : BitVec 10) (i : Nat) (f : CfgRt → CfgRt) : (s.updCfg c i f).choice = s.choice := by
  unfold State.updCfg; split <;> rfl
@[simp] theorem State.updCfg_fresh (s : State) (c : BitVec 10) (i : Nat) (f : CfgRt → CfgRt) : (s.updCfg c i f).fresh = s.fresh := by
  unfold State.updCfg; split <;> rfl

@[simp] theorem Cell.updVersion_bank (c : Cell) (v : Bool) (f : Version → Version) : (c.updVersion v f).bank = c.bank := by
  cases v <;> rfl
@[simp] theorem Cell.updVersion_bankPoison (c : Cell) (v : Bool) (f : Version → Version) : (c.updVersion v f).bankPoison = c.bankPoison := by
  cases v <;> rfl
@[simp] theorem Cell.updVersion_bankFull (c : Cell) (v : Bool) (f : Version → Version) : (c.updVersion v f).bankFull = c.bankFull := by
  cases v <;> rfl
@[simp] theorem Cell.updVersion_written (c : Cell) (v : Bool) (f : Version → Version) : (c.updVersion v f).written = c.written := by
  cases v <;> rfl
@[simp] theorem Cell.updVersion_deferred (c : Cell) (v : Bool) (f : Version → Version) : (c.updVersion v f).deferred = c.deferred := by
  cases v <;> rfl
@[simp] theorem Cell.updVersion_liveOne (c : Cell) (v : Bool) (f : Version → Version) : (c.updVersion v f).liveOne = c.liveOne := by
  cases v <;> rfl
@[simp] theorem Cell.updVersion_store (c : Cell) (v : Bool) (f : Version → Version) : (c.updVersion v f).store = c.store := by
  cases v <;> rfl
@[simp] theorem Cell.updVersion_readyFirings (c : Cell) (v : Bool) (f : Version → Version) : (c.updVersion v f).readyFirings = c.readyFirings := by
  cases v <;> rfl
@[simp] theorem Cell.updVersion_arrivals (c : Cell) (v : Bool) (f : Version → Version) : (c.updVersion v f).arrivals = c.arrivals := by
  cases v <;> rfl
@[simp] theorem Cell.updVersion_tasks (c : Cell) (v : Bool) (f : Version → Version) : (c.updVersion v f).tasks = c.tasks := by
  cases v <;> rfl
@[simp] theorem Cell.updVersion_freed (c : Cell) (v : Bool) (f : Version → Version) : (c.updVersion v f).freed = c.freed := by
  cases v <;> rfl
@[simp] theorem Cell.updVersion_q (c : Cell) (v : Bool) (f : Version → Version) : (c.updVersion v f).q = c.q := by
  cases v <;> rfl
@[simp] theorem Cell.updVersion_qPoison (c : Cell) (v : Bool) (f : Version → Version) : (c.updVersion v f).qPoison = c.qPoison := by
  cases v <;> rfl
@[simp] theorem Cell.updVersion_pp (c : Cell) (v : Bool) (f : Version → Version) : (c.updVersion v f).pp = c.pp := by
  cases v <;> rfl
@[simp] theorem Cell.updVersion_accS (c : Cell) (v : Bool) (f : Version → Version) : (c.updVersion v f).accS = c.accS := by
  cases v <;> rfl
@[simp] theorem Cell.updVersion_accX (c : Cell) (v : Bool) (f : Version → Version) : (c.updVersion v f).accX = c.accX := by
  cases v <;> rfl
@[simp] theorem Cell.updVersion_tilePoison (c : Cell) (v : Bool) (f : Version → Version) : (c.updVersion v f).tilePoison = c.tilePoison := by
  cases v <;> rfl
@[simp] theorem Cell.updVersion_latch (c : Cell) (v : Bool) (f : Version → Version) : (c.updVersion v f).latch = c.latch := by
  cases v <;> rfl
@[simp] theorem Cell.updVersion_latchPoison (c : Cell) (v : Bool) (f : Version → Version) : (c.updVersion v f).latchPoison = c.latchPoison := by
  cases v <;> rfl
@[simp] theorem Cell.updVersion_region (c : Cell) (v : Bool) (f : Version → Version) : (c.updVersion v f).region = c.region := by
  cases v <;> rfl
@[simp] theorem Cell.updVersion_regionPair (c : Cell) (v : Bool) (f : Version → Version) : (c.updVersion v f).regionPair = c.regionPair := by
  cases v <;> rfl
@[simp] theorem Cell.updVersion_regionOp (c : Cell) (v : Bool) (f : Version → Version) : (c.updVersion v f).regionOp = c.regionOp := by
  cases v <;> rfl
@[simp] theorem Cell.updVersion_lfsrSeed (c : Cell) (v : Bool) (f : Version → Version) : (c.updVersion v f).lfsrSeed = c.lfsrSeed := by
  cases v <;> rfl
@[simp] theorem Cell.updVersion_lfsr (c : Cell) (v : Bool) (f : Version → Version) : (c.updVersion v f).lfsr = c.lfsr := by
  cases v <;> rfl
@[simp] theorem Cell.updVersion_split (c : Cell) (v : Bool) (f : Version → Version) : (c.updVersion v f).split = c.split := by
  cases v <;> rfl
@[simp] theorem Cell.updVersion_l1 (c : Cell) (v : Bool) (f : Version → Version) : (c.updVersion v f).l1 = c.l1 := by
  cases v <;> rfl
@[simp] theorem Cell.updVersion_callMax (c : Cell) (v : Bool) (f : Version → Version) : (c.updVersion v f).callMax = c.callMax := by
  cases v <;> rfl
@[simp] theorem Cell.updVersion_accSat (c : Cell) (v : Bool) (f : Version → Version) : (c.updVersion v f).accSat = c.accSat := by
  cases v <;> rfl
@[simp] theorem Cell.updVersion_lateCnt (c : Cell) (v : Bool) (f : Version → Version) : (c.updVersion v f).lateCnt = c.lateCnt := by
  cases v <;> rfl
@[simp] theorem Cell.updVersion_vstall (c : Cell) (v : Bool) (f : Version → Version) : (c.updVersion v f).vstall = c.vstall := by
  cases v <;> rfl
@[simp] theorem Cell.updVersion_served (c : Cell) (v : Bool) (f : Version → Version) : (c.updVersion v f).served = c.served := by
  cases v <;> rfl
@[simp] theorem Cell.updVersion_eager (c : Cell) (v : Bool) (f : Version → Version) : (c.updVersion v f).eager = c.eager := by
  cases v <;> rfl
@[simp] theorem Cell.updVersion_log (c : Cell) (v : Bool) (f : Version → Version) : (c.updVersion v f).log = c.log := by
  cases v <;> rfl
@[simp] theorem Cell.updVersion_eagerMark (c : Cell) (v : Bool) (f : Version → Version) : (c.updVersion v f).eagerMark = c.eagerMark := by
  cases v <;> rfl
@[simp] theorem Cell.updVersion_issuePos (c : Cell) (v : Bool) (f : Version → Version) : (c.updVersion v f).issuePos = c.issuePos := by
  cases v <;> rfl
@[simp] theorem Cell.updVersion_prom (c : Cell) (v : Bool) (f : Version → Version) : (c.updVersion v f).prom = c.prom := by
  cases v <;> rfl
@[simp] theorem Cell.updVersion_promWaiting (c : Cell) (v : Bool) (f : Version → Version) : (c.updVersion v f).promWaiting = c.promWaiting := by
  cases v <;> rfl
@[simp] theorem Cell.updVersion_promLast (c : Cell) (v : Bool) (f : Version → Version) : (c.updVersion v f).promLast = c.promLast := by
  cases v <;> rfl
@[simp] theorem Cell.updVersion_owner (c : Cell) (v : Bool) (f : Version → Version) : (c.updVersion v f).owner = c.owner := by
  cases v <;> rfl
@[simp] theorem Cell.updVersion_bars (c : Cell) (v : Bool) (f : Version → Version) : (c.updVersion v f).bars = c.bars := by
  cases v <;> rfl
@[simp] theorem Cell.updVersion_barWaiters (c : Cell) (v : Bool) (f : Version → Version) : (c.updVersion v f).barWaiters = c.barWaiters := by
  cases v <;> rfl
@[simp] theorem Cell.updVersion_barHeld (c : Cell) (v : Bool) (f : Version → Version) : (c.updVersion v f).barHeld = c.barHeld := by
  cases v <;> rfl
@[simp] theorem Cell.updVersion_barHeldWaits (c : Cell) (v : Bool) (f : Version → Version) : (c.updVersion v f).barHeldWaits = c.barHeldWaits := by
  cases v <;> rfl
@[simp] theorem Cell.updVersion_flips (c : Cell) (v : Bool) (f : Version → Version) : (c.updVersion v f).flips = c.flips := by
  cases v <;> rfl
@[simp] theorem Cell.updVersion_l1Until (c : Cell) (v : Bool) (f : Version → Version) : (c.updVersion v f).l1Until = c.l1Until := by
  cases v <;> rfl
@[simp] theorem Cell.updVersion_slots (c : Cell) (v : Bool) (f : Version → Version) : (c.updVersion v f).slots = c.slots := by
  cases v <;> rfl
@[simp] theorem Cell.updVersion_outq (c : Cell) (v : Bool) (f : Version → Version) : (c.updVersion v f).outq = c.outq := by
  cases v <;> rfl
@[simp] theorem Cell.updVersion_ops (c : Cell) (v : Bool) (f : Version → Version) : (c.updVersion v f).ops = c.ops := by
  cases v <;> rfl
@[simp] theorem Cell.updVersion_nextOp (c : Cell) (v : Bool) (f : Version → Version) : (c.updVersion v f).nextOp = c.nextOp := by
  cases v <;> rfl
@[simp] theorem Cell.updVersion_flights (c : Cell) (v : Bool) (f : Version → Version) : (c.updVersion v f).flights = c.flights := by
  cases v <;> rfl
@[simp] theorem Cell.updVersion_tlb (c : Cell) (v : Bool) (f : Version → Version) : (c.updVersion v f).tlb = c.tlb := by
  cases v <;> rfl
@[simp] theorem Cell.updVersion_rr (c : Cell) (v : Bool) (f : Version → Version) : (c.updVersion v f).rr = c.rr := by
  cases v <;> rfl
@[simp] theorem Cell.updVersion_issuedAt (c : Cell) (v : Bool) (f : Version → Version) : (c.updVersion v f).issuedAt = c.issuedAt := by
  cases v <;> rfl
@[simp] theorem Cell.updVersion_issueStopped (c : Cell) (v : Bool) (f : Version → Version) : (c.updVersion v f).issueStopped = c.issueStopped := by
  cases v <;> rfl
@[simp] theorem Cell.updVersion_clockStopped (c : Cell) (v : Bool) (f : Version → Version) : (c.updVersion v f).clockStopped = c.clockStopped := by
  cases v <;> rfl

@[simp] theorem Cell.setRow_bankPoison (c : Cell) (r : Nat) (x : Row) : (c.setRow r x).bankPoison = c.bankPoison := rfl
@[simp] theorem Cell.setRow_bankFull (c : Cell) (r : Nat) (x : Row) : (c.setRow r x).bankFull = c.bankFull := rfl
@[simp] theorem Cell.setRow_deferred (c : Cell) (r : Nat) (x : Row) : (c.setRow r x).deferred = c.deferred := rfl
@[simp] theorem Cell.setRow_v0 (c : Cell) (r : Nat) (x : Row) : (c.setRow r x).v0 = c.v0 := rfl
@[simp] theorem Cell.setRow_v1 (c : Cell) (r : Nat) (x : Row) : (c.setRow r x).v1 = c.v1 := rfl
@[simp] theorem Cell.setRow_liveOne (c : Cell) (r : Nat) (x : Row) : (c.setRow r x).liveOne = c.liveOne := rfl
@[simp] theorem Cell.setRow_store (c : Cell) (r : Nat) (x : Row) : (c.setRow r x).store = c.store := rfl
@[simp] theorem Cell.setRow_readyFirings (c : Cell) (r : Nat) (x : Row) : (c.setRow r x).readyFirings = c.readyFirings := rfl
@[simp] theorem Cell.setRow_arrivals (c : Cell) (r : Nat) (x : Row) : (c.setRow r x).arrivals = c.arrivals := rfl
@[simp] theorem Cell.setRow_tasks (c : Cell) (r : Nat) (x : Row) : (c.setRow r x).tasks = c.tasks := rfl
@[simp] theorem Cell.setRow_freed (c : Cell) (r : Nat) (x : Row) : (c.setRow r x).freed = c.freed := rfl
@[simp] theorem Cell.setRow_q (c : Cell) (r : Nat) (x : Row) : (c.setRow r x).q = c.q := rfl
@[simp] theorem Cell.setRow_qPoison (c : Cell) (r : Nat) (x : Row) : (c.setRow r x).qPoison = c.qPoison := rfl
@[simp] theorem Cell.setRow_pp (c : Cell) (r : Nat) (x : Row) : (c.setRow r x).pp = c.pp := rfl
@[simp] theorem Cell.setRow_accS (c : Cell) (r : Nat) (x : Row) : (c.setRow r x).accS = c.accS := rfl
@[simp] theorem Cell.setRow_accX (c : Cell) (r : Nat) (x : Row) : (c.setRow r x).accX = c.accX := rfl
@[simp] theorem Cell.setRow_tilePoison (c : Cell) (r : Nat) (x : Row) : (c.setRow r x).tilePoison = c.tilePoison := rfl
@[simp] theorem Cell.setRow_latch (c : Cell) (r : Nat) (x : Row) : (c.setRow r x).latch = c.latch := rfl
@[simp] theorem Cell.setRow_latchPoison (c : Cell) (r : Nat) (x : Row) : (c.setRow r x).latchPoison = c.latchPoison := rfl
@[simp] theorem Cell.setRow_region (c : Cell) (r : Nat) (x : Row) : (c.setRow r x).region = c.region := rfl
@[simp] theorem Cell.setRow_regionPair (c : Cell) (r : Nat) (x : Row) : (c.setRow r x).regionPair = c.regionPair := rfl
@[simp] theorem Cell.setRow_regionOp (c : Cell) (r : Nat) (x : Row) : (c.setRow r x).regionOp = c.regionOp := rfl
@[simp] theorem Cell.setRow_lfsrSeed (c : Cell) (r : Nat) (x : Row) : (c.setRow r x).lfsrSeed = c.lfsrSeed := rfl
@[simp] theorem Cell.setRow_lfsr (c : Cell) (r : Nat) (x : Row) : (c.setRow r x).lfsr = c.lfsr := rfl
@[simp] theorem Cell.setRow_split (c : Cell) (r : Nat) (x : Row) : (c.setRow r x).split = c.split := rfl
@[simp] theorem Cell.setRow_l1 (c : Cell) (r : Nat) (x : Row) : (c.setRow r x).l1 = c.l1 := rfl
@[simp] theorem Cell.setRow_callMax (c : Cell) (r : Nat) (x : Row) : (c.setRow r x).callMax = c.callMax := rfl
@[simp] theorem Cell.setRow_accSat (c : Cell) (r : Nat) (x : Row) : (c.setRow r x).accSat = c.accSat := rfl
@[simp] theorem Cell.setRow_lateCnt (c : Cell) (r : Nat) (x : Row) : (c.setRow r x).lateCnt = c.lateCnt := rfl
@[simp] theorem Cell.setRow_vstall (c : Cell) (r : Nat) (x : Row) : (c.setRow r x).vstall = c.vstall := rfl
@[simp] theorem Cell.setRow_served (c : Cell) (r : Nat) (x : Row) : (c.setRow r x).served = c.served := rfl
@[simp] theorem Cell.setRow_eager (c : Cell) (r : Nat) (x : Row) : (c.setRow r x).eager = c.eager := rfl
@[simp] theorem Cell.setRow_log (c : Cell) (r : Nat) (x : Row) : (c.setRow r x).log = c.log := rfl
@[simp] theorem Cell.setRow_eagerMark (c : Cell) (r : Nat) (x : Row) : (c.setRow r x).eagerMark = c.eagerMark := rfl
@[simp] theorem Cell.setRow_issuePos (c : Cell) (r : Nat) (x : Row) : (c.setRow r x).issuePos = c.issuePos := rfl
@[simp] theorem Cell.setRow_prom (c : Cell) (r : Nat) (x : Row) : (c.setRow r x).prom = c.prom := rfl
@[simp] theorem Cell.setRow_promWaiting (c : Cell) (r : Nat) (x : Row) : (c.setRow r x).promWaiting = c.promWaiting := rfl
@[simp] theorem Cell.setRow_promLast (c : Cell) (r : Nat) (x : Row) : (c.setRow r x).promLast = c.promLast := rfl
@[simp] theorem Cell.setRow_owner (c : Cell) (r : Nat) (x : Row) : (c.setRow r x).owner = c.owner := rfl
@[simp] theorem Cell.setRow_bars (c : Cell) (r : Nat) (x : Row) : (c.setRow r x).bars = c.bars := rfl
@[simp] theorem Cell.setRow_barWaiters (c : Cell) (r : Nat) (x : Row) : (c.setRow r x).barWaiters = c.barWaiters := rfl
@[simp] theorem Cell.setRow_barHeld (c : Cell) (r : Nat) (x : Row) : (c.setRow r x).barHeld = c.barHeld := rfl
@[simp] theorem Cell.setRow_barHeldWaits (c : Cell) (r : Nat) (x : Row) : (c.setRow r x).barHeldWaits = c.barHeldWaits := rfl
@[simp] theorem Cell.setRow_flips (c : Cell) (r : Nat) (x : Row) : (c.setRow r x).flips = c.flips := rfl
@[simp] theorem Cell.setRow_l1Until (c : Cell) (r : Nat) (x : Row) : (c.setRow r x).l1Until = c.l1Until := rfl
@[simp] theorem Cell.setRow_slots (c : Cell) (r : Nat) (x : Row) : (c.setRow r x).slots = c.slots := rfl
@[simp] theorem Cell.setRow_outq (c : Cell) (r : Nat) (x : Row) : (c.setRow r x).outq = c.outq := rfl
@[simp] theorem Cell.setRow_ops (c : Cell) (r : Nat) (x : Row) : (c.setRow r x).ops = c.ops := rfl
@[simp] theorem Cell.setRow_nextOp (c : Cell) (r : Nat) (x : Row) : (c.setRow r x).nextOp = c.nextOp := rfl
@[simp] theorem Cell.setRow_flights (c : Cell) (r : Nat) (x : Row) : (c.setRow r x).flights = c.flights := rfl
@[simp] theorem Cell.setRow_tlb (c : Cell) (r : Nat) (x : Row) : (c.setRow r x).tlb = c.tlb := rfl
@[simp] theorem Cell.setRow_rr (c : Cell) (r : Nat) (x : Row) : (c.setRow r x).rr = c.rr := rfl
@[simp] theorem Cell.setRow_issuedAt (c : Cell) (r : Nat) (x : Row) : (c.setRow r x).issuedAt = c.issuedAt := rfl
@[simp] theorem Cell.setRow_issueStopped (c : Cell) (r : Nat) (x : Row) : (c.setRow r x).issueStopped = c.issueStopped := rfl
@[simp] theorem Cell.setRow_clockStopped (c : Cell) (r : Nat) (x : Row) : (c.setRow r x).clockStopped = c.clockStopped := rfl

@[simp] theorem Cell.setRowPoison_bank (c : Cell) (r : Nat) (b : Bool) : (c.setRowPoison r b).bank = c.bank := rfl
@[simp] theorem Cell.setRowPoison_bankFull (c : Cell) (r : Nat) (b : Bool) : (c.setRowPoison r b).bankFull = c.bankFull := rfl
@[simp] theorem Cell.setRowPoison_written (c : Cell) (r : Nat) (b : Bool) : (c.setRowPoison r b).written = c.written := rfl
@[simp] theorem Cell.setRowPoison_deferred (c : Cell) (r : Nat) (b : Bool) : (c.setRowPoison r b).deferred = c.deferred := rfl
@[simp] theorem Cell.setRowPoison_v0 (c : Cell) (r : Nat) (b : Bool) : (c.setRowPoison r b).v0 = c.v0 := rfl
@[simp] theorem Cell.setRowPoison_v1 (c : Cell) (r : Nat) (b : Bool) : (c.setRowPoison r b).v1 = c.v1 := rfl
@[simp] theorem Cell.setRowPoison_liveOne (c : Cell) (r : Nat) (b : Bool) : (c.setRowPoison r b).liveOne = c.liveOne := rfl
@[simp] theorem Cell.setRowPoison_store (c : Cell) (r : Nat) (b : Bool) : (c.setRowPoison r b).store = c.store := rfl
@[simp] theorem Cell.setRowPoison_readyFirings (c : Cell) (r : Nat) (b : Bool) : (c.setRowPoison r b).readyFirings = c.readyFirings := rfl
@[simp] theorem Cell.setRowPoison_arrivals (c : Cell) (r : Nat) (b : Bool) : (c.setRowPoison r b).arrivals = c.arrivals := rfl
@[simp] theorem Cell.setRowPoison_tasks (c : Cell) (r : Nat) (b : Bool) : (c.setRowPoison r b).tasks = c.tasks := rfl
@[simp] theorem Cell.setRowPoison_freed (c : Cell) (r : Nat) (b : Bool) : (c.setRowPoison r b).freed = c.freed := rfl
@[simp] theorem Cell.setRowPoison_q (c : Cell) (r : Nat) (b : Bool) : (c.setRowPoison r b).q = c.q := rfl
@[simp] theorem Cell.setRowPoison_qPoison (c : Cell) (r : Nat) (b : Bool) : (c.setRowPoison r b).qPoison = c.qPoison := rfl
@[simp] theorem Cell.setRowPoison_pp (c : Cell) (r : Nat) (b : Bool) : (c.setRowPoison r b).pp = c.pp := rfl
@[simp] theorem Cell.setRowPoison_accS (c : Cell) (r : Nat) (b : Bool) : (c.setRowPoison r b).accS = c.accS := rfl
@[simp] theorem Cell.setRowPoison_accX (c : Cell) (r : Nat) (b : Bool) : (c.setRowPoison r b).accX = c.accX := rfl
@[simp] theorem Cell.setRowPoison_tilePoison (c : Cell) (r : Nat) (b : Bool) : (c.setRowPoison r b).tilePoison = c.tilePoison := rfl
@[simp] theorem Cell.setRowPoison_latch (c : Cell) (r : Nat) (b : Bool) : (c.setRowPoison r b).latch = c.latch := rfl
@[simp] theorem Cell.setRowPoison_latchPoison (c : Cell) (r : Nat) (b : Bool) : (c.setRowPoison r b).latchPoison = c.latchPoison := rfl
@[simp] theorem Cell.setRowPoison_region (c : Cell) (r : Nat) (b : Bool) : (c.setRowPoison r b).region = c.region := rfl
@[simp] theorem Cell.setRowPoison_regionPair (c : Cell) (r : Nat) (b : Bool) : (c.setRowPoison r b).regionPair = c.regionPair := rfl
@[simp] theorem Cell.setRowPoison_regionOp (c : Cell) (r : Nat) (b : Bool) : (c.setRowPoison r b).regionOp = c.regionOp := rfl
@[simp] theorem Cell.setRowPoison_lfsrSeed (c : Cell) (r : Nat) (b : Bool) : (c.setRowPoison r b).lfsrSeed = c.lfsrSeed := rfl
@[simp] theorem Cell.setRowPoison_lfsr (c : Cell) (r : Nat) (b : Bool) : (c.setRowPoison r b).lfsr = c.lfsr := rfl
@[simp] theorem Cell.setRowPoison_split (c : Cell) (r : Nat) (b : Bool) : (c.setRowPoison r b).split = c.split := rfl
@[simp] theorem Cell.setRowPoison_l1 (c : Cell) (r : Nat) (b : Bool) : (c.setRowPoison r b).l1 = c.l1 := rfl
@[simp] theorem Cell.setRowPoison_callMax (c : Cell) (r : Nat) (b : Bool) : (c.setRowPoison r b).callMax = c.callMax := rfl
@[simp] theorem Cell.setRowPoison_accSat (c : Cell) (r : Nat) (b : Bool) : (c.setRowPoison r b).accSat = c.accSat := rfl
@[simp] theorem Cell.setRowPoison_lateCnt (c : Cell) (r : Nat) (b : Bool) : (c.setRowPoison r b).lateCnt = c.lateCnt := rfl
@[simp] theorem Cell.setRowPoison_vstall (c : Cell) (r : Nat) (b : Bool) : (c.setRowPoison r b).vstall = c.vstall := rfl
@[simp] theorem Cell.setRowPoison_served (c : Cell) (r : Nat) (b : Bool) : (c.setRowPoison r b).served = c.served := rfl
@[simp] theorem Cell.setRowPoison_eager (c : Cell) (r : Nat) (b : Bool) : (c.setRowPoison r b).eager = c.eager := rfl
@[simp] theorem Cell.setRowPoison_log (c : Cell) (r : Nat) (b : Bool) : (c.setRowPoison r b).log = c.log := rfl
@[simp] theorem Cell.setRowPoison_eagerMark (c : Cell) (r : Nat) (b : Bool) : (c.setRowPoison r b).eagerMark = c.eagerMark := rfl
@[simp] theorem Cell.setRowPoison_issuePos (c : Cell) (r : Nat) (b : Bool) : (c.setRowPoison r b).issuePos = c.issuePos := rfl
@[simp] theorem Cell.setRowPoison_prom (c : Cell) (r : Nat) (b : Bool) : (c.setRowPoison r b).prom = c.prom := rfl
@[simp] theorem Cell.setRowPoison_promWaiting (c : Cell) (r : Nat) (b : Bool) : (c.setRowPoison r b).promWaiting = c.promWaiting := rfl
@[simp] theorem Cell.setRowPoison_promLast (c : Cell) (r : Nat) (b : Bool) : (c.setRowPoison r b).promLast = c.promLast := rfl
@[simp] theorem Cell.setRowPoison_owner (c : Cell) (r : Nat) (b : Bool) : (c.setRowPoison r b).owner = c.owner := rfl
@[simp] theorem Cell.setRowPoison_bars (c : Cell) (r : Nat) (b : Bool) : (c.setRowPoison r b).bars = c.bars := rfl
@[simp] theorem Cell.setRowPoison_barWaiters (c : Cell) (r : Nat) (b : Bool) : (c.setRowPoison r b).barWaiters = c.barWaiters := rfl
@[simp] theorem Cell.setRowPoison_barHeld (c : Cell) (r : Nat) (b : Bool) : (c.setRowPoison r b).barHeld = c.barHeld := rfl
@[simp] theorem Cell.setRowPoison_barHeldWaits (c : Cell) (r : Nat) (b : Bool) : (c.setRowPoison r b).barHeldWaits = c.barHeldWaits := rfl
@[simp] theorem Cell.setRowPoison_flips (c : Cell) (r : Nat) (b : Bool) : (c.setRowPoison r b).flips = c.flips := rfl
@[simp] theorem Cell.setRowPoison_l1Until (c : Cell) (r : Nat) (b : Bool) : (c.setRowPoison r b).l1Until = c.l1Until := rfl
@[simp] theorem Cell.setRowPoison_slots (c : Cell) (r : Nat) (b : Bool) : (c.setRowPoison r b).slots = c.slots := rfl
@[simp] theorem Cell.setRowPoison_outq (c : Cell) (r : Nat) (b : Bool) : (c.setRowPoison r b).outq = c.outq := rfl
@[simp] theorem Cell.setRowPoison_ops (c : Cell) (r : Nat) (b : Bool) : (c.setRowPoison r b).ops = c.ops := rfl
@[simp] theorem Cell.setRowPoison_nextOp (c : Cell) (r : Nat) (b : Bool) : (c.setRowPoison r b).nextOp = c.nextOp := rfl
@[simp] theorem Cell.setRowPoison_flights (c : Cell) (r : Nat) (b : Bool) : (c.setRowPoison r b).flights = c.flights := rfl
@[simp] theorem Cell.setRowPoison_tlb (c : Cell) (r : Nat) (b : Bool) : (c.setRowPoison r b).tlb = c.tlb := rfl
@[simp] theorem Cell.setRowPoison_rr (c : Cell) (r : Nat) (b : Bool) : (c.setRowPoison r b).rr = c.rr := rfl
@[simp] theorem Cell.setRowPoison_issuedAt (c : Cell) (r : Nat) (b : Bool) : (c.setRowPoison r b).issuedAt = c.issuedAt := rfl
@[simp] theorem Cell.setRowPoison_issueStopped (c : Cell) (r : Nat) (b : Bool) : (c.setRowPoison r b).issueStopped = c.issueStopped := rfl
@[simp] theorem Cell.setRowPoison_clockStopped (c : Cell) (r : Nat) (b : Bool) : (c.setRowPoison r b).clockStopped = c.clockStopped := rfl

@[simp] theorem Task.touch_node (t : Task) (l : List Spec) : (t.touch l).node = t.node := rfl
@[simp] theorem Task.touch_ver (t : Task) (l : List Spec) : (t.touch l).ver = t.ver := rfl
@[simp] theorem Task.touch_ctx (t : Task) (l : List Spec) : (t.touch l).ctx = t.ctx := rfl
@[simp] theorem Task.touch_iter (t : Task) (l : List Spec) : (t.touch l).iter = t.iter := rfl
@[simp] theorem Task.touch_stage (t : Task) (l : List Spec) : (t.touch l).stage = t.stage := rfl
@[simp] theorem Task.touch_pc (t : Task) (l : List Spec) : (t.touch l).pc = t.pc := rfl
@[simp] theorem Task.touch_regs (t : Task) (l : List Spec) : (t.touch l).regs = t.regs := rfl
@[simp] theorem Task.touch_preds (t : Task) (l : List Spec) : (t.touch l).preds = t.preds := rfl
@[simp] theorem Task.touch_calls (t : Task) (l : List Spec) : (t.touch l).calls = t.calls := rfl
@[simp] theorem Task.touch_loops (t : Task) (l : List Spec) : (t.touch l).loops = t.loops := rfl
@[simp] theorem Task.touch_ins (t : Task) (l : List Spec) : (t.touch l).ins = t.ins := rfl
@[simp] theorem Task.touch_sendIter (t : Task) (l : List Spec) : (t.touch l).sendIter = t.sendIter := rfl
@[simp] theorem Task.touch_armed (t : Task) (l : List Spec) : (t.touch l).armed = t.armed := rfl
@[simp] theorem Task.touch_marked (t : Task) (l : List Spec) : (t.touch l).marked = t.marked := rfl
@[simp] theorem Task.touch_trapCause (t : Task) (l : List Spec) : (t.touch l).trapCause = t.trapCause := rfl
@[simp] theorem Task.touch_trapAddr (t : Task) (l : List Spec) : (t.touch l).trapAddr = t.trapAddr := rfl
@[simp] theorem Task.touch_trapInfo (t : Task) (l : List Spec) : (t.touch l).trapInfo = t.trapInfo := rfl
@[simp] theorem Task.touch_epc (t : Task) (l : List Spec) : (t.touch l).epc = t.epc := rfl
@[simp] theorem Task.touch_sent (t : Task) (l : List Spec) : (t.touch l).sent = t.sent := rfl
@[simp] theorem Task.touch_done (t : Task) (l : List Spec) : (t.touch l).done = t.done := rfl
@[simp] theorem Task.touch_requests (t : Task) (l : List Spec) : (t.touch l).requests = t.requests := rfl
@[simp] theorem Task.touch_wait (t : Task) (l : List Spec) : (t.touch l).wait = t.wait := rfl
@[simp] theorem Task.touch_waitAt (t : Task) (l : List Spec) : (t.touch l).waitAt = t.waitAt := rfl
@[simp] theorem Task.touch_ready (t : Task) (l : List Spec) : (t.touch l).ready = t.ready := rfl
@[simp] theorem Task.touch_pending (t : Task) (l : List Spec) : (t.touch l).pending = t.pending := rfl
@[simp] theorem Task.touch_nextIssue (t : Task) (l : List Spec) : (t.touch l).nextIssue = t.nextIssue := rfl
@[simp] theorem Task.touch_grant (t : Task) (l : List Spec) : (t.touch l).grant = t.grant := rfl
@[simp] theorem Task.touch_abandoned (t : Task) (l : List Spec) : (t.touch l).abandoned = t.abandoned := rfl
@[simp] theorem Task.touch_taken (t : Task) (l : List Spec) : (t.touch l).taken = t.taken := rfl
@[simp] theorem Task.touch_l1Wait (t : Task) (l : List Spec) : (t.touch l).l1Wait = t.l1Wait := rfl

@[simp] theorem Task.setReg_node (t : Task) (r : BitVec 5) (v : Word) : (t.setReg r v).node = t.node := by
  unfold Task.setReg; split <;> rfl
@[simp] theorem Task.setReg_ver (t : Task) (r : BitVec 5) (v : Word) : (t.setReg r v).ver = t.ver := by
  unfold Task.setReg; split <;> rfl
@[simp] theorem Task.setReg_ctx (t : Task) (r : BitVec 5) (v : Word) : (t.setReg r v).ctx = t.ctx := by
  unfold Task.setReg; split <;> rfl
@[simp] theorem Task.setReg_iter (t : Task) (r : BitVec 5) (v : Word) : (t.setReg r v).iter = t.iter := by
  unfold Task.setReg; split <;> rfl
@[simp] theorem Task.setReg_stage (t : Task) (r : BitVec 5) (v : Word) : (t.setReg r v).stage = t.stage := by
  unfold Task.setReg; split <;> rfl
@[simp] theorem Task.setReg_pc (t : Task) (r : BitVec 5) (v : Word) : (t.setReg r v).pc = t.pc := by
  unfold Task.setReg; split <;> rfl
@[simp] theorem Task.setReg_preds (t : Task) (r : BitVec 5) (v : Word) : (t.setReg r v).preds = t.preds := by
  unfold Task.setReg; split <;> rfl
@[simp] theorem Task.setReg_calls (t : Task) (r : BitVec 5) (v : Word) : (t.setReg r v).calls = t.calls := by
  unfold Task.setReg; split <;> rfl
@[simp] theorem Task.setReg_loops (t : Task) (r : BitVec 5) (v : Word) : (t.setReg r v).loops = t.loops := by
  unfold Task.setReg; split <;> rfl
@[simp] theorem Task.setReg_ins (t : Task) (r : BitVec 5) (v : Word) : (t.setReg r v).ins = t.ins := by
  unfold Task.setReg; split <;> rfl
@[simp] theorem Task.setReg_taint (t : Task) (r : BitVec 5) (v : Word) : (t.setReg r v).taint = t.taint := by
  unfold Task.setReg; split <;> rfl
@[simp] theorem Task.setReg_sendIter (t : Task) (r : BitVec 5) (v : Word) : (t.setReg r v).sendIter = t.sendIter := by
  unfold Task.setReg; split <;> rfl
@[simp] theorem Task.setReg_armed (t : Task) (r : BitVec 5) (v : Word) : (t.setReg r v).armed = t.armed := by
  unfold Task.setReg; split <;> rfl
@[simp] theorem Task.setReg_marked (t : Task) (r : BitVec 5) (v : Word) : (t.setReg r v).marked = t.marked := by
  unfold Task.setReg; split <;> rfl
@[simp] theorem Task.setReg_trapCause (t : Task) (r : BitVec 5) (v : Word) : (t.setReg r v).trapCause = t.trapCause := by
  unfold Task.setReg; split <;> rfl
@[simp] theorem Task.setReg_trapAddr (t : Task) (r : BitVec 5) (v : Word) : (t.setReg r v).trapAddr = t.trapAddr := by
  unfold Task.setReg; split <;> rfl
@[simp] theorem Task.setReg_trapInfo (t : Task) (r : BitVec 5) (v : Word) : (t.setReg r v).trapInfo = t.trapInfo := by
  unfold Task.setReg; split <;> rfl
@[simp] theorem Task.setReg_epc (t : Task) (r : BitVec 5) (v : Word) : (t.setReg r v).epc = t.epc := by
  unfold Task.setReg; split <;> rfl
@[simp] theorem Task.setReg_sent (t : Task) (r : BitVec 5) (v : Word) : (t.setReg r v).sent = t.sent := by
  unfold Task.setReg; split <;> rfl
@[simp] theorem Task.setReg_done (t : Task) (r : BitVec 5) (v : Word) : (t.setReg r v).done = t.done := by
  unfold Task.setReg; split <;> rfl
@[simp] theorem Task.setReg_requests (t : Task) (r : BitVec 5) (v : Word) : (t.setReg r v).requests = t.requests := by
  unfold Task.setReg; split <;> rfl
@[simp] theorem Task.setReg_wait (t : Task) (r : BitVec 5) (v : Word) : (t.setReg r v).wait = t.wait := by
  unfold Task.setReg; split <;> rfl
@[simp] theorem Task.setReg_waitAt (t : Task) (r : BitVec 5) (v : Word) : (t.setReg r v).waitAt = t.waitAt := by
  unfold Task.setReg; split <;> rfl
@[simp] theorem Task.setReg_ready (t : Task) (r : BitVec 5) (v : Word) : (t.setReg r v).ready = t.ready := by
  unfold Task.setReg; split <;> rfl
@[simp] theorem Task.setReg_pending (t : Task) (r : BitVec 5) (v : Word) : (t.setReg r v).pending = t.pending := by
  unfold Task.setReg; split <;> rfl
@[simp] theorem Task.setReg_nextIssue (t : Task) (r : BitVec 5) (v : Word) : (t.setReg r v).nextIssue = t.nextIssue := by
  unfold Task.setReg; split <;> rfl
@[simp] theorem Task.setReg_grant (t : Task) (r : BitVec 5) (v : Word) : (t.setReg r v).grant = t.grant := by
  unfold Task.setReg; split <;> rfl
@[simp] theorem Task.setReg_abandoned (t : Task) (r : BitVec 5) (v : Word) : (t.setReg r v).abandoned = t.abandoned := by
  unfold Task.setReg; split <;> rfl
@[simp] theorem Task.setReg_taken (t : Task) (r : BitVec 5) (v : Word) : (t.setReg r v).taken = t.taken := by
  unfold Task.setReg; split <;> rfl
@[simp] theorem Task.setReg_l1Wait (t : Task) (r : BitVec 5) (v : Word) : (t.setReg r v).l1Wait = t.l1Wait := by
  unfold Task.setReg; split <;> rfl

@[simp] theorem Task.setPred_node (t : Task) (p : BitVec 3) (b : Bool) : (t.setPred p b).node = t.node := by
  unfold Task.setPred; split <;> rfl
@[simp] theorem Task.setPred_ver (t : Task) (p : BitVec 3) (b : Bool) : (t.setPred p b).ver = t.ver := by
  unfold Task.setPred; split <;> rfl
@[simp] theorem Task.setPred_ctx (t : Task) (p : BitVec 3) (b : Bool) : (t.setPred p b).ctx = t.ctx := by
  unfold Task.setPred; split <;> rfl
@[simp] theorem Task.setPred_iter (t : Task) (p : BitVec 3) (b : Bool) : (t.setPred p b).iter = t.iter := by
  unfold Task.setPred; split <;> rfl
@[simp] theorem Task.setPred_stage (t : Task) (p : BitVec 3) (b : Bool) : (t.setPred p b).stage = t.stage := by
  unfold Task.setPred; split <;> rfl
@[simp] theorem Task.setPred_pc (t : Task) (p : BitVec 3) (b : Bool) : (t.setPred p b).pc = t.pc := by
  unfold Task.setPred; split <;> rfl
@[simp] theorem Task.setPred_regs (t : Task) (p : BitVec 3) (b : Bool) : (t.setPred p b).regs = t.regs := by
  unfold Task.setPred; split <;> rfl
@[simp] theorem Task.setPred_calls (t : Task) (p : BitVec 3) (b : Bool) : (t.setPred p b).calls = t.calls := by
  unfold Task.setPred; split <;> rfl
@[simp] theorem Task.setPred_loops (t : Task) (p : BitVec 3) (b : Bool) : (t.setPred p b).loops = t.loops := by
  unfold Task.setPred; split <;> rfl
@[simp] theorem Task.setPred_ins (t : Task) (p : BitVec 3) (b : Bool) : (t.setPred p b).ins = t.ins := by
  unfold Task.setPred; split <;> rfl
@[simp] theorem Task.setPred_taint (t : Task) (p : BitVec 3) (b : Bool) : (t.setPred p b).taint = t.taint := by
  unfold Task.setPred; split <;> rfl
@[simp] theorem Task.setPred_sendIter (t : Task) (p : BitVec 3) (b : Bool) : (t.setPred p b).sendIter = t.sendIter := by
  unfold Task.setPred; split <;> rfl
@[simp] theorem Task.setPred_armed (t : Task) (p : BitVec 3) (b : Bool) : (t.setPred p b).armed = t.armed := by
  unfold Task.setPred; split <;> rfl
@[simp] theorem Task.setPred_marked (t : Task) (p : BitVec 3) (b : Bool) : (t.setPred p b).marked = t.marked := by
  unfold Task.setPred; split <;> rfl
@[simp] theorem Task.setPred_trapCause (t : Task) (p : BitVec 3) (b : Bool) : (t.setPred p b).trapCause = t.trapCause := by
  unfold Task.setPred; split <;> rfl
@[simp] theorem Task.setPred_trapAddr (t : Task) (p : BitVec 3) (b : Bool) : (t.setPred p b).trapAddr = t.trapAddr := by
  unfold Task.setPred; split <;> rfl
@[simp] theorem Task.setPred_trapInfo (t : Task) (p : BitVec 3) (b : Bool) : (t.setPred p b).trapInfo = t.trapInfo := by
  unfold Task.setPred; split <;> rfl
@[simp] theorem Task.setPred_epc (t : Task) (p : BitVec 3) (b : Bool) : (t.setPred p b).epc = t.epc := by
  unfold Task.setPred; split <;> rfl
@[simp] theorem Task.setPred_sent (t : Task) (p : BitVec 3) (b : Bool) : (t.setPred p b).sent = t.sent := by
  unfold Task.setPred; split <;> rfl
@[simp] theorem Task.setPred_done (t : Task) (p : BitVec 3) (b : Bool) : (t.setPred p b).done = t.done := by
  unfold Task.setPred; split <;> rfl
@[simp] theorem Task.setPred_requests (t : Task) (p : BitVec 3) (b : Bool) : (t.setPred p b).requests = t.requests := by
  unfold Task.setPred; split <;> rfl
@[simp] theorem Task.setPred_wait (t : Task) (p : BitVec 3) (b : Bool) : (t.setPred p b).wait = t.wait := by
  unfold Task.setPred; split <;> rfl
@[simp] theorem Task.setPred_waitAt (t : Task) (p : BitVec 3) (b : Bool) : (t.setPred p b).waitAt = t.waitAt := by
  unfold Task.setPred; split <;> rfl
@[simp] theorem Task.setPred_ready (t : Task) (p : BitVec 3) (b : Bool) : (t.setPred p b).ready = t.ready := by
  unfold Task.setPred; split <;> rfl
@[simp] theorem Task.setPred_pending (t : Task) (p : BitVec 3) (b : Bool) : (t.setPred p b).pending = t.pending := by
  unfold Task.setPred; split <;> rfl
@[simp] theorem Task.setPred_nextIssue (t : Task) (p : BitVec 3) (b : Bool) : (t.setPred p b).nextIssue = t.nextIssue := by
  unfold Task.setPred; split <;> rfl
@[simp] theorem Task.setPred_grant (t : Task) (p : BitVec 3) (b : Bool) : (t.setPred p b).grant = t.grant := by
  unfold Task.setPred; split <;> rfl
@[simp] theorem Task.setPred_abandoned (t : Task) (p : BitVec 3) (b : Bool) : (t.setPred p b).abandoned = t.abandoned := by
  unfold Task.setPred; split <;> rfl
@[simp] theorem Task.setPred_taken (t : Task) (p : BitVec 3) (b : Bool) : (t.setPred p b).taken = t.taken := by
  unfold Task.setPred; split <;> rfl
@[simp] theorem Task.setPred_l1Wait (t : Task) (p : BitVec 3) (b : Bool) : (t.setPred p b).l1Wait = t.l1Wait := by
  unfold Task.setPred; split <;> rfl

@[simp] theorem Task.readyIn_node (t : Task) (r : BitVec 5) (n l : Nat) : (t.readyIn r n l).node = t.node := by
  unfold Task.readyIn; split <;> rfl
@[simp] theorem Task.readyIn_ver (t : Task) (r : BitVec 5) (n l : Nat) : (t.readyIn r n l).ver = t.ver := by
  unfold Task.readyIn; split <;> rfl
@[simp] theorem Task.readyIn_ctx (t : Task) (r : BitVec 5) (n l : Nat) : (t.readyIn r n l).ctx = t.ctx := by
  unfold Task.readyIn; split <;> rfl
@[simp] theorem Task.readyIn_iter (t : Task) (r : BitVec 5) (n l : Nat) : (t.readyIn r n l).iter = t.iter := by
  unfold Task.readyIn; split <;> rfl
@[simp] theorem Task.readyIn_stage (t : Task) (r : BitVec 5) (n l : Nat) : (t.readyIn r n l).stage = t.stage := by
  unfold Task.readyIn; split <;> rfl
@[simp] theorem Task.readyIn_pc (t : Task) (r : BitVec 5) (n l : Nat) : (t.readyIn r n l).pc = t.pc := by
  unfold Task.readyIn; split <;> rfl
@[simp] theorem Task.readyIn_regs (t : Task) (r : BitVec 5) (n l : Nat) : (t.readyIn r n l).regs = t.regs := by
  unfold Task.readyIn; split <;> rfl
@[simp] theorem Task.readyIn_preds (t : Task) (r : BitVec 5) (n l : Nat) : (t.readyIn r n l).preds = t.preds := by
  unfold Task.readyIn; split <;> rfl
@[simp] theorem Task.readyIn_calls (t : Task) (r : BitVec 5) (n l : Nat) : (t.readyIn r n l).calls = t.calls := by
  unfold Task.readyIn; split <;> rfl
@[simp] theorem Task.readyIn_loops (t : Task) (r : BitVec 5) (n l : Nat) : (t.readyIn r n l).loops = t.loops := by
  unfold Task.readyIn; split <;> rfl
@[simp] theorem Task.readyIn_ins (t : Task) (r : BitVec 5) (n l : Nat) : (t.readyIn r n l).ins = t.ins := by
  unfold Task.readyIn; split <;> rfl
@[simp] theorem Task.readyIn_taint (t : Task) (r : BitVec 5) (n l : Nat) : (t.readyIn r n l).taint = t.taint := by
  unfold Task.readyIn; split <;> rfl
@[simp] theorem Task.readyIn_sendIter (t : Task) (r : BitVec 5) (n l : Nat) : (t.readyIn r n l).sendIter = t.sendIter := by
  unfold Task.readyIn; split <;> rfl
@[simp] theorem Task.readyIn_armed (t : Task) (r : BitVec 5) (n l : Nat) : (t.readyIn r n l).armed = t.armed := by
  unfold Task.readyIn; split <;> rfl
@[simp] theorem Task.readyIn_marked (t : Task) (r : BitVec 5) (n l : Nat) : (t.readyIn r n l).marked = t.marked := by
  unfold Task.readyIn; split <;> rfl
@[simp] theorem Task.readyIn_trapCause (t : Task) (r : BitVec 5) (n l : Nat) : (t.readyIn r n l).trapCause = t.trapCause := by
  unfold Task.readyIn; split <;> rfl
@[simp] theorem Task.readyIn_trapAddr (t : Task) (r : BitVec 5) (n l : Nat) : (t.readyIn r n l).trapAddr = t.trapAddr := by
  unfold Task.readyIn; split <;> rfl
@[simp] theorem Task.readyIn_trapInfo (t : Task) (r : BitVec 5) (n l : Nat) : (t.readyIn r n l).trapInfo = t.trapInfo := by
  unfold Task.readyIn; split <;> rfl
@[simp] theorem Task.readyIn_epc (t : Task) (r : BitVec 5) (n l : Nat) : (t.readyIn r n l).epc = t.epc := by
  unfold Task.readyIn; split <;> rfl
@[simp] theorem Task.readyIn_sent (t : Task) (r : BitVec 5) (n l : Nat) : (t.readyIn r n l).sent = t.sent := by
  unfold Task.readyIn; split <;> rfl
@[simp] theorem Task.readyIn_done (t : Task) (r : BitVec 5) (n l : Nat) : (t.readyIn r n l).done = t.done := by
  unfold Task.readyIn; split <;> rfl
@[simp] theorem Task.readyIn_requests (t : Task) (r : BitVec 5) (n l : Nat) : (t.readyIn r n l).requests = t.requests := by
  unfold Task.readyIn; split <;> rfl
@[simp] theorem Task.readyIn_wait (t : Task) (r : BitVec 5) (n l : Nat) : (t.readyIn r n l).wait = t.wait := by
  unfold Task.readyIn; split <;> rfl
@[simp] theorem Task.readyIn_waitAt (t : Task) (r : BitVec 5) (n l : Nat) : (t.readyIn r n l).waitAt = t.waitAt := by
  unfold Task.readyIn; split <;> rfl
@[simp] theorem Task.readyIn_pending (t : Task) (r : BitVec 5) (n l : Nat) : (t.readyIn r n l).pending = t.pending := by
  unfold Task.readyIn; split <;> rfl
@[simp] theorem Task.readyIn_nextIssue (t : Task) (r : BitVec 5) (n l : Nat) : (t.readyIn r n l).nextIssue = t.nextIssue := by
  unfold Task.readyIn; split <;> rfl
@[simp] theorem Task.readyIn_grant (t : Task) (r : BitVec 5) (n l : Nat) : (t.readyIn r n l).grant = t.grant := by
  unfold Task.readyIn; split <;> rfl
@[simp] theorem Task.readyIn_abandoned (t : Task) (r : BitVec 5) (n l : Nat) : (t.readyIn r n l).abandoned = t.abandoned := by
  unfold Task.readyIn; split <;> rfl
@[simp] theorem Task.readyIn_taken (t : Task) (r : BitVec 5) (n l : Nat) : (t.readyIn r n l).taken = t.taken := by
  unfold Task.readyIn; split <;> rfl
@[simp] theorem Task.readyIn_l1Wait (t : Task) (r : BitVec 5) (n l : Nat) : (t.readyIn r n l).l1Wait = t.l1Wait := by
  unfold Task.readyIn; split <;> rfl

@[simp] theorem Task.fallThrough_node (t : Task) : t.fallThrough.node = t.node := by
  unfold Task.fallThrough; repeat' split
  all_goals rfl
@[simp] theorem Task.fallThrough_ver (t : Task) : t.fallThrough.ver = t.ver := by
  unfold Task.fallThrough; repeat' split
  all_goals rfl
@[simp] theorem Task.fallThrough_ctx (t : Task) : t.fallThrough.ctx = t.ctx := by
  unfold Task.fallThrough; repeat' split
  all_goals rfl
@[simp] theorem Task.fallThrough_iter (t : Task) : t.fallThrough.iter = t.iter := by
  unfold Task.fallThrough; repeat' split
  all_goals rfl
@[simp] theorem Task.fallThrough_stage (t : Task) : t.fallThrough.stage = t.stage := by
  unfold Task.fallThrough; repeat' split
  all_goals rfl
@[simp] theorem Task.fallThrough_regs (t : Task) : t.fallThrough.regs = t.regs := by
  unfold Task.fallThrough; repeat' split
  all_goals rfl
@[simp] theorem Task.fallThrough_preds (t : Task) : t.fallThrough.preds = t.preds := by
  unfold Task.fallThrough; repeat' split
  all_goals rfl
@[simp] theorem Task.fallThrough_calls (t : Task) : t.fallThrough.calls = t.calls := by
  unfold Task.fallThrough; repeat' split
  all_goals rfl
@[simp] theorem Task.fallThrough_ins (t : Task) : t.fallThrough.ins = t.ins := by
  unfold Task.fallThrough; repeat' split
  all_goals rfl
@[simp] theorem Task.fallThrough_taint (t : Task) : t.fallThrough.taint = t.taint := by
  unfold Task.fallThrough; repeat' split
  all_goals rfl
@[simp] theorem Task.fallThrough_sendIter (t : Task) : t.fallThrough.sendIter = t.sendIter := by
  unfold Task.fallThrough; repeat' split
  all_goals rfl
@[simp] theorem Task.fallThrough_armed (t : Task) : t.fallThrough.armed = t.armed := by
  unfold Task.fallThrough; repeat' split
  all_goals rfl
@[simp] theorem Task.fallThrough_marked (t : Task) : t.fallThrough.marked = t.marked := by
  unfold Task.fallThrough; repeat' split
  all_goals rfl
@[simp] theorem Task.fallThrough_trapCause (t : Task) : t.fallThrough.trapCause = t.trapCause := by
  unfold Task.fallThrough; repeat' split
  all_goals rfl
@[simp] theorem Task.fallThrough_trapAddr (t : Task) : t.fallThrough.trapAddr = t.trapAddr := by
  unfold Task.fallThrough; repeat' split
  all_goals rfl
@[simp] theorem Task.fallThrough_trapInfo (t : Task) : t.fallThrough.trapInfo = t.trapInfo := by
  unfold Task.fallThrough; repeat' split
  all_goals rfl
@[simp] theorem Task.fallThrough_epc (t : Task) : t.fallThrough.epc = t.epc := by
  unfold Task.fallThrough; repeat' split
  all_goals rfl
@[simp] theorem Task.fallThrough_sent (t : Task) : t.fallThrough.sent = t.sent := by
  unfold Task.fallThrough; repeat' split
  all_goals rfl
@[simp] theorem Task.fallThrough_done (t : Task) : t.fallThrough.done = t.done := by
  unfold Task.fallThrough; repeat' split
  all_goals rfl
@[simp] theorem Task.fallThrough_requests (t : Task) : t.fallThrough.requests = t.requests := by
  unfold Task.fallThrough; repeat' split
  all_goals rfl
@[simp] theorem Task.fallThrough_wait (t : Task) : t.fallThrough.wait = t.wait := by
  unfold Task.fallThrough; repeat' split
  all_goals rfl
@[simp] theorem Task.fallThrough_waitAt (t : Task) : t.fallThrough.waitAt = t.waitAt := by
  unfold Task.fallThrough; repeat' split
  all_goals rfl
@[simp] theorem Task.fallThrough_ready (t : Task) : t.fallThrough.ready = t.ready := by
  unfold Task.fallThrough; repeat' split
  all_goals rfl
@[simp] theorem Task.fallThrough_pending (t : Task) : t.fallThrough.pending = t.pending := by
  unfold Task.fallThrough; repeat' split
  all_goals rfl
@[simp] theorem Task.fallThrough_nextIssue (t : Task) : t.fallThrough.nextIssue = t.nextIssue := by
  unfold Task.fallThrough; repeat' split
  all_goals rfl
@[simp] theorem Task.fallThrough_grant (t : Task) : t.fallThrough.grant = t.grant := by
  unfold Task.fallThrough; repeat' split
  all_goals rfl
@[simp] theorem Task.fallThrough_abandoned (t : Task) : t.fallThrough.abandoned = t.abandoned := by
  unfold Task.fallThrough; repeat' split
  all_goals rfl
@[simp] theorem Task.fallThrough_taken (t : Task) : t.fallThrough.taken = t.taken := by
  unfold Task.fallThrough; repeat' split
  all_goals rfl
@[simp] theorem Task.fallThrough_l1Wait (t : Task) : t.fallThrough.l1Wait = t.l1Wait := by
  unfold Task.fallThrough; repeat' split
  all_goals rfl

end Sys2Proof.Machine
end

