-- ==== Sys2Proof/Laws/Store.lean ====
section
/-! SUPPORT. Laws of the sparse tables: what a read gives after a write or a removal, and that the canonical form is
kept. -/

namespace Sys2Proof.Machine

variable {α : Type}

@[simp] theorem tget_nil (i : Nat) : tget ([] : Tbl α) i = none := rfl

/-- Every key of the table lies above `n`. -/
def tabove (n : Nat) (t : Tbl α) : Prop := ∀ e ∈ t, n < e.1

theorem tsorted_cons {k : Nat} {v : α} {r : Tbl α} :
    tsorted ((k, v) :: r) = true ↔ tabove k r ∧ tsorted r = true := by
  induction r generalizing k v with
  | nil => simp [tsorted, tabove]
  | cons e r ih =>
    obtain ⟨j, w⟩ := e
    simp only [tsorted, Bool.and_eq_true, decide_eq_true_eq] at ih ⊢
    refine ⟨fun ⟨h, hs⟩ => ⟨?_, hs⟩, fun ⟨h, hs⟩ => ⟨h (j, w) (by simp), hs⟩⟩
    intro x hx
    rcases List.mem_cons.1 hx with rfl | hx
    · exact h
    · exact Nat.lt_trans h ((ih (k := j) (v := w)).1 hs |>.1 x hx)

/-- A read of the key just written. -/
@[simp] theorem tget_tput_same (t : Tbl α) (i : Nat) (x : α) : tget (tput t i x) i = some x := by
  induction t with
  | nil => simp [tput, tget]
  | cons e r ih =>
    obtain ⟨k, v⟩ := e
    unfold tput
    split
    · rename_i h; simp [tget, h]
    · split
      · simp [tget]
      · rename_i h1 h2; simp [tget, h1, ih]

/-- A write leaves every other key alone. -/
theorem tget_tput_other (t : Tbl α) {i j : Nat} (x : α) (h : j ≠ i) : tget (tput t i x) j = tget t j := by
  induction t with
  | nil => simp [tput, tget, h]
  | cons e r ih =>
    obtain ⟨k, v⟩ := e
    unfold tput
    split
    · rename_i hk; subst hk; simp [tget, h]
    · split
      · simp [tget, h]
      · simp [tget, ih]

theorem tget_tput (t : Tbl α) (i j : Nat) (x : α) : tget (tput t i x) j = if j = i then some x else tget t j := by
  split
  · rename_i h; subst h; simp
  · rename_i h; exact tget_tput_other t x h

theorem tgetD_tput (t : Tbl α) (d x : α) (i j : Nat) : tgetD (tput t i x) d j = if j = i then x else tgetD t d j := by
  unfold tgetD; rw [tget_tput]; split <;> rfl

@[simp] theorem tgetD_tput_same (t : Tbl α) (d x : α) (i : Nat) : tgetD (tput t i x) d i = x := by simp [tgetD]

theorem tgetD_tput_other (t : Tbl α) (d x : α) {i j : Nat} (h : j ≠ i) : tgetD (tput t i x) d j = tgetD t d j := by
  simp [tgetD, tget_tput_other t x h]

theorem mem_tput {t : Tbl α} {i : Nat} {x : α} {e : Nat × α} (h : e ∈ tput t i x) : e = (i, x) ∨ e ∈ t := by
  induction t with
  | nil => simpa [tput] using h
  | cons a r ih =>
    obtain ⟨k, v⟩ := a
    unfold tput at h
    split at h
    · rename_i hk
      subst hk
      rcases List.mem_cons.1 h with h | h
      · exact .inl h
      · exact .inr (List.mem_cons_of_mem _ h)
    · split at h
      · rcases List.mem_cons.1 h with h | h
        · exact .inl h
        · exact .inr h
      · rcases List.mem_cons.1 h with h | h
        · exact .inr (h ▸ List.mem_cons_self ..)
        · rcases ih h with h | h
          · exact .inl h
          · exact .inr (List.mem_cons_of_mem _ h)

/-- A write keeps the keys rising. -/
theorem tsorted_tput {t : Tbl α} (h : tsorted t = true) (i : Nat) (x : α) : tsorted (tput t i x) = true := by
  induction t with
  | nil => rfl
  | cons e r ih =>
    obtain ⟨k, v⟩ := e
    have hc := tsorted_cons.1 h
    unfold tput
    split
    · exact tsorted_cons.2 hc
    · split
      · rename_i h1 h2
        refine tsorted_cons.2 ⟨fun y hy => ?_, h⟩
        rcases List.mem_cons.1 hy with rfl | hy
        · exact h2
        · exact Nat.lt_trans h2 (hc.1 y hy)
      · rename_i h1 h2
        refine tsorted_cons.2 ⟨fun y hy => ?_, ih hc.2⟩
        rcases mem_tput hy with rfl | hy
        · exact Nat.lt_of_le_of_ne (Nat.not_lt.1 h2) (Ne.symm h1)
        · exact hc.1 y hy

theorem mem_tdel {t : Tbl α} {i : Nat} {e : Nat × α} (h : e ∈ tdel t i) : e ∈ t := (List.mem_filter.1 h).1

/-- A removal keeps the keys rising. -/
theorem tsorted_tdel {t : Tbl α} (h : tsorted t = true) (i : Nat) : tsorted (tdel t i) = true := by
  induction t with
  | nil => rfl
  | cons e r ih =>
    obtain ⟨k, v⟩ := e
    have hc := tsorted_cons.1 h
    unfold tdel
    rw [List.filter_cons]
    split
    · exact tsorted_cons.2 ⟨fun y hy => hc.1 y (mem_tdel hy), ih hc.2⟩
    · exact ih hc.2

/-- What a read gives after a removal. -/
theorem tget_tdel (t : Tbl α) (i j : Nat) : tget (tdel t i) j = if j = i then none else tget t j := by
  induction t with
  | nil => simp [tdel, tget]
  | cons e r ih =>
    obtain ⟨k, v⟩ := e
    unfold tdel at ih ⊢
    rw [List.filter_cons]
    split
    · rename_i hk
      have hk : k ≠ i := by simpa using hk
      simp only [tget, ih]
      split
      · rename_i hj; subst hj; simp [hk]
      · rfl
    · rename_i hk
      have hk : k = i := by simpa using hk
      rw [ih]
      subst hk
      split
      · rfl
      · rename_i hj; simp [tget, hj]

/-- What a read gives after a write that keeps no default entry. -/
theorem tgetD_tset [DecidableEq α] (t : Tbl α) (d x : α) (i j : Nat) :
    tgetD (tset t d i x) d j = if j = i then x else tgetD t d j := by
  unfold tset
  split
  · rename_i hx
    unfold tgetD
    rw [tget_tdel]
    split
    · simp [hx]
    · rfl
  · exact tgetD_tput ..

theorem tsorted_tset [DecidableEq α] {t : Tbl α} (h : tsorted t = true) (d x : α) (i : Nat) :
    tsorted (tset t d i x) = true := by
  unfold tset
  split
  · exact tsorted_tdel h i
  · exact tsorted_tput h i x

theorem tlean_tset [DecidableEq α] {t : Tbl α} {d : α} (h : tlean d t = true) (i : Nat) (x : α) :
    tlean d (tset t d i x) = true := by
  simp only [tlean, List.all_eq_true, ne_eq, decide_not, Bool.not_eq_true', decide_eq_false_iff_not] at h ⊢
  unfold tset
  intro e he
  split at he
  · exact h e (mem_tdel he)
  · rename_i hx
    rcases mem_tput he with rfl | he
    · exact hx
    · exact h e he

end Sys2Proof.Machine
end

