-- ==== Sys2Proof/Laws/Memory.lean ====
section
/-! SUPPORT. Laws of memory: what a byte reads as after a write, and that every memory operation keeps the canonical
form of the memories. -/

namespace Sys2Proof.Machine

theorem Memory.wf_iff (m : List Host.Cell) : Memory.wf m = true ↔ tsorted m = true ∧ tlean memDefault m = true := by
  simp [Memory.wf]

theorem State.wf_iff (s : State) : s.wf = true ↔ Memory.wf s.mem = true ∧ Memory.wf s.hostMem = true := by
  simp [State.wf]

/-- The canonical form depends on the memories alone. -/
theorem State.wf_congr {s t : State} (h : s.wf = true) (hm : t.mem = s.mem) (hh : t.hostMem = s.hostMem) :
    t.wf = true := by
  rw [State.wf_iff] at h ⊢
  rwa [hm, hh]

theorem Memory.wf_tset {m : List Host.Cell} (h : Memory.wf m = true) (a : Nat) (b : Byte) :
    Memory.wf (tset m memDefault a b) = true := by
  rw [Memory.wf_iff] at h ⊢
  exact ⟨tsorted_tset h.1 .., tlean_tset h.2 ..⟩

/-! ## Bytes -/

theorem State.wf_writeByte {s : State} (h : s.wf = true) (a : Nat) (b : Byte) : (s.writeByte a b).wf = true := by
  rw [State.wf_iff] at h ⊢
  exact ⟨Memory.wf_tset h.1 a b, h.2⟩

/-- A byte reads as written, and every other byte as before. -/
theorem State.readByte_writeByte (s : State) (a x : Nat) (b : Byte) :
    (s.writeByte a b).readByte x = if x = a then b else s.readByte x := tgetD_tset ..

theorem State.wf_writeMem {s : State} (h : s.wf = true) (a n v : Nat) : (s.writeMem a n v).wf = true := by
  induction n generalizing s a v with
  | zero => exact h
  | succ n ih => exact ih (State.wf_writeByte h ..) ..

/-- Bytes outside a write read as before. -/
theorem State.readByte_writeMem_outside (s : State) {a n x : Nat} (v : Nat) (hx : x < a ∨ a + n ≤ x) :
    (s.writeMem a n v).readByte x = s.readByte x := by
  induction n generalizing s a v with
  | zero => rfl
  | succ n ih =>
    unfold State.writeMem
    rw [ih _ _ (by omega), State.readByte_writeByte, if_neg (by omega)]

/-- A write of n bytes is read back, modulo 2^(8 n). -/
theorem State.readMem_writeMem (s : State) (a n v : Nat) : (s.writeMem a n v).readMem a n = v % 256 ^ n := by
  induction n generalizing s a v with
  | zero => simp [State.readMem, Nat.mod_one]
  | succ n ih =>
    unfold State.readMem State.writeMem
    rw [ih, State.readByte_writeMem_outside _ _ (by omega), State.readByte_writeByte, if_pos rfl,
      BitVec.toNat_ofNat, show 256 ^ (n + 1) = 2 ^ 8 * 256 ^ n from Nat.pow_succ', Nat.mod_mul]
    rfl

theorem State.wf_writeHost {s : State} (h : s.wf = true) (a n v : Nat) : (s.writeHost a n v).wf = true := by
  induction n generalizing s a v with
  | zero => exact h
  | succ n ih =>
    refine ih ?_ ..
    rw [State.wf_iff] at h ⊢
    exact ⟨h.1, Memory.wf_tset h.2 ..⟩

/-! ## Steps over lists -/

/-- What every step of a fold keeps, the fold keeps. -/
theorem each_keeps {α σ : Type} {P : σ → Prop} {f : σ → α → σ} (hf : ∀ s x, P s → P (f s x)) (l : List α) {s : σ}
    (h : P s) : P (each l s f) := by
  unfold each
  induction l generalizing s with
  | nil => exact h
  | cons x r ih => exact ih (hf s x h)

/-! ## The home -/

theorem State.wf_setSectorPoison {s : State} (h : s.wf = true) (a : Nat) (b : Bool) :
    (s.setSectorPoison a b).wf = true := h

theorem State.wf_updHall {s : State} (h : s.wf = true) (i : Nat) (f : Hall → Hall) : (s.updHall i f).wf = true := h

theorem State.wf_updCell {s : State} (h : s.wf = true) (c : Nat) (f : Cell → Cell) : (s.updCell c f).wf = true := h

theorem State.wf_staleWriteBacks {s : State} (h : s.wf = true) (a : Nat) : (s.staleWriteBacks a).wf = true := h

theorem State.wf_writeHome {s : State} (h : s.wf = true) (a n v : Nat) : (s.writeHome a n v).wf = true := by
  unfold State.writeHome
  split
  · exact h
  · refine each_keeps (P := fun s : State => s.wf = true) (fun t i ht => ?_) _ (State.wf_writeMem h a n v)
    dsimp only
    split
    · exact State.wf_setSectorPoison (State.wf_staleWriteBacks ht _) ..
    · exact State.wf_staleWriteBacks ht _

theorem State.wf_dirtyHome {s : State} (h : s.wf = true) (a : Nat) : (s.dirtyHome a).wf = true := h

theorem State.wf_missHome {s : State} (h : s.wf = true) (a : Nat) : (s.missHome a).wf = true := by
  unfold State.missHome
  dsimp only
  repeat' split
  all_goals exact h

theorem State.wf_mergeHome {s : State} (h : s.wf = true) (ln : Nat) (d : Tbl (Byte × Nat)) (bad : BitVec 4) :
    (s.mergeHome ln d bad).wf = true := by
  unfold State.mergeHome
  split
  · exact h
  · refine each_keeps (P := fun s : State => s.wf = true) (fun t i ht => ?_) _
      (State.wf_dirtyHome (each_keeps (P := fun s : State => s.wf = true) (fun t e ht => State.wf_writeByte ht ..) _ h) _)
    dsimp only
    repeat' split
    · exact State.wf_setSectorPoison (State.wf_staleWriteBacks ht _) ..
    · exact State.wf_setSectorPoison (State.wf_staleWriteBacks ht _) ..
    · exact State.wf_staleWriteBacks ht _
    · exact ht

/-! ## Records of faults -/

theorem State.wf_putEntry {s : State} (h : s.wf = true) (e : JEntry) : (s.putEntry e).wf = true :=
  State.wf_writeHome (s := { s with cp := { s.cp with journal := tput s.cp.journal (e.seq % journalSize) e } }) h ..

theorem State.wf_updEntry {s : State} (h : s.wf = true) (k : Nat) (f : JEntry → JEntry) : (s.updEntry k f).wf = true := by
  unfold State.updEntry
  split
  · exact State.wf_putEntry h _
  · exact h

theorem State.wf_updCtx {s : State} (h : s.wf = true) (c : BitVec 10) (f : Ctx → Ctx) : (s.updCtx c f).wf = true := h

theorem State.wf_takeRecord {s : State} (h : s.wf = true) (l : Option Nat) (b : BitVec 256) : (s.takeRecord l b).wf = true := by
  unfold State.takeRecord
  dsimp only
  repeat' split
  · exact h
  · exact State.wf_updEntry (s := { s with cp := { s.cp with records := s.cp.records ++ [b] } }) h ..
  · exact State.wf_updEntry
      (State.wf_updCtx (s := { s with cp := { s.cp with records := s.cp.records ++ [b] } }) h ..) ..
  · exact h

theorem State.wf_cpRecord {s : State} (h : s.wf = true) (c : BitVec 10) (b : Nat) : (s.cpRecord c b).wf = true := by
  unfold State.cpRecord
  dsimp only
  split
  · exact h
  · exact State.wf_takeRecord h ..

theorem State.wf_writeAny {s : State} (h : s.wf = true) (pa n v : Nat) : (s.writeAny pa n v).wf = true := by
  unfold State.writeAny
  split
  · exact State.wf_writeHost h ..
  · exact State.wf_writeHome h ..

theorem State.wf_ringRecord {s : State} (h : s.wf = true) (c : BitVec 10) (b : Nat) : (s.ringRecord c b).wf = true := by
  unfold State.ringRecord
  dsimp only
  repeat' split
  · exact h
  · exact State.wf_updCtx (State.wf_writeAny (State.wf_writeAny h ..) ..) ..
  · exact h

theorem State.wf_record {s : State} (h : s.wf = true) (r : Record) : (s.record r).wf = true :=
  State.wf_cpRecord (State.wf_ringRecord (State.wf_updHall h ..) ..) ..

theorem State.wf_beginStop {s : State} (h : s.wf = true) (c : BitVec 10) : (s.beginStop c).wf = true := by
  unfold State.beginStop
  dsimp only
  split <;> exact h

theorem State.wf_nodeFault {s : State} (h : s.wf = true) (n : NodeRef) (c a i : Nat) : (s.nodeFault n c a i).wf = true := by
  unfold State.nodeFault
  dsimp only
  split
  · exact State.wf_beginStop (State.wf_record h _) _
  · exact State.wf_record h _

theorem State.wf_raiseArray {s : State} (h : s.wf = true) (f : Option NodeRef) (i n a : Nat) :
    (s.raiseArray f i n a).wf = true := by
  unfold State.raiseArray
  split
  · exact State.wf_nodeFault h ..
  · exact h

theorem State.wf_raiseOffline {s : State} (h : s.wf = true) (f : Option NodeRef) (a : Nat) : (s.raiseOffline f a).wf = true := by
  unfold State.raiseOffline
  split
  · exact h
  · exact State.wf_raiseArray (s := s.useFree) h ..

/-! ## Caches -/

theorem State.wf_ite {p : Prop} [Decidable p] {s t : State} (hs : s.wf = true) (ht : t.wf = true) :
    (if p then s else t).wf = true := by
  split
  · exact hs
  · exact ht

theorem State.wf_useFree {s : State} (h : s.wf = true) : s.useFree.wf = true := h

theorem State.wf_setL2 {s : State} (h : s.wf = true) (i ln : Nat) (l : Line) : (s.setL2 i ln l).wf = true :=
  State.wf_updHall h ..

theorem State.wf_setGc {s : State} (h : s.wf = true) (g ln : Nat) (l : Line) : (s.setGc g ln l).wf = true :=
  State.wf_updHall h ..

theorem State.wf_setL1 {s : State} (h : s.wf = true) (c ln : Nat) (l : Line) : (s.setL1 c ln l).wf = true :=
  State.wf_updCell h ..

theorem State.wf_dropL2 {s : State} (h : s.wf = true) (i ln : Nat) : (s.dropL2 i ln).wf = true := by
  unfold State.dropL2
  repeat' split
  · exact h
  · exact h
  · exact State.wf_setL2 (State.wf_mergeHome h ..) ..

theorem State.wf_roomL2 {s : State} (h : s.wf = true) (i ln : Nat) : (s.roomL2 i ln).wf = true := by
  unfold State.roomL2
  repeat' split
  · exact State.wf_dropL2 (State.wf_dropL2 (State.wf_useFree h) ..) ..
  · exact h
  · exact h

theorem State.wf_mergeL2 {s : State} (h : s.wf = true) (i ln : Nat) (d : Tbl (Byte × Nat)) (bad : BitVec 4) :
    (s.mergeL2 i ln d bad).wf = true := by
  unfold State.mergeL2
  split
  · exact State.wf_mergeHome h ..
  · exact State.wf_setL2 (State.wf_roomL2 h ..) ..

theorem State.wf_fetchL2 {s : State} (h : s.wf = true) (i ln : Nat) : (s.fetchL2 i ln).wf = true := by
  unfold State.fetchL2
  dsimp only
  split
  · exact h
  · exact State.wf_setL2 (State.wf_missHome h _) ..

theorem State.wf_l2Row {s : State} (h : s.wf = true) (i ln : Nat) : (s.l2Row i ln).1.wf = true := by
  unfold State.l2Row
  split
  · exact State.wf_missHome h _
  · dsimp only
    split
    · exact h
    · exact State.wf_fetchL2 (State.wf_fetchL2 (State.wf_roomL2 h ..) ..) ..

theorem State.wf_dropGc {s : State} (h : s.wf = true) (g ln : Nat) : (s.dropGc g ln).wf = true := by
  exact State.wf_setGc (State.wf_ite h (State.wf_mergeL2 h (g / 32) ln (s.gcLine g ln).dirty (s.gcLine g ln).bad)) ..

theorem State.wf_roomGc {s : State} (h : s.wf = true) (g ln : Nat) : (s.roomGc g ln).wf = true := by
  unfold State.roomGc
  dsimp only
  repeat' split
  · exact State.wf_dropGc (State.wf_useFree h) ..
  · exact h
  · exact h

theorem State.wf_mergeGc {s : State} (h : s.wf = true) (g ln : Nat) (d : Tbl (Byte × Nat)) (bad : BitVec 4) :
    (s.mergeGc g ln d bad).wf = true := State.wf_setGc (State.wf_roomGc h ..) ..

theorem State.wf_gcRow {s : State} (h : s.wf = true) (g ln : Nat) : (s.gcRow g ln).1.wf = true := by
  unfold State.gcRow
  dsimp only
  split
  · exact h
  · exact State.wf_setGc (State.wf_l2Row (State.wf_roomGc h ..) ..) ..

theorem State.wf_dropL1 {s : State} (h : s.wf = true) (c ln : Nat) : (s.dropL1 c ln).wf = true := by
  exact State.wf_setL1 (State.wf_ite h (State.wf_mergeGc h (galleryOf c) ln (s.l1Line c ln).dirty (s.l1Line c ln).bad)) ..

theorem State.wf_roomL1 {s : State} (h : s.wf = true) (c ln : Nat) : (s.roomL1 c ln).wf = true := by
  unfold State.roomL1
  dsimp only
  repeat' split
  · exact State.wf_dropL1 (State.wf_useFree h) ..
  · exact h
  · exact h

theorem State.wf_cellRow {s : State} (h : s.wf = true) (c ln : Nat) : (s.cellRow c ln).1.wf = true := by
  unfold State.cellRow
  split
  · exact State.wf_gcRow h ..
  · dsimp only
    split
    · exact h
    · exact State.wf_setL1 (State.wf_gcRow (State.wf_roomL1 h ..) ..) ..

theorem State.wf_cleanL1 {s : State} (h : s.wf = true) (c ln : Nat) : (s.cleanL1 c ln).wf = true := by
  unfold State.cleanL1
  dsimp only
  repeat' split
  · exact h
  · exact State.wf_setL1 (State.wf_mergeGc h ..) ..

theorem State.wf_cleanGc {s : State} (h : s.wf = true) (g ln : Nat) (who : Nat → Bool) :
    (s.cleanGc g ln who).wf = true := by
  unfold State.cleanGc
  dsimp only
  repeat' split
  · exact h
  · exact State.wf_setGc (State.wf_mergeL2 h ..) ..

theorem State.wf_cleanL2 {s : State} (h : s.wf = true) (i ln : Nat) (who : Nat → Bool) :
    (s.cleanL2 i ln who).wf = true := by
  unfold State.cleanL2
  dsimp only
  split
  · exact h
  · exact State.wf_updHall (State.wf_mergeHome h ..) ..

theorem State.wf_cleanAllL1 {s : State} (h : s.wf = true) (c : Nat) : (s.cleanAllL1 c).wf = true :=
  each_keeps (P := fun s : State => s.wf = true) (fun _ _ ht => State.wf_cleanL1 ht ..) _ h

theorem State.wf_cleanAllGc {s : State} (h : s.wf = true) (g : Nat) (who : Nat → Bool) :
    (s.cleanAllGc g who).wf = true :=
  each_keeps (P := fun s : State => s.wf = true) (fun _ _ ht => State.wf_cleanGc ht ..) _ h

theorem State.wf_cleanAllL2 {s : State} (h : s.wf = true) (i : Nat) (who : Nat → Bool) :
    (s.cleanAllL2 i who).wf = true :=
  each_keeps (P := fun s : State => s.wf = true) (fun _ _ ht => State.wf_cleanL2 ht ..) _ h

theorem State.wf_flushL1 {s : State} (h : s.wf = true) (c : Nat) : (s.flushL1 c).wf = true :=
  State.wf_updCell (State.wf_cleanAllL1 h c) ..

/-! ## Releases, acquires and accesses of a cell -/

theorem State.wf_pushTo {s : State} (h : s.wf = true) (c : Nat) (sc : Scope) : (s.pushTo c sc).wf = true := by
  have h1 := State.wf_ite (p := Scope.le .gallery sc = true) (State.wf_cleanAllL1 h c) h
  have h2 := State.wf_ite (p := Scope.le .hall sc = true) (State.wf_cleanAllGc h1 (galleryOf c) fun _ => true) h1
  exact State.wf_ite (State.wf_cleanAllL2 h2 ..) h2

theorem State.wf_acquire {s : State} (h : s.wf = true) (c : Nat) (sc : Scope) : (s.acquire c sc).wf = true := by
  unfold State.acquire
  dsimp only
  repeat' split
  all_goals exact h

theorem State.wf_logRelease {s : State} (h : s.wf = true) (c node : Nat) (sc : Scope) :
    (s.logRelease c node sc).wf = true := by
  unfold State.logRelease
  split <;> exact h

theorem State.wf_release {s : State} (h : s.wf = true) (c node : Nat) (sc : Scope) :
    (s.release c node sc).wf = true := State.wf_pushTo (State.wf_logRelease h ..) ..

theorem State.wf_promoteWrites {s : State} (h : s.wf = true) (c : Nat) : (s.promoteWrites c).wf = true :=
  State.wf_cleanAllL2 (State.wf_cleanAllGc (State.wf_cleanAllL1 h c) ..) ..

theorem State.wf_pushLine {s : State} (h : s.wf = true) (c ln : Nat) (sc : Scope) : (s.pushLine c ln sc).wf = true := by
  have h1 := State.wf_ite (p := Scope.le .gallery sc = true) (State.wf_cleanL1 h c ln) h
  have h2 := State.wf_ite (p := Scope.le .hall sc = true) (State.wf_cleanGc h1 (galleryOf c) ln (writtenBy c)) h1
  exact State.wf_ite (State.wf_cleanL2 h2 ..) h2

theorem State.wf_pointRow {s : State} (h : s.wf = true) (c ln : Nat) (sc : Scope) :
    (s.pointRow c ln sc).1.wf = true := by
  cases sc
  · exact State.wf_cellRow h ..
  · exact State.wf_gcRow h ..
  · exact State.wf_l2Row h ..
  · exact State.wf_missHome h _
  · exact State.wf_missHome h _

theorem State.wf_readAt {s : State} (h : s.wf = true) (c pa n : Nat) (sc : Option Scope) :
    (s.readAt c pa n sc).1.wf = true := by
  unfold State.readAt
  split
  · exact h
  · cases sc with
    | none => exact State.wf_cellRow h ..
    | some x => exact State.wf_pointRow (State.wf_pushLine h ..) ..

theorem State.wf_storePlain {s : State} (h : s.wf = true) (c pa n v : Nat) (b : Option NodeRef) (r : Bool) :
    (s.storePlain c pa n v b r).wf = true := by
  unfold State.storePlain
  dsimp only
  repeat' split
  · exact State.wf_writeHost h ..
  · exact State.wf_mergeGc (State.wf_raiseOffline h ..) ..
  · exact State.wf_setL1 (State.wf_cellRow (State.wf_raiseOffline h ..) ..) ..

theorem State.wf_storeAt {s : State} (h : s.wf = true) (c pa n v : Nat) (sc : Scope) (b : Option NodeRef) :
    (s.storeAt c pa n v sc b).wf = true := by
  unfold State.storeAt
  split
  · exact State.wf_storePlain h ..
  · exact State.wf_pushLine (State.wf_storePlain h ..) ..

theorem State.wf_homeLine {s : State} (h : s.wf = true) (c ln : Nat) : (s.homeLine c ln).wf = true :=
  State.wf_setL2 (State.wf_setGc (State.wf_setL1 (State.wf_pushLine h ..) ..) ..) ..

theorem State.wf_atomicAt {s : State} (h : s.wf = true) (c pa n op : Nat) (b d : Word) :
    (s.atomicAt c pa n op b d).1.wf = true := by
  unfold State.atomicAt
  dsimp only
  apply State.wf_writeHome
  apply State.wf_missHome
  apply State.wf_homeLine h

theorem State.wf_serveOp {s : State} (h : s.wf = true) (c : Nat) (o : Op) : (s.serveOp c o).wf = true := by
  unfold State.serveOp
  dsimp only
  split
  · rename_i sc _
    cases sc with
    | none => exact State.wf_updCell (State.wf_raiseOffline (State.wf_readAt h ..) ..) ..
    | some x => exact State.wf_updCell (State.wf_raiseOffline (State.wf_readAt (State.wf_acquire (State.wf_pushLine h ..) ..) ..) ..) ..
  · exact State.wf_updCell (State.wf_raiseOffline (State.wf_atomicAt h ..) ..) ..
  · exact h

theorem State.wf_serveTask {s : State} (h : s.wf = true) (c slot : Nat) : (s.serveTask c slot).wf = true :=
  each_keeps (P := fun s : State => s.wf = true) (fun _ _ ht => State.wf_serveOp ht ..) _ h

end Sys2Proof.Machine
end

