-- ==== Sys2Proof/Laws/PerInstr.lean ====
section
/-! SUPPORT. A law of every instruction as syntax: its encoding has an assigned class and opcode, and its fields share
no bit with them or with each other (09:R144, R147, R153). -/

namespace Sys2Proof.Laws.Encoding

/-- The encoding has an assigned class and opcode, and fields that lie apart. -/
def Statement (i : Instr) : Prop :=
  ∀ c o fs, encodeFields i = some (c, o, fs) →
    assigned c o = true ∧ fieldsApart 64 (⟨60, 4, c⟩ :: ⟨54, 6, o⟩ :: fs) = true

theorem add (sd : BitVec 5) (sa sb : Spec) : Statement (.add sd sa sb) :=
  fun _ _ _ h => by cases h; exact ⟨rfl, rfl⟩

theorem sub (sd : BitVec 5) (sa sb : Spec) : Statement (.sub sd sa sb) :=
  fun _ _ _ h => by cases h; exact ⟨rfl, rfl⟩

theorem mul (sd : BitVec 5) (sa sb : Spec) : Statement (.mul sd sa sb) :=
  fun _ _ _ h => by cases h; exact ⟨rfl, rfl⟩

theorem mulh (sd : BitVec 5) (sa sb : Spec) : Statement (.mulh sd sa sb) :=
  fun _ _ _ h => by cases h; exact ⟨rfl, rfl⟩

theorem mulhu (sd : BitVec 5) (sa sb : Spec) : Statement (.mulhu sd sa sb) :=
  fun _ _ _ h => by cases h; exact ⟨rfl, rfl⟩

theorem divu (sd : BitVec 5) (sa sb : Spec) : Statement (.divu sd sa sb) :=
  fun _ _ _ h => by cases h; exact ⟨rfl, rfl⟩

theorem remu (sd : BitVec 5) (sa sb : Spec) : Statement (.remu sd sa sb) :=
  fun _ _ _ h => by cases h; exact ⟨rfl, rfl⟩

theorem and (sd : BitVec 5) (sa sb : Spec) : Statement (.and sd sa sb) :=
  fun _ _ _ h => by cases h; exact ⟨rfl, rfl⟩

theorem or (sd : BitVec 5) (sa sb : Spec) : Statement (.or sd sa sb) :=
  fun _ _ _ h => by cases h; exact ⟨rfl, rfl⟩

theorem xor (sd : BitVec 5) (sa sb : Spec) : Statement (.xor sd sa sb) :=
  fun _ _ _ h => by cases h; exact ⟨rfl, rfl⟩

theorem andn (sd : BitVec 5) (sa sb : Spec) : Statement (.andn sd sa sb) :=
  fun _ _ _ h => by cases h; exact ⟨rfl, rfl⟩

theorem shl (sd : BitVec 5) (sa sb : Spec) : Statement (.shl sd sa sb) :=
  fun _ _ _ h => by cases h; exact ⟨rfl, rfl⟩

theorem shr (sd : BitVec 5) (sa sb : Spec) : Statement (.shr sd sa sb) :=
  fun _ _ _ h => by cases h; exact ⟨rfl, rfl⟩

theorem sra (sd : BitVec 5) (sa sb : Spec) : Statement (.sra sd sa sb) :=
  fun _ _ _ h => by cases h; exact ⟨rfl, rfl⟩

theorem rot (sd : BitVec 5) (sa sb : Spec) : Statement (.rot sd sa sb) :=
  fun _ _ _ h => by cases h; exact ⟨rfl, rfl⟩

theorem min (sd : BitVec 5) (sa sb : Spec) : Statement (.min sd sa sb) :=
  fun _ _ _ h => by cases h; exact ⟨rfl, rfl⟩

theorem max (sd : BitVec 5) (sa sb : Spec) : Statement (.max sd sa sb) :=
  fun _ _ _ h => by cases h; exact ⟨rfl, rfl⟩

theorem minu (sd : BitVec 5) (sa sb : Spec) : Statement (.minu sd sa sb) :=
  fun _ _ _ h => by cases h; exact ⟨rfl, rfl⟩

theorem maxu (sd : BitVec 5) (sa sb : Spec) : Statement (.maxu sd sa sb) :=
  fun _ _ _ h => by cases h; exact ⟨rfl, rfl⟩

theorem clz (sd : BitVec 5) (sa : Spec) : Statement (.clz sd sa) :=
  fun _ _ _ h => by cases h; exact ⟨rfl, rfl⟩

theorem popc (sd : BitVec 5) (sa : Spec) : Statement (.popc sd sa) :=
  fun _ _ _ h => by cases h; exact ⟨rfl, rfl⟩

theorem bfx (sd : BitVec 5) (sa : Spec) (pos len1 : BitVec 6) : Statement (.bfx sd sa pos len1) :=
  fun _ _ _ h => by cases h; exact ⟨rfl, rfl⟩

theorem bfi (sd : BitVec 5) (sa sb : Spec) (pos len1 : BitVec 6) : Statement (.bfi sd sa sb pos len1) :=
  fun _ _ _ h => by cases h; exact ⟨rfl, rfl⟩

theorem madd (sd : BitVec 5) (sa sb sc : Spec) : Statement (.madd sd sa sb sc) :=
  fun _ _ _ h => by cases h; exact ⟨rfl, rfl⟩

theorem addr (sd : BitVec 5) (sa sb : Spec) (sh : BitVec 4) : Statement (.addr sd sa sb sh) :=
  fun _ _ _ h => by cases h; exact ⟨rfl, rfl⟩

theorem cmp (cc : Cond) (pd : BitVec 3) (sa sb : Spec) : Statement (.cmp cc pd sa sb) :=
  fun _ _ _ h => by cases h; exact ⟨rfl, rfl⟩

theorem sel (sd : BitVec 5) (ps : BitVec 3) (sa sb : Spec) : Statement (.sel sd ps sa sb) :=
  fun _ _ _ h => by cases h; exact ⟨rfl, rfl⟩

theorem addi (sd : BitVec 5) (sa : Spec) (imm : BitVec 32) : Statement (.addi sd sa imm) :=
  fun _ _ _ h => by cases h; exact ⟨rfl, rfl⟩

theorem muli (sd : BitVec 5) (sa : Spec) (imm : BitVec 32) : Statement (.muli sd sa imm) :=
  fun _ _ _ h => by cases h; exact ⟨rfl, rfl⟩

theorem andi (sd : BitVec 5) (sa : Spec) (imm : BitVec 32) : Statement (.andi sd sa imm) :=
  fun _ _ _ h => by cases h; exact ⟨rfl, rfl⟩

theorem ori (sd : BitVec 5) (sa : Spec) (imm : BitVec 32) : Statement (.ori sd sa imm) :=
  fun _ _ _ h => by cases h; exact ⟨rfl, rfl⟩

theorem xori (sd : BitVec 5) (sa : Spec) (imm : BitVec 32) : Statement (.xori sd sa imm) :=
  fun _ _ _ h => by cases h; exact ⟨rfl, rfl⟩

theorem shli (sd : BitVec 5) (sa : Spec) (n : BitVec 6) : Statement (.shli sd sa n) :=
  fun _ _ _ h => by cases h; exact ⟨rfl, rfl⟩

theorem shri (sd : BitVec 5) (sa : Spec) (n : BitVec 6) : Statement (.shri sd sa n) :=
  fun _ _ _ h => by cases h; exact ⟨rfl, rfl⟩

theorem srai (sd : BitVec 5) (sa : Spec) (n : BitVec 6) : Statement (.srai sd sa n) :=
  fun _ _ _ h => by cases h; exact ⟨rfl, rfl⟩

theorem roti (sd : BitVec 5) (sa : Spec) (n : BitVec 6) : Statement (.roti sd sa n) :=
  fun _ _ _ h => by cases h; exact ⟨rfl, rfl⟩

theorem mini (sd : BitVec 5) (sa : Spec) (imm : BitVec 32) : Statement (.mini sd sa imm) :=
  fun _ _ _ h => by cases h; exact ⟨rfl, rfl⟩

theorem maxi (sd : BitVec 5) (sa : Spec) (imm : BitVec 32) : Statement (.maxi sd sa imm) :=
  fun _ _ _ h => by cases h; exact ⟨rfl, rfl⟩

theorem cmpi (cc : Cond) (pd : BitVec 3) (sa : Spec) (imm : BitVec 32) : Statement (.cmpi cc pd sa imm) :=
  fun _ _ _ h => by cases h; exact ⟨rfl, rfl⟩

theorem li (sd : BitVec 5) (imm : BitVec 32) : Statement (.li sd imm) :=
  fun _ _ _ h => by cases h; exact ⟨rfl, rfl⟩

theorem lih (sd : BitVec 5) (sa : Spec) (imm : BitVec 32) : Statement (.lih sd sa imm) :=
  fun _ _ _ h => by cases h; exact ⟨rfl, rfl⟩

theorem br (target : BitVec 9) : Statement (.br target) :=
  fun _ _ _ h => by cases h; exact ⟨rfl, rfl⟩

theorem brp (pt : BitVec 3) (ptn : Bool) (target : BitVec 9) : Statement (.brp pt ptn target) :=
  fun _ _ _ h => by cases h; exact ⟨rfl, rfl⟩

theorem call (target : BitVec 9) : Statement (.call target) :=
  fun _ _ _ h => by cases h; exact ⟨rfl, rfl⟩

theorem loop (sa : Spec) (target limit : BitVec 9) : Statement (.loop sa target limit) :=
  fun _ _ _ h => by cases h; exact ⟨rfl, rfl⟩

theorem pand (pd pe pf : BitVec 3) : Statement (.pand pd pe pf) :=
  fun _ _ _ h => by cases h; exact ⟨rfl, rfl⟩

theorem por (pd pe pf : BitVec 3) : Statement (.por pd pe pf) :=
  fun _ _ _ h => by cases h; exact ⟨rfl, rfl⟩

theorem pxor (pd pe pf : BitVec 3) : Statement (.pxor pd pe pf) :=
  fun _ _ _ h => by cases h; exact ⟨rfl, rfl⟩

theorem pnot (pd pe : BitVec 3) : Statement (.pnot pd pe) :=
  fun _ _ _ h => by cases h; exact ⟨rfl, rfl⟩

theorem pset (pd : BitVec 3) (v : Bool) : Statement (.pset pd v) :=
  fun _ _ _ h => by cases h; exact ⟨rfl, rfl⟩

theorem padd (o : Pl3) : Statement (.padd o) :=
  by obtain ⟨bd, ba, bb, pp, n1, _ | m⟩ := o <;> (rintro _ _ _ ⟨⟩; exact ⟨rfl, rfl⟩)

theorem psub (o : Pl3) : Statement (.psub o) :=
  by obtain ⟨bd, ba, bb, pp, n1, _ | m⟩ := o <;> (rintro _ _ _ ⟨⟩; exact ⟨rfl, rfl⟩)

theorem pmul (o : Pl3) : Statement (.pmul o) :=
  by obtain ⟨bd, ba, bb, pp, n1, _ | m⟩ := o <;> (rintro _ _ _ ⟨⟩; exact ⟨rfl, rfl⟩)

theorem pmac (o : Pl3) : Statement (.pmac o) :=
  by obtain ⟨bd, ba, bb, pp, n1, _ | m⟩ := o <;> (rintro _ _ _ ⟨⟩; exact ⟨rfl, rfl⟩)

theorem pneg (o : Pl2) : Statement (.pneg o) :=
  by obtain ⟨bd, ba, pp, n1, _ | m⟩ := o <;> (rintro _ _ _ ⟨⟩; exact ⟨rfl, rfl⟩)

theorem pabs (o : Pl2) : Statement (.pabs o) :=
  by obtain ⟨bd, ba, pp, n1, _ | m⟩ := o <;> (rintro _ _ _ ⟨⟩; exact ⟨rfl, rfl⟩)

theorem pmin (o : Pl3) : Statement (.pmin o) :=
  by obtain ⟨bd, ba, bb, pp, n1, _ | m⟩ := o <;> (rintro _ _ _ ⟨⟩; exact ⟨rfl, rfl⟩)

theorem pmax (o : Pl3) : Statement (.pmax o) :=
  by obtain ⟨bd, ba, bb, pp, n1, _ | m⟩ := o <;> (rintro _ _ _ ⟨⟩; exact ⟨rfl, rfl⟩)

theorem pmov (o : Pl2) : Statement (.pmov o) :=
  by obtain ⟨bd, ba, pp, n1, _ | m⟩ := o <;> (rintro _ _ _ ⟨⟩; exact ⟨rfl, rfl⟩)

theorem pshl (o : Pl2) (sh : BitVec 5) : Statement (.pshl o sh) :=
  by obtain ⟨bd, ba, pp, n1, _ | m⟩ := o <;> (rintro _ _ _ ⟨⟩; exact ⟨rfl, rfl⟩)

theorem pshr (o : Pl2) (sh : BitVec 5) : Statement (.pshr o sh) :=
  by obtain ⟨bd, ba, pp, n1, _ | m⟩ := o <;> (rintro _ _ _ ⟨⟩; exact ⟨rfl, rfl⟩)

theorem psra (o : Pl2) (sh : BitVec 5) : Statement (.psra o sh) :=
  by obtain ⟨bd, ba, pp, n1, _ | m⟩ := o <;> (rintro _ _ _ ⟨⟩; exact ⟨rfl, rfl⟩)

theorem pcmp (cc : Cond) (qd : BitVec 3) (ba bb : BitVec 9) (pp : BitVec 2) (mask : Option (BitVec 3)) : Statement (.pcmp cc qd ba bb pp mask) :=
  by cases mask <;> (rintro _ _ _ ⟨⟩; exact ⟨rfl, rfl⟩)

theorem psel (bd ba bb : BitVec 9) (pp : BitVec 2) (n1 : BitVec 5) (qs : BitVec 3) : Statement (.psel bd ba bb pp n1 qs) :=
  fun _ _ _ h => by cases h; exact ⟨rfl, rfl⟩

theorem qand (qd qm qk : BitVec 3) : Statement (.qand qd qm qk) :=
  fun _ _ _ h => by cases h; exact ⟨rfl, rfl⟩

theorem qor (qd qm qk : BitVec 3) : Statement (.qor qd qm qk) :=
  fun _ _ _ h => by cases h; exact ⟨rfl, rfl⟩

theorem qxor (qd qm qk : BitVec 3) : Statement (.qxor qd qm qk) :=
  fun _ _ _ h => by cases h; exact ⟨rfl, rfl⟩

theorem qandn (qd qm qk : BitVec 3) : Statement (.qandn qd qm qk) :=
  fun _ _ _ h => by cases h; exact ⟨rfl, rfl⟩

theorem qnot (qd qm : BitVec 3) : Statement (.qnot qd qm) :=
  fun _ _ _ h => by cases h; exact ⟨rfl, rfl⟩

theorem qld (qd : BitVec 3) (ba : BitVec 9) (mask : Option (BitVec 3)) : Statement (.qld qd ba mask) :=
  by cases mask <;> (rintro _ _ _ ⟨⟩; exact ⟨rfl, rfl⟩)

theorem qst (bd : BitVec 9) (qd : BitVec 3) (mask : Option (BitVec 3)) : Statement (.qst bd qd mask) :=
  by cases mask <;> (rintro _ _ _ ⟨⟩; exact ⟨rfl, rfl⟩)

theorem plz (o : Pl2) : Statement (.plz o) :=
  by obtain ⟨bd, ba, pp, n1, _ | m⟩ := o <;> (rintro _ _ _ ⟨⟩; exact ⟨rfl, rfl⟩)

theorem ppopc (o : Pl2) : Statement (.ppopc o) :=
  by obtain ⟨bd, ba, pp, n1, _ | m⟩ := o <;> (rintro _ _ _ ⟨⟩; exact ⟨rfl, rfl⟩)

theorem ptrimLane (o : Pl2) : Statement (.ptrimLane o) :=
  by obtain ⟨bd, ba, pp, n1, _ | m⟩ := o <;> (rintro _ _ _ ⟨⟩; exact ⟨rfl, rfl⟩)

theorem ptrimBlk (o : Pl2) : Statement (.ptrimBlk o) :=
  by obtain ⟨bd, ba, pp, n1, _ | m⟩ := o <;> (rintro _ _ _ ⟨⟩; exact ⟨rfl, rfl⟩)

theorem preduce (op : RedOp) (o : Pl2) (g : BitVec 5) : Statement (.preduce op o g) :=
  by obtain ⟨bd, ba, pp, n1, _ | m⟩ := o <;> (rintro _ _ _ ⟨⟩; exact ⟨rfl, rfl⟩)

theorem pbcast (o : Pl2) (lane : BitVec 10) : Statement (.pbcast o lane) :=
  by obtain ⟨bd, ba, pp, n1, _ | m⟩ := o <;> (rintro _ _ _ ⟨⟩; exact ⟨rfl, rfl⟩)

theorem plut (o : Pl3) : Statement (.plut o) :=
  by obtain ⟨bd, ba, bb, pp, n1, _ | m⟩ := o <;> (rintro _ _ _ ⟨⟩; exact ⟨rfl, rfl⟩)

theorem cex (dir : CexDir) (o : Pl2) (g : BitVec 5) : Statement (.cex dir o g) :=
  by obtain ⟨bd, ba, pp, n1, _ | m⟩ := o <;> (rintro _ _ _ ⟨⟩; exact ⟨rfl, rfl⟩)

theorem cexi (dir : CexDir) (o : Pl3) (g : BitVec 5) : Statement (.cexi dir o g) :=
  by obtain ⟨bd, ba, bb, pp, n1, _ | m⟩ := o <;> (rintro _ _ _ ⟨⟩; exact ⟨rfl, rfl⟩)

theorem pexp2 (o : Pl2) (f : BitVec 5) (g : BitVec 4) : Statement (.pexp2 o f g) :=
  by obtain ⟨bd, ba, pp, n1, _ | m⟩ := o <;> (rintro _ _ _ ⟨⟩; exact ⟨rfl, rfl⟩)

theorem plog2 (o : Pl2) (f : BitVec 5) (g : BitVec 4) : Statement (.plog2 o f g) :=
  by obtain ⟨bd, ba, pp, n1, _ | m⟩ := o <;> (rintro _ _ _ ⟨⟩; exact ⟨rfl, rfl⟩)

theorem cvt (bd ba : BitVec 9) (pp : BitVec 2) (fmtd fmts : BitVec 5) (mask : Option (BitVec 3)) : Statement (.cvt bd ba pp fmtd fmts mask) :=
  by cases mask <;> (rintro _ _ _ ⟨⟩; exact ⟨rfl, rfl⟩)

theorem cvts (bd : BitVec 9) (sa : Spec) (pp : BitVec 2) (fmtd fmts : BitVec 5) (mask : Option (BitVec 3)) : Statement (.cvts bd sa pp fmtd fmts mask) :=
  by cases mask <;> (rintro _ _ _ ⟨⟩; exact ⟨rfl, rfl⟩)

theorem prdTrunc (bd ba : BitVec 9) (pp : BitVec 2) (fmts k1 : BitVec 5) (mask : Option (BitVec 3)) : Statement (.prdTrunc bd ba pp fmts k1 mask) :=
  by cases mask <;> (rintro _ _ _ ⟨⟩; exact ⟨rfl, rfl⟩)

theorem prdRound (bd ba : BitVec 9) (pp : BitVec 2) (fmts k1 : BitVec 5) (mask : Option (BitVec 3)) : Statement (.prdRound bd ba pp fmts k1 mask) :=
  by cases mask <;> (rintro _ _ _ ⟨⟩; exact ⟨rfl, rfl⟩)

theorem pwr (bd ba : BitVec 9) (pp : BitVec 2) (fmtd k1 : BitVec 5) (mask : Option (BitVec 3)) : Statement (.pwr bd ba pp fmtd k1 mask) :=
  by cases mask <;> (rintro _ _ _ ⟨⟩; exact ⟨rfl, rfl⟩)

theorem quant (keep : Bool) (bd ba : BitVec 9) (pp : BitVec 2) (fmtd fmts : BitVec 5) (tsel : BitVec 3) (mask : Option (BitVec 3)) : Statement (.quant keep bd ba pp fmtd fmts tsel mask) :=
  by cases mask <;> (rintro _ _ _ ⟨⟩; exact ⟨rfl, rfl⟩)

theorem sclMax (bd ba : BitVec 9) (pp : BitVec 2) (fmtd fmts : BitVec 5) (tsel : BitVec 3) (mask : Option (BitVec 3)) : Statement (.sclMax bd ba pp fmtd fmts tsel mask) :=
  by cases mask <;> (rintro _ _ _ ⟨⟩; exact ⟨rfl, rfl⟩)

theorem sclGet (bd ba : BitVec 9) (fmts : BitVec 5) (mask : Option (BitVec 3)) : Statement (.sclGet bd ba fmts mask) :=
  by cases mask <;> (rintro _ _ _ ⟨⟩; exact ⟨rfl, rfl⟩)

theorem sclPut (bd : BitVec 9) (sa : Spec) (fmtd : BitVec 5) (mask : Option (BitVec 3)) : Statement (.sclPut bd sa fmtd mask) :=
  by cases mask <;> (rintro _ _ _ ⟨⟩; exact ⟨rfl, rfl⟩)

theorem deq (bd ba : BitVec 9) (pp : BitVec 2) (fmtd fmts : BitVec 5) (mask : Option (BitVec 3)) : Statement (.deq bd ba pp fmtd fmts mask) :=
  by cases mask <;> (rintro _ _ _ ⟨⟩; exact ⟨rfl, rfl⟩)

theorem lfsrSeed (sa : Spec) : Statement (.lfsrSeed sa) :=
  fun _ _ _ h => by cases h; exact ⟨rfl, rfl⟩

theorem ppset (pp : BitVec 2) (sa : Spec) : Statement (.ppset pp sa) :=
  fun _ _ _ h => by cases h; exact ⟨rfl, rfl⟩

theorem ppget (sd : BitVec 5) (pp : BitVec 2) : Statement (.ppget sd pp) :=
  fun _ _ _ h => by cases h; exact ⟨rfl, rfl⟩

theorem gather (pp : BitVec 2) (bt : BitVec 9) (sa : Spec) : Statement (.gather pp bt sa) :=
  fun _ _ _ h => by cases h; exact ⟨rfl, rfl⟩

theorem mma (ad pp : BitVec 2) (a : MatA) (bb : BitVec 9) (hb : Bool) : Statement (.mma ad pp a bb hb) :=
  by cases a <;> (rintro _ _ _ ⟨⟩; exact ⟨rfl, rfl⟩)

theorem mmaS1 (ad pp : BitVec 2) (a : MatA) (bb : BitVec 9) (sm : Spec) : Statement (.mmaS1 ad pp a bb sm) :=
  by cases a <;> (rintro _ _ _ ⟨⟩; exact ⟨rfl, rfl⟩)

theorem mmaS2 (ad pp : BitVec 2) (a : MatA) (bb : BitVec 9) (sm : Spec) : Statement (.mmaS2 ad pp a bb sm) :=
  by cases a <;> (rintro _ _ _ ⟨⟩; exact ⟨rfl, rfl⟩)

theorem mmaS4 (ad pp : BitVec 2) (a : MatA) (bb : BitVec 9) (sm : Spec) : Statement (.mmaS4 ad pp a bb sm) :=
  by cases a <;> (rintro _ _ _ ⟨⟩; exact ⟨rfl, rfl⟩)

theorem mmaX (ad pp : BitVec 2) (a : MatA) (bb : BitVec 9) (inP inQ : BitVec 2) (hb : Bool) : Statement (.mmaX ad pp a bb inP inQ hb) :=
  by cases a <;> (rintro _ _ _ ⟨⟩; exact ⟨rfl, rfl⟩)

theorem accz (ad : BitVec 2) : Statement (.accz ad) :=
  fun _ _ _ h => by cases h; exact ⟨rfl, rfl⟩

theorem accrd (bd : BitVec 9) (ad pp : BitVec 2) (fmt : BitVec 5) (sl sh : Spec) : Statement (.accrd bd ad pp fmt sl sh) :=
  fun _ _ _ h => by cases h; exact ⟨rfl, rfl⟩

theorem accaddTile (ad src pp : BitVec 2) : Statement (.accaddTile ad src pp) :=
  fun _ _ _ h => by cases h; exact ⟨rfl, rfl⟩

theorem accaddRows (ad pp : BitVec 2) (ba : BitVec 9) (sl : Spec) : Statement (.accaddRows ad pp ba sl) :=
  fun _ _ _ h => by cases h; exact ⟨rfl, rfl⟩

theorem regionCfg (sw : Spec) : Statement (.regionCfg sw) :=
  fun _ _ _ h => by cases h; exact ⟨rfl, rfl⟩

theorem sweepG (v : Bool) (sc : Spec) : Statement (.sweepG v sc) :=
  fun _ _ _ h => by cases h; exact ⟨rfl, rfl⟩

theorem sweepR (v start : Bool) : Statement (.sweepR v start) :=
  fun _ _ _ h => by cases h; exact ⟨rfl, rfl⟩

theorem optAddc (bw bu : BitVec 9) (pp : BitVec 2) (mask : Option (BitVec 3)) : Statement (.optAddc bw bu pp mask) :=
  by cases mask <;> (rintro _ _ _ ⟨⟩; exact ⟨rfl, rfl⟩)

theorem optSgd (bw bg : BitVec 9) (pp : BitVec 2) (sh : Spec) (mask : Option (BitVec 3)) : Statement (.optSgd bw bg pp sh mask) :=
  by cases mask <;> (rintro _ _ _ ⟨⟩; exact ⟨rfl, rfl⟩)

theorem optMom (bw bg : BitVec 9) (pp : BitVec 2) (sm sh : Spec) (mask : Option (BitVec 3)) : Statement (.optMom bw bg pp sm sh mask) :=
  by cases mask <;> (rintro _ _ _ ⟨⟩; exact ⟨rfl, rfl⟩)

theorem optAdam2 (bv bg : BitVec 9) (pp : BitVec 2) (sh : Spec) (mask : Option (BitVec 3)) : Statement (.optAdam2 bv bg pp sh mask) :=
  by cases mask <;> (rintro _ _ _ ⟨⟩; exact ⟨rfl, rfl⟩)

theorem optEma (be bw : BitVec 9) (pp : BitVec 2) (sh : Spec) (mask : Option (BitVec 3)) : Statement (.optEma be bw pp sh mask) :=
  by cases mask <;> (rintro _ _ _ ⟨⟩; exact ⟨rfl, rfl⟩)

theorem send (g : Guard) (op : BitVec 2) (sa : Spec) (pred : TPred) (aux : BitVec 9) (kind : TkKind) : Statement (.send g op sa pred aux kind) :=
  fun _ _ _ h => by cases h; exact ⟨rfl, rfl⟩

theorem sendn (g : Guard) (op : BitVec 2) : Statement (.sendn g op) :=
  fun _ _ _ h => by cases h; exact ⟨rfl, rfl⟩

theorem steer (g : Guard) (hi : Bool) (sa : Spec) (pt : BitVec 3) (aux : BitVec 9) (kind : TkKind) : Statement (.steer g hi sa pt aux kind) :=
  fun _ _ _ h => by cases h; exact ⟨rfl, rfl⟩

theorem selectP (g : Guard) (sd : BitVec 5) (sa sb : Spec) (pt : BitVec 3) : Statement (.selectP g sd sa sb pt) :=
  fun _ _ _ h => by cases h; exact ⟨rfl, rfl⟩

theorem selectNN (g : Guard) (sd : BitVec 5) (ia ib : BitVec 2) (pt : BitVec 3) : Statement (.selectNN g sd ia ib pt) :=
  fun _ _ _ h => by cases h; exact ⟨rfl, rfl⟩

theorem dup (g : Guard) (ports : BitVec 4) (sa : Spec) (pred : TPred) (aux : BitVec 9) (kind : TkKind) : Statement (.dup g ports sa pred aux kind) :=
  fun _ _ _ h => by cases h; exact ⟨rfl, rfl⟩

theorem eos (g : Guard) (op : BitVec 2) : Statement (.eos g op) :=
  fun _ _ _ h => by cases h; exact ⟨rfl, rfl⟩

theorem tagget (g : Guard) (sd : BitVec 5) : Statement (.tagget g sd) :=
  fun _ _ _ h => by cases h; exact ⟨rfl, rfl⟩

theorem tagset (g : Guard) (sa : Spec) : Statement (.tagset g sa) :=
  fun _ _ _ h => by cases h; exact ⟨rfl, rfl⟩

theorem loopbIssue (g : Guard) (sd : BitVec 5) (op : BitVec 2) (sa : Spec) (pred : TPred) (aux : BitVec 9) (kind : TkKind) : Statement (.loopbIssue g sd op sa pred aux kind) :=
  fun _ _ _ h => by cases h; exact ⟨rfl, rfl⟩

theorem loopbRetire (g : Guard) (sa : Spec) : Statement (.loopbRetire g sa) :=
  fun _ _ _ h => by cases h; exact ⟨rfl, rfl⟩

theorem blk (g : Guard) (rtag : BitVec 8) : Statement (.blk g rtag) :=
  fun _ _ _ h => by cases h; exact ⟨rfl, rfl⟩

theorem unblk (g : Guard) (rtag : BitVec 8) : Statement (.unblk g rtag) :=
  fun _ _ _ h => by cases h; exact ⟨rfl, rfl⟩

theorem waitt (g : Guard) (sa : Spec) : Statement (.waitt g sa) :=
  fun _ _ _ h => by cases h; exact ⟨rfl, rfl⟩

theorem waitf (g : Guard) (c : WaitCond) (scope : Scope) (sd : BitVec 5) (sa sb : Spec) : Statement (.waitf g c scope sd sa sb) :=
  fun _ _ _ h => by cases h; exact ⟨rfl, rfl⟩

theorem msend (g : Guard) (sa sb : Spec) : Statement (.msend g sa sb) :=
  fun _ _ _ h => by cases h; exact ⟨rfl, rfl⟩

theorem ld (g : Guard) (sd : BitVec 5) (sa : Spec) (size : Size) (sx : Bool) : Statement (.ld g sd sa size sx) :=
  fun _ _ _ h => by cases h; exact ⟨rfl, rfl⟩

theorem ldWave (g : Guard) (sd : BitVec 5) (sa : Spec) (size : Size) (sx : Bool) (ws wp wq : BitVec 8) : Statement (.ldWave g sd sa size sx ws wp wq) :=
  fun _ _ _ h => by cases h; exact ⟨rfl, rfl⟩

theorem st (g : Guard) (sa sb : Spec) (size : Size) : Statement (.st g sa sb size) :=
  fun _ _ _ h => by cases h; exact ⟨rfl, rfl⟩

theorem stWave (g : Guard) (sa sb : Spec) (size : Size) (ws wp wq : BitVec 8) : Statement (.stWave g sa sb size ws wp wq) :=
  fun _ _ _ h => by cases h; exact ⟨rfl, rfl⟩

theorem ldp (g : Guard) (sd : BitVec 5) (sa : Spec) : Statement (.ldp g sd sa) :=
  fun _ _ _ h => by cases h; exact ⟨rfl, rfl⟩

theorem stp (g : Guard) (sa sb : Spec) : Statement (.stp g sa sb) :=
  fun _ _ _ h => by cases h; exact ⟨rfl, rfl⟩

theorem ldpr (g : Guard) (sd : BitVec 5) (sa : Spec) : Statement (.ldpr g sd sa) :=
  fun _ _ _ h => by cases h; exact ⟨rfl, rfl⟩

theorem stpr (g : Guard) (sa sb : Spec) : Statement (.stpr g sa sb) :=
  fun _ _ _ h => by cases h; exact ⟨rfl, rfl⟩

theorem lda (g : Guard) (scope : Scope) (sd : BitVec 5) (sa : Spec) (size : Size) (sx : Bool) : Statement (.lda g scope sd sa size sx) :=
  fun _ _ _ h => by cases h; exact ⟨rfl, rfl⟩

theorem str (g : Guard) (scope : Scope) (sa sb : Spec) (size : Size) : Statement (.str g scope sa sb size) :=
  fun _ _ _ h => by cases h; exact ⟨rfl, rfl⟩

theorem ldaProm (g : Guard) (sd : BitVec 5) (sa sb : Spec) (size : Size) (sx : Bool) : Statement (.ldaProm g sd sa sb size sx) :=
  fun _ _ _ h => by cases h; exact ⟨rfl, rfl⟩

theorem fence (g : Guard) (scope : Scope) : Statement (.fence g scope) :=
  fun _ _ _ h => by cases h; exact ⟨rfl, rfl⟩

theorem pref (g : Guard) (sa : Spec) : Statement (.pref g sa) :=
  fun _ _ _ h => by cases h; exact ⟨rfl, rfl⟩

theorem l1Inv (g : Guard) (sa : Spec) : Statement (.l1Inv g sa) :=
  fun _ _ _ h => by cases h; exact ⟨rfl, rfl⟩

theorem l1InvAll (g : Guard) : Statement (.l1InvAll g) :=
  fun _ _ _ h => by cases h; exact ⟨rfl, rfl⟩

theorem l1Wb (g : Guard) (sa : Spec) : Statement (.l1Wb g sa) :=
  fun _ _ _ h => by cases h; exact ⟨rfl, rfl⟩

theorem l1WbAll (g : Guard) : Statement (.l1WbAll g) :=
  fun _ _ _ h => by cases h; exact ⟨rfl, rfl⟩

theorem split (g : Guard) (sa : Spec) : Statement (.split g sa) :=
  fun _ _ _ h => by cases h; exact ⟨rfl, rfl⟩

theorem aadd (g : Guard) (sd : BitVec 5) (sa sb : Spec) (dbl : Bool) : Statement (.aadd g sd sa sb dbl) :=
  fun _ _ _ h => by cases h; exact ⟨rfl, rfl⟩

theorem amin (g : Guard) (sd : BitVec 5) (sa sb : Spec) (dbl : Bool) : Statement (.amin g sd sa sb dbl) :=
  fun _ _ _ h => by cases h; exact ⟨rfl, rfl⟩

theorem amax (g : Guard) (sd : BitVec 5) (sa sb : Spec) (dbl : Bool) : Statement (.amax g sd sa sb dbl) :=
  fun _ _ _ h => by cases h; exact ⟨rfl, rfl⟩

theorem aand (g : Guard) (sd : BitVec 5) (sa sb : Spec) (dbl : Bool) : Statement (.aand g sd sa sb dbl) :=
  fun _ _ _ h => by cases h; exact ⟨rfl, rfl⟩

theorem aor (g : Guard) (sd : BitVec 5) (sa sb : Spec) (dbl : Bool) : Statement (.aor g sd sa sb dbl) :=
  fun _ _ _ h => by cases h; exact ⟨rfl, rfl⟩

theorem axor (g : Guard) (sd : BitVec 5) (sa sb : Spec) (dbl : Bool) : Statement (.axor g sd sa sb dbl) :=
  fun _ _ _ h => by cases h; exact ⟨rfl, rfl⟩

theorem aswp (g : Guard) (sd : BitVec 5) (sa sb : Spec) (dbl : Bool) : Statement (.aswp g sd sa sb dbl) :=
  fun _ _ _ h => by cases h; exact ⟨rfl, rfl⟩

theorem acas (g : Guard) (sd : BitVec 5) (sa sb sc : Spec) (dbl : Bool) : Statement (.acas g sd sa sb sc dbl) :=
  fun _ _ _ h => by cases h; exact ⟨rfl, rfl⟩

theorem ainc (g : Guard) (sd : BitVec 5) (sa sb : Spec) (dbl : Bool) : Statement (.ainc g sd sa sb dbl) :=
  fun _ _ _ h => by cases h; exact ⟨rfl, rfl⟩

theorem barArr (g : Guard) (sa sb sc : Spec) (bytes : Bool) (bid : BitVec 8) : Statement (.barArr g sa sb sc bytes bid) :=
  fun _ _ _ h => by cases h; exact ⟨rfl, rfl⟩

theorem barWait (g : Guard) (sa : Spec) (bid : BitVec 8) : Statement (.barWait g sa bid) :=
  fun _ _ _ h => by cases h; exact ⟨rfl, rfl⟩

theorem ownflip (g : Guard) (reg : BitVec 3) (own : Bool) : Statement (.ownflip g reg own) :=
  fun _ _ _ h => by cases h; exact ⟨rfl, rfl⟩

theorem ownqry (g : Guard) (sd : BitVec 5) : Statement (.ownqry g sd) :=
  fun _ _ _ h => by cases h; exact ⟨rfl, rfl⟩

theorem teDesc (g : Guard) (sd : BitVec 5) (sa sb : Spec) : Statement (.teDesc g sd sa sb) :=
  fun _ _ _ h => by cases h; exact ⟨rfl, rfl⟩

theorem teCopy (g : Guard) (sd : BitVec 5) (sa : Spec) (q : QSel) : Statement (.teCopy g sd sa q) :=
  fun _ _ _ h => by cases h; exact ⟨rfl, rfl⟩

theorem teCopyp (g : Guard) (sd : BitVec 5) (sa sb : Spec) (q : QSel) : Statement (.teCopyp g sd sa sb q) :=
  fun _ _ _ h => by cases h; exact ⟨rfl, rfl⟩

theorem teGather (g : Guard) (sd : BitVec 5) (sa : Spec) (q : QSel) : Statement (.teGather g sd sa q) :=
  fun _ _ _ h => by cases h; exact ⟨rfl, rfl⟩

theorem teScatter (g : Guard) (sd : BitVec 5) (sa : Spec) (q : QSel) : Statement (.teScatter g sd sa q) :=
  fun _ _ _ h => by cases h; exact ⟨rfl, rfl⟩

theorem teFill (g : Guard) (sd : BitVec 5) (sa sb : Spec) (q : QSel) : Statement (.teFill g sd sa sb q) :=
  fun _ _ _ h => by cases h; exact ⟨rfl, rfl⟩

theorem teTranspose (g : Guard) (sd : BitVec 5) (sa : Spec) (q : QSel) : Statement (.teTranspose g sd sa q) :=
  fun _ _ _ h => by cases h; exact ⟨rfl, rfl⟩

theorem teDecode (g : Guard) (sd : BitVec 5) (sa sb sc : Spec) (q : QSel) : Statement (.teDecode g sd sa sb sc q) :=
  fun _ _ _ h => by cases h; exact ⟨rfl, rfl⟩

theorem teRemote (g : Guard) (sd : BitVec 5) (sa sb : Spec) (q : QSel) : Statement (.teRemote g sd sa sb q) :=
  fun _ _ _ h => by cases h; exact ⟨rfl, rfl⟩

theorem teSig (g : Guard) (sd : BitVec 5) (sa sb sc : Spec) (q : QSel) : Statement (.teSig g sd sa sb sc q) :=
  fun _ _ _ h => by cases h; exact ⟨rfl, rfl⟩

theorem teQuery (g : Guard) (sd : BitVec 5) (sa : Spec) : Statement (.teQuery g sd sa) :=
  fun _ _ _ h => by cases h; exact ⟨rfl, rfl⟩

theorem teCancel (g : Guard) (sd : BitVec 5) (sa : Spec) : Statement (.teCancel g sd sa) :=
  fun _ _ _ h => by cases h; exact ⟨rfl, rfl⟩

theorem xlat (g : Guard) (port : BitVec 2) (sa sb : Spec) : Statement (.xlat g port sa sb) :=
  fun _ _ _ h => by cases h; exact ⟨rfl, rfl⟩

theorem mqpush (g : Guard) (sa sb : Spec) : Statement (.mqpush g sa sb) :=
  fun _ _ _ h => by cases h; exact ⟨rfl, rfl⟩

theorem mqpop (g : Guard) (sa : Spec) : Statement (.mqpop g sa) :=
  fun _ _ _ h => by cases h; exact ⟨rfl, rfl⟩

theorem spawn (g : Guard) (sd : BitVec 5) (sa sb sc : Spec) : Statement (.spawn g sd sa sb sc) :=
  fun _ _ _ h => by cases h; exact ⟨rfl, rfl⟩

theorem trap (code : BitVec 8) (sa : Spec) : Statement (.trap code sa) :=
  fun _ _ _ h => by cases h; exact ⟨rfl, rfl⟩

theorem mfs (sd : BitVec 5) (reg : SReg) : Statement (.mfs sd reg) :=
  fun _ _ _ h => by cases h; exact ⟨rfl, rfl⟩

theorem mts (reg : SReg) (sa : Spec) : Statement (.mts reg sa) :=
  fun _ _ _ h => by cases h; exact ⟨rfl, rfl⟩

theorem mtsSplit (sa : Spec) : Statement (.mtsSplit sa) :=
  fun _ _ _ h => by cases h; exact ⟨rfl, rfl⟩

theorem mtsLfsrseed (sa : Spec) : Statement (.mtsLfsrseed sa) :=
  fun _ _ _ h => by cases h; exact ⟨rfl, rfl⟩

theorem mtsTrapcause (sa : Spec) : Statement (.mtsTrapcause sa) :=
  fun _ _ _ h => by cases h; exact ⟨rfl, rfl⟩

theorem stop (sa : Spec) : Statement (.stop sa) :=
  fun _ _ _ h => by cases h; exact ⟨rfl, rfl⟩

theorem resume (sa : Spec) : Statement (.resume sa) :=
  fun _ _ _ h => by cases h; exact ⟨rfl, rfl⟩

theorem bkpt (code : BitVec 8) : Statement (.bkpt code) :=
  fun _ _ _ h => by cases h; exact ⟨rfl, rfl⟩

theorem cycrd (sd : BitVec 5) : Statement (.cycrd sd) :=
  fun _ _ _ h => by cases h; exact ⟨rfl, rfl⟩

theorem phcrd (sd : BitVec 5) : Statement (.phcrd sd) :=
  fun _ _ _ h => by cases h; exact ⟨rfl, rfl⟩

theorem dbg (code : BitVec 8) (sa : Spec) : Statement (.dbg code sa) :=
  fun _ _ _ h => by cases h; exact ⟨rfl, rfl⟩

theorem illegalOp (w : Word) : Statement (.illegalOp w) :=
  nofun

theorem mnop (m : Msg) : Statement (.mnop m) :=
  nofun

theorem mld (m : Msg) : Statement (.mld m) :=
  nofun

theorem mst (m : Msg) : Statement (.mst m) :=
  nofun

theorem maadd (m : Msg) : Statement (.maadd m) :=
  nofun

theorem mamin (m : Msg) : Statement (.mamin m) :=
  nofun

theorem mamax (m : Msg) : Statement (.mamax m) :=
  nofun

theorem maand (m : Msg) : Statement (.maand m) :=
  nofun

theorem maor (m : Msg) : Statement (.maor m) :=
  nofun

theorem maxor (m : Msg) : Statement (.maxor m) :=
  nofun

theorem mswp (m : Msg) : Statement (.mswp m) :=
  nofun

theorem minc (m : Msg) : Statement (.minc m) :=
  nofun

theorem mprom (m : Msg) : Statement (.mprom m) :=
  nofun

theorem mpack (m : Msg) : Statement (.mpack m) :=
  nofun

theorem mstop (m : Msg) : Statement (.mstop m) :=
  nofun

theorem mresume (m : Msg) : Statement (.mresume m) :=
  nofun

theorem mcfgwEntry (m : Msg) : Statement (.mcfgwEntry m) :=
  nofun

theorem mcfgwPair (m : Msg) : Statement (.mcfgwPair m) :=
  nofun

theorem mrdy (m : Msg) : Statement (.mrdy m) :=
  nofun

theorem msgMqpush (m : Msg) : Statement (.msgMqpush m) :=
  nofun

theorem msgMqpop (m : Msg) : Statement (.msgMqpop m) :=
  nofun

theorem mspawn (m : Msg) : Statement (.mspawn m) :=
  nofun

theorem mown (m : Msg) : Statement (.mown m) :=
  nofun

theorem mbar (m : Msg) : Statement (.mbar m) :=
  nofun

theorem mtrap (m : Msg) : Statement (.mtrap m) :=
  nofun

theorem mreply (m : Msg) : Statement (.mreply m) :=
  nofun

theorem loadcfg (c : Cmd) : Statement (.loadcfg c) :=
  nofun

theorem launch (c : Cmd) : Statement (.launch c) :=
  nofun

theorem stopCommand (c : Cmd) : Statement (.stopCommand c) :=
  nofun

theorem resumeContext (c : Cmd) : Statement (.resumeContext c) :=
  nofun

theorem resumeHeldObject (c : Cmd) : Statement (.resumeHeldObject c) :=
  nofun

theorem exit (c : Cmd) : Statement (.exit c) :=
  nofun

theorem write (c : Cmd) : Statement (.write c) :=
  nofun

theorem read (c : Cmd) : Statement (.read c) :=
  nofun

theorem bankWrite (c : Cmd) : Statement (.bankWrite c) :=
  nofun

theorem bankRead (c : Cmd) : Statement (.bankRead c) :=
  nofun

theorem managementRead (c : Cmd) : Statement (.managementRead c) :=
  nofun

theorem managementWrite (c : Cmd) : Statement (.managementWrite c) :=
  nofun

theorem chronoCtlUnfreeze (c : Cmd) : Statement (.chronoCtlUnfreeze c) :=
  nofun

theorem bindRoot (c : Cmd) : Statement (.bindRoot c) :=
  nofun

theorem bindFaultRing (c : Cmd) : Statement (.bindFaultRing c) :=
  nofun

theorem bindMeridianWindow (c : Cmd) : Statement (.bindMeridianWindow c) :=
  nofun

theorem bindHoldThreshold (c : Cmd) : Statement (.bindHoldThreshold c) :=
  nofun

theorem bindHandlerEntry (c : Cmd) : Statement (.bindHandlerEntry c) :=
  nofun

theorem bindPeerAdmission (c : Cmd) : Statement (.bindPeerAdmission c) :=
  nofun

theorem bindCaptureStream (c : Cmd) : Statement (.bindCaptureStream c) :=
  nofun

theorem bindReserved (c : Cmd) : Statement (.bindReserved c) :=
  nofun

theorem fwstage (c : Cmd) : Statement (.fwstage c) :=
  nofun

theorem fwactivate (c : Cmd) : Statement (.fwactivate c) :=
  nofun

theorem query (c : Cmd) : Statement (.query c) :=
  nofun

theorem attest (c : Cmd) : Statement (.attest c) :=
  nofun

theorem unknownCommand (c : Cmd) : Statement (.unknownCommand c) :=
  nofun

theorem nop : Statement .nop :=
  fun _ _ _ h => by cases h; exact ⟨rfl, rfl⟩

theorem endFiring : Statement .endFiring :=
  fun _ _ _ h => by cases h; exact ⟨rfl, rfl⟩

theorem ret : Statement .ret :=
  fun _ _ _ h => by cases h; exact ⟨rfl, rfl⟩

theorem latchClr : Statement .latchClr :=
  fun _ _ _ h => by cases h; exact ⟨rfl, rfl⟩

theorem regionCfgOff : Statement .regionCfgOff :=
  fun _ _ _ h => by cases h; exact ⟨rfl, rfl⟩

theorem eret : Statement .eret :=
  fun _ _ _ h => by cases h; exact ⟨rfl, rfl⟩

theorem tokenArrival : Statement .tokenArrival :=
  nofun

theorem firing : Statement .firing :=
  nofun

theorem creditReturn : Statement .creditReturn :=
  nofun

theorem matchFull : Statement .matchFull :=
  nofun

theorem spillFull : Statement .spillFull :=
  nofun

theorem phase : Statement .phase :=
  nofun

theorem ctrlStop : Statement .ctrlStop :=
  nofun

theorem ctrlResume : Statement .ctrlResume :=
  nofun

theorem ctrlEos : Statement .ctrlEos :=
  nofun

theorem ctrlSweep : Statement .ctrlSweep :=
  nofun

theorem regionOperationStart : Statement .regionOperationStart :=
  nofun

theorem regionCompletion : Statement .regionCompletion :=
  nofun

theorem barrierArrive : Statement .barrierArrive :=
  nofun

theorem paddrToken : Statement .paddrToken :=
  nofun

theorem packExpansion : Statement .packExpansion :=
  nofun

theorem kindDrop : Statement .kindDrop :=
  nofun

theorem retirementArrival : Statement .retirementArrival :=
  nofun

theorem waitfReread : Statement .waitfReread :=
  nofun

theorem waittWake : Statement .waittWake :=
  nofun

theorem waveOperation : Statement .waveOperation :=
  nofun

theorem presenceStoreAtHome : Statement .presenceStoreAtHome :=
  nofun

theorem presenceLoadAtHome : Statement .presenceLoadAtHome :=
  nofun

theorem agentPromotionLookup : Statement .agentPromotionLookup :=
  nofun

theorem promotionAccept : Statement .promotionAccept :=
  nofun

theorem promotionComplete : Statement .promotionComplete :=
  nofun

theorem eagerPromotionComplete : Statement .eagerPromotionComplete :=
  nofun

theorem engineRequestStart : Statement .engineRequestStart :=
  nofun

theorem engineRequestComplete : Statement .engineRequestComplete :=
  nofun

theorem decodeChunk : Statement .decodeChunk :=
  nofun

theorem walkComplete : Statement .walkComplete :=
  nofun

theorem loaderPass : Statement .loaderPass :=
  nofun

theorem storerPass : Statement .storerPass :=
  nofun

theorem passComplete : Statement .passComplete :=
  nofun

theorem mqpopServe : Statement .mqpopServe :=
  nofun

theorem schedulerTimer : Statement .schedulerTimer :=
  nofun

theorem epochClose : Statement .epochClose :=
  nofun

theorem cellSave : Statement .cellSave :=
  nofun

theorem agentStopDelivery : Statement .agentStopDelivery :=
  nofun

theorem drainDeadline : Statement .drainDeadline :=
  nofun

theorem scanComplete : Statement .scanComplete :=
  nofun

theorem holdThreshold : Statement .holdThreshold :=
  nofun

theorem contextExit : Statement .contextExit :=
  nofun

theorem contextIdReissue : Statement .contextIdReissue :=
  nofun

theorem fwactivateTimeout : Statement .fwactivateTimeout :=
  nofun

theorem flitCrcError : Statement .flitCrcError :=
  nofun

theorem fabricHopCrcError : Statement .fabricHopCrcError :=
  nofun

theorem captureFrame : Statement .captureFrame :=
  nofun

theorem captureDelivery : Statement .captureDelivery :=
  nofun

theorem ptpEventFrame : Statement .ptpEventFrame :=
  nofun

theorem remotePutArrival : Statement .remotePutArrival :=
  nofun

theorem remoteSignalArrival : Statement .remoteSignalArrival :=
  nofun

theorem uudPacket : Statement .uudPacket :=
  nofun

theorem packetTimeout : Statement .packetTimeout :=
  nofun

theorem portDown : Statement .portDown :=
  nofun

theorem vbusTransferReceived : Statement .vbusTransferReceived :=
  nofun

theorem conditionalWriteBack : Statement .conditionalWriteBack :=
  nofun

theorem patrolScrub : Statement .patrolScrub :=
  nofun

theorem throttleWindow : Statement .throttleWindow :=
  nofun

theorem temperatureTrip : Statement .temperatureTrip :=
  nofun

theorem coolantFlowLoss : Statement .coolantFlowLoss :=
  nofun

theorem interHallLinkDown : Statement .interHallLinkDown :=
  nofun

theorem coldReset : Statement .coldReset :=
  nofun

theorem warmReset : Statement .warmReset :=
  nofun

theorem memoryOperationReturn : Statement .memoryOperationReturn :=
  nofun

theorem inFlightInstructionComplete : Statement .inFlightInstructionComplete :=
  nofun

theorem hostAcknowledgement : Statement .hostAcknowledgement :=
  nofun

theorem activationComplete : Statement .activationComplete :=
  nofun

theorem hallAgentFirmwareFault : Statement .hallAgentFirmwareFault :=
  nofun

theorem agentStateUncorrectable : Statement .agentStateUncorrectable :=
  nofun

end Sys2Proof.Laws.Encoding
end

