-- ==== Sys2Proof/Tests/Slice0.lean ====
section
/-! SUPPORT. Tests: terms that WellFormed refuses, words written out from the encoding tables, single steps with results
worked out from the spec, and for the statements states that meet their hypotheses. -/

set_option Elab.async false

namespace Sys2Proof.Tests

open Sys2Proof.Machine Sys2Proof.Claims

/-! ## Helpers -/

/-- A state with one task in slot 0 of compute cell 32, whose node 0 is live in version 0. -/
def one (t : Task) (f : Cell → Cell := id) : State :=
  { State.reset with cells := [(32, f { v0 := { state := .live, nodes := [{}] }, tasks := [(0, t)] })] }

/-- The state after an instruction, where it goes on. -/
def after (i : Instr) (s : State) : State :=
  match exec i s with
  | .next s' => s'
  | _ => {}

/-- The state after a step, where it goes on. -/
def stepped (s : State) : State :=
  match step s with
  | .next s' => s'
  | _ => {}

/-- The task at the focus. -/
def taskOf (s : State) : Task := (s.task s.here).getD {}

/-- A scalar after an instruction. -/
def regAfter (i : Instr) (s : State) (r : BitVec 5) : Word := (taskOf (after i s)).reg r

/-- A cell without operations waits for no scoped load. -/
theorem noOps {s : State} (h : s.cell0.ops = []) : ScopedLoadsDone s := by
  intro o ho
  rw [h] at ho
  cases ho

/-- With no operation outstanding and nothing on the way no release waits. -/
theorem nothingEarlier {s : State} {t : Task} (h : s.taskOps = []) (hn : s.net = []) (hh : s.hostStores = []) :
    NothingEarlier s t := by
  refine ⟨h, fun p hp => ?_, fun x hx => ?_⟩
  · rw [hn] at hp
    cases hp
  · rw [hh] at hx
    cases hx

/-- A task with s1 = 7, s2 = -3, s4 = 2^63 and an in-token of 9 with poison on port 0. -/
def t7 : Task :=
  { regs := [(1, 7), (2, 0xFFFFFFFFFFFFFFFD), (4, 0x8000000000000000)]
    ins := [{ payload := 9, poison := true }] }

/-- A node at one output port of which an internal edge leaves. -/
def sender : Node := { outputs := [some { dest := .internal 40 5 }] }

/-! ## WellFormed: for each check a term that it refuses -/

theorem test_wf_bfx_past_the_word : Instr.wellFormed (.bfx 1 (.s 1) 60 10) = false := by decide
theorem test_wf_bfi_past_the_word : Instr.wellFormed (.bfi 1 (.s 1) (.s 2) 1 63) = false := by decide
theorem test_wf_pcmp_unsigned : Instr.wellFormed (.pcmp .ltu 0 0 0 0 none) = false := by decide
theorem test_wf_preduce_group : Instr.wellFormed (.preduce .sum ⟨0, 0, 0, 0, none⟩ 11) = false := by decide
theorem test_wf_cex_group : Instr.wellFormed (.cex .asc ⟨0, 0, 0, 0, none⟩ 10) = false := by decide
theorem test_wf_cexi_direction : Instr.wellFormed (.cexi (.bit 10) ⟨0, 0, 0, 0, 0, none⟩ 0) = false := by decide
theorem test_wf_quant_tsel : Instr.wellFormed (.quant false 0 0 0 0x08 0x02 1 none) = false := by decide
theorem test_wf_sclmax_tsel : Instr.wellFormed (.sclMax 0 0 0 0x0E 0x02 5 none) = false := by decide
theorem test_wf_send_ctrl_aux : Instr.wellFormed (.send ⟨0, false⟩ 0 (.s 1) .true 1 .ctrl) = false := by decide
theorem test_wf_steer_ctrl : Instr.wellFormed (.steer ⟨0, false⟩ false (.s 1) 1 0 .ctrl) = false := by decide
theorem test_wf_dup_no_port : Instr.wellFormed (.dup ⟨0, false⟩ 0 (.s 1) .none 0 .data) = false := by decide
theorem test_wf_loopb_scale_aux : Instr.wellFormed (.loopbIssue ⟨0, false⟩ 1 0 (.s 1) .none 32 .scale) = false := by decide
theorem test_wf_ld_sign_of_double : Instr.wellFormed (.ld ⟨0, false⟩ 1 (.s 1) .d true) = false := by decide
theorem test_wf_phcrd_31 : Instr.wellFormed (.phcrd 31) = false := by decide
theorem test_wf_mts_split : Instr.wellFormed (.mts .split (.s 1)) = false := by decide
theorem test_wf_zero_word : Instr.wellFormed (.add 0 (.s 0) (.s 0)) = false := by decide
theorem test_wf_cvt_format : Instr.wellFormed (.cvt 0 0 0 0x07 0 none) = false := by decide
theorem test_wf_accrd_format : Instr.wellFormed (.accrd 0 0 0 0x0F (.s 1) (.s 1)) = false := by decide
theorem test_wf_illegal_word : Instr.wellFormed (.illegalOp 0x0200000000000000) = false := by decide
theorem test_wf_message_opcode : Instr.wellFormed (.mld { dst := 0, poison := false, ver := false, op := 2, handler := 0, ccell := 0, ctag := 0, operand := 0 }) = false := by decide
theorem test_wf_command_form : Instr.wellFormed (.bankRead { code := 7, ctx := 0, len := 0, haddr := 0, maddr := 0, arg := 0 }) = false := by decide

/-! ## Words that the manual works out (chapters 09 to 22) -/

theorem test_word_add : decode 0x0000828C00000000#64 = .instr (.add 4 (.s 5) (.s 6)) := by decide
theorem test_word_addr : decode 0x0540A10600140000#64 = .instr (.addr 5 (.s 2) (.s 3) 10) := by decide
theorem test_word_cmp_ltu : decode 0x0580020A03080000#64 = .instr (.cmp .ltu 3 (.s 4) (.s 5)) := by decide
theorem test_word_li : decode 0x1600E000FFFFFFFF#64 = .instr (.li 7 0xFFFFFFFF) := by decide
theorem test_word_lih : decode 0x1640E38000001234#64 = .instr (.lih 7 (.s 7) 0x1234) := by decide
theorem test_word_cmpi_eq : decode 0x15800A6000000016#64 = .instr (.cmpi .eq 6 (.s 20) 0x16) := by decide
theorem test_word_brp : decode 0x20C1400600000000#64 = .instr (.brp 2 true 12) := by decide
theorem test_word_loop : decode 0x218002160B800000#64 = .instr (.loop (.s 2) 44 46) := by decide
theorem test_word_nop : decode 0x2000000000000000#64 = .instr (.nop) := by decide
theorem test_word_end : decode 0x2040000000000000#64 = .instr (.endFiring) := by decide
theorem test_word_padd : decode 0x3000800008201000#64 = .instr (.padd ⟨64, 0, 16, 1, 8, none⟩) := by decide
theorem test_word_cexi_b2 : decode 0x3680500808001E81#64 = .instr (.cexi (.bit 2) ⟨40, 8, 16, 0, 15, none⟩ 1) := by decide
theorem test_word_prd_round : decode 0x414190008037C000#64 = .instr (.prdRound 200 0 2 3 15 none) := by decide
theorem test_word_quant_keep : decode 0x404100101A280000#64 = .instr (.quant true 128 16 0 0x0D 2 0 none) := by decide
theorem test_word_cvts : decode 0x4201E00080000060#64 = .instr (.cvts 240 (.s 6) 2 0 0 none) := by decide
theorem test_word_mma_s2 : decode 0x5142410401400100#64 = .instr (.mmaS2 2 1 (.rows 8 true) 64 (.s 5)) := by decide
theorem test_word_accrd : decode 0x5241000C80801000#64 = .instr (.accrd 200 1 0 2 (.s 2) (.s 0)) := by decide
theorem test_word_opt_addc : decode 0x5400C00200000000#64 = .instr (.optAddc 0 32 3 none) := by decide
theorem test_word_send_guarded : decode 0x6015200200000000#64 = .instr (.send ⟨2, true⟩ 1 (.inp 0) .true 0 .data) := by decide
theorem test_word_send_plane : decode 0x6002060000298020#64 = .instr (.send ⟨0, false⟩ 2 (.s 6) .none 0x53 .plane) := by decide
theorem test_word_steer : decode 0x6080030040000000#64 = .instr (.steer ⟨0, false⟩ false (.s 3) 2 0 .data) := by decide
theorem test_word_waitf : decode 0x6340020044000000#64 = .instr (.waitf ⟨0, false⟩ .ne .hall 4 (.s 2) (.s 0)) := by decide
theorem test_word_lda_hall : decode 0x7180E180B0000000#64 = .instr (.lda ⟨0, false⟩ .hall 7 (.s 3) .d false) := by decide
theorem test_word_st_wave : decode 0x70680212240C0BFC#64 = .instr (.stWave ⟨5, false⟩ (.s 4) (.s 9) .w 3 2 255) := by decide
theorem test_word_lda_prom : decode 0x7208811230000000#64 = .instr (.ldaProm ⟨1, false⟩ 4 (.s 2) (.s 9) .d false) := by decide
theorem test_word_str_cell : decode 0x71C0010230000000#64 = .instr (.str ⟨0, false⟩ .cell (.s 2) (.s 1) .d) := by decide
theorem test_word_acas : decode 0x81C0C0841E000000#64 = .instr (.acas ⟨0, false⟩ 6 (.s 1) (.s 2) (.s 3) true) := by decide
theorem test_word_bar_arr : decode 0x8400028C3810C000#64 = .instr (.barArr ⟨0, false⟩ (.s 5) (.s 6) (.s 7) true 12) := by decide
theorem test_word_ownflip : decode 0x8600000000A00000#64 = .instr (.ownflip ⟨0, false⟩ 2 true) := by decide
theorem test_word_te_copyp : decode 0x9081220A01C1C000#64 = .instr (.teCopyp ⟨0, false⟩ 9 (.s 4) (.s 5) ⟨3, true, 7⟩) := by decide
theorem test_word_xlat : decode 0x9400220A00000000#64 = .instr (.xlat ⟨0, false⟩ 1 (.s 4) (.s 5)) := by decide
theorem test_word_mfs : decode 0xA080600800000000#64 = .instr (.mfs 3 .promlog) := by decide
theorem test_word_eret : decode 0xA040000000000000#64 = .instr (.eret) := by decide
theorem test_word_all_zeros : decode 0x0000000000000000#64 = .instr (.illegalOp 0) := by decide
theorem test_word_all_ones : decode 0xFFFFFFFFFFFFFFFF#64 = .instr (.illegalOp 0xFFFFFFFFFFFFFFFF) := by decide
theorem test_word_unassigned_mx : decode 0x5C3F000000000001#64 = .instr (.illegalOp 0x5C3F000000000001) := by decide
theorem test_word_guard_in_sy : decode 0xA08C000000000000#64 = .reserved := by decide
theorem test_word_sx_with_d : decode 0x7000210038000000#64 = .reserved := by decide

/-! ## Words written out field by field from the tables of 09:R147 -/

theorem test_bits_sub :
    decode 0b0000_000001_0000_00011_000001_100000_000000000000000000000000000000000#64
      = .instr (.sub 3 (.s 1) (.inp 0)) := by decide
theorem test_bits_bfx :
    decode 0b0000_010010_0000_00011_000100_0000000000000000000000_111100_000011_00000#64
      = .instr (.bfx 3 (.s 4) 60 3) := by decide
theorem test_bits_addi :
    decode 0b0001_000000_0000_11111_100011_0000000_10000000000000000000000000000000#64
      = .instr (.addi 31 (.inp 3) 0x80000000) := by decide
theorem test_bits_shli :
    decode 0b0001_001010_0000_00001_000001_000000000000000000000000000000000_111111#64
      = .instr (.shli 1 (.s 1) 63) := by decide
theorem test_bits_pset :
    decode 0b0010_001100_00000000000000000000000000000000_111_00000_1_0000000000000#64
      = .instr (.pset 7 true) := by decide
theorem test_bits_padd_masked :
    decode 0b0011_000000_0000_111111111_000000000_100000000_11_000_111_1_11111_000000000#64
      = .instr (.padd ⟨511, 0, 256, 3, 31, some 7⟩) := by decide
theorem test_bits_ptrim_blk :
    decode 0b0011_010011_0000_000000100_000001000_000000000_01_0000000_00011_000_1_00000#64
      = .instr (.ptrimBlk ⟨4, 8, 1, 3, none⟩) := by decide
theorem test_bits_quant :
    decode 0b0100_000001_0000_000000100_000001000_01_01110_00010_00_100_000000000000000#64
      = .instr (.quant false 4 8 1 0x0E 2 4 none) := by decide
theorem test_bits_mma_latch :
    decode 0b0101_000011_0000_11_01_000000000_000010000_000000000000000000_1_0_1_0000000#64
      = .instr (.mma 3 1 .latch 16 true) := by decide
theorem test_bits_opt_mom :
    decode 0b0101_010010_000000_01_000000100_000001000_000101_000110_0000000000000000#64
      = .instr (.optMom 4 8 1 (.s 5) (.s 6) none) := by decide
theorem test_bits_ld_wave :
    decode 0b0111_000000_0000_00011_000100_000000000_01_1_1_11111111_00000001_00000010_00#64
      = .instr (.ldWave ⟨0, false⟩ 3 (.s 4) .h true 255 1 2) := by decide
theorem test_bits_stpr :
    decode 0b0111_000101_010_000000_000100_000101_000_11_0000000000000000000000000000#64
      = .instr (.stpr ⟨2, false⟩ (.s 4) (.s 5)) := by decide
theorem test_bits_aadd :
    decode 0b1000_000000_0000_00011_000100_000101_000000_1_0_0000000000000000000000000#64
      = .instr (.aadd ⟨0, false⟩ 3 (.s 4) (.s 5) false) := by decide
theorem test_bits_te_sig :
    decode 0b1001_001001_0000_00011_000100_000101_000110_1111_1_11111111_00000000000000#64
      = .instr (.teSig ⟨0, false⟩ 3 (.s 4) (.s 5) (.s 6) ⟨15, true, 255⟩) := by decide
theorem test_bits_spawn :
    decode 0b1001_011010_0000_00011_000100_000101_000110_000000000000000000000000000#64
      = .instr (.spawn ⟨0, false⟩ 3 (.s 4) (.s 5) (.s 6)) := by decide
theorem test_bits_dbg :
    decode 0b1010_001001_000000000_000100_00000000_10100101_00000000000000000000000#64
      = .instr (.dbg 0xA5 (.s 4)) := by decide

/-- A MSG word: kind, destination 40, poison, version 1, opcode 2, handler 3, continuation cell 5 and tag 0xFF. -/
theorem test_bits_message :
    decodeTableWord 128 0b100_000000000000101000_1_1_000010_00000011_000000000000000101_11111111_0_0000000000000000000000000000000000000000000000000000000000001001
      = some (.mst { dst := 40, poison := true, ver := true, op := 2, handler := 3, ccell := 5, ctag := 0xFF, operand := 9 }) := by
  decide

/-- A command message: code 6, context 0xFFFF, len 8, maddr 0x38, arg bit 62: the form that unfreezes a chronograph. -/
theorem test_bits_command :
    decodeTableWord 256 (0x4000000000000000 * 2 ^ 192 + 0x38 * 2 ^ 128 + 0x1000 * 2 ^ 64 + 8 * 2 ^ 32 + 0xFFFF * 2 ^ 16 + 6)
      = some (.chronoCtlUnfreeze { code := 6, ctx := 0xFFFF, len := 8, haddr := 0x1000, maddr := 0x38, arg := 0x4000000000000000 }) := by
  decide


/-! ## Classes SR, SI and BR -/

/-- The hypothesis of every statement about an instruction of a task: a task at the focus. -/
theorem witness_task : (one t7).task (one t7).here = some t7 := by decide

theorem test_add : regAfter (.add 3 (.s 1) (.s 2)) (one t7) 3 = 4 := by decide
theorem test_add_poisoned_source : (taskOf (after (.add 3 (.inp 0) (.s 1)) (one t7))).taint = true := by decide
theorem test_sub_wraps : regAfter (.sub 1 (.s 0) (.s 1)) (one t7) 1 = 0xFFFFFFFFFFFFFFF9 := by decide
theorem test_s0_discards : regAfter (.li 0 5) (one t7) 0 = 0 := by decide
theorem test_mulh : regAfter (.mulh 3 (.s 4) (.s 1)) (one t7) 3 = 0xFFFFFFFFFFFFFFFC := by decide
theorem test_mulhu : regAfter (.mulhu 3 (.s 4) (.s 1)) (one t7) 3 = 3 := by decide
theorem test_madd : regAfter (.madd 3 (.s 2) (.s 1) (.s 4)) (one t7) 3 = 0x7FFFFFFFFFFFFFEB := by decide
theorem test_addr : regAfter (.addr 3 (.s 1) (.s 1) 15) (one t7) 3 = 229383 := by decide
theorem test_andn : regAfter (.andn 3 (.s 2) (.s 1)) (one t7) 3 = 0xFFFFFFFFFFFFFFF8 := by decide
theorem test_sra : regAfter (.sra 3 (.s 4) (.s 1)) (one t7) 3 = 0xFF00000000000000 := by decide
theorem test_shr_by_low_six_bits : regAfter (.shr 3 (.s 4) (.s 2)) (one t7) 3 = 4 := by decide
theorem test_rot : regAfter (.rot 3 (.s 4) (.s 1)) (one t7) 3 = 64 := by decide
theorem test_min : regAfter (.min 3 (.s 1) (.s 4)) (one t7) 3 = 0x8000000000000000 := by decide
theorem test_minu : regAfter (.minu 3 (.s 1) (.s 4)) (one t7) 3 = 7 := by decide
theorem test_clz_of_zero : regAfter (.clz 3 (.s 0)) (one t7) 3 = 64 := by decide
theorem test_popc : regAfter (.popc 3 (.s 2)) (one t7) 3 = 63 := by decide
theorem test_bfx : regAfter (.bfx 3 (.s 4) 60 3) (one t7) 3 = 8 := by decide
theorem test_bfi : regAfter (.bfi 3 (.s 1) (.s 2) 4 3) (one t7) 3 = 0xFFFFFFFFFFFFFF7D := by decide
theorem test_sel : regAfter (.sel 3 1 (.s 1) (.s 2)) (one t7) 3 = 0xFFFFFFFFFFFFFFFD := by decide
theorem test_muli : regAfter (.muli 3 (.s 1) 0xFFFFFFFF) (one t7) 3 = 0xFFFFFFFFFFFFFFF9 := by decide
theorem test_lih : regAfter (.lih 7 (.s 2) 0x1234) (one t7) 7 = 0x00001234FFFFFFFD := by decide
theorem test_divu : regAfter (.divu 3 (.s 4) (.s 1)) (one t7) 3 = 0x1249249249249249 := by decide
theorem test_remu : regAfter (.remu 3 (.s 4) (.s 1)) (one t7) 3 = 1 := by decide

/-- A divider that is busy until cycle 32. -/
def dividing : State := one t7 fun c => { c with flights := [⟨.divider, 32, [], []⟩] }

theorem witness_Division :
    (sourceValue t7 (.s 1)).toNat ≠ 0 ∧ (sourceValue t7 (.s 0)).toNat = 0
    ∧ ((one t7).cell0.flights.any fun f => f.unit_ = .divider && decide ((one t7).now < f.until_)) = false
    ∧ (dividing.cell0.flights.any fun f => f.unit_ = .divider && decide (dividing.now < f.until_)) = true
    ∧ (taskOf (after (.remu 3 (.s 1) (.s 0)) (one t7))).trapCause = 0x30 := by decide

theorem test_cmp_signed : (taskOf (after (.cmp .lt 1 (.s 2) (.s 1)) (one t7))).pred 1 = true := by decide
theorem test_cmpi_unsigned_of_minus_one : (taskOf (after (.cmpi .ltu 1 (.s 1) 0xFFFFFFFF) (one t7))).pred 1 = true := by decide
theorem test_pset_p0 : (taskOf (after (.pset 0 false) (one t7))).pred 0 = true := by decide
theorem test_pxor : (taskOf (after (.pxor 2 0 1) (one t7))).pred 2 = true := by decide

/-- At the end, index 5, of a loop with three iterations left. -/
def looping : Task := { t7 with pc := 5, loops := [⟨2, 5, 3, 0⟩] }

theorem test_br_pops_loops : (taskOf (after (.br 9) (one looping))).loops = [] := by decide
theorem test_brp_untaken : (taskOf (after (.brp 1 false 9) (one t7))).pc = 1 := by decide

theorem witness_CallsAndReturns :
    t7.loops = [] ∧ t7.calls.length < 8
    ∧ (looping.loops = ⟨2, 5, 3, 0⟩ :: [] ∧ looping.pc.toNat = 5 ∧ looping.calls.length = 0)
    ∧ ({ t7 with calls := List.replicate 8 1 } : Task).calls.length = 8
    ∧ (taskOf (after .ret (one { t7 with calls := [511] }))).pc = 511
    ∧ (taskOf (after .ret (one t7))).trapCause = 0x09
    ∧ (taskOf (after (.call 3) (one looping))).trapInfo = 5
    ∧ (taskOf (after (.call 3) (one { t7 with calls := List.replicate 8 1 }))).trapInfo = 3 := by decide

theorem witness_LoopEntry :
    (taskOf (after (.loop (.s 1) 4 6) (one t7))).loops = [⟨4, 6, 7, 0⟩]
    ∧ (taskOf (after (.loop (.s 0) 4 6) (one t7))).pc = 7
    ∧ (taskOf (after (.loop (.s 1) 7 6) (one t7))).trapCause = 0x02
    ∧ (taskOf (after (.loop (.s 1) 4 6) (one looping))).trapInfo = 5
    ∧ (taskOf (after (.loop (.s 1) 4 4) (one { t7 with loops := [⟨2, 5, 3, 0⟩, ⟨1, 9, 2, 0⟩] }))).trapCause = 0x09 := by
  decide

theorem witness_LoopBackEdge :
    (taskOf (after .nop (one looping))).loops = [⟨2, 5, 2, 0⟩] ∧ (taskOf (after .nop (one looping))).pc = 2
    ∧ (taskOf (after .nop (one { looping with loops := [⟨2, 5, 1, 0⟩] }))).loops = []
    ∧ (taskOf (after .nop (one { looping with calls := [8] }))).pc = 6
    ∧ (∀ l ∈ ({ looping with calls := [8] } : Task).loops, l.depth ≠ 1) := by decide

/-- A task whose node has one edge, on which it has sent. -/
def sentTask : State := one { t7 with sent := [0] } fun c => { c with v0 := { c.v0 with nodes := [sender] } }

theorem witness_EndOfFiring :
    sentTask.node sentTask.focus.toNat false 0 = some sender ∧ sender.role = .compute ∧ sender.stopAgent = false
    ∧ sentTask.cell0.readyFirings = [] ∧ sentTask.cell0.ops = []
    ∧ (∀ p < 4, (sender.outputs[p]?).isSome = true → p ∈ [0])
    ∧ (after .endFiring sentTask).task sentTask.here = none := by decide

/-! ## Traps and special registers -/

/-- An armed task at index 3 of a node with its handler at index 20. -/
def armedTask : Task := { t7 with armed := true, pc := 3 }
def handled (t : Task) : State := one t fun c => { c with v0 := { c.v0 with nodes := [{ handler := 20 }] } }

theorem witness_TrapEntry :
    (handled armedTask).node 32 false 0 = some { handler := 20 } ∧ armedTask.armed = true ∧ armedTask.marked = false
    ∧ t7.armed = false ∧ ({ armedTask with marked := true } : Task).marked = true := by decide

theorem test_trap_enters_handler :
    let t := taskOf (after (.trap 0xA5 (.s 2)) (handled armedTask))
    t.pc = 20 ∧ t.epc = 4 ∧ t.trapCause = 0x3E ∧ t.trapInfo = 0xA5FFFFFFFFFFFFFD ∧ t.marked = true := by decide

theorem test_bkpt_abandons :
    let t := taskOf (after (.bkpt 9) (one t7))
    t.abandoned = true ∧ t.taint = true ∧ t.trapCause = 0x3F ∧ t.trapInfo = 9 := by decide

theorem test_illegal_word :
    let t := taskOf (after (.illegalOp 0xF000000000000000) (handled armedTask))
    t.epc = 3 ∧ t.trapCause = 0x01 ∧ t.trapAddr = 3 ∧ t.trapInfo = 0xF000000000000000 := by decide

theorem witness_ReturnFromTrap :
    (taskOf (after .eret (one { t7 with marked := true, epc := 511 }))).pc = 511
    ∧ (taskOf (after .eret (one { t7 with marked := true, epc := 512 }))).trapCause = 0x01
    ∧ (taskOf (after .eret (one t7))).trapCause = 0x09 := by decide

theorem witness_SpecialRegisterReads :
    (one t7).node 32 false 0 = some {} ∧ (one t7).cell0.flights = [] ∧ dividing.cell0.flights ≠ []
    ∧ SReg.coord ≠ .accsat ∧ SReg.coord ≠ .lfsrseed := by decide

theorem test_mfs_coord : regAfter (.mfs 3 .coord) (one t7) 3 = 32 := by decide
theorem test_mfs_promlog :
    regAfter (.mfs 3 .promlog) (one t7 fun c => { c with log := [⟨0, 0⟩], eagerMark := some 0, served := 2, vstall := 1 }) 3
      = 0x0000000100020021 := by decide
theorem test_mts_accsat : (after (.mts .accsat (.s 2)) (one t7)).cell0.accSat = 29 := by decide
theorem test_mts_read_only : (taskOf (after (.mts .cyc (.s 2)) (one t7))).trapCause = 0x09 := by decide
theorem test_mts_trapcause_arms : (taskOf (after (.mtsTrapcause (.s 1)) (one t7))).armed = true := by decide
theorem test_phcrd :
    let t := taskOf (after (.phcrd 30) { one t7 with phcS := 5, phcNs := 6 })
    t.reg 30 = 5 ∧ t.reg 31 = 6 := by decide

theorem witness_ClockReads :
    let w := wordOf 10 0x08 [(45, 31)]
    let s := one t7 fun c => { c with v0 := { c.v0 with code := [(0, w)] } }
    s.curWord t7 = w ∧ t7.pc.toNat < 512 ∧ (30 : BitVec 5) ≠ 0 ∧ (30 : BitVec 5) ≠ 31 := by decide

/-! ## Classes PL and CV -/

/-- Lane 0: a = 127 in rows 0 to 7, b = 1 in rows 8 to 15, with pair 0 INT8 by INT8; lane 1: a = -1. -/
def lanes (f : Cell → Cell := id) : State :=
  one t7 fun c => f { c with
    bank := [(0, 2), (1, 3), (2, 3), (3, 3), (4, 3), (5, 3), (6, 3), (7, 3), (15, 1)], q := [(1, 1)] }

/-- A pair word: widths less 1, formats, rounding mode, saturate (03:R42). -/
def pairWord (pa pb fa fb mode sat : Nat) : BitVec 32 :=
  BitVec.ofNat 32 ((pa - 1) + (pb - 1) * 2 ^ 5 + fa * 2 ^ 10 + fb * 2 ^ 15 + mode * 2 ^ 22 + sat * 2 ^ 25)

/-- The lanes with pair 0 as given. -/
def paired (w : BitVec 32) : State := lanes fun c => { c with pp := [(0, w)] }

/-- What lane j holds in n planes from a row. -/
def laneOf (s : State) (base n j : Nat) : Nat := codeAt s.cell0 base n j

/-- The hypotheses of the integer plane instructions: the arrays free, integer formats, and rows that are open. -/
theorem witness_PlaneIntegers :
    lanes.task lanes.here = some t7 ∧ ArraysFree lanes ∧ (lanes.cell0.pair 0).fmtA ≤ 1 ∧ (lanes.cell0.pair 0).fmtB ≤ 1
    ∧ RowsOpen lanes (rowsFrom 0 (lanes.cell0.pair 0).pa ++ rowsFrom 8 (lanes.cell0.pair 0).pb ++ rowsFrom 416 32)
    ∧ RowsOpen lanes [511] ∧ RowsOpen lanes [0] := by
  refine ⟨by decide, ⟨by decide, by decide, noOps (by decide)⟩, ?_⟩
  unfold RowsOpen
  decide

theorem test_padd_wraps : laneOf (after (.padd ⟨16, 0, 8, 0, 7, none⟩) lanes) 16 8 0 = 128 := by decide +kernel

theorem test_psub_masked_lane_kept : laneOf (after (.psub ⟨16, 0, 8, 0, 7, some 1⟩) lanes) 16 8 1 = 0 := by decide +kernel
theorem test_pmul : laneOf (after (.pmul ⟨16, 0, 0, 0, 15, none⟩) lanes) 16 16 0 = 16129 := by decide +kernel
theorem test_pmin : laneOf (after (.pmin ⟨16, 0, 8, 0, 7, none⟩) lanes) 16 8 1 = 255 := by decide +kernel

theorem test_psra : laneOf (after (.psra ⟨16, 0, 0, 7, none⟩ 1) lanes) 16 8 0 = 64 := by decide +kernel

theorem test_preduce_sum : laneOf (after (.preduce .sum ⟨16, 0, 0, 15, none⟩ 1) lanes) 16 16 0 = 126 := by decide +kernel

theorem test_pcmp_lt : ((after (.pcmp .lt 2 0 8 0 none) lanes).cell0.qRow 2).getLsbD 1 = true := by decide +kernel
theorem test_qnot : ((after (.qnot 2 1) lanes).cell0.qRow 2).getLsbD 0 = false := by decide +kernel
theorem test_cex_descends : laneOf (after (.cex .desc ⟨16, 0, 0, 7, none⟩ 0) (paired (pairWord 8 8 1 0 0 0))) 16 8 0 = 255 := by
  decide +kernel

theorem witness_PlaneLookupExchange :
    let p := (paired (pairWord 8 8 1 0 0 0)).cell0.pair 0
    let p24 := pairOf (pairWord 24 1 0 1 0 0)
    p.fmtA ≤ 1 ∧ p.fmtB ≤ 1 ∧ 8 ≤ p.pa ∧ p.pa ≤ 24 ∧ p24.pa ≤ 24 ∧ 24 ≤ p24.pa ∧ p24.fmtB ≤ 1
    ∧ (9 : BitVec 5).toNat ≤ 9 ∧ (7 : BitVec 5).toNat + 1 = p.pa ∧ (16 + 8 ≤ 24 ∨ 24 + p.pb ≤ 16)
    ∧ RowsOpen (paired (pairWord 8 8 1 0 0 0)) (rowsFrom 0 8 ++ rowsFrom 24 8 ++ rowsFrom 16 8) := by
  unfold RowsOpen
  decide

/-- PEXP2 reads INT, PLOG2 UINT: one fractional bit, the code 2^5 in lane 0 and 0 in lane 1. -/
theorem witness_PlaneExponentials :
    (lanes.cell0.pair 0).fmtA = 0 ∧ (pairOf (pairWord 8 8 1 0 0 0)).fmtA = 1 ∧ (8 : BitVec 5).toNat ≤ (lanes.cell0.pair 0).pa
    ∧ intOf 0 8 2 = 1 * 2 ^ (1 : BitVec 5).toNat ∧ (0 : Int) ≤ 1 + (0 : BitVec 4).toNat
    ∧ codeAt lanes.cell0 8 8 1 = 0 ∧ codeAt lanes.cell0 8 8 0 = 2 ^ 0 := by decide +kernel

theorem test_cvt_int_to_nf32 :
    laneOf (after (.cvt 32 0 0 3 0 none) lanes) 32 32 0 = 0x42FE0000 := by decide +kernel

theorem test_prd_truncates : laneOf (after (.prdTrunc 32 0 0 0 3 none) lanes) 32 4 0 = 7 := by decide +kernel

theorem test_scl_put : ((after (.sclPut 32 (.s 1) 8 none) lanes).cell0.row 40).toNat % 256 = 7 := by decide +kernel
theorem test_lfsr_seed : (after (.lfsrSeed (.s 1)) lanes).cell0.lfsrAt 0 = 7 := by decide +kernel

theorem witness_Conversions :
    plainFormat 0 ∧ plainFormat 6 ∧ blockFormat 8 ∧ blockFormat 14 ∧ 3 ∈ [0x02, 0x03, 0x05, 0x06]
    ∧ RowsOpen lanes (rowsFrom 0 (storedPlanes 0 8) ++ rowsFrom 32 (storedPlanes 3 8))
    ∧ RowsOpen lanes (rowsFrom 0 (storedPlanes 8 8 + 1) ++ rowsFrom 32 (storedPlanes 3 8)) := by
  unfold plainFormat blockFormat RowsOpen
  decide

theorem witness_PrefixReadWrite :
    prefixOk 0 (storedPlanes 0 8) 4 = true ∧ prefixOk 8 (storedPlanes 8 8) (storedPlanes 8 8) = true
    ∧ RowsOpen lanes (rowsFrom 0 8 ++ rowsFrom 32 4) := by
  unfold RowsOpen
  decide

theorem witness_BlockQuantisation :
    plainFormat 2 ∧ blockFormat 8 ∧ RowsOpen lanes (rowsFrom 0 (storedPlanes 2 8) ++ rowsFrom 32 (elemWidth 8 + 1)) := by
  unfold plainFormat blockFormat RowsOpen
  decide

/-! ## Classes MX and OP -/

/-- PrecisionPairs: a legal pair word, and the causes of illegal ones (03:R43). -/
theorem witness_PrecisionPairs :
    lanes.cell0.flights = [] ∧ pairFault ((sourceValue t7 (.s 1)).toNat % 2 ^ 32) = none
    ∧ pairFault (2 ^ 27) = some 0x02 ∧ pairFault (7 * 2 ^ 10) = some 0x03 := by decide

theorem test_ppset : ((after (.ppset 2 (.s 1)) lanes).cell0.pairBits 2).toNat = 7 := by decide
theorem test_ppget : regAfter (.ppget 3 1) (paired 0) 3 = 0xE7 := by decide

/-- DenseIntegerProduct and SparseIntegerProducts: arrays free, integer formats of at most 16 planes, open rows. -/
theorem witness_MatrixIntegers :
    let p := lanes.cell0.pair 0
    ArraysFree lanes ∧ p.fmtA ≤ 1 ∧ p.fmtB ≤ 1 ∧ p.pa ≤ 16 ∧ p.pb ≤ 16 ∧ p.trimA = false ∧ p.trimB = false
    ∧ RowsOpen lanes (operandRows 0 p.fmtA p.pa ++ operandRows 8 p.fmtB p.pb)
    ∧ RowsOpen lanes (rowsFrom 0 p.pa ++ rowsFrom 8 (p.pb * 4) ++ rowsFrom 7 3)
    ∧ RowsOpen lanes (rowsFrom 0 p.pa ++ rowsFrom 8 (p.pb * 2) ++ rowsFrom 7 3)
    ∧ RowsOpen lanes (rowsFrom 0 p.pa ++ rowsFrom 8 (p.pb * 1) ++ rowsFrom 7 3) := by
  refine ⟨⟨by decide, by decide, noOps (by decide)⟩, ?_⟩
  unfold RowsOpen
  decide

theorem test_mma_dot_product : (after (.mma 0 0 (.rows 0 false) 8 false) lanes).cell0.acc 0 0 0 = (127, 0) := by
  decide +kernel
theorem test_accz : (after (.accz 1) (lanes fun c => { c with tilePoison := [1] })).cell0.tilePoison = [] := by decide +kernel

theorem witness_AccumulatorCleared : ArraysFree lanes := ⟨by decide, by decide, noOps (by decide)⟩

/-- BF16 pairs; a latch of a full BF16 operand; SCALE tokens at two ports (MatrixFormsComplete). -/
def floats : State :=
  one { t7 with ins := [{ kind := 2 }, { kind := 2 }] } fun c => { c with
    pp := [(0, pairWord 16 16 6 6 0 0), (1, pairWord 4 4 8 8 0 0)]
    latch := { fmt := 6, width := 16, planes := List.replicate 16 0 } }

theorem witness_MatrixFormsComplete :
    let p := floats.cell0.pair 0
    let x := floats.cell0.pair 1
    let t := taskOf floats
    ArraysFree floats ∧ (p.fmtA ≠ 0x10 ∧ 2 ≤ p.fmtA ∧ 2 ≤ p.pa ∧ p.pa ≤ 16) ∧ (p.fmtB ≠ 0x10 ∧ 2 ≤ p.fmtB ∧ p.pb ≤ 16)
    ∧ floats.cell0.latch.planes ≠ [] ∧ floats.cell0.latch.fmt.toNat = p.fmtA ∧ floats.cell0.latch.width = p.pa
    ∧ blockFormat x.fmtA ∧ 2 ≤ x.pa ∧ x.pa ≤ 16 ∧ (t.inTok 0).kind = 2 ∧ (t.inTok 1).kind = 2
    ∧ RowsOpen floats (operandRows 0 p.fmtA p.pa ++ rowsFrom 16 (groupRows p.fmtB p.pb * 4) ++ rowsFrom 7 3)
    ∧ RowsOpen floats (rowsFrom 0 (storedPlanes x.fmtA x.pa) ++ rowsFrom 16 (groupRows x.fmtB x.pb)) := by
  refine ⟨⟨by decide, by decide, noOps (by decide)⟩, ?_⟩
  unfold RowsOpen blockFormat
  decide

theorem test_mma_of_zeros : (after (.mma 0 0 .latch 16 false) floats).cell0.acc 0 7 7 = (0, 0) := by decide +kernel

theorem witness_OperandLatch :
    let rows := (List.range 8).flatMap fun r =>
      rowsFrom (0 + (sourceValue t7 (.s 1)).toNat / 2 ^ (8 * r) % 256 / 16 * groupRows 0 8) (groupRows 0 8)
    (lanes.cell0.pair 0).fmtA ≤ 1 ∧ (lanes.cell0.pair 0).pa = 8 ∧ RowsOpen lanes rows := by
  unfold RowsOpen
  decide

theorem test_latch_clr : (after .latchClr floats).cell0.latch.planes = [] := by decide

/-- AccumulatorRead and AccumulatorAdd: formats, open rows of a slot, integer tiles of exponent 0 and another one. -/
def tiles : State := lanes fun c => { c with bank := c.bank ++ [(63, 1)], accX := [(64, 5)], accS := [(0, 2 ^ 47 - 1), (128, 1)] }

theorem witness_AccumulatorRead :
    plainFormat 3 ∧ RowsOpen tiles (rowsFrom 32 (storedPlanes 3 8)) ∧ RowsOpen tiles (rowsFrom 32 (storedPlanes 0x10 8)) := by
  unfold plainFormat RowsOpen
  decide

theorem witness_AccumulatorAdd :
    (tiles.cell0.pair 0).fmtA ≤ 1 ∧ (tiles.cell0.pair 0).fmtB ≤ 1
    ∧ (∀ r < 8, ∀ col < 8, (tiles.cell0.acc 2 r col).2 = 0)
    ∧ (tiles.cell0.acc 1 0 0).2 ≠ 0
    ∧ RowsOpen tiles (rowsFrom 32 64)
    ∧ (∀ r < 8, ∀ col < 8, codeAt tiles.cell0 32 64 (64 * 1 + 8 * r + col) = 0)
    ∧ codeAt tiles.cell0 0 64 (64 * 0 + 8 * 0 + 0) % 64 ≠ 0 := by
  unfold RowsOpen
  decide +kernel

theorem test_accadd_saturates : (after (.accaddTile 0 2 0) tiles).cell0.acc 0 0 0 = (2 ^ 47 - 1, 0) := by decide +kernel
theorem test_accadd_exponent : (taskOf (after (.accaddTile 0 1 0) tiles)).trapCause = 0x03 := by decide +kernel

/-- A region word: one row from row 1, two columns from column 0, operands at rows 16 and 48, one step. -/
def regionWord : Word := BitVec.ofNat 64 (1 * 2 ^ 54 + 1 * 2 ^ 49 + 16 * 2 ^ 27 + 48 * 2 ^ 18)

/-- A cell at row 1, column 0 of its gallery with the region and s3 holding its word. -/
def swept : State :=
  one { t7 with regs := (3, regionWord) :: t7.regs } fun c => { c with region := regionWord, regionPair := 0x1CE7 }

theorem witness_SystolicRegions :
    let a := (sourceValue (taskOf swept) (.s 3)).toNat
    let p := swept.cell0.pair 0
    a / 2 ^ 60 = 0 ∧ a % 2 ^ 7 = 0 ∧ 1 ≤ a / 2 ^ 49 % 32 ∧ a / 2 ^ 49 % 32 + (a / 2 ^ 57 % 8 + 1) ≤ 32
    ∧ a / 2 ^ 44 % 32 + (a / 2 ^ 54 % 8 + 1) ≤ 32
    ∧ (a / 2 ^ 49 % 32 ≤ 32 % 1024 / 32 ∧ 32 % 1024 / 32 < a / 2 ^ 49 % 32 + (a / 2 ^ 57 % 8 + 1))
    ∧ a / 2 ^ 44 % 32 ≤ 32 % 32 ∧ 32 % 32 < a / 2 ^ 44 % 32 + (a / 2 ^ 54 % 8 + 1)
    ∧ a / 2 ^ 27 % 512 + (a / 2 ^ 36 % 256 + 1) * groupRows p.fmtA p.pa ≤ 512
    ∧ a / 2 ^ 18 % 512 + (a / 2 ^ 36 % 256 + 1) * groupRows p.fmtB p.pb ≤ 512
    ∧ (sourceValue t7 (.s 1)).toNat % 2 ^ 7 ≠ 0 ∧ swept.cell0.region ≠ 0 ∧ lanes.cell0.region = 0 := by decide

theorem test_region_cfg : (after (.regionCfg (.s 3)) swept).cell0.region = regionWord := by decide
theorem test_region_cfg_bad : (taskOf (after (.regionCfg (.s 1)) swept)).trapCause = 0x02 := by decide
theorem test_sweep_without_region : (taskOf (after (.sweepR false true) lanes)).trapCause = 0x09 := by decide

/-- BF16 weights 1.0 in lane 0 at rows 0 to 15, gradients 1.0 at rows 16 to 31 and an infinity in lane 1, η = 0.5. -/
def training : State :=
  one { t7 with regs := [(1, 0x3F0000003F000000), (2, 0x7F8000007F800000), (3, 64)] } fun c => { c with
    pp := [(0, pairWord 16 16 6 6 0 0)]
    bank := ((List.range 7).map fun k => (2 + k, 1)) ++ (17, 2) :: (List.range 7).map fun k => (18 + k, 3) }

/-- OptimiserInstructions and OptimiserFormsComplete. -/
theorem witness_OptimiserInstructions :
    let p := training.cell0.pair 0
    p.fmtA = 6 ∧ plainFormat p.fmtB ∧ ArraysFree training
    ∧ RowsOpen training (rowsFrom 0 16 ++ rowsFrom 64 16 ++ rowsFrom 16 16)
    ∧ ((FloatFmt.mk 8 23 0).val (0x3F000000)).finite = true
    ∧ ((FloatFmt.mk 8 23 0).val (0x7F800000)).finite = false
    ∧ (sourceValue (taskOf training) (.s 1)).toNat % 2 ^ 32 = 0x3F000000
    ∧ (sourceValue (taskOf training) (.s 2)).toNat / 2 ^ 32 = 0x7F800000
    ∧ (sourceValue (taskOf training) (.s 3)).toNat % 512 = 64 ∧ 64 + 16 ≤ 512 := by
  refine ⟨by decide, by unfold plainFormat; decide, ⟨by decide, by decide, noOps (by decide)⟩, ?_⟩
  unfold RowsOpen
  decide

theorem test_opt_sgd : codeAt (after (.optSgd 0 16 0 (.s 1) none) training).cell0 0 16 0 = 0x3F00 := by decide +kernel
theorem test_opt_sgd_infinite_rate : (taskOf (after (.optSgd 0 16 0 (.s 2) none) training)).trapCause = 0x30 := by
  decide +kernel

/-! ## Class TK -/

/-- A node record of an object. -/
def spec (gid : Nat) (role : Role) : NodeSpec :=
  { gid := gid, role := role, handlerId := 0, code := [], stage := 0, pmatch := .any, inputs := [], outputs := [], window := 1
    scope := .device, subgraph := 0, hint := none, fixed := false, l1 := none }

/-- A configuration of an object that gives `v` vestibule bytes, or none. -/
def config (v : Option Nat) (nodes : List NodeSpec) : CfgSpec :=
  { opOr := false, onTrue := none, onFalse := none, prio := 0, vest := v, overflow := false, nodes := nodes, edges := []
    images := [] }

/-- Context 0, live with root 0: configuration 0 has node 0 in cell 32 and a LOOPB node, gid 5, there as node 1;
configuration 1 has node 6 in the far cell 40000 as node 0, configuration 2 nothing placed. -/
def world (t : Task) (n : Node) (f : Cell → Cell := id) : State :=
  { State.reset with
    cells := [(32, f { v0 := {
      state := .live, owner := some (0, 0)
      nodes := [n, { gid := 5, role := .loopb, loopBase := 4095, loopNext := 1, window := 3 }]
      bindings := [{ node := 0, port := 0 }] }, tasks := [(0, t)] })]
    ctxs := [(0, { live := true, root := some 0 })]
    cfgs := [(0, { spec := config (some 64) [spec 0 .compute, spec 5 .loopb], state := .live
                   places := [⟨0, 32, false, 0⟩, ⟨5, 32, false, 1⟩] }),
             (1, { spec := config (some 64) [spec 6 .compute], state := .live, places := [⟨6, 40000, false, 0⟩] }),
             (2, { spec := config (some 64) [spec 7 .compute] })] }

/-- Port 0 inside the configuration with a credit; 1 full with a ring of one; 2 full without; 3 to configuration 1. -/
def fourPorts : Node :=
  { outputs := [some { dest := .internal 40 5 }, some { dest := .internal 41 6, credits := 0, ring := some 1 },
                some { dest := .internal 42 7, credits := 0 }, some { dest := .external 1 6 0 }] }
def pair01 : Node := { outputs := [some { dest := .internal 40 5 }, some { dest := .internal 41 6 }] }
def tokens : State := world t7 fourPorts

theorem witness_SendsOnEdges :
    let edge (p : Nat) : Edge := if p = 0 then { dest := .internal 40 5 } else { dest := .internal 41 6 }
    let s := world t7 pair01
    NothingEarlier s t7 ∧ s.cell0.prom = none ∧ t7.done = [] ∧ s.node 32 t7.ver t7.node = some pair01
    ∧ (∀ p ∈ [0, 1], pair01.outputs[p]? = some (some (edge p)) ∧ 0 < (edge p).credits ∧ (edge p).ringTokens = []
        ∧ s.hostPending 32 (edge p).scope = false)
    ∧ ((List.range 4).filter fun p => (0b0011 : BitVec 4).getLsbD p) = [0, 1]
    ∧ t7.holds ⟨0, false⟩ = true ∧ t7.holds ⟨0, true⟩ = false ∧ t7.pred 0 = true ∧ t7.pred 1 = false :=
  ⟨nothingEarlier (by decide) (by decide) (by decide), by decide⟩

theorem test_send :
    (after (.send ⟨0, false⟩ 0 (.s 1) .none 0 .data) tokens).net =
      [⟨32, 40, .token { dst := 40, rtag := 5, payload := 7 } (some ⟨32, false, 0, 0⟩)⟩] := by decide
theorem test_send_guard_fails : (after (.send ⟨0, true⟩ 0 (.s 1) .none 0 .data) tokens).net =
      [⟨32, 40, .token { dst := 40, rtag := 5, pred := .null } (some ⟨32, false, 0, 0⟩)⟩] := by decide

theorem witness_SendTokenRoutes :
    let c1 := tokens.cfg 0 1
    tokens.node 32 t7.ver t7.node = some fourPorts ∧ NothingEarlier tokens t7 ∧ tokens.cell0.prom = none
    ∧ (tokens.hall (hallOf 32)).switching = false
    ∧ (c1.map fun c => (c.vest, tgetD c.credits 16 24, c.spec.vest)) = some ([], 16, some 64)
    ∧ tokens.resolve 0 0 1 6 = some ⟨6, 40000, false, 0⟩ ∧ tokens.resolve 0 0 2 7 = none
    ∧ Scope.le (scopeBetween 32 40000) .device = true ∧ Scope.le (scopeBetween 32 40000) .hall = false
    ∧ (c1.map fun c => ({ c with vest := List.replicate 256 (6, 0, {}, 0) } : CfgRt).vestCap) = some 256
    ∧ (∀ e, (sender.outputs)[1]? ≠ some (some e)) := by
  refine ⟨by decide, nothingEarlier (by decide) (by decide) (by decide), by decide, by decide, by decide, by decide, by decide, by decide,
    by decide, by decide, ?_⟩
  simp [sender]

theorem test_send_to_ring :
    ((((after (.sendn ⟨0, false⟩ 1) tokens).cell0.v0.nodes.getD 0 {}).outputs.getD 1 none).map fun e => e.ringTokens.length)
      = some 1 := by
  decide
theorem test_send_waits : (taskOf (after (.sendn ⟨0, false⟩ 2) tokens)).wait = .retry (some 1) false := by decide
theorem test_send_external :
    ((after (.sendn ⟨0, false⟩ 3) tokens).net.map (·.dst)) = [40000] := by decide

theorem test_select_nn :
    let t := taskOf (after (.selectNN ⟨0, false⟩ 3 1 0 2) (one { t7 with ins := [{ payload := 9 }, { pred := .null }] }))
    t.reg 3 = 9 ∧ t.pred 2 = false := by decide

theorem witness_IterationTags :
    (tokens.loopbSpec 0).isSome = true ∧ tokens.loopbPlace 0 = some ⟨5, 32, false, 1⟩
    ∧ ((tokens.node 32 false 1).map fun n => (n.loopBase, n.window)) = some (4095, 3)
    ∧ (4095 + 4096 - 4095) % 4096 < 3 ∧ (1 + 4096 - 4095) % 4096 < 3 ∧ 3 ≤ (2 + 4096 - 4095) % 4096
    ∧ (one t7).loopbSpec 0 = none
    ∧ ({ tokens with cfgs := [(0, { spec := config (some 0) [spec 5 .loopb] })] } : State).loopbPlace 0 = none := by decide

theorem test_tagset_outside : (taskOf (after (.tagset ⟨0, false⟩ (.s 1)) tokens)).trapCause = 0x12 := by decide

/-- A LOOPB node with an edge at port 0: base 4095, next 1, windows of three and of two. -/
def looper (w : Nat) : Node :=
  { role := .loopb, loopBase := 4095, loopNext := 1, window := w, outputs := [some { dest := .internal 40 5 }] }

theorem witness_LoopbWindow :
    (looper 3).role = .loopb ∧ ((looper 3).loopNext + 4096 - (looper 3).loopBase) % 4096 < (looper 3).window
    ∧ (looper 2).window ≤ ((looper 2).loopNext + 4096 - (looper 2).loopBase) % 4096
    ∧ fourPorts.role ≠ .loopb ∧ (world t7 (looper 3)).node 32 false 0 = some (looper 3) ∧ t7.taken = none
    ∧ (world t7 (looper 3)).loopbSeen (hallOf 32) 0 = some ⟨5, 32, false, 1⟩ ∧ (world t7 (looper 3)).taskOps = []
    ∧ (world t7 (looper 3)).net = [] := by decide

theorem test_loopb_issue :
    let s := after (.loopbIssue ⟨0, false⟩ 3 0 (.s 1) .none 0 .data) (world t7 (looper 3))
    (taskOf s).reg 3 = 1 ∧ ((s.node 32 false 0).map (·.loopNext)) = some 2 := by decide
theorem test_loopb_full :
    (taskOf (after (.loopbIssue ⟨0, false⟩ 3 0 (.s 1) .none 0 .data) (world t7 (looper 2)))).wait = .retry (some 1) false := by
  decide
theorem test_loopb_retire :
    ((after (.loopbRetire ⟨0, false⟩ (.s 1)) tokens).net.map (·.dst)) = [32] := by decide

theorem witness_Blocking :
    (tokens.version 32 false).bindings[0]? = some { node := 0, port := 0 }
    ∧ (tokens.version 32 false).bindings[1]? = none := by decide
theorem test_blk : ((after (.blk ⟨0, false⟩ 0) tokens).cell0.v0.bindings.map (·.blocked)) = [true] := by decide
theorem test_unblk_unbound : (taskOf (after (.unblk ⟨0, false⟩ 1) tokens)).trapCause = 0x09 := by decide

/-- At cycle 7 with a request of the task that promised cycle 6. -/
def promised : State :=
  { one { t7 with requests := [(0, 3)] } with
    now := 7
    halls := [(0, { queues := [(0, [{ id := 3, cell := 32, slot := 0, node := ⟨32, false, 0, 0, 0, none⟩, kind := .fill, desc := 0
                                      a := 0, b := 0, c := 0, ord := false, sid := 0, cost := 1, promise := 6 }])] })] }

theorem witness_WaitForTime :
    let missed (s : State) (t : Task) : Option Nat := (t.requests.filterMap fun x =>
      (((s.hall x.1).queues.flatMap (·.2)).find? fun r => decide (r.id = x.2) && decide (r.promise ≤ 7)).map (·.promise)).head?
    (sourceValue t7 (.s 1)).toNat = 7 ∧ promised.now = 7 ∧ (one t7).now < 7
    ∧ missed promised (taskOf promised) = some 6 ∧ missed promised t7 = none := by decide
theorem test_waitt_early : (taskOf (after (.waitt ⟨0, false⟩ (.s 1)) (one t7))).wait = .waitt 7 := by decide
theorem test_waitt_missed : (taskOf (after (.waitt ⟨0, false⟩ (.s 1)) promised)).trapCause = 0x16 := by decide

theorem witness_MessageSend :
    (sourceValue t7 (.s 1)).toNat / 2 ^ 18 % 64 ∉ [0x0B, 0x0D, 0x0E, 0x0F, 0x10, 0x14, 0x15, 0x16]
    ∧ (0x0B * 2 ^ 18) / 2 ^ 18 % 64 ∈ [0x0B, 0x0D, 0x0E, 0x0F, 0x10, 0x14, 0x15, 0x16]
    ∧ (one t7).cell0.outq.length < 16 ∧ (one t7).cell0.prom = none ∧ (one t7).taskOps = [] ∧ (one t7).net = []
    ∧ 16 ≤ (one t7 fun c => { c with outq := List.replicate 16 ⟨0, 0, .credit ⟨0, false, 0, 0⟩⟩ }).cell0.outq.length := by decide
theorem test_msend : ((after (.msend ⟨0, false⟩ (.s 1) (.s 2)) (one t7)).cell0.outq.map (·.dst)) = [7] := by decide

/-! ## Classes ME, AT and BO -/

/-- s1 a plain address, s2 data, s3 past the address space, s5 misaligned, s6 a presence word, s7 a read-only byte. -/
def tm : Task :=
  { regs := [(1, 0x1008), (2, 0x1122334455667788), (3, 2 ^ 52), (5, 0x1001), (6, 0x201000), (7, 0x401000)]
    ins := [{ payload := 0x1008, poison := true }] }

/-- Leaves of root 0 in hall 0: plain at frame 0x800000, presence at 0xA00000, read only at 0xC00000. -/
def leaves0 : List Leaf :=
  [⟨0, 0, 0x200000, 0x800000, 0, true⟩, ⟨0, 0x200000, 0x200000, 0xA00000, 1, true⟩, ⟨0, 0x400000, 0x200000, 0xC00000, 0, false⟩]

def mapped (t : Task) (n : Node) (f : Cell → Cell := id) : State :=
  { world t n f with halls := [(0, { Hall.reset with wcache := leaves0 })] }

def memory : State := mapped tm {}

/-- The hypothesis that an access reaches memory (LoadsBegin, StoresAndFences, PresenceAccesses, CacheInstructions,
WaitForMemory, AtomicsBegin, AddressTranslation), of a plain and of a presence address. -/
theorem witness_Reaches :
    Reaches memory tm 0x1008 8 .plain true 0x801008 leaves0[0] ∧ Reaches memory tm 0x1008 8 .atomic true 0x801008 leaves0[0]
    ∧ Reaches memory tm 0x1008 1 .plain false 0x801008 leaves0[0]
    ∧ Reaches memory tm 0x201000 8 .presence true 0xA01000 leaves0[1]
    ∧ Reaches memory tm 0x201000 8 .presence false 0xA01000 leaves0[1] ∧ NothingEarlier memory tm := by
  refine ⟨⟨by decide, by decide, by decide, by decide, by decide, ?_, 0, by decide⟩,
    ⟨by decide, by decide, by decide, by decide, by decide, ?_, 0, by decide⟩,
    ⟨by decide, by decide, by decide, by decide, by decide, ?_, 0, by decide⟩,
    ⟨by decide, by decide, by decide, by decide, by decide, ?_, 0, by decide⟩,
    ⟨by decide, by decide, by decide, by decide, by decide, ?_, 0, by decide⟩, nothingEarlier (by decide) (by decide) (by decide)⟩ <;>
  · intro x h
    rw [show memory.node memory.focus.toNat tm.ver tm.node = some {} from by decide] at h
    cases h
    rfl

theorem test_st_ld :
    let s := after (.st ⟨0, false⟩ (.s 1) (.s 2) .d) memory
    (s.readAt 32 0x801008 8 none).2 = 0x1122334455667788 ∧ s.readByte 0x801008 = 0 := by decide +kernel
theorem test_st_poisoned_address : (after (.st ⟨0, false⟩ (.inp 0) (.s 2) .d) memory).mem = [] := by decide +kernel
theorem test_fence_reaches_home :
    (after (.fence ⟨0, false⟩ .device) (after (.st ⟨0, false⟩ (.s 1) (.s 2) .h) memory)).readMem 0x801008 2 = 0x7788 := by
  decide +kernel
theorem test_ld_pending : (taskOf (after (.ld ⟨0, false⟩ 9 (.s 1) .b true) memory)).pending = [9] := by decide

theorem witness_AccessChecks :
    (sourceValue tm (.s 5)).toNat % bytesOf .h ≠ 0 ∧ (sourceValue tm (.s 3)).toNat % bytesOf .h = 0
    ∧ 2 ^ 52 ≤ (sourceValue tm (.s 3)).toNat ∧ tm.grant = none
    ∧ (memory.leaves 32).find? (fun l => l.root = 0 && decide (l.vbase ≤ 0x401000) && decide (0x401000 < l.vbase + l.size))
        = some leaves0[2]
    ∧ leafAdmits leaves0[2] 0x401000 .plain true = false ∧ ((one tm).ctx 0).root = none ∧ (memory.ctx 0).root = some 0 := by
  decide

theorem test_align : (taskOf (after (.ld ⟨0, false⟩ 9 (.s 5) .h true) memory)).trapCause = 0x05 := by decide
theorem test_translation : (taskOf (after (.ld ⟨0, false⟩ 9 (.s 3) .h true) memory)).trapCause = 0x08 := by decide
theorem test_protection : (taskOf (after (.st ⟨0, false⟩ (.s 7) (.s 2) .h) memory)).trapCause = 0x09 := by decide

/-- The premise `ready`, and a promotion and a pending host store that break it. -/
theorem witness_StoresAndFences :
    (memory.cell0.prom = none ∧ memory.hostPending 32 .system = false ∧ NothingEarlier memory tm)
    ∧ (reads tm [.s 1, .s 2]).taint = false ∧ (reads tm [.inp 0, .s 2]).taint = true
    ∧ (mapped tm {} fun c => { c with prom := some ([], 0) }).cell0.prom ≠ none :=
  ⟨⟨by decide, by decide, nothingEarlier (by decide) (by decide) (by decide)⟩, by decide⟩

/-- StoreThenLoad, ReleaseReachesHome and AtomicAtHome: a module whose caches hold nothing dirty. -/
theorem witness_StoreThenLoad :
    (2 : Nat) ∈ [1, 2, 4, 8] ∧ 0x801008 % 2 = 0 ∧ isHost 0x801008 = false ∧ State.reset.offline 0x801008 = false
    ∧ galleryOf 40000 ≠ galleryOf 32 ∧ RoomFor State.reset 32 ∧ RoomFor State.reset 40000 := by
  unfold RoomFor
  decide
theorem witness_ReleaseReachesHome (l : Nat) :
    (State.reset.l1Line 32 l).dirty = [] ∧ (State.reset.gcLine (galleryOf 32) l).dirty = []
    ∧ (State.reset.l2Line (hallOf 32) l).dirty = [] := ⟨rfl, rfl, rfl⟩

/-- A configuration with a LOADER, a STORER placed in edge cell 0, and the task's node. -/
def waving : State :=
  { memory with
    cfgs := [(0, { spec := config (some 0) [spec 0 .compute, spec 1 .loader, spec 2 .storer], state := .live
                   places := [⟨0, 32, false, 0⟩, ⟨2, 0, false, 0⟩] })] }

theorem witness_WaveAccesses :
    NothingEarlier waving tm ∧ memory.waveInterface tm = none ∧ waving.waveInterface tm = some ⟨2, 0, false, 0⟩
    ∧ waving.cell0.prom = none ∧ tm.holds ⟨0, true⟩ = false := ⟨nothingEarlier (by decide) (by decide) (by decide), by decide⟩

theorem test_st_wave_misaligned : (taskOf (after (.stWave ⟨0, false⟩ (.s 5) (.s 2) .h 1 2 3) waving)).trapCause = 0x05 := by
  decide

/-- Bank presence word 8 of row 8 (s1), full and empty. -/
def present (f : Bool) : State := mapped tm {} fun c => { c with bankFull := if f then [(16 * 8 + 8, true)] else [] }

theorem witness_PresenceAccesses :
    tgetD (present true).cell0.bankFull false (16 * 8 + 8) = true
    ∧ tgetD (present false).cell0.bankFull false (16 * 8 + 8) = false ∧ 0x1008 % 512 = 8 ∧ 0x1008 / 512 % 16 = 8
    ∧ (present false).cell0.deferred.length < 16 ∧ (present true).cell0.flights = [] ∧ RowsOpen (present true) [8] := by
  unfold RowsOpen
  decide
theorem test_stpr_rewrite : ((after (.stpr ⟨0, false⟩ (.s 1) (.s 2)) (present true)).halls.any fun h =>
    h.2.chronoHead = 2) = true := by decide
theorem test_stpr_fills : tgetD (after (.stpr ⟨0, false⟩ (.s 1) (.s 2)) (present false)).cell0.bankFull false 136 = true := by
  decide +kernel

theorem witness_CacheInstructions :
    let s := mapped tm {} fun c => { c with split := 4, l1 := [(8, { dirty := [1] }), (9, {})] }
    (∀ x ∈ [memory, s], ScopedLoadsDone x ∧ (x.cell0.l1.map (·.1)).Nodup ∧ RoomFor x 32)
    ∧ isHost 0x801008 = false ∧ memory.cell0.split = 0 ∧ s.cell0.split ≠ 0
    ∧ (s.cell0.l1.filter fun x => decide (x.2.dirty ≠ [])).length = 1 := by
  intro s
  refine ⟨?_, by decide⟩
  intro x hx
  have h : x = memory ∨ x = s := by simpa using hx
  rcases h with rfl | rfl <;> exact ⟨noOps (by decide), by decide, by unfold RoomFor; decide⟩
theorem test_l1_inv_all : ((after (.l1InvAll ⟨0, false⟩) memory).l1Line 32 0).dirty = [] := by decide

theorem witness_SplitChanges :
    memory.cell0.flights = [] ∧ 4 < (sourceValue tm (.s 1)).toNat ∧ (sourceValue t7 (.s 4)).toNat % 8 ≤ 4
    ∧ (∀ r < 512, memory.cell0.engineRow r = false)
    ∧ (memory.gcTable (galleryOf 32)).length + memory.cell0.l1.length ≤ 8192 := by decide +kernel
theorem test_split : (after (.split ⟨0, false⟩ (.inp 1)) (one { t7 with ins := [{}, { payload := 4 }] })).cell0.split = 4 := by
  decide +kernel

theorem witness_WaitForMemory :
    let v := (memory.readAt 32 0x801008 8 (some .device)).2
    v ≠ (sourceValue tm (.s 2)).toNat ∧ ¬ v = (sourceValue tm (.s 2)).toNat ∧ (sourceValue tm (.s 0)).toNat ≤ v := by
  decide +kernel
theorem test_waitf_waits :
    ((taskOf (after (.waitf ⟨0, false⟩ .ne .device 9 (.s 1) (.s 0)) memory)).wait = .none) = False := by decide +kernel

theorem test_amin_signed : atomicNew 1 32 5 0xFFFFFFFF 0 = 0xFFFFFFFF := by decide
theorem test_ainc_wraps : atomicNew 8 64 7 7 0 = 0 := by decide

/-- AtomicAtHome: a word of 4 bytes in memory that no cache holds dirty. -/
theorem witness_AtomicAtHome :
    0x801008 % 4 = 0 ∧ State.reset.offline 0x801008 = false ∧ (State.reset.l1Line 32 (0x801008 / 128)).dirty = [] := by decide

/-- Barrier 9 of cell 32, of context 0 in phase 3. -/
def barred (f : Cell → Cell := id) : State :=
  one { t7 with regs := [(1, 32), (2, 33)], sendIter := 2 } fun c => f { c with bars := [(9, { owner := some 0, phase := 3 })] }

theorem witness_Barriers :
    (sourceValue (taskOf barred) (.s 1)).toNat % 2 ^ 18 = 32 ∧ (sourceValue (taskOf barred) (.s 2)).toNat % 2 ^ 18 ≠ 32
    ∧ (barred.cell0.bar 9).owner = some 0 ∧ (3 + 4096 - (taskOf barred).sendIter.toNat) % 4096 = 1
    ∧ (3 + 4096 - 4) % 4096 = 4095 ∧ (3 + 4096 - 3) % 4096 = 0 ∧ barred.cell0.barWaiters.length < 64
    ∧ barred.cell0.prom = none ∧ barred.taskOps = [] ∧ barred.net = [] := by decide
theorem test_bar_wait_past : (taskOf (after (.barWait ⟨0, false⟩ (.s 1) 9) barred)).wait = .none := by decide
theorem test_bar_wait_remote : ((after (.barWait ⟨0, false⟩ (.s 2) 9) barred).net.map (·.dst)) = [33] := by decide

/-- Owner bits, and a fill that uses region 2 of the cell. -/
def owned (b : BitVec 8) : State := one t7 fun c => { c with owner := b }

/-- A descriptor image with these words (19:R283). -/
def image (ws : List (Nat × Nat)) : Row := BitVec.ofNat 1024 ((ws.map fun w => w.2 * 2 ^ (64 * w.1)).sum)

/-- One plane of 64 elements of UINT1 at row 128 of cell 32's bank. -/
def fillDesc : Row := image [(0, 2 * 2 ^ 33 + 2 ^ 43), (1, 64), (7, 128 * 2 ^ 18 + 32), (8, 1)]

/-- A request on a slot of cell 32. -/
def request (k : ReqKind) (d : Row) : Request :=
  { id := 3, cell := 32, slot := 1, node := ⟨32, false, 0, 0, 0, none⟩, kind := k, desc := d, a := 1, b := 0, c := 0, ord := false
    sid := 0, cost := 257, promise := 257 }

def usedRegion : State := { owned 4 with halls := [(0, { Hall.reset with queues := [(5, [request .fill fillDesc])] })] }

theorem witness_OwnerBits :
    (owned 4).cell0.flights = [] ∧ (owned 4).cell0.owner.getLsbD 2 = true ∧ (owned 4).cell0.owner.getLsbD 1 = false
    ∧ (owned 4).cell0.flips = [] ∧ t7.wait = .none
    ∧ (owned 4).regionBusy 32 2 0 = false ∧ (owned 4).cell0.prom = none ∧ (owned 4).taskOps = [] ∧ (owned 4).net = []
    ∧ (∀ r < 512, 128 ≤ r → r < 192 → (owned 4).cell0.isL1Row r = false ∧ (480 ≤ r → (owned 4).cell0.overflowOn = false))
    ∧ (one t7 fun c => { c with split := 4 }).cell0.isL1Row 192 = true
    ∧ usedRegion.regionBusy 32 2 0 = true ∧ usedRegion.cell0.owner.getLsbD 2 = true := by decide +kernel
theorem test_ownflip : (after (.ownflip ⟨0, false⟩ 7 true) (owned 4)).cell0.owner = 0x84 := by decide
theorem test_ownqry : regAfter (.ownqry ⟨0, false⟩ 3) (owned 4) 3 = 4 := by decide

/-! ## Classes TE, MQ and SY -/

/-- s1 = 1, a slot of the task's context; s2 the row of a descriptor image; s3 a LINK node. -/
def te : Task := { regs := [(1, 1), (2, 8), (3, 0), (4, 2)], ins := [{ payload := 1, poison := true }] }

/-- Slot 1 as given, the image of a fill in row 8, and n requests in queue 5. -/
def slotted (x : Slot) (n : Nat := 0) : State :=
  { mapped te {} fun c => { c with slots := [(1, x)], bank := [(8, fillDesc)] } with
    halls := [(0, { Hall.reset with wcache := leaves0, queues := [(5, List.replicate n (request .fill fillDesc))] })] }

def readySlot : Slot := { state := .ready, owner := 0, desc := fillDesc }

theorem witness_DescriptorSlots :
    let s := slotted readySlot
    s.cell0.flights = [] ∧ (sourceValue te (.s 2)).toNat % 512 = 8 ∧ RowsOpen s [8] ∧ s.descFault 0 (s.cell0.row 8) = none
    ∧ s.descFault 0 0 = some 0x0A ∧ readySlot.owner = te.ctx ∧ ({ readySlot with owner := 1 } : Slot).owner ≠ te.ctx
    ∧ ({ readySlot with state := .busy } : Slot).state = .busy ∧ ({} : Slot).state = .empty := by
  unfold RowsOpen
  decide +kernel
theorem witness_DescriptorSlots_loads : ScopedLoadsDone (slotted readySlot) := noOps (by decide)

theorem test_te_desc :
    let s := after (.teDesc ⟨0, false⟩ 9 (.s 2) (.s 1)) (slotted {})
    (taskOf s).reg 9 = 1 ∧ (tgetD s.cell0.slots {} 1).state = .ready := by decide +kernel
theorem test_te_desc_zero_image :
    (taskOf (after (.teDesc ⟨0, false⟩ 9 (.s 3) (.s 1)) (slotted {}))).trapCause = 0x0A := by decide +kernel

theorem witness_EngineRequests :
    let d := descOf fillDesc
    (tgetD (slotted {}).cell0.slots {} 1).state = .empty ∧ (tgetD (slotted readySlot).cell0.slots {} 1).state ≠ .busy
    ∧ d.suits .fill 0 = true ∧ d.suits .copy 0 = false ∧ d.operandFault .fill 0 0 0 = none
    ∧ (descOf (image [(0, 2 * 2 ^ 33 + 2 ^ 43), (1, 65), (7, 128 * 2 ^ 18 + 32), (8, 1)])).operandFault .fill 0 0 0 = some 0x0A
    ∧ (tgetD ((slotted readySlot 63).hall 0).queues [] 5).length < 64
    ∧ 64 ≤ (tgetD ((slotted readySlot 64).hall 0).queues [] 5).length
    ∧ (reads te [.s 1]).taint = false ∧ (reads te [.inp 0]).taint = true
    ∧ (slotted readySlot).releasePending 32 = false
    ∧ ({ slotted readySlot with hostStores := [{ addr := 0, cell := some 32, releases := true }] } : State).releasePending 32
        = true := by decide +kernel

theorem test_te_fill_promise :
    regAfter (.teFill ⟨0, false⟩ 9 (.s 1) (.s 3) ⟨5, true, 0⟩) (slotted readySlot 2) 9 = 257 + 257 + 257 := by decide +kernel
theorem test_te_copy_unsuited :
    (taskOf (after (.teCopy ⟨0, false⟩ 9 (.s 1) ⟨5, true, 0⟩) (slotted readySlot))).trapCause = 0x0A := by decide +kernel

/-- Slot 1 BUSY with the request of identity 3, held or not. -/
def busyWith (r : Request) : State :=
  { slotted { readySlot with state := .busy, req := some (5, 3) } with halls := [(0, { Hall.reset with queues := [(5, [r])] })] }

theorem witness_QueryAndCancel :
    let r := request .fill fillDesc
    (tgetD (busyWith r).cell0.slots {} 1).req = some (5, 3)
    ∧ (tgetD ((busyWith r).hall 0).queues [] 5).find? (fun r => r.id = 3) = some r
    ∧ r.heldSince = none ∧ ({ r with heldSince := some 2 } : Request).heldSince ≠ none := by decide +kernel
/-- A BUSY slot that a LOADER's running pass serves, and one that a waiting pass does. -/
theorem witness_QueryAndCancel_pass :
    let p (k : Nat) : Pass :=
      { slot := k, mask := 0, ind := false, ctx := 0, iter := 2, ver := false, taint := false, paddr := none, desc := 0 }
    let n : Node := { role := .loader, passes := [p 1, p 2] }
    let s := one te fun c => { c with
      v0 := { c.v0 with nodes := [{}, n] }, slots := [(1, { readySlot with state := .busy }), (2, { readySlot with state := .busy })] }
    s.slotPass 32 1 = some (n, p 1, true) ∧ s.slotPass 32 2 = some (n, p 2, false) ∧ n.heldSince = none
    ∧ (tgetD s.cell0.slots {} 1).req = none ∧ (tgetD s.cell0.slots {} 1).state = .busy := by decide +kernel
theorem test_te_query_queued :
    regAfter (.teQuery ⟨0, false⟩ 9 (.s 1)) (busyWith (request .fill fillDesc)) 9 = 0x4000000000000000 := by decide
theorem test_te_query_done :
    regAfter (.teQuery ⟨0, false⟩ 9 (.s 1))
        (slotted { readySlot with state := .done, record := BitVec.ofNat 128 (3 * 2 ^ 120 + 7 * 2 ^ 112 + 5 * 2 ^ 64) }) 9
      = 0xE007000000000005 := by decide
theorem test_te_cancel_idle : regAfter (.teCancel ⟨0, false⟩ 9 (.s 1)) (slotted readySlot) 9 = 0xFFFFFFFFFFFFFFFF := by decide

theorem witness_AddressTranslation :
    2 ^ 52 ≤ (sourceValue tm (.s 3)).toNat ∧ (sourceValue tm (.s 1)).toNat = 0x1008
    ∧ (sourceValue tm (.s 2)).getLsbD 0 = false
    ∧ (∀ e, (mapped tm {}).node 32 false 0 = some {} → ({} : Node).outputs[0]? ≠ some (some e)) := by
  refine ⟨by decide, by decide, by decide, ?_⟩
  simp

theorem test_xlat :
    ((after (.xlat ⟨0, false⟩ 0 (.s 1) (.s 2)) (mapped tm pair01)).net.map fun p => match p.body with
      | .token t _ => (t.kind.toNat, t.payload.toNat)
      | _ => (0, 0)) = [(5, 0x801008)] := by decide

/-- A node that one input port feeds, and a COMPUTE node at index 1; the queue has room or not by `n`. -/
def queueing (t : Task) : State :=
  one t fun c => { c with v0 := { c.v0 with owner := some (0, 0), nodes := [{ inputs := [none, some true] }, { handler := 9 }, { role := .loader }] } }

theorem witness_MeridianQueue :
    let v := (queueing te).version 32 te.ver
    v.nodes[0]? = some { inputs := [none, some true] } ∧ v.owner = some (0, 0)
    ∧ (({ inputs := [none, some true] } : Node).inputs[1]? = some (some true)) ∧ 32 / 32 % 4 = 1
    ∧ v.nodes[31]? = none ∧ v.nodes[(sourceValue te (.s 1)).toNat % 32]? = some { handler := 9 }
    ∧ v.nodes[(sourceValue te (.s 4)).toNat % 32]? = some { role := .loader }
    ∧ ((queueing te).hall 0).mq.length < 65536 ∧ te.calls.length < 8 ∧ (queueing te).cell0.prom = none
    ∧ (queueing te).taskOps = [] ∧ (queueing te).net = [] := by decide
/-- A full queue. -/
theorem witness_MeridianQueue_full : ¬ (List.replicate 65536 (⟨0, 0, 0, false⟩ : MqEntry)).length < 65536 := by
  rw [List.length_replicate]
  decide
theorem test_mqpush : ((after (.mqpush ⟨0, false⟩ (.s 1) (.s 2)) (queueing te)).hall 0).mq = [⟨1, 8, 0, false⟩] := by decide
theorem test_spawn_pushes : regAfter (.spawn ⟨0, false⟩ 9 (.s 2) (.s 2) (.s 1)) (queueing te) 9 = 1 := by decide
theorem test_spawn_loader :
    (taskOf (after (.spawn ⟨0, false⟩ 9 (.s 2) (.s 2) (.s 4)) (queueing te))).trapCause = 0x09 := by decide

theorem witness_StopResumeDebug :
    let s := slotted readySlot
    let v := s.version 32 ((s.cell 32).liveVersion 0)
    (s.ctx 0).stopping = false ∧ ({ stopping := true } : Ctx).stopping = true
    ∧ (32 + 1 * 2 ^ 18 + 5 * 2 ^ 23) / 2 ^ 23 % 8 = 5 ∧ (tgetD (s.cell 32).slots {} 1).state ≠ .empty
    ∧ (tgetD (s.cell 32).slots {} 1).owner = te.ctx
    ∧ (tgetD (slotted { readySlot with owner := 1 }).cell0.slots {} 1).owner ≠ te.ctx
    ∧ (∃ o, v.owner = some o ∧ o.1 = te.ctx) ∧ 0 < v.nodes.length ∧ ¬ 31 < v.nodes.length := by
  refine ⟨by decide, by decide, by decide, by decide, by decide, by decide, ⟨(0, 0), by decide⟩, by decide, by decide⟩
theorem test_dbg : ((after (.dbg 0xAB (.s 1)) (slotted readySlot)).hall 0).chronoHead = 2 := by decide
theorem test_resume_reserved : (taskOf (after (.resume (.s 4)) (one { te with regs := [(4, 6 * 2 ^ 23)] }))).trapCause = 0x02 := by
  decide
theorem test_stop : ((after (.stop (.s 1)) (slotted readySlot)).ctx 0).stopping = true := by decide

/-! ## Messages -/

/-- A message to cell 32's handler 1 with an operand; its continuation is tag 0 of cell 40. -/
def msg (op : BitVec 6) (x : Word) (tag : BitVec 8 := 0) : Msg :=
  { dst := 32, poison := false, ver := false, op := op, handler := 1, ccell := 40, ctag := tag, operand := x }

/-- An entry of base 16, stride 1, limit 4, with permissions WR and AT; its cursor stands at the last element. -/
def entry4 : HEntry := { word := BitVec.ofNat 43 (16 + 1 * 2 ^ 13 + 4 * 2 ^ 27 + 3 * 2 ^ 41), cursor := 3, last := 6 }

/-- The message arrives from cell 40 at version 0 of cell 32, in state `st`. -/
def arriving (m : Msg) (req : Option MsgReq := none) (st : VerState := .live) (f : Cell → Cell := id) : State :=
  { one t7 (fun c => f { c with
      v0 := { c.v0 with state := st, owner := some (0, 0), handlers := [(1, entry4)]
                        nodes := [{ inputs := [some true, some false] }]
                        bindings := [{ node := 0, port := 0 }, { node := 0, port := 1 }] }
      bank := [(1, 0x50000000000000007)] }) with net := [⟨40, 32, .msg m 0 req⟩] }

theorem witness_Arrives :
    let m := msg 2 3
    Arrives (arriving m) m 40 0 none ∧ entry (arriving m) m entry4 ∧ (arriving m).cell0.flights = []
    ∧ ElementOpen (arriving m).cell0 entry4 3 ∧ ¬ ElementOpen (arriving m).cell0 entry4 4 ∧ ElementOpen (arriving m).cell0 entry4 0
    ∧ entry4.word.getLsbD 41 = true ∧ entry4.word.getLsbD 42 = true
    ∧ ({ entry4 with word := 0 } : HEntry).word.getLsbD 41 = false := by
  unfold Arrives entry ElementOpen
  decide

theorem witness_MessagesWithoutHandler :
    ((arriving (msg 2 3) none .loading).version 32 false).state = .loading
    ∧ ((arriving (msg 2 3) none .empty).version 32 false).state = .empty
    ∧ ((arriving (msg 2 3) none .empty).version 32 false).owner = some (0, 0)
    ∧ ((one t7).version 32 false).owner = none
    ∧ tget ((arriving (msg 2 3)).version 32 false).handlers 2 = none
    ∧ limitOf { word := 0 } = 0 := by decide
theorem test_message_held : (after (.mst (msg 2 3)) (arriving (msg 2 3) none .loading)).cell0.v0.held.length = 1 := by decide

theorem test_mld_second_word :
    ((after (.mld (msg 1 1)) (arriving (msg 1 1))).net.map fun p => match p.body with
      | .msg r _ _ => (p.dst, r.op.toNat, r.operand.toNat)
      | _ => (0, 0, 0)) = [(40, 0x17, 5)] := by decide +kernel
theorem test_mst_at_the_last_element :
    let s := after (.mst (msg 2 0xAB)) (arriving (msg 2 0xAB))
    bankWord s.cell0 19 = 0xAB ∧ bankWord s.cell0 16 = 7 ∧ (tget s.cell0.v0.handlers 1).map (·.cursor) = some 0 := by
  decide +kernel
theorem test_mpack_repeats :
    let x : Word := BitVec.ofNat 64 (2 ^ 61 + 1)
    let s := after (.mpack (msg 0x0C x)) (arriving (msg 0x0C x))
    bankWord s.cell0 19 = 6 ∧ bankWord s.cell0 16 = 6 ∧ bankWord s.cell0 17 = 5 := by decide +kernel
theorem test_maadd : bankWord (after (.maadd (msg 3 8)) (arriving (msg 3 8))).cell0 16 = 15 := by decide +kernel
theorem test_minc_past_the_limit : bankWord (after (.minc (msg 0x0A 7)) (arriving (msg 0x0A 7))).cell0 16 = 0 := by decide +kernel

def asks (cell : Nat) : PromReq := ⟨cell, 0, 0, 0⟩
def waits (cell : Nat) (phase : BitVec 12) : BarWaiter := ⟨9, 0, phase, ⟨cell, 0⟩⟩

theorem witness_ModuleMessages :
    let p := arriving (msg 0x0B 0) (some (.prom (asks 40))) .live fun c => { c with prom := some ([asks 40], 0) }
    let b := arriving (msg 0x15 0) (some (.bar (waits 40 3))) .live fun c => { c with bars := [(9, { owner := some 0, phase := 3 })] }
    Arrives p (msg 0x0B 0) 40 0 (some (.prom (asks 40))) ∧ Arrives b (msg 0x15 0) 40 0 (some (.bar (waits 40 3)))
    ∧ p.cell0.prom = some ([asks 40], 0) ∧ (∃ q ∈ [asks 40], q.cell = 40) ∧ (∀ q ∈ [asks 41], q.cell ≠ 40)
    ∧ (b.cell0.bar 9).owner = some 0 ∧ (3 + 4096 - 3) % 4096 = 0 ∧ (3 + 4096 - 2) % 4096 = 1 ∧ b.cell0.barWaiters.length < 64
    ∧ (0x103 * 2 ^ 54 + 7) / 2 ^ 54 = 0x100 + 3 ∧ pairFault ((0x103 * 2 ^ 54 + 7) % 2 ^ 32) = none ∧ (40 : Nat) ≠ 32 := by
  unfold Arrives
  decide

theorem test_mstop : ((after (.mstop (msg 0x0D 0)) (arriving (msg 0x0D 0))).cell0.v0.nodes.map (·.stopAgent)) = [true] := by
  decide
theorem test_mown : (after (.mown (msg 0x14 0x81)) (arriving (msg 0x14 0x81))).cell0.owner = 0x81 := by decide
theorem test_mcfgw_pair :
    let x : Word := BitVec.ofNat 64 (0x103 * 2 ^ 54 + 7)
    (after (.mcfgwPair (msg 0x0F x)) (arriving (msg 0x0F x))).cell0.pairBits 3 = 7 := by decide

theorem witness_InstallReports :
    let s := { arriving (msg 0x10 0) (some (.ready 0 33)) with
      cfgs := [(0, { spec := config (some 0) [spec 0 .compute], state := .loading, loadingCells := [33, 34] })] }
    Arrives s (msg 0x10 0) 40 0 (some (.ready 0 33))
    ∧ ((handling s (msg 0x10 0) 40).cfg 0 0).map (fun c => (c.state, c.loadingCells.filter fun x => x ≠ 33)) = some (.loading, [34])
    ∧ ([33] : List Nat).filter (fun x => x ≠ 33) = [] ∧ CfgState.live ≠ .loading := by
  unfold Arrives
  decide

theorem test_mspawn :
    let x : Word := 0x0000000500000009
    ((after (.mspawn (msg 0x13 x)) (arriving (msg 0x13 x))).hall 0).mq = [⟨5, 9, 0, false⟩] := by decide

/-- QueueMessages and Replies: continuation tags 0xFF and not; tag 0 bound to an ORDERED port, 1 to an UNORDERED one, 2 to
none. -/
theorem witness_QueueMessages :
    Arrives (arriving (msg 0x11 0)) (msg 0x11 0) 40 0 none ∧ entry (arriving (msg 0x11 0)) (msg 0x11 0) entry4
    ∧ (msg 0x11 0).ctag ≠ 0xFF ∧ (msg 0x11 0 0xFF).ctag = 0xFF ∧ ((arriving (msg 0x11 0)).hall 0).mq.length < 65536 := by
  unfold Arrives entry
  decide
theorem witness_Replies :
    let s := arriving (msg 0x17 0)
    let v := s.version 32 false
    let w := arriving (msg 0x17 0) (some (.bar (waits 32 3))) .live fun c =>
      { c with tasks := [(0, { t7 with wait := .bar 40 9 3 })] }
    v.bindings[0]? = some { node := 0, port := 0 } ∧ v.bindings[1]? = some { node := 0, port := 1 } ∧ v.bindings[2]? = none
    ∧ v.nodes[0]? = some { inputs := [some true, some false] } ∧ v.owner = some (0, 0)
    ∧ Arrives s (msg 0x17 0) 40 0 none ∧ entry s (msg 0x17 0) entry4
    ∧ tget v.handlers 2 = none ∧ Arrives w (msg 0x17 0) 40 0 (some (.bar (waits 32 3)))
    ∧ ((handling w (msg 0x17 0) 40).task ⟨32, 0⟩).map (·.wait) = some (.bar 40 9 3) := by
  unfold Arrives entry
  decide
theorem test_mreply : ((after (.mreply (msg 0x17 77)) (arriving (msg 0x17 77))).cell0.v0.bindings.map (·.last))
    = [some 77, none] := by decide

/-! ## Commands -/

/-- A command message. -/
def cmd (code : BitVec 16) (ctx : BitVec 16 := 0xFFFF) (maddr haddr arg : Word := 0) (len : BitVec 32 := 0) : Cmd :=
  { code := code, ctx := ctx, len := len, haddr := haddr, maddr := maddr, arg := arg }

/-- A compute node's record with port 0 ORDERED and port 1 not. -/
def ported : NodeSpec := { spec 0 .compute with inputs := [some true, some false] }

/-- Context 0 live, its node 0 in cell 32; the bank rows 1 of that cell filled; 0xAB at host address 0x2001. -/
def hosted (cp : Cp := {}) (x : Ctx := { live := true, root := some 0 }) : State :=
  { one t7 (fun c => { c with v0 := { c.v0 with owner := some (0, 0) }, bank := [(1, 0x1234)] }) with
    ctxs := [(0, x)], cp := cp, hostMem := [⟨0x2001, 0xAB⟩]
    cfgs := [(0, { spec := config (some 64) [ported], state := .live, places := [⟨0, 32, false, 0⟩] })] }

theorem witness_Open : Open hosted (cmd 6 0) ∧ InContext hosted (cmd 6 0) ∧ InHost (cmd 6 0) 128 := by
  unfold Open Ready MayStart InContext InHost
  decide

theorem witness_CommandAcceptance :
    (hosted { paused := some 3 }).cp.paused ≠ none ∧ (hosted { fatal := true }).cp.fatal = true
    ∧ (hosted { bootStat := 5 }).cp.bootStat.toNat < 6 ∧ (hosted { pending := [(1, cmd 3)] }).cp.pending ≠ []
    ∧ (hosted { bootStat := 0x81 }).cp.bootStat = 0x81 ∧ (cmd 1).code ≠ 9 ∧ (cmd 1).code ≠ 11 ∧ 13 ≤ (cmd 13).code.toNat := by
  decide
theorem test_unknown_command : (tget (after (.unknownCommand (cmd 13)) hosted).cp.journal 1).map (·.status) = some 0x0301 := by
  decide

/-- NoContext: no context named, a number past the ids, and an id that is not live. -/
theorem witness_NoContext :
    (cmd 6).ctx = 0xFFFF ∧ 1024 ≤ (cmd 6 1024).ctx.toNat ∧ (hosted.ctx 1).live = false ∧ (cmd 6 1).ctx.toNat < 1024 := by decide

/-- A physical WRITE of four bytes and a physical READ. -/
theorem witness_DataTransfers :
    let w := cmd 6 0xFFFF 0x1000 0x2000 0 4
    let r := cmd 7 0xFFFF 0x1000 0x2000 0 4
    cmdForm w = .write ∧ cmdForm r = .read ∧ InHost w 4
    ∧ (accepted hosted w).cmdPieces w true ≠ none ∧ (accepted hosted r).cmdPieces r false ≠ none
    ∧ (∀ i < 4, isHole (0x1000 + i) = false ∧ hosted.offline (0x1000 + i) = false)
    ∧ (accepted hosted w).cmdPieces { w with maddr := 0xC00000000 } true = none
    ∧ 2 ^ 47 < ({ w with haddr := 2 ^ 47 } : Cmd).haddr.toNat + 4 := by
  unfold InHost
  decide +kernel
theorem test_write : (after (.write (cmd 6 0xFFFF 0x1000 0x2000 0 4)) hosted).readMem 0x1000 4 = 0xAB00 := by decide +kernel

theorem witness_BankTransfers :
    let w : Cmd := { cmd 6 0 with arg := 2 ^ 63, len := 128, maddr := 1 }
    let r : Cmd := { cmd 7 0 with arg := 2 ^ 63, len := 128, maddr := 1 }
    cmdForm w = .bankWrite ∧ cmdForm r = .bankRead ∧ w.len.toNat % 128 = 0 ∧ 511 + 1 ≤ 512 ∧ ¬ 511 + 2 ≤ 512
    ∧ (accepted hosted w).placeOf 0 (argOf w 16 16) = some ⟨0, 32, false, 0⟩
    ∧ (accepted hosted w).placeOf 0 1 = none ∧ ((accepted hosted w).version 32 false).state ≠ .loading
    ∧ ((accepted hosted w).cell 32).rowForbidden 1 = false
    ∧ (({ hosted with cells := [(32, { owner := 1 })] } : State).cell 32).rowForbidden 1 = true := by decide +kernel
theorem test_bank_read :
    (after (.bankRead { cmd 7 0 with arg := 2 ^ 63, len := 128, maddr := 1 }) hosted).readHostByte 1 = 0x12 := by decide +kernel

theorem witness_ManagementSpace :
    let r : Cmd := { cmd 7 with arg := 2 ^ 62, len := 8, maddr := 0x800008 }
    let w : Cmd := { cmd 6 with arg := 2 ^ 62, len := 8, maddr := 0x800008 }
    let z : Cmd := { cmd 6 with arg := 2 ^ 62, len := 8, maddr := 0x38 }
    cmdForm r = .mgmtRead ∧ cmdForm w = .mgmtWrite ∧ cmdForm z = .unfreeze ∧ r.maddr.toNat % 8 = 0
    ∧ 0x700018 < 2 ^ 23 ∧ 0x700018 % 2 ^ 20 = 0x18 ∧ 0x28 % 2 ^ 20 ∉ [0x18, 0x38] ∧ 1000 ≤ 1000 % 2 ^ 16 ∧ 4800 % 2 ^ 16 ≤ 4800
    ∧ 4800 < 4801 % 2 ^ 16 ∧ 999 % 2 ^ 16 < 1000 ∧ hosted.readHost 0 8 % 2 = 0 ∧ hosted.readHost 0x2001 8 % 2 = 1 := by
  decide +kernel
theorem test_management_limit : ((after (.managementRead { cmd 7 with arg := 2 ^ 62, len := 8, maddr := 0x800008 }) hosted).readHost 0 8)
    % 2 ^ 16 = 4800 := by decide +kernel

theorem witness_BindCommands :
    let ring := some (⟨0, 0, 0⟩ : BitVec 10 × Nat × Nat)
    (cmdForm { cmd 8 0 with arg := 1 } = .bind 1 ∧ cmdForm { cmd 8 0 with arg := 7 } = .bind 7)
    ∧ argOf { cmd 8 0 with arg := 0x101 } 8 1 = 1 ∧ (hosted.ctx 0).root = some 0 ∧ 0x1000 % 4096 = 0 ∧ 0x1001 % 4096 ≠ 0
    ∧ argOf { cmd 8 0 with arg := 0x1402 } 8 6 = 20 ∧ argOf { cmd 8 0 with arg := 0x1502 } 8 6 = 21
    ∧ argOf { cmd 8 0 with arg := BitVec.ofNat 64 (1250 * 256 + 4) } 8 56 = 1250
    ∧ argOf { cmd 8 0 with arg := 0x105 } 8 8 ≠ 0 ∧ (accepted hosted (cmd 8 0)).placeOf 0 1 = none
    ∧ (∃ n, (accepted hosted (cmd 8 0)).specOf 0 0 = some n ∧ n.inputs[0]? = some (some true))
    ∧ (∀ n, (accepted hosted (cmd 8 0)).specOf 0 0 = some n → n.inputs[1]? ≠ some (some true))
    ∧ (hosted.port 0).capture = none ∧ ({ ptp := true } : Port).ptp = true ∧ ring ≠ none := by
  refine ⟨by decide, by decide, by decide, by decide, by decide, by decide, by decide, by decide, by decide, by decide,
    ⟨ported, by decide⟩, ?_, by decide, rfl, by decide⟩
  intro n h
  rw [show (accepted hosted (cmd 8 0)).specOf 0 0 = some ported from by decide] at h
  cases h
  decide
theorem test_bind_root :
    ((after (.bindRoot { cmd 8 0 with arg := 1, maddr := 0x5000 }) hosted).ctx 0).root = some 0x5000 := by decide
theorem test_bind_ring_too_large :
    (tget (after (.bindFaultRing { cmd 8 0 with arg := 0x1502, maddr := 0x5000 }) hosted).cp.journal 1).map (·.status)
      = some 0x0302 := by decide

/-- An object of one configuration with one node, loaded under number 9. -/
def loaded : State := hosted { objs := [(9, { strict := true, entry := some 0, cfgs := [config (some 64) [ported]] })] }

theorem witness_ObjectAndContextCommands :
    cmdForm (cmd 1) = .loadcfg ∧ cmdForm (cmd 2 0xFFFF 9) = .launch ∧ cmdForm (cmd 3 0) = .stop ∧ cmdForm (cmd 5 0) = .exit
    ∧ loadStatus [] ≠ 0 ∧ (tget loaded.cp.objs 9).bind (·.entry) = some 0 ∧ tget loaded.cp.objs 8 = none
    ∧ loaded.idFree 1 = true ∧ loaded.stopped 0 = false := by decide +kernel
theorem test_launch :
    let s := after (.launch (cmd 2 0xFFFF 9 0x7000)) loaded
    (s.ctx 1).live = true ∧ (s.ctx 1).root = some 0x7000 ∧ (s.ctx 1).strict = true := by decide +kernel
theorem test_launch_root_misaligned :
    (tget (after (.launch (cmd 2 0xFFFF 9 0x7001)) loaded).cp.journal 1).map (·.status) = some 0x0302 := by decide +kernel

/-- A context with a configuration saved by a stop, one being stopped, and one with nothing saved (ResumeCommands). -/
def savedCtx (d : CfgState) (stopping : Bool) : State :=
  { hosted {} { live := true, stopping := stopping } with
    cfgs := [(0, { spec := config (some 64) [ported], state := d, places := [⟨0, 32, false, 0⟩] })] }

theorem witness_ResumeCommands :
    cmdForm (cmd 4 0) = .resumeCtx ∧ cmdForm { cmd 4 0 with arg := 0x8000000000000020 } = .resumeObj
    ∧ (savedCtx .saved false).resumable 0 = true ∧ (savedCtx .saved true).resumable 0 = true
    ∧ hosted.resumable 0 = false
    ∧ argOf { cmd 4 0 with arg := BitVec.ofNat 64 (2 ^ 63 + 5 * 2 ^ 23 + 16 * 2 ^ 18 + 32) } 23 3 = 5
    ∧ (∃ o, (hosted.version 32 ((hosted.cell 32).liveVersion 0)).owner = some o ∧ o.1 = 0)
    ∧ (¬ ∃ o, (hosted.version 33 false).owner = some o ∧ o.1 = 0) ∧ hosted.holdsContext 33 0 = false := by
  refine ⟨by decide, by decide, by decide, by decide, by decide, by decide, ⟨(0, 0), by decide⟩, ?_, by decide⟩
  rintro ⟨o, h, -⟩
  rw [show (hosted.version 33 false).owner = none from by decide] at h
  cases h
theorem test_resume_nothing_saved :
    (tget (after (.resumeContext (cmd 4 0)) hosted).cp.journal 1).map (·.status) = some 0x0303 := by decide

theorem witness_FirmwareCommands :
    cmdForm (cmd 9) = .fwstage ∧ cmdForm (cmd 10) = .fwactivate ∧ cmdForm (cmd 12) = .attest
    ∧ ({ cmd 9 with arg := 1 } : Cmd).arg.getLsbD 0 ≠ hosted.cp.running ∧ (cmd 9).arg.getLsbD 0 = hosted.cp.running
    ∧ hosted.cp.activation = none ∧ hosted.cp.fw1.verified = false ∧ (hosted { fw1 := { verified := true } }).cp.fw1.verified = true
    ∧ ({ cmd 12 with len := 1884 } : Cmd).len.toNat = 1884 ∧ ({ cmd 12 with len := 1883 } : Cmd).len.toNat < 1884
    ∧ 2 ^ 20 ≤ (hosted { attestIndex := 2 ^ 20 }).cp.attestIndex := by decide +kernel
theorem test_fwactivate : (after (.fwactivate (cmd 10)) (hosted { fw1 := { verified := true } })).cp.paused = some 0 := by decide

/-! ## Events of the dataflow -/

/-- A DATA token for cell 32 from port 0 of node 3 of cell 40. -/
def tok (r : BitVec 8) (x : Word := 5) : Token := { dst := 32, rtag := r, payload := x }
def from40 : PortRef := ⟨40, false, 3, 0⟩

/-- Context 0 live; cell 32 in a state: node 0 has an ORDERED port with tag 0, fed by cell 40, and a TAGGED one with tag 1;
tag 2 is external, of port 0. -/
def flow (net : List Packet) (n : Node := { inputs := [some true, some false], handler := 9 }) (st : VerState := .live)
    (f : Binding → Binding := id) (g : Cell → Cell := id) : State :=
  { State.reset with
    net := net, choice := { cell := 32 }
    ctxs := [(0, { live := true })]
    cfgs := [(0, { spec := config (some 64) [ported], state := .live, places := [⟨0, 32, false, 0⟩] })]
    cells := [(32, g { v0 := {
      state := st, owner := some (0, 0), nodes := [n]
      bindings := [f { node := 0, port := 0, source := some from40 }, { node := 0, port := 1, source := some from40 },
                   { node := 0, port := 0, external := true }] } })] }

/-- A binding at which no PACK packet is in expansion lets a token in. -/
theorem tokensTurn {s : State} {cell r : Nat} {ver : Bool} {b : Binding} (h : s.binding cell ver r = some b) (hp : b.pack = none) :
    TokensTurn s cell ver r := by
  intro d k hd hk
  rw [h] at hd
  cases hd
  rw [hp] at hk
  cases hk

def inNet (r : BitVec 8) : List Packet := [⟨40, 32, .token (tok r) (some from40)⟩]

theorem witness_InternalArrivals :
    let s := flow (inNet 1)
    let v := s.version 32 false
    InNet s ⟨40, 32, .token (tok 1) (some from40)⟩ ∧ Channels (tok 1) ∧ Runs v ∧ TokensTurn s 32 false 1
    ∧ ((flow (inNet 1) {} .loading).version 32 false).state = .loading
    ∧ ((flow (inNet 1) {} .empty).version 32 false).state = .empty ∧ (s.ctx 0).live = true ∧ (s.ctx 1).live = false
    ∧ v.bindings[1]? = some { node := 0, port := 1, source := some from40 } ∧ v.bindings[3]? = none
    ∧ s.cell0.store.length < 256 := by
  unfold InNet Channels Runs
  exact ⟨by decide, by decide, by decide, tokensTurn (b := { node := 0, port := 1, source := some from40 }) (by decide) rfl,
    by decide⟩

/-- A head that stays: of an ORDERED port; one that does not: of a TAGGED port without partner. -/
theorem witness_HeadStays :
    let n : Node := { inputs := [some true, some false], handler := 9 }
    HeadStays (flow []).cell0 false n { node := 0, port := 0 } (tok 0)
    ∧ ¬ HeadStays (flow []).cell0 false n { node := 0, port := 1 } (tok 1) := by
  unfold HeadStays
  decide

/-- The matching store is full, without the overflow area and with it. -/
def crowded (big : Bool) (n : Nat := 0) : State := flow (inNet 1) (g := fun c =>
  { c with
    store := List.replicate 256 ⟨false, 0, 1, { tok 1 with iter := 7 }, false⟩
      ++ List.replicate n ⟨false, 0, 1, { tok 1 with iter := 7 }, true⟩
    v0 := { c.v0 with overflow := big } })
theorem witness_InternalArrivals_full :
    let inStore (c : Cell) := (c.store.filter fun e => !e.spilled).length
    let spilled (c : Cell) := (c.store.filter fun e => e.spilled).length
    256 ≤ inStore (crowded false).cell0 ∧ (crowded false).cell0.overflowOn = false
    ∧ (crowded true).cell0.overflowOn = true ∧ spilled (crowded true 255).cell0 < 256
    ∧ 256 ≤ spilled (crowded true 256).cell0 := by decide +kernel

theorem test_token_to_store : ((after .tokenArrival (flow (inNet 1))).cell0.store.map (·.token)) = [tok 1] := by decide
theorem test_token_unbound :
    let s := after .tokenArrival (flow (inNet 9))
    (s.hall 0).chronoHead = 2 ∧ s.net = [] := by decide
theorem test_token_late : (after .tokenArrival { flow (inNet 0) with ctxs := [] }).cell0.lateCnt = 1 := by decide

theorem witness_ExternalArrivals :
    let p : Packet := ⟨40, 32, .extToken (tok 0) 0 0 0⟩
    let s := flow [p]
    TokensTurn s 32 false 2 ∧ InNet s p ∧ Channels (tok 0) ∧ s.cell0.versionOf 0 0 0 = some (false, 0)
    ∧ s.cell0.versionOf 0 1 0 = none ∧ s.cell0.extDest (tok 0) 0 0 0 = some (false, 0)
    ∧ (s.cell0.version false).owner = some ((tok 0).ctx, 0) ∧ Runs (s.cell0.version false)
    ∧ s.cell0.partnerIn true 0 0 (tok 0) = false ∧ (s.version 32 false).nodes[0]?.map (·.firingPorts.isEmpty) = some false
    ∧ ({} : Node).firingPorts = []
    ∧ ((s.cell0.version false).bindingsOf 0 0).find? (·.2.external) = some (2, { node := 0, port := 0, external := true }) := by
  unfold InNet Channels Runs
  exact ⟨tokensTurn (b := { node := 0, port := 0, external := true }) (by decide) rfl, by decide⟩
/-- A token whose version a sweep has left, its partner there or not. -/
theorem witness_ExternalArrivals_swept :
    let two (l : List MatchEntry) : Cell := (flow [] (g := fun c => { c with
      v0 := { c.v0 with swept := true, nodes := [{ inputs := [some false, some false] }] }
      v1 := { c.v0 with nodes := [{ inputs := [some false, some false] }] }, store := l })).cell0
    (two []).versionOf 0 0 0 = some (false, 0) ∧ (two []).partnerIn false 0 0 (tok 0) = false
    ∧ (two []).extDest (tok 0) 0 0 0 = some (true, 0)
    ∧ (two [⟨false, 0, 1, tok 1, false⟩]).partnerIn false 0 0 (tok 0) = true
    ∧ (two [⟨false, 0, 1, tok 1, false⟩]).extDest (tok 0) 0 0 0 = some (false, 0) := by decide

theorem witness_DropsCreditsAddresses :
    let bad : Token := { tok 0 with kind := 7 }
    let p : Token := { tok 0 with kind := 5 }
    let s := flow [⟨40, 32, .credit ⟨32, false, 0, 0⟩⟩] { outputs := [some { dest := .internal 40 5, ringTokens := [tok 0] }] }
    Meaningless bad ∧ Meaningless { p with aux := 1 } ∧ ¬ Meaningless p ∧ InNet (flow [⟨40, 32, .token bad (some from40)⟩])
      ⟨40, 32, .token bad (some from40)⟩
    ∧ s.net[s.choice.n]? = some ⟨40, 32, .credit ⟨32, false, 0, 0⟩⟩
    ∧ (s.node 32 false 0).map (fun n => (n.outputs[0]?).isSome) = some true
    ∧ ((flow [] { role := .storer, inputs := [some true] }).version 32 false).owner = some (0, 0)
    ∧ Node.role {} ≠ .storer := by
  unfold InNet Meaningless
  decide
theorem test_kind_drop :
    let s := after .kindDrop (flow [⟨40, 32, .token { tok 0 with kind := 7 } (some from40)⟩])
    s.net = [⟨32, 40, .credit from40⟩] ∧ (s.hall 0).chronoHead = 2 := by decide
theorem test_credit_return :
    let s := after .creditReturn (flow [⟨40, 32, .credit ⟨32, false, 0, 0⟩⟩] { outputs := [some { dest := .internal 40 5, credits := 15 }] })
    ((s.node 32 false 0).map fun n => n.outputs.map fun e => e.map (·.credits)) = some [some 16] := by decide

/-- A PACK packet of three zeros, and of a repeat. -/
def pack (mode : BitVec 9) : Token := { tok 0 2 with kind := 6, aux := mode }

theorem witness_PackExpansions :
    GoodPack (pack 0) { node := 0, port := 0 } ∧ ¬ GoodPack (pack 64) { node := 0, port := 0 }
    ∧ GoodPack (pack 64) { node := 0, port := 0, last := some 4 } ∧ ¬ GoodPack (pack 192) { node := 0, port := 0 }
    ∧ leftOut (pack 0) 0 = false ∧ (pack 0).kind.toNat = 6
    ∧ InNet (flow [⟨40, 32, .token (pack 0) (some from40)⟩]) ⟨40, 32, .token (pack 0) (some from40)⟩
    ∧ InNet (flow [⟨40, 32, .extToken (pack 0) 0 0 0⟩]) ⟨40, 32, .extToken (pack 0) 0 0 0⟩
    ∧ (flow [⟨40, 32, .extToken (pack 0) 0 0 0⟩]).cell0.extDest (pack 0) 0 0 0 = some (false, 0)
    ∧ { flow ((List.range (packTokens (pack 0))).map fun _ => ⟨40, 32, .token (tok 0 0) (some from40)⟩) with
        turns := [.pack 0 (packTokens (pack 0)) 0] }.net =
      [] ++ (List.range (packTokens (pack 0))).map (fun i => ⟨40, 32, .token
        { pack 0 with
          kind := if (pack 0).aux.getLsbD 5 then 1 else 0
          aux := BitVec.ofNat 9 (packStart (pack 0) + if (pack 0).aux.getLsbD 5 then i else 0)
          payload := 0 } (some from40)⟩) ++ [] := by
  unfold GoodPack InNet
  decide
/-- Three of four tokens of an edge are 7, and the last two of the run repeat the first; of two zeros and a token between
them a ZMASK could only stand for 32. -/
theorem test_pack_formed :
    let p (x : Word) : Packet := ⟨40, 32, .token (tok 0 x) (some from40)⟩
    (match step { flow [p 7, ⟨41, 32, .credit from40⟩, p 7, p 7, p 5] with turns := [.pack 0 2 1] } with
      | .next s => s.net
      | _ => []) =
      [p 7, ⟨41, 32, .credit from40⟩, ⟨40, 32, .token { tok 0 1 with kind := 6, aux := 64 } (some from40)⟩, p 5]
    ∧ packRun [tok 0 0, tok 0 5, tok 0 0] 2 none = none := by decide
theorem test_pack_expansion :
    ((after .packExpansion (flow [] (f := fun b => { b with pack := some (pack 64), last := some 4 }))).binding 32 false 0).map
      (fun b => (b.fifo.map (·.payload), b.packPos)) = some ([4], 1) := by decide

/-- Node 0 fires with the head of its one ORDERED port (Firings, PassedFirings, of any role and match). -/
def firing (n : Node) : State := flow [] { n with inputs := [some true] } (f := fun b => { b with fifo := [tok 0] })

theorem witness_CanFire :
    CanFire (firing {}) { inputs := [some true] } [(0, true, .head 0, tok 0)]
    ∧ CanFire (firing { pmatch := .null }) { pmatch := .null, inputs := [some true] } [(0, true, .head 0, tok 0)]
    ∧ CanFire (firing { role := .reduce }) { role := .reduce, inputs := [some true] } [(0, true, .head 0, tok 0)] := by
  refine ⟨⟨by decide, .inr (by decide), by decide, by decide, by decide, by decide, by decide, by decide, by decide, by decide,
      fun _ y h => ?_, by decide⟩,
    ⟨by decide, .inr (by decide), by decide, by decide, by decide, by decide, by decide, by decide, by decide, by decide,
      fun _ y h => ?_, by decide⟩,
    ⟨by decide, .inr (by decide), by decide, by decide, by decide, by decide, by decide, by decide, by decide, by decide,
      fun _ y h => ?_, by decide⟩⟩ <;>
  · cases h
    decide

theorem witness_Firings :
    RunsOn .any (predOf [tok 0]) ∧ ¬ RunsOn .null (predOf [tok 0]) ∧ (firing {}).cell0.readyFirings = []
    ∧ (firing {}).cell0.freeSlot? = some 0 ∧ (firing {}).cell0.prom = none := by
  unfold RunsOn
  decide

theorem test_firing :
    let s := after .firing (firing { handler := 9 })
    (s.task ⟨32, 0⟩).map (fun t => (t.pc, (t.inTok 0).payload)) = some (9, 5) ∧ s.net = [⟨32, 40, .credit from40⟩] := by decide
theorem test_reduce_contribution :
    ((after .firing (firing { role := .reduce })).node 32 false 0).map (·.contribs) = some [(0, 0, 5, false, false)] := by decide

/-- A sender that has stalled on its full ring from cycle 0 to cycle 65,536. -/
def stalled : State :=
  { flow [] { outputs := [some { dest := .internal 40 5, ring := some 0, stalledSince := some 0 }] } with now := 65536 }

theorem witness_WaitingTokensFault :
    let b : Binding := { node := 0, port := 1, source := some from40, fifo := [tok 1], fullSince := some 0 }
    let s := { crowded false with now := 65536 }.updBinding 32 false 1 fun _ => b
    s.binding 32 false 1 = some b ∧ b.fullRaised = false ∧ 0 + 65536 ≤ s.now ∧ ¬ 1 + 65536 ≤ s.now
    ∧ s.cell0.headWaits false b = true ∧ (crowded true).cell0.headWaits false b = false
    ∧ (stalled.cfg 0 0).map (fun c => ((stalled.stalledPorts c).map (·.2), c.lastAccept)) = some ([(0, true, 0)], 0)
    ∧ stalled.now = 65536 := by decide +kernel

/-- A CTRL token of a subtype at the head of tag 0. -/
def ctrl (sub : BitVec 9) (n : Node := { inputs := [some true] }) (p : TPred := .true) : State :=
  flow [] n (f := fun b => { b with fifo := [{ tok 0 with kind := 3, aux := sub, pred := p }] })

theorem witness_PredicateNetwork :
    let b : Binding := { node := 0, port := 0, source := some from40, fifo := [{ tok 0 with kind := 3, pred := .true }] }
    CtrlAt (ctrl 0) 0 b { tok 0 with kind := 3, pred := .true } ∧ ((ctrl 0).version 32 false).owner = some (0, 0)
    ∧ ((ctrl 0).popHead.cfg 0 0).map (fun c => (c.phase, c.places.map fun p => galleryOf p.cell)) = some ([], [0])
    ∧ galleryOf 32 = 0 := by
  unfold CtrlAt
  decide
theorem test_phase_without_successor : (((after .phase (ctrl 0)).cfg 0 0).map (·.state)) = some .exited := by decide

/-- A REDUCE node whose one edge ends, with two contributions. -/
def reducer : Node :=
  { role := .reduce, inputs := [some true], contribs := [(2, 0, 0x3F800000, false, false), (1, 0, 0x40000000, false, false)]
    outputs := [some { dest := .internal 40 5 }] }

theorem witness_EndOfStream :
    let b : Binding := { node := 0, port := 0, source := some from40, fifo := [{ tok 0 with kind := 3, aux := 3, pred := .true }] }
    let s := ctrl 3 reducer
    let t : Token := { tok 0 with kind := 3, aux := 3, pred := .true }
    let h := (s.endEdge 32 false 0 t).popHead
    let key (y : Nat × Nat × Word × Bool × Bool) : Nat := (y.1 + 4096 - 0) % 4096 * 4 + y.2.1
    let l : List (Nat × Nat × Word × Bool × Bool) := [(1, 0, 0x40000000, false, false), (2, 0, 0x3F800000, false, false)]
    CtrlAt (ctrl 3 reducer) 3 b { tok 0 with kind := 3, aux := 3, pred := .true } ∧ h.node 32 false 0 = some reducer
    ∧ (h.version 32 false).inputsEnded 0 = true ∧ (h.cell 32).store = [] ∧ (h.cell 32).prom = none
    ∧ h.hostPending 32 .device = false ∧ s.loopbPlace 0 = none
    ∧ l.Perm (reducer.contribs.filter fun y => !y.2.2.2.2) ∧ l.Pairwise (fun y z => key y < key z) := by
  unfold CtrlAt
  decide
theorem test_eos_ends_the_edge :
    ((after .ctrlEos (ctrl 3)).binding 32 false 0).map (fun b => (b.ended, b.fifo.length)) = some (true, 0) := by decide

/-- Context 0 in a stop, its one configuration DRAINING, with an edge from node 0 to a node 8 of a higher stage or none. -/
def draining (n : Node) (fwd : Bool) (f : Binding → Binding := id) : State :=
  { flow [] n (f := f) with
    cfgs := [(0, { spec := { config (some 64) [ported, { spec 8 .compute with stage := 1 }] with
                     edges := if fwd then [⟨0, 0, none, 8, 0, true, 0, .device⟩] else [] }
                   state := .draining, places := [⟨0, 32, false, 0⟩] })] }

theorem witness_StopsOfNodes :
    let b : Binding := { node := 0, port := 0, source := some from40, fifo := [{ tok 0 with kind := 3, aux := 1 }] }
    let s := draining { inputs := [some true] } false (fun b => { b with fifo := [{ tok 0 with kind := 3, aux := 1 }] })
    let l := s.drainedSet 0 0
    CtrlAt s 1 b { tok 0 with kind := 3, aux := 1 } ∧ s.node 32 false 0 = some { inputs := [some true] }
    ∧ (∃ y ∈ l, y.1 = 0) ∧ forwardIn l 0 0 = [] ∧ forwardOut l 0 0 = []
    ∧ forwardIn ((draining {} true).drainedSet 0 0) 0 8 = [0] ∧ forwardOut ((draining {} true).drainedSet 0 0) 0 0 = [0]
    ∧ s.cell0.tasks = [] ∧ s.cell0.readyFirings = [] := by
  unfold CtrlAt
  decide
theorem test_agent_stop_halts :
    let s := after .agentStopDelivery (draining {} false)
    (s.node 32 false 0).map (·.halted) = some true ∧ (s.cfg 0 0).map (·.state) = some .saving := by decide

/-- A CTRL token without a channel. -/
def control (sub : BitVec 9) (x : Word) : Token := { dst := 32, kind := 3, aux := sub, payload := x }
def controlled (t : Token) (n : Node := {}) (st : VerState := .live) (f : Cell → Cell := id) : State :=
  flow [⟨40, 32, .token t none⟩] n st (g := f)

theorem witness_HoldsReleased :
    let t := control 2 (BitVec.ofNat 64 (32 + 5 * 2 ^ 23))
    let s := controlled t {} .live fun c => { c with slots := [(0, { state := .busy, req := some (5, 3) })] }
    InNet s ⟨40, 32, .token t none⟩ ∧ t.kind.toNat = 3 ∧ t.aux.toNat = 2 ∧ t.payload.toNat / 2 ^ 23 % 8 = 5
    ∧ (s.cell0.dslot 0).req = some (5, 3) ∧ (s.cell0.dslot 0).owner = t.ctx ∧ (s.ctx 0).live = true
    ∧ (s.cell0.version (s.cell0.liveVersion 0)).state = .live := by
  unfold InNet
  decide
theorem test_ctrl_resume_address :
    let s := after .ctrlResume (controlled (control 2 (BitVec.ofNat 64 (32 + 4 * 2 ^ 23))) { heldSince := some 0 })
    (s.node 32 false 0).map (·.heldSince) = some none := by decide

/-- A start sweep for the region of `swept`, at its only cell. -/
def startSweep (f : Cell → Cell := id) : State :=
  let w : Word := regionWord ||| 1
  flow [⟨40, 32, .sweep (control 4 w) (some { dst := 32, kind := 3, payload := 0xE7 }) [] none⟩]
    (g := fun c => f { c with region := regionWord, regionPair := 0xE7 })

theorem witness_Sweeps :
    let s := startSweep
    let w := (regionWord ||| 1).toNat
    Runs (s.version 32 false) ∧ s.cell0.regionOp = none ∧ (s.ctx 0).live = true
    ∧ s.cell0.region.toNat = w - w % 2 ∧ s.cell0.regionPair.toNat = 0xE7
    ∧ s.cell0.passesStart 32 w 0xE7 = true
    ∧ ({ split := 4 } : Cell).passesStart 32 (1 * 2 ^ 54 + 1 * 2 ^ 49 + 192 * 2 ^ 27 + 48 * 2 ^ 18) 0xE7 = false
    ∧ ((sweepCells (control 4 (regionWord ||| 1)) 32).filter fun d => decide (32 < d)).head? = some 33
    ∧ ((sweepCells (control 4 (regionWord ||| 1)) 32).filter fun d => decide (33 < d)).head? = none := by
  unfold Runs
  decide +kernel
theorem test_sweep_goes_on :
    ((after .ctrlSweep startSweep).net.map fun p => match p.body with
      | .sweep _ _ m f => (p.dst, m, f)
      | _ => (0, [], none)) = [(33, [32], none)] := by decide +kernel
theorem test_sweep_of_another_word :
    ((after .ctrlSweep (startSweep fun c => { c with region := 0 })).net.map fun p => match p.body with
      | .sweep _ _ m f => (p.dst, m, f)
      | _ => (0, [], none)) = [(33, [], some 32)] := by decide +kernel

/-- The operation of `regionWord` on cell 32 with no step or its one step done. -/
def operating (n : Nat) (fails : Bool := false) (credit : Nat := 16) : State :=
  let s := flow [] { inputs := [some true] } (g := fun c => { c with
    owner := 0xFF, bank := [(16, 1), (48, 1)]
    regionOp := some { ctx := 0, iter := 0, word := regionWord, pair := 0xE7, poison := false, fails := fails, steps := n, until_ := 0 } })
  { s with cfgs := s.cfgs.map fun x => (x.1, { x.2 with credits := [(0, credit)] }) }

theorem witness_RegionOperations :
    let r := regionOf regionWord.toNat
    let p := pairOf 0xE7
    r.steps = 1 ∧ r.node = 0 ∧ r.port = 0 ∧ r.col0 = 0 ∧ r.row0 = 1 ∧ r.abase = 16 ∧ r.bbase = 48
    ∧ (∀ x ∈ (List.range (groupRows p.fmtA p.pa)).map fun i => r.abase + 0 * groupRows p.fmtA p.pa + i,
        (operating 0).cell0.engineRow x = true)
    ∧ (operating 0).throttled = false ∧ (operating 0).cell0.flights = [] ∧ (operating 0).cp.fatal = false
    ∧ (operating 0).cell0.regionOp.map (·.until_) = some 0 ∧ (operating 0).now = 0 ∧ ((operating 1).ctx 0).live = true
    ∧ ((operating 1).cell0.version false).nodes[0]? = some { inputs := [some true] }
    ∧ ((operating 1).version 32 false).bindingsOf 0 0 ≠ []
    ∧ ((operating 1 false 0).cfg 0 0).map (fun g => tgetD g.credits 16 0) = some 0 := by decide +kernel
/-- What the stream has brought by cycle 2, and a cell with nothing of it. -/
theorem witness_RegionOperations_stream :
    OperandOf {} false 0 1 2 [(2, ([7], false))] ([7], false) ∧ (¬ ∃ x, OperandOf {} false 0 1 2 [] x)
    ∧ OperandOf (operating 0).cell0 true 16 1 0 [] ([1], false) := by
  refine ⟨⟨2, [], rfl, by decide⟩, ?_, by decide +kernel, by decide +kernel⟩
  rintro ⟨x, a, r, h, -⟩
  cases h
/-- A start sweep at the end of its region, of which no cell is in operation. -/
theorem witness_RegionOperations_start :
    let t := control 4 (regionWord ||| 1)
    let s := flow [⟨33, 33, .regionStart t { dst := 32, kind := 3, payload := 0xE7 } [32, 33] none⟩]
    s.net[s.choice.n]? = some ⟨33, 33, .regionStart t { dst := 32, kind := 3, payload := 0xE7 } [32, 33] none⟩
    ∧ (s.ctx t.ctx).live = true ∧ (regionOf (t.payload &&& ~~~1).toNat).cells (galleryOf 33) = [32, 33]
    ∧ (∀ c ∈ [32, 33], (s.cell c).regionOp = none) := by decide +kernel
theorem test_region_step : (after .regionCompletion (operating 0)).cell0.acc 0 0 0 = (16384, 0) := by decide +kernel
theorem test_region_completion :
    ((after .regionCompletion (operating 1)).binding 32 false 2).map (fun b => b.last) = some (some 1) := by decide +kernel
theorem test_region_completion_waits : (after .regionCompletion (operating 1 false 0)).cell0.regionOp.isSome = true := by
  decide +kernel

/-- An arrival of 2 of 5 at barrier 9, whose entry is of phase p and has counted n. -/
def arrival : Token := control 5 (BitVec.ofNat 64 (5 * 2 ^ 36 + 2 * 2 ^ 12 + 9))
def barrier (p : BitVec 12) (n : Nat) (w : List BarWaiter := []) : State :=
  controlled arrival {} .live fun c => { c with
    bars := [(9, { owner := some 0, phase := p, expected := if n = 0 then 0 else 5, total := n })], barWaiters := w
    tasks := [(0, { t7 with wait := .bar 32 9 0 })] }

theorem witness_BarrierArrivals :
    InNet (barrier 0 0) ⟨40, 32, .token arrival none⟩ ∧ arrival.payload.toNat / 2 ^ 9 % 8 = 0 ∧ arrival.payload.toNat < 2 ^ 60
    ∧ ((barrier 0 3).cell0.bar 9).owner = some 0 ∧ (barrier 0 3).cell0.barHeld = [] ∧ (barrier 0 3).cell0.barHeldWaits = []
    ∧ tagAfter 0 0 = 0 ∧ tagAfter 0 1 = 1 ∧ tagAfter 0 2047 = 2047 ∧ tagAfter 0 2048 = 2048 ∧ tagAfter 0 2049 = 2049
    ∧ ¬ 5 < 3 + 2 ∧ 5 < 4 + 2 ∧ 2 < 5
    ∧ (barrier 0 3 [waits 32 0]).cell0.barWaiters.filter (fun w => decide (w.bid = 9) && decide (w.phase = 0)) = [waits 32 0] := by
  unfold InNet
  decide
theorem test_barrier_ends_the_phase :
    let s := after .barrierArrive (barrier 0 3 [waits 32 0])
    (s.cell0.bar 9).phase = 1 ∧ (s.cell0.bar 9).total = 0 ∧ ((s.task ⟨32, 0⟩).map (·.wait)) = some .none := by decide
theorem test_barrier_overflow : ((after .barrierArrive (barrier 0 4)).cell0.bar 9).total = 4 := by decide

/-- A retirement of tag 4095 at a LOOPB node of base 4095 and next 1. -/
def retiring (a : Word) (n : Node := looper 3) (cell : Nat := 32) : State :=
  { flow [⟨40, cell, .retire 0 a ⟨40, false, 0, 0, 0, none⟩ 0⟩] n with
    cfgs := [(0, { spec := config (some 64) [spec 0 .loopb], state := .live, places := [⟨0, 32, false, 0⟩] })] }

theorem witness_Retirements :
    InNet (retiring 4095) ⟨40, 32, .retire 0 4095 ⟨40, false, 0, 0, 0, none⟩ 0⟩
    ∧ (retiring 4095).loopbPlace 0 = some ⟨0, 32, false, 0⟩ ∧ (retiring 4095).node 32 false 0 = some (looper 3)
    ∧ (looper 3).loopBase < 4096 ∧ (4095 : Nat) ∉ (looper 3).retired
    ∧ (4095 + 4096 - (looper 3).loopBase) % 4096 < ((looper 3).loopNext + 4096 - (looper 3).loopBase) % 4096
    ∧ ((looper 3).loopNext + 4096 - (looper 3).loopBase) % 4096 ≤ (1 + 4096 - (looper 3).loopBase) % 4096
    ∧ ((retiring 4095 (looper 3) 33).loopbPlace 0).map (·.cell) ≠ some 33 := by
  unfold InNet
  decide
theorem test_retirement_passes_retired_tags :
    ((after .retirementArrival (retiring 4095 { looper 3 with retired := [0] })).node 32 false 0).map
      (fun n => (n.loopBase, n.retired)) = some (1, []) := by decide +kernel

/-- A task in WAITT until 7, and one in WAITF that read at cycle 0. -/
def waiting (now : Nat) (w : Wait) : State := { one { t7 with wait := w } with now := now, choice := { cell := 32 } }

theorem witness_WaitsEnd :
    (waiting 7 (.waitt 7)).task ⟨32, 0⟩ = some { t7 with wait := .waitt 7 } ∧ 7 ≤ (waiting 7 (.waitt 7)).now % 2 ^ 64
    ∧ (waiting 6 (.waitt 7)).now % 2 ^ 64 < 7
    ∧ (∀ n, (waiting 7 (.waitt 7)).node 32 false 0 = some n → n = {})
    ∧ ¬ 32 < 0 + 32 ∧ 31 < 0 + 32
    ∧ ((waiting 32 (.waitf .eq .device 3 0x1000 false 0 0)).readAt 32 0x1000 8 (some .device)).2 = 0 := by
  refine ⟨by decide, by decide, by decide, ?_, by decide, by decide, by decide +kernel⟩
  intro n h
  rw [show (waiting 7 (.waitt 7)).node 32 false 0 = some {} from by decide] at h
  cases h
  rfl
theorem test_waitt_wakes : ((after .waittWake (waiting 7 (.waitt 7))).task ⟨32, 0⟩).map (fun t => (t.pc, t.wait)) = some (1, .none) := by
  decide
theorem test_waitf_wakes :
    ((after .waitfReread (waiting 32 (.waitf .eq .device 3 0x1000 false 0 0))).task ⟨32, 0⟩).map (fun t => (t.pc, t.wait))
      = some (1, .none) := by decide +kernel

/-! ## Events of memory -/

/-- Cell 32 with one operation of slot 0, which writes s3. -/
def pending (k : OpKind) : State :=
  { one { t7 with pending := [3] } fun c => { c with ops := [⟨4, 0, k, 3, 0x1000, 0, .h, true⟩], nextOp := 5 } with
    mem := [⟨0x1000, 0x34⟩, ⟨0x1001, 0x92⟩], choice := { cell := 32, k := 4 } }

theorem witness_OperationReturns :
    (pending (.load none none)).cell0.ops.find? (fun x => decide (x.id = 4)) = some ⟨4, 0, .load none none, 3, 0x1000, 0, .h, true⟩
    ∧ (pending (.tagset 0)).task ⟨32, 0⟩ = some { t7 with pending := [3] }
    ∧ (0 % 4096 + 4096 - ((pending (.tagset 0)).loopbNode 0).loopBase) % 4096 < ((pending (.tagset 0)).loopbNode 0).window
    ∧ ((pending (.tagset 1)).loopbNode 0).window ≤ (1 % 4096 + 4096 - ((pending (.tagset 1)).loopbNode 0).loopBase) % 4096
    ∧ t7.armed = false := by decide
/-- A deferred load that is the next of its word, and one behind it; a bank word's load alone. -/
theorem witness_OperationReturns_order :
    let s := { pending (.pres (some (7, false))) with memAnswered := [(8, 32, 3), (8, 32, 4)] }
    let o : Op := ⟨4, 0, .presBank true (some (7, false)), 3, 0x1000, 0, .h, true⟩
    Behind s 32 4 ∧ ¬ Behind (pending (.pres (some (7, false)))) 32 4 ∧ ¬ BankBehind (pending o.kind).cell0 o := by
  refine ⟨⟨8, [(8, 32, 3)], [], rfl, by decide, (8, 32, 3), by decide, rfl⟩, ?_, ?_⟩
  · rintro ⟨a, l, r, h, -⟩
    cases l <;> cases h
  · rintro ⟨-, l, r, h, -, x, hx, -⟩
    cases l with
    | nil => cases hx
    | cons y l => cases l <;> cases h
theorem test_load_returns_sign_extended :
    ((after .memoryOperationReturn (pending (.load none none))).task ⟨32, 0⟩).map (fun t => (t.reg 3, t.pending))
      = some (0xFFFFFFFFFFFF9234, []) := by decide +kernel
theorem test_presence_load_waits :
    (after .memoryOperationReturn (pending (.pres none))).cell0.ops.length = 1 := by decide

/-- A wave operation at node 0 of edge cell 0, whose buffer holds a plain leaf. -/
def wave (f : WaveOp → WaveOp) (done : List (Nat × Nat × Nat) := []) : State :=
  let w : WaveOp := { ctx := 0, iter := 0, ws := 2, wp := 1, wq := 3, null := false, poison := false, store := true, addr := 0x1008
                      data := 0xAB, size := .b, sx := false, source := ⟨32, false, 0, 0, 0, none⟩, op := none }
  { flow [] with
    choice := { cell := 0 }
    cells := [(0, { tlb := leaves0, v0 := { state := .live, nodes := [{ role := .storer, waves := [f w], waveDone := done }] } })]
    ctxs := [(0, { live := true, root := some 0 })] }

/-- No node of a version holds its port. -/
theorem notHeld {s : State} {cell node : Nat} {ver : Bool}
    (h : ((s.version cell ver).nodes.all fun m => m.heldSince.isNone) = true) : ¬ InterfaceHeld s cell ver node := by
  rintro ⟨i, m, hm, hn, -⟩
  have := List.all_eq_true.mp h m (List.mem_of_getElem? hm)
  cases hs : m.heldSince with
  | none => exact hn hs
  | some x => simp [hs] at this

theorem witness_WaveOperations_interface :
    ¬ InterfaceHeld (wave id) 0 false 0
    ∧ Maps (wave id) (some 0) 0 0 0x1008 .plain true 0x801008 (used (wave id) (some 0) 0 leaves0[0]) :=
  ⟨notHeld (by decide), by decide, 0, leaves0[0], by decide, by decide, by decide, by decide, rfl⟩
theorem witness_WaveOperations_held :
    let s := (wave id).updNode 0 false 0 fun n => { n with heldSince := some 0 }
    InterfaceHeld s 0 false 0 := by
  intro s
  cases h : s.node 0 false 0 with
  | none => exact absurd h (by decide)
  | some m =>
    have hm : (s.node 0 false 0).bind (·.heldSince) ≠ none := by decide
    exact ⟨0, m, h, by simpa [h] using hm, .inl rfl⟩

theorem witness_WaveOperations :
    ((wave id).node 0 false 0).map (fun n => (n.waves.length, n.heldSince)) = some (1, none)
    ∧ (0, 0, 1) ∉ ([] : List (Nat × Nat × Nat)) ∧ (0, 0, 1) ∈ [(0, 0, 1)] ∧ (2 : Nat) ≠ 255
    ∧ ((wave id).cell 0).tlb.find? (fun l => decide (l.root = 0) && decide (l.vbase ≤ 0x1008) && decide (0x1008 < l.vbase + l.size))
        = some leaves0[0]
    ∧ leafAdmits leaves0[0] 0x1008 .plain true = true ∧ leafAdmits leaves0[2] 0x401008 .plain true = false
    ∧ ((wave id).cell 0).tlb.find? (fun l => decide (l.root = 0) && decide (l.vbase ≤ 0x801008) && decide (0x801008 < l.vbase + l.size))
        = none := by decide
theorem test_wave_waits_its_turn : (after .waveOperation (wave id)).mem = [] := by decide
theorem test_wave_stores : (after .waveOperation (wave id [(0, 0, 1)])).readByte 0x801008 = 0xAB := by decide +kernel

theorem witness_PresenceAtHome :
    let s := flow [⟨32, 0, .presStore 0xA01000 0x201000 7 ⟨32, false, 0, 0, 0, none⟩⟩]
    let l := flow [⟨32, 0, .presLoad 0xA01000 32 4⟩]
    InNet s ⟨32, 0, .presStore 0xA01000 0x201000 7 ⟨32, false, 0, 0, 0, none⟩⟩ ∧ InNet l ⟨32, 0, .presLoad 0xA01000 32 4⟩
    ∧ tgetD s.memFull false (0xA01000 / 8) = false ∧ (l.memDeferred.filter fun d => decide (d.1 / 256 % 16 = 0)).length < 4096
    ∧ tgetD ({ s with memFull := [(0xA01000 / 8, true)] } : State).memFull false (0xA01000 / 8) = true := by
  unfold InNet
  decide
theorem test_presence_store :
    let s := after .presenceStoreAtHome (flow [⟨32, 0, .presStore 0xA01000 0x201000 7 ⟨32, false, 0, 0, 0, none⟩⟩])
    s.readMem 0xA01000 8 = 7 ∧ tgetD s.memFull false (0xA01000 / 8) = true := by decide +kernel
theorem test_presence_load_deferred :
    (after .presenceLoadAtHome (flow [⟨32, 0, .presLoad 0xA01000 32 4⟩])).memDeferred = [(0xA01000, 32, 4)] := by decide

/-- A request of cell 40 for node 0 at its agent, and one that waits at cell 32 or is in progress there. -/
def promoting (p : Option (List PromReq × Nat)) (w : List PromReq) (net : List Packet := []) : State :=
  flow net (g := fun c => { c with prom := p, promWaiting := w, log := [⟨0, 1⟩, ⟨0, 2⟩] })

theorem witness_Promotions :
    let s := promoting none [asks 40] [⟨40, 0, .promLookup (asks 40)⟩]
    s.net[s.choice.n]? = some ⟨40, 0, .promLookup (asks 40)⟩ ∧ (s.hall (hallOf 0)).switching = false
    ∧ ((s.cfgWith 0 0).bind fun g => (g.copy 0).find? fun p => decide (p.gid = 0)) = some ⟨0, 32, false, 0⟩
    ∧ s.cfgWith 0 1 = none ∧ s.cell0.prom = none
    ∧ s.cell0.promWaiting.find? (Next s.cell0 s.now) = some (asks 40)
    ∧ (∀ r ∈ (promoting (some ([asks 40], 1)) []).cell0.promWaiting, Next (promoting none []).cell0 0 r = false)
    ∧ (promoting (some ([asks 40], 1)) []).cell0.prom = some ([asks 40], 1)
    ∧ ({ eagerMark := some 2 } : Cell).eagerMark = some 2 := by decide
theorem test_promotion_completes :
    let s := after .promotionComplete (promoting (some ([asks 40], 1)) [])
    s.cell0.served = 1 ∧ s.cell0.log = [⟨0, 2⟩] ∧ s.net.map (·.dst) = [40] := by decide

theorem test_flights_end :
    ((after .inFlightInstructionComplete { dividing with now := 31, choice := { cell := 32 } }).cell0.flights.length,
     (after .inFlightInstructionComplete { dividing with now := 32, choice := { cell := 32 } }).cell0.flights.length) = (1, 0) := by
  decide

/-! ## Transit engines, walks, the meridian queue -/

/-- One row of 1024 elements of UINT1, from row 128 to row 192 of cell 32's bank. -/
def copyDesc : Row :=
  image [(0, 2 * 2 ^ 33 + 2 * 2 ^ 35 + 2 ^ 43), (1, 1024), (3, 128 * 2 ^ 18 + 32), (4, 1), (7, 192 * 2 ^ 18 + 32), (8, 1)]

/-- The request of slot 1 of cell 32, with identity 3 in queue 5. -/
def queued (r : Request) (f : Cell → Cell := id) : State :=
  { flow [] {} (g := fun c => f { c with
      owner := 0x0C, bank := [(128, 0xA5)], bankPoison := [(128, true)]
      slots := [(1, { state := .busy, desc := r.desc, req := some (5, 3) })] }) with
    halls := [(0, { Hall.reset with queues := [(5, [r])] })], choice := { cell := 32, eq := 5, k := 3 } }

def copying (n : Nat) : Request := { request .copy copyDesc with started := true, rowsDone := n }
def signal (c : Word) : Request := { request .sig fillDesc with c := c }

theorem witness_EngineStartsAndEnds :
    Plain (queued (signal 8)) 5 (signal 8) ∧ Plain (queued (copying 0)) 5 (copying 0)
    ∧ (queued (signal 4)).queue 0 5 = [] ++ signal 4 :: [] ∧ (signal 4).started = false ∧ (signal 4).ord = false
    ∧ (signal 4).c.toNat % 8 ≠ 0 ∧ (signal 8).c.toNat % 8 = 0
    ∧ ((queued (copying 0)).queue 0 5).find? (fun y => decide (y.id = 3)) = some (copying 0)
    ∧ (copying 0).total (descOf copyDesc) = 1 ∧ ({ signal 8 with sent := [0] } : Request).sent ≠ []
    ∧ (signal 8).cancelled = false ∧ (queued (copying 0)).hostStores = []
    ∧ (∃ y ∈ ({ queued (copying 0) with hostStores := [{ addr := 8, request := some (0, 3) }] } : State).hostStores,
        y.request = some (0, (copying 0).id)) := by
  unfold Plain
  decide +kernel
theorem test_request_starts :
    ((after .engineRequestStart (queued (signal 8))).queue 0 5).map (·.started) = [true] := by decide +kernel
theorem test_request_ends :
    let s := after .engineRequestComplete (queued (copying 1))
    (s.cell0.dslot 1).state = .done ∧ (s.cell0.dslot 1).record.toNat / 2 ^ 64 = 2 ^ 56 + 1 ∧ s.queue 0 5 = [] := by decide +kernel

theorem witness_EngineCopiesRows :
    let s := { queued (copying 0) with turns := [.engineRow 0 5] }
    let d := descOf copyDesc
    s.turns = [.engineRow 0 5] ∧ (s.queue 0 5).find? (fun y => decide (y.id = (copying 0).id)) = some (copying 0)
    ∧ d.s.kind = 2 ∧ d.d.kind = 2 ∧ d.padL = 0 ∧ d.padR = 0 ∧ d.dmask = 0 ∧ d.elems = 1024
    ∧ d.stepAt true (d.planes true 0) ((List.range d.slices).map fun i => (i, d.start true i)) 0 = some ⟨0, 0, 0, 0⟩
    ∧ d.start false 0 % 1024 = 0 ∧ d.s.base / 2 ^ 18 % 512 = 128 ∧ d.d.base / 2 ^ 18 % 512 = 192
    ∧ (s.queue 0 5).filter (·.started) = [copying 0] ∧ s.groups = []
    ∧ s.cell0.engineRow 128 = true ∧ s.cell0.engineRow 192 = true := by decide +kernel
theorem test_copy_of_a_row :
    let c := (stepped { queued (copying 0) with turns := [.engineRow 0 5] }).cell0
    c.row 192 = 0xA5 ∧ c.rowPoisoned 192 = true := by decide +kernel

/-- The operations of a PACKED body: a literal, a copy that reads what it writes, zeros. -/
theorem witness_ChunkFormats : Unpacks [] [.literal [7], .copy 1 3, .zeros 2] [7, 7, 7, 7, 0, 0] := by
  simp [Unpacks, StreamOp.ok, StreamOp.adds]
  decide
theorem test_unpack : unpack 6 [0, 7, 128, 1, 0, 65] [] = some [7, 7, 7, 7, 0, 0] := by decide +kernel
theorem test_unpack_copy_too_far : unpack 5 [0, 7, 128, 2, 0] [] = none := by decide +kernel
theorem test_crc32c : crc32c ("123456789".toList.map (·.toNat)) = 0xE3069283 := by decide +kernel

/-- A decode of one chunk whose stream is all zeros, at 0 of its context's plain page. -/
def decodeDesc : Row := image [(0, 2 * 2 ^ 33 + 1 * 2 ^ 35 + 2 ^ 43), (1, 32768), (4, 8192), (7, 128 * 2 ^ 18 + 32), (8, 32), (11, 4096)]
def decoding : Request := { request .decode decodeDesc with started := true, c := 1 }

def decodes (r : Request) : State :=
  { queued r with
    halls := [(0, { Hall.reset with wcache := leaves0, queues := [(5, [r])] })]
    ctxs := [(0, { live := true, root := some 0 })] }
/-- The request with its chunk expanded, well or not. -/
def expanded (x : Option (List Nat × Bool)) : State :=
  { decodes { decoding with chunks := [(0, x)] } with turns := [.engineRow 0 5] }

theorem witness_ChunksDecoded :
    let s := decodes decoding
    let e := expanded (some (List.replicate 128 1, true))
    let d := descOf decodeDesc
    (s.queue 0 5).find? (fun y => decide (y.id = 3)) = some decoding ∧ decoding.heldSince = none ∧ decoding.cancelled = false
    ∧ decoding.rowsDone < 32 * decoding.c.toNat ∧ decoding.rowsDone / 32 = 0 ∧ decoding.chunks = []
    ∧ (match s.chunkIn (decoding.via 0) d 0 with | .ok _ _ => true | _ => false) = true
    ∧ (e.queue 0 5).filter (·.started) = [{ decoding with chunks := [(0, some (List.replicate 128 1, true))] }]
    ∧ d.d.kind = 2 ∧ d.start true 0 % 1024 = 0 ∧ d.d.base / 2 ^ 18 % 512 = 128 ∧ e.cell0.engineRow 128 = true
    ∧ ((expanded none).queue 0 5).map (fun r => tget r.chunks 0) = [some none] := by decide +kernel
theorem witness_ChunksDecoded_slot :
    Plain (expanded none) 5 { decoding with chunks := [(0, none)] } := by
  unfold Plain
  decide +kernel
theorem test_chunk_row :
    let c := (stepped (expanded (some (List.replicate 128 1, true)))).cell0
    (c.row 128).toNat % 2 ^ 16 = 0x0101 ∧ c.rowPoisoned 128 = true := by decide +kernel
theorem test_bad_chunk_fails : ((stepped (expanded none)).cell0.dslot 1).record.toNat / 2 ^ 112 = 0x30A := by decide +kernel

/-- One walk in hall 0 for a waiter; s.memory holds no tables, so an entry is missing; with `root` absent too. -/
def walking (y : Waiter) (va : Word := 0x1000) (mem : List Host.Cell := []) (t : Task := { t7 with wait := .walk }) : State :=
  { flow [] { role := .storer } (g := fun c => { c with tasks := [(0, t)] }) with
    mem := mem
    halls := [(0, { Hall.reset with walks := [{ root := some 0x2000, va := va, write := false, waiters := [(y, va, false)] }] })] }

theorem witness_WalksEnd :
    ((walking (.task 32 0)).hall 0).walks[0]? = some { root := some 0x2000, va := 0x1000, write := false, waiters := [(.task 32 0, 0x1000, false)] }
    ∧ (match walkRoot (walking (.task 32 0)) (some 0x2000) 0x1000 with | .translation _ _ => true | _ => false) = true
    ∧ (walking (.task 32 0)).task ⟨32, 0⟩ = some { t7 with wait := .walk } := by decide +kernel
/-- Tables at 0x2000, 0x3000, 0x4000 and 0x6000 whose last entry is a plain page at 0x10000, or names a frame that its page
cannot have. -/
def tables (frame : Nat) : List Host.Cell :=
  [⟨0x2001, 0x30⟩, ⟨0x2007, 0x80⟩, ⟨0x3001, 0x40⟩, ⟨0x3007, 0x80⟩, ⟨0x4001, 0x60⟩, ⟨0x4007, 0x80⟩,
   ⟨0x6001, BitVec.ofNat 8 frame⟩, ⟨0x6002, 0x01⟩, ⟨0x6007, 0x80⟩].filter fun c => c.2 ≠ 0
theorem witness_WalksEnd_found :
    walkRoot (walking (.task 32 0) 0x1000 (tables 0)) (some 0x2000) 0x1000 = .leaf ⟨0x2000, 0, 0x10000, 0x10000, 0, false⟩
    ∧ walkRoot (walking (.task 32 0) 0x1000 (tables 0x08)) (some 0x2000) 0x1000 = .protection := by decide +kernel

/-- An entry of key 5 and a pop of context 0 for port 0 of node 0. -/
def popping (window : Nat) (more : List MqEntry := []) (reply : Option Msg := none) : State :=
  { flow [] with
    ctxs := [(0, { live := true, window := window })]
    halls := [(0, { Hall.reset with mq := ⟨5, 9, 0, false⟩ :: more, mqPops := [⟨0, 3, 0, 0, 0, reply⟩] })] }

theorem witness_QueueServes :
    let s := popping 1 [⟨4, 8, 0, false⟩]
    (s.hall 0).mqPops[0]? = some ⟨0, 3, 0, 0, 0, none⟩ ∧ (s.hall 0).mq[0]? = some ⟨5, 9, 0, false⟩ ∧ (s.hall 0).mqPush = []
    ∧ ((s.hall 0).mq.filter fun f => decide (f.ctx = 0) && decide (f.key < 5)).length = 1
    ∧ s.resolve 0 0 0 0 = some ⟨0, 32, false, 0⟩ ∧ (s.cfg 0 0).map (·.vest) = some []
    ∧ ({ Hall.reset with mqPush := [(⟨5, 9, 0, false⟩, none)] } : Hall).mq.length < 65536 := by decide +kernel
theorem test_pop_outside_the_window : ((after .mqpopServe (popping 1 [⟨4, 8, 0, false⟩])).hall 0).mq.length = 2 := by decide
theorem test_pop_within_the_window :
    let s := after .mqpopServe (popping 2 [⟨4, 8, 0, false⟩])
    (s.hall 0).mq.length = 1 ∧ s.net.map (·.dst) = [32] := by decide

/-! ## Passes -/

/-- A pass of `copyDesc`'s row on node 0 of cell 32; the node's edge has n credits. -/
def passOf (f : Pass → Pass := id) : Pass :=
  f { slot := 1, mask := 0, ind := false, ctx := 0, iter := 2, ver := false, taint := false, paddr := none, desc := copyDesc }
def passing (role : Role) (n : Nat) (p : Pass) (b : Binding → Binding := id) : State :=
  { queued (copying 0) with
    halls := [(0, Hall.reset)]
    cells := [(32, { owner := 0x0C, bank := [(128, 0xA5)], slots := [(1, { state := .busy, desc := copyDesc })]
                     v0 := { state := .live, owner := some (0, 0)
                             nodes := [{ role := role, passes := [p], inputs := [some true]
                                         outputs := [some { dest := .internal 40 5, credits := n }] }]
                             bindings := [b { node := 0, port := 0, source := some from40 }] } })] }

def sixteen (f : Nat → Word × Bool × Bool := fun k => (BitVec.ofNat 64 k, false, false)) : Pass :=
  passOf fun p => { p with got := (List.range 16).map f }

theorem witness_LoaderPasses :
    let s := passing .loader 16 passOf
    RunningPass s { role := .loader, passes := [passOf], inputs := [some true], outputs := [some { dest := .internal 40 5 }] } passOf
    ∧ passStep passOf false = some ⟨0, 0, 0, 0⟩
    ∧ (match s.rowIn (passVia s passOf) ((descOf copyDesc).s.loc 0) with | .ok _ r => r = (0xA5, false) | _ => False)
    ∧ s.cell0.prom = none ∧ s.hostPending 32 .device = false := by
  refine ⟨⟨by decide +kernel, notHeld (by decide +kernel), rfl, rfl, rfl, .inl rfl⟩, by decide +kernel,
    ?_, by decide, by decide⟩
  have h : (match (passing .loader 16 passOf).rowIn (passVia (passing .loader 16 passOf) passOf) ((descOf copyDesc).s.loc 0) with
    | .ok _ r => decide (r = (0xA5, false)) | _ => false) = true := by decide +kernel
  revert h
  cases (passing .loader 16 passOf).rowIn (passVia (passing .loader 16 passOf) passOf) ((descOf copyDesc).s.loc 0) <;> simp
theorem test_loader_sends_a_row : (after .loaderPass (passing .loader 16 passOf)).net.length = 16 := by decide +kernel
theorem test_loader_waits_for_credits : (after .loaderPass (passing .loader 3 passOf)).net.length = 3 := by decide +kernel

theorem witness_StorerPasses :
    let s := passing .storer 16 passOf fun b => { b with fifo := [tok 0] }
    let n : Node :=
      { role := .storer, passes := [passOf], inputs := [some true], outputs := [some { dest := .internal 40 5 }] }
    RunningPass s n passOf ∧ (s.version 32 false).bindingsOf 0 0 = [(0, { node := 0, port := 0, source := some from40, fifo := [tok 0] })]
    ∧ passOf.got.length < 15 ∧ passStep passOf true = some ⟨0, 0, 0, 0⟩ ∧ sixteen.got.length = 16
    ∧ (sixteen.got.all fun g => !g.2.2 && !g.2.1) = true ∧ ((sixteen fun _ => (0, false, true)).got.any (·.2.2)) = true
    ∧ ((sixteen fun _ => (0, true, false)).got.any (·.2.1)) = true :=
  ⟨⟨by decide +kernel, notHeld (by decide +kernel), rfl, rfl, rfl, .inl rfl⟩, by decide +kernel⟩
theorem test_storer_writes_a_row :
    (after .storerPass (passing .storer 16 sixteen)).cell0.row 192 / 2 ^ 64 % 2 ^ 64 = 1 := by decide +kernel
theorem test_storer_suppresses :
    ((after .storerPass (passing .storer 16 (sixteen fun _ => (0, true, false)))).node 32 false 0).map
      (fun n => n.passes.map (·.suppressed)) = some [1] := by decide +kernel

theorem witness_PassesEnd :
    let p := passOf fun p => { p with rowsDone := 1 }
    let s := passing .storer 16 p
    (s.node 32 false 0).map (·.passes) = some [p] ∧ (descOf p.desc).record = 0
    ∧ s.holdsContext 32 (s.cell0.dslot p.slot).owner = true ∧ passStep p true = none ∧ passStep passOf true ≠ none
    ∧ (passOf fun p => { p with failed := some 9 }).failed ≠ none ∧ s.hostStores = []
    ∧ (∀ v i m, s.node 32 v i = some m → (v = false ∧ i = 0) ∨ ∀ k ∈ m.passes, k.slot ≠ p.slot) := by
  refine ⟨by decide +kernel, by decide +kernel, by decide +kernel, by decide +kernel, by decide +kernel, by decide, by decide, ?_⟩
  intro v i m h
  have hi := (List.getElem?_eq_some_iff.mp h).1
  cases v
  · exact .inl ⟨rfl, Nat.lt_one_iff.mp hi⟩
  · exact absurd hi (Nat.not_lt_zero i)
theorem test_pass_ends :
    ((after .passComplete (passing .storer 16 (passOf fun p => { p with rowsDone := 1 }))).cell0.dslot 1).state = .done := by
  decide +kernel

/-- A peer's put of three lanes of a row at 0x1000, which the page admits or not. -/
def peer (adm : Bool) (offset : Nat := 0) : State :=
  { flow [] with
    ctxs := [(0, { live := true, root := some 0, admissions := if adm then [(9, 4)] else [] })]
    choice := { peer := 9, pctx := 4, addr := 0x1000, amount := 3, row := 7, offset := offset } }

theorem witness_PeersWrite :
    (9, 4) ∈ ((peer true).ctx 0).admissions ∧ (9, 4) ∉ ((peer false).ctx 0).admissions ∧ 3 ≤ (peer true 3).choice.offset
    ∧ (peer true).choice.offset < (peer true).choice.amount.toNat
    ∧ (peer true).choice.addr.toNat % 8 = 0 := by decide
theorem test_peer_not_admitted : (after .remotePutArrival (peer false)).mem = [] := by decide +kernel

/-! ## Schedulers, saves, contexts -/

/-- One configuration of context 0 on cell 32, in a state; a token waits in its vestibule. -/
def planned (st : CfgState) (hint : Option Nat := some 32) (due : Nat := 1) : State :=
  { flow [] with
    cells := [], choice := { cell := 32 }, now := 200000
    halls := [(0, { Hall.reset with due := due, lastDecision := 200000 - 65535 })]
    cfgs := [(0, { spec := config (some 64) [{ ported with hint := hint, fixed := true }], state := st
                   vest := [(0, 0, tok 0, 0)] })] }

theorem witness_SchedulerDecides :
    let s := planned .unplaced
    let c : CfgRt := { spec := config (some 64) [{ ported with hint := some 32, fixed := true }], vest := [(0, 0, tok 0, 0)] }
    (s.hall 0).switching = false ∧ 0 < (s.hall 0).due ∧ (s.hall 0).reserved = none ∧ (s.hall 0).reserveQueue = []
    ∧ (∀ y ∈ s.cfgs, y.1 < 2 ^ 26) ∧ candidatesOf s 0 = [(0, c)] ∧ tget s.cfgs 0 = some c
    ∧ s.fits s.choice 0 c = some ([(0, 32)], [(32, false)])
    ∧ (planned .unplaced none).fits {} 0 { c with spec := config (some 64) [ported] } = none ∧ c.count < 14
    ∧ ¬ 0 < ((planned .unplaced none 0).hall 0).due ∧ ¬ ((planned .unplaced none 0).hall 0).lastDecision + 65536 ≤ 200000 := by
  decide +kernel
/-- An epoch that may close, of an unowned version and of an owned one; a token on its way to it; a table that names it. -/
theorem witness_SchedulerDecides_epoch :
    let open_ (o : Option (BitVec 10 × Nat)) (l : List Place) (net : List Packet) : State :=
      { flow net {} .empty (g := fun c => { c with v0 := { c.v0 with epochOpen := true, owner := o } }) with
        cfgs := [(0, { spec := config none [ported], places := l })] }
    let named (s : State) : Bool := ((s.cfg 0 0).map fun c => (List.range 8).any fun a => (c.copy a).any fun p =>
      decide (p.cell = 32) && decide (p.ver = false)).getD false
    let on (s : State) : Bool := s.net.any fun p => p.toVersion 32 (s.version 32 false) false
    ((open_ none [] []).version 32 false).state = .empty ∧ ((open_ none [] []).version 32 false).epochOpen = true
    ∧ named (open_ none [] []) = false ∧ on (open_ none [] []) = false
    ∧ ((open_ (some (0, 0)) [] []).version 32 false).owner = some (0, 0) ∧ named (open_ (some (0, 0)) [] []) = false
    ∧ on (open_ (some (0, 0)) [] [⟨40, 32, .token (tok 0) none⟩]) = true
    ∧ named (open_ (some (0, 0)) [⟨0, 32, false, 0⟩] []) = true := by decide
theorem test_decision_installs :
    ((after .schedulerTimer (planned .unplaced)).cfg 0 0).map (fun c => (c.state, c.loadingCells)) = some (.loading, [32]) := by
  decide +kernel
theorem test_decision_counts :
    ((after .schedulerTimer (planned .unplaced none)).cfg 0 0).map (fun c => (c.state, c.count)) = some (.unplaced, 1) := by
  decide +kernel

/-- A configuration with one cell to save, by saving or by scan-out. -/
def saving (st : CfgState) (f : Cell → Cell := id) (now : Nat := 0) : State :=
  { flow [] { halted := st ≠ .draining } (g := f) with
    now := now
    cfgs := [(0, { spec := config (some 64) [ported], state := st, places := [⟨0, 32, false, 0⟩], deadline := 100
                   savingCells := if st = .saving then [32] else [], scanCells := if st = .scanning then [32] else [] })] }

theorem witness_SavesAndDeadlines :
    let s := saving .saving
    let z := saving .scanning fun c => { c with issueStopped := true }
    (s.savers 32 false).map (fun y => (y.1, y.2.1)) = [(0, 0)] ∧ (z.savers 32 true).map (fun y => (y.1, y.2.1)) = [(0, 0)]
    ∧ s.cell0.prom = none ∧ s.cell0.promWaiting = [] ∧ s.cell0.flights = [] ∧ s.bankWritten 32 = false
    ∧ s.waveOwed 32 false = false ∧ z.cell0.issueStopped = true ∧ z.cell0.regionOp = none ∧ z.cell0.ops = []
    ∧ ((saving .draining).drainedSet 0 0).map (·.1) = [0] ∧ ((saving .draining).node 32 false 0).map (·.halted) = some false
    ∧ (saving .draining id 99).now < 100 ∧ ¬ (saving .draining id 100).now < 100
    ∧ (s.cfg 0 0).bind (fun g => g.places.find? fun p => decide (p.cell = 32)) = some ⟨0, 32, false, 0⟩
    ∧ ((saving .draining).ctx 0).hold = 1250000 ∧ ((flow [] { heldSince := some 0 }).node 32 false 0).map (·.heldSince) = some (some 0)
    ∧ ((flow []).cfg 0 0).map (·.state) = some .live := by decide +kernel
theorem test_cell_save :
    let s := after .cellSave (saving .saving fun c => { c with tasks := [(3, { t7 with pc := 7 })] })
    (s.cfg 0 0).map (fun c => (c.state, c.saved.map fun u => u.tasks.map fun t => (t.1, t.2.pc))) = some (.saved, [[(3, 7)]])
    ∧ (s.version 32 false).state = .empty ∧ s.cell0.tasks = [] := by decide +kernel
theorem test_deadline :
    let s := after .drainDeadline (saving .draining id 100)
    (s.cfg 0 0).map (fun c => (c.state, c.scanCells)) = some (.scanning, [32]) ∧ s.cell0.issueStopped = true := by decide +kernel

theorem witness_ContextsEnd :
    let s := saving .exited
    let e : State := { s with ctxs := [(0, { exitedAt := some 5 })], now := 1250005 }
    (s.ctx 0).live = true ∧ (∀ y ∈ s.cfgs, y.1 / 65536 = 0 → y.2.state = .exited) ∧ (s.ctx 0).stopSeqs = []
    ∧ (s.ctx 0).exitSeqs = []
    ∧ (e.ctx 0).exitedAt = some 5 ∧ 5 + 1250000 ≤ e.now ∧ e.cp.pending = [] ∧ e.idQuiet 0 = true ∧ ¬ 6 + 1250000 ≤ e.now := by
  decide +kernel
theorem test_context_exit :
    let s := after .contextExit (saving .exited)
    (s.ctx 0).live = false ∧ (s.ctx 0).exitedAt = some 0 ∧ (s.version 32 false).state = .empty := by decide +kernel

/-- An activation of slot 1, version 5, paused at cycle 1; every hall's agent has switched, or none. -/
def activating (sw : Bool) (now : Nat) : State :=
  { State.reset with
    now := now
    cp := { nextSeq := 2, fw1 := { secver := 5, verified := true }, activation := some 1, paused := some 1
            journal := [(1, ⟨1, 10, 0xFFFF, 0, 0, 1, 0, 0, 0⟩)] }
    halls := (List.range 8).map fun h => (h, { Hall.reset with switched := sw }) }

theorem witness_ActivationsAndAcknowledgements :
    (activating true 5).cp.activation = some 1 ∧ (∀ h < 8, ((activating true 5).hall h).switched = true)
    ∧ (∃ h < 8, ((activating false 5).hall h).switched = false) ∧ (activating true 5).cp.pending = []
    ∧ (activating false 62500001).cp.paused = some 1 ∧ 1 + 62500000 ≤ (activating false 62500001).now
    ∧ (activating false 62500000).now < 1 + 62500000
    ∧ ({ State.reset with hostStores := [{ addr := 8, read := some (1, 0, 0) }] } : State).hostStores[0]?.map (·.read)
        = some (some (1, 0, 0)) := by decide +kernel
theorem test_activation :
    let s := after .activationComplete (activating true 5)
    s.cp.running = true ∧ s.cp.fuseMin = 5 ∧ s.cp.paused = none := by decide +kernel
theorem test_activation_timeout :
    let s := after .fwactivateTimeout (activating false 62500001)
    s.cp.running = false ∧ (tget s.cp.journal 1).map (fun e => (e.state, e.status)) = some (3, 0x0307) := by decide +kernel

/-! ## Links, memory errors, power, resets -/

theorem witness_ReplaysAndRetrains :
    ({ State.reset with cp := { replayRun := 6 } } : State).cp.replayRun < 7
    ∧ 7 ≤ ({ State.reset with cp := { replayRun := 7 } } : State).cp.replayRun ∧ State.reset.hostLoads = []
    ∧ (∀ y ∈ [({ addr := 8, node := some ⟨32, false, 0, 0, 0, none⟩ } : HostStore)], y.node.isSome = true ∧ y.read = none)
    ∧ tgetD ({ State.reset with hops := [(0, 15)] } : State).hops 0 0 + 1 = 16 ∧ State.reset.cp.fatal = false := by decide
theorem test_eighth_replay_retrains :
    (after .flitCrcError { State.reset with cp := { replayRun := 7 }, choice := { ok := true } }).cp.retrains = 1 := by decide

/-- Port 0 with a capture binding to node 0's port 0 of context 0, and n bytes buffered. -/
def captured (f : Port → Port) (x : Choice := {}) : State :=
  { flow [] with ports := [(0, f { capture := some (0, 0, 0), enabled := true })], choice := x }

theorem witness_CaptureAndStamps :
    let s := captured id { ok := true, bytes := List.replicate 64 0 }
    (s.port 0).up = true ∧ (s.port 0).enabled = true ∧ (s.port 0).capture ≠ none ∧ s.choice.bytes.length = 64
    ∧ ((captured fun p => { p with buffer := [(67108864 - 63, [])] }).port 0).buffer.map (·.1) = [67108864 - 63]
    ∧ (s.ctxCfgs 0).map (·.1) = [0] ∧ s.resolve 0 0 0 0 ≠ none ∧ (s.hall 0).switching = false
    ∧ (∀ y ∈ s.ports, y.1 ≠ 0 → y.2.capture = (s.port 0).capture → y.2.buffer = [])
    ∧ ((captured fun p => { p with ptp := true }).port 0).ptp = true
    ∧ (planned .unplaced).cfg 0 0 ≠ none ∧ (planned .unplaced).resolve 0 0 0 0 = none := by decide +kernel
theorem test_capture_frame :
    let p := (after .captureFrame (captured id { ok := true, bytes := 7 :: List.replicate 63 0 })).port 0
    p.seq = 1 ∧ (p.buffer.map fun b => (b.1, b.2.length, (b.2.getD 2 (0, 0)).2)) = [(64, 10, 7)] := by decide +kernel
theorem test_capture_frame_short :
    ((after .captureFrame (captured id { ok := true, bytes := List.replicate 63 0 })).port 0).errors = 1 := by decide +kernel

theorem witness_PeerLinksFail :
    let r := { request .remote fillDesc with sent := [5], started := true }
    Plain (queued r) 5 r ∧ ((queued r).queue 0 5).find? (fun r => decide (r.id = 3)) = some r ∧ r.sent[0]? = some 5
    ∧ (State.reset.port 3).up = true ∧ (State.reset.port 3).enabled = false ∧ State.reset.peerRequests = []
    ∧ (queued r).peerRequests = [(0, 5, r)]
    ∧ (∀ i < 32, (({ State.reset with ports := (List.range 32).map fun k => (k, { up := false }) } : State).port i).up = false) := by
  unfold Plain
  decide +kernel
theorem test_packet_timeout :
    let r := { request .remote fillDesc with sent := [5], started := true }
    ((after .packetTimeout { queued r with now := 12500005 }).cell0.dslot 1).record.toNat / 2 ^ 112 = 3 * 256 + 0x22 := by
  decide +kernel

theorem witness_MemoryIntegrity :
    State.reset.sectorPoisoned 64 = false ∧ 1 ≤ (0x3FE : Nat) ∧ (0x20 / 32 * 32 : Nat) < 0xC00000000
    ∧ ({ Hall.reset with writeBacks := [{ sector := 2, poison := true }] } : Hall).writeBacks[0]?.map (·.stale) = some false
    ∧ (State.reset.channel 0 3).offline = false ∧ (State.reset.channel 0 3).xfer = none ∧ 19 % 16 = 3
    ∧ ({ folded := some true } : Channel).folded ≠ none
    ∧ ([(16, 0), (15, 64), (15, 63)].filter fun y : Nat × Nat => decide (y.1 < 16 ∧ y.2 < 64)) = [(15, 63)]
    ∧ ([(31, 31), (31, 32)].filter fun y : Nat × Nat => decide (y.1 < 32 ∧ y.2 < 64) && (decide (32 ≤ y.2) == true)) = [(31, 32)] := by
  decide +kernel
theorem test_fourth_failure_folds :
    let v : VbusTransfer := ⟨0, 3, true, 19, List.range' 304 8, [(7, 40)], [], []⟩
    let s := { State.reset with
      choice := { vbus := v }, halls := [(0, { Hall.reset with channels := [(3, { xfer := some ⟨true, 19, List.range' 304 8, 3, 7, 40⟩ })] })] }
    (after .vbusTransferReceived s).channel 0 3 = { folded := some false, xfer := some ⟨true, 19, List.range' 304 8, 0, 0, 0⟩ } := by decide +kernel
theorem test_scrub_uncorrectable :
    let s := after .patrolScrub { State.reset with choice := { offset := 64, syndrome := 3 } }
    s.sectorPoisoned 64 = true ∧ (s.hall 0).aelUncorrectable = 1 := by decide +kernel

theorem witness_PowerHeatFatal :
    State.reset.now < State.reset.cp.windowEnd ∧ State.reset.cp.windowEnd ≤ 2 ^ 20
    ∧ (∃ y ∈ [(0, ({ Hall.reset with temp := 1680 } : Hall))], 1680 ≤ y.2.temp.toNat)
    ∧ ¬ (∃ y ∈ State.reset.halls, 1680 ≤ y.2.temp.toNat) ∧ State.reset.cp.fatal = false := by decide +kernel
theorem test_hot_sensor : (after .temperatureTrip { State.reset with choice := { reading := 1680 } }).cp.level = 3 := by decide +kernel
theorem test_flow_loss : (after .coolantFlowLoss { State.reset with choice := { reading := 1999 } }).cp.fatal = true := by
  decide +kernel
theorem test_power_window_falls :
    (after .throttleWindow { State.reset with
      now := 2 ^ 20, cp := { level := 2 }, choice := { reading := 4559, bytes := [] } }).cp.level = 1 := by decide +kernel

theorem witness_Resets :
    State.reset.cp.fw0.verified = true ∧ State.reset.cp.fw1.verified = false ∧ State.reset.cp.waiting = []
    ∧ tsorted State.reset.cp.journal = true ∧ (∀ y ∈ State.reset.cp.journal, y.2.seq % 2 ^ 18 = y.1) := by decide +kernel
theorem test_cold_reset_without_image :
    (after .coldReset { State.reset with cp := { fw0 := {} } }).cp.bootStat = 0x81 := by decide +kernel
theorem test_warm_reset_keeps_the_clock :
    let s := after .warmReset { one t7 with now := 77 }
    s.now = 77 ∧ s.cells = [] := by decide +kernel

/-! ## Steps -/

/-- A task at a word of the store. -/
def stepping (w : Word) (pc : BitVec 10 := 0) : State :=
  one { t7 with pc := pc } fun c => { c with v0 := { c.v0 with code := [(0, w), (511, 1)] } }

theorem witness_StepRunsDecoded :
    let s := stepping 0x0000828C00000000
    s.turns = [] ∧ s.issues 32 = true ∧ NextIn s 32 0 ∧ tget (s.cell 32).tasks 0 = some t7 ∧ t7.abandoned = false
    ∧ t7.pc.toNat < 512 ∧ decode 0x0000828C00000000 = .instr (.add 4 (.s 5) (.s 6)) ∧ ¬ 32 % 1024 < 32 ∧ 31 % 1024 < 32
    ∧ (∀ k, ¬ NextIn State.reset 32 k) := by
  refine ⟨by decide, by decide, ⟨0, by decide, by decide, ⟨t7, by decide, by decide⟩, by decide⟩, by decide, by decide, by decide,
    by decide, by decide, by decide, ?_⟩
  rintro k ⟨d, -, -, ⟨t, h, -⟩, -⟩
  cases h
theorem test_step_add : (taskOf (stepped (stepping (wordOf 0 0 [(45, 3), (39, 1), (33, 2)])))).reg 3 = 4 := by decide
theorem test_step_past_the_store : (taskOf (stepped (stepping 0 512))).trapCause = 0x01 := by decide
theorem test_step_reserved : (taskOf (stepped (stepping (wordOf 2 0 [(0, 1)])))).trapCause = 0x02 := by decide
theorem test_step_idle : (stepped State.reset).now = 1 := by decide

/-- CyclePasses: nothing to issue, no WAITF; and a WAITF that is due. -/
theorem witness_CyclePasses :
    State.reset.turns = [] ∧ ({ State.reset with cp := { fatal := true } } : State).issues 0 = false ∧ State.reset.phcFrac < 2 ^ 32
    ∧ (∀ x ∈ (one t7).cells, ∀ y ∈ x.2.tasks, y.2.wait = .none) ∧ ¬ (256 : Nat) < 0 + 256 := by decide

/-- EveryFormAnswers: a task at the focus, and a form that no word encodes. -/
theorem witness_EveryFormAnswers : (one t7).task (one t7).here = some t7 ∧ encode .tokenArrival = none := by decide

theorem witness_TurnsExecute :
    ({ State.reset with turns := [.event .waittWake {}] } : State).turns = .event .waittWake {} :: []
    ∧ (none : Option MsgReq) ≠ some .reserved
    ∧ encode .waittWake = none ∧ msgInstr (msg 0x0B 0) ≠ none ∧ msgInstr (msg 0x3F 0) = none ∧ (tok 0).route = .channel
    ∧ ({ State.reset with turns := [.tick] } : State).turns = .tick :: [] := by decide +kernel

theorem witness_EncodedInstructionsDecode :
    Instr.wellFormed (.add 4 (.s 5) (.s 6)) = true ∧ encode (.add 4 (.s 5) (.s 6)) = some 0x0000828C00000000
    ∧ msgOp (.mld (msg 1 0)) = some (1, msg 1 0) ∧ Instr.wellFormed (.mld (msg 1 0)) = true
    ∧ cmdOf (.launch (cmd 2)) = some (2, cmd 2) ∧ Instr.wellFormed (.launch (cmd 2)) = true := by decide

theorem witness_HomeWrites : (0x1000 + 8 - 1) / 4096 = 0x1000 / 4096 ∧ State.reset.offline 0x1000 = false := by decide
theorem witness_StepKeepsMemories : State.reset.wf = true ∧ step State.reset = .next (stepped State.reset) := by
  refine ⟨by decide, ?_⟩
  rfl

/-! ## Exact numbers -/

/-- Values of a block: 32 ones, of which the greatest exponent is 0; and a block with a NaN. -/
def ones : List Ev := List.replicate 32 (.num false 1 0)
theorem ones_top (k : Int) : TopIs ones 0 ∧ TopIs (ones.map (clampedTo 0x08 k)) 0 := by
  have h : ∀ x ∈ ones, x = Ev.num false 1 0 := fun x hx => List.eq_of_mem_replicate hx
  have m : ones.map (clampedTo 0x08 k) = ones := by simp [ones, clampedTo]
  rw [m]
  have t : TopIs ones 0 :=
    ⟨⟨.num false 1 0, by decide, by norm_num [ratOf]⟩, fun x hx => by rw [h x hx]; norm_num [ratOf]⟩
  exact ⟨t, t⟩

/-- FormatValues, RoundingModes (5/4 lies between two codes of E2M1, 8 past its largest), PrefixRounding (an integer, a float,
an infinity), and of the elements of Q4A a value below, between and above (QuantisedBlocks). -/
theorem witness_RoundingModes :
    magValue 2 1 2 ≤ (5 / 4 : ℚ) ∧ (5 / 4 : ℚ) < magValue 2 1 3 ∧ magValue 2 1 8 ≤ (8 : ℚ)
    ∧ q4Table 0 ((q4Order 0).getD 0 0) ≤ (-13 / 2 : ℚ) ∧ (-13 / 2 : ℚ) < q4Table 0 ((q4Order 0).getD 1 0)
    ∧ (-8 : ℚ) ≤ q4Table 0 ((q4Order 0).getD 0 0) ∧ q4Table 0 ((q4Order 0).getD 14 0) ≤ (9 : ℚ) := by
  norm_num [magValue, q4Table, q4Order]
theorem witness_FormatValues : (11 : Nat) < 2 ^ 4 ∧ (254 : Nat) < 255 ∧ floatFmt 0x05 = some ⟨5, 2, 0⟩ := by decide
theorem witness_PrefixRounding :
    prefixOk 0 8 4 = true ∧ prefixOk 6 16 9 = true ∧ 16 = storedPlanes 6 0 ∧ (0x7F80 : Nat) < 2 ^ 16
    ∧ (0x7F80 % 2 ^ 15 / 2 ^ (16 - 1 - 8) : Nat) = 2 ^ 8 - 1 ∧ (0 % 2 ^ 15 / 2 ^ (16 - 1 - 8) : Nat) ≠ 2 ^ 8 - 1 := by decide
theorem witness_QuantisedBlocks :
    ones.length = 32 ∧ (∀ x ∈ ones, x.finite = true) ∧ (∃ x ∈ Ev.nan :: ones.tail, x.finite = false)
    ∧ (∀ x ∈ List.replicate 32 (Ev.num false 0 0), x = .num false 0 0) ∧ (255 : Nat) < 256 ∧ (191 : Nat) % 64 = 63 := by
  refine ⟨by decide, by decide, ⟨.nan, by decide, rfl⟩, fun x hx => List.eq_of_mem_replicate hx, by decide, by decide⟩

/-- AccumulatorWords: 0 + 1 is kept at exponent 0, the first it may have. -/
theorem witness_AccumulatorWords : |exactInt ((((0 : Int) : ℚ) * 2 ^ (0 : Int) + ((1 : Int) : ℚ) * 2 ^ (0 : Int)) * 2 ^ (-(0 : Int))) 0 0|
    ≤ (2 ^ 47 - 1 : Int) := by
  norm_num [exactInt]
theorem test_add_words_exact : addAw false (2 ^ 47 - 1, 0) 1 0 = ((2 ^ 46, 1), false) := by decide +kernel

/-- ProductsOfBlocks: the pairs of `floats`, of whose operands neither is an integer one. -/
theorem witness_ProductsOfBlocks :
    let p := floats.cell0.pair 0
    ¬(p.fmtA ≤ 1 ∧ p.fmtB ≤ 1) ∧ 2 ≤ p.fmtA ∧ p.fmtA ≤ 0x0E ∧ 2 ≤ p.fmtB ∧ p.fmtB ≤ 0x0E ∧ 2 ≤ p.pb
    ∧ RowsOpen floats (operandRows 0 p.fmtA p.pa ++ rowsFrom 16 (groupRows p.fmtB p.pb * ((8 * 64 + 1023) / 1024)) ++ []) := by
  unfold RowsOpen
  decide

/-! ## Memory and messages -/

/-- CacheInstructions and SplitChanges, with a dirty byte in L1 that a plain load reads. -/
theorem witness_CacheInstructions_dirty :
    let s := mapped tm {} fun c => { c with split := 4, l1 := [(0x10020, { dirty := [(8, (0x5A, 0))] })] }
    (s.gcTable (galleryOf 32)).length + s.cell0.l1.length + 1 ≤ 8192 ∧ (s.cell0.l1.map (·.1)).Nodup
    ∧ (tget (s.l1Line 32 0x10020).dirty 8).map (·.1) = some 0x5A ∧ isHost (128 * 0x10020 + 8) = false := by decide +kernel
theorem test_l1_wb_reaches_the_gallery :
    let s := mapped tm {} fun c => { c with split := 4, l1 := [(0x10020, { dirty := [(8, (0x5A, 0))] })] }
    let s' := after (.l1Wb ⟨0, false⟩ (.s 1)) s
    (s'.readAt 32 0x801008 1 (some .gallery)).2 = 0x5A ∧ (s'.l1Line 32 0x10020).dirty = [] := by decide +kernel

/-- MBAR at a version that its configuration has left; an instruction in flight that reads the element's row; a promotion
request where issue is stopped. -/
theorem witness_MessagesWithoutHandler_left :
    let s := arriving (msg 0x15 0) (some (.bar (waits 40 3))) .empty fun c => { c with v0 := { c.v0 with epochOpen := true } }
    (s.version 32 false).state = .empty ∧ (s.version 32 false).epochOpen = true ∧ (s.version 32 false).owner = some (0, 0)
    ∧ (arriving (msg 1 1) none .live fun c => { c with flights := [⟨.lane, 9, [.row 1], []⟩] }).cell0.elemsHeld 0 entry4 [1] = true := by
  decide
theorem witness_ModuleMessages_stopped :
    let p := arriving (msg 0x0B 0) (some (.prom (asks 40))) .live fun c => { c with issueStopped := true }
    Arrives p (msg 0x0B 0) 40 0 (some (.prom (asks 40))) ∧ p.cell0.issueStopped = true ∧ p.cell0.prom = none := by
  unfold Arrives
  decide
theorem test_mld_waits_for_a_reader :
    let s := arriving (msg 1 1) none .live fun c => { c with flights := [⟨.lane, 9, [.row 1], []⟩] }
    (after (.mld (msg 1 1)) s).net.length = 1 := by decide

/-! ## Commands -/

/-- A command of context 0 that waits for the live command that names it, and a WRITE to host memory. -/
theorem witness_MayStart :
    Ready (hosted { nextSeq := 2, live := [(1, 6, 0)] }) ∧ ¬ MayStart (hosted { nextSeq := 2, live := [(1, 6, 0)] }) (cmd 3 0)
    ∧ (accepted hosted (cmd 6 0xFFFF (2 ^ 47) 0x2000 0 4)).cmdPieces (cmd 6 0xFFFF (2 ^ 47) 0x2000 0 4) true ≠ none
    ∧ cmdForm (cmd 6 0xFFFF (2 ^ 47) 0x2000 0 4) = .write ∧ InHost (cmd 11 0) 64 := by
  unfold Ready MayStart InHost
  decide +kernel

/-- A node whose version is LOADING, which holds bank and handler commands and a RESUME. -/
theorem witness_held_commands :
    let s : State := { hosted with
      cfgs := [(0, { spec := config (some 64) [ported], state := .loading, places := [⟨0, 32, false, 0⟩], loadingCells := [32] })] }
    (accepted s (cmd 6 0)).nodeLoading 0 0 = true ∧ (accepted hosted (cmd 6 0)).nodeLoading 0 0 = false := by decide
theorem test_bank_read_waits :
    let s : State := { hosted with
      cfgs := [(0, { spec := config (some 64) [ported], state := .loading, places := [⟨0, 32, false, 0⟩], loadingCells := [32] })] }
    (after (.bankRead { cmd 7 0 with arg := 2 ^ 63, len := 128, maddr := 1 }) s).cp.held.length = 1 := by decide +kernel

/-! ## Arrivals -/

/-- An external edge. -/
def edge40 : Nat × Nat × Nat := (3, 7, 0)

/-- Late and ExternalArrivals, EndOfStream: an edge that has ended on a port that another still feeds; a configuration that has
left its version; a port that has no external binding. -/
theorem witness_Late :
    Late { node := 0, port := 0, external := true, endedEdges := [edge40] } { tok 0 with edge := some edge40 }
    ∧ ¬ Late { node := 0, port := 0, external := true, endedEdges := [edge40] } (tok 0)
    ∧ (∃ v ∈ [((flow [] {} .empty (g := fun c => { c with v0 := { c.v0 with epochOpen := true } })).cell0).v0],
        v.epochOpen = true ∧ v.owner = some ((tok 0).ctx, 0))
    ∧ ((flow [] { role := .storer }).version 32 false).bindingsOf 0 2 = [] := by
  refine ⟨.inr ⟨edge40, rfl, by decide⟩, ?_, ⟨_, List.mem_cons_self .., by decide⟩, by decide⟩
  rintro (h | ⟨e, h, -⟩) <;> cases h
theorem test_second_eos_of_an_edge_is_late :
    let t : Token := { tok 0 with edge := some edge40 }
    (after .tokenArrival (flow [⟨40, 32, .extToken t 0 0 0⟩] (f := fun b => { b with external := true, endedEdges := [edge40] }))).cell0.lateCnt
      = 1 := by decide

/-- A port that two forward edges feed stops with its second STOP (StopsOfNodes). -/
theorem witness_StopsOfNodes_two : ¬ [0, 0].count 0 ≤ [0].count 0 ∧ [0, 0].count 0 ≤ [0, 0].count (0 : Nat) := by decide

/-- A LOADING version keeps a RESUME token; an arrival that finds a version LOADING, or its configuration gone. -/
theorem witness_BarrierArrivals_held :
    let gone := flow [⟨40, 32, .token arrival none⟩] {} .empty (g := fun c => { c with v0 := { c.v0 with epochOpen := true } })
    ((controlled arrival {} .loading).version 32 false).state = .loading
    ∧ (gone.version 32 arrival.ver).state ≠ .loading ∧ (taken gone).leftBy 32 arrival.ctx = some 0
    ∧ (barrier 0 3).leftBy 32 arrival.ctx = none ∧ arrival.cmd = none := by decide
theorem witness_Retirements_switching :
    let s := retiring 4095 (looper 3) 33
    InNet { s with halls := [(0, { Hall.reset with switching := true })] } ⟨40, 33, .retire 0 4095 ⟨40, false, 0, 0, 0, none⟩ 0⟩
    ∧ (({ s with halls := [(0, { Hall.reset with switching := true })] } : State).hall (hallOf 33)).switching = true
    ∧ (s.hall (hallOf 33)).switching = false := by
  unfold InNet
  decide

/-! ## Interfaces of a configuration -/

/-- A LOADER and a STORER of one configuration on edge cell 0, the STORER held; a pass of the LOADER runs in neither. -/
theorem witness_InterfaceHeld_of_the_configuration :
    let s := { flow [] with
      cfgs := [(0, { spec := config (some 64) [spec 1 .loader, spec 2 .storer], state := .live })]
      cells := [(0, { v0 := { state := .live, owner := some (0, 0),
                              nodes := [{ gid := 1, role := .loader }, { gid := 2, role := .storer, heldSince := some 3 }] } })] }
    InterfaceHeld s 0 false 0 := by
  refine ⟨1, { gid := 2, role := .storer, heldSince := some 3 }, by decide, by decide, .inr ⟨?_, ?_⟩⟩
  · exact ⟨.loader, by decide, (0, 0), { spec := config (some 64) [spec 1 .loader, spec 2 .storer], state := .live }, spec 1 .loader, by decide,
      by decide, by decide, by decide⟩
  · exact ⟨.storer, by decide, (0, 0), { spec := config (some 64) [spec 1 .loader, spec 2 .storer], state := .live }, spec 2 .storer, by decide,
      by decide, by decide, by decide⟩

/-! ## Steps of the engines -/

/-- A request whose turn it is, alone in its queue. -/
def turning (r : Request) : State := { decodes { r with started := true } with turns := [.engineRow 0 5] }

def gatherDesc : Row :=
  image [(0, 2 * 2 ^ 33 + 2 * 2 ^ 35 + 2 ^ 43), (1, 1024), (3, 128 * 2 ^ 18 + 32), (4, 1), (7, 192 * 2 ^ 18 + 32), (8, 1), (11, 0x1000)]
/-- Two slices of 8 elements of which the second lies in the first one's margin. -/
def scatterDesc : Row :=
  image [(0, 2 ^ 48 + 2 * 2 ^ 33 + 2 * 2 ^ 35 + 2 ^ 43), (1, 8), (2, 8), (3, 128 * 2 ^ 18 + 32), (4, 1), (7, 192 * 2 ^ 18 + 32), (8, 1),
    (11, 0x1000)]
def emDesc (toElements : Bool) : Row :=
  image [(0, 2 * 2 ^ 33 + 2 * 2 ^ 35 + (if toElements then 0 else 2 ^ 37) + 2 ^ 43), (1, 64), (3, 128 * 2 ^ 18 + 32), (4, 64)
    , (7, 192 * 2 ^ 18 + 32), (8, 64)]

/-- EngineTurn of a request, as decide sees it. -/
theorem engineTurn {s : State} {r : Request} (h1 : s.turns = [.engineRow 0 5])
    (h2 : (s.queue 0 5).find? (fun y => decide (y.id = r.id)) = some r) (h3 : (s.queue 0 5).filter (·.started) = [r])
    (h4 : s.groups = []) (h5 : r.started = true ∧ r.heldSince = none ∧ r.cancelled = false) : EngineTurn s 0 5 r [] :=
  ⟨h1, h2, h3, fun g hg => absurd (h4 ▸ hg : g ∈ []) (by simp), h5⟩

/-- Index steps: of a gather, of the second slice of a scatter, and of one whose two slices meet. -/
theorem witness_EngineStepValues_index :
    let g : Request := { request .gather gatherDesc with started := true }
    let c : Request := { request .scatter scatterDesc with started := true, offs := [(0, 4)] }
    EngineTurn (turning g) 0 5 g [] ∧ EngineTurn (turning c) 0 5 c []
    ∧ Maps (turning g) none 0 0 (0x1000 + 4 * 0) .copy false 0x801000 (used (turning g) none 0 leaves0[0])
    ∧ (descOf gatherDesc).stepAt true [0] (sliceStarts g (descOf gatherDesc) true) 0 = some ⟨0, 0, 0, 0⟩
    ∧ (descOf gatherDesc).index = 0x1000 ∧ (descOf gatherDesc).inRange false 0 = true ∧ (descOf gatherDesc).inRange false 5 = false
    ∧ c.offs.length = 1 ∧ (descOf scatterDesc).slices = 2
    ∧ (descOf scatterDesc).overlap [4, 0] = true ∧ (descOf scatterDesc).overlap [40, 0] = false := by
  refine ⟨engineTurn rfl (by decide +kernel) (by decide +kernel) (by decide +kernel) ⟨rfl, rfl, rfl⟩,
    engineTurn rfl (by decide +kernel) (by decide +kernel) (by decide +kernel) ⟨rfl, rfl, rfl⟩,
    ⟨by decide, 0, leaves0[0], by decide +kernel, by decide +kernel, by decide +kernel, by decide +kernel, rfl⟩, by decide +kernel⟩
theorem test_gather_reads_its_index :
    ((stepped (turning { request .gather gatherDesc with started := true })).queue 0 5).map (·.offs) = [[(0, 0)]] := by decide +kernel

/-- Rows: of a gather with its index, a fill and a fill of words, the two ways of a transpose, and a row for a peer. -/
theorem witness_EngineStepValues_rows :
    let d := descOf gatherDesc
    let t := descOf (emDesc false)
    let e := descOf (emDesc true)
    let g : Request := { request .gather gatherDesc with offs := [(0, 0)] }
    d.stepAt true [0] (sliceStarts g d true) 0 = some ⟨0, 0, 0, 0⟩ ∧ d.d.kind = 2 ∧ d.s.kind = 2 ∧ tget g.offs 0 ≠ none
    ∧ bankCell d.d = 32 ∧ bankRow d.d 0 = 192 ∧ (turning g).cell0.engineRow 192 = true
    ∧ (turning g).cell0.engineRow 128 = true ∧ bankRow d.s 0 = 128
    ∧ d.words = true ∧ d.elems % 64 = 0
    ∧ (descOf (image [(0, 2 * 2 ^ 33 + 2 ^ 38 + 2 ^ 43), (1, 64), (7, 192 * 2 ^ 18 + 32), (8, 1)])).words = false
    ∧ t.dir = true ∧ t.s.kind = 2 ∧ t.p = 1 ∧ t.stepAt true [0] [(0, 0)] 0 = some ⟨0, 0, 0, 0⟩
    ∧ e.dir = false ∧ e.d.kind = 2 ∧ e.emStep (sliceStarts (request .transpose (emDesc true)) e true) 0 = some (0, 0, 0) := by
  decide +kernel
theorem test_fill_of_words :
    let r : Request := { request .fill copyDesc with started := true, b := 5 }
    ((stepped (turning r)).cell0.row 192).toNat / 2 ^ 64 % 2 ^ 64 = 5 := by decide +kernel
theorem test_transpose_to_elements :
    let r : Request := { request .transpose (emDesc true) with started := true }
    ((stepped (turning r)).cell0.row 192).toNat % 2 ^ 64 = 0x0100010000010001 := by decide +kernel

/-! ## Saves, links, memory errors, resets, cycles -/

/-- SavesAndDeadlines: a load of a task to save is on its way; ContextsEnd: the launch's number has been used;
ActivationsAndAcknowledgements: more than 50 ms have passed. -/
theorem witness_owed_and_late :
    let s := saving .saving fun c => { c with tasks := [(3, t7)], ops := [⟨4, 3, .load none none, 3, 0x1000, 0, .h, true⟩] }
    (∃ o ∈ s.cell0.ops, o.deferred = false ∧ ∃ t, tget s.cell0.tasks o.slot = some t ∧ t.ver = false)
    ∧ ((saving .exited).ctx 0).launch < (saving .exited).cp.nextSeq
    ∧ (activating true 62500002).cp.paused = some 1 ∧ 1 + 62500000 < (activating true 62500002).now
    ∧ ¬ 1 + 62500000 < (activating true 5).now ∧ (activating true 5).cp.queued = []
    ∧ ({ peer true with cp := { fatal := true } } : State).cp.fatal = true := by
  intro s
  refine ⟨⟨⟨4, 3, .load none none, 3, 0x1000, 0, .h, true⟩, by decide, by decide, t7, by decide, by decide⟩, by decide +kernel⟩
theorem test_save_waits_for_a_load :
    let s := saving .saving fun c => { c with tasks := [(3, t7)], ops := [⟨4, 3, .load none none, 3, 0x1000, 0, .h, true⟩] }
    ((after .cellSave s).cfg 0 0).map (·.state) = some .saving := by decide +kernel
theorem test_late_activation_does_not_end : (after .activationComplete (activating true 62500002)).cp.activation = some 1 := by
  decide +kernel

/-- PeerLinksFail: the last port that carries packets goes down, of whose request one row was acknowledged. -/
theorem witness_PeerLinksFail_last :
    let r := { request .remote fillDesc with sent := [5, 6], started := true }
    let s : State := { queued r with
      ports := (List.range 32).map fun k => (k, if k = 9 then { enabled := true } else { up := false }), choice := { acked := [(3, 1)] } }
    (∀ i < 32, (s.port i).up = false ∨ (s.port i).enabled = true)
    ∧ ((s.choice.acked.find? fun y => decide (y.1 = r.id)).map (·.2)).getD 0 = 1 ∧ 1 < r.sent.length
    ∧ (s.port 9).up = true ∧ r.ord = false ∧ ((queued r).port 9).up = true ∧ ((queued r).port 9).enabled = false := by
  decide +kernel

/-- MemoryIntegrity: a read that two misses have asked for, a write of the one dirty line of those given, a retry; a line that
the L2 holds dirty; a line of the transfer under way. -/
def missed (c : Channel) (home : Tbl Bool := []) : State :=
  { State.reset with now := 40, halls := [(0, { Hall.reset with channels := [(3, c)], home := home })] }

theorem witness_NextTransfer :
    NextTransfer (missed { misses := [(304, 10), (305, 26), (306, 27)] }) ⟨0, 3, false, 19, [], [], [], []⟩ ⟨false, 19, [304, 305], 0, 0, 0⟩
    ∧ NextTransfer (missed {} [(304, true), (305, false)]) ⟨0, 3, true, 19, [0, 1], [], [], []⟩ ⟨true, 19, [304], 0, 0, 0⟩
    ∧ NextTransfer (missed { xfer := some ⟨true, 19, [304], 2, 0, 5⟩ }) ⟨0, 3, true, 19, [], [(0, 7)], [], []⟩ ⟨true, 19, [304], 2, 0, 5⟩
    ∧ failuresOf {} ⟨0, 3, true, 19, [], [(0, 7), (1, 7)], [], []⟩ ⟨true, 19, [304], 2, 0, 5⟩ = [(0, 7)] := by
  have r : (missed { misses := [(304, 10), (305, 26), (306, 27)] }).channel 0 3 = { misses := [(304, 10), (305, 26), (306, 27)] } := by
    decide +kernel
  have w : (missed {} [(304, true), (305, false)]).channel 0 3 = {} := by decide +kernel
  have hm : ∀ k, tget ((missed {} [(304, true), (305, false)]).hall 0).home k = some true ↔ k = 304 := by
    intro k
    have : ((missed {} [(304, true), (305, false)]).hall 0).home = [(304, true), (305, false)] := by decide +kernel
    rw [this]
    simp only [tget]
    by_cases h : k = 304
    · subst h; decide
    · by_cases h' : k = 305
      · subst h'; decide
      · simp [h, h']
  refine ⟨⟨rfl, rfl, .inr ⟨by rw [r], rfl, rfl, rfl, by decide, by decide, fun _ => ?_, fun h => Bool.noConfusion h⟩⟩,
    ⟨rfl, rfl, .inr ⟨by rw [w], rfl, rfl, rfl, by decide, by decide, fun h => Bool.noConfusion h, fun _ k => ?_⟩⟩,
    ⟨rfl, rfl, .inl (by decide +kernel)⟩, by decide⟩
  · refine ⟨304, 10, [(305, 26), (306, 27)], by rw [r], by decide, by decide, fun k => ?_⟩
    rw [r]
    constructor
    · intro h
      simp only [List.mem_cons, List.not_mem_nil, or_false] at h
      rcases h with rfl | rfl
      · exact ⟨10, by decide, by decide, by decide⟩
      · exact ⟨26, by decide, by decide, by decide⟩
    · rintro ⟨a, h, -, ha⟩
      simp only [List.mem_cons, Prod.mk.injEq, List.not_mem_nil, or_false] at h
      rcases h with ⟨rfl, rfl⟩ | ⟨rfl, rfl⟩ | ⟨rfl, rfl⟩
      · decide
      · decide
      · exact absurd ha (by decide)
  · rw [hm k]
    constructor
    · intro h
      simp only [List.mem_cons, List.not_mem_nil, or_false] at h
      subst h
      exact ⟨⟨0, by decide, by decide⟩, rfl⟩
    · rintro ⟨-, rfl⟩
      decide
theorem witness_MemoryIntegrity_scrubs :
    tget ((missed {} [(304, true)]).hall 0).home 304 = some true
    ∧ ((missed { xfer := some ⟨true, 19, [304], 2, 0, 5⟩ }).channel 0 3).xfer.isSome = true
    ∧ (missed {}).cp.fatal = false ∧ (missed {}).sectorPoisoned (304 * 256) = false := by decide +kernel
theorem test_marker_scrubbed :
    (after .patrolScrub { State.reset with choice := { offset := 64, syndrome := 0x3FF } }).sectorPoisoned 64 = true := by
  decide +kernel

/-- ColdReset: an image whose version the fuses no longer admit; WarmReset: a live command, with its entry and without. -/
theorem witness_resets_of_the_cp :
    let c := (accepted (hosted { fw1 := { verified := true, secver := 5 }, fuseMin := 6 }) (cmd 3 0))
    ¬ ((hosted { fw1 := { verified := true, secver := 5 }, fuseMin := 6 }).cp.fuseMin ≤ 5)
    ∧ c.cp.live = [(1, 3, 0)] ∧ (∀ y ∈ c.cp.live, (c.entrySeq y.1).isSome = true) ∧ c.cp.queued = [] ∧ c.cp.waiting = []
    ∧ tsorted c.cp.journal = true ∧ ({ c with cp := { c.cp with journal := [] } } : State).entrySeq 1 = none := by decide +kernel
theorem test_warm_reset_fails_a_command_without_entry :
    let s := after .warmReset { hosted { nextSeq := 9, live := [(1, 3, 0)] } with now := 5 }
    (tget s.cp.journal 9).map (fun e => (e.code, e.status)) = some (0x80, 0x030A) := by decide +kernel

/-- CyclePasses: a cell that has an instruction to issue in this cycle. -/
theorem witness_CyclePasses_issues :
    let s := stepping 0x0000828C00000000
    (∃ x ∈ s.cells, ¬ (s.issues x.1 = false ∨ ∀ i, ¬ NextIn s x.1 i)) ∧ (∀ x ∈ s.cells, x.1 < 2 ^ 18)
    ∧ ({ s with turns := [.tick] } : State).turns = .tick :: [] ∧ s.cp.held = [] := by
  intro s
  obtain ⟨-, hi, hn, -⟩ := witness_StepRunsDecoded
  refine ⟨⟨(32, s.cell 32), List.mem_cons_self .., ?_⟩, ?_, rfl, rfl⟩
  swap
  · intro x hx
    rcases List.mem_cons.mp hx with rfl | hx
    · exact (by decide : 32 < 2 ^ 18)
    · cases hx
  rintro (h | h)
  · rw [hi] at h; cases h
  · exact h 0 hn
theorem test_issue_before_the_clock :
    (stepped { stepping (wordOf 0 0 [(45, 3), (39, 1), (33, 2)]) with turns := [.tick] }).now = 0 := by decide

/-- EndOfStream: an external edge ends with its own EOS, while its port has another edge; HoldsReleased: a version that is LOADING;
QueueServes: the hall's agent changes firmware. -/
theorem witness_EndOfStream_external :
    let t : Token := { tok 2 with kind := 3, aux := 3, pred := .true, edge := some edge40 }
    let b : Binding := { node := 0, port := 0, external := true, edges := 2, fifo := [t] }
    let s : State := { (flow []).updBinding 32 false 2 fun _ => b with choice := { cell := 32, rtag := 2 } }
    CtrlAt s 3 b t ∧ b.external = true ∧ t.edge = some edge40 ∧ (s.node 32 false 0).isSome = true
    ∧ (((s.endEdge 32 false 2 t).popHead).binding 32 false 2).map (fun y => (y.eos, y.ended)) = some (1, false)
    ∧ ((controlled (control 2 32) {} .loading).version 32 false).state = .loading
    ∧ ({ (popping 1).hall 0 with switching := true } : Hall).switching = true ∧ ((popping 1).hall 0).switching = false := by
  unfold CtrlAt
  decide

end Sys2Proof.Tests
end

/-! # The turns of events and packets, the passing of a cycle, the units that are free -/

/-! ## The clock: what no access of a cell moves (01:R26, R27) -/

namespace Sys2Proof.Machine

/-- CYC, the PHC and its rate word. -/
def State.clock (s : State) : Nat × BitVec 48 × Nat × Nat × Nat := (s.now, s.phcS, s.phcNs, s.phcFrac, s.rate)

@[simp] theorem State.clock_updCell (s : State) (c : Nat) (f : Cell → Cell) : (s.updCell c f).clock = s.clock := rfl
@[simp] theorem State.clock_updHall (s : State) (h : Nat) (f : Hall → Hall) : (s.updHall h f).clock = s.clock := rfl
@[simp] theorem State.clock_updCtx (s : State) (c : BitVec 10) (f : Ctx → Ctx) : (s.updCtx c f).clock = s.clock := rfl
@[simp] theorem State.clock_useFree (s : State) : s.useFree.clock = s.clock := rfl
@[simp] theorem State.clock_setTask (s : State) (r : TaskRef) (t : Task) : (s.setTask r t).clock = s.clock := rfl
@[simp] theorem State.clock_complete (s : State) (t : Task) : (s.complete t).clock = s.clock := rfl
@[simp] theorem State.clock_chrono (s : State) (h type word : Nat) : (s.chrono h type word).clock = s.clock := rfl
@[simp] theorem State.clock_logArray (s : State) (h kind finder syndrome offset : Nat) :
    (s.logArray h kind finder syndrome offset).clock = s.clock := rfl
@[simp] theorem State.clock_chronoLog (s : State) (h type bits : Nat) : (s.chronoLog h type bits).clock = s.clock := rfl
@[simp] theorem State.clock_writeByte (s : State) (a : Nat) (b : Byte) : (s.writeByte a b).clock = s.clock := rfl
@[simp] theorem State.clock_setSectorPoison (s : State) (a : Nat) (b : Bool) :
    (s.setSectorPoison a b).clock = s.clock := rfl
@[simp] theorem State.clock_staleWriteBacks (s : State) (a : Nat) : (s.staleWriteBacks a).clock = s.clock := rfl
@[simp] theorem State.clock_dirtyHome (s : State) (a : Nat) : (s.dirtyHome a).clock = s.clock := rfl
@[simp] theorem State.clock_setL1 (s : State) (c ln : Nat) (l : Line) : (s.setL1 c ln l).clock = s.clock := rfl
@[simp] theorem State.clock_setGc (s : State) (g ln : Nat) (l : Line) : (s.setGc g ln l).clock = s.clock := rfl
@[simp] theorem State.clock_setL2 (s : State) (h ln : Nat) (l : Line) : (s.setL2 h ln l).clock = s.clock := rfl

/-- A fold of steps that leave the clock leaves it. -/
theorem State.clock_each {α : Type} {f : State → α → State} (hf : ∀ t x, (f t x).clock = t.clock) (l : List α)
    (s : State) : (each l s f).clock = s.clock :=
  each_keeps (P := fun t : State => t.clock = s.clock) (fun t x ht => (hf t x).trans ht) l rfl

/-! ### Memory and the records of faults -/

@[simp] theorem State.clock_writeMem (s : State) (a n v : Nat) : (s.writeMem a n v).clock = s.clock := by
  induction n generalizing s a v with
  | zero => rfl
  | succ n ih => exact ih ..

@[simp] theorem State.clock_writeHost (s : State) (a n v : Nat) : (s.writeHost a n v).clock = s.clock := by
  induction n generalizing s a v with
  | zero => rfl
  | succ n ih => exact ih ..

@[simp] theorem State.clock_writeHome (s : State) (a n v : Nat) : (s.writeHome a n v).clock = s.clock := by
  unfold State.writeHome
  split
  · rfl
  · refine (State.clock_each (fun t i => ?_) _ _).trans (by simp)
    dsimp only
    split <;> simp

@[simp] theorem State.clock_missHome (s : State) (a : Nat) : (s.missHome a).clock = s.clock := by
  unfold State.missHome
  dsimp only
  generalize (_ || _ : Bool) = b
  cases b <;> rfl

@[simp] theorem State.clock_mergeHome (s : State) (ln : Nat) (d : Tbl (Byte × Nat)) (bad : BitVec 4) :
    (s.mergeHome ln d bad).clock = s.clock := by
  unfold State.mergeHome
  split
  · rfl
  · refine (State.clock_each (fun t k => ?_) _ _).trans
      ((State.clock_dirtyHome ..).trans (State.clock_each (fun t e => State.clock_writeByte ..) _ _))
    dsimp only
    repeat' split
    all_goals simp

@[simp] theorem State.clock_putEntry (s : State) (e : JEntry) : (s.putEntry e).clock = s.clock :=
  State.clock_writeHome { s with cp := { s.cp with journal := tput s.cp.journal (e.seq % journalSize) e } } ..

@[simp] theorem State.clock_updEntry (s : State) (k : Nat) (f : JEntry → JEntry) : (s.updEntry k f).clock = s.clock := by
  unfold State.updEntry
  split <;> simp

@[simp] theorem State.clock_writeAny (s : State) (pa n v : Nat) : (s.writeAny pa n v).clock = s.clock := by
  unfold State.writeAny
  split
  · exact State.clock_writeHost ..
  · exact State.clock_writeHome ..

@[simp] theorem State.clock_ringRecord (s : State) (c : BitVec 10) (b : Nat) : (s.ringRecord c b).clock = s.clock := by
  unfold State.ringRecord
  dsimp only
  repeat' split
  all_goals simp

@[simp] theorem State.clock_takeRecord (s : State) (l : Option Nat) (b : BitVec 256) :
    (s.takeRecord l b).clock = s.clock := by
  unfold State.takeRecord
  dsimp only
  repeat' split
  · rfl
  · exact State.clock_updEntry ..
  · exact State.clock_updEntry ..
  · rfl

@[simp] theorem State.clock_cpRecord (s : State) (c : BitVec 10) (b : Nat) : (s.cpRecord c b).clock = s.clock := by
  unfold State.cpRecord
  dsimp only
  split
  · rfl
  · exact State.clock_takeRecord ..

@[simp] theorem State.clock_record (s : State) (r : Record) : (s.record r).clock = s.clock := by
  simp [State.record]

@[simp] theorem State.clock_beginStop (s : State) (c : BitVec 10) : (s.beginStop c).clock = s.clock := by
  unfold State.beginStop
  dsimp only
  split <;> rfl

@[simp] theorem State.clock_nodeFault (s : State) (n : NodeRef) (c a i : Nat) : (s.nodeFault n c a i).clock = s.clock := by
  unfold State.nodeFault
  dsimp only
  split <;> simp

@[simp] theorem State.clock_raiseArray (s : State) (f : Option NodeRef) (i n a : Nat) :
    (s.raiseArray f i n a).clock = s.clock := by
  unfold State.raiseArray
  split <;> simp

@[simp] theorem State.clock_raiseOffline (s : State) (f : Option NodeRef) (a : Nat) :
    (s.raiseOffline f a).clock = s.clock := by
  unfold State.raiseOffline
  split <;> simp

/-! ### Caches -/

@[simp] theorem State.clock_dropL2 (s : State) (h ln : Nat) : (s.dropL2 h ln).clock = s.clock := by
  unfold State.dropL2
  repeat' split
  all_goals simp

@[simp] theorem State.clock_roomL2 (s : State) (h ln : Nat) : (s.roomL2 h ln).clock = s.clock := by
  unfold State.roomL2
  repeat' split
  all_goals simp

@[simp] theorem State.clock_mergeL2 (s : State) (h ln : Nat) (d : Tbl (Byte × Nat)) (bad : BitVec 4) :
    (s.mergeL2 h ln d bad).clock = s.clock := by
  unfold State.mergeL2
  split <;> simp

@[simp] theorem State.clock_fetchL2 (s : State) (h ln : Nat) : (s.fetchL2 h ln).clock = s.clock := by
  unfold State.fetchL2
  dsimp only
  split <;> simp

@[simp] theorem State.clock_l2Row (s : State) (h ln : Nat) : (s.l2Row h ln).1.clock = s.clock := by
  unfold State.l2Row
  dsimp only
  repeat' split
  all_goals simp

@[simp] theorem State.clock_dropGc (s : State) (g ln : Nat) : (s.dropGc g ln).clock = s.clock := by
  unfold State.dropGc
  dsimp only
  split <;> simp

@[simp] theorem State.clock_roomGc (s : State) (g ln : Nat) : (s.roomGc g ln).clock = s.clock := by
  unfold State.roomGc
  dsimp only
  repeat' split
  all_goals simp

@[simp] theorem State.clock_mergeGc (s : State) (g ln : Nat) (d : Tbl (Byte × Nat)) (bad : BitVec 4) :
    (s.mergeGc g ln d bad).clock = s.clock := by
  simp [State.mergeGc]

@[simp] theorem State.clock_gcRow (s : State) (g ln : Nat) : (s.gcRow g ln).1.clock = s.clock := by
  unfold State.gcRow
  dsimp only
  split <;> simp

@[simp] theorem State.clock_dropL1 (s : State) (c ln : Nat) : (s.dropL1 c ln).clock = s.clock := by
  unfold State.dropL1
  dsimp only
  split <;> simp

@[simp] theorem State.clock_roomL1 (s : State) (c ln : Nat) : (s.roomL1 c ln).clock = s.clock := by
  unfold State.roomL1
  dsimp only
  repeat' split
  all_goals simp

@[simp] theorem State.clock_cellRow (s : State) (c ln : Nat) : (s.cellRow c ln).1.clock = s.clock := by
  unfold State.cellRow
  dsimp only
  repeat' split
  all_goals simp

@[simp] theorem State.clock_cleanL1 (s : State) (c ln : Nat) : (s.cleanL1 c ln).clock = s.clock := by
  unfold State.cleanL1
  dsimp only
  split <;> simp

@[simp] theorem State.clock_cleanGc (s : State) (g ln : Nat) (who : Nat → Bool) : (s.cleanGc g ln who).clock = s.clock := by
  unfold State.cleanGc
  dsimp only
  split <;> simp

@[simp] theorem State.clock_cleanL2 (s : State) (h ln : Nat) (who : Nat → Bool) : (s.cleanL2 h ln who).clock = s.clock := by
  unfold State.cleanL2
  dsimp only
  split <;> simp

/-! ### Reads of a cell -/

@[simp] theorem State.clock_pushLine (s : State) (c ln : Nat) (sc : Scope) : (s.pushLine c ln sc).clock = s.clock := by
  unfold State.pushLine
  dsimp only
  repeat' split
  all_goals simp

@[simp] theorem State.clock_pointRow (s : State) (c ln : Nat) (sc : Scope) : (s.pointRow c ln sc).1.clock = s.clock := by
  cases sc <;> simp [State.pointRow]

@[simp] theorem State.clock_readAt (s : State) (c pa n : Nat) (sc : Option Scope) : (s.readAt c pa n sc).1.clock = s.clock := by
  unfold State.readAt
  split
  · rfl
  · cases sc <;> simp

@[simp] theorem State.clock_acquire (s : State) (c : Nat) (sc : Scope) : (s.acquire c sc).clock = s.clock := by
  unfold State.acquire
  dsimp only
  repeat' split
  all_goals rfl

/-- A read of a WAITF leaves the clock where what follows a read that does not end the wait leaves it. -/
theorem State.clock_waitRead (s : State) (t : Task) (c : WaitCond) (scope : Scope) (sd : BitVec 5) (pa : Nat) (b : Word)
    {k : State → Task → Wait → State} (hk : ∀ u t w, (k u t w).clock = u.clock) :
    (s.waitRead t c scope sd pa b k).clock = s.clock := by
  unfold State.waitRead
  dsimp only
  split <;> simp [hk]

theorem State.clock_asTask (s : State) (cell slot : Nat) {f : State → Task → State} (hf : ∀ u t, (f u t).clock = u.clock) :
    (s.asTask cell slot f).clock = s.clock := by
  unfold State.asTask
  dsimp only
  split
  · exact hf ..
  · rfl

/-- WAITF_REREAD leaves the clock (17:R255). -/
theorem clock_of_execWaitfReread {s t : State} (h : execWaitfReread s = .next t) : t.clock = s.clock := by
  unfold execWaitfReread at h
  cases h
  refine State.clock_asTask _ _ _ fun u x => ?_
  split
  · split
    · rfl
    · exact State.clock_waitRead _ _ _ _ _ _ _ fun u t w => State.clock_setTask ..
  · rfl

end Sys2Proof.Machine

/-! ## Which slot of a cell issues (05:R67) -/

namespace Sys2Proof.Machine

open Sys2Proof.Claims

/-- The slot holds a task that may issue. -/
def State.mayIssue (s : State) (cell i : Nat) : Bool := (tget (s.cell cell).tasks i).any (s.runnable cell)

theorem State.mayIssue_eq_true_iff (s : State) (cell i : Nat) :
    s.mayIssue cell i = true ↔ ∃ t, tget (s.cell cell).tasks i = some t ∧ s.runnable cell t = true :=
  Option.any_eq_true ..

theorem State.nextSlot_eq (s : State) (cell : Nat) :
    s.nextSlot cell = if s.issues cell then
      ((upTo 8).find? fun d => s.mayIssue cell (((s.cell cell).rr + 1 + d) % 8)).map fun d => ((s.cell cell).rr + 1 + d) % 8
    else none := by
  have hmay : (fun i => match tget (s.cell cell).tasks i with | some t => s.runnable cell t | none => false)
      = s.mayIssue cell := by
    funext i
    unfold State.mayIssue
    cases tget (s.cell cell).tasks i <;> rfl
  unfold State.nextSlot
  simp only [List.find?_map]
  rw [← hmay]
  rfl

theorem nextIn_iff (s : State) (cell k : Nat) :
    NextIn s cell k ↔ ∃ d < 8, k = ((s.cell cell).rr + 1 + d) % 8 ∧ s.mayIssue cell k = true
      ∧ ∀ e < d, s.mayIssue cell (((s.cell cell).rr + 1 + e) % 8) = false := by
  simp only [NextIn, ← State.mayIssue_eq_true_iff, Bool.not_eq_true]

/-- Round robin finds the slot that the claims name. -/
theorem State.nextSlot_eq_some_iff (s : State) (cell k : Nat) :
    s.nextSlot cell = some k ↔ s.issues cell = true ∧ NextIn s cell k := by
  rw [State.nextSlot_eq, nextIn_iff]
  cases s.issues cell with
  | false => simp
  | true =>
    simp only [if_true, Option.map_eq_some_iff, upTo, List.find?_range_eq_some, List.mem_range, true_and]
    constructor
    · rintro ⟨d, ⟨hmay, hd, hfirst⟩, rfl⟩
      exact ⟨d, hd, rfl, hmay, fun e he => by simpa using hfirst e he⟩
    · rintro ⟨d, hd, rfl, hmay, hfirst⟩
      exact ⟨d, ⟨hmay, hd, fun e he => by simpa using hfirst e he⟩, rfl⟩

theorem State.nextSlot_eq_none_iff (s : State) (cell : Nat) :
    s.nextSlot cell = none ↔ s.issues cell = false ∨ ∀ k, ¬ NextIn s cell k := by
  rw [Option.eq_none_iff_forall_ne_some]
  simp only [ne_eq, State.nextSlot_eq_some_iff, not_and]
  cases s.issues cell <;> simp

/-- The turns that remain have no part in the issue of a cell. -/
theorem State.nextSlot_turns (s : State) (r : List Turn) (cell : Nat) :
    ({ s with turns := r } : State).nextSlot cell = s.nextSlot cell := rfl

theorem State.issueOf_eq_none {s : State} {cell : Nat} (h : s.nextSlot cell = none) : s.issueOf cell = none := by
  unfold State.issueOf
  rw [h]

/-- A cell that has a slot to issue from makes a move. -/
theorem State.issueOf_isSome {s : State} {cell : Nat} (hc : cell < 2 ^ 18) (h : s.nextSlot cell ≠ none) :
    (s.issueOf cell).isSome = true := by
  obtain ⟨k, hk⟩ := Option.ne_none_iff_exists'.mp h
  obtain ⟨-, d, -, -, ⟨t, ht, -⟩, -⟩ := (s.nextSlot_eq_some_iff cell k).mp hk
  have htask : ({ s with focus := BitVec.ofNat 18 cell, slot := k } : State).task
      ({ s with focus := BitVec.ofNat 18 cell, slot := k } : State).here = some t := by
    change tget (s.cell (BitVec.ofNat 18 cell).toNat).tasks k = some t
    rwa [BitVec.toNat_ofNat, Nat.mod_eq_of_lt hc]
  unfold State.issueOf
  rw [hk]
  dsimp only
  rw [htask]
  dsimp only
  split
  · rfl
  · split <;> rfl

/-! ## The moves of turns (05:R62; 09:R154 to R156; 19:R306) -/

/-- What the next step makes of a move. -/
def Todo.outcome : Todo → Host.Outcome State Fault Refusal
  | .run i s => exec i s
  | .done s => .next s

theorem step_eq_outcome (s : State) : step s = s.todo.outcome := by
  unfold step
  cases s.todo <;> rfl

/-- A message's arrival is its step, unless it has none or a reserved bit is set. -/
theorem Packet.event_msg {p : Packet} {m : Msg} {ctx : BitVec 10} {req : Option MsgReq} (h : p.body = .msg m ctx req) :
    p.event = if req = some .reserved then none else msgInstr m := by
  unfold Packet.event
  rw [h]

theorem State.deliver_of_event {s : State} {n : Nat} {p : Packet} {i : Instr} (hp : s.net[n]? = some p)
    (hi : p.event = some i) : s.deliver n = .run i { s with choice := { s.choice with n := n } } := by
  unfold State.deliver
  rw [hp]
  dsimp only
  rw [hi]

theorem State.deliver_of_no_event {s : State} {n : Nat} {p : Packet} (hp : s.net[n]? = some p) (hi : p.event = none) :
    s.deliver n = .done (s.dropBad n) := by
  unfold State.deliver
  rw [hp]
  dsimp only
  rw [hi]

theorem State.deliver_past_net {s : State} {n : Nat} (hn : s.net.length ≤ n) : s.deliver n = .done s := by
  unfold State.deliver
  rw [List.getElem?_eq_none hn]

theorem ldel_eq_eraseIdx {α : Type} (l : List α) (n : Nat) : ldel l n = l.eraseIdx n := by
  induction l generalizing n with
  | nil => rfl
  | cons x r ih =>
    cases n with
    | zero => rfl
    | succ n => exact congrArg (x :: ·) (ih n)

/-- A dropped message leaves the network with an entry of the chronograph, and nothing else (09:R156). -/
theorem State.dropBad_eq_chronoAt {s : State} {n : Nat} {p : Packet} {m : Msg} {ctx : BitVec 10} {req : Option MsgReq}
    (hp : s.net[n]? = some p) (hb : p.body = .msg m ctx req) :
    ∃ detail, s.dropBad n = (s.takePacket n).chronoAt m.dst.toNat 0x05 detail m.ver := by
  obtain ⟨src, dst, body⟩ := p
  cases hb
  unfold State.dropBad
  rw [hp]
  dsimp only
  split
  · exact ⟨_, rfl⟩
  · exact ⟨_, rfl⟩

theorem State.dropBad_frame {s : State} {n : Nat} {p : Packet} {m : Msg} {ctx : BitVec 10} {req : Option MsgReq}
    (hp : s.net[n]? = some p) (hb : p.body = .msg m ctx req) :
    (s.dropBad n).net = s.net.eraseIdx n ∧ (s.dropBad n).mem = s.mem ∧ (s.dropBad n).cells = s.cells := by
  obtain ⟨detail, h⟩ := State.dropBad_eq_chronoAt hp hb
  rw [h]
  exact ⟨ldel_eq_eraseIdx .., rfl, rfl⟩

theorem step_of_event_turn {s : State} {r : List Turn} {i : Instr} {x : Choice} (hs : s.turns = .event i x :: r)
    (hi : encode i = none) : step s = exec i { s with turns := r, choice := x } := by
  rw [step_eq_outcome]
  unfold State.todo
  rw [hs]
  simp [hi, Todo.outcome]

theorem step_of_deliver_turn {s : State} {r : List Turn} {n : Nat} (hs : s.turns = .deliver n :: r) :
    step s = (({ s with turns := r } : State).deliver n).outcome := by
  rw [step_eq_outcome]
  unfold State.todo
  rw [hs]

theorem step_of_arrival {s : State} {r : List Turn} {n : Nat} {p : Packet} {i : Instr} (hs : s.turns = .deliver n :: r)
    (hp : s.net[n]? = some p) (hi : p.event = some i) :
    step s = exec i { s with turns := r, choice := { s.choice with n := n } } := by
  rw [step_of_deliver_turn hs, State.deliver_of_event (s := { s with turns := r }) hp hi]
  rfl

theorem step_of_issue_turn {s : State} {r : List Turn} {c : CellId} (hs : s.turns = .issue c :: r) :
    step s = ((({ s with turns := r } : State).issueOf c.toNat).getD (.done { s with turns := r })).outcome := by
  rw [step_eq_outcome]
  unfold State.todo
  rw [hs]

theorem turnsExecute : TurnsExecute := by
  intro s r
  refine ⟨fun i x hs hi => step_of_event_turn hs hi, fun n p hs hp => ⟨?_, ?_, ?_, ?_⟩, fun n hs hn => ?_⟩
  · intro m ctx req i hb hreq hi
    exact step_of_arrival hs hp ((Packet.event_msg hb).trans ((if_neg hreq).trans hi))
  · intro m ctx req hb hdrop
    have hnone : p.event = none := by
      rw [Packet.event_msg hb]
      rcases hdrop with hm | hreq
      · simp [hm]
      · simp [hreq]
    refine ⟨({ s with turns := r } : State).dropBad n, ?_, State.dropBad_frame (s := { s with turns := r }) hp hb⟩
    rw [step_of_deliver_turn hs, State.deliver_of_no_event (s := { s with turns := r }) hp hnone]
    rfl
  · intro k e hb hroute
    exact step_of_arrival hs hp (by simp [Packet.event, hb, hroute])
  · intro e hb
    exact step_of_arrival hs hp (by simp [Packet.event, hb])
  · rw [step_of_deliver_turn hs, State.deliver_past_net (s := { s with turns := r }) hn]
    rfl

/-! ## Instructions whose time is over (13:R215, 15:R216) -/

theorem State.cell_updCell (s : State) (c k : Nat) (f : Cell → Cell) :
    (s.updCell c f).cell k = if k = c then f (s.cell c) else s.cell k := tgetD_tput ..

/-- A cell without the instructions whose time is over. -/
def Cell.dropFinished (now : Nat) (c : Cell) : Cell := { c with flights := c.flights.filter fun f => now < f.until_ }

theorem execInFlightInstructionComplete_eq (s : State) :
    exec .inFlightInstructionComplete s = .next (s.updCell s.choice.cell.toNat (Cell.dropFinished s.now)) := rfl

theorem unitsFree : UnitsFree := by
  intro s cell
  have hcell : (s.updCell cell (Cell.dropFinished s.now)).cell cell = (s.cell cell).dropFinished s.now := by
    rw [State.cell_updCell, if_pos rfl]
  refine ⟨_, execInFlightInstructionComplete_eq s, fun f => ?_, ?_, fun d hd => ?_, rfl⟩
  · rw [hcell, Cell.dropFinished, List.mem_filter, decide_eq_true_eq]
  · rw [hcell]
    rfl
  · rw [State.cell_updCell, if_neg hd]

end Sys2Proof.Machine

/-! ## The cycle that passes: WAITF reads that are due, what is counted, and what begins (01:R26, R27; 17:R255) -/

namespace Sys2Proof.Machine

open Sys2Proof.Claims

theorem each_eq_self {α σ : Type} {f : σ → α → σ} {l : List α} {s : σ} (h : ∀ x ∈ l, f s x = s) : each l s f = s := by
  unfold each
  induction l with
  | nil => rfl
  | cons x r ih =>
    rw [List.foldl_cons, h x (List.mem_cons_self ..)]
    exact ih fun y hy => h y (List.mem_cons_of_mem _ hy)

theorem tget_map {α β : Type} (g : Nat → α → β) (t : Tbl α) (k : Nat) :
    tget (t.map fun x => (x.1, g x.1 x.2)) k = (tget t k).map (g k) := by
  induction t with
  | nil => rfl
  | cons e r ih =>
    simp only [List.map_cons, tget]
    split
    · next h => subst h; rfl
    · exact ih

theorem mem_of_tget {α : Type} {t : Tbl α} {k : Nat} {x : α} (h : tget t k = some x) : (k, x) ∈ t := by
  induction t with
  | nil => cases h
  | cons e r ih =>
    obtain ⟨j, y⟩ := e
    unfold tget at h
    split at h
    · next hk => subst hk; cases h; exact List.mem_cons_self ..
    · exact List.mem_cons_of_mem _ (ih h)

/-! ### WAITF reads that are due -/

/-- The read of a WAITF in a slot of a cell, made again before the cycle ends. -/
def State.rereadAt (cell : Nat) (s : State) (slot : Nat) : State :=
  match execWaitfReread { s with choice := { s.choice with cell := BitVec.ofNat 18 cell, slot := slot } } with
  | .next s' => { s' with choice := s.choice }
  | _ => s

/-- Every WAITF read that is due has been made. -/
def State.rereadDue (s : State) : State :=
  each s.cells s fun s x => each (x.2.waitfDue s.now) s (State.rereadAt x.1)

theorem State.tickDue_eq (s : State) : s.tickDue = s.rereadDue.tick := rfl

theorem State.clock_rereadAt (cell : Nat) (s : State) (slot : Nat) : (s.rereadAt cell slot).clock = s.clock := by
  unfold State.rereadAt
  split
  · next h => exact (clock_of_execWaitfReread h :)
  · rfl

theorem State.clock_rereadDue (s : State) : s.rereadDue.clock = s.clock := by
  unfold State.rereadDue
  refine State.clock_each (fun t x => ?_) _ _
  exact State.clock_each (State.clock_rereadAt x.1) _ _

theorem Cell.waitfDue_eq_nil {c : Cell} {now : Nat}
    (h : ∀ y ∈ c.tasks, ∀ w sc sd pa p b since, y.2.wait = .waitf w sc sd pa p b since → now < since + 256) :
    c.waitfDue now = [] := by
  unfold Cell.waitfDue
  rw [List.filterMap_eq_nil_iff]
  intro y hy
  split
  · next hw => exact if_neg (Nat.not_le.mpr (h y hy _ _ _ _ _ _ _ hw))
  · rfl

theorem State.rereadDue_eq_self {s : State} (h : ∀ x ∈ s.cells, x.2.waitfDue s.now = []) : s.rereadDue = s := by
  refine each_eq_self fun x hx => ?_
  rw [h x hx]
  rfl

/-! ### What a cycle counts -/

/-- The state after the clock has advanced and the cells have counted, before the next cycle begins. -/
def State.counted (s : State) : State :=
  { s.stepPhc with
    now := s.now + 1, cells := s.cells.map fun x => (x.1, s.countCell x.1 x.2)
    halls := s.halls.map fun x =>
      (x.1, if x.2.switching && decide (x.2.switchEnd ≤ s.now + 1) then { x.2 with switching := false, switched := true } else x.2)
    cp := if s.cp.level = 0 then s.cp else { s.cp with throttle := (s.cp.throttle + 1) % 2 ^ 64 } }

theorem State.tick_eq (s : State) : s.tick = s.counted.beginCycle := rfl

/-- A binding without the times for which its head has waited. -/
def Binding.uncounted (b : Binding) : Binding := { b with fullSince := none, fullRaised := false }

/-- A version without what a cycle counts. -/
def Version.uncounted (v : Version) : Version := { v with nodes := [], bindings := v.bindings.map Binding.uncounted }

/-- A cell without what a cycle counts. -/
def Cell.uncounted (c : Cell) : Cell := { c with v0 := c.v0.uncounted, v1 := c.v1.uncounted, vstall := 0, flights := [] }

theorem State.uncounted_countBinding (s : State) (cell : Nat) (ver : Bool) (b : Binding) :
    (s.countBinding cell ver b).uncounted = b.uncounted := by
  unfold State.countBinding
  split <;> rfl

theorem State.uncounted_countVersion (s : State) (cell : Nat) (ver : Bool) (v : Version) :
    (s.countVersion cell ver v).uncounted = v.uncounted := by
  have hb : (v.bindings.map (s.countBinding cell ver)).map Binding.uncounted = v.bindings.map Binding.uncounted := by
    rw [List.map_map]
    exact List.map_congr_left fun b _ => State.uncounted_countBinding ..
  exact congrArg (fun l => { v with nodes := [], bindings := l }) hb

theorem State.uncounted_countCell (s : State) (cell : Nat) (c : Cell) : (s.countCell cell c).uncounted = c.uncounted := by
  unfold State.countCell
  split
  · rfl
  · simp only [Cell.uncounted, State.uncounted_countVersion]

theorem State.uncounted_cell_counted (s : State) (k : Nat) : (s.counted.cell k).uncounted = (s.cell k).uncounted := by
  change (tgetD (s.cells.map fun x => (x.1, s.countCell x.1 x.2)) {} k).uncounted = (tgetD s.cells {} k).uncounted
  unfold tgetD
  rw [tget_map]
  cases tget s.cells k with
  | none => rfl
  | some c => exact State.uncounted_countCell ..

/-! ### How the next cycle begins (05:R66, 11:R180) -/

/-- The state without its cells and its counter of free values. -/
def State.outsideCells (s : State) : State := { s with cells := [], fresh := 0 }

/-- A cell without its slots and what waits for them. -/
def Cell.outsideSlots (c : Cell) : Cell := { c with tasks := [], readyFirings := [], freed := [] }

/-- Nothing but slots changes: a cell in which no firing waits keeps its tasks. -/
structure SlotsOnly (s t : State) : Prop where
  outside : t.outsideCells = s.outsideCells
  cells : ∀ k, (t.cell k).outsideSlots = (s.cell k).outsideSlots
  idle : ∀ k, (s.cell k).readyFirings = [] → (t.cell k).readyFirings = [] ∧ (t.cell k).tasks = (s.cell k).tasks

theorem SlotsOnly.refl (s : State) : SlotsOnly s s := ⟨rfl, fun _ => rfl, fun _ h => ⟨h, rfl⟩⟩

theorem SlotsOnly.trans {s t u : State} (h : SlotsOnly s t) (g : SlotsOnly t u) : SlotsOnly s u where
  outside := g.outside.trans h.outside
  cells k := (g.cells k).trans (h.cells k)
  idle k hk := by
    obtain ⟨ht, htasks⟩ := h.idle k hk
    obtain ⟨hu, hutasks⟩ := g.idle k ht
    exact ⟨hu, hutasks.trans htasks⟩

theorem slotsOnly_updCell (s : State) (c : Nat) {f : Cell → Cell} (hf : (f (s.cell c)).outsideSlots = (s.cell c).outsideSlots)
    (hidle : (s.cell c).readyFirings = [] →
      (f (s.cell c)).readyFirings = [] ∧ (f (s.cell c)).tasks = (s.cell c).tasks) : SlotsOnly s (s.updCell c f) where
  outside := rfl
  cells k := by
    rw [State.cell_updCell]
    split
    · next h => subst h; exact hf
    · rfl
  idle k hk := by
    rw [State.cell_updCell]
    split
    · next h => subst h; exact hidle hk
    · exact ⟨hk, rfl⟩

/-- The first firing that waits has taken the slot `i`, and `r` wait still. -/
def State.startFiring (s : State) (cell i : Nat) (n : Node) (f : Firing) (r : List Firing) : State :=
  s.useFree.updCell cell fun c => { c with readyFirings := r, tasks := tput c.tasks i (startTask s n f) }

theorem State.startFiring_spec {s : State} {cell : Nat} {f : Firing} {r : List Firing}
    (h : (s.cell cell).readyFirings = f :: r) (i : Nat) (n : Node) :
    SlotsOnly s (s.startFiring cell i n f r) ∧ ∀ k, ((s.startFiring cell i n f r).cell k).freed = (s.cell k).freed := by
  have hfree : SlotsOnly s s.useFree := ⟨rfl, fun _ => rfl, fun _ hk => ⟨hk, rfl⟩⟩
  refine ⟨hfree.trans (slotsOnly_updCell s.useFree cell rfl fun hnil => nomatch h.symm.trans hnil), fun k => ?_⟩
  unfold State.startFiring
  rw [State.cell_updCell]
  split
  · next hk => subst hk; rfl
  · rfl

/-- Firings that take slots: the cell's slots change, and those freed stay so. -/
theorem State.fillSlots_spec (s : State) (cell n : Nat) :
    SlotsOnly s (s.fillSlots cell n) ∧ ∀ k, ((s.fillSlots cell n).cell k).freed = (s.cell k).freed := by
  induction n generalizing s with
  | zero => exact ⟨SlotsOnly.refl s, fun _ => rfl⟩
  | succ n ih =>
    unfold State.fillSlots
    dsimp only
    split
    · next f r i hready hslot =>
      split
      · exact ⟨SlotsOnly.refl s, fun _ => rfl⟩
      · next node hnode =>
        split
        · exact ⟨SlotsOnly.refl s, fun _ => rfl⟩
        · obtain ⟨hstart, hkept⟩ := State.startFiring_spec hready i node
          obtain ⟨hrest, hfreed⟩ := ih (s.startFiring cell i node f r)
          exact ⟨hstart.trans hrest, fun k => (hfreed k).trans (hkept k)⟩
    · exact ⟨SlotsOnly.refl s, fun _ => rfl⟩

/-- The slots that the cell lists as freed are free. -/
def State.clearFreed (s : State) (x : Nat × Cell) : State :=
  if x.2.freed.isEmpty then s else s.updCell x.1 fun c => { c with freed := [] }

theorem State.clearFreed_spec (s : State) (x : Nat × Cell) :
    SlotsOnly s (s.clearFreed x)
    ∧ ∀ k, ((s.clearFreed x).cell k).freed = if k = x.1 ∧ x.2.freed ≠ [] then [] else (s.cell k).freed := by
  unfold State.clearFreed
  by_cases hx : x.2.freed = []
  · rw [if_pos (by simp [hx])]
    exact ⟨SlotsOnly.refl s, fun k => by simp [hx]⟩
  · rw [if_neg (by simp [hx])]
    refine ⟨slotsOnly_updCell s x.1 rfl fun h => ⟨h, rfl⟩, fun k => ?_⟩
    rw [State.cell_updCell]
    by_cases hk : k = x.1 <;> simp [hk, hx]

/-- A cell's share of the beginning of a cycle. -/
def State.beginCell (s : State) (x : Nat × Cell) : State :=
  let s := s.clearFreed x
  if x.2.readyFirings.isEmpty || x.2.issueStopped || x.2.clockStopped || s.cp.fatal then s else s.fillSlots x.1 8

theorem State.beginCycle_eq (s : State) : s.beginCycle = each s.cells s State.beginCell := rfl

theorem State.beginCell_spec (s : State) (x : Nat × Cell) :
    SlotsOnly s (s.beginCell x)
    ∧ ∀ k, ((s.beginCell x).cell k).freed = if k = x.1 ∧ x.2.freed ≠ [] then [] else (s.cell k).freed := by
  obtain ⟨hclear, hfreed⟩ := s.clearFreed_spec x
  unfold State.beginCell
  dsimp only
  split
  · exact ⟨hclear, hfreed⟩
  · obtain ⟨hfill, hkept⟩ := (s.clearFreed x).fillSlots_spec x.1 8
    exact ⟨hclear.trans hfill, fun k => (hkept k).trans (hfreed k)⟩

theorem State.slotsOnly_beginCycle (s : State) : SlotsOnly s s.beginCycle :=
  each_keeps (P := SlotsOnly s) (fun t x h => h.trans (t.beginCell_spec x).1) s.cells (SlotsOnly.refl s)

/-- Slots freed stand empty where they did, and where a cell of the list names them. -/
theorem State.freed_each_beginCell {l : List (Nat × Cell)} {s : State} {k : Nat}
    (h : (s.cell k).freed = [] ∨ ∃ x ∈ l, k = x.1 ∧ x.2.freed ≠ []) : ((each l s State.beginCell).cell k).freed = [] := by
  induction l generalizing s with
  | nil => exact h.resolve_right (by simp)
  | cons x r ih =>
    refine ih (s := s.beginCell x) ?_
    rw [(s.beginCell_spec x).2 k]
    by_cases hx : k = x.1 ∧ x.2.freed ≠ []
    · exact .inl (if_pos hx)
    · rw [if_neg hx]
      refine h.imp_right ?_
      rintro ⟨y, hy, hfreed⟩
      rcases List.mem_cons.mp hy with rfl | hr
      · exact absurd hfreed hx
      · exact ⟨y, hr, hfreed⟩

theorem State.freed_beginCycle (s : State) (k : Nat) : (s.beginCycle.cell k).freed = [] := by
  refine State.freed_each_beginCell ?_
  cases hk : tget s.cells k with
  | none => exact .inl (by simp [State.cell, tgetD, hk])
  | some c =>
    have hc : s.cell k = c := by simp [State.cell, tgetD, hk]
    by_cases hf : c.freed = []
    · exact .inl (hc ▸ hf)
    · exact .inr ⟨(k, c), mem_of_tget hk, rfl, hf⟩

/-! ### The clock after a cycle -/

theorem State.clock_tick (s : State) : s.tick.clock = ({ s.stepPhc with now := s.now + 1 } : State).clock :=
  (congrArg State.clock s.counted.slotsOnly_beginCycle.outside :)

theorem State.now_tick (s : State) : s.tick.now = s.now + 1 := congrArg (·.1) s.clock_tick

theorem State.phcNs_tick_lt (s : State) : s.tick.phcNs < 1000000000 := by
  have h : s.tick.phcNs = s.stepPhc.phcNs := congrArg (·.2.2.1) s.clock_tick
  exact h ▸ Nat.mod_lt _ (by decide)

theorem State.phcFrac_tick_lt (s : State) : s.tick.phcFrac < 2 ^ 32 := by
  have h : s.tick.phcFrac = s.stepPhc.phcFrac := congrArg (·.2.2.2.1) s.clock_tick
  exact h ▸ Nat.mod_lt _ (by decide)

/-- The PHC as the clock gives it. -/
theorem phcTotal_eq_of_clock {s t : State} (h : t.clock = s.clock) : phcTotal t = phcTotal s := by
  simp only [State.clock, Prod.mk.injEq] at h
  obtain ⟨-, hsec, hns, hfrac, -⟩ := h
  simp only [phcTotal, hsec, hns, hfrac]

/-- A cycle advances the PHC by the rate word, as long as its seconds do not run over (01:R27). -/
theorem phcTotal_stepPhc (s : State)
    (hroom : s.phcS.toNat * 1000000000 + s.phcNs + s.rate / 2 ^ 32 + 1 < 2 ^ 48 * 1000000000) (hfrac : s.phcFrac < 2 ^ 32) :
    phcTotal s.stepPhc = phcTotal s + s.rate := by
  simp only [phcTotal, State.stepPhc, BitVec.toNat_add, BitVec.toNat_ofNat]
  omega

theorem phcTotal_tick (s : State)
    (hroom : s.phcS.toNat * 1000000000 + s.phcNs + s.rate / 2 ^ 32 + 1 < 2 ^ 48 * 1000000000) (hfrac : s.phcFrac < 2 ^ 32) :
    phcTotal s.tick = phcTotal s + s.rate :=
  (phcTotal_eq_of_clock s.clock_tick).trans (phcTotal_stepPhc s hroom hfrac)

/-! ### What a cycle leaves -/

theorem State.cell_tick_frame (s : State) (k : Nat) :
    (s.tick.cell k).bank = (s.cell k).bank ∧ (s.tick.cell k).store = (s.cell k).store ∧ (s.tick.cell k).freed = []
      ∧ ((s.cell k).readyFirings = [] → (s.tick.cell k).tasks = (s.cell k).tasks) := by
  have hslots := s.counted.slotsOnly_beginCycle
  have hcount := s.uncounted_cell_counted k
  refine ⟨?_, ?_, s.counted.freed_beginCycle k, fun h => ?_⟩
  · exact (congrArg Cell.bank (hslots.cells k) :).trans (congrArg Cell.bank hcount :)
  · exact (congrArg Cell.store (hslots.cells k) :).trans (congrArg Cell.store hcount :)
  · have hready : (s.counted.cell k).readyFirings = [] := (congrArg Cell.readyFirings hcount :).trans h
    exact (hslots.idle k hready).2.trans (congrArg Cell.tasks hcount :)

theorem State.uncounted_version_tick (s : State) (k : Nat) (ver : Bool) :
    (s.tick.version k ver).uncounted = (s.version k ver).uncounted := by
  have hslots := s.counted.slotsOnly_beginCycle.cells k
  have hcount := s.uncounted_cell_counted k
  cases ver with
  | false => exact (congrArg (·.v0.uncounted) hslots :).trans (congrArg Cell.v0 hcount :)
  | true => exact (congrArg (·.v1.uncounted) hslots :).trans (congrArg Cell.v1 hcount :)

theorem State.outsideCells_tick (s : State) : s.tick.outsideCells = s.counted.outsideCells :=
  s.counted.slotsOnly_beginCycle.outside

/-! ## The end of a cycle, or first the issue of a cell (05:R67) -/

theorem State.settleHeld_eq_self {s : State}
    (h : ∀ x ∈ s.cp.held, s.nodeLoading (cmdCtx x.2) (argBits x.2 16 16) = true) : s.settleHeld = s := by
  have hready : (s.cp.held.filter fun x => !s.nodeLoading (cmdCtx x.2) (argBits x.2 16 16)) = [] := by
    rw [List.filter_eq_nil_iff]
    intro x hx
    simp [h x hx]
  unfold State.settleHeld
  simp [hready]

theorem State.endCycle_of_still {s : State} (h : ∀ k, s.nextSlot k = none) (done : State) :
    s.endCycle done = .done done.settleHeld.tickDue := by
  have hdue : s.dueCell = none := by
    unfold State.dueCell
    rw [List.find?_eq_none]
    intro k _
    simp [h k]
  unfold State.endCycle
  rw [hdue]
  rfl

/-- A cell that is due issues before the cycle ends. -/
theorem State.endCycle_of_due {s : State} (hlow : ∀ x ∈ s.cells, x.1 < 2 ^ 18) (h : ∃ x ∈ s.cells, s.nextSlot x.1 ≠ none) :
    ∃ c : CellId, s.nextSlot c.toNat ≠ none
      ∧ ∀ done, s.endCycle done = (s.issueOf c.toNat).getD (.done done.settleHeld.tickDue) := by
  obtain ⟨x, hx, hslot⟩ := h
  have hfound : s.dueCell ≠ none := fun hnone =>
    List.find?_eq_none.mp hnone x.1 (List.mem_map_of_mem hx) (Option.isSome_iff_ne_none.mpr hslot)
  obtain ⟨c, hc⟩ := Option.ne_none_iff_exists'.mp hfound
  obtain ⟨y, hy, rfl⟩ := List.mem_map.mp (List.mem_of_find?_eq_some hc)
  have hid : (BitVec.ofNat 18 y.1).toNat = y.1 := by rw [BitVec.toNat_ofNat, Nat.mod_eq_of_lt (hlow y hy)]
  refine ⟨BitVec.ofNat 18 y.1, ?_, fun done => ?_⟩
  · rw [hid]
    exact Option.isSome_iff_ne_none.mp (List.find?_some (p := fun c => (s.nextSlot c).isSome) hc)
  · unfold State.endCycle
    rw [hc, hid]
    rfl

theorem State.turns_self {s : State} {r : List Turn} (h : s.turns = r) : ({ s with turns := r } : State) = s := by
  subst h
  rfl

/-- With no task that may issue, the cycle ends. -/
theorem State.todo_of_still {s : State} (hs : s.turns = [] ∨ ∃ r, s.turns = .tick :: r) (h : ∀ k, s.nextSlot k = none) :
    s.todo = .done ({ s with turns := s.turns.tail } : State).settleHeld.tickDue := by
  unfold State.todo
  rcases hs with hnil | ⟨r, htick⟩
  · rw [State.turns_self (r := s.turns.tail) (by simp [hnil]), hnil]
    simp [State.issueOf_eq_none (h _), State.endCycle_of_still h]
  · rw [htick]
    simp [State.endCycle_of_still h]

/-- With a cell that is due, some cell's issue is the move. -/
theorem State.todo_of_due {s : State} (hs : s.turns = [] ∨ ∃ r, s.turns = .tick :: r) (hlow : ∀ x ∈ s.cells, x.1 < 2 ^ 18)
    (h : ∃ x ∈ s.cells, s.nextSlot x.1 ≠ none) :
    ∃ c : CellId, s.nextSlot c.toNat ≠ none ∧ ∃ other, s.todo = (s.issueOf c.toNat).getD other := by
  obtain ⟨c, hc, hend⟩ := State.endCycle_of_due hlow h
  rcases hs with hnil | ⟨r, htick⟩
  · by_cases hfocus : s.nextSlot s.focus.toNat = none
    · refine ⟨c, hc, .done s.settleHeld.tickDue, ?_⟩
      unfold State.todo
      rw [hnil]
      simp [State.issueOf_eq_none hfocus, hend]
    · refine ⟨s.focus, hfocus, s.endCycle s, ?_⟩
      unfold State.todo
      rw [hnil]
  · refine ⟨c, hc, .done ({ s with turns := r } : State).settleHeld.tickDue, ?_⟩
    unfold State.todo
    rw [htick]
    exact hend _

/-- The issue that ends no cycle is the one that the cell's turn makes. -/
theorem step_eq_issue_turn {s : State} {c : CellId} {other : Todo} (hc : s.nextSlot c.toNat ≠ none)
    (h : s.todo = (s.issueOf c.toNat).getD other) : step s = step { s with turns := .issue c :: s.turns } := by
  obtain ⟨move, hmove⟩ := Option.isSome_iff_exists.mp (State.issueOf_isSome c.isLt hc)
  have hturn : step { s with turns := .issue c :: s.turns } = ((s.issueOf c.toNat).getD (.done s)).outcome :=
    step_of_issue_turn rfl
  rw [hturn, step_eq_outcome, h, hmove]
  rfl

theorem step_of_still {s : State} (hs : s.turns = [] ∨ ∃ r, s.turns = .tick :: r) (h : ∀ k, s.nextSlot k = none)
    (hheld : ∀ x ∈ s.cp.held, s.nodeLoading (cmdCtx x.2) (argBits x.2 16 16) = true) :
    step s = .next ({ s with turns := s.turns.tail } : State).rereadDue.tick := by
  rw [step_eq_outcome, State.todo_of_still hs h, State.settleHeld_eq_self (s := { s with turns := s.turns.tail }) hheld]
  rfl

theorem cyclePasses : CyclePasses := by
  intro s hs still uncounted
  have hstill : ∀ k, still k ↔ s.nextSlot k = none := fun k => (s.nextSlot_eq_none_iff k).symm
  constructor
  · intro hnone hheld
    have hclock : ({ s with turns := s.turns.tail } : State).rereadDue.clock = s.clock := State.clock_rereadDue _
    refine ⟨_, step_of_still hs (fun k => (hstill k).mp (hnone k)) hheld, ?_, ?_, State.phcNs_tick_lt _,
      State.phcFrac_tick_lt _, fun hwaitf => ?_⟩
    · rw [State.now_tick]
      exact congrArg (·.1 + 1) hclock
    · intro hroom hfrac
      have htotal := phcTotal_eq_of_clock hclock
      simp only [State.clock, Prod.mk.injEq] at hclock
      obtain ⟨-, hsec, hns, hfr, hrate⟩ := hclock
      rw [phcTotal_tick _ (by rwa [hsec, hns, hrate]) (by rwa [hfr]), htotal, hrate]
    · rw [State.rereadDue_eq_self (s := { s with turns := s.turns.tail }) fun x hx => Cell.waitfDue_eq_nil (hwaitf x hx)]
      have hout := State.outsideCells_tick { s with turns := s.turns.tail }
      refine ⟨(congrArg State.cp hout :), (congrArg State.mem hout :), (congrArg State.hostMem hout :), (congrArg State.net hout :),
        (congrArg State.cfgs hout :), (congrArg State.ctxs hout :), (congrArg State.ports hout :), fun k => ?_⟩
      obtain ⟨hbank, hstore, hfreed, htasks⟩ := State.cell_tick_frame { s with turns := s.turns.tail } k
      refine ⟨hbank, hstore, hfreed, htasks, fun ver => ?_⟩
      have hver := State.uncounted_version_tick { s with turns := s.turns.tail } k ver
      exact ⟨(congrArg Version.code hver :), (congrArg Version.bindings hver :)⟩
  · rintro ⟨x, hx, hissues⟩ hlow
    obtain ⟨c, hc, other, htodo⟩ := State.todo_of_due hs hlow ⟨x, hx, fun h => hissues ((hstill x.1).mpr h)⟩
    exact ⟨c, fun h => hc ((hstill c.toNat).mp h), step_eq_issue_turn hc htodo⟩

/-- Settles O57: the turns' moves, the passing of a cycle, and the units that instructions leave. -/
theorem turnsAndCycles : Obligations.TurnsAndCycles := ⟨turnsExecute, cyclePasses, unitsFree⟩

end Sys2Proof.Machine

/-! # The step of an issuing cell: fetch, decode and execute -/

namespace Sys2Proof.Machine

open Sys2Proof.Claims

/-- The move of a cell whose task fetches: the instruction to execute, or the fault that the word has raised. -/
def Fetched.todo (s : State) : Fetched → Todo
  | .instr i => .run i s
  | .trap u => .done u

/-- The issue of a cell from a slot whose task is not abandoned fetches that task's word (05:R67). -/
theorem State.issueOf_of_task {s : State} {c : CellId} {k : Nat} {t : Task} (hk : s.nextSlot c.toNat = some k)
    (ht : tget (s.cell c.toNat).tasks k = some t) (ha : t.abandoned = false) :
    s.issueOf c.toNat = some ((({ s with focus := c, slot := k } : State).fetch t).todo { s with focus := c, slot := k }) := by
  have hid : BitVec.ofNat 18 c.toNat = c := by simp
  have htask : ({ s with focus := c, slot := k } : State).task ({ s with focus := c, slot := k } : State).here = some t := ht
  unfold State.issueOf
  rw [hk]
  simp only [hid, htask, ha]
  cases ({ s with focus := c, slot := k } : State).fetch t <;> rfl

/-- A cell that issues, because nothing else takes a turn or because the turn is its own, makes the step. -/
theorem step_of_issueOf {s : State} {c : CellId} {r : List Turn} {m : Todo}
    (h : (s.turns = [] ∧ r = [] ∧ c = s.focus) ∨ s.turns = .issue c :: r)
    (hm : ({ s with turns := r } : State).issueOf c.toNat = some m) : step s = m.outcome := by
  rcases h with ⟨hnil, rfl, rfl⟩ | hturn
  · rw [State.turns_self hnil] at hm
    simp [step_eq_outcome, State.todo, hnil, hm]
  · rw [step_of_issue_turn hturn, hm]
    rfl

/-- Class MX on an edge cell (15:R218), by the fields of cell and word. -/
theorem edgeRefuses_eq_true_iff (cell : Nat) (w : Word) :
    edgeRefuses cell w = true ↔ cell % 1024 < 32 ∧ w.toNat / 2 ^ 60 = 5 := by
  have hw : w.toNat < 2 ^ 64 := w.isLt
  have hmod : bitsOf w.toNat 60 4 = w.toNat / 2 ^ 60 := Nat.mod_eq_of_lt (by omega)
  simp only [edgeRefuses, isEdgeCell, hmod, Bool.and_eq_true, decide_eq_true_eq]

section fetch

variable {s : State} {t : Task}

theorem State.fetch_edge (hpc : t.pc.toNat < 512) (he : edgeRefuses s.focus.toNat (s.curWord t) = true) :
    s.fetch t = .instr (.illegalOp (s.curWord t)) := by
  simp [State.fetch, hpc, he]

variable (hpc : t.pc.toNat < 512) (he : ¬ edgeRefuses s.focus.toNat (s.curWord t) = true)

include hpc he

theorem State.fetch_instr {i : Instr} (hd : decode (s.curWord t) = .instr i) : s.fetch t = .instr i := by
  simp [State.fetch, hpc, he, hd]

theorem State.fetch_reserved (hd : decode (s.curWord t) = .reserved) :
    s.fetch t = .trap (s.raiseWord t Cause.reservedField) := by
  simp [State.fetch, hpc, he, hd]

theorem State.fetch_format (hd : decode (s.curWord t) = .format) : s.fetch t = .trap (s.raiseWord t Cause.format) := by
  simp [State.fetch, hpc, he, hd]

end fetch

/-- A pc past the store faults at index 511 (09:R150). -/
theorem State.fetch_past_store {s : State} {t : Task} (hpc : 512 ≤ t.pc.toNat) :
    s.fetch t = .trap (s.raise { t with pc := 511 } 0x01 511 (tgetD (s.version s.focus.toNat t.ver).code 0 511).toNat) := by
  have hmin : min t.pc.toNat 511 = 511 := by omega
  simp [State.fetch, hpc, State.raisePastEnd, hmin, State.curWord, Cause.illegalOp]

/-- Settles O56: the step is what the fetch at the slot that issues next gives. -/
theorem stepRunsDecoded : Obligations.StepRunsDecoded := by
  intro s c r at_ hs
  refine ⟨fun k t hissues hnext ht ha => ?_, fun hturns hstill => ?_⟩
  · have hslot : ({ s with turns := r } : State).nextSlot c.toNat = some k := by
      rw [State.nextSlot_turns]
      exact (State.nextSlot_eq_some_iff ..).mpr ⟨hissues, hnext⟩
    have hstep : step s = (((at_ k).fetch t).todo (at_ k)).outcome := step_of_issueOf hs (State.issueOf_of_task hslot ht ha)
    intro w edgeMx
    have hedge : edgeRefuses c.toNat w = true ↔ edgeMx := edgeRefuses_eq_true_iff ..
    rw [hstep]
    refine ⟨fun hpc hno i hi => ?_, fun hpc hmx => ?_, fun hpc => ?_, fun hpc hno hd => ?_, fun hpc hno hd => ?_⟩
    · rw [State.fetch_instr (s := at_ k) hpc (mt hedge.mp hno) hi]
      rfl
    · rw [State.fetch_edge (s := at_ k) hpc (hedge.mpr hmx)]
      rfl
    · rw [State.fetch_past_store (s := at_ k) hpc]
      rfl
    · rw [State.fetch_reserved (s := at_ k) hpc (mt hedge.mp hno) hd]
      rfl
    · rw [State.fetch_format (s := at_ k) hpc (mt hedge.mp hno) hd]
      rfl
  · have hturn : s.turns = .issue c :: r := hs.resolve_left fun h => hturns h.1
    have hnone : ({ s with turns := r } : State).nextSlot c.toNat = none := by
      rw [State.nextSlot_turns]
      exact (State.nextSlot_eq_none_iff ..).mpr hstill
    rw [step_of_issue_turn hturn, State.issueOf_eq_none hnone]
    rfl

end Sys2Proof.Machine

/-! # Reading the state after an update of a part of it -/

namespace Sys2Proof.Machine

@[simp] theorem State.cell_updCell_same (s : State) (c : Nat) (f : Cell → Cell) : (s.updCell c f).cell c = f (s.cell c) := by
  simp [State.cell, State.updCell]

theorem State.cell_updCell_other (s : State) {c k : Nat} (f : Cell → Cell) (h : k ≠ c) : (s.updCell c f).cell k = s.cell k := by
  simp [State.cell, State.updCell, tgetD_tput_other, h]

@[simp] theorem State.hall_updCell (s : State) (c h : Nat) (f : Cell → Cell) : (s.updCell c f).hall h = s.hall h := rfl

@[simp] theorem State.hall_updHall_same (s : State) (h : Nat) (f : Hall → Hall) : (s.updHall h f).hall h = f (s.hall h) := by
  simp [State.hall, State.updHall]

theorem State.hall_updHall_other (s : State) {h k : Nat} (f : Hall → Hall) (hk : k ≠ h) :
    (s.updHall h f).hall k = s.hall k := by
  simp [State.hall, State.updHall, tgetD_tput_other, hk]

@[simp] theorem State.cell_updHall (s : State) (h c : Nat) (f : Hall → Hall) : (s.updHall h f).cell c = s.cell c := rfl

@[simp] theorem Cell.version_updVersion_same (c : Cell) (v : Bool) (f : Version → Version) :
    (c.updVersion v f).version v = f (c.version v) := by
  cases v <;> rfl

@[simp] theorem Cell.version_updVersion_not (c : Cell) (v : Bool) (f : Version → Version) :
    (c.updVersion v f).version (!v) = c.version (!v) := by
  cases v <;> rfl

theorem Cell.version_updVersion_other (c : Cell) {v w : Bool} (f : Version → Version) (h : w ≠ v) :
    (c.updVersion v f).version w = c.version w := by
  rw [Bool.eq_not_of_ne h, Cell.version_updVersion_not]

@[simp] theorem State.version_updVersion_same (s : State) (c : Nat) (v : Bool) (f : Version → Version) :
    (s.updVersion c v f).version c v = f (s.version c v) := by
  simp [State.version, State.updVersion]

@[simp] theorem State.node_updNode_same (s : State) (c : Nat) (v : Bool) (n : Nat) (f : Node → Node) :
    (s.updNode c v n f).node c v n = (s.node c v n).map f := by
  simp [State.node, State.updNode, lset]

@[simp] theorem State.binding_updBinding_same (s : State) (c : Nat) (v : Bool) (r : Nat) (f : Binding → Binding) :
    (s.updBinding c v r f).binding c v r = (s.binding c v r).map f := by
  simp [State.binding, State.updBinding, lset]

/-! ### An update says only what becomes of the part that it updates -/

theorem lset_congr {α : Type} {l : List α} {i : Nat} {x : α} {f g : α → α} (hx : l[i]? = some x) (hfg : f x = g x) :
    lset l i f = lset l i g := by
  refine List.ext_getElem? fun j => ?_
  by_cases hj : i = j
  · subst hj
    simp [lset, hx, hfg]
  · simp [lset, hj]

theorem State.updCell_congr {s : State} {c : Nat} {f g : Cell → Cell} (h : f (s.cell c) = g (s.cell c)) :
    s.updCell c f = s.updCell c g := by
  unfold State.updCell
  rw [h]

theorem State.updVersion_congr {s : State} {c : Nat} {v : Bool} {f g : Version → Version}
    (h : f (s.version c v) = g (s.version c v)) : s.updVersion c v f = s.updVersion c v g := by
  refine State.updCell_congr ?_
  cases v
  · exact congrArg (fun x => { s.cell c with v0 := x }) h
  · exact congrArg (fun x => { s.cell c with v1 := x }) h

theorem State.updNode_congr {s : State} {c : Nat} {v : Bool} {k : Nat} {f g : Node → Node} {n : Node}
    (hn : s.node c v k = some n) (hfg : f n = g n) : s.updNode c v k f = s.updNode c v k g :=
  State.updVersion_congr (congrArg (fun l => { s.version c v with nodes := l }) (lset_congr hn hfg))

theorem State.updBinding_congr {s : State} {c : Nat} {v : Bool} {r : Nat} {f g : Binding → Binding} {b : Binding}
    (hb : s.binding c v r = some b) (hfg : f b = g b) : s.updBinding c v r f = s.updBinding c v r g :=
  State.updVersion_congr (congrArg (fun l => { s.version c v with bindings := l }) (lset_congr hb hfg))

end Sys2Proof.Machine

/-! # What moves between the caches and memory leaves the rest of the module (07:R99 to R113) -/

namespace Sys2Proof.Machine

/-- The state without memory, the caches and the counter of free values. -/
def State.outsideCaches (s : State) : State := { s with mem := [], memPoison := [], halls := [], cells := [], fresh := 0 }

/-- A cell without its L1 and its promotion log. -/
def Cell.outsideCaches (c : Cell) : Cell := { c with l1 := [], log := [], eagerMark := none, eager := 0 }

/-- A hall without its gallery caches, its L2 and what its channels and write-backs owe. -/
def Hall.outsideCaches (h : Hall) : Hall := { h with gc := [], l2 := [], home := [], channels := [], writeBacks := [] }

/-- Nothing but memory, caches, promotion logs and the counter of free values differs. -/
structure CachesOnly (s t : State) : Prop where
  outside : t.outsideCaches = s.outsideCaches
  cells : ∀ k, (t.cell k).outsideCaches = (s.cell k).outsideCaches
  halls : ∀ h, (t.hall h).outsideCaches = (s.hall h).outsideCaches

theorem CachesOnly.refl (s : State) : CachesOnly s s := ⟨rfl, fun _ => rfl, fun _ => rfl⟩

theorem CachesOnly.trans {s t u : State} (h : CachesOnly s t) (g : CachesOnly t u) : CachesOnly s u where
  outside := g.outside.trans h.outside
  cells k := (g.cells k).trans (h.cells k)
  halls k := (g.halls k).trans (h.halls k)

theorem cachesOnly_each {α : Type} {f : State → α → State} (hf : ∀ t x, CachesOnly t (f t x)) (l : List α) (s : State) :
    CachesOnly s (each l s f) :=
  each_keeps (P := CachesOnly s) (fun t x ht => ht.trans (hf t x)) l (.refl s)

theorem cachesOnly_ite {p : Prop} [Decidable p] {s t u : State} (ht : CachesOnly s t) (hu : CachesOnly s u) :
    CachesOnly s (if p then t else u) := by
  split
  · exact ht
  · exact hu

theorem cachesOnly_updCell (s : State) (c : Nat) {f : Cell → Cell}
    (hf : (f (s.cell c)).outsideCaches = (s.cell c).outsideCaches) : CachesOnly s (s.updCell c f) where
  outside := rfl
  cells k := by
    by_cases h : k = c
    · subst h
      simpa using hf
    · rw [State.cell_updCell_other _ _ h]
  halls _ := rfl

theorem cachesOnly_updHall (s : State) (h : Nat) {f : Hall → Hall}
    (hf : (f (s.hall h)).outsideCaches = (s.hall h).outsideCaches) : CachesOnly s (s.updHall h f) where
  outside := rfl
  cells _ := rfl
  halls k := by
    by_cases hk : k = h
    · subst hk
      simpa using hf
    · rw [State.hall_updHall_other _ _ hk]

/-! ### Memory -/

theorem cachesOnly_useFree (s : State) : CachesOnly s s.useFree := ⟨rfl, fun _ => rfl, fun _ => rfl⟩
theorem cachesOnly_writeByte (s : State) (a : Nat) (b : Byte) : CachesOnly s (s.writeByte a b) := ⟨rfl, fun _ => rfl, fun _ => rfl⟩
theorem cachesOnly_setSectorPoison (s : State) (a : Nat) (b : Bool) : CachesOnly s (s.setSectorPoison a b) :=
  ⟨rfl, fun _ => rfl, fun _ => rfl⟩
theorem cachesOnly_staleWriteBacks (s : State) (a : Nat) : CachesOnly s (s.staleWriteBacks a) := cachesOnly_updHall _ _ rfl
theorem cachesOnly_dirtyHome (s : State) (a : Nat) : CachesOnly s (s.dirtyHome a) := cachesOnly_updHall _ _ rfl

theorem cachesOnly_missHome (s : State) (a : Nat) : CachesOnly s (s.missHome a) := by
  unfold State.missHome
  exact cachesOnly_ite (.refl s) (cachesOnly_updHall _ _ rfl)

theorem cachesOnly_writeMem (s : State) (a n v : Nat) : CachesOnly s (s.writeMem a n v) := by
  induction n generalizing s a v with
  | zero => exact .refl s
  | succ n ih => exact (cachesOnly_writeByte ..).trans (ih ..)

theorem cachesOnly_writeHome (s : State) (a n v : Nat) : CachesOnly s (s.writeHome a n v) := by
  unfold State.writeHome
  refine cachesOnly_ite (.refl s) (((cachesOnly_writeMem ..).trans (cachesOnly_dirtyHome ..)).trans (cachesOnly_each (fun t i => ?_) _ _))
  exact cachesOnly_ite ((cachesOnly_staleWriteBacks ..).trans (cachesOnly_setSectorPoison ..)) (cachesOnly_staleWriteBacks ..)

theorem cachesOnly_mergeHome (s : State) (ln : Nat) (d : Tbl (Byte × Nat)) (bad : BitVec 4) :
    CachesOnly s (s.mergeHome ln d bad) := by
  unfold State.mergeHome
  refine cachesOnly_ite (.refl s) (((cachesOnly_each (fun t e => cachesOnly_writeByte ..) _ _).trans
    (cachesOnly_dirtyHome ..)).trans (cachesOnly_each (fun t k => ?_) _ _))
  have hstale := cachesOnly_staleWriteBacks t (ln * 128 + 32 * k)
  exact cachesOnly_ite (cachesOnly_ite (hstale.trans (cachesOnly_setSectorPoison ..))
    (cachesOnly_ite (hstale.trans (cachesOnly_setSectorPoison ..)) hstale)) (.refl t)

/-! ### The caches -/

theorem cachesOnly_setL2 (s : State) (h ln : Nat) (l : Line) : CachesOnly s (s.setL2 h ln l) := cachesOnly_updHall _ _ rfl
theorem cachesOnly_setGc (s : State) (g ln : Nat) (l : Line) : CachesOnly s (s.setGc g ln l) := cachesOnly_updHall _ _ rfl
theorem cachesOnly_setL1 (s : State) (c ln : Nat) (l : Line) : CachesOnly s (s.setL1 c ln l) := cachesOnly_updCell _ _ rfl

theorem cachesOnly_dropL2 (s : State) (h ln : Nat) : CachesOnly s (s.dropL2 h ln) := by
  unfold State.dropL2
  exact cachesOnly_ite (cachesOnly_ite (.refl s) (cachesOnly_updHall _ _ rfl))
    ((cachesOnly_mergeHome ..).trans (cachesOnly_setL2 ..))

theorem cachesOnly_roomL2 (s : State) (h ln : Nat) : CachesOnly s (s.roomL2 h ln) := by
  unfold State.roomL2
  refine cachesOnly_ite ?_ (.refl s)
  split
  · exact ((cachesOnly_useFree s).trans (cachesOnly_dropL2 ..)).trans (cachesOnly_dropL2 ..)
  · exact .refl s

theorem cachesOnly_mergeL2 (s : State) (h ln : Nat) (d : Tbl (Byte × Nat)) (bad : BitVec 4) :
    CachesOnly s (s.mergeL2 h ln d bad) := by
  unfold State.mergeL2
  exact cachesOnly_ite (cachesOnly_mergeHome ..) ((cachesOnly_roomL2 ..).trans (cachesOnly_setL2 ..))

theorem cachesOnly_dropGc (s : State) (g ln : Nat) : CachesOnly s (s.dropGc g ln) := by
  unfold State.dropGc
  exact (cachesOnly_ite (.refl s) (cachesOnly_mergeL2 ..)).trans (cachesOnly_setGc ..)

theorem cachesOnly_roomGc (s : State) (g ln : Nat) : CachesOnly s (s.roomGc g ln) := by
  unfold State.roomGc
  refine cachesOnly_ite ?_ (.refl s)
  split
  · exact (cachesOnly_useFree s).trans (cachesOnly_dropGc ..)
  · exact .refl s

theorem cachesOnly_mergeGc (s : State) (g ln : Nat) (d : Tbl (Byte × Nat)) (bad : BitVec 4) :
    CachesOnly s (s.mergeGc g ln d bad) := (cachesOnly_roomGc ..).trans (cachesOnly_setGc ..)

theorem cachesOnly_cleanL1 (s : State) (c ln : Nat) : CachesOnly s (s.cleanL1 c ln) := by
  unfold State.cleanL1
  exact cachesOnly_ite (.refl s) ((cachesOnly_mergeGc ..).trans (cachesOnly_setL1 ..))

theorem cachesOnly_cleanGc (s : State) (g ln : Nat) (who : Nat → Bool) : CachesOnly s (s.cleanGc g ln who) := by
  unfold State.cleanGc
  exact cachesOnly_ite (.refl s) ((cachesOnly_mergeL2 ..).trans (cachesOnly_setGc ..))

theorem cachesOnly_cleanL2 (s : State) (h ln : Nat) (who : Nat → Bool) : CachesOnly s (s.cleanL2 h ln who) := by
  unfold State.cleanL2
  exact cachesOnly_ite (.refl s) ((cachesOnly_mergeHome ..).trans (cachesOnly_setL2 ..))

/-! ### Releases and acquires -/

theorem cachesOnly_cleanAllL1 (s : State) (c : Nat) : CachesOnly s (s.cleanAllL1 c) :=
  cachesOnly_each (fun t ln => cachesOnly_cleanL1 t c ln) _ _

theorem cachesOnly_cleanAllGc (s : State) (g : Nat) (who : Nat → Bool) : CachesOnly s (s.cleanAllGc g who) :=
  cachesOnly_each (fun t ln => cachesOnly_cleanGc t g ln who) _ _

theorem cachesOnly_cleanAllL2 (s : State) (h : Nat) (who : Nat → Bool) : CachesOnly s (s.cleanAllL2 h who) :=
  cachesOnly_each (fun t ln => cachesOnly_cleanL2 t h ln who) _ _

theorem cachesOnly_pushTo (s : State) (c : Nat) (sc : Scope) : CachesOnly s (s.pushTo c sc) := by
  unfold State.pushTo
  refine CachesOnly.trans ?_ (cachesOnly_ite (cachesOnly_cleanAllL2 ..) (.refl _))
  refine CachesOnly.trans ?_ (cachesOnly_ite (cachesOnly_cleanAllGc ..) (.refl _))
  exact cachesOnly_ite (cachesOnly_cleanAllL1 ..) (.refl s)

theorem cachesOnly_acquire (s : State) (c : Nat) (sc : Scope) : CachesOnly s (s.acquire c sc) := by
  unfold State.acquire
  refine CachesOnly.trans ?_ (cachesOnly_ite (cachesOnly_updHall _ _ rfl) (.refl _))
  refine CachesOnly.trans ?_ (cachesOnly_ite (cachesOnly_updHall _ _ rfl) (.refl _))
  exact cachesOnly_ite (cachesOnly_updCell _ _ rfl) (.refl s)

theorem cachesOnly_logRelease (s : State) (c node : Nat) (sc : Scope) : CachesOnly s (s.logRelease c node sc) := by
  unfold State.logRelease
  refine cachesOnly_ite (cachesOnly_updCell _ _ ?_) (.refl s)
  dsimp only
  repeat' split
  all_goals rfl

theorem cachesOnly_release (s : State) (c node : Nat) (sc : Scope) : CachesOnly s (s.release c node sc) :=
  (cachesOnly_logRelease ..).trans (cachesOnly_pushTo ..)

end Sys2Proof.Machine

/-! # The task at the focus: guards, operands, results -/

namespace Sys2Proof.Machine

open Sys2Proof.Claims

section focus

variable {s : State} {t : Task} (ht : s.task s.here = some t)

include ht

theorem onTask_of_task (k : Task → State) : onTask s k = .next (k t) := by
  unfold onTask
  rw [ht]

theorem guardedOr_of_holds {g : Guard} (hg : t.holds g = true) (skip act : Task → State) :
    guardedOr s g skip act = .next (act t) := by
  simp [guardedOr, onTask_of_task ht, hg]

theorem guardedOr_of_not_holds {g : Guard} (hg : t.holds g = false) (skip act : Task → State) :
    guardedOr s g skip act = .next (skip t) := by
  simp [guardedOr, onTask_of_task ht, hg]

theorem guarded_of_holds {g : Guard} (hg : t.holds g = true) (act : Task → State) : guarded s g act = .next (act t) :=
  guardedOr_of_holds ht hg _ _

theorem guarded_of_not_holds {g : Guard} (hg : t.holds g = false) (act : Task → State) :
    guarded s g act = .next (s.complete t) :=
  guardedOr_of_not_holds ht hg _ _

end focus

theorem Task.touch_eq_reads (t : Task) (l : List Spec) : t.touch l = Claims.reads t l := by
  have hsource : (fun x : Spec => match x with | .s _ => false | .inp i => (t.inTok i).poison) = poisonedSource t := by
    funext x
    cases x <;> rfl
  simp only [Task.touch, Claims.reads, ← hsource] <;> rfl

theorem Task.val_eq_sourceValue (t : Task) (x : Spec) : t.val x = sourceValue t x := by
  cases x <;> rfl

/-! ### Scalars and predicates after a write -/

theorem Task.reg_eq_of_regs {t u : Task} (h : u.regs = t.regs) (r : BitVec 5) : u.reg r = t.reg r := by
  simp [Task.reg, h]

theorem Task.reg_setReg (t : Task) (sd r : BitVec 5) (v : Word) :
    (t.setReg sd v).reg r = if r = sd then (if sd = 0 then 0 else v) else t.reg r := by
  by_cases hsd : sd = 0#5
  · by_cases hr : r = sd <;> simp [Task.setReg, Task.reg, hsd, hr]
    intro h
    exact absurd (h.trans hsd.symm) hr
  · have hkey : r.toNat = sd.toNat ↔ r = sd := BitVec.toNat_inj
    by_cases hr : r = sd
    · simp [Task.setReg, Task.reg, hsd, hr]
    · simp [Task.setReg, Task.reg, hsd, hr, tgetD_tput, hkey]

/-- Writing a scalar and noting its latency is the result that the claims speak of (11:R165, R166). -/
theorem scalarResult_setReg (now lat : Nat) (t : Task) (sd : BitVec 5) (srcs : List Spec) (v : Word) :
    ScalarResult now t (((t.touch srcs).setReg sd v).readyIn sd now lat) sd srcs lat v := by
  have hreg : ∀ r, (((t.touch srcs).setReg sd v).readyIn sd now lat).reg r = ((t.touch srcs).setReg sd v).reg r :=
    Task.reg_eq_of_regs (by simp)
  refine ⟨?_, fun r hr => ?_, fun r => ?_, ?_⟩
  · rw [hreg, Task.reg_setReg, if_pos rfl]
  · rw [hreg, Task.reg_setReg, if_neg hr]
    rfl
  · by_cases hsd : sd = 0#5
    · simp [Task.readyIn, Task.setReg, hsd]
    · by_cases hr : r = sd.toNat <;> simp [Task.readyIn, Task.setReg, hsd, hr, tgetD_tput]
  · rw [Task.touch_eq_reads]
    by_cases hsd : sd = 0#5 <;> simp [Task.readyIn, Task.setReg, hsd, Claims.reads]

theorem Task.pred_setPred (t : Task) (p q : BitVec 3) (b : Bool) :
    (t.setPred p b).pred q = if q = p then (if p = 0 then true else b) else t.pred q := by
  by_cases hp : p = 0#3
  · by_cases hq : q = p <;> simp [Task.setPred, Task.pred, hp, hq]
  · have hlt : q.toNat < 8 := q.isLt
    by_cases hq : q = p
    · subst hq
      cases b <;> simp [Task.setPred, Task.pred, hp, hlt]
    · have hkey : q.toNat ≠ p.toNat := fun h => hq (BitVec.eq_of_toNat_eq h)
      cases b <;> simp [Task.setPred, Task.pred, hp, hq, hlt, hkey]

end Sys2Proof.Machine

/-! # Tokens that a task sends (05:R70; 17:R245 to R249, R257) -/

namespace Sys2Proof.Machine

open Sys2Proof.Claims

/-! ### What the movements of caches leave -/

section caches

variable {s u : State} (h : CachesOnly s u)

include h

theorem CachesOnly.net : u.net = s.net := (congrArg State.net h.outside :)
theorem CachesOnly.hostStores : u.hostStores = s.hostStores := (congrArg State.hostStores h.outside :)
theorem CachesOnly.cfgs : u.cfgs = s.cfgs := (congrArg State.cfgs h.outside :)
theorem CachesOnly.ctxs : u.ctxs = s.ctxs := (congrArg State.ctxs h.outside :)
theorem CachesOnly.now : u.now = s.now := (congrArg State.now h.outside :)
theorem CachesOnly.focus : u.focus = s.focus := (congrArg State.focus h.outside :)
theorem CachesOnly.slot : u.slot = s.slot := (congrArg State.slot h.outside :)
theorem CachesOnly.choice : u.choice = s.choice := (congrArg State.choice h.outside :)
theorem CachesOnly.prom (c : Nat) : (u.cell c).prom = (s.cell c).prom := (congrArg Cell.prom (h.cells c) :)
theorem CachesOnly.tasks (c : Nat) : (u.cell c).tasks = (s.cell c).tasks := (congrArg Cell.tasks (h.cells c) :)

theorem CachesOnly.version (c : Nat) (v : Bool) : u.version c v = s.version c v := by
  have hv : (u.cell c).outsideCaches.version v = (s.cell c).outsideCaches.version v := by rw [h.cells c]
  cases v <;> exact hv

theorem CachesOnly.node (c : Nat) (v : Bool) (n : Nat) : u.node c v n = s.node c v n := by
  unfold State.node
  rw [h.version]

theorem CachesOnly.binding (c : Nat) (v : Bool) (r : Nat) : u.binding c v r = s.binding c v r := by
  unfold State.binding
  rw [h.version]

theorem CachesOnly.hostPending (c : Nat) (sc : Scope) : u.hostPending c sc = s.hostPending c sc := by
  unfold State.hostPending State.releasePending
  rw [h.hostStores]

end caches

/-! ### A task that nothing earlier holds -/

section nothing

variable {s : State} {t : Task} (h : NothingEarlier s t)

include h

theorem NothingEarlier.acquiring : s.acquiring = false := by
  obtain ⟨hops, -, -⟩ := h
  unfold State.acquiring
  rw [List.any_eq_false]
  intro o ho
  have hslot := List.filter_eq_nil_iff.mp hops o ho
  simp only [decide_eq_true_eq] at hslot
  simp [hslot]

theorem NothingEarlier.presencePending : s.presencePending (taskNode s.focus.toNat t) = false := by
  obtain ⟨-, hnet, -⟩ := h
  unfold State.presencePending
  rw [List.any_eq_false]
  intro p hp
  split
  · rename_i a v n b hbody
    have hb : b ≠ taskNode s.focus.toNat t := fun hb => hnet p hp a v n (hbody.trans (by rw [hb]; rfl))
    simpa using hb
  · simp

theorem NothingEarlier.releasePending : s.releasePending s.focus.toNat = false := by
  obtain ⟨-, -, hstores⟩ := h
  unfold State.releasePending
  rw [List.any_eq_false]
  intro x hx
  cases hr : x.releases with
  | false => simp
  | true => simpa using hstores x hx hr

theorem NothingEarlier.serveTask : s.serveTask s.focus.toNat s.slot = s := by
  obtain ⟨hops, -, -⟩ := h
  have hfilter : (s.cell s.focus.toNat).ops.filter (fun o => o.slot = s.slot) = [] := hops
  unfold State.serveTask
  rw [hfilter]
  rfl

theorem NothingEarlier.beforeRelease (k : State → State) (ends : Bool) : s.beforeRelease t k ends = k s := by
  unfold State.beforeRelease
  rw [NothingEarlier.acquiring h, NothingEarlier.presencePending h, NothingEarlier.releasePending h,
    NothingEarlier.serveTask h]
  rfl

end nothing

/-! ### One port -/

/-- A port has an edge inside the configuration with a credit, an empty ring, and nothing of the host's that it waits
for. -/
def PortOpen (s : State) (t : Task) (e : Edge) (dst : Nat) (rtag : BitVec 8) (p : Nat) : Prop :=
  (∃ n, s.node s.focus.toNat t.ver t.node = some n ∧ n.outputs[p]? = some (some e)) ∧ e.dest = .internal dst rtag
    ∧ 0 < e.credits ∧ e.ringTokens = [] ∧ s.hostPending s.focus.toNat e.scope = false

theorem PortsReady.portOpen {s : State} {t : Task} {edge : Nat → Edge} {dst : Nat → Nat} {rtag : Nat → BitVec 8}
    {ports : List Nat} (h : PortsReady s t edge dst rtag ports) {p : Nat} (hp : p ∈ ports) :
    PortOpen s t (edge p) (dst p) (rtag p) p := by
  obtain ⟨-, -, -, n, hn, hports⟩ := h
  obtain ⟨hout, hdest, hcredits, hring, hhost⟩ := hports p hp
  exact ⟨⟨n, hn, hout⟩, hdest, hcredits, hring, hhost⟩

section port

variable {s : State} {t : Task} {e : Edge} {dst : Nat} {rtag : BitVec 8} {p : Nat} (h : PortOpen s t e dst rtag p)

include h

theorem PortOpen.portInUse : s.portInUse t p = true := by
  obtain ⟨⟨n, hn, hout⟩, -⟩ := h
  simp [State.portInUse, hn, hout]

theorem PortOpen.scopeOut (ctx : BitVec 10) : s.scopeOut ⟨s.focus.toNat, t.ver, t.node, p⟩ ctx = none := by
  obtain ⟨⟨n, hn, hout⟩, hdest, -⟩ := h
  simp [State.scopeOut, hn, hout, hdest]

/-- With a credit, the token takes it and is on its way (05:R70). -/
theorem PortOpen.trySend (hprom : s.cell0.prom = none) (edge : Nat → Edge) (dsts : Nat → Nat) (rtags : Nat → BitVec 8)
    (hedge : edge p = e) (hdst : dsts p = dst) (hrtag : rtags p = rtag) (tok : Token) :
    s.trySend ⟨s.focus.toNat, t.ver, t.node, p⟩ tok = .sent (sentOn t edge dsts rtags s (p, tok)) := by
  obtain ⟨⟨n, hn, hout⟩, hdest, hcredits, hring, hhost⟩ := h
  have hstalls : s.releaseStalls s.focus.toNat = false := by
    have hcell : (s.cell s.focus.toNat).prom = none := hprom
    simp [State.releaseStalls, hcell]
  unfold State.trySend
  simp [hstalls, hn, hout, hhost, hdest, State.sendInternal, hcredits, hring, sentOn, hedge, hdst, hrtag, State.updEdge,
    State.send]

end port

/-- The node after a token has left on a port. -/
def nodeSent (n : Node) (q : Nat) : Node :=
  { n with outputs := lset n.outputs q (·.map fun e => { e with credits := e.credits - 1, stalledSince := none }) }

theorem node_sentOn {s : State} {t : Task} (edge : Nat → Edge) (dst : Nat → Nat) (rtag : Nat → BitVec 8)
    (x : Nat × Token) :
    (Claims.sentOn t edge dst rtag s x).node s.focus.toNat t.ver t.node
      = (s.node s.focus.toNat t.ver t.node).map fun n => nodeSent n x.1 := by
  rw [← (cachesOnly_release s s.focus.toNat t.node (edge x.1).scope).node]
  exact State.node_updNode_same ..

theorem focus_sentOn {s : State} {t : Task} (edge : Nat → Edge) (dst : Nat → Nat) (rtag : Nat → BitVec 8) (x : Nat × Token) :
    (Claims.sentOn t edge dst rtag s x).focus = s.focus :=
  (cachesOnly_release s s.focus.toNat t.node (edge x.1).scope).focus

/-- A token that leaves on one port leaves the other ports as they are. -/
theorem PortOpen.sentOn {s : State} {t : Task} {edge : Nat → Edge} {dst : Nat → Nat} {rtag : Nat → BitVec 8}
    {p : Nat} (h : PortOpen s t (edge p) (dst p) (rtag p) p) {x : Nat × Token} (hq : x.1 ≠ p) :
    PortOpen (Claims.sentOn t edge dst rtag s x) t (edge p) (dst p) (rtag p) p := by
  obtain ⟨⟨n, hn, hout⟩, hdest, hcredits, hring, hhost⟩ := h
  have hc := cachesOnly_release s s.focus.toNat t.node (edge x.1).scope
  unfold PortOpen
  rw [focus_sentOn, node_sentOn, hn]
  exact ⟨⟨_, rfl, by simp [nodeSent, lset, hq, hout]⟩, hdest, hcredits, hring, (hc.hostPending ..).trans hhost⟩

theorem prom_sentOn {s : State} {t : Task} (edge : Nat → Edge) (dst : Nat → Nat) (rtag : Nat → BitVec 8) (x : Nat × Token) :
    (sentOn t edge dst rtag s x).cell0.prom = s.cell0.prom := by
  have hc := cachesOnly_release s s.focus.toNat t.node (edge x.1).scope
  have hfocus : (Claims.sentOn t edge dst rtag s x).focus = s.focus := hc.focus
  unfold State.cell0
  rw [hfocus]
  refine Eq.trans ?_ (hc.prom s.focus.toNat)
  have hcell := State.cell_updCell_same (s.release s.focus.toNat t.node (edge x.1).scope) s.focus.toNat
    (·.updVersion t.ver fun y => { y with nodes := lset y.nodes t.node fun n =>
      { n with outputs := lset n.outputs x.1 (·.map fun e => { e with credits := e.credits - 1, stalledSince := none }) } })
  refine (congrArg Cell.prom hcell).trans ?_
  simp

/-! ### A list of ports -/

section list

variable {edge : Nat → Edge} {dst : Nat → Nat} {rtag : Nat → BitVec 8}

/-- Each port of a list that is open takes its token, in order (05:R70, 17:R246). -/
theorem sendList_of_open (l : List (Nat × Token)) {s : State} {t : Task} (hprom : s.cell0.prom = none)
    (hopen : ∀ x ∈ l, PortOpen s t (edge x.1) (dst x.1) (rtag x.1) x.1) (hnodup : (l.map (·.1)).Nodup)
    (hdone : ∀ x ∈ l, x.1 ∉ t.done) :
    s.sendList t l = (sendAll s t edge dst rtag l,
      { t with done := (l.map (·.1)).reverse ++ t.done, sent := (l.map (·.1)).reverse ++ t.sent }, .all) := by
  induction l generalizing s t with
  | nil => rfl
  | cons x l ih =>
    obtain ⟨hx, hl⟩ := List.nodup_cons.mp hnodup
    have hopenx := hopen x List.mem_cons_self
    have hne : ∀ y ∈ l, x.1 ≠ y.1 := fun y hy he => hx (List.mem_map.mpr ⟨y, hy, he.symm⟩)
    have hstep : s.sendList t (x :: l)
        = (sentOn t edge dst rtag s x).sendList { t with done := x.1 :: t.done, sent := x.1 :: t.sent } l := by
      have hnot : t.done.contains x.1 = false := by simpa using hdone x List.mem_cons_self
      rw [State.sendList]
      simp only [hnot, hopenx.trySend hprom edge dst rtag rfl rfl rfl x.2]
      rfl
    rw [hstep, ih]
    · simp only [List.map_cons, List.reverse_cons, List.append_assoc, List.singleton_append]
      rfl
    · rw [prom_sentOn, hprom]
    · intro y hy
      exact (hopen y (List.mem_cons_of_mem _ hy)).sentOn (hne y hy)
    · exact hl
    · intro y hy
      simpa using ⟨fun h => hne y hy h.symm, hdone y (List.mem_cons_of_mem _ hy)⟩

/-- Sends on ports that are ready all go, and what follows them does. -/
theorem sendThen_of_ready {s : State} {t : Task} (l : List (Nat × Token)) (hready : PortsReady s t edge dst rtag (l.map (·.1)))
    (hnodup : (l.map (·.1)).Nodup) (hne : l ≠ []) (k : State → Task → State) (ends : Bool) :
    s.sendThen t l k ends = k (sendAll s t edge dst rtag l)
      { t with done := (l.map (·.1)).reverse, sent := (l.map (·.1)).reverse ++ t.sent } := by
  obtain ⟨hprom, hnothing, hdone, -⟩ := id hready
  have hopen : ∀ x ∈ l, PortOpen s t (edge x.1) (dst x.1) (rtag x.1) x.1 := fun x hx =>
    PortsReady.portOpen hready (List.mem_map_of_mem hx)
  have hused : (l.any fun x => !s.portInUse t x.1) = false := by
    rw [List.any_eq_false]
    intro x hx
    simp [(hopen x hx).portInUse]
  have howed : l.filter (fun x => !t.done.contains x.1) = l := by simp [hdone]
  have hscope : (l.findSome? fun x => s.scopeOut ⟨s.focus.toNat, t.ver, t.node, x.1⟩ t.ctx) = none := by
    rw [List.findSome?_eq_none_iff]
    intro x hx
    exact (hopen x hx).scopeOut t.ctx
  have hsend := sendList_of_open (edge := edge) (dst := dst) (rtag := rtag) l hprom hopen hnodup (by simp [hdone])
  unfold State.sendThen
  rw [hused, howed]
  dsimp only
  rw [hscope, if_neg Bool.false_ne_true, NothingEarlier.beforeRelease hnothing, hsend]
  simp only [hdone, List.append_nil, List.isEmpty_iff, hne]
  rfl

end list

end Sys2Proof.Machine

/-! # Sends of TK instructions (17:R245 to R249, R257) -/

namespace Sys2Proof.Machine

open Sys2Proof.Claims

/-! ### What completing leaves out of the task -/

theorem State.issued_fallThrough_done (s : State) (t : Task) (d : List Nat) (delay : Nat) :
    s.issued { t with done := d }.fallThrough delay = s.issued t.fallThrough delay := by
  have hfall : { t with done := d }.fallThrough = { t.fallThrough with done := d } := by
    unfold Task.fallThrough
    dsimp only
    split
    · split
      · split <;> rfl
      · rfl
    · rfl
  rw [hfall]
  rfl

theorem State.complete_done (s : State) (t : Task) (d : List Nat) :
    s.complete { t with done := d } = s.complete t :=
  s.issued_fallThrough_done t d 1

theorem State.task_here_issued (s : State) (t : Task) (delay : Nat) :
    ∃ u, (s.issued t delay).task (s.issued t delay).here = some u ∧ u.done = [] :=
  ⟨{ t with wait := .none, waitAt := none, done := [], grant := none, taken := none, nextIssue := s.now + delay },
    by simp [State.issued, State.task, State.here, State.updCell0], rfl⟩

/-! ### One instruction's sends -/

section ready

variable {s : State} {t : Task} {edge : Nat → Edge} {dst : Nat → Nat} {rtag : Nat → BitVec 8}

/-- Sends on ports that are ready, and the completion of their instruction (17:R245). -/
theorem sendThen_complete (l : List (Nat × Token)) (hready : PortsReady s t edge dst rtag (l.map (·.1)))
    (hnodup : (l.map (·.1)).Nodup) (hne : l ≠ []) :
    s.sendThen t l State.complete = (sendAll s t edge dst rtag l).issued
      ({ t with sent := (l.map fun x => x.1).reverse ++ t.sent } : Task).fallThrough 1 := by
  rw [sendThen_of_ready l hready hnodup hne]
  exact State.complete_done _ { t with sent := (l.map fun x => x.1).reverse ++ t.sent } _

/-- Reading operands leaves the ports ready. -/
theorem PortsReady.reads {ports : List Nat} (h : PortsReady s t edge dst rtag ports) (l : List Spec) :
    PortsReady s (Claims.reads t l) edge dst rtag ports := h

theorem nullTok_eq_tokenOf (t : Task) : t.nullTok = tokenOf t 0 .null 0 0 := rfl

/-- The token of an operand that the task has read (17:R245). -/
theorem tok_touch (t : Task) (sa : Spec) (k : TkKind) (pred : TPred) (aux : BitVec 9) :
    (t.touch [sa]).tok (TkKind.tok k) pred aux ((t.touch [sa]).val sa)
      = tokenOf (Claims.reads t [sa]) k.code pred aux (sourceValue t sa) := by
  have hval : (t.touch [sa]).val sa = sourceValue t sa := by
    rw [← Task.val_eq_sourceValue]
    rfl
  rw [hval, Task.touch_eq_reads]
  rfl

/-- The one send of an instruction on a port that is ready. -/
theorem sendThen_single {p : Nat} (hready : PortsReady s t edge dst rtag [p]) (tok : Token) :
    s.sendThen t [(p, tok)] State.complete = (sendAll s t edge dst rtag [(p, tok)]).issued
      ({ t with sent := p :: t.sent } : Task).fallThrough 1 :=
  sendThen_complete [(p, tok)] hready (by simp) (by simp)

theorem now_sendAll (l : List (Nat × Token)) (s : State) : (sendAll s t edge dst rtag l).now = s.now := by
  induction l generalizing s with
  | nil => rfl
  | cons x l ih => exact (ih _).trans (cachesOnly_release ..).now

theorem focus_sendAll (l : List (Nat × Token)) (s : State) : (sendAll s t edge dst rtag l).focus = s.focus := by
  induction l generalizing s with
  | nil => rfl
  | cons x l ih => exact (ih _).trans (focus_sentOn ..)

theorem State.task_here_holdIssue (x : State) (n : Nat) : (x.holdIssue n).task (x.holdIssue n).here = x.task x.here := by
  by_cases hn : n = 0
  · simp [State.holdIssue, hn]
  · simp [State.holdIssue, hn, State.task, State.here, State.updCell0]

/-- Sends of DUP: an issue cycle for each port (17:R257). -/
theorem sendEach_of_ready (l : List (Nat × Token)) (hready : PortsReady s t edge dst rtag (l.map (·.1)))
    (hnodup : (l.map (·.1)).Nodup) (hne : l ≠ []) :
    s.sendEach t l = ((sendAll s t edge dst rtag l).issued
        ({ t with sent := (l.map (·.1)).reverse ++ t.sent } : Task).fallThrough l.length).updCell0 fun c =>
      { c with issuedAt := some (s.now + l.length - 1) } := by
  obtain ⟨-, -, hdone, -⟩ := id hready
  have hlen : l.length ≠ 0 := by simpa using hne
  have hsent : s.sendThen t l (fun s u => (s.completeIn u (u.done.length - t.done.length)).holdIssue
        (u.done.length - t.done.length))
      = ((sendAll s t edge dst rtag l).issued
        ({ t with sent := (l.map (·.1)).reverse ++ t.sent } : Task).fallThrough l.length).holdIssue l.length := by
    have hcount : ((l.map (·.1)).reverse).length - t.done.length = l.length := by simp [hdone]
    rw [sendThen_of_ready l hready hnodup hne]
    dsimp only [State.completeIn]
    rw [hcount, State.issued_fallThrough_done _ { t with sent := (l.map (·.1)).reverse ++ t.sent }]
  obtain ⟨u, hu, hudone⟩ := State.task_here_issued (sendAll s t edge dst rtag l)
    ({ t with sent := (l.map (·.1)).reverse ++ t.sent } : Task).fallThrough l.length
  unfold State.sendEach
  dsimp only
  rw [hsent, State.task_here_holdIssue, hu]
  simp only [hudone, List.length_nil, Nat.zero_sub, State.holdIssue, hlen, if_false, if_true, State.issued_now,
    now_sendAll]

end ready

/-! ### Masks -/

theorem nodup_maskPorts (m : BitVec 4) : (maskPorts m).Nodup := List.nodup_range.filter _

theorem maskPorts_ne_nil {m : BitVec 4} (h : m ≠ 0) : maskPorts m ≠ [] := by
  revert m
  decide

/-! ### The claims on ready ports -/

theorem sendsOnEdges : SendsOnEdges := by
  intro s t g op ports sa pred aux kind edge dst rtag ht u null tok mask
  refine ⟨fun hready => ⟨fun hg => ?_, fun hg => ?_, fun hg => ?_, fun hg => ⟨?_, ?_, ?_⟩⟩, fun hready hports => ?_⟩
  · refine (guardedOr_of_holds ht hg _ _).trans (congrArg _ ?_)
    dsimp only
    rw [tok_touch, Task.touch_eq_reads]
    exact sendThen_single (PortsReady.reads hready [sa]) tok
  · exact (guardedOr_of_holds ht hg _ _).trans (congrArg _ (sendThen_single hready null))
  · refine (guardedOr_of_holds ht hg _ _).trans (congrArg _ ?_)
    rw [sendThen_of_ready [(op.toNat, t.tok 3 .none 3 0)] hready (by simp) (by simp)]
    dsimp only
    rw [focus_sendAll]
    exact State.complete_done _ { t with sent := op.toNat :: t.sent } _
  · exact (guardedOr_of_not_holds ht hg _ _).trans (congrArg _ (sendThen_single hready null))
  · exact (guardedOr_of_not_holds ht hg _ _).trans (congrArg _ (sendThen_single hready null))
  · exact (guardedOr_of_not_holds ht hg _ _).trans (congrArg _ (sendThen_single hready null))
  · have hports' : ∀ x : Token, (mask.map fun p => (p, x)).map (·.1) = mask := fun x => by
      simp [Function.comp_def]
    have hnodup : mask.Nodup := nodup_maskPorts ports
    have hne : mask ≠ [] := maskPorts_ne_nil hports
    have hdup : ∀ (w : Task) (x : Token), PortsReady s w edge dst rtag mask →
        s.sendEach w (mask.map fun p => (p, x)) = _ := fun w x hw =>
      sendEach_of_ready (edge := edge) (dst := dst) (rtag := rtag) (mask.map fun p => (p, x))
        (by rwa [hports']) (by rwa [hports']) (by simpa using hne)
    simp only [hports', List.length_map] at hdup
    refine ⟨fun hg => (guardedOr_of_holds ht hg _ _).trans (congrArg _ ?_),
      fun hg => (guardedOr_of_not_holds ht hg _ _).trans (congrArg _ (hdup t null hready))⟩
    dsimp only
    rw [tok_touch, Task.touch_eq_reads]
    exact hdup u tok (PortsReady.reads hready [sa])

theorem steerSelectsPort : SteerSelectsPort := by
  intro s t g hi sa pt aux kind edge dst rtag ht lo u tok i hready
  have hlo : 2 * hi.toNat = lo := by cases hi <;> rfl
  have hpair : ∀ (w : Task) (x y : Token), PortsReady s w edge dst rtag [lo, lo + 1] →
      s.sendThen w [(lo, x), (lo + 1, y)] State.complete = _ := fun w x y hw =>
    sendThen_complete (edge := edge) (dst := dst) (rtag := rtag) [(lo, x), (lo + 1, y)] hw (by simp) (by simp)
  have hpred : (t.touch [sa]).pred pt = t.pred pt := rfl
  refine ⟨fun hg hp => ?_, fun hg hp => ?_, fun hg => ?_⟩
  · refine (guardedOr_of_holds ht hg _ _).trans (congrArg _ ?_)
    dsimp only
    rw [hlo, hpred, if_pos hp, tok_touch, Task.touch_eq_reads]
    exact hpair u _ _ (PortsReady.reads hready [sa])
  · refine (guardedOr_of_holds ht hg _ _).trans (congrArg _ ?_)
    dsimp only
    rw [hlo, hpred, hp, if_neg Bool.false_ne_true, tok_touch, Task.touch_eq_reads]
    exact hpair u _ _ (PortsReady.reads hready [sa])
  · refine (guardedOr_of_not_holds ht hg _ _).trans (congrArg _ ?_)
    rw [hlo]
    exact hpair t _ _ hready

end Sys2Proof.Machine

/-! # Where a token goes that does not take an edge's credit (05:R70, R91, R396; 07:R119, R127) -/

namespace Sys2Proof.Machine

open Sys2Proof.Claims

section single

variable {s : State} {t : Task} {n : Node} {p : Nat} {e : Edge}

/-- A send on a port that is not in use. -/
theorem sendThen_of_unused (hn : s.node s.focus.toNat t.ver t.node = some n)
    (hout : ∀ e, n.outputs[p]? ≠ some (some e)) (tok : Token) (k : State → Task → State) :
    s.sendThen t [(p, tok)] k = s.raiseWord t Cause.protection := by
  have hunused : s.portInUse t p = false := by
    unfold State.portInUse
    rw [hn]
    rcases ho : n.outputs[p]? with _ | (_ | e)
    · simp [ho]
    · simp [ho]
    · exact absurd ho (hout e)
  simp [State.sendThen, hunused]

variable (hn : s.node s.focus.toNat t.ver t.node = some n) (hout : n.outputs[p]? = some (some e))

include hn hout

theorem sendThen_of_scopeOut (hdone : t.done = []) {d : Nat}
    (hscope : s.scopeOut ⟨s.focus.toNat, t.ver, t.node, p⟩ t.ctx = some d) (tok : Token) (k : State → Task → State) :
    s.sendThen t [(p, tok)] k = s.raise t Cause.scope t.pc.toNat d := by
  have hused : s.portInUse t p = true := by simp [State.portInUse, hn, hout]
  simp [State.sendThen, hused, hdone, hscope]

/-- What becomes of the one send of an instruction. -/
def sendEnd (t : Task) (p : Nat) (k : State → Task → State) (s : State) : SendOut → State
  | .sent s' => k s' { t with done := [p], sent := p :: t.sent }
  | .stall s' w => s'.retry t w.counter w.vstall
  | .scope d => s.raise t Cause.scope t.pc.toNat d

omit hn hout in
theorem sendEnd_sent (s' : State) :
    sendEnd t p State.complete s (.sent s') = s'.complete { t with sent := p :: t.sent } :=
  State.complete_done _ { t with sent := p :: t.sent } [p]

theorem sendThen_eq_sendEnd (hnothing : NothingEarlier s t) (hdone : t.done = [])
    (hscope : s.scopeOut ⟨s.focus.toNat, t.ver, t.node, p⟩ t.ctx = none) (tok : Token) (k : State → Task → State) :
    s.sendThen t [(p, tok)] k = sendEnd t p k s (s.trySend ⟨s.focus.toNat, t.ver, t.node, p⟩ tok) := by
  have hused : s.portInUse t p = true := by simp [State.portInUse, hn, hout]
  have howed : [(p, tok)].filter (fun x => !t.done.contains x.1) = [(p, tok)] := by simp [hdone]
  unfold State.sendThen
  rw [howed]
  simp only [List.any_cons, List.any_nil, hused, List.findSome?_cons, List.findSome?_nil, hscope]
  rw [NothingEarlier.beforeRelease hnothing]
  simp only [State.sendList, hdone]
  cases s.trySend ⟨s.focus.toNat, t.ver, t.node, p⟩ tok <;> simp [sendEnd]

omit hn hout in
theorem trySend_of_promotion (hprom : s.cell0.prom ≠ none) (tok : Token) :
    s.trySend ⟨s.focus.toNat, t.ver, t.node, p⟩ tok = .stall s .promotion := by
  have hstalls : s.releaseStalls s.focus.toNat = true := Option.isSome_iff_ne_none.mpr hprom
  simp [State.trySend, hstalls]

omit hn hout in
theorem releaseStalls_of_no_promotion (hprom : s.cell0.prom = none) : s.releaseStalls s.focus.toNat = false := by
  have hcell : (s.cell s.focus.toNat).prom = none := hprom
  simp [State.releaseStalls, hcell]

theorem trySend_of_internal (hprom : s.cell0.prom = none) (hhost : s.hostPending s.focus.toNat e.scope = false)
    {dst : Nat} {rtag : BitVec 8} (hdest : e.dest = .internal dst rtag) (tok : Token) :
    s.trySend ⟨s.focus.toNat, t.ver, t.node, p⟩ tok
      = s.sendInternal ⟨s.focus.toNat, t.ver, t.node, p⟩ e dst rtag tok := by
  simp [State.trySend, releaseStalls_of_no_promotion hprom, hn, hout, hhost, hdest]

theorem trySend_of_external (hprom : s.cell0.prom = none) (hhost : s.hostPending s.focus.toNat e.scope = false)
    {cfg node port : Nat} (hdest : e.dest = .external cfg node port) (tok : Token) :
    s.trySend ⟨s.focus.toNat, t.ver, t.node, p⟩ tok
      = s.sendExternal ⟨s.focus.toNat, t.ver, t.node, p⟩ cfg node port tok := by
  simp [State.trySend, releaseStalls_of_no_promotion hprom, hn, hout, hhost, hdest]

theorem scopeOut_of_internal {dst : Nat} {rtag : BitVec 8} (hdest : e.dest = .internal dst rtag) (ctx : BitVec 10) :
    s.scopeOut ⟨s.focus.toNat, t.ver, t.node, p⟩ ctx = none := by
  simp [State.scopeOut, hn, hout, hdest]

section external

variable {cfg node port : Nat} (hdest : e.dest = .external cfg node port) (ctx : BitVec 10)

include hdest

/-- A destination outside the declared scope of a node that is no LANDING node (07:R119). -/
theorem scopeOut_of_outside {x : Place} (hplace : s.resolve (hallOf s.focus.toNat) ctx cfg node = some x)
    (hrole : n.role ≠ .landing) (hscope : Scope.le (scopeBetween s.focus.toNat x.cell) n.scope = false) :
    s.scopeOut ⟨s.focus.toNat, t.ver, t.node, p⟩ ctx = some x.cell := by
  simp [State.scopeOut, hn, hout, hdest, hplace, hrole, hscope]

theorem scopeOut_of_inside
    (hinside : ∀ x, s.resolve (hallOf s.focus.toNat) ctx cfg node = some x →
      n.role = .landing ∨ Scope.le (scopeBetween s.focus.toNat x.cell) n.scope = true) :
    s.scopeOut ⟨s.focus.toNat, t.ver, t.node, p⟩ ctx = none := by
  unfold State.scopeOut
  simp only [hn, hout, hdest, Option.join_some, Option.map_some]
  rcases hplace : s.resolve (hallOf s.focus.toNat) ctx cfg node with _ | x
  · rfl
  · rcases hinside x hplace with hrole | hscope
    · simp [hrole]
    · simp [hscope]

end external

end single

/-! ### An edge inside the configuration without a credit, and an edge to another configuration -/

section routes

variable {s : State} {e : Edge} (at_ : PortRef)

theorem sendInternal_of_ring (hcredit : e.credits = 0 ∨ e.ringTokens ≠ []) {cap : Nat} (hring : e.ring = some cap)
    (hroom : e.ringTokens.length < cap) (dst : Nat) (rtag : BitVec 8) (tok : Token) :
    s.sendInternal at_ e dst rtag tok = .sent ((s.release at_.cell at_.node e.scope).updEdge at_ fun x =>
      { x with
        ringTokens := x.ringTokens ++ [{ tok with ver := at_.ver, dst := BitVec.ofNat 18 dst, rtag := rtag, scope := e.scope }]
        stalledSince := none }) := by
  have hnone : ¬(decide (0 < e.credits) && e.ringTokens.isEmpty) = true := by
    rcases hcredit with h | h <;> simp [h]
  unfold State.sendInternal
  rw [if_neg hnone, hring]
  exact if_pos (decide_eq_true hroom)

theorem sendInternal_of_full (hcredit : e.credits = 0 ∨ e.ringTokens ≠ [])
    (hfull : ∀ cap, e.ring = some cap → cap ≤ e.ringTokens.length) (dst : Nat) (rtag : BitVec 8) (tok : Token) :
    s.sendInternal at_ e dst rtag tok = s.stallEdge at_ := by
  have hnone : ¬(decide (0 < e.credits) && e.ringTokens.isEmpty) = true := by
    rcases hcredit with h | h <;> simp [h]
  unfold State.sendInternal
  rw [if_neg hnone]
  cases hring : e.ring with
  | none => rfl
  | some cap => exact if_neg (by simpa using hfull cap hring)

section external

variable {tok : Token} {cfg node port : Nat} {c : CfgRt} (hcfg : s.cfg tok.ctx cfg = some c)
  (hswitch : (s.hall (hallOf at_.cell)).switching = false) (hscope : s.scopeOut at_ tok.ctx = none)

include hcfg hswitch hscope

theorem sendExternal_of_credit {x : Place} (hplace : s.resolve (hallOf at_.cell) tok.ctx cfg node = some x)
    (hvest : c.vest = []) (hcredit : 0 < tgetD c.credits 16 (node * 4 + port)) :
    s.sendExternal at_ cfg node port tok = .sent (((s.release at_.cell at_.node (scopeBetween at_.cell x.cell)).updEdge
      at_ fun e => { e with stalledSince := none }).deliverExt at_.cell tok.ctx cfg node port x.cell
        { tok with scope := scopeBetween at_.cell x.cell, edge := s.edgeOf at_ }) := by
  simp [State.sendExternal, hcfg, hswitch, hscope, hplace, hvest, hcredit]

/-- A token that its destination has no credit for, or that others in the vestibule go before (05:R396). -/
theorem sendExternal_of_no_credit {x : Place} (hplace : s.resolve (hallOf at_.cell) tok.ctx cfg node = some x)
    (hnone : c.vest ≠ [] ∨ tgetD c.credits 16 (node * 4 + port) = 0) :
    s.sendExternal at_ cfg node port tok = if c.vest.length < c.vestCap then
        .sent (((s.release at_.cell at_.node (scopeBetween at_.cell x.cell)).updEdge at_ fun e =>
          { e with stalledSince := none }).toVest tok.ctx cfg node port
            { tok with scope := scopeBetween at_.cell x.cell, edge := s.edgeOf at_ })
      else s.stallEdge at_ := by
  have hno : (c.vest.isEmpty && decide (0 < tgetD c.credits 16 (node * 4 + port))) = false := by
    rcases hnone with h | h <;> simp [h]
  simp only [State.sendExternal, hcfg, hswitch, hscope, hplace, hno, Bool.false_eq_true, if_false]

theorem sendExternal_of_no_place (hplace : s.resolve (hallOf at_.cell) tok.ctx cfg node = none) :
    s.sendExternal at_ cfg node port tok = if c.vest.length < c.vestCap then
        .sent (((s.release at_.cell at_.node .device).updEdge at_ fun e =>
          { e with stalledSince := none }).toVest tok.ctx cfg node port
            { tok with scope := .device, edge := s.edgeOf at_ })
      else s.stallEdge at_ := by
  simp [State.sendExternal, hcfg, hswitch, hscope, hplace]

end external

theorem edgeOf_of_node {n : Node} (hn : s.node at_.cell at_.ver at_.node = some n) :
    s.edgeOf at_ = (s.version at_.cell at_.ver).owner.map fun o => (o.2, n.gid, at_.port) := by
  unfold State.edgeOf
  rw [hn]
  cases (s.version at_.cell at_.ver).owner <;> rfl

end routes

theorem State.updEdge_congr {s : State} {at_ : PortRef} {f g : Edge → Edge} {n : Node} {e : Edge}
    (hn : s.node at_.cell at_.ver at_.node = some n) (hout : n.outputs[at_.port]? = some (some e)) (hfg : f e = g e) :
    s.updEdge at_ f = s.updEdge at_ g :=
  State.updNode_congr hn (congrArg (fun l => { n with outputs := l }) (lset_congr hout (congrArg some hfg)))

/-! ### SENDN -/

theorem execSendn_eq {s : State} {t : Task} (ht : s.task s.here = some t) (g : Guard) (op : BitVec 2) :
    exec (.sendn g op) s = .next (s.sendThen t [(op.toNat, t.nullTok)] State.complete) := by
  cases hg : t.holds g with
  | true => exact guardedOr_of_holds ht hg _ _
  | false => exact guardedOr_of_not_holds ht hg _ _

theorem sendTokenRoutes : SendTokenRoutes := by
  intro s t n g op ht hn hnothing hdone here p i null noted setEdge stalled
  have hexec : exec i s = .next (s.sendThen t [(p, t.nullTok)] State.complete) := execSendn_eq ht g op
  rw [hexec]
  let at_ : PortRef := ⟨here, t.ver, t.node, p⟩
  refine ⟨fun hout => ?_, fun e hout hdest hprom => ?_, fun e hout hprom hhost dst rtag hdest hcredit => ⟨?_, ?_⟩, ?_⟩
  · exact congrArg _ (sendThen_of_unused hn hout _ _)
  · obtain ⟨dst, rtag, hdest⟩ := hdest
    rw [sendThen_eq_sendEnd hn hout hnothing hdone (scopeOut_of_internal hn hout hdest _), trySend_of_promotion hprom]
    rfl
  · intro cap hring hroom
    rw [sendThen_eq_sendEnd hn hout hnothing hdone (scopeOut_of_internal hn hout hdest _),
      trySend_of_internal hn hout hprom hhost hdest, sendInternal_of_ring _ hcredit hring hroom, sendEnd_sent]
    refine congrArg (fun x : State => Host.Outcome.next (x.complete noted)) (State.updEdge_congr ?_ hout rfl)
    rw [(cachesOnly_release ..).node, hn]
  · intro hfull
    rw [sendThen_eq_sendEnd hn hout hnothing hdone (scopeOut_of_internal hn hout hdest _),
      trySend_of_internal hn hout hprom hhost hdest, sendInternal_of_full _ hcredit hfull]
    rfl
  · intro e hout cfg node port c hdest hcfg place credit sent tok toVest
    refine ⟨fun x hplace hrole hscope => ?_, fun hinside => ⟨fun hprom => ?_, fun hprom hhost hswitch => ⟨?_, ?_⟩⟩⟩
    · exact congrArg _ (sendThen_of_scopeOut hn hout hdone (scopeOut_of_outside hn hout hdest _ hplace hrole hscope) _ _)
    · rw [sendThen_eq_sendEnd hn hout hnothing hdone (scopeOut_of_inside hn hout hdest _ hinside),
        trySend_of_promotion hprom]
      rfl
    all_goals
      have hscope := scopeOut_of_inside hn hout hdest t.ctx hinside
      have hedge := edgeOf_of_node at_ hn
      have hsend : s.sendThen t [(p, t.nullTok)] State.complete
          = sendEnd t p State.complete s (s.sendExternal at_ cfg node port t.nullTok) := by
        rw [sendThen_eq_sendEnd hn hout hnothing hdone hscope, trySend_of_external hn hout hprom hhost hdest]
      dsimp only [toVest]
      rw [hsend]
    · intro x hplace
      refine ⟨fun hvest hcredit => ?_, fun hnone hroom => ?_, fun hnone hfull => ?_⟩
      · rw [sendExternal_of_credit at_ (tok := t.nullTok) hcfg hswitch hscope hplace hvest hcredit, hedge, sendEnd_sent]
        rfl
      · rw [sendExternal_of_no_credit at_ (tok := t.nullTok) hcfg hswitch hscope hplace hnone, if_pos hroom, hedge, sendEnd_sent]
        rfl
      · rw [sendExternal_of_no_credit at_ (tok := t.nullTok) hcfg hswitch hscope hplace hnone, if_neg (Nat.not_lt.mpr hfull)]
        rfl
    · intro hplace
      refine ⟨fun hroom => ?_, fun hfull => ?_⟩
      · rw [sendExternal_of_no_place at_ (tok := t.nullTok) hcfg hswitch hscope hplace, if_pos hroom, hedge, sendEnd_sent]
        rfl
      · rw [sendExternal_of_no_place at_ (tok := t.nullTok) hcfg hswitch hscope hplace, if_neg (Nat.not_lt.mpr hfull)]
        rfl

/-! ### Selections (17:R248) -/

/-- The task after a write of a predicate and a scalar. -/
def Task.selected (t : Task) (now : Nat) (sd : BitVec 5) (v : Word) (pt : BitVec 3) (b : Bool) : Task :=
  ((t.setPred pt b).setReg sd v).readyIn sd now 1

section selected

variable (t : Task) (now : Nat) (sd : BitVec 5) (v : Word) (pt : BitVec 3) (b : Bool)

theorem Task.reg_selected (r : BitVec 5) :
    (t.selected now sd v pt b).reg r = if r = sd then (if sd = 0 then 0 else v) else t.reg r := by
  have hreg : (t.selected now sd v pt b).reg r = ((t.setPred pt b).setReg sd v).reg r :=
    Task.reg_eq_of_regs (by simp [Task.selected]) r
  have hpred : (t.setPred pt b).reg r = t.reg r := Task.reg_eq_of_regs (by by_cases h : pt = 0#3 <;> simp [Task.setPred, h]) r
  rw [hreg, Task.reg_setReg, hpred]

theorem Task.pred_selected (q : BitVec 3) :
    (t.selected now sd v pt b).pred q = if q = pt then (if pt = 0 then true else b) else t.pred q := by
  rw [← Task.pred_setPred]
  simp [Task.pred, Task.selected]

theorem Task.selected_eq : t.selected now sd v pt b = { t with
    regs := (t.selected now sd v pt b).regs, ready := (t.selected now sd v pt b).ready
    preds := (t.selected now sd v pt b).preds } := by
  by_cases hpt : pt = 0#3 <;> by_cases hsd : sd = 0#5 <;>
    simp [Task.selected, Task.setPred, Task.setReg, Task.readyIn, hpt, hsd]

end selected

theorem execSelectNN_eq {s : State} {t : Task} (ht : s.task s.here = some t) {g : Guard} (hg : t.holds g = true)
    (sd : BitVec 5) (ia ib : BitVec 2) (pt : BitVec 3) :
    let a := t.inTok ia
    let b := t.inTok ib
    exec (.selectNN g sd ia ib pt) s = .next (s.complete (Task.selected
      { t with taint := t.taint || (if a.pred ≠ .null then a.poison else decide (b.pred ≠ .null) && b.poison) }
      s.now sd (if a.pred ≠ .null then a.payload else if b.pred ≠ .null then b.payload else 0) pt
      (decide (a.pred ≠ .null)))) := by
  intro a b
  refine (guarded_of_holds ht hg _).trans (congrArg _ ?_)
  by_cases ha : a.pred = .null
  · by_cases hb : b.pred = .null
    · simp [a, b, ha, hb, State.result, Task.selected]
    · simp [a, b, ha, hb, State.result, Task.selected, Task.touch]
  · simp [a, ha, State.result, Task.selected, Task.touch]

theorem selections : Selections := by
  intro s t g sd sa sb ia ib pt ht x a b
  refine ⟨⟨fun hg => guarded_of_not_holds ht hg _, fun hg => ⟨_, guarded_of_holds ht hg _, ?_⟩⟩,
    fun hg => guarded_of_not_holds ht hg _, fun hg => ⟨_, execSelectNN_eq ht hg sd ia ib pt, ?_, ?_, ?_, ?_, ?_⟩⟩
  · rw [← Task.val_eq_sourceValue]
    exact scalarResult_setReg ..
  · rw [Task.reg_selected, if_pos rfl]
  · intro r hr
    rw [Task.reg_selected, if_neg hr]
    rfl
  · rw [Task.pred_selected, if_pos rfl]
  · intro q hq
    rw [Task.pred_selected, if_neg hq]
    rfl
  · exact Task.selected_eq ..

/-- Settles O19: the sends on ports that are ready, STEER's two ports, the other routes of a token, and the selections. -/
theorem tokenSends : Obligations.TokenSends :=
  ⟨sendsOnEdges, steerSelectsPort, sendTokenRoutes, selections⟩

end Sys2Proof.Machine

/-! # Iteration tags and the LOOPB window (05:R75, R76; 17:R250 to R252) -/

namespace Sys2Proof.Machine

open Sys2Proof.Claims

/-! ### TAGGET and TAGSET -/

theorem setTag_of_live (s : State) (t : Task) (a : Word) {live : Bool} (h : live = true) :
    s.setTag t a live = s.complete { t with sendIter := BitVec.ofNat 12 a.toNat } := by
  rw [State.setTag, if_pos h]
  congr

theorem setTag_of_not_live (s : State) (t : Task) (a : Word) {live : Bool} (h : live = false) :
    s.setTag t a live = s.raise t Cause.tagWindow (a.toNat % 4096) a.toNat := by
  rw [State.setTag, h]
  rfl

theorem State.task_here_park (s : State) (t : Task) (w : Wait) :
    (s.park t w).task s.here = some { t with wait := w, waitAt := some s.now } := by
  simp [State.park, State.task, State.here, State.updCell0, State.setTask]

section tagset

variable {s : State} {t : Task} {g : Guard} (ht : s.task s.here = some t) (hg : t.holds g = true) (sa : Spec)

include ht hg

theorem execTagset_of_no_loopb (hspec : s.loopbSpec t.ctx = none) :
    exec (.tagset g sa) s = .next (s.setTag (Claims.reads t [sa]) (sourceValue t sa)
      (decide ((sourceValue t sa).toNat % 4096 = 0))) := by
  refine (guarded_of_holds ht hg _).trans (congrArg _ ?_)
  simp only [hspec, Task.val_eq_sourceValue, Task.touch_eq_reads]

theorem execTagset_of_here {x : Nat × NodeSpec} {p : Place} {n : Node} (hspec : s.loopbSpec t.ctx = some x)
    (hplace : s.loopbPlace t.ctx = some p) (hcell : p.cell = s.focus.toNat) (hn : s.node p.cell p.ver p.node = some n) :
    exec (.tagset g sa) s = .next (s.setTag (Claims.reads t [sa]) (sourceValue t sa)
      (n.liveTag ((sourceValue t sa).toNat % 4096))) := by
  refine (guarded_of_holds ht hg _).trans (congrArg _ ?_)
  rw [hcell] at hn
  simp only [hspec, hplace, hcell, hn, if_true, Task.val_eq_sourceValue, Task.touch_eq_reads]

theorem execTagset_of_elsewhere {x : Nat × NodeSpec} (hspec : s.loopbSpec t.ctx = some x)
    (hplace : ∀ p, s.loopbPlace t.ctx = some p → p.cell ≠ s.focus.toNat) :
    exec (.tagset g sa) s = .next ((s.addOp ⟨0, 0, .tagset (sourceValue t sa), 0, 0, 0, .d, false⟩).park
      (Claims.reads t [sa]) (.op s.nextOpId)) := by
  refine (guarded_of_holds ht hg _).trans (congrArg _ ?_)
  simp only [hspec, Task.val_eq_sourceValue, Task.touch_eq_reads]
  cases hp : s.loopbPlace t.ctx with
  | none => rfl
  | some p => exact if_neg (hplace p hp)

end tagset

theorem iterationTags : IterationTags := by
  intro s t g sd sa ht a u set bad
  have hset : ∀ live, live = true → exec (.tagset g sa) s = .next (s.setTag u (sourceValue t sa) live) → set :=
    fun live hlive h => h.trans (congrArg _ (setTag_of_live _ _ _ hlive))
  have hbad : ∀ live, live = false → exec (.tagset g sa) s = .next (s.setTag u (sourceValue t sa) live) → bad :=
    fun live hlive h => h.trans (congrArg _ (setTag_of_not_live _ _ _ hlive))
  refine ⟨⟨fun hg => guarded_of_not_holds ht hg _, fun hg => ⟨_, guarded_of_holds ht hg _, ?_⟩⟩,
    fun hg => guarded_of_not_holds ht hg _, fun hg => ⟨fun hspec => ⟨fun ha => ?_, fun ha => ?_⟩,
      fun x p n hspec hplace hcell hn => ⟨fun ha => ?_, fun ha => ?_⟩, fun x hspec hplace => ?_⟩⟩
  · have hresult := scalarResult_setReg s.now 1 t sd [] (BitVec.ofNat 64 (t.ctx.toNat * 4096 + t.sendIter.toNat))
    have hnone : t.touch [] = t := by simp [Task.touch]
    rwa [hnone] at hresult
  · exact hset _ (decide_eq_true ha) (execTagset_of_no_loopb ht hg sa hspec)
  · exact hbad _ (decide_eq_false ha) (execTagset_of_no_loopb ht hg sa hspec)
  · exact hset _ (decide_eq_true ha) (execTagset_of_here ht hg sa hspec hplace hcell hn)
  · exact hbad _ (decide_eq_false (Nat.not_lt.mpr ha)) (execTagset_of_here ht hg sa hspec hplace hcell hn)
  · exact ⟨_, execTagset_of_elsewhere ht hg sa hspec hplace, State.task_here_park ..⟩

/-! ### LOOPB.ISSUE -/

theorem tgetD_map_of_default {α : Type} (f : α → α) (d : α) (hd : f d = d) (l : Tbl α) (i : Nat) :
    tgetD (l.map fun x => (x.1, f x.2)) d i = f (tgetD l d i) := by
  unfold tgetD
  rw [tget_map fun _ => f]
  cases tget l i <;> simp [hd]

/-- The cell when a tag begins anew. -/
def Cell.newTag (c : Cell) (ctx : BitVec 10) (tag : Nat) : Cell :=
  { c with v0 := c.v0.newTag ctx tag, v1 := c.v1.newTag ctx tag }

/-- The node whose window has issued a tag. -/
def Node.tagTaken (n : Node) (tag : Nat) : Node := { n with loopNext := (tag + 1) % 4096 }

section takeTag

variable (s : State) (t : Task) (tag : Nat)

theorem cell_takeTag (k : Nat) : (s.takeTag t tag).cell k
    = ((s.updNode s.focus.toNat t.ver t.node fun n => n.tagTaken tag).cell k).newTag t.ctx tag :=
  tgetD_map_of_default (fun c : Cell => c.newTag t.ctx tag) {} rfl _ k

theorem cell0_takeTag : (s.takeTag t tag).cell0
    = ((s.updNode s.focus.toNat t.ver t.node fun n => n.tagTaken tag).cell s.focus.toNat).newTag t.ctx tag :=
  cell_takeTag s t tag s.focus.toNat

theorem prom_takeTag : (s.takeTag t tag).cell0.prom = s.cell0.prom := by
  rw [cell0_takeTag]
  unfold State.updNode State.updVersion
  rw [State.cell_updCell_same]
  simp [Cell.newTag, State.cell0]

theorem ops_takeTag : (s.takeTag t tag).cell0.ops = s.cell0.ops := by
  rw [cell0_takeTag]
  unfold State.updNode State.updVersion
  rw [State.cell_updCell_same]
  simp [Cell.newTag, State.cell0]

theorem node_takeTag : (s.takeTag t tag).node s.focus.toNat t.ver t.node
    = (s.node s.focus.toNat t.ver t.node).map fun n => (n.tagTaken tag).newTag t.ctx tag := by
  have hversion : (s.takeTag t tag).version s.focus.toNat t.ver
      = ((s.updNode s.focus.toNat t.ver t.node fun n => n.tagTaken tag).version s.focus.toNat t.ver).newTag t.ctx tag := by
    unfold State.version
    rw [cell_takeTag]
    cases t.ver <;> rfl
  have hnode := State.node_updNode_same s s.focus.toNat t.ver t.node fun n => n.tagTaken tag
  unfold State.node at hnode ⊢
  rw [hversion]
  simp only [Version.newTag, List.getElem?_map, hnode, Option.map_map, Function.comp_def]

theorem PortsReady.takeTag {s : State} {t : Task} {edge : Nat → Edge} {dst : Nat → Nat} {rtag : Nat → BitVec 8}
    {ports : List Nat} (h : PortsReady s t edge dst rtag ports) (tag : Nat) :
    PortsReady (s.takeTag t tag) t edge dst rtag ports := by
  obtain ⟨hprom, ⟨hops, hnet, hstores⟩, hdone, n, hn, hports⟩ := h
  refine ⟨(prom_takeTag s t tag).trans hprom, ⟨?_, hnet, hstores⟩, hdone,
    (n.tagTaken tag).newTag t.ctx tag, (node_takeTag s t tag).trans (by rw [hn]; rfl), hports⟩
  unfold State.taskOps
  rw [ops_takeTag]
  exact hops

end takeTag

theorem portInUse_eq_true_of {s : State} {t : Task} {n : Node} {p : Nat}
    (hn : s.node s.focus.toNat t.ver t.node = some n) {e : Edge} (hout : n.outputs[p]? = some (some e)) :
    s.portInUse t p = true := by
  simp [State.portInUse, hn, hout]

theorem portInUse_eq_false_of {s : State} {t : Task} {n : Node} {p : Nat}
    (hn : s.node s.focus.toNat t.ver t.node = some n) (hout : ∀ e, n.outputs[p]? ≠ some (some e)) :
    s.portInUse t p = false := by
  unfold State.portInUse
  rw [hn]
  rcases ho : n.outputs[p]? with _ | (_ | e)
  · simp [ho]
  · simp [ho]
  · exact absurd ho (hout e)

section issue

variable {s : State} {t : Task} {n : Node} {g : Guard} (ht : s.task s.here = some t)
  (hn : s.node s.focus.toNat t.ver t.node = some n) (hg : t.holds g = true)
  (sd : BitVec 5) (op : BitVec 2) (sa : Spec) (pred : TPred) (aux : BitVec 9) (kind : TkKind)

include ht hn hg

theorem execLoopbIssue_of_protection (h : n.role ≠ .loopb ∨ ∀ e, n.outputs[op.toNat]? ≠ some (some e)) :
    exec (.loopbIssue g sd op sa pred aux kind) s = .next (s.raiseWord t Cause.protection) := by
  refine (guardedOr_of_holds ht hg _ _).trans (congrArg _ ?_)
  simp only [hn]
  refine if_pos ?_
  rcases h with hrole | hout
  · simp [hrole]
  · simp [portInUse_eq_false_of hn hout]

variable (hrole : n.role = .loopb) {e : Edge} (hout : n.outputs[op.toNat]? = some (some e)) (htaken : t.taken = none)

include hrole hout htaken

theorem execLoopbIssue_of_full (hfull : n.window ≤ (n.loopNext + 4096 - n.loopBase) % 4096) :
    exec (.loopbIssue g sd op sa pred aux kind) s = .next (s.retry t (some 1)) := by
  refine (guardedOr_of_holds ht hg _ _).trans (congrArg _ ?_)
  simp [hn, hrole, portInUse_eq_true_of hn hout, htaken, hfull]

theorem execLoopbIssue_of_room (hroom : (n.loopNext + 4096 - n.loopBase) % 4096 < n.window)
    (hscope : s.scopeOut ⟨s.focus.toNat, t.ver, t.node, op.toNat⟩ t.ctx = none) :
    exec (.loopbIssue g sd op sa pred aux kind) s = .next ((s.takeTag t n.loopNext).sendTag (Claims.reads t [sa]) sd op
      (tokenOf (Claims.reads t [sa]) kind.code pred aux (sourceValue t sa)) n.loopNext) := by
  refine (guardedOr_of_holds ht hg _ _).trans (congrArg _ ?_)
  have htok : (Claims.reads t [sa]).tok (TkKind.tok kind) pred aux (t.val sa)
      = tokenOf (Claims.reads t [sa]) kind.code pred aux (sourceValue t sa) := by
    rw [Task.val_eq_sourceValue]
    rfl
  simp [hn, hrole, portInUse_eq_true_of hn hout, htaken, Nat.not_le.mpr hroom, hscope, htok, Task.touch_eq_reads]

end issue

/-- The send of a tag on a port that is ready, and its result (17:R251). -/
theorem sendTag_of_ready {s : State} {t : Task} {edge : Nat → Edge} {dst : Nat → Nat} {rtag : Nat → BitVec 8}
    {op : BitVec 2} (hready : PortsReady s t edge dst rtag [op.toNat]) (sd : BitVec 5) (tok : Token) (tag : Nat) :
    s.sendTag t sd op tok tag
      = (sendAll s t edge dst rtag [(op.toNat, { tok with iter := BitVec.ofNat 12 tag })]).complete
          ((({ t with taken := some tag, sent := op.toNat :: t.sent, done := [op.toNat] } : Task).setReg sd
            (BitVec.ofNat 64 tag)).readyIn sd s.now 1) := by
  have hsent := sendThen_of_ready (s := s) (t := { t with taken := some tag }) (edge := edge) (dst := dst) (rtag := rtag)
    [(op.toNat, { tok with iter := BitVec.ofNat 12 tag })] hready (by simp) (by simp)
    fun s u => s.result u sd (BitVec.ofNat 64 tag) 1
  refine (hsent false).trans ?_
  rw [State.result, now_sendAll]
  rfl

theorem loopbWindow : LoopbWindow := by
  intro s t n g sd op sa pred aux kind edge dst rtag ht hn hg htaken here i u a used
  refine ⟨fun hrole hready hroom => ?_, fun hrole hout hfull => ?_, fun h => ?_, fun x p hspec hseen => ?_, fun hspec => ?_⟩
  · obtain ⟨⟨n', hn', hout⟩, hdest, -⟩ := PortsReady.portOpen hready (List.mem_singleton.mpr rfl)
    obtain rfl : n' = n := Option.some.inj (hn'.symm.trans hn)
    refine ⟨by rw [node_takeTag, hn]; rfl, ?_⟩
    have hresult := scalarResult_setReg s.now 1
      { t with sent := op.toNat :: t.sent, done := [op.toNat], taken := some n'.loopNext } sd [sa]
      (BitVec.ofNat 64 n'.loopNext)
    rw [Task.touch_eq_reads] at hresult
    have hexec := execLoopbIssue_of_room ht hn hg sd op sa pred aux kind hrole hout htaken hroom
      (scopeOut_of_internal hn hout hdest _)
    exact ⟨_, hexec.trans (congrArg _ (sendTag_of_ready (t := u) (PortsReady.takeTag hready n'.loopNext) sd _ _)), hresult⟩
  · obtain ⟨e, hout⟩ := hout
    exact execLoopbIssue_of_full ht hn hg sd op sa pred aux kind hrole hout htaken hfull
  · exact execLoopbIssue_of_protection ht hn hg sd op sa pred aux kind h
  · refine (guarded_of_holds ht hg _).trans (congrArg _ ?_)
    have hseen' : s.loopbSeen (hallOf s.focus.toNat) t.ctx = some p := hseen
    simp only [hspec, hseen', hn, Task.val_eq_sourceValue, Task.touch_eq_reads]
    rfl
  · refine (guarded_of_holds ht hg _).trans (congrArg _ ?_)
    simp only [hspec, Task.val_eq_sourceValue, Task.touch_eq_reads]
    rfl

/-! ### Retirements (17:R252) -/

/-- The tag `j` places after a window's base. -/
def tagAfter (base j : Nat) : Nat := (base + j) % 4096

theorem tagAfter_succ (base j : Nat) : tagAfter ((base + 1) % 4096) j = tagAfter base (j + 1) := by
  unfold tagAfter
  omega

theorem tagAfter_zero {base : Nat} (h : base < 4096) : tagAfter base 0 = base := Nat.mod_eq_of_lt h

/-- The retired tags that the first `d` places of a window do not hold. -/
def unpassed (base d : Nat) (l : List Nat) : List Nat :=
  l.filter fun r => (List.range d).all fun j => decide (r ≠ tagAfter base j)

theorem unpassed_zero (base : Nat) (l : List Nat) : unpassed base 0 l = l := by simp [unpassed]

theorem unpassed_succ {base : Nat} (h : base < 4096) (d : Nat) (l : List Nat) :
    unpassed base (d + 1) l = unpassed ((base + 1) % 4096) d (l.filter (· ≠ base)) := by
  unfold unpassed
  rw [List.filter_filter]
  refine List.filter_congr fun r _ => ?_
  rw [List.range_succ_eq_map, List.all_cons, List.all_map, tagAfter_zero h, Bool.and_comm]
  simp only [Function.comp_def, tagAfter_succ]

/-- How far a window's base passes: while the tag at the base has retired, at most as often as asked (05:R75). -/
theorem Node.advance_eq (k : Nat) {n : Node} (hbase : n.loopBase < 4096) (hk : k ≤ 4096) :
    ∃ d, d ≤ k ∧ (∀ j < d, tagAfter n.loopBase j ∈ n.retired) ∧ (d < k → tagAfter n.loopBase d ∉ n.retired)
      ∧ n.advance k = { n with retired := unpassed n.loopBase d n.retired, loopBase := tagAfter n.loopBase d } := by
  induction k generalizing n with
  | zero => exact ⟨0, Nat.le_refl 0, by simp, by simp, by rw [unpassed_zero, tagAfter_zero hbase]; rfl⟩
  | succ k ih =>
    by_cases hmem : n.loopBase ∈ n.retired
    · have hadvance : n.advance (k + 1)
          = { n with retired := n.retired.filter (· ≠ n.loopBase), loopBase := (n.loopBase + 1) % 4096 }.advance k := by
        rw [Node.advance, if_pos (by simpa using hmem)]
      obtain ⟨d, hd, hpassed, hstop, heq⟩ := ih
        (n := { n with retired := n.retired.filter (· ≠ n.loopBase), loopBase := (n.loopBase + 1) % 4096 })
        (Nat.mod_lt _ (by omega)) (by omega)
      have hother : ∀ j, j + 1 < 4096 → tagAfter n.loopBase (j + 1) ≠ n.loopBase := fun j hj => by
        unfold tagAfter
        omega
      simp only [tagAfter_succ, List.mem_filter] at hpassed hstop heq
      refine ⟨d + 1, by omega, fun j hj => ?_, fun hlt hin => ?_, ?_⟩
      · cases j with
        | zero => rwa [tagAfter_zero hbase]
        | succ j => exact (hpassed j (by omega)).1
      · exact hstop (by omega) ⟨hin, by simpa using hother d (by omega)⟩
      · rw [hadvance, heq, unpassed_succ hbase]
    · refine ⟨0, Nat.zero_le _, by simp, fun _ => by rwa [tagAfter_zero hbase], ?_⟩
      rw [Node.advance, if_neg (by simpa using hmem), unpassed_zero, tagAfter_zero hbase]

theorem arriving_of_inNet {s : State} {p : Packet} (h : InNet s p) : s.arriving s.choice.n = some p := by
  obtain ⟨hp, hfirst⟩ := h
  simp [State.arriving, hp, hfirst]

theorem lset_eq_set {α : Type} {l : List α} {i : Nat} {x : α} (hx : l[i]? = some x) (f : α → α) : lset l i f = l.set i (f x) := by
  refine List.ext_getElem? fun j => ?_
  by_cases hj : i = j
  · subst hj
    obtain ⟨hlt, rfl⟩ := List.getElem?_eq_some_iff.mp hx
    simp [lset, hlt]
  · simp [lset, hj]

/-- A retirement at its LOOPB node (17:R252). -/
theorem execRetirementArrival_of_here {s : State} {src dst : Nat} {ctx : BitVec 10} {a : Word} {by_ : NodeRef} {gid : Nat}
    {p : Place} {n : Node} (hnet : InNet s ⟨src, dst, .retire ctx a by_ gid⟩) (hplace : s.loopbPlace ctx = some p)
    (hcell : p.cell = dst) (hn : s.node p.cell p.ver p.node = some n) :
    exec .retirementArrival s = .next
      (if n.retired.contains (a.toNat % 4096)
          || (n.loopNext + 4096 - n.loopBase) % 4096 ≤ (a.toNat % 4096 + 4096 - n.loopBase) % 4096 then
        (taken s).nodeFault by_ Cause.tagWindow (a.toNat % 4096) a.toNat
      else (taken s).updNode p.cell p.ver p.node fun n => { n with retired := a.toNat % 4096 :: n.retired }.advance 4096) := by
  have hn' : (s.takePacket s.choice.n).node p.cell p.ver p.node = some n := hn
  subst hcell
  change execRetirementArrival s = _
  simp only [execRetirementArrival, arriving_of_inNet hnet, hplace, ne_eq, not_true_eq_false, decide_false, Bool.false_and, Bool.false_eq_true,
    if_false, hn']
  rfl

theorem retirements : Retirements := by
  intro s src dst ctx a by_ gid p n hnet hplace h
  have harrive := arriving_of_inNet hnet
  refine ⟨fun hcell hswitch => ?_, fun hcell hswitch => ?_, fun hcell hn hbase => ⟨fun hbad => ?_, fun hnew hroom => ?_⟩⟩
  · change execRetirementArrival s = _
    simp [execRetirementArrival, harrive, hplace, hcell, hswitch]
  · change execRetirementArrival s = _
    simp [execRetirementArrival, harrive, hplace, hcell, hswitch, lset_eq_set hnet.1]
  · refine (execRetirementArrival_of_here hnet hplace hcell hn).trans (congrArg _ (if_pos ?_))
    simpa using hbad
  · obtain ⟨d, hd, hpassed, hstop, heq⟩ := Node.advance_eq 4096 (n := { n with retired := a.toNat % 4096 :: n.retired })
      hbase (Nat.le_refl _)
    refine ⟨d, hd, hpassed, hstop, (execRetirementArrival_of_here hnet hplace hcell hn).trans (congrArg _ ?_)⟩
    rw [if_neg (by simpa using ⟨hnew, hroom⟩)]
    exact State.updNode_congr (s := taken s) (n := n) hn heq

/-- Settles O20: the tags that a task sets, the window's issues and retirements, and what a retirement does to the window. -/
theorem iterationsAndLoops : Obligations.IterationsAndLoops :=
  ⟨iterationTags, loopbWindow, retirements⟩

end Sys2Proof.Machine

/-! # Tokens at their destination (05:R62, R63, R81, R87; 09:R154) -/

namespace Sys2Proof.Machine

open Sys2Proof.Claims

/-! ### What a token is to its destination -/

theorem badKind_of_meaningless {t : Token} (h : Meaningless t) : t.badKind = true := by
  unfold Token.badKind
  rcases h with h | h | ⟨hk, ha⟩ | ⟨hk, ha⟩ | ⟨hk, ha⟩
  · simp [h]
  · simp [h]
  · simp [hk, ha]
  · simp only [hk]
    rcases ha with ha | ha | ⟨ha, hb⟩
    · simp [ha]
    · simp [ha]
    · simp [ha, hb]
  · simp only [hk]
    rcases ha with ha | ha
    · simp [show t.aux ≠ 0#9 from fun h0 => ha (by simp [h0])]
    · exact Bool.or_eq_true_iff.mpr (Or.inr (decide_eq_true ha))

theorem route_of_meaningless {t : Token} (h : Meaningless t) : t.route = .kindDrop := if_pos (badKind_of_meaningless h)

theorem kind_eq_iff (t : Token) (k : BitVec 3) : t.kind = k ↔ t.kind.toNat = k.toNat := BitVec.toNat_inj.symm

theorem route_of_channels {t : Token} (h : Channels t) : t.route = .channel := by
  obtain ⟨-, hk⟩ := h
  unfold Token.route Token.badKind
  simp only [kind_eq_iff]
  rcases hk with hk | ⟨hk, ha⟩ | ⟨hk, ha⟩
  · obtain hk | hk : t.kind.toNat = 0 ∨ t.kind.toNat = 1 := by omega
    · simp [hk]
    · simp [hk]
  · simp [hk, ha]
  · simp only [List.mem_cons, List.not_mem_nil, or_false] at ha
    rcases ha with ha | ha | ha <;> simp [hk, ha]

theorem kind_of_channels {t : Token} (h : Channels t) : t.kind ≠ 6 := by
  obtain ⟨-, hk⟩ := h
  rw [Ne, kind_eq_iff]
  rcases hk with hk | ⟨hk, -⟩ | ⟨hk, -⟩
  · exact fun h6 => absurd (h6 ▸ hk) (by decide)
  · exact fun h6 => absurd (h6.symm.trans hk) (by decide)
  · exact fun h6 => absurd (h6.symm.trans hk) (by decide)

theorem route_of_pack {t : Token} (h : t.kind.toNat = 6) : t.route = .pack := by
  unfold Token.route Token.badKind
  simp [kind_eq_iff, h]

theorem route_of_paddr {t : Token} (hk : t.kind.toNat = 5) (ha : t.aux = 0) (hp : t.payload.toNat < 2 ^ 48) :
    t.route = .paddr := by
  unfold Token.route Token.badKind
  simp only [kind_eq_iff, hk, ha]
  simp only [Nat.not_le.mpr hp, decide_false]
  rfl

/-! ### Records and credits -/

theorem late_eq_true_iff (b : Binding) (t : Token) : b.late t = true ↔ Late b t := by
  cases he : t.edge <;> simp [Binding.late, Late, he]

theorem late_eq_false_of {b : Binding} {t : Token} (h : ¬Late b t) : b.late t = false :=
  Bool.eq_false_iff.mpr (mt (late_eq_true_iff b t).mp h)

/-- A token that no command has sent is late with its count and its record (05:R87). -/
theorem lateToken_eq_discardedLate {t : Token} (h : t.cmd = none) (s : State) (cell : Nat) (ver : Bool) (rtag node : Nat) :
    s.lateToken cell ver rtag node t = discardedLate s cell ver rtag node t := by
  unfold State.lateToken State.endCmd
  rw [h]
  rfl

theorem logToken_unboundEntry (s : State) (cell : Nat) (t : Token) : s.logToken cell unboundEntry t = tokenEntry s cell 3 t := rfl
theorem logToken_kindEntry (s : State) (cell : Nat) (t : Token) : s.logToken cell kindEntry t = tokenEntry s cell 4 t := rfl

theorem returnCredit_of_source {b : Binding} {q : PortRef} (h : b.source = some q) (s : State) (cell : Nat) (v : Version) :
    s.returnCredit cell v b = credited s cell q := by
  unfold State.returnCredit
  rw [h]
  rfl

/-! ### A packet in expansion -/

/-- A token of another kind than PACK goes ahead where the packet in expansion gives it the turn (21:R320). -/
theorem packHolds_eq_false {s : State} {p : Packet} {t : Token} (hk : t.kind ≠ 6)
    (hturn : ∀ v r b, s.bindingFor p = some (v, r, b) → s.binding p.dst v r = some b ∧ TokensTurn s p.dst v r) :
    s.packHolds p t = false := by
  unfold State.packHolds
  rcases hb : s.bindingFor p with _ | ⟨v, r, b⟩
  · rfl
  · obtain ⟨hbind, ht⟩ := hturn v r b hb
    rcases hpack : b.pack with _ | k
    · simp [hpack]
    · obtain ⟨hfmt, hbit⟩ := ht b k hbind hpack
      have hk6 : ¬t.kind = 6#3 := hk
      simp [hpack, packTakes, packFmt, hfmt, hbit, hk6]

theorem bindingFor_token (s : State) (src dst : Nat) (t : Token) (q : Option PortRef) :
    s.bindingFor ⟨src, dst, .token t q⟩ = (s.binding dst t.ver t.rtag.toNat).map fun b => (t.ver, t.rtag.toNat, b) := rfl

/-- What the packet in expansion at a token's binding does when the token has arrived. -/
def movedOn (s : State) (dst : Nat) (t : Token) (u : State) : State :=
  match (s.version dst t.ver).bindings[t.rtag.toNat]? with
  | some _ => u.updBinding dst t.ver t.rtag.toNat Binding.packNext
  | none => u

theorem arriveToken_token (s : State) (n src dst : Nat) (t : Token) (q : Option PortRef) :
    s.arriveToken n ⟨src, dst, .token t q⟩ = movedOn s dst t ((s.takePacket n).arriveInt ⟨src, dst, .token t q⟩ t) := by
  unfold State.arriveToken movedOn
  simp only [bindingFor_token, State.binding]
  cases (s.version dst t.ver).bindings[t.rtag.toNat]? <;> rfl

theorem packHolds_token {s : State} {src dst : Nat} {t : Token} {q : Option PortRef} (hk : t.kind ≠ 6)
    (hturn : TokensTurn s dst t.ver t.rtag.toNat) : s.packHolds ⟨src, dst, .token t q⟩ t = false := by
  refine packHolds_eq_false hk fun v r b hb => ?_
  rw [bindingFor_token, Option.map_eq_some_iff] at hb
  obtain ⟨b', hb', he⟩ := hb
  obtain ⟨rfl, rfl, rfl⟩ := by simpa using he
  exact ⟨hb', hturn⟩

theorem execTokenArrival_token {s : State} {src dst : Nat} {t : Token} {q : Option PortRef}
    (hnet : InNet s ⟨src, dst, .token t q⟩) (hchan : Channels t) (hturn : TokensTurn s dst t.ver t.rtag.toNat) :
    exec .tokenArrival s = .next (movedOn s dst t ((taken s).arriveInt ⟨src, dst, .token t q⟩ t)) := by
  change execTokenArrival s = _
  simp only [execTokenArrival, State.tokenArrival, arriving_of_inNet hnet, Packet.token?, route_of_channels hchan,
    packHolds_token (kind_of_channels hchan) hturn]
  exact congrArg _ (arriveToken_token ..)

end Sys2Proof.Machine

/-! # Dropped tokens, credits and PADDR tokens (05:R62, R63, R91; 19:R292) -/

namespace Sys2Proof.Machine

open Sys2Proof.Claims

theorem execKindDrop_of_meaningless {s : State} {p : Packet} {t : Token} (hnet : InNet s p) (htok : p.token? = some t)
    (hbad : Meaningless t) : exec .kindDrop s = .next ((tokenEntry (taken s) p.dst 4 t).dropCredit p) := by
  change execKindDrop s = _
  simp only [execKindDrop, arriving_of_inNet hnet, htok, route_of_meaningless hbad, if_true]
  rfl

section credit

variable {s : State} {src dst : Nat} {q : PortRef} {n : Node} {e : Edge}
  (hnet : s.net[s.choice.n]? = some ⟨src, dst, .credit q⟩) (hn : s.node q.cell q.ver q.node = some n)
  (hout : n.outputs[q.port]? = some (some e))

include hnet hn hout

theorem execCreditReturn_of_no_ring (hring : e.ringTokens = []) :
    exec .creditReturn s
      = .next ((taken s).updEdge q fun e => { e with credits := min 16 (e.credits + 1) }) := by
  change execCreditReturn s = _
  have hn' : (s.takePacket s.choice.n).node q.cell q.ver q.node = some n := hn
  simp only [execCreditReturn, State.creditReturn, hnet, hn', Option.bind_some, hout, Option.join_some, hring]
  rfl

theorem execCreditReturn_of_ring {x : Token} {rest : List Token} {d : Nat} {tag : BitVec 8}
    (hring : e.ringTokens = x :: rest) (hdest : e.dest = .internal d tag) :
    exec .creditReturn s = .next (((taken s).updEdge q fun e => { e with ringTokens := rest }).send
      ⟨q.cell, d, .token x (some q)⟩) := by
  change execCreditReturn s = _
  have hn' : (s.takePacket s.choice.n).node q.cell q.ver q.node = some n := hn
  simp only [execCreditReturn, State.creditReturn, hnet, hn', Option.bind_some, hout, Option.join_some, hring, hdest]
  rfl

end credit

section paddr

variable {s : State} {src dst : Nat} {t : Token} {q : Option PortRef} (hnet : InNet s ⟨src, dst, .token t q⟩)
  (hroute : t.route = .paddr) (hkind : t.kind ≠ 6) (hturn : TokensTurn s dst t.ver t.rtag.toNat)

include hnet hroute hkind hturn

theorem execPaddrToken_of_taken (htakes : s.takesPaddr ⟨src, dst, .token t q⟩ t = true) :
    exec .paddrToken s = .next (movedOn s dst t ((taken s).arriveInt ⟨src, dst, .token t q⟩ t)) := by
  change execPaddrToken s = _
  simp only [execPaddrToken, arriving_of_inNet hnet, Packet.token?, hroute, packHolds_token hkind hturn, htakes]
  exact congrArg _ (arriveToken_token ..)

theorem execPaddrToken_of_refused (htakes : s.takesPaddr ⟨src, dst, .token t q⟩ t = false) :
    exec .paddrToken s = .next ((tokenEntry (taken s) dst 4 t).dropCredit ⟨src, dst, .token t q⟩) := by
  change execPaddrToken s = _
  simp only [execPaddrToken, arriving_of_inNet hnet, Packet.token?, hroute, packHolds_token hkind hturn, htakes]
  rfl

end paddr

/-- The binding of a PADDR token leads to a STORER of its context (19:R292). -/
theorem takesPaddr_eq {s : State} {src dst : Nat} {t : Token} {q : Option PortRef} {b : Binding} {o : BitVec 10 × Nat} {n : Node}
    (hb : (s.version dst t.ver).bindings[t.rtag.toNat]? = some b) (ho : (s.version dst t.ver).owner = some o)
    (hn : (s.version dst t.ver).nodes[b.node]? = some n) :
    s.takesPaddr ⟨src, dst, .token t q⟩ t = (decide (o.1 = t.ctx) && decide (n.role = .storer)) := by
  have hb' : ((s.cell dst).version t.ver).bindings[t.rtag.toNat]? = some b := hb
  have ho' : ((s.cell dst).version t.ver).owner = some o := ho
  have hn' : ((s.cell dst).version t.ver).nodes[b.node]? = some n := hn
  simp [State.takesPaddr, hb', ho', hn']

/-- A token for an installed version whose edge goes on enters its FIFO (05:R62). -/
theorem arriveInt_of_runs {s : State} {p : Packet} {t : Token} {b : Binding} (hruns : Runs (s.version p.dst t.ver))
    (hb : (s.version p.dst t.ver).bindings[t.rtag.toNat]? = some b) (hlive : (s.ctx t.ctx).live = true) (hlate : ¬Late b t) :
    s.arriveInt p t = s.enterFifo p.dst t.ver t.rtag.toNat t := by
  unfold State.arriveInt
  rcases hruns with h | h <;> simp [h, hb, hlive, late_eq_false_of hlate]

theorem movedOn_of_binding {s : State} {dst : Nat} {t : Token} {b : Binding}
    (hb : (s.version dst t.ver).bindings[t.rtag.toNat]? = some b) (u : State) :
    movedOn s dst t u = u.updBinding dst t.ver t.rtag.toNat Binding.packNext := by
  unfold movedOn
  rw [hb]

theorem dropsCreditsAddresses : DropsCreditsAddresses := by
  intro s t src dst q h r v
  refine ⟨fun hnet hbad => execKindDrop_of_meaningless hnet rfl hbad, fun hnet hbad => execKindDrop_of_meaningless hnet rfl hbad,
    fun gid port cfg hnet hbad => execKindDrop_of_meaningless hnet rfl hbad, fun hnet n e hn hout => ⟨fun hring => ?_, ?_⟩, ?_⟩
  · exact execCreditReturn_of_no_ring hnet hn hout hring
  · intro x rest d tag hring hdest
    exact execCreditReturn_of_ring hnet hn hout hring hdest
  · intro hnet hk ha hp hturn hruns b o n hb ho hn
    have hroute := route_of_paddr hk ha hp
    have hkind : t.kind ≠ 6 := by
      rw [Ne, kind_eq_iff, hk]
      decide
    have htakes := takesPaddr_eq (src := src) (q := some q) hb ho hn
    refine ⟨fun hctx hrole hlive hlate _ => ?_, fun hno => ?_⟩
    · rw [execPaddrToken_of_taken hnet hroute hkind hturn (by simpa [hctx, hrole] using htakes), movedOn_of_binding hb]
      exact congrArg (fun u : State => Host.Outcome.next (u.updBinding dst t.ver r Binding.packNext))
        (arriveInt_of_runs (s := taken s) (p := ⟨src, dst, .token t (some q)⟩) hruns hb hlive hlate)
    · refine execPaddrToken_of_refused hnet hroute hkind hturn ?_
      rw [htakes]
      rcases hno with h | h <;> simp [h]

end Sys2Proof.Machine

/-! # PACK packets (21:R319, R320) -/

namespace Sys2Proof.Machine

open Sys2Proof.Claims

theorem packLength_eq (t : Token) : packLength t = packTokens t := rfl
theorem packFirst_eq (t : Token) : packFirst t = packStart t := rfl

theorem packBad_eq_false_iff (t : Token) (b : Binding) : packBad t b = false ↔ GoodPack t b := by
  have hlast : b.last.isNone = false ↔ b.last ≠ none := by cases b.last <;> simp
  have hrun : packFirst t + packLength t ≤ 512 ↔ packStart t + packTokens t ≤ 512 := Iff.rfl
  have hfmt : ¬3 ≤ packFmt t ↔ t.aux.toNat / 64 ≤ 2 := Nat.not_le.trans Nat.lt_succ_iff
  have htwo : packFmt t = 2 ↔ t.aux.toNat / 64 = 2 := Iff.rfl
  have hone : packFmt t = 1 ↔ t.aux.toNat / 64 = 1 := Iff.rfl
  have hzero : bitsOf t.payload.toNat 25 16 = 0 ↔ t.payload.toNat / 33554432 % 65536 = 0 := Iff.rfl
  simp [packBad, GoodPack, hlast, ← hrun, ← hfmt, ← htwo, ← hone, ← hzero, and_assoc, or_iff_not_imp_left]

theorem kind_eq_six {t : Token} (h : t.kind.toNat = 6) : t.kind = 6 := (kind_eq_iff t 6).mpr h

/-- No packet holds one that comes where none is in expansion (21:R320). -/
theorem packHolds_of_idle {s : State} {p : Packet} {v : Bool} {r : Nat} {b : Binding} (hb : s.bindingFor p = some (v, r, b))
    (hidle : b.pack = none) (t : Token) : s.packHolds p t = false := by
  simp [State.packHolds, hb, hidle]

section arrival

variable {s : State} {p : Packet} {t : Token} {v : Bool} {r : Nat} {b : Binding} (hnet : InNet s p) (htok : p.token? = some t)
  (hk : t.kind.toNat = 6) (hb : s.bindingFor p = some (v, r, b)) (hidle : b.pack = none) (hruns : Runs (s.version p.dst v))

include hnet htok hk hb hidle hruns

theorem execPackExpansion_of_arrival :
    exec .packExpansion s = .next (if packBad t b then (tokenEntry (taken s) p.dst 4 t).packDropped p t
      else if !(s.ctx t.ctx).live || b.late t then
        (each (upTo (packCredits t)) (taken s) fun s _ => s.lateToken p.dst v r b.node t).packDropped p t
      else (taken s).updBinding p.dst v r fun b => { b with pack := some t, packPos := 0 }) := by
  have hloading : (s.version p.dst v).state ≠ .loading := by
    rcases hruns with h | h <;> simp [h]
  change execPackExpansion s = _
  simp only [execPackExpansion, arriving_of_inNet hnet, htok, route_of_pack hk, if_true, packHolds_of_idle hb hidle,
    State.packArrival, hb, hloading]
  rfl

/-- A packet begins its expansion (21:R320). -/
theorem execPackExpansion_of_good (hgood : GoodPack t b) (hlive : (s.ctx t.ctx).live = true) (hlate : ¬Late b t) :
    exec .packExpansion s = .next ((taken s).updBinding p.dst v r fun b => { b with pack := some t, packPos := 0 }) := by
  rw [execPackExpansion_of_arrival hnet htok hk hb hidle hruns, (packBad_eq_false_iff t b).mpr hgood, hlive,
    late_eq_false_of hlate]
  rfl

theorem execPackExpansion_of_bad (hbad : ¬GoodPack t b) :
    exec .packExpansion s = .next ((tokenEntry (taken s) p.dst 4 t).packDropped p t) := by
  rw [execPackExpansion_of_arrival hnet htok hk hb hidle hruns, if_pos]
  exact Bool.not_eq_false _ ▸ mt (packBad_eq_false_iff t b).mp hbad

end arrival

/-- The credits of a dropped packet of an internal edge return one by one (21:R320). -/
theorem packDropped_of_source (s : State) (src dst : Nat) (t u : Token) (q : PortRef) :
    s.packDropped ⟨src, dst, .token u (some q)⟩ t
      = { s with net := s.net ++ List.replicate (packCredits t) ⟨dst, q.cell, .credit q⟩ } := by
  have hall : ∀ (l : List Nat) (s : State), each l s (fun s _ => s.dropCredit ⟨src, dst, .token u (some q)⟩)
      = { s with net := s.net ++ List.replicate l.length ⟨dst, q.cell, .credit q⟩ } := by
    intro l
    induction l with
    | nil => simp [each]
    | cons x l ih =>
      intro s
      refine (ih (s.send ⟨dst, q.cell, .credit q⟩)).trans ?_
      simp [State.send, List.replicate_succ]
  have hlen : (upTo (packCredits t)).length = packCredits t := List.length_range
  unfold State.packDropped
  rw [hall, hlen]

theorem packCredits_eq (t : Token) : packCredits t = ((List.range (packTokens t)).filter fun i => !leftOut t i).length := rfl

/-- The expansion at a port goes on by one token (21:R320). -/
theorem execPackExpansion_of_step {s : State} {t : Token} {b : Binding} (hnet : s.net[s.choice.n]? = none)
    (hb : s.binding s.choice.cell.toNat s.choice.ver s.choice.rtag.toNat = some b) (hpack : b.pack = some t)
    (htakes : packTakes t b.packPos = false) (hstate : (s.version s.choice.cell.toNat s.choice.ver).state ≠ .empty)
    (hroom : b.fifo.length < 16) :
    exec .packExpansion s = .next ((s.updBinding s.choice.cell.toNat s.choice.ver s.choice.rtag.toNat Binding.packNext).enterFifo
      s.choice.cell.toNat s.choice.ver s.choice.rtag.toNat
      { packToken t b.packPos b.last with ver := s.choice.ver, rtag := BitVec.ofNat 8 s.choice.rtag.toNat }) := by
  have harrive : s.arriving s.choice.n = none := by simp [State.arriving, hnet]
  change execPackExpansion s = _
  simp [execPackExpansion, harrive, State.packStep, hb, hpack, htakes, hstate, Nat.not_le.mpr hroom]

/-! ### A run of zero tokens as one packet (21:R319) -/

section run

theorem flatMap_getElem?_range {α : Type} (l : List α) : (List.range l.length).flatMap (fun i => (l[i]?).toList) = l := by
  induction l with
  | nil => rfl
  | cons x l ih =>
    rw [List.length_cons, List.range_succ_eq_map, List.flatMap_cons, List.flatMap_map]
    simpa using ih

/-- A list of places is made anew: the places of a run give one element, the others what they held. -/
theorem flatMap_range_run {α : Type} {F : Nat → List α} {pre post : List α} {x : α} {k : Nat} (hk : 0 < k)
    (hpre : ∀ i, i < pre.length → F i = (pre[i]?).toList) (hx : F pre.length = [x])
    (hrun : ∀ i, 0 < i → i < k → F (pre.length + i) = [])
    (hpost : ∀ i, i < post.length → F (pre.length + k + i) = (post[i]?).toList) :
    (List.range (pre.length + k + post.length)).flatMap F = pre ++ x :: post := by
  have hhead : (List.range pre.length).flatMap F = pre :=
    (List.flatMap_congr fun i hi => hpre i (List.mem_range.mp hi)).trans (flatMap_getElem?_range pre)
  have htail : (List.range post.length).flatMap (fun i => F (pre.length + k + i)) = post :=
    (List.flatMap_congr fun i hi => hpost i (List.mem_range.mp hi)).trans (flatMap_getElem?_range post)
  obtain ⟨j, rfl⟩ : ∃ j, k = j + 1 := ⟨k - 1, by omega⟩
  have hmid : (List.range (j + 1)).flatMap (fun i => F (pre.length + i)) = [x] := by
    rw [List.range_succ_eq_map, List.flatMap_cons, List.flatMap_map, Nat.add_zero, hx]
    have hnil : (List.range j).flatMap (fun i => F (pre.length + i.succ)) = [] :=
      List.flatMap_eq_nil_iff.mpr fun i hi => hrun _ (Nat.succ_pos i) (Nat.succ_lt_succ (List.mem_range.mp hi))
    rw [hnil]
    rfl
  rw [List.range_add, List.range_add, List.flatMap_append, List.flatMap_append, List.flatMap_map, List.flatMap_map, hhead, hmid,
    htail]
  simp

/-- A run of tokens that a packet of format 0 stands for. -/
theorem packRun_eq_some {l r : List Token} {t w : Token} (hl : l = t :: r) (hw : packFor t 0 l.length 0 = w)
    (hgood : packBad w { node := 0, port := 0, last := none } = false) (hsame : l.all t.runsWith = true)
    (hlen : packLength w = l.length) (hgives : ∀ i, i < l.length → l[i]? = some (packToken w i none)) :
    packRun l 0 none = some w := by
  have hpositions : ((upTo l.length).all fun i => packTakes w i || decide (l[i]? = some (packToken w i none))) = true := by
    rw [List.all_eq_true]
    intro i hi
    simp [hgives i (List.mem_range.mp hi)]
  subst hl
  unfold packRun
  simp only [OfNat.zero_ne_ofNat, if_false, hw, hgood, hsame, hlen, hpositions]
  simp

/-- The tokens that a packet of zeros stands for. -/
def runToken (t : Token) (i : Nat) : Token :=
  { t with
    kind := if t.aux.getLsbD 5 then 1 else 0
    aux := BitVec.ofNat 9 (packStart t + if t.aux.getLsbD 5 then i else 0)
    payload := 0 }

variable {t : Token} (hk : t.kind.toNat = 6) (hfmt : t.aux.toNat / 64 = 0) (hgood : GoodPack t { node := 0, port := 0 })

include hfmt

theorem packToken_eq_runToken (i : Nat) (last : Option Word) : packToken t i last = runToken t i := by
  have hone : ¬packFmt t = 1 := by
    unfold packFmt
    omega
  simp [packToken, runToken, hone, packFirst_eq]

theorem packTakes_of_zeros (i : Nat) : packTakes t i = false := by
  have htwo : ¬packFmt t = 2 := by
    unfold packFmt
    omega
  simp [packTakes, htwo]

include hk hgood

/-- The packet that a sending port makes of the run that a packet of zeros stands for is that packet. -/
theorem packFor_runToken : packFor (runToken t 0) 0 (packTokens t) 0 = t := by
  obtain ⟨-, haux, hpay, hzero, -, -⟩ := hgood
  have hstart : packStart t = t.payload.toNat / 2 ^ 16 % 512 := by simp [packStart, hfmt]
  have htokens : packTokens t = t.payload.toNat % 2 ^ 16 + 1 := by simp [packTokens, hfmt]
  have hplane : t.aux.getLsbD 5 = decide (t.aux.toNat = 32) := by
    rw [BitVec.getLsbD, Nat.testBit_eq_decide_div_mod_eq]
    congr 1
    simp only [eq_iff_iff]
    omega
  have hkind : t.kind = 6 := kind_eq_six hk
  have hrunKind : (runToken t 0).kind.toNat = if t.aux.toNat = 32 then 1 else 0 := by
    unfold runToken
    rw [hplane]
    by_cases h : t.aux.toNat = 32 <;> simp [h]
  have hauxEq : BitVec.ofNat 9 (64 * 0 + 32 * (runToken t 0).kind.toNat) = t.aux := by
    apply BitVec.eq_of_toNat_eq
    rw [BitVec.toNat_ofNat, hrunKind]
    split <;> omega
  have hpayEq : BitVec.ofNat 64 ((runToken t 0).aux.toNat * 2 ^ 16 + (packTokens t - 1)) = t.payload := by
    apply BitVec.eq_of_toNat_eq
    have hplaneAux : (runToken t 0).aux.toNat = t.payload.toNat / 2 ^ 16 % 512 := by
      simp [runToken, hstart]
    rw [hplaneAux, htokens, BitVec.toNat_ofNat]
    omega
  unfold packFor
  simp only [if_false, OfNat.zero_ne_ofNat, hauxEq, hpayEq, ← hkind]
  rfl

omit hk hgood in
theorem packTokens_pos : 0 < packTokens t := by
  unfold packTokens
  split <;> omega

theorem packRun_runTokens : packRun ((List.range (packTokens t)).map (runToken t)) 0 none = some t := by
  obtain ⟨k, hlen⟩ : ∃ k, packTokens t = k + 1 := ⟨packTokens t - 1, by have := packTokens_pos hfmt; omega⟩
  have hcons : (List.range (packTokens t)).map (runToken t) = runToken t 0 :: (List.range k).map fun i => runToken t (i + 1) := by
    rw [hlen, List.range_succ_eq_map, List.map_cons, List.map_map]
    rfl
  have hsame : ∀ i, (runToken t 0).runsWith (runToken t i) = true := fun i => by
    have hlt : (if t.aux.getLsbD 5 = true then 1 else 0 : BitVec 3).toNat < 2 := by split <;> decide
    simp only [Token.runsWith, runToken, hlt, decide_true, Bool.and_self]
  refine packRun_eq_some hcons (by simpa using packFor_runToken hk hfmt hgood) ((packBad_eq_false_iff t _).mpr hgood) ?_
    (by simp [packLength_eq]) fun i hi => ?_
  · simpa using fun i _ => hsame i
  · have hi' : i < packTokens t := by simpa using hi
    simp [packToken_eq_runToken hfmt, hi']

end run

/-! ### The places of a run in the net -/

section places

variable {t : Token} {src dst : Nat} {q : PortRef} {pre post : List Packet}

/-- The packets of the tokens that a packet stands for. -/
def runPackets (t : Token) (src dst : Nat) (q : PortRef) : List Packet :=
  (List.range (packTokens t)).map fun i => ⟨src, dst, .token (runToken t i) (some q)⟩

theorem length_runPackets : (runPackets t src dst q).length = packTokens t := by simp [runPackets]

theorem getElem?_net_pre {i : Nat} (hi : i < pre.length) : (pre ++ runPackets t src dst q ++ post)[i]? = pre[i]? := by
  rw [List.append_assoc, List.getElem?_append_left hi]

theorem getElem?_net_run {i : Nat} (hi : i < packTokens t) :
    (pre ++ runPackets t src dst q ++ post)[pre.length + i]? = some ⟨src, dst, .token (runToken t i) (some q)⟩ := by
  rw [List.append_assoc, List.getElem?_append_right (by omega), Nat.add_sub_cancel_left,
    List.getElem?_append_left (by rwa [length_runPackets])]
  simp [runPackets, hi]

theorem getElem?_net_post (i : Nat) :
    (pre ++ runPackets t src dst q ++ post)[pre.length + packTokens t + i]? = post[i]? := by
  rw [List.append_assoc, List.getElem?_append_right (by omega), List.getElem?_append_right (by rw [length_runPackets]; omega),
    length_runPackets]
  exact congrArg _ (by omega)

/-- Of the places of an edge's tokens from the first of a run on, the run comes first. -/
theorem take_edge_run (p : Packet) (hsame : ∀ i, i < packTokens t → p.sameEdge ⟨src, dst, .token (runToken t i) (some q)⟩ = true) :
    ((upTo (pre ++ runPackets t src dst q ++ post).length).filter fun i =>
        decide (pre.length ≤ i) && ((pre ++ runPackets t src dst q ++ post)[i]?).any p.sameEdge).take (packTokens t)
      = (List.range (packTokens t)).map (pre.length + ·) := by
  have hlen : (pre ++ runPackets t src dst q ++ post).length = pre.length + (packTokens t + post.length) := by
    simp [length_runPackets]
  unfold upTo
  rw [hlen, List.range_add, List.range_add, List.map_append, List.filter_append, List.filter_append]
  have hpre : (List.range pre.length).filter (fun i =>
      decide (pre.length ≤ i) && ((pre ++ runPackets t src dst q ++ post)[i]?).any p.sameEdge) = [] := by
    refine List.filter_eq_nil_iff.mpr fun i hi => ?_
    have hlt := List.mem_range.mp hi
    simp [Nat.not_le.mpr hlt]
  have hrun : ((List.range (packTokens t)).map (pre.length + ·)).filter (fun i =>
      decide (pre.length ≤ i) && ((pre ++ runPackets t src dst q ++ post)[i]?).any p.sameEdge)
      = (List.range (packTokens t)).map (pre.length + ·) := by
    refine List.filter_eq_self.mpr fun i hi => ?_
    obtain ⟨j, hj, rfl⟩ := List.mem_map.mp hi
    rw [getElem?_net_run (List.mem_range.mp hj)]
    simpa using hsame j (List.mem_range.mp hj)
  rw [hpre, hrun, List.nil_append, List.take_append_of_le_length (by simp), List.take_of_length_le (by simp)]

theorem formPack_of_run {s : State} (hk : t.kind.toNat = 6) (hfmt : t.aux.toNat / 64 = 0)
    (hgood : GoodPack t { node := 0, port := 0 }) (hnet : s.net = pre ++ runPackets t src dst q ++ post) :
    s.formPack pre.length (packTokens t) 0 = { s with net := pre ++ ⟨src, dst, .token t (some q)⟩ :: post } := by
  have hpos := packTokens_pos hfmt
  have hfirst : s.net[pre.length]? = some ⟨src, dst, .token (runToken t 0) (some q)⟩ := by
    rw [hnet]
    exact getElem?_net_run hpos
  have hrun := take_edge_run (pre := pre) (post := post) (t := t) (src := src) (dst := dst) (q := q)
    ⟨src, dst, .token (runToken t 0) (some q)⟩ fun i _ => by simp [Packet.sameEdge, runToken]
  rw [← hnet] at hrun
  have htokens : ((List.range (packTokens t)).map (pre.length + ·)).filterMap (fun i => (s.net[i]?).bind Packet.token?)
      = (List.range (packTokens t)).map (runToken t) := by
    rw [List.filterMap_map, ← List.filterMap_eq_map]
    refine List.filterMap_congr fun i hi => ?_
    rw [Function.comp_apply, hnet, getElem?_net_run (List.mem_range.mp hi)]
    rfl
  obtain ⟨rest, hrest⟩ : ∃ rest, (List.range (packTokens t)).map (pre.length + ·) = pre.length :: rest := by
    obtain ⟨k, hlen⟩ : ∃ k, packTokens t = k + 1 := ⟨packTokens t - 1, by omega⟩
    exact ⟨_, by rw [hlen, List.range_succ_eq_map, List.map_cons, Nat.add_zero]⟩
  have hmem : ∀ i, (pre.length :: rest).contains i = true ↔ pre.length ≤ i ∧ i < pre.length + packTokens t := fun i => by
    rw [← hrest, List.contains_iff_mem, List.mem_map]
    exact ⟨fun ⟨j, hj, he⟩ => by have := List.mem_range.mp hj; omega,
      fun ⟨h1, h2⟩ => ⟨i - pre.length, List.mem_range.mpr (by omega), by omega⟩⟩
  have hlength : (pre.length :: rest).length = packTokens t := by rw [← hrest]; simp
  have hout : ∀ i, ¬(pre.length ≤ i ∧ i < pre.length + packTokens t) → (pre.length :: rest).contains i = false := fun i hi =>
    Bool.eq_false_iff.mpr (mt (hmem i).mp hi)
  unfold State.formPack
  rw [hfirst]
  simp only [Nat.zero_ne_one, if_false, false_and, Packet.token?, Option.bind_some] at *
  rw [hrun, htokens, packRun_runTokens hk hfmt hgood, hrest]
  simp only [hlength, if_true, packTakes_of_zeros hfmt]
  congr 1
  have hsize : (upTo s.net.length) = List.range (pre.length + packTokens t + post.length) := by
    rw [hnet]
    simp [upTo, length_runPackets, Nat.add_assoc]
  rw [hsize]
  refine flatMap_range_run hpos (fun i hi => ?_) ?_ (fun i hi0 hik => ?_) fun i hi => ?_
  · rw [hout i (by omega), hnet, getElem?_net_pre hi]
    simp [List.getElem?_eq_getElem hi]
    omega
  · rw [hfirst]
    simp
  · rw [hnet, getElem?_net_run hik, (hmem (pre.length + i)).mpr ⟨by omega, by omega⟩]
    simp
    omega
  · rw [hout _ (by omega), hnet, getElem?_net_post]
    simp [List.getElem?_eq_getElem hi]
    omega

end places

theorem step_of_pack_turn {s : State} {r : List Turn} {n k f : Nat} (hs : s.turns = .pack n k f :: r) :
    step s = .next (({ s with turns := r } : State).formPack n k f) := by
  rw [step_eq_outcome]
  unfold State.todo
  rw [hs]
  rfl

theorem packExpansions : PackExpansions := by
  intro s t
  refine ⟨?_, ?_, ?_, ?_⟩
  · intro src dst gid port cfg ver node r b hnet hk c hdest hbound hruns hidle hgood hlive hlate
    have hdest' : (s.cell dst).extDest t cfg gid port = some (ver, node) := hdest
    have hbound' : (s.version dst ver).extBinding node port = some (r, b) := hbound
    have hb : s.bindingFor ⟨src, dst, .extToken t gid port cfg⟩ = some (ver, r, b) := by
      simp [State.bindingFor, hdest', hbound']
    exact execPackExpansion_of_good hnet rfl hk hb hidle hruns hgood hlive hlate
  · intro src dst q b hnet hk v hruns hbind hidle
    have hb : s.bindingFor ⟨src, dst, .token t (some q)⟩ = some (t.ver, t.rtag.toNat, b) := by
      rw [bindingFor_token]
      exact congrArg (Option.map _) hbind
    refine ⟨fun hgood hlive hlate => execPackExpansion_of_good hnet rfl hk hb hidle hruns hgood hlive hlate, fun hbad => ?_⟩
    rw [execPackExpansion_of_bad hnet rfl hk hb hidle hruns hbad, packDropped_of_source]
    rfl
  · intro b hnet hb hpack hleft x hstate hroom plane
    rw [execPackExpansion_of_step hnet hb hpack hleft hstate hroom]
    have hnext : s.updBinding x.cell.toNat x.ver x.rtag.toNat Binding.packNext
        = s.updBinding x.cell.toNat x.ver x.rtag.toNat fun b =>
          if packTokens t ≤ b.packPos + 1 then { b with pack := none, packPos := 0 } else { b with packPos := b.packPos + 1 } :=
      State.updBinding_congr hb (by simp only [Binding.packNext, hpack, packLength_eq])
    rw [hnext]
    rfl
  · intro src dst q pre post turns hk hfmt hgood hturns hnet
    rw [step_of_pack_turn hturns]
    exact congrArg _ (formPack_of_run (s := { s with turns := turns }) hk hfmt hgood hnet)

/-- Settles O38: the drops with their credits, PADDR tokens, and the expansion and making of PACK packets. -/
theorem dropsCreditsAndPackets : Obligations.DropsCreditsAndPackets :=
  ⟨dropsCreditsAddresses, packExpansions⟩

end Sys2Proof.Machine

/-! # A token takes its place in a FIFO (05:R62, R63, R77, R78) -/

namespace Sys2Proof.Machine

open Sys2Proof.Claims

/-! ### The first token of a READY configuration (23:R339) -/

/-- The cell whose version has taken a token. -/
def Cell.noted (c : Cell) (ver : Bool) : Cell :=
  if (c.version ver).state = .ready then
    let c := if (c.version (!ver)).state = .live then c else { c with liveOne := if ver then upTo 32 else [] }
    c.updVersion ver fun v => { v with state := .live }
  else c

/-- A cell changes at most the state of one version and the live versions of its nodes. -/
structure Cell.Noted (c d : Cell) : Prop where
  store : d.store = c.store
  arrivals : d.arrivals = c.arrivals
  nodes : ∀ v, (d.version v).nodes = (c.version v).nodes
  bindings : ∀ v, (d.version v).bindings = (c.version v).bindings
  overflowOn : d.overflowOn = c.overflowOn

theorem Cell.noted_noted (c : Cell) (ver : Bool) : c.Noted (c.noted ver) := by
  have hready : ∀ d : Cell, (d.version ver).state = .ready → d.Noted (d.updVersion ver fun v => { v with state := .live }) := by
    intro d hd
    have hstate : (d.updVersion ver fun v => { v with state := .live }).overflowOn = d.overflowOn := by
      cases ver
      · have h0 : d.v0.state = .ready := hd
        simp [Cell.overflowOn, Cell.updVersion, h0]
      · have h1 : d.v1.state = .ready := hd
        simp [Cell.overflowOn, Cell.updVersion, h1]
    exact ⟨by simp, by simp, fun v => by cases v <;> cases ver <;> rfl, fun v => by cases v <;> cases ver <;> rfl, hstate⟩
  unfold Cell.noted
  by_cases h : (c.version ver).state = .ready
  · rw [if_pos h]
    dsimp only
    by_cases ho : (c.version (!ver)).state = .live
    · rw [if_pos ho]
      exact hready c h
    · rw [if_neg ho]
      obtain ⟨hstore, harrivals, hnodes, hbindings, hoverflow⟩ :=
        hready { c with liveOne := if ver then upTo 32 else [] } (by cases ver <;> exact h)
      exact ⟨hstore, harrivals, fun v => (hnodes v).trans (by cases v <;> rfl),
        fun v => (hbindings v).trans (by cases v <;> rfl), hoverflow⟩
  · rw [if_neg h]
    exact ⟨rfl, rfl, fun _ => rfl, fun _ => rfl, rfl⟩

section note

variable (s : State) (cell : Nat) (ver : Bool)

theorem State.cell_updCfg (ctx : BitVec 10) (i : Nat) (f : CfgRt → CfgRt) (k : Nat) : (s.updCfg ctx i f).cell k = s.cell k := by
  simp [State.cell]

theorem State.cell_noteToken : (s.noteToken cell ver).cell cell = s.cell cell
    ∨ (s.noteToken cell ver).cell cell = (s.cell cell).noted ver := by
  unfold State.noteToken
  rcases ho : (s.version cell ver).owner with _ | ⟨ctx, i⟩
  · exact Or.inl rfl
  · refine Or.inr ?_
    dsimp only
    rw [State.cell_updCell_same, State.cell_updCfg]
    rfl

theorem State.noted_noteToken : (s.cell cell).Noted ((s.noteToken cell ver).cell cell) := by
  rcases s.cell_noteToken cell ver with h | h
  · rw [h]
    exact ⟨rfl, rfl, fun _ => rfl, fun _ => rfl, rfl⟩
  · rw [h]
    exact Cell.noted_noted ..

theorem State.noteToken_net : (s.noteToken cell ver).net = s.net := by
  unfold State.noteToken
  cases (s.version cell ver).owner <;> simp

theorem State.noteToken_ctxs : (s.noteToken cell ver).ctxs = s.ctxs := by
  unfold State.noteToken
  cases (s.version cell ver).owner <;> simp

theorem State.noteToken_now : (s.noteToken cell ver).now = s.now := by
  unfold State.noteToken
  cases (s.version cell ver).owner <;> simp

theorem State.ctx_noteToken (ctx : BitVec 10) : (s.noteToken cell ver).ctx ctx = s.ctx ctx := by
  rw [State.ctx, State.noteToken_ctxs]
  rfl

/-- A READY version of a configuration is LIVE once it has taken a token (23:R339). -/
theorem State.version_noteToken_of_ready {o : BitVec 10 × Nat} (ho : (s.version cell ver).owner = some o)
    (hready : (s.version cell ver).state = .ready) : ((s.noteToken cell ver).version cell ver).state = .live := by
  have hready' : ((s.cell cell).version ver).state = .ready := hready
  have hcell : (s.noteToken cell ver).cell cell = (s.cell cell).noted ver := by
    unfold State.noteToken
    rw [ho]
    dsimp only
    rw [State.cell_updCell_same, State.cell_updCfg]
    rfl
  unfold State.version
  rw [hcell, Cell.noted, if_pos hready', Cell.version_updVersion_same]

end note

/-! ### The order in which a port's tokens arrived -/

theorem mem_insertBy {α : Type} {key : α → Nat} {x y : α} {l : List α} : y ∈ insertBy key x l ↔ y = x ∨ y ∈ l := by
  induction l with
  | nil => simp [insertBy]
  | cons z l ih =>
    unfold insertBy
    split
    · simp
    · simp only [List.mem_cons, ih]
      tauto

theorem insertBy_congr {α : Type} {key key' : α → Nat} {x : α} {l : List α}
    (h : ∀ y ∈ l, (key x < key y ↔ key' x < key' y)) : insertBy key x l = insertBy key' x l := by
  induction l with
  | nil => rfl
  | cons z l ih =>
    have hz := h z List.mem_cons_self
    have hl := ih fun y hy => h y (List.mem_cons_of_mem _ hy)
    by_cases hlt : key x < key z
    · simp [insertBy, hlt, hz.mp hlt]
    · simp [insertBy, hlt, mt hz.mpr hlt, hl]

/-- The order of a list by a key is that by another key which orders its elements alike. -/
theorem sortBy_congr {α : Type} {key key' : α → Nat} {l : List α}
    (h : ∀ x ∈ l, ∀ y ∈ l, (key x < key y ↔ key' x < key' y)) : sortBy key l = sortBy key' l := by
  have hfold : ∀ m : List α, (∀ x ∈ m, x ∈ l) → ∀ a : List α, (∀ x ∈ a, x ∈ l) →
      m.foldl (fun a x => insertBy key x a) a = m.foldl (fun a x => insertBy key' x a) a := by
    intro m
    induction m with
    | nil => intros; rfl
    | cons x m ih =>
      intro hm a ha
      have hx := hm x List.mem_cons_self
      rw [List.foldl_cons, List.foldl_cons, insertBy_congr fun y hy => h x hx y (ha y hy)]
      refine ih (fun y hy => hm y (List.mem_cons_of_mem _ hy)) _ fun y hy => ?_
      rcases mem_insertBy.mp hy with rfl | hy
      · exact hx
      · exact ha y hy
  exact hfold l (fun _ hx => hx) [] (by simp)

/-- A later arrival elsewhere leaves the order of earlier ones. -/
theorem findIdx_append_other {l : List (Bool × Nat)} {z x y : Bool × Nat} (hx : x ≠ z) (hy : y ≠ z) :
    (l ++ [z]).findIdx (· = x) < (l ++ [z]).findIdx (· = y) ↔ l.findIdx (· = x) < l.findIdx (· = y) := by
  have hlast : ∀ w : Bool × Nat, w ≠ z → [z].findIdx (· = w) = 1 := fun w hw => by
    simp [List.findIdx_cons, Ne.symm hw]
  have hlex : l.findIdx (· = x) ≤ l.length := List.findIdx_le_length
  have hley : l.findIdx (· = y) ≤ l.length := List.findIdx_le_length
  rw [List.findIdx_append, List.findIdx_append, hlast x hx, hlast y hy]
  split <;> split <;> omega

/-! ### What a change of one binding leaves to the other ports of its node -/

section others

variable {c d : Cell} {ver : Bool} {r : Nat} {b : Binding} {f : Binding → Binding}
  (hb : (c.version ver).bindings[r]? = some b) (hport : (f b).port = b.port)
  (hstore : d.store = c.store) (harrivals : d.arrivals = c.arrivals ++ [(ver, r)])
  (hbindings : (d.version ver).bindings = lset (c.version ver).bindings r f)

include hb hport hbindings

theorem bindingsOf_other_port {p : Nat} (hp : p ≠ b.port) (node : Nat) :
    (d.version ver).bindingsOf node p = (c.version ver).bindingsOf node p := by
  have hlen : (d.version ver).bindings.length = (c.version ver).bindings.length := by simp [hbindings, lset]
  unfold Version.bindingsOf
  rw [hlen, List.filter_filterMap, List.filter_filterMap]
  refine List.filterMap_congr fun i _ => ?_
  by_cases hi : r = i
  · subst hi
    simp [hbindings, lset, hb, hport, Ne.symm hp, Option.filter]
  · simp [hbindings, lset, hi]

include harrivals

theorem headSources_other_port {p : Nat} (hp : p ≠ b.port) (node : Nat) :
    d.headSources ver node p = c.headSources ver node p := by
  have hother : ∀ x ∈ (c.version ver).bindingsOf node p, (ver, x.1) ≠ (ver, r) := by
    intro x hx he
    obtain ⟨hmem, hx2⟩ := List.mem_filter.mp hx
    obtain ⟨i, -, hi⟩ := List.mem_filterMap.mp hmem
    obtain ⟨b', hb', rfl⟩ := Option.map_eq_some_iff.mp hi
    obtain rfl : i = r := by simpa using he
    obtain rfl : b' = b := Option.some.inj (hb'.symm.trans hb)
    simp [Ne.symm hp] at hx2
  unfold Cell.headSources Cell.portBindings
  rw [bindingsOf_other_port hb hport hbindings hp node, harrivals]
  refine congrArg _ (sortBy_congr fun x hx y hy => ?_)
  exact findIdx_append_other (hother x hx) (hother y hy)

include hstore

/-- A token that enters the FIFO of one port changes nothing of what the other ports of a firing hold (05:R77). -/
theorem meets_other_ports (node : Nat) (l : List (Nat × Bool)) (hl : ∀ x ∈ l, x.1 ≠ b.port) (chosen : List Token) :
    d.meets ver node l chosen = c.meets ver node l chosen := by
  induction l generalizing chosen with
  | nil => rfl
  | cons x l ih =>
    have hhead := headSources_other_port hb hport harrivals hbindings (hl x List.mem_cons_self) node
    have hrest := ih fun y hy => hl y (List.mem_cons_of_mem _ hy)
    obtain ⟨p, ordered⟩ := x
    unfold Cell.meets
    simp only [Cell.orderedSource, Cell.taggedSources, hhead, hstore, hrest]

theorem completes_other_ports (node : Nat) (n : Node) (t : Token) :
    d.completes ver node b.port n t = c.completes ver node b.port n t :=
  meets_other_ports hb hport hstore harrivals hbindings node _ (fun x hx => by simpa using (List.mem_filter.mp hx).2) _

end others

/-! ### The head of a FIFO -/

section drain

variable {s : State} {cell : Nat} {ver : Bool} {r : Nat} {b : Binding} (hb : s.binding cell ver r = some b) (k : Nat)

include hb

theorem drain_of_held (h : b.blocked = true ∨ b.heldSince ≠ none) : s.drain cell ver r (k + 1) = s := by
  have hheld : (b.blocked || b.heldSince.isSome) = true := by
    rcases h with h | h
    · simp [h]
    · simp [Option.isSome_iff_ne_none.mpr h]
  rw [State.drain, hb]
  exact if_pos hheld

theorem drain_of_empty (h : b.fifo = []) : s.drain cell ver r (k + 1) = s := by
  rw [State.drain, hb]
  simp [h]

variable {t : Token} {rest : List Token} {n : Node} (hfree : b.blocked = false) (hhold : b.heldSince = none)
  (hfifo : b.fifo = t :: rest) (hlive : (s.ctx t.ctx).live = true) (hlate : ¬Late b t)
  (hn : (s.version cell ver).nodes[b.node]? = some n)

include hfree hhold hfifo hlive hlate hn

theorem drain_of_stays (hstays : (s.cell cell).headNeeds ver n b t = false) (hfull : b.fullSince = none) :
    s.drain cell ver r (k + 1) = s := by
  have hn' : ((s.cell cell).version ver).nodes[b.node]? = some n := hn
  rw [State.drain, hb]
  simp [hfree, hhold, hfifo, hlive, late_eq_false_of hlate, hn', hstays, hfull]

theorem drain_of_entry (hneeds : (s.cell cell).headNeeds ver n b t = true) {spilled : Bool}
    (hroom : (s.cell cell).entryRoom = some spilled) :
    s.drain cell ver r (k + 1) = ((s.popFifo cell ver r).updCell cell fun c =>
      { c with store := c.store ++ [⟨ver, b.node, b.port, t, spilled⟩] }).drain cell ver r k := by
  have hn' : ((s.cell cell).version ver).nodes[b.node]? = some n := hn
  rw [State.drain, hb]
  simp [hfree, hhold, hfifo, hlive, late_eq_false_of hlate, hn', hneeds, hroom]

theorem drain_of_full (hneeds : (s.cell cell).headNeeds ver n b t = true) (hroom : (s.cell cell).entryRoom = none) :
    s.drain cell ver r (k + 1) = s.updBinding cell ver r fun b => { b with fullSince := some (b.fullSince.getD s.now) } := by
  have hn' : ((s.cell cell).version ver).nodes[b.node]? = some n := hn
  rw [State.drain, hb]
  simp [hfree, hhold, hfifo, hlive, late_eq_false_of hlate, hn', hneeds, hroom]

end drain

theorem headNeeds_eq_false_iff (c : Cell) (ver : Bool) (n : Node) (b : Binding) (t : Token) :
    c.headNeeds ver n b t = false ↔ HeadStays c ver n b t := by
  have hkind : t.kind = 3#3 ↔ t.kind.toNat = 3 := kind_eq_iff t 3
  have hport : (n.inputs[b.port]?).join = some false ↔ n.inputs[b.port]? = some (some false) := by
    rcases n.inputs[b.port]? with _ | _ | _ <;> simp
  unfold Cell.headNeeds HeadStays
  simp only [ne_eq, ← hkind, ← hport]
  by_cases hk : t.kind = 3#3 <;> by_cases hp : (n.inputs[b.port]?).join = some false <;>
    simp [hk, hp]

/-! ### The state with a token in its FIFO -/

/-- A token stands in the FIFO of a binding. -/
def entered (s : State) (cell : Nat) (ver : Bool) (r : Nat) (t : Token) : State :=
  ((s.noteToken cell ver).updBinding cell ver r fun b =>
    { b with fifo := b.fifo ++ [{ t with ver := ver }], last := some t.payload }).updCell cell fun c =>
      { c with arrivals := c.arrivals ++ [(ver, r)] }

theorem enterFifo_eq (s : State) (cell : Nat) (ver : Bool) (r : Nat) (t : Token) :
    s.enterFifo cell ver r t = (entered s cell ver r t).drain cell ver r 17 := rfl

section entered

variable (s : State) (cell : Nat) (ver : Bool) (r : Nat) (t : Token)

/-- The binding that has taken a token. -/
def Binding.takes (b : Binding) (t : Token) (ver : Bool) : Binding :=
  { b with fifo := b.fifo ++ [{ t with ver := ver }], last := some t.payload }

theorem cell_entered : (entered s cell ver r t).cell cell
    = { ((s.noteToken cell ver).cell cell).updVersion ver fun x =>
          { x with bindings := lset x.bindings r fun b => b.takes t ver } with
        arrivals := (s.cell cell).arrivals ++ [(ver, r)] } := by
  have h := (s.noted_noteToken cell ver).arrivals
  unfold entered State.updBinding State.updVersion
  rw [State.cell_updCell_same, State.cell_updCell_same, ← h]
  simp [Binding.takes]

theorem version_entered : (entered s cell ver r t).version cell ver
    = { (s.noteToken cell ver).version cell ver with
        bindings := lset (s.version cell ver).bindings r fun b => b.takes t ver } := by
  have h := (s.noted_noteToken cell ver).bindings ver
  unfold State.version
  rw [cell_entered, ← h]
  cases ver <;> rfl

theorem binding_entered {b : Binding} (hb : s.binding cell ver r = some b) :
    (entered s cell ver r t).binding cell ver r = some (b.takes t ver) := by
  have hb' : (s.version cell ver).bindings[r]? = some b := hb
  unfold State.binding
  rw [version_entered]
  simp [lset, hb']

theorem nodes_entered : ((entered s cell ver r t).version cell ver).nodes = (s.version cell ver).nodes := by
  rw [version_entered]
  exact (s.noted_noteToken cell ver).nodes ver

theorem ctx_entered (ctx : BitVec 10) : (entered s cell ver r t).ctx ctx = s.ctx ctx := s.ctx_noteToken cell ver ctx

theorem store_entered : ((entered s cell ver r t).cell cell).store = (s.cell cell).store := by
  rw [cell_entered, ← (s.noted_noteToken cell ver).store]
  simp

theorem overflowOn_entered : ((entered s cell ver r t).cell cell).overflowOn = (s.cell cell).overflowOn := by
  rw [cell_entered, ← (s.noted_noteToken cell ver).overflowOn]
  cases ver <;> rfl

theorem net_entered : (entered s cell ver r t).net = s.net := s.noteToken_net cell ver
theorem now_entered : (entered s cell ver r t).now = s.now := s.noteToken_now cell ver

/-- A token that enters a FIFO completes no more and no less for the head of that FIFO (05:R77). -/
theorem headNeeds_entered {b : Binding} (hb : s.binding cell ver r = some b) (n : Node) (x : Token) :
    ((entered s cell ver r t).cell cell).headNeeds ver n (b.takes t ver) x = (s.cell cell).headNeeds ver n b x := by
  have hbindings : (((entered s cell ver r t).cell cell).version ver).bindings
      = lset ((s.cell cell).version ver).bindings r fun b => b.takes t ver :=
    congrArg Version.bindings (version_entered s cell ver r t)
  have harrivals : ((entered s cell ver r t).cell cell).arrivals = (s.cell cell).arrivals ++ [(ver, r)] := by
    rw [cell_entered]
  have h := completes_other_ports (f := fun b => b.takes t ver) hb rfl (store_entered s cell ver r t) harrivals hbindings
    b.node n x
  unfold Cell.headNeeds
  rw [← h]
  rfl

end entered

end Sys2Proof.Machine

/-! # Tokens of an edge inside the configuration (05:R62, R63, R77, R78, R81, R87) -/

namespace Sys2Proof.Machine

open Sys2Proof.Claims

/-! ### A head that takes an entry of the store -/

/-- The binding without its head. -/
def Binding.popped (b : Binding) : Binding := { b with fifo := b.fifo.tail, fullSince := none, fullRaised := false }

/-- The head of a FIFO has left it. -/
def headGone (s : State) (cell : Nat) (ver : Bool) (r : Nat) : State :=
  (s.updBinding cell ver r Binding.popped).updCell cell fun c => { c with arrivals := c.arrivals.erase (ver, r) }

section gone

variable (s : State) (cell : Nat) (ver : Bool) (r : Nat)

theorem cell_headGone : (headGone s cell ver r).cell cell
    = { (s.cell cell).updVersion ver fun x => { x with bindings := lset x.bindings r Binding.popped } with
        arrivals := (s.cell cell).arrivals.erase (ver, r) } := by
  unfold headGone State.updBinding State.updVersion
  rw [State.cell_updCell_same, State.cell_updCell_same]
  simp

theorem store_headGone : ((headGone s cell ver r).cell cell).store = (s.cell cell).store := by
  rw [cell_headGone]
  simp

theorem binding_headGone {b : Binding} (hb : s.binding cell ver r = some b) :
    (headGone s cell ver r).binding cell ver r = some b.popped := by
  have hb' : ((s.cell cell).version ver).bindings[r]? = some b := hb
  have hversion : ((headGone s cell ver r).cell cell).version ver
      = { (s.cell cell).version ver with bindings := lset ((s.cell cell).version ver).bindings r Binding.popped } := by
    rw [cell_headGone]
    cases ver <;> rfl
  unfold State.binding State.version
  rw [hversion]
  simp [lset, hb']

end gone

/-- The head of an internal edge's FIFO leaves it with its credit (05:R63). -/
theorem popFifo_of_source {s : State} {cell : Nat} {ver : Bool} {r : Nat} {b : Binding} {q : PortRef}
    (hb : s.binding cell ver r = some b) (hsource : b.source = some q) (hfree : b.fifo.head?.any (·.free) = false) :
    s.popFifo cell ver r = credited (headGone s cell ver r) cell q := by
  rw [State.popFifo, hb]
  simp only [hfree]
  exact returnCredit_of_source hsource ..

theorem State.version_updCell_of {s : State} {cell : Nat} {ver : Bool} {f : Cell → Cell}
    (hf : (f (s.cell cell)).version ver = (s.cell cell).version ver) :
    (s.updCell cell f).version cell ver = s.version cell ver := by
  unfold State.version
  rw [State.cell_updCell_same, hf]

/-! ### What a token finds in an empty FIFO -/

section empty

variable {s : State} {cell r : Nat} {b : Binding} {t : Token} {n : Node}
  (hb : s.binding cell t.ver r = some b) (hfree : b.blocked = false) (hhold : b.heldSince = none) (hfifo : b.fifo = [])
  (hlive : (s.ctx t.ctx).live = true) (hlate : ¬Late b t) (hn : (s.version cell t.ver).nodes[b.node]? = some n)
  (hneeds : ¬HeadStays (s.cell cell) t.ver n b t)

/-- The token has gone through the FIFO into the store or the overflow area (05:R77, R78). -/
def storedFrom (s : State) (cell r : Nat) (b : Binding) (q : PortRef) (t : Token) (spilled : Bool) : State :=
  (credited (headGone (entered s cell t.ver r t) cell t.ver r) cell q).updCell cell fun c =>
    { c with store := c.store ++ [⟨t.ver, b.node, b.port, t, spilled⟩] }

theorem takes_of_empty (h : b.fifo = []) : b.takes t t.ver = { b with fifo := [t], last := some t.payload } := by
  simp [Binding.takes, h]

section

include hb hfifo

theorem binding_storedFrom (q : PortRef) (spilled : Bool) : (storedFrom s cell r b q t spilled).binding cell t.ver r
    = some { b with last := some t.payload, fullSince := none, fullRaised := false } := by
  have hversion : (storedFrom s cell r b q t spilled).version cell t.ver
      = (headGone (entered s cell t.ver r t) cell t.ver r).version cell t.ver :=
    State.version_updCell_of (by cases t.ver <;> rfl)
  unfold State.binding
  rw [hversion]
  refine (binding_headGone _ _ _ _ (binding_entered s cell t.ver r t hb)).trans ?_
  simp [Binding.popped, takes_of_empty hfifo, hfifo]

end

theorem store_storedFrom (q : PortRef) (spilled : Bool) : ((storedFrom s cell r b q t spilled).cell cell).store
    = (s.cell cell).store ++ [⟨t.ver, b.node, b.port, t, spilled⟩] := by
  rw [← store_entered s cell t.ver r t, ← store_headGone (entered s cell t.ver r t) cell t.ver r]
  exact congrArg Cell.store (State.cell_updCell_same ..)

theorem net_storedFrom (q : PortRef) (spilled : Bool) :
    (storedFrom s cell r b q t spilled).net = (credited s cell q).net :=
  congrArg (fun l : List Packet => l ++ [⟨cell, q.cell, .credit q⟩]) (net_entered s cell t.ver r t)

include hb hfree hhold hfifo hlive hlate hn hneeds

theorem enterFifo_of_entry {q : PortRef} (hsource : b.source = some q) (htok : t.free = false) {spilled : Bool}
    (hroom : (s.cell cell).entryRoom = some spilled) :
    s.enterFifo cell t.ver r t = storedFrom s cell r b q t spilled := by
  have hbind := binding_entered s cell t.ver r t hb
  have htakes := takes_of_empty (t := t) hfifo
  have hneeds' : ((entered s cell t.ver r t).cell cell).headNeeds t.ver n (b.takes t t.ver) t = true := by
    rw [headNeeds_entered s cell t.ver r t hb]
    exact Bool.not_eq_false _ ▸ mt (headNeeds_eq_false_iff ..).mp hneeds
  have hroom' : ((entered s cell t.ver r t).cell cell).entryRoom = some spilled := by
    unfold Cell.entryRoom
    rw [store_entered, overflowOn_entered]
    exact hroom
  rw [enterFifo_eq, drain_of_entry hbind 16 (t := t) (rest := []) (n := n) hfree hhold (by rw [htakes]) (by rwa [ctx_entered])
    hlate (by rw [nodes_entered]; exact hn) hneeds' hroom',
    popFifo_of_source hbind hsource (by rw [htakes]; simpa using htok)]
  exact drain_of_empty (b := { b with last := some t.payload, fullSince := none, fullRaised := false })
    (binding_storedFrom hb hfifo q spilled) 15 hfifo

theorem enterFifo_of_no_room (hroom : (s.cell cell).entryRoom = none) :
    s.enterFifo cell t.ver r t = (entered s cell t.ver r t).updBinding cell t.ver r fun b =>
      { b with fullSince := some (b.fullSince.getD s.now) } := by
  have hbind := binding_entered s cell t.ver r t hb
  have htakes := takes_of_empty (t := t) hfifo
  have hneeds' : ((entered s cell t.ver r t).cell cell).headNeeds t.ver n (b.takes t t.ver) t = true := by
    rw [headNeeds_entered s cell t.ver r t hb]
    exact Bool.not_eq_false _ ▸ mt (headNeeds_eq_false_iff ..).mp hneeds
  have hroom' : ((entered s cell t.ver r t).cell cell).entryRoom = none := by
    unfold Cell.entryRoom
    rw [store_entered, overflowOn_entered]
    exact hroom
  rw [enterFifo_eq, drain_of_full hbind 16 (t := t) (rest := []) (n := n) hfree hhold (by rw [htakes]) (by rwa [ctx_entered])
    hlate (by rw [nodes_entered]; exact hn) hneeds' hroom', now_entered]

end empty

/-- A token that enters a FIFO whose head stays (05:R63, R77). -/
theorem enterFifo_of_stays {s : State} {cell r : Nat} {b : Binding} {t e : Token} {n : Node}
    (hb : s.binding cell t.ver r = some b) (hn : (s.version cell t.ver).nodes[b.node]? = some n) (hfull : b.fullSince = none)
    (hhead : (b.fifo ++ [t]).head? = some e) (hlive : (s.ctx e.ctx).live = true) (hlate : ¬Late b e)
    (hstays : b.blocked = true ∨ b.heldSince ≠ none ∨ HeadStays (s.cell cell) t.ver n b e) :
    s.enterFifo cell t.ver r t = entered s cell t.ver r t := by
  have hbind := binding_entered s cell t.ver r t hb
  rw [enterFifo_eq]
  by_cases hheld : b.blocked = true ∨ b.heldSince ≠ none
  · exact drain_of_held hbind 16 hheld
  · obtain ⟨hfree, hhold⟩ := not_or.mp hheld
    have hneeds : ((entered s cell t.ver r t).cell cell).headNeeds t.ver n (b.takes t t.ver) e = false := by
      rw [headNeeds_entered s cell t.ver r t hb, headNeeds_eq_false_iff]
      exact (or_assoc.mpr hstays).resolve_left hheld
    obtain ⟨rest, hrest⟩ : ∃ rest, b.fifo ++ [t] = e :: rest := List.head?_eq_some_iff.mp hhead
    exact drain_of_stays hbind 16 (rest := rest) (Bool.eq_false_iff.mpr hfree) (not_not.mp hhold) hrest (by rwa [ctx_entered]) hlate
      (by rw [nodes_entered]; exact hn) hneeds hfull

/-! ### A token at each state of its version (05:R62, R81, R87) -/

section states

variable {s : State} {p : Packet} {t : Token}

theorem arriveInt_of_loading (h : (s.version p.dst t.ver).state = .loading) :
    s.arriveInt p t = s.updVersion p.dst t.ver fun v => { v with held := v.held ++ [p] } := by
  simp [State.arriveInt, h]

theorem arriveInt_of_unbound (hruns : Runs (s.version p.dst t.ver))
    (hb : (s.version p.dst t.ver).bindings[t.rtag.toNat]? = none) : s.arriveInt p t = tokenEntry s p.dst 3 t := by
  unfold State.arriveInt
  rcases hruns with h | h <;> simp [h, hb, logToken_unboundEntry]

theorem arriveInt_of_late {b : Binding} {q : PortRef} (hruns : Runs (s.version p.dst t.ver))
    (hb : (s.version p.dst t.ver).bindings[t.rtag.toNat]? = some b) (hsource : b.source = some q) (hcmd : t.cmd = none)
    (hlate : (s.ctx t.ctx).live = false ∨ Late b t) :
    s.arriveInt p t = credited (discardedLate s p.dst t.ver t.rtag.toNat b.node t) p.dst q := by
  have hcond : (!(s.ctx t.ctx).live || b.late t) = true := by
    rw [Bool.or_eq_true, late_eq_true_iff]
    exact hlate.imp_left (fun h => by simp [h])
  unfold State.arriveInt
  rcases hruns with h | h <;> simp [h, hb, hcond, returnCredit_of_source hsource, lateToken_eq_discardedLate hcmd]

variable (hempty : (s.version p.dst t.ver).state = .empty)

include hempty

theorem arriveInt_of_empty_bound {o : BitVec 10 × Nat} {b : Binding} (ho : (s.version p.dst t.ver).owner = some o)
    (hb : (s.version p.dst t.ver).bindings[t.rtag.toNat]? = some b) :
    s.arriveInt p t = if !(s.ctx t.ctx).live then s.lateToken p.dst t.ver t.rtag.toNat b.node t
      else (s.updBinding p.dst t.ver t.rtag.toNat fun b => { b with last := some t.payload }).forwardVest o.1 o.2
        (match (s.version p.dst t.ver).nodes[b.node]? with | some n => n.gid | none => b.node) b.port t := by
  simp [State.arriveInt, State.forwardToken, hempty, ho, hb] <;> rfl

theorem arriveInt_of_empty_unbound
    (h : (s.version p.dst t.ver).owner = none ∨ (s.version p.dst t.ver).bindings[t.rtag.toNat]? = none) :
    s.arriveInt p t = if (s.ctx t.ctx).live then tokenEntry s p.dst 3 t
      else s.lateToken p.dst t.ver t.rtag.toNat 0 t := by
  unfold State.arriveInt
  rcases ho : (s.version p.dst t.ver).owner with _ | o
  · simp [hempty, ho, logToken_unboundEntry]
  · have hb : (s.version p.dst t.ver).bindings[t.rtag.toNat]? = none := h.resolve_left (by simp [ho])
    simp [hempty, ho, hb, logToken_unboundEntry]

end states

/-! ### The claim -/

theorem entryRoom_eq (c : Cell) : c.entryRoom = if (c.store.filter fun e => !e.spilled).length < 256 then some false
    else if c.overflowOn && decide ((c.store.filter fun e => e.spilled).length < 256) then some true else none := by
  simp only [Cell.entryRoom, List.countP_eq_length_filter]

theorem internalArrivals : InternalArrivals := by
  intro s t src dst sender hnet hchan hturn r v h n moved ends
  obtain ⟨hcmd, -⟩ := id hchan
  have hends : ∀ u : State, h.arriveInt ⟨src, dst, .token t sender⟩ t = u → ends u := fun u hu =>
    (execTokenArrival_token hnet hchan hturn).trans (congrArg (fun x => Host.Outcome.next (moved x)) hu)
  have hctx : (h.ctx t.ctx).live = (s.ctx t.ctx).live := rfl
  have hdiscard : ∀ node, h.lateToken dst t.ver r node t = discardedLate h dst t.ver r node t :=
    lateToken_eq_discardedLate hcmd h dst t.ver r
  refine ⟨fun hloading => hends _ (arriveInt_of_loading hloading), fun hempty hdead => ⟨fun o b ho hb => ?_, fun hun => ?_⟩,
    fun hempty hlive o b ho hb => ?_, fun hempty hlive hun => ?_, fun hruns hb => hends _ (arriveInt_of_unbound hruns hb),
    fun hruns b hb => ⟨fun q hsource hlate => hends _ (arriveInt_of_late hruns hb hsource hcmd hlate), ?_, ?_⟩,
    fun hready o ho => State.version_noteToken_of_ready h dst t.ver ho hready⟩
  · refine hends _ ((arriveInt_of_empty_bound hempty ho hb).trans ((if_pos ?_).trans (hdiscard b.node)))
    rw [hctx, hdead]
    rfl
  · refine hends _ ((arriveInt_of_empty_unbound hempty hun).trans ((if_neg ?_).trans (hdiscard 0)))
    rw [hctx, hdead]
    exact Bool.false_ne_true
  · refine hends _ ((arriveInt_of_empty_bound hempty ho hb).trans (if_neg ?_))
    rw [hctx, hlive]
    exact Bool.false_ne_true
  · exact hends _ ((arriveInt_of_empty_unbound hempty hun).trans (if_pos hlive))
  · intro hlive hlate hfull x hx hhead
    refine hends _ ((arriveInt_of_runs (s := h) (p := ⟨src, dst, .token t sender⟩) hruns hb hlive hlate).trans ?_)
    obtain ⟨e, he⟩ : ∃ e, (b.fifo ++ [t]).head? = some e := by
      rcases hf : b.fifo with _ | ⟨y, l⟩
      · exact ⟨t, rfl⟩
      · exact ⟨y, rfl⟩
    obtain ⟨helive, helate, hestays⟩ := hhead e he
    exact enterFifo_of_stays hb hx hfull he helive helate hestays
  · intro hlive hlate hfree hhold hfifo htok x q hx hsource hneeds c stored spilled out
    have hruns' := arriveInt_of_runs (s := h) (p := ⟨src, dst, .token t sender⟩) hruns hb hlive hlate
    have hb' : h.binding dst t.ver r = some b := hb
    have hstored : ∀ sp, c.entryRoom = some sp →
        out (storedFrom h dst r b q t sp) (c.store ++ [⟨t.ver, b.node, b.port, t, sp⟩]) := fun sp hroom =>
      ⟨hends _ (hruns'.trans (enterFifo_of_entry hb' hfree hhold hfifo hlive hlate hx hneeds hsource htok hroom)),
        store_storedFrom q sp, net_storedFrom q sp, binding_storedFrom hb' hfifo q sp⟩
    refine ⟨fun hlt => ⟨_, hstored false ?_⟩, fun hge hon hlt => ⟨_, hstored true ?_⟩, fun hge hno => ⟨_, hends _
      (hruns'.trans (enterFifo_of_no_room hb' hfree hhold hfifo hlive hlate hx hneeds ?_)), ?_⟩⟩
    · rw [entryRoom_eq, if_pos hlt]
    · rw [entryRoom_eq, if_neg (Nat.not_lt.mpr hge), if_pos (by simpa using ⟨hon, hlt⟩)]
    · change c.entryRoom = none
      rw [entryRoom_eq, if_neg (Nat.not_lt.mpr hge), if_neg]
      rcases hno with hno | hno
      · simp [hno]
      · rw [decide_eq_false (Nat.not_lt.mpr hno), Bool.and_false]
        exact Bool.false_ne_true
    · rw [State.binding_updBinding_same, binding_entered h dst t.ver r t hb, takes_of_empty hfifo]
      rfl

end Sys2Proof.Machine

/-! # Tokens of an external edge (05:R64, R82, R83, R85, R87; 06:R96, R98) -/

namespace Sys2Proof.Machine

open Sys2Proof.Claims

/-! ### Where they go (05:R83, 06:R96, R98) -/

theorem left_eq_true_iff (c : Cell) (ctx : BitVec 10) (cfg : Nat) :
    c.left ctx cfg = true ↔ ∃ v ∈ [c.v0, c.v1], v.epochOpen = true ∧ v.owner = some (ctx, cfg) := by
  simp [Cell.left]

theorem extDest_of_nowhere {c : Cell} {t : Token} {cfg gid : Nat}
    (h : c.versionOf t.ctx cfg gid = none ∨ c.left t.ctx cfg = true) (port : Nat) : c.extDest t cfg gid port = none := by
  unfold Cell.extDest
  rcases h with h | h
  · simp [h]
  · simp [h]

section dest

variable {c : Cell} {t : Token} {cfg gid node : Nat} {was : Bool} (hver : c.versionOf t.ctx cfg gid = some (was, node))
  (hleft : c.left t.ctx cfg = false) (port : Nat)

include hver hleft

theorem extDest_eq : c.extDest t cfg gid port = some
    (if (c.version (!(if (c.version was).swept then !was else was))).swept
        && c.partnerIn (!(if (c.version was).swept then !was else was)) node port t then
      !(if (c.version was).swept then !was else was) else if (c.version was).swept then !was else was, node) := by
  simp [Cell.extDest, hver, hleft]

end dest

/-! ### The arrival -/

/-- The binding of an external token, where it has one. -/
def extBound (c : Cell) (t : Token) (gid port cfg : Nat) : Option (Bool × Nat) :=
  (c.extDest t cfg gid port).bind fun x => (((c.version x.1).bindingsOf x.2 port).find? (·.2.external)).map fun y => (x.1, y.1)

/-- What the packet in expansion at an external token's binding does when the token has arrived. -/
def movedAt (dst : Nat) (bound : Option (Bool × Nat)) (u : State) : State :=
  match bound with
  | some z => u.updBinding dst z.1 z.2 Binding.packNext
  | none => u

section arrival

variable {s : State} {t : Token} {src dst gid port cfg : Nat}

theorem bindingFor_extToken : s.bindingFor ⟨src, dst, .extToken t gid port cfg⟩
    = ((s.cell dst).extDest t cfg gid port).bind fun x =>
      ((((s.cell dst).version x.1).bindingsOf x.2 port).find? (·.2.external)).map fun y => (x.1, y.1, y.2) := rfl

theorem arriveToken_extToken {u : State} (n : Nat) (h : s.redirect dst t gid port cfg = some u) :
    s.arriveToken n ⟨src, dst, .extToken t gid port cfg⟩ = movedAt dst (extBound (s.cell dst) t gid port cfg)
      ((u.takePacket n).arriveExt ⟨src, dst, .extToken t gid port cfg⟩ t gid port cfg) := by
  unfold State.arriveToken
  simp only [h, bindingFor_extToken, extBound]
  rcases (s.cell dst).extDest t cfg gid port with _ | x
  · rfl
  · simp only [Option.bind_some]
    cases (((s.cell dst).version x.1).bindingsOf x.2 port).find? (·.2.external) <;> rfl

/-- A token whose version its own configuration holds spends its own credit (05:R83). -/
theorem redirect_of_own (h : ∀ x, (s.cell dst).extDest t cfg gid port = some x →
    ((s.cell dst).version x.1).owner = some (t.ctx, cfg)) : s.redirect dst t gid port cfg = some s := by
  unfold State.redirect
  rcases hd : (s.cell dst).extDest t cfg gid port with _ | ⟨ver, node⟩
  · rfl
  · have ho : (s.version dst ver).owner = some (t.ctx, cfg) := h _ hd
    simp only [ho]
    cases (s.version dst ver).nodes[node]? <;> simp

theorem redirect_of_no_credit {ver : Bool} {node : Nat} {n : Node} {o : BitVec 10 × Nat} {d : CfgRt}
    (hd : (s.cell dst).extDest t cfg gid port = some (ver, node)) (hn : ((s.cell dst).version ver).nodes[node]? = some n)
    (ho : ((s.cell dst).version ver).owner = some o) (hother : o.2 ≠ cfg) (hcfg : s.cfg o.1 o.2 = some d)
    (hcredit : tgetD d.credits 16 (n.gid * 4 + port) = 0) : s.redirect dst t gid port cfg = none := by
  have hn' : (s.version dst ver).nodes[node]? = some n := hn
  have ho' : (s.version dst ver).owner = some o := ho
  simp [State.redirect, hd, hn', ho', hother, hcfg, hcredit]

variable (hnet : InNet s ⟨src, dst, .extToken t gid port cfg⟩) (hchan : Channels t)
  (hturn : ∀ x r b, (s.cell dst).extDest t cfg gid port = some x →
    (((s.cell dst).version x.1).bindingsOf x.2 port).find? (·.2.external) = some (r, b) → TokensTurn s dst x.1 r)

include hturn in
theorem packHolds_extToken (hk : t.kind ≠ 6) : s.packHolds ⟨src, dst, .extToken t gid port cfg⟩ t = false := by
  refine packHolds_eq_false hk fun v r b hb => ?_
  rw [bindingFor_extToken, Option.bind_eq_some_iff] at hb
  obtain ⟨x, hx, hb⟩ := hb
  obtain ⟨⟨r', b'⟩, hy, he⟩ := Option.map_eq_some_iff.mp hb
  obtain ⟨rfl, rfl, rfl⟩ := by simpa using he
  refine ⟨?_, hturn x _ _ hx hy⟩
  obtain ⟨hmem, -⟩ := List.mem_filter.mp (List.mem_of_find?_eq_some hy)
  obtain ⟨i, -, hi⟩ := List.mem_filterMap.mp hmem
  obtain ⟨b'', hb'', hpair⟩ := Option.map_eq_some_iff.mp hi
  obtain ⟨rfl, rfl⟩ := by simpa using hpair
  exact hb''

include hnet hchan hturn

theorem execTokenArrival_extToken {u : State} (h : s.redirect dst t gid port cfg = some u) :
    exec .tokenArrival s = .next (movedAt dst (extBound (s.cell dst) t gid port cfg)
      ((u.takePacket s.choice.n).arriveExt ⟨src, dst, .extToken t gid port cfg⟩ t gid port cfg)) := by
  change execTokenArrival s = _
  simp only [execTokenArrival, State.tokenArrival, arriving_of_inNet hnet, Packet.token?, route_of_channels hchan,
    packHolds_extToken hturn (kind_of_channels hchan)]
  exact congrArg _ (arriveToken_extToken _ h)

theorem execTokenArrival_of_no_credit (h : s.redirect dst t gid port cfg = none) : exec .tokenArrival s = .next s := by
  change execTokenArrival s = _
  simp only [execTokenArrival, State.tokenArrival, arriving_of_inNet hnet, Packet.token?, route_of_channels hchan,
    packHolds_extToken hturn (kind_of_channels hchan), State.arriveToken, h]
  simp

end arrival

/-! ### At the version it takes -/

section arriveExt

variable {s : State} {p : Packet} {t : Token} {gid port cfg : Nat}

theorem arriveExt_of_dead (hdead : (s.ctx t.ctx).live = false) (hcmd : t.cmd = none) :
    s.arriveExt p t gid port cfg = discardedLate s p.dst ((s.cell p.dst).lateNode t.ctx cfg gid).1
      (((((s.cell p.dst).version ((s.cell p.dst).lateNode t.ctx cfg gid).1).bindingsOf
        ((s.cell p.dst).lateNode t.ctx cfg gid).2 port).find? (·.2.external)).elim 0 fun y => y.1)
      ((s.cell p.dst).lateNode t.ctx cfg gid).2 t := by
  unfold State.arriveExt Version.extBinding
  simp only [hdead, Bool.not_false, if_true, lateToken_eq_discardedLate hcmd]
  cases (((s.cell p.dst).version ((s.cell p.dst).lateNode t.ctx cfg gid).1).bindingsOf
    ((s.cell p.dst).lateNode t.ctx cfg gid).2 port).find? (·.2.external) <;> rfl

theorem arriveExt_of_nowhere (hlive : (s.ctx t.ctx).live = true)
    (hd : (s.cell p.dst).extDest t cfg gid port = none) : s.arriveExt p t gid port cfg = s.forwardVest t.ctx cfg gid port t := by
  simp [State.arriveExt, hlive, hd]

variable {ver : Bool} {node : Nat} (hlive : (s.ctx t.ctx).live = true)
  (hd : (s.cell p.dst).extDest t cfg gid port = some (ver, node))

include hlive hd

theorem arriveExt_of_loading (hstate : ((s.cell p.dst).version ver).state = .loading) :
    s.arriveExt p t gid port cfg = s.updVersion p.dst ver fun v => { v with held := v.held ++ [p] } := by
  simp [State.arriveExt, hlive, hd, hstate]

variable {n : Node} (hruns : Runs ((s.cell p.dst).version ver)) (hn : ((s.cell p.dst).version ver).nodes[node]? = some n)
  (ho : ((s.cell p.dst).version ver).owner = some (t.ctx, cfg))

/-- A token waits for its node to fire with it (05:R64). -/
def waitsAtNode (n : Node) (t : Token) : Prop := n.firingPorts = [] ∧ n.role ≠ .storer ∧ t.kind.toNat ≠ 3

omit hlive hd in
theorem waitsAtNode_iff (n : Node) (t : Token) :
    (n.firingPorts.isEmpty && n.role ≠ .storer && t.kind ≠ 3) = true ↔ waitsAtNode n t := by
  have hk : t.kind ≠ 3 ↔ t.kind.toNat ≠ 3 := not_congr (kind_eq_iff t 3)
  simp [waitsAtNode, ← hk, and_assoc]

include hruns hn ho

theorem arriveExt_of_delivery (hw : waitsAtNode n t) : s.arriveExt p t gid port cfg
    = (s.noteToken p.dst ver).updNode p.dst ver node fun n =>
      { n with deliveries := n.deliveries ++ [(port, { t with ver := ver })] } := by
  have hloading : ((s.cell p.dst).version ver).state ≠ .loading := by rcases hruns with h | h <;> simp [h]
  have hcond := (waitsAtNode_iff n t).mpr hw
  simp only [State.arriveExt, hlive, hd, hloading, hn, ho, hcond]
  rfl

theorem arriveExt_of_binding (hw : ¬waitsAtNode n t) {r : Nat} {b : Binding}
    (hb : (((s.cell p.dst).version ver).bindingsOf node port).find? (·.2.external) = some (r, b)) :
    s.arriveExt p t gid port cfg = if b.late t then
        (s.lateToken p.dst ver r node { t with ver := ver }).returnCredit p.dst ((s.cell p.dst).version ver) b
      else s.enterFifo p.dst ver r { t with ver := ver, rtag := BitVec.ofNat 8 r } := by
  have hloading : ((s.cell p.dst).version ver).state ≠ .loading := by rcases hruns with h | h <;> simp [h]
  have hcond := Bool.eq_false_iff.mpr (mt (waitsAtNode_iff n t).mp hw)
  have hb' : ((s.cell p.dst).version ver).extBinding node port = some (r, b) := hb
  simp only [State.arriveExt, hlive, hd, hloading, hn, ho, hcond, hb']
  rfl

theorem arriveExt_of_unbound (hw : ¬waitsAtNode n t)
    (hb : (((s.cell p.dst).version ver).bindingsOf node port).find? (·.2.external) = none) :
    s.arriveExt p t gid port cfg = (tokenEntry s p.dst 3 { t with ver := ver }).agentCredit p.dst t.ctx cfg n.gid port := by
  have hloading : ((s.cell p.dst).version ver).state ≠ .loading := by rcases hruns with h | h <;> simp [h]
  have hcond := Bool.eq_false_iff.mpr (mt (waitsAtNode_iff n t).mp hw)
  have hb' : ((s.cell p.dst).version ver).extBinding node port = none := hb
  simp only [State.arriveExt, hlive, hd, hloading, hn, ho, hcond, hb']
  rfl

end arriveExt

/-! ### The claim -/

theorem externalArrivals : ExternalArrivals := by
  intro s t src dst gid port cfg hnet hchan h c live goes bound own turn moved ends left
  obtain ⟨hcmd, -⟩ := id hchan
  have hleft : c.left t.ctx cfg = true ↔ left := left_eq_true_iff c t.ctx cfg
  have hstay : ¬left → c.left t.ctx cfg = false := fun hl => Bool.eq_false_iff.mpr (mt hleft.mp hl)
  have hturn : turn → ∀ x r b, c.extDest t cfg gid port = some x →
      ((c.version x.1).bindingsOf x.2 port).find? (·.2.external) = some (r, b) → TokensTurn s dst x.1 r :=
    fun ht x r b hx hb => ht x (r, b) hx hb
  let p : Packet := ⟨src, dst, .extToken t gid port cfg⟩
  have hends : own → turn → ∀ u : State, h.arriveExt p t gid port cfg = u → ends u := fun hown ht u hu =>
    (execTokenArrival_extToken hnet hchan (hturn ht) (redirect_of_own hown)).trans
      (congrArg (fun x => Host.Outcome.next (moved x)) hu)
  refine ⟨fun hno => extDest_of_nowhere (hno.imp_right hleft.mpr) port, fun was node hver hl => ⟨fun hno => ?_, fun hsw hp => ?_⟩,
    fun hown ht hdead => hends hown ht _ (arriveExt_of_dead hdead hcmd), fun hlive hnone => ?_,
    fun hown ht hlive ver node n hgoes hn => ⟨fun hl => hends hown ht _ (arriveExt_of_loading hlive hgoes hl), fun hruns hw => ?_,
      fun hruns hw r b hb => ⟨fun hlate => ?_, fun hlate => ?_⟩, fun hruns hw hb => ?_⟩,
    fun ver node n o d hgoes hn ho hother hcfg hcredit ht => execTokenArrival_of_no_credit hnet hchan (hturn ht)
      (redirect_of_no_credit hgoes hn ho hother hcfg hcredit)⟩
  · refine (extDest_eq hver (hstay hl) port).trans ?_
    rw [if_neg]
    rcases hno with h0 | h0
    · simp [h0]
    · simp [h0]
  · refine (extDest_eq hver (hstay hl) port).trans ?_
    rw [if_pos]
    simp [hsw, hp]
  · have hnowhere : ∀ x, goes ≠ some x := fun x hx => Option.some_ne_none x (hx.symm.trans hnone)
    exact hends (fun x hx => absurd hx (hnowhere x)) (fun x _ hx => absurd hx (hnowhere x)) _ (arriveExt_of_nowhere hlive hnone)
  all_goals have ho : (c.version ver).owner = some (t.ctx, cfg) := hown _ hgoes
  · exact hends hown ht _ (arriveExt_of_delivery (s := h) (p := p) hlive hgoes hruns hn ho hw)
  · refine hends hown ht _ ((arriveExt_of_binding (s := h) (p := p) hlive hgoes hruns hn ho hw hb).trans ?_)
    rw [if_pos ((late_eq_true_iff b t).mpr hlate), lateToken_eq_discardedLate (t := { t with ver := ver }) hcmd]
    rfl
  · refine hends hown ht _ ((arriveExt_of_binding (s := h) (p := p) hlive hgoes hruns hn ho hw hb).trans ?_)
    rw [late_eq_false_of hlate]
    rfl
  · exact hends hown ht _ (arriveExt_of_unbound (s := h) (p := p) hlive hgoes hruns hn ho hw hb)

/-- Settles O37: where the tokens of internal and of external edges go at their cell. -/
theorem tokenArrivals : Obligations.TokenArrivals :=
  ⟨internalArrivals, externalArrivals⟩

end Sys2Proof.Machine

/-! # Sweeps (05:R83; 15:R234, R235) -/

namespace Sys2Proof.Machine

open Sys2Proof.Claims

/-! ### The next cell of a gallery -/

theorem head?_filter_range_lt {k n : Nat} (hk : k < n) :
    ((List.range n).filter (decide <| k < ·)).head? = if k + 1 < n then some (k + 1) else none := by
  obtain ⟨m, rfl⟩ : ∃ m, n = k + 1 + m := ⟨n - (k + 1), by omega⟩
  have hlow : (List.range (k + 1)).filter (fun i => decide (k < i)) = [] :=
    List.filter_eq_nil_iff.mpr fun i hi => by
      have := List.mem_range.mp hi
      simp
      omega
  have hhigh : ((List.range m).map (k + 1 + ·)).filter (fun i => decide (k < i)) = (List.range m).map (k + 1 + ·) :=
    List.filter_eq_self.mpr fun i hi => by
      obtain ⟨j, -, rfl⟩ := List.mem_map.mp hi
      simp
      omega
  rw [List.range_add, List.filter_append, hlow, hhigh, List.nil_append, List.head?_map]
  cases m with
  | zero => simp
  | succ m => simp [List.range_succ_eq_map]

/-- A sweep of a gallery goes on to the next cell, but for the last (15:R234). -/
theorem sweepCells_next {t : Token} (hpay : t.payload = 0) {dst : Nat} (hdst : dst < 2 ^ 18) :
    ((sweepCells t dst).filter (decide <| dst < ·)).head? = if dst % 1024 < 1023 then some (dst + 1) else none := by
  have hbase : galleryOf dst * 1024 + dst % 1024 = dst := by
    unfold galleryOf
    omega
  have hcells : sweepCells t dst = (List.range 1024).map (galleryOf dst * 1024 + ·) := if_pos hpay
  have hbeyond : (fun i => decide (dst < galleryOf dst * 1024 + i)) = fun i => decide (dst % 1024 < i) := by
    funext i
    rw [decide_eq_decide]
    omega
  have hlt : dst % 1024 < 1024 := Nat.mod_lt _ (by decide)
  rw [hcells, List.filter_map, List.head?_map]
  simp only [Function.comp_def, hbeyond, head?_filter_range_lt hlt]
  by_cases hlast : dst % 1024 < 1023
  · have h2 : dst % 1024 + 1 < 1024 := by omega
    simp [hlast, h2]
    omega
  · have h2 : ¬dst % 1024 + 1 < 1024 := by omega
    simp [hlast, h2]

/-! ### The live version of a swept cell (05:R83) -/

theorem ne_loading_of_runs {v : Version} (h : Runs v) : v.state ≠ .loading := by
  rcases h with h | h <;> simp [h]

theorem ne_empty_of_runs {v : Version} (h : Runs v) : v.state ≠ .empty := by
  rcases h with h | h <;> simp [h]

theorem State.cfg_updCfg_same {s : State} {ctx : BitVec 10} {i : Nat} {x : CfgRt} (h : s.cfg ctx i = some x)
    (f : CfgRt → CfgRt) : (s.updCfg ctx i f).cfg ctx i = some (f x) := by
  unfold State.updCfg
  rw [h]
  simp [State.cfg]

theorem version_liveIs (c : Cell) (v : Bool) : (liveIs c v).version v = { c.version v with swept := false } := by
  cases v <;> rfl

theorem version_updCell_liveIs (s : State) (cell : Nat) (v : Bool) :
    (s.updCell cell fun c => liveIs c v).version cell v = { s.version cell v with swept := false } := by
  unfold State.version
  rw [State.cell_updCell_same, version_liveIs]

theorem flip_of_not_ready {s : State} {cell : Nat} {v : Bool} (h : (s.version cell v).state ≠ .ready) :
    s.flip cell v = s.updCell cell fun c => liveIs c v := by
  have hversion := version_updCell_liveIs s cell v
  change (match ((s.updCell cell fun c => liveIs c v).version cell v).state,
    ((s.updCell cell fun c => liveIs c v).version cell v).owner with | .ready, some (ctx, i) => _ | _, _ => _) = _
  rw [hversion]
  dsimp only
  split
  · rename_i hready _
    exact absurd hready h
  · rfl

/-- A READY configuration that a sweep names is LIVE (23:R339). -/
theorem flip_of_ready {s : State} {cell : Nat} {v : Bool} {o : BitVec 10 × Nat} (h : (s.version cell v).state = .ready)
    (ho : (s.version cell v).owner = some o) : s.flip cell v
      = ((s.updCell cell fun c => liveIs c v).updVersion cell v fun x => { x with state := .live }).updCfg o.1 o.2 fun c =>
        { c with
          state := if c.state = .ready then .live else c.state, liveSince := if c.state = .ready then s.now else c.liveSince
          wanted := c.wanted && decide (c.state ≠ .ready) } := by
  have hversion := version_updCell_liveIs s cell v
  change (match ((s.updCell cell fun c => liveIs c v).version cell v).state,
    ((s.updCell cell fun c => liveIs c v).version cell v).owner with | .ready, some (ctx, i) => _ | _, _ => _) = _
  rw [hversion]
  simp only [h, ho]
  rfl

theorem flip_net (s : State) (cell : Nat) (v : Bool) : (s.flip cell v).net = s.net := by
  unfold State.flip
  dsimp only
  split <;> simp

/-! ### A visit (05:R83, 15:R234, R235) -/

section visit

variable {s : State} {src dst : Nat} {t : Token}

theorem route_of_sweep (hk : t.kind.toNat = 3) (ha : t.aux.toNat = 4 ∨ t.aux.toNat = 20) : t.route = .sweep := by
  unfold Token.route Token.badKind
  rcases ha with ha | ha <;> simp [kind_eq_iff, hk, ha]

variable (hlive : (s.ctx t.ctx).live = true)

include hlive

section token

variable {q : Option PortRef} (hnet : InNet s ⟨src, dst, .token t q⟩) (hroute : t.route = .sweep)

include hnet hroute

theorem execCtrlSweep_of_loading (hstate : ((s.cell dst).version (t.aux.getLsbD 4)).state = .loading) :
    exec .ctrlSweep s = .next s := by
  change execCtrlSweep s = _
  simp only [execCtrlSweep, arriving_of_inNet hnet, hroute, hlive, hstate]
  rfl

/-- A sweep of a gallery that is at a cell goes on to the next one. -/
theorem execCtrlSweep_of_gallery (hstate : ((s.cell dst).version (t.aux.getLsbD 4)).state ≠ .loading)
    (hpay : t.payload = 0) (hdst : dst < 2 ^ 18) {u : State}
    (hu : (if ((s.cell dst).version (t.aux.getLsbD 4)).state = .empty then
        (taken s).chronoAt dst 0x07 (t.aux.getLsbD 4).toNat (t.aux.getLsbD 4) 0 t.iter.toNat t.ctx.toNat
      else (taken s).flip dst (t.aux.getLsbD 4)) = u) :
    exec .ctrlSweep s = .next (if dst % 1024 < 1023 then
      { u with net := u.net ++ [⟨dst, dst + 1, .sweep { t with dst := BitVec.ofNat 18 (dst + 1) } none [] none⟩] } else u) := by
  change execCtrlSweep s = _
  have hu' : (if ((s.cell dst).version (t.aux.getLsbD 4)).state = .empty then
      (s.takePacket s.choice.n).chronoAt dst 0x07 (t.aux.getLsbD 4).toNat (t.aux.getLsbD 4) 0 t.iter.toNat t.ctx.toNat
    else (s.takePacket s.choice.n).flip dst (t.aux.getLsbD 4)) = u := hu
  simp only [execCtrlSweep, arriving_of_inNet hnet, hroute, hlive, hstate, sweepCells_next hpay hdst, hu']
  by_cases hlast : dst % 1024 < 1023
  · simp only [if_pos hlast]
    rfl
  · simp only [if_neg hlast]
    rfl

end token

/-- A start sweep visits a cell, notes whether it matches and passes, and goes on or starts the operation (15:R235). -/
theorem execCtrlSweep_of_start {q : Token} {m : List Nat} {f : Option Nat} (hnet : InNet s ⟨src, dst, .sweep t (some q) m f⟩)
    (hruns : Runs ((s.cell dst).version (t.aux.getLsbD 4))) (hidle : (s.cell dst).regionOp = none) {same rows : Bool}
    (hsame : (s.cell dst).matchesStart t.payload.toNat q.payload.toNat = same)
    (hrows : (s.cell dst).passesStart dst t.payload.toNat q.payload.toNat = rows) :
    exec .ctrlSweep s = .next (((taken s).flip dst (t.aux.getLsbD 4)).send
      (match ((sweepCells t dst).filter (decide <| dst < ·)).head? with
        | some next => ⟨dst, next, .sweep { t with dst := BitVec.ofNat 18 next } (some q)
            (if same then m ++ [dst] else m) (if same && rows then f else some (f.getD dst))⟩
        | none => ⟨dst, dst, .regionStart t q (if same then m ++ [dst] else m) (if same && rows then f else some (f.getD dst))⟩)) := by
  have hloading : ((s.cell dst).version (t.aux.getLsbD 4)).state ≠ .loading := ne_loading_of_runs hruns
  have hempty : ((s.cell dst).version (t.aux.getLsbD 4)).state ≠ .empty := ne_empty_of_runs hruns
  change execCtrlSweep s = _
  simp only [execCtrlSweep, arriving_of_inNet hnet, hlive, hloading, hempty, hidle, hsame, hrows]
  cases ((sweepCells t dst).filter (decide <| dst < ·)).head? <;> cases same <;> cases rows <;> rfl

end visit

theorem sweeps : Sweeps := by
  intro s t src dst hdst hlive h c ver v on gallery
  refine ⟨fun q hnet hk ha hpay => ⟨fun hempty => ?_, fun hv => ?_, fun hloading => ?_, fun hready o ho => ?_⟩,
    fun q m f hnet hruns hidle => ?_⟩
  · exact execCtrlSweep_of_gallery hlive hnet (route_of_sweep hk ha) (by rw [hempty]; decide) hpay hdst (if_pos hempty)
  · refine execCtrlSweep_of_gallery hlive hnet (route_of_sweep hk ha) (by rw [hv]; decide) hpay hdst
      ((if_neg (by rw [hv]; decide)).trans (flip_of_not_ready ?_))
    exact fun hr => absurd (hv.symm.trans hr) (by decide)
  · exact execCtrlSweep_of_loading hlive hnet (route_of_sweep hk ha) hloading
  · have hflip := flip_of_ready (s := h) (cell := dst) (v := ver) hready ho
    have hcell : (h.flip dst ver).cell dst = (liveIs c ver).updVersion ver fun x => { x with state := .live } := by
      rw [hflip, State.cell_updCfg]
      unfold State.updVersion
      rw [State.cell_updCell_same, State.cell_updCell_same]
      rfl
    refine ⟨h.flip dst ver, execCtrlSweep_of_gallery hlive hnet (route_of_sweep hk ha) (by rw [hready]; decide) hpay hdst
      (if_neg (by rw [hready]; decide)), flip_net .., ?_, ?_, fun g hg hgready => ?_⟩
    · unfold State.version
      rw [hcell, Cell.version_updVersion_same]
    · rw [hcell]
      simp
    · have hg' : ((h.updCell dst fun c => liveIs c ver).updVersion dst ver fun x => { x with state := .live }).cfg o.1 o.2 = some g := hg
      refine ⟨_, by rw [hflip]; exact State.cfg_updCfg_same hg' _, ?_, ?_⟩
      · simp [hgready]
      · simp [hgready]
        rfl
  · have hstart := fun same rows => execCtrlSweep_of_start (same := same) (rows := rows) hlive hnet hruns hidle
    have hmatch : c.matchesStart t.payload.toNat q.payload.toNat = true ↔
        c.region.toNat = t.payload.toNat - t.payload.toNat % 2 ∧ c.regionPair.toNat = q.payload.toNat % 2 ^ 32 := by
      simp [Cell.matchesStart]
    refine ⟨fun hs hr => ?_, fun hs hr => ?_, fun hs => ?_⟩
    · rw [hstart true true (hmatch.mpr hs) hr]
      exact ⟨fun next hnext => by rw [hnext]; rfl, fun hnext => by rw [hnext]; rfl⟩
    · rw [hstart true false (hmatch.mpr hs) (Bool.eq_false_iff.mpr hr)]
      exact ⟨fun next hnext => by rw [hnext]; rfl, fun hnext => by rw [hnext]; rfl⟩
    · rw [hstart false _ (Bool.eq_false_iff.mpr (mt hmatch.mp hs)) rfl]
      exact ⟨fun next hnext => by rw [hnext]; rfl, fun hnext => by rw [hnext]; rfl⟩

end Sys2Proof.Machine

/-! # Operations of systolic regions (15:R235 to R237; 16:R242) -/

namespace Sys2Proof.Machine

open Sys2Proof.Claims

/-! ### A change of several cells -/

theorem cell_each_not_mem {f : State → Nat → State} (hf : ∀ s c k, k ≠ c → (f s c).cell k = s.cell k) (l : List Nat) (s : State)
    {k : Nat} (hk : k ∉ l) : (each l s f).cell k = s.cell k := by
  induction l generalizing s with
  | nil => rfl
  | cons x l ih =>
    obtain ⟨hx, hl⟩ := not_or.mp (mt List.mem_cons.mpr hk)
    exact (ih (f s x) hl).trans (hf s x k hx)

/-- What each step makes true of its element, and no step undoes, holds of every element at the end. -/
theorem each_reaches {α σ : Type} {f : σ → α → σ} {P : σ → α → Prop} {Q : σ → Prop} (hQ : ∀ s x, Q s → Q (f s x))
    (hnew : ∀ s x, Q s → P (f s x) x) (hkeep : ∀ s x y, Q s → P s y → P (f s x) y) (l : List α) {s : σ} (h : Q s) :
    ∀ x ∈ l, P (each l s f) x := by
  induction l generalizing s with
  | nil => simp
  | cons y l ih =>
    intro x hx
    rcases List.mem_cons.mp hx with rfl | hx
    · have hboth : Q (each l (f s x) f) ∧ P (each l (f s x) f) x :=
        each_keeps (P := fun s => Q s ∧ P s x) (fun s y hs => ⟨hQ s y hs.1, hkeep s y x hs.1 hs.2⟩) l ⟨hQ s x h, hnew s x h⟩
      exact hboth.2
    · exact ih (hQ s y h) x hx

/-! ### The start (15:R235, R237) -/

/-- The operation that a start sweep which has failed owes to a cell that matched. -/
def failedOp (now : Nat) (t q : Token) : RegionOp :=
  { ctx := t.ctx, iter := t.iter, word := t.payload &&& ~~~(1 : Word), pair := q.payload.truncate 32, poison := t.poison
    fails := true, steps := 0, until_ := now + 1 }

/-- The operation that a start sweep begins on a cell. -/
def startedOp (now : Nat) (t q : Token) (c : Nat) : RegionOp :=
  { failedOp now t q with
    fails := false
    until_ := now + 1 + 2 * (cellRowOf c - (regionOf (t.payload &&& ~~~(1 : Word)).toNat).row0
      + (cellColOf c - (regionOf (t.payload &&& ~~~(1 : Word)).toNat).col0)) }

/-- The start of the operation on one cell. -/
def begun (t q : Token) (s : State) (c : Nat) : State :=
  s.startRegion (t.payload &&& ~~~(1 : Word)) (q.payload.truncate 32) t c

theorem cell_begun_other (t q : Token) (s : State) (c k : Nat) (h : k ≠ c) : (begun t q s c).cell k = s.cell k :=
  State.cell_updCell_other _ _ h

theorem regionOp_begun_same (t q : Token) (s : State) (c : Nat) :
    ((begun t q s c).cell c).regionOp = some (startedOp s.now t q c) :=
  congrArg Cell.regionOp (State.cell_updCell_same ..)

/-- A cell owes the completion token of a start that has failed. -/
def owes (t q : Token) (s : State) (c : Nat) : State := s.updCell c fun x => { x with regionOp := some (failedOp s.now t q) }

section start

variable {s : State} {src dst : Nat} {t q : Token} {m : List Nat} {f : Option Nat}
  (hnet : s.net[s.choice.n]? = some ⟨src, dst, .regionStart t q m f⟩) (hlive : (s.ctx t.ctx).live = true)
  (hidle : ∀ c ∈ (regionOf (t.payload &&& ~~~(1 : Word)).toNat).cells (galleryOf dst), (s.cell c).regionOp = none)


include hnet hlive hidle

theorem execRegionOperationStart_of_passed (hf : f = none) : exec .regionOperationStart s = .next
    (each ((regionOf (t.payload &&& ~~~(1 : Word)).toNat).cells (galleryOf dst)) (taken s) (begun t q)) := by
  have hnone : ((regionOf (t.payload &&& ~~~(1 : Word)).toNat).cells (galleryOf dst)).any
      (fun c => (s.cell c).regionOp.isSome) = false := by
    rw [List.any_eq_false]
    intro c hc
    simp [hidle c hc]
  change execRegionOperationStart s = _
  subst hf
  simp only [execRegionOperationStart, hnet, hlive, hnone]
  rfl

theorem execRegionOperationStart_of_failed {bad : Nat} (hf : f = some bad) : exec .regionOperationStart s = .next
    (each m ((taken s).chronoAt bad 0x08 bad (t.aux.getLsbD 4) 0 t.iter.toNat t.ctx.toNat) (owes t q)) := by
  have hnone : ((regionOf (t.payload &&& ~~~(1 : Word)).toNat).cells (galleryOf dst)).any
      (fun c => (s.cell c).regionOp.isSome) = false := by
    rw [List.any_eq_false]
    intro c hc
    simp [hidle c hc]
  change execRegionOperationStart s = _
  subst hf
  simp only [execRegionOperationStart, hnet, hlive, hnone]
  rfl

end start

/-- The cells on which a start sweep has begun its operation (15:R235). -/
theorem each_begun (l : List Nat) (s : State) (t q : Token) : (each l s (begun t q)).net = s.net
    ∧ (∀ c ∈ l, ((each l s (begun t q)).cell c).regionOp = some (startedOp s.now t q c))
    ∧ ∀ c, c ∉ l → (each l s (begun t q)).cell c = s.cell c := by
  refine ⟨each_keeps (f := begun t q) (P := fun u : State => u.net = s.net) (fun _ _ h => h) l rfl,
    each_reaches (f := begun t q) (Q := fun u : State => u.now = s.now)
      (P := fun u c => (u.cell c).regionOp = some (startedOp s.now t q c)) (fun _ _ h => h) (fun u c hu => ?_)
      (fun u c k hu hk => ?_) l rfl,
    fun c hc => cell_each_not_mem (cell_begun_other t q) l s hc⟩
  · rw [← hu]
    exact regionOp_begun_same ..
  · by_cases h : k = c
    · rw [h, ← hu]
      exact regionOp_begun_same ..
    · rw [cell_begun_other t q u c k h]
      exact hk

theorem each_owes (l : List Nat) (s : State) (t q : Token) : (each l s (owes t q)).net = s.net
    ∧ (∀ c ∈ l, ((each l s (owes t q)).cell c).regionOp = some (failedOp s.now t q))
    ∧ ∀ c, c ∉ l → (each l s (owes t q)).cell c = s.cell c := by
  have hother : ∀ s c k, k ≠ c → (owes t q s c).cell k = s.cell k := fun s c k h => State.cell_updCell_other _ _ h
  have hsame : ∀ u c, u.now = s.now → ((owes t q u c).cell c).regionOp = some (failedOp s.now t q) := fun u c hu => by
    rw [← hu]
    exact congrArg Cell.regionOp (State.cell_updCell_same ..)
  refine ⟨each_keeps (f := owes t q) (P := fun u : State => u.net = s.net) (fun _ _ h => h) l rfl,
    each_reaches (f := owes t q) (Q := fun u : State => u.now = s.now)
      (P := fun u c => (u.cell c).regionOp = some (failedOp s.now t q)) (fun _ _ h => h) (fun u c hu => hsame u c hu)
      (fun u c k hu hk => ?_) l rfl, fun c hc => cell_each_not_mem hother l s hc⟩
  by_cases h : k = c
  · rw [h]
    exact hsame u c hu
  · rw [hother u c k h]
    exact hk

/-! ### A step (15:R235, R236) -/

/-- The operand of a step: of a holder's own bank, or of a stream. -/
def stepOperand (c : Cell) (holds : Bool) (base n now : Nat) (stream : List (Nat × List Row × Bool)) : Option (List Row × Bool) :=
  if holds then c.ownOperand base n else streamed now stream

theorem stepOperand_eq_some_iff (c : Cell) (holds : Bool) (base n now : Nat) (stream : List (Nat × List Row × Bool))
    (x : List Row × Bool) : stepOperand c holds base n now stream = some x ↔ OperandOf c holds base n now stream x := by
  cases holds
  · simp only [stepOperand, OperandOf, Bool.false_eq_true, if_false]
    rcases stream with _ | ⟨⟨at_, y⟩, r⟩
    · simp [streamed]
    · by_cases h : at_ ≤ now
      · simp [streamed, h]
      · simp [streamed, h]
  · have hall : (rowRun base n).all c.engineRow = true ↔ ∀ k < n, c.engineRow (base + k) = true := by
      simp [rowRun, upTo]
    simp only [stepOperand, OperandOf, if_true, Cell.ownOperand, ← hall]
    by_cases h : (rowRun base n).all c.engineRow = true
    · rw [if_pos h, Option.some.injEq, eq_comm, and_iff_right h]
      simp only [rowRun, upTo, List.map_map, List.any_map, Function.comp_def]
    · simp [h]

/-- An instruction under way that the first step waits for (16:R242; log entry 16). -/
theorem regionWaits_eq_true_iff (c : Cell) (now : Nat) (l : List Res) :
    c.regionWaits now l = true ↔ ∃ f ∈ c.flights, f.until_ ≠ 2 ^ 100 ∧ now < f.until_ ∧ ∃ x ∈ f.reads ++ f.writes, x ∈ l := by
  unfold Cell.regionWaits regionMark
  simp only [List.any_eq_true, Bool.and_eq_true, decide_eq_true_iff, and_assoc, List.contains_iff_mem]

/-- What a step leaves on its cell, and what it sends on. -/
def stepped (s : State) (cell : Nat) (o : RegionOp) (a b : List Row × Bool) : State :=
  let r := regionOf o.word.toNat
  let p := pairOf o.pair
  let c := s.cell cell
  let m : Mac := { tile := r.tile, ppi := r.pair, pair := { p with trimA := false, trimB := false }, a := .rows 0 0, bb := 256 }
  let fed : Cell := { c with bank := (a.1.mapIdx fun i x => (i, x)) ++ b.1.mapIdx fun i x => (256 + i, x) }
  let next : RegionOp := { o with steps := o.steps + 1, until_ := s.now + 6 + p.pa * p.pb, inA := o.inA.tail, inB := o.inB.tail }
  (((s.updCell cell fun _ => { fed.accumulate m (fed.macOut m) (o.poison || a.2 || b.2) with bank := c.bank, regionOp := some next }).streamTo
    r cell true a).streamTo r cell false b)

section step

variable {s : State} {cell : Nat} {o : RegionOp}

/-- The operands of a step on a cell. -/
def operandA (s : State) (cell : Nat) (o : RegionOp) : Option (List Row × Bool) :=
  let r := regionOf o.word.toNat
  let p := pairOf o.pair
  stepOperand (s.cell cell) (decide (cellColOf cell = r.col0)) (r.abase + o.steps * groupRows p.fmtA p.pa)
    (groupRows p.fmtA p.pa) s.now o.inA

def operandB (s : State) (cell : Nat) (o : RegionOp) : Option (List Row × Bool) :=
  let r := regionOf o.word.toNat
  let p := pairOf o.pair
  stepOperand (s.cell cell) (decide (cellRowOf cell = r.row0)) (r.bbase + o.steps * groupRows p.fmtB p.pb)
    (groupRows p.fmtB p.pb) s.now o.inB

/-- The first step waits for instructions under way. -/
def heldUp (s : State) (cell : Nat) (o : RegionOp) : Bool :=
  (s.cell cell).regionWaits s.now (.tile (regionOf o.word.toNat).tile :: (regionOf o.word.toNat).holderRows (pairOf o.pair) cell)

theorem regionStep_of_wait (h : operandA s cell o = none ∨ operandB s cell o = none ∨ (o.steps = 0 ∧ heldUp s cell o = true)) :
    s.regionStep cell o = s := by
  unfold operandA operandB stepOperand heldUp at h
  simp only [decide_eq_true_iff] at h
  unfold State.regionStep
  dsimp only
  split
  · rename_i a b ha hb
    rcases h with h | h | h
    · exact absurd (ha.symm.trans h) (by simp)
    · exact absurd (hb.symm.trans h) (by simp)
    · exact if_pos (by simpa using h)
  · rfl

theorem regionStep_of_operands {a b : List Row × Bool} (ha : operandA s cell o = some a) (hb : operandB s cell o = some b)
    (hgo : 0 < o.steps ∨ ¬heldUp s cell o = true) : s.regionStep cell o = stepped s cell o a b := by
  unfold operandA stepOperand at ha
  unfold operandB stepOperand at hb
  simp only [decide_eq_true_iff] at ha hb
  have hgo' : ¬(decide (o.steps = 0) && heldUp s cell o) = true := by
    rcases hgo with h | h
    · simp [Nat.pos_iff_ne_zero.mp h]
    · simp [h]
  unfold State.regionStep
  simp only [ha, hb]
  exact if_neg hgo'

end step

/-! ### What a step sends on -/

section stream

variable (s : State) (r : Region) (cell : Nat) (isA : Bool) (x : List Row × Bool)

/-- The cell that a stream feeds next. -/
def nextInStream (cell : Nat) (isA : Bool) : Nat := if isA then cell + 1 else cell + 32

theorem streamTo_eq_or : s.streamTo r cell isA x = s ∨ s.streamTo r cell isA x
    = s.updCell (nextInStream cell isA) fun c => { c with regionOp := c.regionOp.map (RegionOp.take · isA (s.now + 2, x)) } := by
  by_cases h : (r.holds (nextInStream cell isA)
      && (if isA then decide (cellColOf cell < 31) else decide (cellRowOf cell < 31))) = true
  · exact Or.inr (if_pos h)
  · exact Or.inl (if_neg h)

theorem cell_streamTo_other {k : Nat} (h : k ≠ nextInStream cell isA) : (s.streamTo r cell isA x).cell k = s.cell k := by
  rcases streamTo_eq_or s r cell isA x with he | he
  · rw [he]
  · rw [he]
    exact State.cell_updCell_other _ _ h

theorem streamTo_net : (s.streamTo r cell isA x).net = s.net := by
  rcases streamTo_eq_or s r cell isA x with he | he
  · rw [he]
  · rw [he]; rfl

theorem streamTo_now : (s.streamTo r cell isA x).now = s.now := by
  rcases streamTo_eq_or s r cell isA x with he | he
  · rw [he]
  · rw [he]; rfl

variable {s r cell isA} {o : RegionOp} (ho : (s.cell (nextInStream cell isA)).regionOp = some o)
  (hholds : r.holds (nextInStream cell isA) = true)
  (hedge : (if isA then decide (cellColOf cell < 31) else decide (cellRowOf cell < 31)) = true)

include ho hholds hedge

theorem regionOp_streamTo : ((s.streamTo r cell isA x).cell (nextInStream cell isA)).regionOp
    = some (o.take isA (s.now + 2, x)) := by
  have hgoes : s.streamTo r cell isA x = s.updCell (nextInStream cell isA) fun c =>
      { c with regionOp := c.regionOp.map (RegionOp.take · isA (s.now + 2, x)) } :=
    if_pos (by rw [Bool.and_eq_true]; exact ⟨hholds, hedge⟩)
  rw [hgoes, State.cell_updCell_same]
  simp [ho]

end stream

/-! ### What a step leaves -/

section stepped

variable {s : State} {cell : Nat} {o u : RegionOp} {a b : List Row × Bool}

theorem stepped_net : (stepped s cell o a b).net = s.net :=
  (streamTo_net ..).trans (streamTo_net ..)

theorem cell_stepped_same : (stepped s cell o a b).cell cell =
    (let r := regionOf o.word.toNat
     let p := pairOf o.pair
     let c := s.cell cell
     let m : Mac := { tile := r.tile, ppi := r.pair, pair := { p with trimA := false, trimB := false }, a := .rows 0 0, bb := 256 }
     let fed : Cell := { c with bank := (a.1.mapIdx fun i x => (i, x)) ++ b.1.mapIdx fun i x => (256 + i, x) }
     let next : RegionOp := { o with steps := o.steps + 1, until_ := s.now + 6 + p.pa * p.pb, inA := o.inA.tail, inB := o.inB.tail }
     { fed.accumulate m (fed.macOut m) (o.poison || a.2 || b.2) with bank := c.bank, regionOp := some next }) := by
  unfold stepped
  dsimp only
  rw [cell_streamTo_other _ _ _ _ _ (by simp [nextInStream]), cell_streamTo_other _ _ _ _ _ (by simp [nextInStream]),
    State.cell_updCell_same]

theorem cell_stepped_other {k : Nat} (h : k ≠ cell) (hA : k ≠ cell + 1) (hB : k ≠ cell + 32) :
    (stepped s cell o a b).cell k = s.cell k := by
  unfold stepped
  dsimp only
  rw [cell_streamTo_other _ _ _ _ _ hB, cell_streamTo_other _ _ _ _ _ hA, State.cell_updCell_other _ _ h]

theorem regionOp_stepped_right (hu : (s.cell (cell + 1)).regionOp = some u) (hcol : cellColOf cell < 31)
    (hholds : (regionOf o.word.toNat).holds (cell + 1) = true) :
    ((stepped s cell o a b).cell (cell + 1)).regionOp = some { u with inA := u.inA ++ [(s.now + 2, a)] } := by
  unfold stepped
  dsimp only
  rw [cell_streamTo_other _ _ _ _ _ (by simp [nextInStream])]
  refine (regionOp_streamTo (isA := true) a (o := u) ?_ hholds (by simpa using hcol)).trans rfl
  simp only [nextInStream, if_true]
  rw [State.cell_updCell_other _ _ (by omega)]
  exact hu

theorem regionOp_stepped_below (hu : (s.cell (cell + 32)).regionOp = some u) (hrow : cellRowOf cell < 31)
    (hholds : (regionOf o.word.toNat).holds (cell + 32) = true) :
    ((stepped s cell o a b).cell (cell + 32)).regionOp = some { u with inB := u.inB ++ [(s.now + 2, b)] } := by
  unfold stepped
  dsimp only
  refine (regionOp_streamTo (isA := false) b (o := u) ?_ hholds (by simpa using hrow)).trans ?_
  · simp only [nextInStream]
    rw [cell_streamTo_other _ _ _ _ _ (by simp [nextInStream]), State.cell_updCell_other _ _ (by simp)]
    exact hu
  · rw [streamTo_now]
    rfl

end stepped

/-! ### The event (15:R237) -/

section event

variable {s : State} {o : RegionOp} (ho : (s.cell s.choice.cell.toNat).regionOp = some o) (hdue : o.until_ ≤ s.now)
  (hfatal : s.cp.fatal = false)

include ho hdue hfatal

theorem execRegionCompletion_of_step (hfails : o.fails = false) (hsteps : o.steps < (regionOf o.word.toNat).steps)
    (hthrottled : s.throttled = false) : exec .regionCompletion s = .next (s.regionStep s.choice.cell.toNat o) := by
  change execRegionCompletion s = _
  simp [execRegionCompletion, ho, Nat.not_lt.mpr hdue, hfatal, hfails, Nat.not_le.mpr hsteps, hthrottled]

theorem execRegionCompletion_of_end (hend : o.fails = true ∨ (regionOf o.word.toNat).steps ≤ o.steps) :
    exec .regionCompletion s = .next (s.regionDone s.choice.cell.toNat o) := by
  have hcond : (o.fails || decide ((regionOf o.word.toNat).steps ≤ o.steps)) = true := by simpa using hend
  change execRegionCompletion s = _
  simp only [execRegionCompletion, ho, Nat.not_lt.mpr hdue, hfatal, hcond]
  simp

end event

/-! ### The completion token (15:R237) -/

theorem State.updCfg_congr {s : State} {ctx : BitVec 10} {i : Nat} {x : CfgRt} {f g : CfgRt → CfgRt} (h : s.cfg ctx i = some x)
    (hfg : f x = g x) : s.updCfg ctx i f = s.updCfg ctx i g := by
  unfold State.updCfg
  rw [h]
  dsimp only
  rw [hfg]

section completion

variable {s : State} {cell : Nat} {o : RegionOp}

/-- The operation is over on its cell. -/
def regionOver (s : State) (cell : Nat) : State := s.updCell cell fun c =>
  { c with regionOp := none, flights := c.flights.filter fun f => decide (f.until_ ≠ 2 ^ 100) }

/-- The completion token of an operation. -/
def completionToken (s : State) (cell : Nat) (o : RegionOp) : Token :=
  let r := regionOf o.word.toNat
  let c := s.cell cell
  { kind := 0, dst := BitVec.ofNat 18 cell, poison := c.tilePoison.contains r.tile
    ver := c.liveVersion r.node, rtag := 0, ctx := o.ctx, iter := o.iter, pred := if o.fails then .false else .true, aux := 0
    payload := if o.fails then 0 else BitVec.ofNat 64 r.steps }

theorem cfgOf_of_runs {v : Version} (h : Runs v) : v.cfgOf = v.owner := if_neg (ne_empty_of_runs h)

variable {v : Version} {n : Node} {i : BitVec 10 × Nat} (hlive : (s.ctx o.ctx).live = true)
  (hv : (s.cell cell).version ((s.cell cell).liveVersion (regionOf o.word.toNat).node) = v) (hruns : Runs v)
  (ho : v.owner = some i) (hn : v.nodes[(regionOf o.word.toNat).node]? = some n)

include hlive hv hruns ho hn

theorem regionDone_of_unused (hport : (n.inputs[(regionOf o.word.toNat).port]?).join = none) :
    s.regionDone cell o = tokenEntry (regionOver s cell) cell 3 (completionToken s cell o) := by
  simp only [State.regionDone, hlive, hv, ne_loading_of_runs hruns, cfgOf_of_runs hruns, ho, hn, Option.bind_some, hport]
  rfl

theorem regionDone_of_binding {k : Bool} {tag : Nat} {b : Binding} {g : CfgRt}
    (hport : (n.inputs[(regionOf o.word.toNat).port]?).join = some k)
    (hb : (v.bindingsOf (regionOf o.word.toNat).node (regionOf o.word.toNat).port).find? (·.2.external) = some (tag, b))
    (hg : s.cfg i.1 i.2 = some g) :
    s.regionDone cell o =
      if tgetD g.credits 16 (n.gid * 4 + (regionOf o.word.toNat).port) = 0 then s
      else ((regionOver s cell).updCfg i.1 i.2 fun g' => { g' with
          credits := tput g'.credits (n.gid * 4 + (regionOf o.word.toNat).port)
            (tgetD g'.credits 16 (n.gid * 4 + (regionOf o.word.toNat).port) - 1) }).enterFifo cell ((s.cell cell).liveVersion (regionOf o.word.toNat).node) tag
          { completionToken s cell o with rtag := BitVec.ofNat 8 tag, scope := .cell } := by
  have hext : (fun x : Nat × Binding => x.2.external) (tag, b) = true := List.find?_some (p := fun x : Nat × Binding => x.2.external) hb
  have htoken : v.tokenBinding (regionOf o.word.toNat).node (regionOf o.word.toNat).port = some (tag, b) := by
    simp [Version.tokenBinding, hb]
  simp only [State.regionDone, hlive, hv, ne_loading_of_runs hruns, cfgOf_of_runs hruns, ho, hn, Option.bind_some, hport,
    htoken, show b.external = true from hext, hg]
  rfl

end completion

theorem regionOperations : RegionOperations := by
  intro s
  refine ⟨?_, fun o ho hdue hfatal => ?_⟩
  · intro t q m f src dst hnet hlive word r cells hidle
    rcases f with _ | bad
    · obtain ⟨hn, hin, hout⟩ := each_begun cells (taken s) t q
      exact ⟨_, execRegionOperationStart_of_passed hnet hlive hidle rfl, hn, fun _ => hin, fun _ => hout,
        fun bad hbad => absurd hbad (by simp)⟩
    · obtain ⟨hn, hin, hout⟩ := each_owes m
        ((taken s).chronoAt bad 0x08 bad (t.aux.getLsbD 4) 0 t.iter.toNat t.ctx.toNat) t q
      exact ⟨_, execRegionOperationStart_of_failed hnet hlive hidle rfl, hn, fun h => absurd h (by simp),
        fun h => absurd h (by simp), fun _ _ => ⟨hin, hout⟩⟩
  · intro cell c r p ra rb holdsA holdsB isA isB held
    have hA : ∀ x, operandA s cell o = some x ↔ isA x := fun x => stepOperand_eq_some_iff ..
    have hB : ∀ x, operandB s cell o = some x ↔ isB x := fun x => stepOperand_eq_some_iff ..
    have hheld : heldUp s cell o = true ↔ held := regionWaits_eq_true_iff ..
    refine ⟨fun hfails hsteps hthrottled => ⟨fun hwait => ?_, fun a b ha hb hgo => ?_⟩, fun hend hlive => ?_⟩
    · rw [execRegionCompletion_of_step ho hdue hfatal hfails hsteps hthrottled, regionStep_of_wait]
      refine hwait.imp (fun h => ?_) (Or.imp (fun h => ?_) fun h => ⟨h.1, hheld.mpr h.2⟩)
      · exact Option.eq_none_iff_forall_ne_some.mpr fun x hx => h ⟨x, (hA x).mp hx⟩
      · exact Option.eq_none_iff_forall_ne_some.mpr fun x hx => h ⟨x, (hB x).mp hx⟩
    · refine ⟨stepped s cell o a b, ?_, cell_stepped_same, fun u hu hcol hholds => regionOp_stepped_right hu hcol hholds,
        fun u hu hrow hholds => regionOp_stepped_below hu hrow hholds, fun k hk hkA hkB => cell_stepped_other hk hkA hkB,
        stepped_net⟩
      rw [execRegionCompletion_of_step ho hdue hfatal hfails hsteps hthrottled,
        regionStep_of_operands ((hA a).mpr ha) ((hB b).mpr hb)]
      exact hgo.imp_right (mt hheld.mp)
    · rw [execRegionCompletion_of_end ho hdue hfatal hend]
      intro ver v h tok hruns i n hi hn
      refine ⟨fun hport => congrArg _ ?_, fun k tag b g hport hb hg => ?_⟩
      · exact regionDone_of_unused hlive rfl hruns hi hn (by rcases hport with h | h <;> rw [h] <;> rfl)
      · have hdone := regionDone_of_binding (k := k) hlive rfl hruns hi hn (by rw [hport]; rfl) hb hg
        refine ⟨fun hzero => congrArg _ (hdone.trans (if_pos hzero)),
          fun hpos => congrArg _ ((hdone.trans (if_neg (Nat.pos_iff_ne_zero.mp hpos))).trans ?_)⟩
        exact congrArg (fun u : State => u.enterFifo cell ver tag { tok with rtag := BitVec.ofNat 8 tag, scope := .cell })
          (State.updCfg_congr (s := h) hg rfl)

/-- Settles O17: the visits of sweeps, and the start, the steps and the completion of region operations. -/
theorem systolicRegionsRun : Obligations.SystolicRegionsRun :=
  ⟨sweeps, regionOperations⟩

end Sys2Proof.Machine

/-! # Words of a bank row, and a message's write of one (01:R14, 05:R72, 19:R306) -/

namespace Sys2Proof.Machine

open Sys2Proof.Claims

theorem getLsbD_rowWord (r : Row) (w i : Nat) : (rowWord r w).getLsbD i = (decide (i < 64) && r.getLsbD (64 * w + i)) := by
  rw [rowWord, BitVec.getLsbD_ofNat, Nat.testBit_div_two_pow, Nat.add_comm]
  rfl

theorem getLsbD_setRowWord (r : Row) (w : Nat) (v : Word) {i : Nat} (hi : i < 1024) :
    (setRowWord r w v).getLsbD i
      = if 64 * w ≤ i ∧ i < 64 * w + 64 then v.getLsbD (i - 64 * w) else r.getLsbD i := by
  have hv : v.toNat.testBit (i - 64 * w) = v.getLsbD (i - 64 * w) := rfl
  rw [setRowWord, BitVec.getLsbD_or, BitVec.getLsbD_and, BitVec.getLsbD_not, BitVec.getLsbD_ofNat, BitVec.getLsbD_ofNat,
    Nat.testBit_mul_two_pow, Nat.testBit_mul_two_pow, Nat.testBit_two_pow_sub_one, hv]
  by_cases h1 : 64 * w ≤ i
  · by_cases h2 : i - 64 * w < 64
    · have h3 : i < 64 * w + 64 := by omega
      simp [h1, h2, h3, hi]
    · have h3 : ¬ i < 64 * w + 64 := by omega
      simp [h1, h2, h3, hi, BitVec.getLsbD_of_ge v (i - 64 * w) (by omega)]
  · simp [h1, hi]

theorem rowWord_setRowWord (r : Row) {w j : Nat} (hw : w < 16) (hj : j < 16) (v : Word) :
    rowWord (setRowWord r w v) j = if j = w then v else rowWord r j := by
  refine BitVec.eq_of_getLsbD_eq fun i hi => ?_
  rw [getLsbD_rowWord, getLsbD_setRowWord _ _ _ (by omega : 64 * j + i < 1024)]
  by_cases h : j = w
  · subst h
    simp [hi, show 64 * j + i < 64 * j + 64 by omega]
  · have hnot : ¬(64 * w ≤ 64 * j + i ∧ 64 * j + i < 64 * w + 64) := by omega
    rw [if_neg hnot, if_neg h, getLsbD_rowWord]

/-! ### Words of the bank -/

theorem bankWord_toNat (c : Cell) (w : Nat) : (c.bankWord w).toNat = bankWord c w := by
  rw [Cell.bankWord, rowWord, BitVec.toNat_ofNat]
  rfl

theorem bankWord_eq_ofNat (c : Cell) (w : Nat) : c.bankWord w = BitVec.ofNat 64 (bankWord c w) := by
  rw [← bankWord_toNat, BitVec.ofNat_toNat, BitVec.setWidth_eq]

theorem Cell.row_setBankWord (c : Cell) (w : Nat) (v : Word) (taint : Bool) (r : Nat) :
    (c.setBankWord w v taint).row r = if r = w / 16 then setRowWord (c.row (w / 16)) (w % 16) v else c.row r := by
  cases taint <;> exact tgetD_tset c.bank 0 _ _ _

theorem Cell.bankWord_setBankWord (c : Cell) (w : Nat) (v : Word) (taint : Bool) (x : Nat) :
    (c.setBankWord w v taint).bankWord x = if x = w then v else c.bankWord x := by
  have hw : w % 16 < 16 := Nat.mod_lt _ (by decide)
  have hx : x % 16 < 16 := Nat.mod_lt _ (by decide)
  rw [Cell.bankWord, Cell.row_setBankWord]
  by_cases hrow : x / 16 = w / 16
  · rw [if_pos hrow, rowWord_setRowWord _ hw hx, Cell.bankWord, hrow]
    exact if_congr (by omega) rfl rfl
  · rw [if_neg hrow, if_neg (by rintro rfl; exact hrow rfl), Cell.bankWord]

theorem Cell.rowPoisoned_setBankWord (c : Cell) (w : Nat) (v : Word) (taint : Bool) (r : Nat) :
    (c.setBankWord w v taint).rowPoisoned r = if r = w / 16 then (taint || c.rowPoisoned r) else c.rowPoisoned r := by
  cases taint with
  | false => exact (ite_self _).symm
  | true =>
    rw [Bool.true_or]
    exact tgetD_tset c.bankPoison false true _ _

theorem Cell.version_setBankWord (c : Cell) (w : Nat) (v : Word) (taint ver : Bool) :
    (c.setBankWord w v taint).version ver = c.version ver := by cases taint <;> rfl

theorem wordWritten_setBankWord (c : Cell) (w : Nat) (v : Word) (taint : Bool) :
    WordWritten c (c.setBankWord w v taint) w v taint := by
  refine ⟨?_, fun x hx => ?_, ?_, fun r hr => ?_⟩
  · rw [← bankWord_toNat, Cell.bankWord_setBankWord, if_pos rfl]
  · rw [← bankWord_toNat, ← bankWord_toNat, Cell.bankWord_setBankWord, if_neg hx]
  · rw [Cell.rowPoisoned_setBankWord, if_pos rfl]
  · rw [Cell.rowPoisoned_setBankWord, if_neg hr]

/-- Words written one after the other with one value. -/
theorem bankWord_foldl_setBankWord (v : Word) (taint : Bool) (ws : List Nat) (c : Cell) (x : Nat) :
    (ws.foldl (fun c w => c.setBankWord w v taint) c).bankWord x = if x ∈ ws then v else c.bankWord x := by
  induction ws generalizing c with
  | nil => simp
  | cons w ws ih =>
    rw [List.foldl_cons, ih, Cell.bankWord_setBankWord]
    by_cases hx : x ∈ ws <;> by_cases hw : x = w <;> simp [hx, hw]

/-! ### Elements of a handler entry (09:R156) -/

theorem HEntry.word?_of_open {c : Cell} {e : HEntry} {i : Nat} (h : ElementOpen c e i) : e.word? c i = some (elementAt e i) := by
  obtain ⟨hlim, hbank, hrow⟩ := h
  have helem : e.elem? i = some (elementAt e i) := by
    rw [HEntry.elem?, HEntry.base, HEntry.stride, HEntry.limit, bitsOf, bitsOf, bitsOf, pow_zero, Nat.div_one]
    exact if_neg (by unfold limitOf at hlim; unfold elementAt at hbank; omega)
  rw [HEntry.word?, helem, Option.filter_some, if_pos (by simpa using hrow)]

theorem HEntry.word?_of_not_open {c : Cell} {e : HEntry} {i : Nat} (h : ¬ElementOpen c e i) : e.word? c i = none := by
  by_cases hin : limitOf e ≤ i ∨ 8192 ≤ elementAt e i
  · have helem : e.elem? i = none := by
      rw [HEntry.elem?, HEntry.base, HEntry.stride, HEntry.limit, bitsOf, bitsOf, bitsOf, pow_zero, Nat.div_one]
      exact if_pos hin
    rw [HEntry.word?, helem]
    rfl
  · have helem : e.elem? i = some (elementAt e i) := by
      rw [HEntry.elem?, HEntry.base, HEntry.stride, HEntry.limit, bitsOf, bitsOf, bitsOf, pow_zero, Nat.div_one]
      exact if_neg hin
    have hrow : c.rowForbidden (elementAt e i / 16) ≠ false := fun hrow => h ⟨by omega, by omega, hrow⟩
    rw [HEntry.word?, helem, Option.filter_some, if_neg (by simpa using hrow)]

theorem Cell.elemsHeld_of_idle {c : Cell} (h : c.flights = []) (now : Nat) (e : HEntry) (l : List Nat) :
    c.elemsHeld now e l = false := by
  rw [Cell.elemsHeld, Cell.inTheWay, h, List.any_nil]

theorem State.entryOf_of_entry {s : State} {m : Msg} {e : HEntry} (h : entry s m e) : s.entryOf m = some e := by
  obtain ⟨hindex, hget, hlimit⟩ := h
  rw [State.entryOf, if_neg hindex, hget]
  exact if_neg hlimit

theorem State.entryOf_of_none {s : State} {m : Msg}
    (h : m.handler = 0 ∨ tget (s.version m.dst.toNat m.ver).handlers m.handler.toNat = none
      ∨ ∃ e, tget (s.version m.dst.toNat m.ver).handlers m.handler.toNat = some e ∧ limitOf e = 0) :
    s.entryOf m = none := by
  rcases h with h | h | ⟨e, h, hlimit⟩
  · rw [State.entryOf, if_pos h]
  · rw [State.entryOf, h, ite_self]
  · rw [State.entryOf, h]
    split
    · rfl
    · exact if_pos hlimit

end Sys2Proof.Machine

/-! # Messages at their destination (05:R81, R88; 07:R137; 09:R156; 19:R306) -/

namespace Sys2Proof.Machine

open Sys2Proof.Claims

/-! ### The frame of a message -/

/-- The messages that name a handler entry (19:R306). -/
def entryMessages (m : Msg) : List Instr :=
  [.mnop m, .mld m, .mst m, .mpack m, .maadd m, .mamin m, .mamax m, .maand m, .maor m, .maxor m, .mswp m, .minc m,
    .msgMqpush m, .msgMqpop m, .mspawn m]

/-- The messages of the module that a version holds and forwards (05:R81, R88). -/
def versionMessages (m : Msg) : List Instr := [.mprom m, .mstop m, .mresume m, .mcfgwEntry m, .mcfgwPair m, .mtrap m]

theorem msgAtomic_eq_onEntry (s : State) (m : Msg) (op : Nat) : ∃ k, msgAtomic s m op = onEntry s m k := ⟨_, rfl⟩

theorem exec_entryMessage (s : State) {m : Msg} {i : Instr} (hi : i ∈ entryMessages m) : ∃ k, exec i s = onEntry s m k := by
  simp only [entryMessages, List.mem_cons, List.not_mem_nil, or_false] at hi
  rcases hi with rfl | rfl | rfl | rfl | rfl | rfl | rfl | rfl | rfl | rfl | rfl | rfl | rfl | rfl | rfl
  exacts [⟨_, (rfl : execMnop m s = _)⟩, ⟨_, (rfl : execMld m s = _)⟩, ⟨_, (rfl : execMst m s = _)⟩,
    ⟨_, (rfl : execMpack m s = _)⟩, msgAtomic_eq_onEntry s m 0, msgAtomic_eq_onEntry s m 1,
    msgAtomic_eq_onEntry s m 2, msgAtomic_eq_onEntry s m 3, msgAtomic_eq_onEntry s m 4,
    msgAtomic_eq_onEntry s m 5, msgAtomic_eq_onEntry s m 6, msgAtomic_eq_onEntry s m 8,
    ⟨_, (rfl : execMsgMqpush m s = _)⟩, ⟨_, (rfl : execMsgMqpop m s = _)⟩, ⟨_, (rfl : execMspawn m s = _)⟩]

theorem exec_versionMessage (s : State) {m : Msg} {i : Instr} (hi : i ∈ entryMessages m ++ versionMessages m) :
    ∃ k, exec i s = onMsg s m true k := by
  rcases List.mem_append.mp hi with hi | hi
  · obtain ⟨k, hk⟩ := exec_entryMessage s hi
    exact ⟨_, hk⟩
  · simp only [versionMessages, List.mem_cons, List.not_mem_nil, or_false] at hi
    rcases hi with rfl | rfl | rfl | rfl | rfl | rfl
    exacts [⟨_, (rfl : execMprom m s = _)⟩, ⟨_, (rfl : execMstop m s = _)⟩, ⟨_, (rfl : execMresume m s = _)⟩,
      ⟨_, (rfl : execMcfgwEntry m s = _)⟩, ⟨_, (rfl : execMcfgwPair m s = _)⟩, ⟨_, (rfl : execMtrap m s = _)⟩]

theorem exec_mbar (s : State) (m : Msg) :
    ∃ k, exec (.mbar m) s
      = onMsg s m ((s.version m.dst.toNat m.ver).state ≠ .empty || (s.version m.dst.toNat m.ver).epochOpen) k :=
  by unfold exec execMbar; exact ⟨_, rfl⟩

section

variable {s : State} {m : Msg} {src : Nat} {ctx : BitVec 10} {req : Option MsgReq}
  {k : State → Arrived → Option State} {versioned : Bool}
  (hnet : s.net[s.choice.n]? = some ⟨src, m.dst.toNat, .msg m ctx req⟩)
  (hfirst : ((s.net.take s.choice.n).any fun q => q.sameWay ⟨src, m.dst.toNat, .msg m ctx req⟩) = false)
include hnet hfirst

theorem takeMsg_of_arrives : s.takeMsg m = some ({ s with net := ldel s.net s.choice.n }, ⟨src, ctx, req⟩) := by
  have harriving : s.arriving s.choice.n = some ⟨src, m.dst.toNat, .msg m ctx req⟩ := arriving_of_inNet ⟨hnet, hfirst⟩
  simp only [State.takeMsg, hnet, if_true, harriving, Option.map_some]
  rfl

theorem onMsg_of_loading (hloading : (s.version m.dst.toNat m.ver).state = .loading) (hv : versioned = true) :
    onMsg s m versioned k = .next (({ s with net := ldel s.net s.choice.n } : State).updVersion m.dst.toNat m.ver fun v =>
      { v with held := v.held ++ [⟨src, m.dst.toNat, .msg m ctx req⟩] }) := by
  rw [onMsg, takeMsg_of_arrives hnet hfirst]
  exact if_pos (by rw [hv]; exact decide_eq_true hloading)

theorem onMsg_of_empty (hempty : (s.version m.dst.toNat m.ver).state = .empty) (hv : versioned = true)
    {o : Option (BitVec 10 × Nat)} (ho : (s.version m.dst.toNat m.ver).owner = o) :
    onMsg s m versioned k = .next (o.elim (({ s with net := ldel s.net s.choice.n } : State).badMsg m) fun o =>
      ({ s with net := ldel s.net s.choice.n } : State).updCfg o.1 o.2 fun x =>
        { x with vestMsgs := x.vestMsgs ++ [⟨src, m.dst.toNat, .msg m ctx req⟩] }) := by
  have hstate : (({ s with net := ldel s.net s.choice.n } : State).version m.dst.toNat m.ver).state = .empty := hempty
  have howner : (({ s with net := ldel s.net s.choice.n } : State).version m.dst.toNat m.ver).owner = o := ho
  rw [onMsg, takeMsg_of_arrives hnet hfirst]
  simp only [hv, hstate, howner, Bool.true_and, decide_true, if_true, reduceCtorEq, decide_false, Bool.false_eq_true, if_false]
  cases o <;> rfl

theorem onMsg_of_runs (hruns : (s.version m.dst.toNat m.ver).state = .ready ∨ (s.version m.dst.toNat m.ver).state = .live) :
    onMsg s m versioned k = .next ((k (handling s m src) ⟨src, ctx, req⟩).getD s) := by
  have hloading : (({ s with net := ldel s.net s.choice.n } : State).version m.dst.toNat m.ver).state ≠ .loading :=
    ne_loading_of_runs hruns
  have hempty : (({ s with net := ldel s.net s.choice.n } : State).version m.dst.toNat m.ver).state ≠ .empty :=
    ne_empty_of_runs hruns
  rw [onMsg, takeMsg_of_arrives hnet hfirst]
  simp only [hloading, hempty, decide_false, Bool.and_false, Bool.false_eq_true, if_false]
  change (match k (handling s m src) ⟨src, ctx, req⟩ with | some t => _ | none => _) = _
  cases k (handling s m src) ⟨src, ctx, req⟩ <;> rfl

end

theorem cachesOnly_handling (s : State) (m : Msg) (src : Nat) :
    CachesOnly { s with net := ldel s.net s.choice.n } (handling s m src) := cachesOnly_acquire _ _ _

theorem handling_version (s : State) (m : Msg) (src c : Nat) (v : Bool) :
    (handling s m src).version c v = s.version c v := (cachesOnly_handling s m src).version c v

theorem handling_now (s : State) (m : Msg) (src : Nat) : (handling s m src).now = s.now :=
  (cachesOnly_handling s m src).now

/-- A message that names no entry of its version acts as BADMSG alone. -/
theorem onEntry_of_none {s : State} {m : Msg} {src : Nat} {ctx : BitVec 10} {req : Option MsgReq} (ha : Arrives s m src ctx req)
    {k : State → Arrived → HEntry → Option State} (hentry : s.entryOf m = none) :
    onEntry s m k = .next ((handling s m src).badMsg m) := by
  obtain ⟨hnet, hfirst, hruns⟩ := ha
  have hnone : (handling s m src).entryOf m = none := by rw [State.entryOf, handling_version]; exact hentry
  rw [onEntry, onMsg_of_runs hnet hfirst hruns, hnone]
  rfl

theorem onEntry_of_entry {s : State} {m : Msg} {src : Nat} {ctx : BitVec 10} {req : Option MsgReq} (ha : Arrives s m src ctx req)
    {k : State → Arrived → HEntry → Option State} {e : HEntry} (hentry : s.entryOf m = some e) :
    onEntry s m k = .next ((k (handling s m src) ⟨src, ctx, req⟩ e).getD s) := by
  obtain ⟨hnet, hfirst, hruns⟩ := ha
  have hsome : (handling s m src).entryOf m = some e := by rw [State.entryOf, handling_version]; exact hentry
  rw [onEntry, onMsg_of_runs hnet hfirst hruns, hsome]

theorem messagesWithoutHandler : MessagesWithoutHandler := by
  intro s m src ctx req hnet hfirst here v p taken drop held forwarded handlers
  refine ⟨fun i hi => ?_, fun h => ?_, fun o hempty hopen howner => ?_, fun i hi hruns hnone => ?_⟩
  · obtain ⟨k, hk⟩ := exec_versionMessage s hi
    rw [hk]
    exact ⟨fun h => onMsg_of_loading hnet hfirst h rfl, fun o h ho => onMsg_of_empty hnet hfirst h rfl ho,
      fun h ho => onMsg_of_empty hnet hfirst h rfl ho⟩
  · obtain ⟨k, hk⟩ := exec_mbar s m
    have hversioned : (v.state ≠ .empty || v.epochOpen) = true := by rw [h]; rfl
    exact hk.trans (onMsg_of_loading hnet hfirst h hversioned)
  · obtain ⟨k, hk⟩ := exec_mbar s m
    have hversioned : (v.state ≠ .empty || v.epochOpen) = true := by rw [hopen, Bool.or_true]
    exact hk.trans (onMsg_of_empty hnet hfirst hempty hversioned howner)
  · obtain ⟨k, hk⟩ := exec_entryMessage s hi
    rw [hk]
    exact onEntry_of_none ⟨hnet, hfirst, hruns⟩ (State.entryOf_of_none hnone)

end Sys2Proof.Machine

/-! # Element and atomic messages (07:R137; 09:R156; 19:R306) -/

namespace Sys2Proof.Machine

open Sys2Proof.Claims

theorem replied_eq_reply (s : State) (m : Msg) (v : Word) (poison : Bool) (r : MsgReq) :
    replied s m v poison (some r) = s.reply m v poison r := rfl

theorem failMsg_eq (s : State) (m : Msg) :
    s.failMsg m = replied (s.chronoAt m.dst.toNat 0x05 ((encodeMsg m) / 2 ^ 32 % 2 ^ 96) m.ver) m 0 m.poison (some .null) := rfl

/-! ### The elements of an entry -/

theorem bankWord_updVersion (c : Cell) (v : Bool) (f : Version → Version) (w : Nat) :
    bankWord (c.updVersion v f) w = bankWord c w := by cases v <;> rfl

theorem wordWritten_updVersion {c c' : Cell} {w : Nat} {x : Word} {taint : Bool} (h : WordWritten c c' w x taint) (v : Bool)
    (f : Version → Version) : WordWritten c (c'.updVersion v f) w x taint := by cases v <;> exact h

theorem limit_eq (e : HEntry) : e.limit = limitOf e := rfl

/-- The cell of the message after its bank and its entry have been written. -/
theorem cell_setEntry_updCell (s : State) (m : Msg) (f : Cell → Cell) (e : HEntry) :
    ((s.updCell m.dst.toNat f).setEntry m e).cell m.dst.toNat
      = (f (s.cell m.dst.toNat)).updVersion m.ver fun v => { v with handlers := tput v.handlers m.handler.toNat e } := by
  rw [State.setEntry, State.updVersion, State.cell_updCell_same, State.cell_updCell_same]

theorem cell_setEntry_updCell_other (s : State) (m : Msg) (f : Cell → Cell) (e : HEntry) {d : Nat} (hd : d ≠ m.dst.toNat) :
    ((s.updCell m.dst.toNat f).setEntry m e).cell d = s.cell d := by
  rw [State.setEntry, State.updVersion, State.cell_updCell_other _ _ hd, State.cell_updCell_other _ _ hd]

theorem tget_setEntry (s : State) (m : Msg) (e : HEntry) :
    tget ((s.setEntry m e).version m.dst.toNat m.ver).handlers m.handler.toNat = some e := by
  rw [State.setEntry, State.version_updVersion_same]
  exact tget_tput_same _ _ _

/-- The words that an MPACK stores: those of its elements in order, at most one for each element of the entry. -/
def packElements (m : Msg) (e : HEntry) : List Nat :=
  (upTo (min (m.operand.toNat % 2 ^ 16 + 1) (limitOf e))).map fun i => (e.cursor + i) % limitOf e

theorem mem_packElements {m : Msg} {e : HEntry} {j : Nat} :
    j ∈ packElements m e ↔ ∃ i, i < m.operand.toNat % 2 ^ 16 + 1 ∧ i < limitOf e ∧ (e.cursor + i) % limitOf e = j := by
  simp only [packElements, List.mem_map, upTo, List.mem_range, Nat.lt_min, and_assoc]

theorem word?_of_all_open {c : Cell} {e : HEntry} {l : List Nat} (h : ∀ i ∈ l, ElementOpen c e i) :
    l.map (fun i => e.word? c i) = l.map fun i => some (elementAt e i) :=
  List.map_congr_left fun i hi => HEntry.word?_of_open (h i hi)

/-! ### Element messages -/

section

variable {s : State} {m : Msg} {src : Nat} {ctx : BitVec 10} {req : Option MsgReq} {e : HEntry}
  (ha : Arrives s m src ctx req) (he : entry s m e)
include ha he

theorem execMnop_of_entry : exec (.mnop m) s = .next (replied (handling s m src) m 0 m.poison (some .answer)) := by
  change execMnop m s = _
  rw [execMnop, onEntry_of_entry ha (State.entryOf_of_entry he)]
  rfl

theorem execMld_of_held
    (hheld : ((handling s m src).cell m.dst.toNat).elemsHeld s.now e [m.operand.toNat % 8192] = true) :
    exec (.mld m) s = .next s := by
  change execMld m s = _
  rw [execMld, onEntry_of_entry ha (State.entryOf_of_entry he), handling_now]
  simp only [hheld, if_true, Option.getD_none]

theorem execMld_of_idle (hidle : ((handling s m src).cell m.dst.toNat).flights = []) :
    exec (.mld m) s = .next ((e.word? ((handling s m src).cell m.dst.toNat) (m.operand.toNat % 8192)).elim
      ((handling s m src).failMsg m) fun w =>
        (handling s m src).reply m (((handling s m src).cell m.dst.toNat).bankWord w)
          (m.poison || ((handling s m src).cell m.dst.toNat).rowPoisoned (w / 16))) := by
  change execMld m s = _
  rw [execMld, onEntry_of_entry ha (State.entryOf_of_entry he)]
  simp only [Cell.elemsHeld_of_idle hidle, Bool.false_eq_true, if_false]
  cases e.word? ((handling s m src).cell m.dst.toNat) (m.operand.toNat % 8192) <;> rfl

theorem execMst_of_held (hheld : ((handling s m src).cell m.dst.toNat).elemsHeld s.now e [e.cursor] = true) :
    exec (.mst m) s = .next s := by
  change execMst m s = _
  rw [execMst, onEntry_of_entry ha (State.entryOf_of_entry he), handling_now]
  simp only [hheld, if_true, Option.getD_none]

theorem execMst_of_fails (hidle : ((handling s m src).cell m.dst.toNat).flights = [])
    (hfails : ¬ElementOpen ((handling s m src).cell m.dst.toNat) e e.cursor ∨ e.word.getLsbD 41 = false) :
    exec (.mst m) s = .next ((handling s m src).failMsg m) := by
  change execMst m s = _
  rw [execMst, onEntry_of_entry ha (State.entryOf_of_entry he)]
  simp only [Cell.elemsHeld_of_idle hidle, Bool.false_eq_true, if_false]
  rcases hfails with hclosed | hstores
  · rw [HEntry.word?_of_not_open hclosed]
    rfl
  · have hstores : e.stores = false := hstores
    cases e.word? ((handling s m src).cell m.dst.toNat) e.cursor with
    | none => rfl
    | some w =>
      simp only [hstores, Bool.not_false, if_true]
      rfl

theorem execMst_of_stores (hidle : ((handling s m src).cell m.dst.toNat).flights = [])
    (hopen : ElementOpen ((handling s m src).cell m.dst.toNat) e e.cursor) (hstores : e.word.getLsbD 41 = true) :
    exec (.mst m) s = .next (replied
      (((handling s m src).updCell m.dst.toNat fun c => c.setBankWord (elementAt e e.cursor) m.operand m.poison).setEntry m
        { e with cursor := (e.cursor + 1) % limitOf e, last := m.operand })
      m (BitVec.ofNat 64 e.cursor) m.poison (some .answer)) := by
  have hstores : e.stores = true := hstores
  change execMst m s = _
  rw [execMst, onEntry_of_entry ha (State.entryOf_of_entry he)]
  simp only [Cell.elemsHeld_of_idle hidle, Bool.false_eq_true, if_false, HEntry.word?_of_open hopen, hstores, Bool.not_true]
  rfl

theorem execMpack_of_fails (hidle : ((handling s m src).cell m.dst.toNat).flights = [])
    (hfails : m.operand.toNat / 2 ^ 16 % 2 ^ 45 ≠ 0 ∨ 2 ≤ m.operand.toNat / 2 ^ 61 ∨ e.word.getLsbD 41 = false) :
    exec (.mpack m) s = .next ((handling s m src).failMsg m) := by
  have hfmt : 2 ≤ m.operand.toNat / 2 ^ 61 → 1 < bitsOf m.operand.toNat 61 3 := by
    intro h
    have := m.operand.isLt
    unfold bitsOf
    omega
  have hbad : bitsOf m.operand.toNat 16 45 ≠ 0 ∨ 1 < bitsOf m.operand.toNat 61 3 ∨ (!e.stores) = true := by
    rcases hfails with h | h | h
    · exact .inl h
    · exact .inr (.inl (hfmt h))
    · exact .inr (.inr (by rw [HEntry.stores, h]; rfl))
  change execMpack m s = _
  rw [execMpack, onEntry_of_entry ha (State.entryOf_of_entry he)]
  simp only [Cell.elemsHeld_of_idle hidle, Bool.false_eq_true, if_false]
  rw [if_pos (by rcases hbad with h | h | h <;> simp only [h, ne_eq, not_false_eq_true, true_or, or_true])]
  rfl

theorem execMpack_of_stores (hidle : ((handling s m src).cell m.dst.toNat).flights = [])
    (hreserved : m.operand.toNat / 2 ^ 16 % 2 ^ 45 = 0) (hfmt : m.operand.toNat / 2 ^ 61 ≤ 1)
    (hstores : e.word.getLsbD 41 = true)
    (hopen : ∀ j ∈ packElements m e, ElementOpen ((handling s m src).cell m.dst.toNat) e j) :
    let v : Word := if m.operand.toNat / 2 ^ 61 = 0 then 0 else e.last
    exec (.mpack m) s = .next (replied
      (((handling s m src).updCell m.dst.toNat fun c =>
          ((packElements m e).map (elementAt e)).foldl (fun c w => c.setBankWord w v m.poison) c).setEntry m
        { e with cursor := (e.cursor + (m.operand.toNat % 2 ^ 16 + 1)) % limitOf e, last := v })
      m (BitVec.ofNat 64 ((e.cursor + (m.operand.toNat % 2 ^ 16 + 1) - 1) % limitOf e)) m.poison (some .answer)) := by
  have hstores : e.stores = true := hstores
  have hformat : bitsOf m.operand.toNat 61 3 = m.operand.toNat / 2 ^ 61 := Nat.mod_eq_of_lt (by omega)
  have hcount : bitsOf m.operand.toNat 0 16 = m.operand.toNat % 2 ^ 16 := by rw [bitsOf, pow_zero, Nat.div_one]
  have hzero : bitsOf m.operand.toNat 16 45 = 0 := hreserved
  have hlist : (upTo (min (m.operand.toNat % 2 ^ 16 + 1) e.limit)).map (fun i => (e.cursor + i) % e.limit)
      = packElements m e := rfl
  have hnone : ((packElements m e).map fun i => some (elementAt e i)).any (·.isNone) = false := by
    simp only [List.any_map, List.any_eq_false, Function.comp_apply, Option.isNone_some, Bool.false_eq_true, not_false_eq_true,
      implies_true]
  have hwords : ((packElements m e).map fun i => some (elementAt e i)).filterMap id = (packElements m e).map (elementAt e) := by
    rw [List.filterMap_map, ← List.filterMap_eq_map]
    rfl
  intro v
  change execMpack m s = _
  rw [execMpack, onEntry_of_entry ha (State.entryOf_of_entry he)]
  simp only [Cell.elemsHeld_of_idle hidle, Bool.false_eq_true, if_false, hcount, hlist, word?_of_all_open hopen, hnone, hwords,
    hzero, hformat, hstores, Bool.not_true, ne_eq, not_true_eq_false, or_false, show ¬1 < m.operand.toNat / 2 ^ 61 by omega]
  rfl

end

theorem elementMessages : ElementMessages := by
  intro s m src ctx req e ha he here h c x lim failed only moved n at_
  have hmem : ∀ {j}, j ∈ packElements m e ↔ ∃ i, i < n ∧ i < lim ∧ at_ i = j := mem_packElements
  have honly (f : Cell → Cell) (e' : HEntry) : only ((h.updCell here f).setEntry m e') :=
    ⟨rfl, fun d hd => cell_setEntry_updCell_other h m f e' hd⟩
  refine ⟨execMnop_of_entry ha he, fun hidle hopen => ?_, fun hidle hclosed => ?_, execMld_of_held ha he,
    fun hidle hopen hstores => ?_, execMst_of_fails ha he, execMst_of_held ha he, fun hidle hreserved hfmt hstores hopen => ?_,
    execMpack_of_fails ha he⟩
  · rw [execMld_of_idle ha he hidle, HEntry.word?_of_open hopen, ← bankWord_eq_ofNat]
    rfl
  · rw [execMld_of_idle ha he hidle, HEntry.word?_of_not_open hclosed]
    rfl
  · refine ⟨_, execMst_of_stores ha he hidle hopen hstores, ?_, tget_setEntry _ m _, honly _ _⟩
    rw [cell_setEntry_updCell]
    exact wordWritten_updVersion (wordWritten_setBankWord c _ _ _) _ _
  · intro v
    have hopen' : ∀ j ∈ packElements m e, ElementOpen c e j := fun j hj => by
      obtain ⟨i, hn, hl, rfl⟩ := hmem.mp hj
      exact hopen i hn hl
    refine ⟨_, execMpack_of_stores ha he hidle hreserved hfmt hstores hopen', fun i hn hl => ?_, fun w hw => ?_,
      tget_setEntry _ m _, honly _ _⟩
    · have hin : elementAt e (at_ i) ∈ (packElements m e).map (elementAt e) :=
        List.mem_map_of_mem (hmem.mpr ⟨i, hn, hl, rfl⟩)
      rw [cell_setEntry_updCell, bankWord_updVersion, ← bankWord_toNat, bankWord_foldl_setBankWord, if_pos hin]
    · have hout : w ∉ (packElements m e).map (elementAt e) := fun hin => by
        obtain ⟨j, hj, hjw⟩ := List.mem_map.mp hin
        obtain ⟨i, hn, hl, rfl⟩ := hmem.mp hj
        exact hw i hn hl hjw.symm
      rw [cell_setEntry_updCell, bankWord_updVersion, ← bankWord_toNat, bankWord_foldl_setBankWord, if_neg hout, bankWord_toNat]

/-! ### Atomic messages -/

section

variable {s : State} {m : Msg} {src : Nat} {ctx : BitVec 10} {req : Option MsgReq} {e : HEntry}
  (ha : Arrives s m src ctx req) (he : entry s m e) (op : Nat)
include ha he

theorem msgAtomic_of_held (hheld : ((handling s m src).cell m.dst.toNat).elemsHeld s.now e [0] = true) :
    msgAtomic s m op = .next s := by
  rw [msgAtomic, onEntry_of_entry ha (State.entryOf_of_entry he), handling_now]
  simp only [hheld, if_true, Option.getD_none]

theorem msgAtomic_of_fails (hidle : ((handling s m src).cell m.dst.toNat).flights = [])
    (hfails : ¬ElementOpen ((handling s m src).cell m.dst.toNat) e 0 ∨ e.word.getLsbD 42 = false) :
    msgAtomic s m op = .next ((handling s m src).failMsg m) := by
  rw [msgAtomic, onEntry_of_entry ha (State.entryOf_of_entry he)]
  simp only [Cell.elemsHeld_of_idle hidle, Bool.false_eq_true, if_false]
  rcases hfails with hclosed | hatomics
  · rw [HEntry.word?_of_not_open hclosed]
    rfl
  · have hatomics : e.atomics = false := hatomics
    cases e.word? ((handling s m src).cell m.dst.toNat) 0 with
    | none => rfl
    | some w =>
      simp only [hatomics, Bool.not_false, if_true]
      rfl

theorem msgAtomic_of_open (hidle : ((handling s m src).cell m.dst.toNat).flights = [])
    (hopen : ElementOpen ((handling s m src).cell m.dst.toNat) e 0) (hatomics : e.word.getLsbD 42 = true) :
    let c := (handling s m src).cell m.dst.toNat
    let w := elementAt e 0
    let taint := m.poison || c.rowPoisoned (w / 16)
    msgAtomic s m op = .next (replied
      ((handling s m src).updCell m.dst.toNat fun c =>
        c.setBankWord w (BitVec.ofNat 64 (atomicNew op 64 (bankWord c w) m.operand.toNat 0)) taint)
      m (BitVec.ofNat 64 (bankWord c w)) taint (some .answer)) := by
  have hatomics : e.atomics = true := hatomics
  intro c w taint
  rw [msgAtomic, onEntry_of_entry ha (State.entryOf_of_entry he)]
  simp only [Cell.elemsHeld_of_idle hidle, Bool.false_eq_true, if_false, HEntry.word?_of_open hopen, hatomics, Bool.not_true,
    bankWord_toNat]
  rw [replied_eq_reply, ← bankWord_eq_ofNat]
  rfl

end

/-- A word of 64 bits as a signed number. -/
def signed64 (x : Nat) : Int := if 2 ^ 63 ≤ x then (x : Int) - 2 ^ 64 else x

theorem signExt_64 {x : Nat} (h : x < 2 ^ 64) : signExt x 64 = signed64 x := by
  simp only [signExt, Nat.mod_eq_of_lt h, signed64]
  rfl

theorem atomicMessages : AtomicMessages := by
  intro s m src ctx req e ha he here h c w old b sg taint form
  have hold : old < 2 ^ 64 := Nat.mod_lt _ (by decide)
  have hb : b < 2 ^ 64 := m.operand.isLt
  have hold' : old % 2 ^ 64 = old := Nat.mod_eq_of_lt hold
  have hb' : b % 2 ^ 64 = b := Nat.mod_eq_of_lt hb
  have hform (op new : Nat) (hnew : atomicNew op 64 old b 0 = new) {i : Instr} (hi : exec i s = msgAtomic s m op) :
      form i new := by
    subst hnew
    refine ⟨fun hidle hopen hatomics => ?_, fun hheld => hi.trans (msgAtomic_of_held ha he op hheld),
      fun hidle hfails => hi.trans (msgAtomic_of_fails ha he op hidle hfails)⟩
    refine ⟨_, hi.trans (msgAtomic_of_open ha he op hidle hopen hatomics), ?_, rfl,
      fun d hd => State.cell_updCell_other _ _ hd, ?_⟩
    · rw [State.cell_updCell_same]
      exact wordWritten_setBankWord c _ _ _
    · exact State.version_updCell_of (Cell.version_setBankWord c _ _ _ _)
  have hmin : atomicNew 1 64 old b 0 = if sg old ≤ sg b then old else b := by
    simp only [atomicNew, hold', hb', signExt_64 hold, signExt_64 hb]
    rfl
  have hmax : atomicNew 2 64 old b 0 = if sg old ≤ sg b then b else old := by
    simp only [atomicNew, hold', hb', signExt_64 hold, signExt_64 hb]
    rfl
  have hadd : atomicNew 0 64 old b 0 = (old + b) % 2 ^ 64 := by simp only [atomicNew, hold', hb']
  have hand : atomicNew 3 64 old b 0 = Nat.land old b := by simp only [atomicNew, hold', hb']; rfl
  have hor : atomicNew 4 64 old b 0 = Nat.lor old b := by simp only [atomicNew, hold', hb']; rfl
  have hxor : atomicNew 5 64 old b 0 = Nat.xor old b := by simp only [atomicNew, hold', hb']; rfl
  have hswap : atomicNew 6 64 old b 0 = b := hb'
  have hinc : atomicNew 8 64 old b 0 = if b ≤ old then 0 else old + 1 := by simp only [atomicNew, hold', hb']
  exact ⟨hform 0 _ hadd rfl, hform 1 _ hmin rfl, hform 2 _ hmax rfl, hform 3 _ hand rfl, hform 4 _ hor rfl,
    hform 5 _ hxor rfl, hform 6 _ hswap rfl, hform 8 _ hinc rfl⟩

/-- Settles O31: a message of the net acts by its frame (`onMsg`) and the entry it names, and each action writes words of the
bank one by one. -/
theorem cellMessages : Obligations.CellMessages :=
  ⟨messagesWithoutHandler, elementMessages, atomicMessages⟩

end Sys2Proof.Machine

/-! # The journal: what ends a command and what a record leaves of it (25:R363; 23:R345, R346; 27:R386) -/

namespace Sys2Proof.Machine

open Sys2Proof.Claims

/-! ### A journal entry is written -/

/-- The state before the entry reaches DRAM: the CP's copy of the ring has it. -/
def State.journaled (s : State) (e : JEntry) : State :=
  { s with cp := { s.cp with journal := tput s.cp.journal (e.seq % journalSize) e } }

theorem cachesOnly_journaled (s : State) (e : JEntry) :
    ∃ t, CachesOnly (s.journaled e) t ∧ s.putEntry e = { t with mirror := (s.putEntry e).mirror } :=
  ⟨_, cachesOnly_writeHome _ _ _ _, rfl⟩

theorem cp_putEntry (s : State) (e : JEntry) : (s.putEntry e).cp = (s.journaled e).cp := by
  obtain ⟨t, ht, hput⟩ := cachesOnly_journaled s e
  rw [hput]
  exact (congrArg State.cp ht.outside :)

theorem now_putEntry (s : State) (e : JEntry) : (s.putEntry e).now = s.now := by
  obtain ⟨t, ht, hput⟩ := cachesOnly_journaled s e
  rw [hput]
  exact (congrArg State.now ht.outside :)

theorem ctxs_putEntry (s : State) (e : JEntry) : (s.putEntry e).ctxs = s.ctxs := by
  obtain ⟨t, ht, hput⟩ := cachesOnly_journaled s e
  rw [hput]
  exact (congrArg State.ctxs ht.outside :)

theorem ports_putEntry (s : State) (e : JEntry) : (s.putEntry e).ports = s.ports := by
  obtain ⟨t, ht, hput⟩ := cachesOnly_journaled s e
  rw [hput]
  exact (congrArg State.ports ht.outside :)

theorem cell_putEntry (s : State) (e : JEntry) (c : Nat) :
    ((s.putEntry e).cell c).outsideCaches = (s.cell c).outsideCaches := by
  obtain ⟨t, ht, hput⟩ := cachesOnly_journaled s e
  rw [hput]
  exact ht.cells c

theorem hall_putEntry (s : State) (e : JEntry) (h : Nat) :
    ((s.putEntry e).hall h).outsideCaches = (s.hall h).outsideCaches := by
  obtain ⟨t, ht, hput⟩ := cachesOnly_journaled s e
  rw [hput]
  exact ht.halls h

/-! ### The entries of sequence numbers -/

theorem entrySeq_eq_some_iff {s : State} {q : Nat} {e : JEntry} :
    s.entrySeq q = some e ↔ tget s.cp.journal (q % journalSize) = some e ∧ e.seq = q := by
  unfold State.entrySeq
  cases tget s.cp.journal (q % journalSize) with
  | none => simp
  | some x =>
    by_cases hx : x.seq = q
    · simp only [if_pos hx, Option.some.injEq]
      exact ⟨fun h => ⟨h, h ▸ hx⟩, fun h => h.1⟩
    · simp only [if_neg hx, reduceCtorEq, Option.some.injEq, false_iff]
      rintro ⟨rfl, h⟩
      exact hx h

theorem entrySeq_putEntry_same (s : State) {e : JEntry} {q : Nat} (h : e.seq = q) : (s.putEntry e).entrySeq q = some e := by
  subst h
  rw [entrySeq_eq_some_iff, cp_putEntry]
  exact ⟨tget_tput_same _ _ _, rfl⟩

theorem entrySeq_putEntry_other (s : State) {e : JEntry} {q : Nat} (h : q % journalSize ≠ e.seq % journalSize) :
    (s.putEntry e).entrySeq q = s.entrySeq q := by
  unfold State.entrySeq
  rw [cp_putEntry, State.journaled, tget_tput_other _ _ h]

/-- An entry outlives the change of another one. -/
theorem entrySeq_putEntry_of_entry {s : State} {e x : JEntry} {q : Nat} (hx : s.entrySeq q = some x)
    (he : s.entrySeq e.seq ≠ none) (h : e.seq ≠ q) : (s.putEntry e).entrySeq q = some x := by
  refine (entrySeq_putEntry_other s fun hslot => ?_).trans hx
  obtain ⟨y, hy⟩ := Option.ne_none_iff_exists'.mp he
  obtain ⟨hgetx, hseqx⟩ := entrySeq_eq_some_iff.mp hx
  obtain ⟨hgety, hseqy⟩ := entrySeq_eq_some_iff.mp hy
  rw [← hslot, hgetx, Option.some.injEq] at hgety
  exact h (by rw [← hseqy, ← hgety, hseqx])

theorem updEntry_of_none {s : State} {q : Nat} (h : s.entrySeq q = none) (f : JEntry → JEntry) : s.updEntry q f = s := by
  rw [State.updEntry, h]

theorem updEntry_of_some {s : State} {q : Nat} {e : JEntry} (h : s.entrySeq q = some e) (f : JEntry → JEntry) :
    s.updEntry q f = s.putEntry (f e) := by
  rw [State.updEntry, h]

/-! ### The end of a command -/

/-- The command is no longer live. -/
def State.over (s : State) (seq : Nat) : State := { s with cp := { s.cp with live := tdel s.cp.live seq } }

theorem finishSeq_of_some {s : State} {seq : Nat} {e : JEntry} (h : s.entrySeq seq = some e) (ctx : BitVec 16) (status : Nat) :
    s.finishSeq seq ctx status
      = (s.over seq).putEntry { e with state := statusState status, status := status, done := s.now % 2 ^ 64 } := by
  have hover : ({ s with cp := { s.cp with live := tdel s.cp.live seq } } : State).entrySeq seq = some e := h
  simp only [State.finishSeq, hover]
  rfl

/-- The entry of a command whose slot has been reused. -/
def State.completion (s : State) (seq : Nat) (ctx : BitVec 16) (status : Nat) : JEntry :=
  { seq := s.cp.nextSeq, code := 0x0080, ctx := ctx, status := status, cause := 0, state := statusState status
    digest := BitVec.ofNat 256 (seq % 2 ^ 64 * 2 ^ 192), accept := s.now % 2 ^ 64, done := s.now % 2 ^ 64 }

theorem finishSeq_of_none {s : State} {seq : Nat} (h : s.entrySeq seq = none) (ctx : BitVec 16) (status : Nat) :
    s.finishSeq seq ctx status
      = ({ s.over seq with cp := { (s.over seq).cp with nextSeq := s.cp.nextSeq + 1 } } : State).putEntry
          (s.completion seq ctx status) := by
  have hover : ({ s with cp := { s.cp with live := tdel s.cp.live seq } } : State).entrySeq seq = none := h
  simp only [State.finishSeq, hover]
  rfl

/-- A command's end is the write of one entry after a change of the CP alone. -/
theorem finishSeq_eq_putEntry (s : State) (seq : Nat) (ctx : BitVec 16) (status : Nat) :
    ∃ cp e, s.finishSeq seq ctx status = ({ s with cp := cp } : State).putEntry e
      ∧ cp = { s.cp with live := cp.live, nextSeq := cp.nextSeq } := by
  cases h : s.entrySeq seq with
  | some e => exact ⟨_, _, finishSeq_of_some h ctx status, rfl⟩
  | none => exact ⟨_, _, finishSeq_of_none h ctx status, rfl⟩

theorem entryEnds_finishSeq (s : State) (seq : Nat) (ctx : BitVec 16) {status : Nat} (h : status ≠ 0x0308) :
    EntryEnds s (s.finishSeq seq ctx status) seq status := by
  intro e he
  have hseq : ({ e with state := statusState status, status := status, done := s.now % 2 ^ 64 } : JEntry).seq = seq :=
    (entrySeq_eq_some_iff.mp he).2
  rw [finishSeq_of_some he, entrySeq_putEntry_same _ hseq]
  simp only [statusState, h, or_false]
  rfl

end Sys2Proof.Machine

/-! # What every step of a context's exit keeps (23:R340) -/

namespace Sys2Proof.Machine

open Sys2Proof.Claims

/-! ### What an exit must not undo -/

/-- What the exit sets of a context. -/
def Ctx.lifetime (x : Ctx) : Bool × Option Nat × List (Nat × Nat) := (x.live, x.exitedAt, x.admissions)

/-- A version that is not a context's, unless it is EMPTY. -/
def Version.LeftBy (ctx : BitVec 10) (v : Version) : Prop := ∀ i, v.owner = some (ctx, i) → v.state = .empty

/-- Nothing of a context is at a cell's barriers. -/
structure Cell.BarrierFree (ctx : BitVec 10) (c : Cell) : Prop where
  bars : ∀ y ∈ c.bars, y.2.owner ≠ some ctx
  held : ∀ t ∈ c.barHeld, t.ctx ≠ ctx
  waits : ∀ w ∈ c.barHeldWaits, w.ctx ≠ ctx

/-- The entry of a sequence number stays, with its code, while the ring does not come round. -/
def EntryKept (l : Nat) (s t : State) : Prop :=
  s.cp.nextSeq ≤ t.cp.nextSeq
  ∧ (l < s.cp.nextSeq → t.cp.nextSeq ≤ l + journalSize →
      ∀ e, s.entrySeq l = some e → ∃ e', t.entrySeq l = some e' ∧ e'.code = e.code)

/-- A step of the exit of a context whose LAUNCH has the sequence number `l`. -/
structure ExitStep (ctx : BitVec 10) (l : Nat) (s t : State) : Prop where
  now : t.now = s.now
  lifetime : ∀ k, (t.ctx k).lifetime = (s.ctx k).lifetime
  versions : ∀ c v, (s.version c v).LeftBy ctx → (t.version c v).LeftBy ctx
  barriers : ∀ c, (s.cell c).BarrierFree ctx → (t.cell c).BarrierFree ctx
  entry : EntryKept l s t

theorem EntryKept.refl (l : Nat) (s : State) : EntryKept l s s := ⟨le_refl _, fun _ _ e he => ⟨e, he, rfl⟩⟩

theorem EntryKept.trans {l : Nat} {s t u : State} (h : EntryKept l s t) (g : EntryKept l t u) : EntryKept l s u := by
  obtain ⟨hle, hkeep⟩ := h
  obtain ⟨gle, gkeep⟩ := g
  refine ⟨hle.trans gle, fun hl hu e he => ?_⟩
  obtain ⟨e', he', hcode⟩ := hkeep hl (gle.trans hu) e he
  obtain ⟨e'', he'', hcode'⟩ := gkeep (hl.trans_le hle) hu e' he'
  exact ⟨e'', he'', hcode'.trans hcode⟩

theorem entryKept_of_journal {l : Nat} {s t : State} (hnext : t.cp.nextSeq = s.cp.nextSeq) (hjournal : t.cp.journal = s.cp.journal) :
    EntryKept l s t :=
  ⟨hnext.ge, fun _ _ e he => ⟨e, by rw [State.entrySeq, hjournal]; exact he, rfl⟩⟩

section

variable {ctx : BitVec 10} {l : Nat}

theorem ExitStep.refl (s : State) : ExitStep ctx l s s := ⟨rfl, fun _ => rfl, fun _ _ h => h, fun _ h => h, .refl l s⟩

theorem ExitStep.trans {s t u : State} (h : ExitStep ctx l s t) (g : ExitStep ctx l t u) : ExitStep ctx l s u where
  now := g.now.trans h.now
  lifetime k := (g.lifetime k).trans (h.lifetime k)
  versions c v hv := g.versions c v (h.versions c v hv)
  barriers c hc := g.barriers c (h.barriers c hc)
  entry := h.entry.trans g.entry

theorem exitStep_each_mem {α : Type} {f : State → α → State} {L : List α} (hf : ∀ t, ∀ x ∈ L, ExitStep ctx l t (f t x)) (s : State) :
    ExitStep ctx l s (each L s f) := by
  induction L generalizing s with
  | nil => exact .refl s
  | cons x L ih =>
    exact (hf s x List.mem_cons_self).trans (ih (fun t y hy => hf t y (List.mem_cons_of_mem _ hy)) (f s x))

theorem exitStep_each {α : Type} {f : State → α → State} (hf : ∀ t x, ExitStep ctx l t (f t x)) (L : List α) (s : State) :
    ExitStep ctx l s (each L s f) := exitStep_each_mem (fun t x _ => hf t x) s

theorem exitStep_ite {p : Prop} [Decidable p] {s t u : State} (ht : ExitStep ctx l s t) (hu : ExitStep ctx l s u) :
    ExitStep ctx l s (if p then t else u) := by
  split
  · exact ht
  · exact hu

/-! ### The primitives of a step -/

theorem exitStep_of_eq {s t : State} (hnow : t.now = s.now) (hctxs : t.ctxs = s.ctxs) (hcells : t.cells = s.cells)
    (hnext : t.cp.nextSeq = s.cp.nextSeq) (hjournal : t.cp.journal = s.cp.journal) : ExitStep ctx l s t where
  now := hnow
  lifetime k := by rw [State.ctx, hctxs]; rfl
  versions c v h := by rw [State.version, State.cell, hcells]; exact h
  barriers c h := by rw [State.cell, hcells]; exact h
  entry := entryKept_of_journal hnext hjournal

theorem Cell.BarrierFree.of_outsideCaches {c d : Cell} (h : c.BarrierFree ctx) (hcd : d.outsideCaches = c.outsideCaches) :
    d.BarrierFree ctx := by
  have hbars : d.bars = c.bars := (congrArg Cell.bars hcd :)
  have hheld : d.barHeld = c.barHeld := (congrArg Cell.barHeld hcd :)
  have hwaits : d.barHeldWaits = c.barHeldWaits := (congrArg Cell.barHeldWaits hcd :)
  exact ⟨hbars ▸ h.bars, hheld ▸ h.held, hwaits ▸ h.waits⟩

theorem exitStep_of_cachesOnly {s t : State} (h : CachesOnly s t) : ExitStep ctx l s t where
  now := h.now
  lifetime k := by rw [State.ctx, h.ctxs]; rfl
  versions c v hv := by rw [h.version]; exact hv
  barriers c hc := hc.of_outsideCaches (h.cells c)
  entry :=
    have hcp : t.cp = s.cp := (congrArg State.cp h.outside :)
    entryKept_of_journal (by rw [hcp]) (by rw [hcp])

theorem exitStep_updCell {s : State} {c : Nat} {f : Cell → Cell}
    (hv : ∀ v, ((s.cell c).version v).LeftBy ctx → ((f (s.cell c)).version v).LeftBy ctx)
    (hb : (s.cell c).BarrierFree ctx → (f (s.cell c)).BarrierFree ctx) : ExitStep ctx l s (s.updCell c f) where
  now := rfl
  lifetime _ := rfl
  versions k v h := by
    by_cases hk : k = c
    · subst hk
      rw [State.version, State.cell_updCell_same]
      exact hv v h
    · rw [State.version, State.cell_updCell_other _ _ hk]
      exact h
  barriers k h := by
    by_cases hk : k = c
    · subst hk
      rw [State.cell_updCell_same]
      exact hb h
    · rw [State.cell_updCell_other _ _ hk]
      exact h
  entry := entryKept_of_journal rfl rfl

/-- A change of a cell that leaves its versions and its barriers. -/
theorem exitStep_updCell_of_eq {s : State} {c : Nat} {f : Cell → Cell} (hv : ∀ x v, (f x).version v = x.version v)
    (hbars : ∀ x, (f x).bars = x.bars) (hheld : ∀ x, (f x).barHeld = x.barHeld)
    (hwaits : ∀ x, (f x).barHeldWaits = x.barHeldWaits) : ExitStep ctx l s (s.updCell c f) :=
  exitStep_updCell (fun v h => by rw [hv]; exact h) fun h =>
    ⟨by rw [hbars]; exact h.bars, by rw [hheld]; exact h.held, by rw [hwaits]; exact h.waits⟩

theorem ExitStep.updCell_of_eq {s u : State} (h : ExitStep ctx l s u) {c : Nat} {f : Cell → Cell}
    (hv : ∀ x v, (f x).version v = x.version v) (hbars : ∀ x, (f x).bars = x.bars) (hheld : ∀ x, (f x).barHeld = x.barHeld)
    (hwaits : ∀ x, (f x).barHeldWaits = x.barHeldWaits) : ExitStep ctx l s (u.updCell c f) :=
  h.trans (exitStep_updCell_of_eq hv hbars hheld hwaits)

theorem exitStep_updVersion {s : State} {c : Nat} {v : Bool} {f : Version → Version}
    (hf : ∀ x, (f x).state = x.state ∧ (f x).owner = x.owner) : ExitStep ctx l s (s.updVersion c v f) := by
  refine exitStep_updCell (fun w h => ?_) fun h => ?_
  · by_cases hw : w = v
    · subst hw
      rw [Cell.version_updVersion_same]
      intro i hi
      rw [(hf _).1]
      exact h i ((hf _).2 ▸ hi)
    · rw [Cell.version_updVersion_other _ _ hw]
      exact h
  · cases v <;> exact ⟨h.bars, h.held, h.waits⟩

theorem exitStep_updHall (s : State) (h : Nat) (f : Hall → Hall) : ExitStep ctx l s (s.updHall h f) :=
  exitStep_of_eq rfl rfl rfl rfl rfl

theorem exitStep_updCfg (s : State) (x : BitVec 10) (i : Nat) (f : CfgRt → CfgRt) : ExitStep ctx l s (s.updCfg x i f) := by
  unfold State.updCfg
  cases s.cfg x i with
  | none => exact .refl s
  | some y => exact exitStep_of_eq rfl rfl rfl rfl rfl

theorem exitStep_send (s : State) (p : Packet) : ExitStep ctx l s (s.send p) :=
  exitStep_of_eq rfl rfl rfl rfl rfl

theorem exitStep_chrono (s : State) (h type word : Nat) : ExitStep ctx l s (s.chrono h type word) := exitStep_updHall ..

theorem ctx_updCtx (s : State) (x k : BitVec 10) (f : Ctx → Ctx) :
    (s.updCtx x f).ctx k = if k = x then f (s.ctx x) else s.ctx k := by
  rw [State.updCtx, State.ctx, tgetD_tput]
  exact if_congr BitVec.toNat_inj rfl rfl

theorem exitStep_updCtx {s : State} {x : BitVec 10} {f : Ctx → Ctx} (hf : (f (s.ctx x)).lifetime = (s.ctx x).lifetime) :
    ExitStep ctx l s (s.updCtx x f) where
  now := rfl
  lifetime k := by
    rw [ctx_updCtx]
    split
    · next h => rw [h, hf]
    · rfl
  versions _ _ h := h
  barriers _ h := h
  entry := entryKept_of_journal rfl rfl

/-! ### Journal entries -/

/-- An entry is written that is of another slot, or takes the place of the kept one. -/
theorem entryKept_putEntry {s : State} {e : JEntry}
    (h : e.seq % journalSize ≠ l % journalSize ∨ ∃ x, s.entrySeq e.seq = some x ∧ x.code = e.code) :
    EntryKept l s (s.putEntry e) := by
  refine ⟨by rw [cp_putEntry]; exact le_refl _, fun _ _ y hy => ?_⟩
  rcases h with hslot | ⟨x, hx, hcode⟩
  · exact ⟨y, (entrySeq_putEntry_other s hslot.symm).trans hy, rfl⟩
  · by_cases hseq : e.seq = l
    · rw [hseq, hy, Option.some.injEq] at hx
      exact ⟨e, entrySeq_putEntry_same s hseq, by rw [← hcode, hx]⟩
    · exact ⟨y, entrySeq_putEntry_of_entry hy (by rw [hx]; simp) hseq, rfl⟩

/-- A change of the CP alone, then the write of an entry. -/
theorem exitStep_cp_putEntry {s : State} {cp : Cp} {e : JEntry} (h : EntryKept l s (({ s with cp := cp } : State).putEntry e)) :
    ExitStep ctx l s (({ s with cp := cp } : State).putEntry e) := by
  have hcell (c : Nat) : ((({ s with cp := cp } : State).putEntry e).cell c).outsideCaches = (s.cell c).outsideCaches :=
    cell_putEntry { s with cp := cp } e c
  refine ⟨now_putEntry _ e, fun k => by rw [State.ctx, ctxs_putEntry]; rfl, fun c v hv => ?_,
    fun c hc => hc.of_outsideCaches (hcell c), h⟩
  have hversion : (({ s with cp := cp } : State).putEntry e).version c v = s.version c v := by
    cases v
    · exact (congrArg Cell.v0 (hcell c) :)
    · exact (congrArg Cell.v1 (hcell c) :)
  rw [hversion]
  exact hv

theorem exitStep_putEntry {s : State} {e : JEntry} (h : EntryKept l s (s.putEntry e)) : ExitStep ctx l s (s.putEntry e) :=
  exitStep_cp_putEntry (cp := s.cp) h

theorem exitStep_updEntry (s : State) (q : Nat) {f : JEntry → JEntry} (hf : ∀ e, (f e).seq = e.seq ∧ (f e).code = e.code) :
    ExitStep ctx l s (s.updEntry q f) := by
  cases h : s.entrySeq q with
  | none => rw [updEntry_of_none h]; exact .refl s
  | some e =>
    obtain ⟨hseq, hcode⟩ := hf e
    have hq : e.seq = q := (entrySeq_eq_some_iff.mp h).2
    rw [updEntry_of_some h]
    exact exitStep_putEntry (entryKept_putEntry (.inr ⟨e, by rw [hseq, hq, h], hcode.symm⟩))

theorem exitStep_finishSeq (s : State) (q : Nat) (x : BitVec 16) (status : Nat) :
    ExitStep ctx l s (s.finishSeq q x status) := by
  cases h : s.entrySeq q with
  | some e =>
    rw [finishSeq_of_some h]
    have hover : ExitStep ctx l s (s.over q) :=
      exitStep_of_eq rfl rfl rfl rfl rfl
    have hq : e.seq = q := (entrySeq_eq_some_iff.mp h).2
    exact hover.trans (exitStep_putEntry (entryKept_putEntry (.inr ⟨e, hq ▸ h, rfl⟩)))
  | none =>
    rw [finishSeq_of_none h]
    refine exitStep_cp_putEntry ⟨?_, fun hl hroom e he => ⟨e, ?_, rfl⟩⟩
    · rw [cp_putEntry]
      exact Nat.le_succ _
    · rw [cp_putEntry] at hroom
      have hslot : l % journalSize ≠ (s.completion q x status).seq % journalSize := by
        change l % 262144 ≠ s.cp.nextSeq % 262144
        change s.cp.nextSeq + 1 ≤ l + 262144 at hroom
        omega
      exact (entrySeq_putEntry_other _ hslot).trans he

end

end Sys2Proof.Machine

/-! # The steps of a context's exit, one by one (17:R272, R273; 21:R326; 23:R340, R345) -/

namespace Sys2Proof.Machine

open Sys2Proof.Claims

section

variable {ctx : BitVec 10} {l : Nat}

/-! ### Records and late tokens -/

theorem exitStep_writeHost (a n v : Nat) (s : State) : ExitStep ctx l s (s.writeHost a n v) := by
  induction n generalizing a v s with
  | zero => exact .refl s
  | succ n ih =>
    rw [State.writeHost]
    refine ExitStep.trans ?_ (ih (a + 1) (v / 256) _)
    exact exitStep_of_eq rfl rfl rfl rfl rfl

theorem exitStep_writeAny (s : State) (pa n v : Nat) : ExitStep ctx l s (s.writeAny pa n v) := by
  unfold State.writeAny
  refine exitStep_ite ?_ (exitStep_of_cachesOnly (cachesOnly_writeHome ..))
  exact (exitStep_writeHost _ n v s).trans
    (exitStep_of_eq rfl rfl rfl rfl rfl)

theorem exitStep_ringRecord (s : State) (x : BitVec 10) (bits : Nat) : ExitStep ctx l s (s.ringRecord x bits) := by
  unfold State.ringRecord
  dsimp only
  split
  · exact .refl s
  · split
    · exact ((exitStep_writeAny ..).trans (exitStep_writeAny ..)).trans (exitStep_updCtx rfl)
    · exact .refl s

theorem exitStep_takeRecord (s : State) (launch : Option Nat) (bits : BitVec 256) :
    ExitStep ctx l s (s.takeRecord launch bits) := by
  unfold State.takeRecord
  dsimp only
  refine ExitStep.trans (t := { s with cp := { s.cp with records := s.cp.records ++ [bits] } }) (exitStep_of_eq rfl rfl rfl rfl rfl) ?_
  cases launch with
  | none => exact .refl _
  | some q =>
    refine exitStep_ite (exitStep_updEntry _ q fun e => ?_) (exitStep_ite ?_ (.refl _))
    · split <;> exact ⟨rfl, rfl⟩
    · exact (exitStep_updCtx rfl).trans (exitStep_updEntry _ q fun e => ⟨rfl, rfl⟩)

theorem exitStep_cpRecord (s : State) (x : BitVec 10) (bits : Nat) : ExitStep ctx l s (s.cpRecord x bits) := by
  unfold State.cpRecord
  exact exitStep_ite (exitStep_of_eq rfl rfl rfl rfl rfl) (exitStep_takeRecord ..)

theorem exitStep_record (s : State) (r : Record) : ExitStep ctx l s (s.record r) :=
  ((exitStep_chrono ..).trans (exitStep_ringRecord ..)).trans (exitStep_cpRecord ..)

theorem exitStep_beginStop (s : State) (x : BitVec 10) : ExitStep ctx l s (s.beginStop x) := by
  unfold State.beginStop
  refine exitStep_ite (.refl s) (ExitStep.trans ?_ (exitStep_updCtx rfl))
  exact exitStep_of_eq rfl rfl rfl rfl rfl

theorem exitStep_nodeFault (s : State) (n : NodeRef) (cause addr info : Nat) :
    ExitStep ctx l s (s.nodeFault n cause addr info) := by
  unfold State.nodeFault
  exact (exitStep_record ..).trans (exitStep_ite (exitStep_beginStop ..) (.refl _))

theorem exitStep_poisonSink (s : State) (n : NodeRef) (addr count source : Nat) (phys : Bool) (cycle : Option Nat) :
    ExitStep ctx l s (s.poisonSink n addr count source phys cycle) := by
  unfold State.poisonSink
  exact (exitStep_record ..).trans (exitStep_ite (exitStep_beginStop ..) (.refl _))

theorem exitStep_sinkRecord (s : State) (ref : NodeRef) (p : Pass) : ExitStep ctx l s (s.sinkRecord ref p) :=
  exitStep_ite (.refl s) (exitStep_poisonSink ..)

theorem exitStep_endCmd (s : State) (t : Token) (status : Nat) : ExitStep ctx l s (s.endCmd t status) := by
  unfold State.endCmd
  cases t.cmd with
  | none => exact .refl s
  | some q => exact exitStep_finishSeq ..

theorem exitStep_lateToken (s : State) (cell : Nat) (ver : Bool) (rtag node : Nat) (t : Token) :
    ExitStep ctx l s (s.lateToken cell ver rtag node t) := by
  unfold State.lateToken
  refine ((exitStep_endCmd s t 0x0303).trans ?_).trans (exitStep_ite (exitStep_nodeFault ..) (.refl _))
  exact exitStep_updCell_of_eq (fun _ v => by cases v <;> rfl) (fun _ => rfl) (fun _ => rfl) fun _ => rfl

theorem exitStep_lateAtAgent (s : State) (h gid : Nat) (t : Token) : ExitStep ctx l s (s.lateAtAgent h gid t) := by
  unfold State.lateAtAgent
  exact ((exitStep_endCmd s t 0x0303).trans (exitStep_updHall ..)).trans (exitStep_ite (exitStep_nodeFault ..) (.refl _))

/-! ### The promotion of an exit -/

theorem cachesOnly_promoteWrites (s : State) (c : Nat) : CachesOnly s (s.promoteWrites c) :=
  ((cachesOnly_cleanAllL1 ..).trans (cachesOnly_cleanAllGc ..)).trans (cachesOnly_cleanAllL2 ..)

theorem exitStep_replyProm (s : State) (cell : Nat) (r : PromReq) : ExitStep ctx l s (s.replyProm cell r) :=
  (exitStep_of_cachesOnly (cachesOnly_pushTo ..)).trans (exitStep_send ..)

theorem exitStep_promoteFor (s : State) (cell n : Nat) (L : List PromReq) : ExitStep ctx l s (s.promoteFor cell n L) := by
  unfold State.promoteFor
  refine ExitStep.trans ?_ (exitStep_each (fun t r => exitStep_replyProm t cell r) L _)
  refine (exitStep_of_cachesOnly (cachesOnly_promoteWrites s cell)).trans ?_
  exact exitStep_updCell_of_eq (fun _ v => by cases v <;> rfl) (fun _ => rfl) (fun _ => rfl) fun _ => rfl

theorem exitStep_finishOne (s : State) (cell : Nat) : ExitStep ctx l s (s.finishOne cell) := by
  unfold State.finishOne
  cases (s.cell cell).prom with
  | none => exact .refl s
  | some p =>
    refine ExitStep.trans ?_ (exitStep_promoteFor _ cell p.2 p.1)
    exact exitStep_updCell_of_eq (fun _ v => by cases v <;> rfl) (fun _ => rfl) (fun _ => rfl) fun _ => rfl

theorem exitStep_savePromotion (s : State) (cell : Nat) (target : PromReq → Bool) :
    ExitStep ctx l s (s.savePromotion cell target) := by
  unfold State.savePromotion
  refine ((exitStep_finishOne s cell).trans ?_).trans (exitStep_promoteFor ..)
  exact exitStep_updCell_of_eq (fun _ v => by cases v <;> rfl) (fun _ => rfl) (fun _ => rfl) fun _ => rfl

/-! ### Waits at a barrier that end -/

theorem exitStep_refocus {s u : State} (h : ExitStep ctx l s u) (focus : BitVec 18) (slot : Nat) :
    ExitStep ctx l s { u with focus := focus, slot := slot } := h.trans (exitStep_of_eq rfl rfl rfl rfl rfl)

theorem exitStep_asTask {s : State} {cell slot : Nat} {f : State → Task → State} (hf : ∀ u t, ExitStep ctx l u (f u t)) :
    ExitStep ctx l s (s.asTask cell slot f) := by
  have hback (u : State) (rr : Nat) (at_ : Option Nat) :
      ExitStep ctx l u (u.updCell cell fun x => { x with rr := rr, issuedAt := at_ }) :=
    exitStep_updCell_of_eq (fun _ v => by cases v <;> rfl) (fun _ => rfl) (fun _ => rfl) fun _ => rfl
  have hfocus := exitStep_refocus (ExitStep.refl (ctx := ctx) (l := l) s) (BitVec.ofNat 18 cell) slot
  unfold State.asTask
  dsimp only
  refine exitStep_refocus (ExitStep.trans ?_ (hback _ _ _)) _ _
  split
  · exact hfocus.trans (hf _ _)
  · exact hfocus

theorem exitStep_updNode (s : State) (c : Nat) (v : Bool) (k : Nat) (f : Node → Node) : ExitStep ctx l s (s.updNode c v k f) :=
  exitStep_updVersion fun _ => ⟨rfl, rfl⟩

theorem exitStep_retired (s : State) (t : Task) : ExitStep ctx l s (s.retired t) := by
  unfold State.retired State.updCell0
  exact (exitStep_updNode ..).updCell_of_eq (fun _ v => by cases v <;> rfl) (fun _ => rfl) (fun _ => rfl) fun _ => rfl

theorem exitStep_complete (s : State) (t : Task) : ExitStep ctx l s (s.complete t) := by
  unfold State.complete State.completeIn State.issued State.updCell0
  exact (exitStep_retired s _).updCell_of_eq (fun _ v => by cases v <;> rfl) (fun _ => rfl) (fun _ => rfl) fun _ => rfl

theorem exitStep_endWait (s : State) (home : Nat) (w : BarWaiter) (poison : Bool) : ExitStep ctx l s (s.endWait home w poison) := by
  unfold State.endWait
  refine exitStep_ite (exitStep_asTask fun u t => ?_) ((exitStep_of_cachesOnly (cachesOnly_pushTo ..)).trans (exitStep_send ..))
  split
  · exact exitStep_ite ((exitStep_of_cachesOnly (cachesOnly_acquire ..)).trans (exitStep_complete ..)) (.refl u)
  · exact .refl u

/-! ### Barrier entries -/

theorem barFor_owner {c : Cell} {bid : Nat} {x : BitVec 10} {phase : BitVec 12} {e : BarEntry} (h : c.barFor bid x phase = some e) :
    e.owner = some x := by
  unfold Cell.barFor at h
  dsimp only at h
  split_ifs at h with howner hidle
  · rw [← Option.some.inj h, howner]
  · rw [← Option.some.inj h]

theorem Cell.BarrierFree.setBar {c : Cell} (h : c.BarrierFree ctx) (bid : Nat) {e : BarEntry} (he : e.owner ≠ some ctx) :
    (c.setBar bid e).BarrierFree ctx where
  bars y hy := by
    rcases mem_tput hy with rfl | hy
    · exact he
    · exact h.bars y hy
  held := h.held
  waits := h.waits

/-- An entry of another context is written, and waits join or leave. -/
theorem exitStep_setBar {s : State} {home bid : Nat} {e : BarEntry} (he : e.owner ≠ some ctx) (ws : Cell → List BarWaiter) :
    ExitStep ctx l s (s.updCell home fun c => { c.setBar bid e with barWaiters := ws c }) :=
  exitStep_updCell (fun v h => by cases v <;> exact h) fun h =>
    ⟨(h.setBar bid he).bars, (h.setBar bid he).held, (h.setBar bid he).waits⟩

theorem exitStep_completePhase {s : State} {home bid : Nat} {e : BarEntry} (he : e.owner ≠ some ctx) :
    ExitStep ctx l s (s.completePhase home bid e) := by
  unfold State.completePhase
  refine ExitStep.trans ?_ (exitStep_each (fun u w => exitStep_endWait u home w e.poison) _ _)
  exact exitStep_setBar (e := { e with phase := e.phase + 1, total := 0, expected := 0, poison := false }) he _

/-- An entry as its first arrival leaves it (17:R272). -/
def BarEntry.counted (e : BarEntry) (expected : Nat) (bytes : Bool) : BarEntry :=
  if e.expected = 0 then { e with expected := expected, bytes := bytes } else e

theorem BarEntry.owner_counted (e : BarEntry) (expected : Nat) (bytes : Bool) : (e.counted expected bytes).owner = e.owner := by
  unfold BarEntry.counted
  split <;> rfl

theorem exitStep_barArrive {s u : State} {home : Nat} {t : Token} (ht : t.ctx ≠ ctx) (h : s.barArrive home t = some u) :
    ExitStep ctx l s u := by
  have hset (bid : Nat) (e : BarEntry) (he : e.owner ≠ some ctx) : ExitStep ctx l s (s.updCell home fun c => c.setBar bid e) :=
    exitStep_setBar he Cell.barWaiters
  unfold State.barArrive at h
  dsimp only at h
  split at h
  · cases h
  · next e hfor =>
    have he : e.owner ≠ some ctx := by rw [barFor_owner hfor]; exact fun h => ht (Option.some.inj h)
    rw [← BarEntry.counted] at h
    have he' : (e.counted (bitsOf t.payload.toNat 36 24) (bitsOf t.payload.toNat 8 1 = 1)).owner ≠ some ctx := by
      rw [BarEntry.owner_counted]
      exact he
    generalize e.counted (bitsOf t.payload.toNat 36 24) (bitsOf t.payload.toNat 8 1 = 1) = e' at h he'
    split_ifs at h
    all_goals rw [← Option.some.inj h]
    · exact exitStep_updCell_of_eq (fun _ v => by cases v <;> rfl) (fun _ => rfl) (fun _ => rfl) fun _ => rfl
    · exact (hset _ e' he').trans (exitStep_nodeFault ..)
    · exact exitStep_completePhase he'
    · exact hset _ _ he'

theorem exitStep_barWait_done {s u : State} {home : Nat} {w : BarWaiter} (hw : w.ctx ≠ ctx) (h : s.barWait home w = .done u) :
    ExitStep ctx l s u := by
  unfold State.barWait at h
  split at h
  · cases h
  · next e hfor =>
    have he : e.owner ≠ some ctx := by rw [barFor_owner hfor]; exact fun h => hw (Option.some.inj h)
    split_ifs at h
    rw [← WaitOut.done.inj h]
    exact exitStep_setBar he Cell.barWaiters

theorem exitStep_barWait_parked {s u : State} {home : Nat} {w : BarWaiter} (hw : w.ctx ≠ ctx) (h : s.barWait home w = .parked u) :
    ExitStep ctx l s u := by
  unfold State.barWait at h
  split at h
  · cases h
  · next e hfor =>
    have he : e.owner ≠ some ctx := by rw [barFor_owner hfor]; exact fun h => hw (Option.some.inj h)
    split_ifs at h
    rw [← WaitOut.parked.inj h]
    exact exitStep_setBar he _

theorem exitStep_retryArrival (s : State) (home : Nat) {t : Token} (ht : t.ctx ≠ ctx) :
    ExitStep ctx l s (match s.barArrive home t with
      | some s => s
      | none => s.updCell home fun c => { c with barHeld := c.barHeld ++ [t] }) := by
  split
  · next h => exact exitStep_barArrive ht h
  · exact exitStep_updCell (fun v h => by cases v <;> exact h) fun h =>
      ⟨h.bars, fun x hx => (List.mem_append.mp hx).elim (h.held x) fun hx => List.mem_singleton.mp hx ▸ ht, h.waits⟩

theorem exitStep_retryWait (s : State) (home : Nat) {w : BarWaiter} (hw : w.ctx ≠ ctx) :
    ExitStep ctx l s (match s.barWait home w with
      | .done s => s.endWait home w false
      | .parked s => s
      | .held | .refused => s.updCell home fun c => { c with barHeldWaits := c.barHeldWaits ++ [w] }) := by
  have hheld : ExitStep ctx l s (s.updCell home fun c => { c with barHeldWaits := c.barHeldWaits ++ [w] }) :=
    exitStep_updCell (fun v h => by cases v <;> exact h) fun h =>
      ⟨h.bars, h.held, fun x hx => (List.mem_append.mp hx).elim (h.waits x) fun hx => List.mem_singleton.mp hx ▸ hw⟩
  split
  · next h => exact (exitStep_barWait_done hw h).trans (exitStep_endWait ..)
  · next h => exact exitStep_barWait_parked hw h
  · exact hheld
  · exact hheld

theorem exitStep_barRetry (home k : Nat) {s : State} (h : (s.cell home).BarrierFree ctx) : ExitStep ctx l s (s.barRetry home k) := by
  induction k generalizing s with
  | zero => exact .refl s
  | succ k ih =>
    obtain ⟨hbars, hheld, hwaits⟩ := h
    have hround : ExitStep ctx l s (each (s.cell home).barHeldWaits
        (each (s.cell home).barHeld (s.updCell home fun c => { c with barHeld := [], barHeldWaits := [] }) fun s t =>
          match s.barArrive home t with
          | some s => s
          | none => s.updCell home fun c => { c with barHeld := c.barHeld ++ [t] })
        fun s w =>
          match s.barWait home w with
          | .done s => s.endWait home w false
          | .parked s => s
          | .held | .refused => s.updCell home fun c => { c with barHeldWaits := c.barHeldWaits ++ [w] }) := by
      refine ExitStep.trans (ExitStep.trans ?_ (exitStep_each_mem (fun u t ht => exitStep_retryArrival u home (hheld t ht)) _))
        (exitStep_each_mem (fun u w hw => exitStep_retryWait u home (hwaits w hw)) _)
      exact exitStep_updCell (fun v h => by cases v <;> exact h) fun h =>
        ⟨h.bars, fun _ ht => absurd ht List.not_mem_nil, fun _ hw => absurd hw List.not_mem_nil⟩
    unfold State.barRetry
    exact exitStep_ite hround (hround.trans (ih (hround.barriers home ⟨hbars, hheld, hwaits⟩)))

theorem exitStep_settleBars {s : State} {home : Nat} (h : (s.cell home).BarrierFree ctx) : ExitStep ctx l s (s.settleBars home) :=
  exitStep_barRetry home _ h

/-! ### What the exit drops -/

/-- What the exit leaves at a cell's barriers (23:R340). -/
def Cell.withoutBarriers (ctx : BitVec 10) (c : Cell) : Cell :=
  { c with
    bars := c.bars.filter fun y => y.2.owner ≠ some ctx
    barWaiters := c.barWaiters.filter (·.ctx ≠ ctx)
    barHeld := c.barHeld.filter (·.ctx ≠ ctx)
    barHeldWaits := c.barHeldWaits.filter (·.ctx ≠ ctx)
    slots := c.slots.filter fun y => !(y.2.state ≠ .empty && y.2.owner = ctx) }

theorem barrierFree_withoutBarriers (ctx : BitVec 10) (c : Cell) : (c.withoutBarriers ctx).BarrierFree ctx where
  bars _ hy := of_decide_eq_true (List.mem_filter.mp hy).2
  held _ ht := of_decide_eq_true (List.mem_filter.mp ht).2
  waits _ hw := of_decide_eq_true (List.mem_filter.mp hw).2

theorem exitStep_withoutBarriers (s : State) (cell : Nat) : ExitStep ctx l s (s.updCell cell (Cell.withoutBarriers ctx)) :=
  exitStep_updCell (fun v h => by cases v <;> exact h) fun _ => barrierFree_withoutBarriers ctx _

/-- The late tokens of a cell that drops its barriers, then its barriers. -/
def State.barriersDropped (s : State) (ctx : BitVec 10) (cell : Nat) : State :=
  (each ((s.cell cell).barHeld.filter (·.ctx = ctx)) s fun s t => s.lateToken cell t.ver 0 0 t).updCell cell
    (Cell.withoutBarriers ctx)

theorem dropCell_eq (s : State) (cell : Nat) : s.dropCell ctx cell = (s.barriersDropped ctx cell).settleBars cell := rfl

theorem barrierFree_barriersDropped (s : State) (cell : Nat) : ((s.barriersDropped ctx cell).cell cell).BarrierFree ctx := by
  rw [State.barriersDropped, State.cell_updCell_same]
  exact barrierFree_withoutBarriers ctx _

theorem exitStep_barriersDropped (s : State) (cell : Nat) : ExitStep ctx l s (s.barriersDropped ctx cell) := by
  unfold State.barriersDropped
  refine ExitStep.trans ?_ (exitStep_withoutBarriers _ cell)
  exact exitStep_each (fun _ _ => exitStep_lateToken ..) _ s

theorem exitStep_dropCell (s : State) (cell : Nat) : ExitStep ctx l s (s.dropCell ctx cell) := by
  rw [dropCell_eq]
  exact (exitStep_barriersDropped s cell).trans (exitStep_settleBars (barrierFree_barriersDropped s cell))

theorem barrierFree_dropCell (s : State) (cell : Nat) : ((s.dropCell ctx cell).cell cell).BarrierFree ctx := by
  rw [dropCell_eq]
  exact (exitStep_settleBars (ctx := ctx) (l := 0) (barrierFree_barriersDropped s cell)).barriers cell
    (barrierFree_barriersDropped s cell)

/-- A cell that gives up a version. -/
def Cell.withoutVersion (ver : Bool) (c : Cell) : Cell :=
  let slots := (c.tasks.filter fun y => y.2.ver = ver).map (·.1)
  { c.emptyVersion ver with
    tasks := c.tasks.filter fun y => y.2.ver ≠ ver
    ops := c.ops.filter fun o => !slots.contains o.slot
    store := c.store.filter fun e => e.ver ≠ ver
    arrivals := c.arrivals.filter fun a => a.1 ≠ ver
    flips := c.flips.filter fun k => !slots.contains k
    readyFirings := c.readyFirings.filter fun f => f.ver ≠ ver
    issueStopped := false, clockStopped := false }

theorem version_emptyVersion_same (c : Cell) (ver : Bool) : ((c.emptyVersion ver).version ver) = (c.version ver).shell := by
  rw [Cell.emptyVersion, Cell.version_updVersion_other _ _ (by cases ver <;> decide), Cell.version_updVersion_same]

theorem leftBy_emptyVersion {c : Cell} (ver : Bool) {v : Bool} (h : v = ver ∨ (c.version v).LeftBy ctx) :
    ((c.emptyVersion ver).version v).LeftBy ctx := by
  by_cases hv : v = ver
  · rw [hv, version_emptyVersion_same]
    exact fun _ _ => rfl
  · have hnot : v = !ver := by cases v <;> cases ver <;> trivial
    rw [hnot, Cell.emptyVersion, Cell.version_updVersion_same, Cell.version_updVersion_not]
    exact hnot ▸ (h.resolve_left hv)

theorem version_withoutVersion (c : Cell) (ver v : Bool) : (c.withoutVersion ver).version v = (c.emptyVersion ver).version v := by
  cases v <;> rfl

theorem exitStep_withoutVersion (s : State) (cell : Nat) (ver : Bool) :
    ExitStep ctx l s (s.updCell cell (Cell.withoutVersion ver)) := by
  refine exitStep_updCell (fun v h => ?_) fun h => ?_
  · rw [version_withoutVersion]
    exact leftBy_emptyVersion ver (.inr h)
  · cases ver <;> exact ⟨h.bars, h.held, h.waits⟩

/-- What a version that a cell gives up leaves in the records (05:R87; 21:R326). -/
def State.versionRecorded (s : State) (cell : Nat) (ver : Bool) : State :=
  let c := s.cell cell
  let v := c.version ver
  let toks := v.tokens ++ (c.store.filter fun e => e.ver = ver).map fun e => (e.token.rtag.toNat, e.node, e.token)
  each ((v.nodes.mapIdx fun i n => n.passes.map fun p => (i, p)).flatten)
    (each toks s fun s x => s.lateToken cell ver x.1 x.2.1 x.2.2)
    fun s x => s.sinkRecord (nodeRef cell ver x.1 x.2.ctx x.2.iter) x.2

theorem dropVersion_eq (s : State) (cell : Nat) (ver : Bool) :
    s.dropVersion cell ver = (s.versionRecorded cell ver).updCell cell (Cell.withoutVersion ver) := rfl

theorem exitStep_versionRecorded (s : State) (cell : Nat) (ver : Bool) : ExitStep ctx l s (s.versionRecorded cell ver) := by
  unfold State.versionRecorded
  dsimp only
  refine ExitStep.trans ?_ (exitStep_each (fun _ _ => exitStep_sinkRecord ..) _ _)
  exact exitStep_each (fun _ _ => exitStep_lateToken ..) _ s

theorem exitStep_dropVersion (s : State) (cell : Nat) (ver : Bool) : ExitStep ctx l s (s.dropVersion cell ver) := by
  rw [dropVersion_eq]
  exact (exitStep_versionRecorded s cell ver).trans (exitStep_withoutVersion ..)

theorem leftBy_dropVersion (s : State) (cell : Nat) (ver : Bool) : ((s.dropVersion cell ver).version cell ver).LeftBy ctx := by
  rw [dropVersion_eq, State.version, State.cell_updCell_same, version_withoutVersion]
  exact leftBy_emptyVersion ver (.inl rfl)

theorem exitStep_dropVest (s : State) (x : BitVec 10) (i : Nat) (c : CfgRt) : ExitStep ctx l s (s.dropVest x i c) := by
  unfold State.dropVest
  dsimp only
  refine ExitStep.trans (ExitStep.trans (exitStep_updCfg s x i _) (exitStep_each (fun u y => exitStep_lateAtAgent u ..) _ _))
    (exitStep_each (fun u y => ?_) _ _)
  refine ExitStep.trans ?_ (exitStep_each (fun u z => exitStep_sinkRecord u ..) _ _)
  exact exitStep_each (fun u z => exitStep_lateAtAgent u ..) _ _

end

end Sys2Proof.Machine

/-! # The end of a context and the return of its id (05:R74, R77, R87; 23:R334, R340) -/

namespace Sys2Proof.Machine

open Sys2Proof.Claims

/-! ### The stages of an exit -/

/-- The cells that a version of a context lies on. -/
def State.cellsOf (s : State) (ctx : BitVec 10) : List Nat :=
  (s.cells.filter fun y => [y.2.v0, y.2.v1].any fun v =>
    v.state ≠ .empty && (match v.owner with | some (k, _) => k = ctx | none => false)).map (·.1)

/-- The context is marked as gone. -/
def State.marked (s : State) (ctx : BitVec 10) : State :=
  (s.endContext ctx).updCtx ctx fun x =>
    { x with live := false, exitedAt := some s.now, admissions := [], stopping := false, stopSeqs := [], exitSeqs := [] }

/-- A version of the context is given up. -/
def State.dropOwned (s : State) (ctx : BitVec 10) (cell : Nat) (ver : Bool) : State :=
  match (s.version cell ver).state, (s.version cell ver).owner with
  | .empty, _ => s
  | _, some (k, _) => if k = ctx then s.dropVersion cell ver else s
  | _, none => s

/-- The capture ports give up the context. -/
def State.portsDropped (s : State) (ctx : BitVec 10) : State :=
  { s with ports := s.ports.map fun (k, p) =>
      (k, match p.capture with | some (c, _, _) => if c = ctx then { p with capture := none, enabled := false, buffer := [] } else p | none => p) }

/-- The writes of the context's cells are promoted, and the context is marked. -/
def State.exitBegun (s : State) (ctx : BitVec 10) : State :=
  (each (s.cellsOf ctx) s fun s cell => s.savePromotion cell fun r => r.ctx = ctx).marked ctx

/-- The versions of the context are given up. -/
def State.versionsDropped (s u : State) (ctx : BitVec 10) : State :=
  each (s.cellsOf ctx) u fun s cell => each [false, true] s fun s ver => s.dropOwned ctx cell ver

/-- The barriers and what the agents hold are given up. -/
def State.cellsDropped (s : State) (ctx : BitVec 10) : State := each (s.cells.map (·.1)) s fun s cell => s.dropCell ctx cell

def State.vestsDropped (s : State) (ctx : BitVec 10) : State := each (s.ctxCfgs ctx) s fun s y => s.dropVest ctx y.1 y.2

/-- The state before the LAUNCH ends. -/
def State.exitDropped (s : State) (ctx : BitVec 10) : State :=
  ((((s.versionsDropped (s.exitBegun ctx) ctx).cellsDropped ctx).vestsDropped ctx).dropQueues ctx).portsDropped ctx

theorem exitContext_eq {s : State} {ctx : BitVec 10} (hstop : (s.ctx ctx).stopSeqs = []) (hexit : (s.ctx ctx).exitSeqs = []) :
    s.exitContext ctx = (s.exitDropped ctx).finishSeq (s.ctx ctx).launch (ctx.zeroExtend 16) 0 := by
  have h : s.exitContext ctx = each ((s.ctx ctx).stopSeqs ++ (s.ctx ctx).exitSeqs)
      ((s.exitDropped ctx).finishSeq (s.ctx ctx).launch (ctx.zeroExtend 16) 0)
      fun s q => s.finishSeq q (ctx.zeroExtend 16) 0 := rfl
  rw [h, hstop, hexit]
  rfl

/-! ### Versions -/

section

variable {ctx : BitVec 10} {l : Nat}

theorem exitStep_dropOwned (s : State) (cell : Nat) (ver : Bool) : ExitStep ctx l s (s.dropOwned ctx cell ver) := by
  unfold State.dropOwned
  split
  · exact .refl s
  · exact exitStep_ite (exitStep_dropVersion ..) (.refl s)
  · exact .refl s

theorem leftBy_dropOwned (s : State) (cell : Nat) (ver : Bool) : ((s.dropOwned ctx cell ver).version cell ver).LeftBy ctx := by
  unfold State.dropOwned
  split
  · next hempty => exact fun _ _ => hempty
  · next k _ howner _ =>
    split
    · exact leftBy_dropVersion s cell ver
    · next hk => exact fun i hi => absurd (congrArg Prod.fst (Option.some.inj (howner.symm.trans hi))) hk
  · next hnone _ => exact fun i hi => by rw [hnone] at hi; cases hi

theorem exitStep_versionsDropped (s u : State) : ExitStep ctx l u (s.versionsDropped u ctx) :=
  exitStep_each (fun t cell => exitStep_each (fun t ver => exitStep_dropOwned t cell ver) _ t) _ u

theorem leftBy_versionsDropped (s u : State) {cell : Nat} (hcell : cell ∈ s.cellsOf ctx) (ver : Bool) :
    ((s.versionsDropped u ctx).version cell ver).LeftBy ctx := by
  have hboth (t : State) (c : Nat) : ∀ v, ((each [false, true] t fun t v => t.dropOwned ctx c v).version c v).LeftBy ctx := by
    intro v
    refine each_reaches (P := fun t v => (t.version c v).LeftBy ctx) (Q := fun _ => True) (fun _ _ _ => trivial)
      (fun t v _ => leftBy_dropOwned t c v) (fun t v w _ h => (exitStep_dropOwned (l := 0) t c v).versions c w h) _ trivial v ?_
    cases v <;> simp
  exact each_reaches (P := fun t c => ∀ v, (t.version c v).LeftBy ctx) (Q := fun _ => True) (fun _ _ _ => trivial)
    (fun t c _ => hboth t c)
    (fun t c d _ h v => (exitStep_each (l := 0) (fun t v => exitStep_dropOwned t c v) _ t).versions d v (h v))
    _ trivial cell hcell ver

/-- A cell without a version of the context. -/
theorem leftBy_of_not_mem_cellsOf {s : State} {cell : Nat} (h : cell ∉ s.cellsOf ctx) (ver : Bool) :
    (s.version cell ver).LeftBy ctx := by
  intro i hi
  by_contra hstate
  cases hget : tget s.cells cell with
  | none =>
    have hcell : s.cell cell = {} := by rw [State.cell, tgetD, hget]; rfl
    rw [State.version, hcell] at hi
    cases ver <;> cases hi
  | some c =>
    have hcell : s.cell cell = c := by rw [State.cell, tgetD, hget]; rfl
    refine h (List.mem_map_of_mem (f := (·.1)) (a := (cell, c)) (List.mem_filter.mpr ⟨mem_of_tget hget, ?_⟩))
    rw [State.version, hcell] at hi hstate
    rw [List.any_eq_true]
    refine ⟨c.version ver, by cases ver <;> simp [Cell.version], ?_⟩
    rw [hi]
    simpa using hstate

/-! ### Barriers -/

theorem exitStep_cellsDropped (s : State) : ExitStep ctx l s (s.cellsDropped ctx) :=
  exitStep_each (fun t cell => exitStep_dropCell t cell) _ s

theorem barrierFree_default : ({} : Cell).BarrierFree ctx := ⟨by simp, by simp, by simp⟩

theorem barrierFree_cellsDropped (s : State) (cell : Nat) : ((s.cellsDropped ctx).cell cell).BarrierFree ctx := by
  cases hget : tget s.cells cell with
  | none =>
    have hcell : s.cell cell = {} := by rw [State.cell, tgetD, hget]; rfl
    exact (exitStep_cellsDropped (l := 0) s).barriers cell (hcell ▸ barrierFree_default)
  | some c =>
    exact each_reaches (P := fun t c => (t.cell c).BarrierFree ctx) (Q := fun _ => True) (fun _ _ _ => trivial)
      (fun t c _ => barrierFree_dropCell t c) (fun t c d _ h => (exitStep_dropCell (l := 0) t c).barriers d h) _ trivial cell
      (List.mem_map_of_mem (f := (·.1)) (mem_of_tget hget))

/-! ### Queues and ports -/

/-- A hall without the queue entries of a context. -/
def Hall.withoutQueue (ctx : BitVec 10) (h : Hall) : Hall :=
  { h with
    mq := h.mq.filter (·.ctx ≠ ctx), mqPops := h.mqPops.filter (·.ctx ≠ ctx), mqPush := h.mqPush.filter (·.1.ctx ≠ ctx)
    late := h.late + h.mq.countP (·.ctx = ctx) }

theorem hall_dropQueues (s : State) (ctx : BitVec 10) (h : Nat) : (s.dropQueues ctx).hall h = (s.hall h).withoutQueue ctx :=
  tgetD_map_of_default (Hall.withoutQueue ctx) {} rfl s.halls h

/-- A port without the capture of a context. -/
def Port.withoutCapture (ctx : BitVec 10) (p : Port) : Port :=
  match p.capture with
  | some (c, _, _) => if c = ctx then { p with capture := none, enabled := false, buffer := [] } else p
  | none => p

theorem port_portsDropped (s : State) (ctx : BitVec 10) (k : Nat) :
    (s.portsDropped ctx).port k = (s.port k).withoutCapture ctx :=
  tgetD_map_of_default (Port.withoutCapture ctx) {} rfl s.ports k

theorem capture_withoutCapture {ctx : BitVec 10} {p : Port} {y : BitVec 10 × Nat × Nat}
    (h : (p.withoutCapture ctx).capture = some y) : y.1 ≠ ctx := by
  unfold Port.withoutCapture at h
  split at h
  · next c _ _ hp =>
    split at h
    · cases h
    · next hc =>
      rw [hp, Option.some.injEq] at h
      rw [← h]
      exact hc
  · next hp => rw [hp] at h; cases h

/-! ### The marked context -/

theorem exitStep_exitBegun (s : State) : ExitStep ctx l s (each (s.cellsOf ctx) s fun s cell => s.savePromotion cell fun r => r.ctx = ctx) :=
  exitStep_each (fun _ _ => exitStep_savePromotion ..) _ s

theorem lifetime_marked (s : State) : ((s.marked ctx).ctx ctx).lifetime = (false, some s.now, []) := by
  rw [State.marked, ctx_updCtx, if_pos rfl]
  rfl

/-- Everything but the marks: versions, barriers and the journal. -/
theorem exitStep_marked {s t : State} (h : ExitStep ctx l s t) :
    (t.marked ctx).now = s.now ∧ (∀ c v, (s.version c v).LeftBy ctx → ((t.marked ctx).version c v).LeftBy ctx)
    ∧ EntryKept l s (t.marked ctx) :=
  ⟨h.now, h.versions, h.entry.trans (entryKept_of_journal rfl rfl)⟩

/-- What the agents, the queues and the ports hold is given up. -/
theorem exitStep_agentsDropped (s : State) : ExitStep ctx l s (((s.vestsDropped ctx).dropQueues ctx).portsDropped ctx) := by
  have hvests : ExitStep ctx l s (s.vestsDropped ctx) := exitStep_each (fun _ _ => exitStep_dropVest ..) _ s
  have hqueues (t : State) : ExitStep ctx l t (t.dropQueues ctx) := exitStep_of_eq rfl rfl rfl rfl rfl
  have hports (t : State) : ExitStep ctx l t (t.portsDropped ctx) := exitStep_of_eq rfl rfl rfl rfl rfl
  exact (hvests.trans (hqueues _)).trans (hports _)

theorem exitStep_exitDropped (s : State) : ExitStep ctx l (s.exitBegun ctx) (s.exitDropped ctx) :=
  ((exitStep_versionsDropped s _).trans (exitStep_cellsDropped _)).trans (exitStep_agentsDropped _)

theorem leftBy_exitDropped (s : State) (c : Nat) (v : Bool) : ((s.exitDropped ctx).version c v).LeftBy ctx := by
  by_cases hc : c ∈ s.cellsOf ctx
  · exact ((exitStep_cellsDropped (l := 0) _).trans (exitStep_agentsDropped _)).versions c v (leftBy_versionsDropped s _ hc v)
  · have hbegun := (exitStep_marked (ctx := ctx) (l := 0) (exitStep_exitBegun s)).2.1
    exact (exitStep_exitDropped (l := 0) s).versions c v (hbegun c v (leftBy_of_not_mem_cellsOf hc v))

theorem barrierFree_exitDropped (s : State) (c : Nat) : ((s.exitDropped ctx).cell c).BarrierFree ctx :=
  (exitStep_agentsDropped (l := 0) _).barriers c (barrierFree_cellsDropped _ c)

theorem now_exitDropped (s : State) : (s.exitDropped ctx).now = s.now :=
  (exitStep_exitDropped (l := 0) s).now.trans (exitStep_marked (ctx := ctx) (l := 0) (exitStep_exitBegun s)).1

theorem lifetime_exitDropped (s : State) : ((s.exitDropped ctx).ctx ctx).lifetime = (false, some s.now, []) := by
  rw [(exitStep_exitDropped (l := 0) s).lifetime, State.exitBegun, lifetime_marked, (exitStep_exitBegun (l := 0) s).now]

theorem entryKept_exitDropped (s : State) : EntryKept l s (s.exitDropped ctx) :=
  (exitStep_marked (exitStep_exitBegun s)).2.2.trans (exitStep_exitDropped (ctx := ctx) s).entry

end

/-! ### The end of the LAUNCH -/

theorem ports_finishSeq (s : State) (q : Nat) (x : BitVec 16) (status : Nat) : (s.finishSeq q x status).ports = s.ports := by
  obtain ⟨cp, e, h, -⟩ := finishSeq_eq_putEntry s q x status
  rw [h, ports_putEntry]

theorem hall_finishSeq (s : State) (q : Nat) (x : BitVec 16) (status h : Nat) :
    ((s.finishSeq q x status).hall h).outsideCaches = (s.hall h).outsideCaches := by
  obtain ⟨cp, e, hfinish, -⟩ := finishSeq_eq_putEntry s q x status
  rw [hfinish, hall_putEntry]
  rfl

/-- The LAUNCH that ends has the entry which the exit has kept. -/
theorem entry_of_finishSeq_launch {s t : State} {ctx : BitVec 16} {l : Nat} (h : EntryKept l s t) (hl : l < s.cp.nextSeq) {e : JEntry}
    (he : s.entrySeq l = some e) (hroom : (t.finishSeq l ctx 0).cp.nextSeq < l + journalSize) :
    ∃ e', (t.finishSeq l ctx 0).entrySeq l = some e' ∧ e'.state = 2 ∧ e'.status = 0 ∧ e'.done = t.now % 2 ^ 64
      ∧ e'.code = e.code := by
  have hnext : t.cp.nextSeq ≤ (t.finishSeq l ctx 0).cp.nextSeq := (exitStep_finishSeq (ctx := 0) (l := l) t l ctx 0).entry.1
  obtain ⟨y, hy, hcode⟩ := h.2 hl (hnext.trans hroom.le) e he
  have hseq : ({ y with state := statusState 0, status := 0, done := t.now % 2 ^ 64 } : JEntry).seq = l :=
    (entrySeq_eq_some_iff.mp hy).2
  rw [finishSeq_of_some hy]
  exact ⟨_, entrySeq_putEntry_same _ hseq, rfl, rfl, rfl, hcode⟩

theorem ctxCfgs_all_iff (s : State) (ctx : BitVec 10) :
    ((s.ctxCfgs ctx).all fun c => c.2.state = .exited) = true ↔ ∀ y ∈ s.cfgs, y.1 / 65536 = ctx.toNat → y.2.state = .exited := by
  unfold State.ctxCfgs
  simp only [List.all_eq_true, List.mem_filterMap, decide_eq_true_eq]
  constructor
  · intro h y hy hctx
    exact h (y.1 % 65536, y.2) ⟨y, hy, if_pos hctx⟩
  · rintro h x ⟨y, hy, hx⟩
    split_ifs at hx with hctx
    rw [← Option.some.inj hx]
    exact h y hy hctx

theorem execContextExit_of_ends {s : State} (hlive : (s.ctx s.choice.ctx).live = true)
    (hall : ∀ y ∈ s.cfgs, y.1 / 65536 = s.choice.ctx.toNat → y.2.state = .exited) :
    exec .contextExit s = .next (s.exitContext s.choice.ctx) := by
  change execContextExit s = _
  unfold execContextExit
  dsimp only
  rw [if_pos (by rw [hlive, (ctxCfgs_all_iff s s.choice.ctx).mpr hall]; rfl)]

theorem execContextExit_of_stays {s : State} (h : (s.ctx s.choice.ctx).live = false
      ∨ ∃ y ∈ s.cfgs, y.1 / 65536 = s.choice.ctx.toNat ∧ y.2.state ≠ .exited) :
    exec .contextExit s = .next s := by
  change execContextExit s = _
  unfold execContextExit
  dsimp only
  refine congrArg _ (if_neg fun hboth => ?_)
  obtain ⟨hlive, hall⟩ := Bool.and_eq_true_iff.mp hboth
  rcases h with h | ⟨y, hy, hctx, hstate⟩
  · rw [h] at hlive; cases hlive
  · exact hstate ((ctxCfgs_all_iff s s.choice.ctx).mp hall y hy hctx)

/-! ### The id returns -/

theorem tget_filter_key {α : Type} (p : Nat → Bool) (t : Tbl α) (k : Nat) :
    tget (t.filter fun y => p y.1) k = if p k then tget t k else none := by
  induction t with
  | nil => simp [tget]
  | cons y t ih =>
    obtain ⟨j, x⟩ := y
    by_cases hp : p j = true
    · rw [List.filter_cons_of_pos (by simpa using hp), tget, tget, ih]
      by_cases hk : k = j
      · subst hk; simp [hp]
      · simp [hk]
    · rw [List.filter_cons_of_neg (by simpa using hp), ih, tget]
      by_cases hk : k = j
      · subst hk; simp [hp]
      · simp [hk]

theorem execContextIdReissue_of_waits {s : State} {a : Nat} (ha : (s.ctx s.choice.ctx).exitedAt = some a)
    (h : s.now < a + 1250000 ∨ s.idQuiet s.choice.ctx = false) : exec .contextIdReissue s = .next s := by
  change execContextIdReissue s = _
  simp only [execContextIdReissue, ha]
  refine congrArg _ (if_pos ?_)
  rcases h with h | h
  · rw [decide_eq_true (show s.now < a + reissueAfter from h)]; rfl
  · rw [h, Bool.not_false, Bool.or_true]

theorem execContextIdReissue_of_due {s : State} {a : Nat} (ha : (s.ctx s.choice.ctx).exitedAt = some a)
    (hnow : a + 1250000 ≤ s.now) (hquiet : s.idQuiet s.choice.ctx = true) (hpending : s.cp.pending = []) :
    ∃ s', exec .contextIdReissue s = .next s' ∧ s'.ctxs = tdel s.ctxs s.choice.ctx.toNat
      ∧ s'.cfgs = s.cfgs.filter fun y => y.1 / 65536 ≠ s.choice.ctx.toNat := by
  change ∃ s', execContextIdReissue s = .next s' ∧ _
  have hlate : ¬s.now < a + reissueAfter := Nat.not_lt.mpr hnow
  simp only [execContextIdReissue, ha, hlate, hquiet, hpending, decide_false, Bool.not_true, Bool.or_self, Bool.false_eq_true,
    if_false, List.length_nil]
  exact ⟨_, rfl, rfl, rfl⟩

theorem contextsEnd : ContextsEnd := by
  intro s ctx x
  refine ⟨fun hlive hall hstop hexit hlaunch => ?_, execContextExit_of_stays, fun a ha => ⟨execContextIdReissue_of_waits ha, ?_⟩⟩
  · have hend := exitStep_finishSeq (ctx := ctx) (l := x.launch) (s.exitDropped ctx) x.launch (ctx.zeroExtend 16) 0
    have hlife := (hend.lifetime ctx).trans (lifetime_exitDropped s)
    obtain ⟨hgone, htime⟩ := Prod.mk.injEq .. ▸ hlife
    obtain ⟨hat, hadmissions⟩ := Prod.mk.injEq .. ▸ htime
    have hqueue (h : Nat) : ((s.exitDropped ctx).hall h) = Hall.withoutQueue ctx _ := hall_dropQueues _ ctx h
    refine ⟨_, (execContextExit_of_ends hlive hall).trans (congrArg _ (exitContext_eq hstop hexit)), hgone, hat, hadmissions,
      fun c v i hi => hend.versions c v (leftBy_exitDropped s c v) i hi,
      fun c => (hend.barriers c (barrierFree_exitDropped s c)).bars, fun h => ?_, fun k y hy => ?_, fun e he hroom => ?_⟩
    · have hhall := hall_finishSeq (s.exitDropped ctx) x.launch (ctx.zeroExtend 16) 0 h
      have hmq : ∀ y ∈ ((s.exitDropped ctx).hall h).mq, y.ctx ≠ ctx := fun y hy => by
        rw [hqueue] at hy
        exact of_decide_eq_true (List.mem_filter.mp hy).2
      have hpops : ∀ y ∈ ((s.exitDropped ctx).hall h).mqPops, y.ctx ≠ ctx := fun y hy => by
        rw [hqueue] at hy
        exact of_decide_eq_true (List.mem_filter.mp hy).2
      exact ⟨fun y hy => hmq y ((congrArg Hall.mq hhall :) ▸ hy), fun y hy => hpops y ((congrArg Hall.mqPops hhall :) ▸ hy)⟩
    · rw [State.port, ports_finishSeq] at hy
      exact capture_withoutCapture ((congrArg Port.capture (port_portsDropped _ ctx k)).symm.trans hy)
    · rw [← now_exitDropped (ctx := ctx) s]
      exact entry_of_finishSeq_launch (entryKept_exitDropped s) hlaunch he hroom
  · intro hnow hquiet hpending
    obtain ⟨s', hexec, hctxs, hcfgs⟩ := execContextIdReissue_of_due ha hnow hquiet hpending
    refine ⟨s', hexec, by rw [hctxs, tget_tdel, if_pos rfl], fun k hk => by rw [hctxs, tget_tdel, if_neg hk], fun k => ?_⟩
    rw [hcfgs, tget_filter_key fun k => decide (k / 65536 ≠ ctx.toNat)]
    by_cases hk : k / 65536 = ctx.toNat
    · simp only [hk, ne_eq, not_true_eq_false, decide_false, Bool.false_eq_true, if_false, if_true]
    · simp only [hk, ne_eq, not_false_eq_true, decide_true, if_true, if_false]

end Sys2Proof.Machine

/-! # Host acknowledgements and firmware activations (07:R139; 25:R358, R361, R371; 27:R384, R387) -/

namespace Sys2Proof.Machine

open Sys2Proof.Claims

/-! ### A chronograph entry in each hall (27:R384) -/

/-- A hall whose chronograph takes an entry, unless it is frozen. -/
def Hall.logged (h : Hall) (type word : Nat) : Hall :=
  if h.frozen then h
  else { h with
    chrono := tput h.chrono (h.chronoHead % 4096) (BitVec.ofNat 256 (word + type % 256 * 2 ^ 28))
    chronoHead := (h.chronoHead + 1) % 2 ^ 32 }

theorem hall_each_chrono {type : Nat} {word : Nat → Nat} {l : List Nat} (hl : l.Nodup) (s : State) (h : Nat) :
    (each l s fun s k => s.chrono k type (word s.now)).hall h
      = if h ∈ l then (s.hall h).logged type (word s.now) else s.hall h := by
  induction l generalizing s with
  | nil => simp [each]
  | cons k l ih =>
    obtain ⟨hk, hl⟩ := List.nodup_cons.mp hl
    have hrest := ih hl (s.chrono k type (word s.now))
    change (each l (s.chrono k type (word s.now)) fun s k => s.chrono k type (word s.now)).hall h = _
    rw [hrest]
    by_cases hh : h = k
    · subst hh
      rw [if_neg hk, if_pos List.mem_cons_self]
      exact State.hall_updHall_same ..
    · have hother : (s.chrono k type (word s.now)).hall h = s.hall h := State.hall_updHall_other _ _ hh
      rw [hother]
      exact if_congr (by simp [hh]) rfl rfl

theorem cp_each_chrono (type : Nat) (word : Nat → Nat) (l : List Nat) (s : State) :
    (each l s fun s k => s.chrono k type (word s.now)).cp = s.cp :=
  each_keeps (P := fun t : State => t.cp = s.cp) (f := fun s k => s.chrono k type (word s.now)) (fun _ _ h => h) l rfl

theorem now_each_chrono (type : Nat) (word : Nat → Nat) (l : List Nat) (s : State) :
    (each l s fun s k => s.chrono k type (word s.now)).now = s.now :=
  each_keeps (P := fun t : State => t.now = s.now) (f := fun s k => s.chrono k type (word s.now)) (fun _ _ h => h) l rfl

/-! ### Records that were queued -/

/-- What the CP's taking of records leaves: all but the journal and the records, the entry of a sequence number that no record
names, and the halls outside their caches. -/
structure RecordsTaken (seq : Nat) (new : List (BitVec 256)) (s t : State) : Prop where
  cp : t.cp = { s.cp with records := s.cp.records ++ new, journal := t.cp.journal }
  entry : ∀ e, s.entrySeq seq = some e → t.entrySeq seq = some e
  halls : ∀ h, (t.hall h).outsideCaches = (s.hall h).outsideCaches

theorem RecordsTaken.trans {seq : Nat} {a b : List (BitVec 256)} {s t u : State} (h : RecordsTaken seq a s t)
    (g : RecordsTaken seq b t u) : RecordsTaken seq (a ++ b) s u where
  cp := by rw [g.cp, h.cp, List.append_assoc]
  entry e he := g.entry e (h.entry e he)
  halls k := (g.halls k).trans (h.halls k)

theorem recordsTaken_updEntry (s : State) {seq q : Nat} (hq : q ≠ seq) {f : JEntry → JEntry} (hf : ∀ e, (f e).seq = e.seq) :
    RecordsTaken seq [] s (s.updEntry q f) := by
  cases h : s.entrySeq q with
  | none =>
    rw [updEntry_of_none h]
    exact ⟨by rw [List.append_nil], fun _ he => he, fun _ => rfl⟩
  | some e =>
    have hseq : (f e).seq = q := (hf e).trans (entrySeq_eq_some_iff.mp h).2
    rw [updEntry_of_some h]
    refine ⟨by rw [cp_putEntry, List.append_nil]; rfl, fun x hx => ?_, hall_putEntry s _⟩
    exact entrySeq_putEntry_of_entry hx (by rw [hseq, h]; simp) (by rw [hseq]; exact hq)

theorem recordsTaken_takeRecord (s : State) {seq : Nat} {launch : Option Nat} (h : launch ≠ some seq) (bits : BitVec 256) :
    RecordsTaken seq [bits] s (s.takeRecord launch bits) := by
  have hkept : RecordsTaken seq [bits] s { s with cp := { s.cp with records := s.cp.records ++ [bits] } } :=
    ⟨rfl, fun _ he => he, fun _ => rfl⟩
  unfold State.takeRecord
  dsimp only
  cases launch with
  | none => exact hkept
  | some q =>
    have hq : q ≠ seq := fun hq => h (congrArg some hq)
    dsimp only
    split
    · exact hkept.trans (recordsTaken_updEntry _ hq fun e => by split <;> rfl)
    · split
      · refine RecordsTaken.trans (b := []) (t := State.updCtx { s with cp := { s.cp with records := s.cp.records ++ [bits] } } _ _)
          ⟨rfl, fun _ he => he, fun _ => rfl⟩ (recordsTaken_updEntry _ hq fun _ => rfl)
      · exact hkept

theorem recordsTaken_each (l : List (Option Nat × BitVec 256)) {seq : Nat} (h : ∀ q ∈ l, q.1 ≠ some seq) (s : State) :
    RecordsTaken seq (l.map (·.2)) s (each l s fun s x => s.takeRecord x.1 x.2) := by
  induction l generalizing s with
  | nil => exact ⟨by rw [List.map_nil, List.append_nil]; rfl, fun _ he => he, fun _ => rfl⟩
  | cons x l ih =>
    exact (recordsTaken_takeRecord s (h x List.mem_cons_self) x.2).trans (ih (fun q hq => h q (List.mem_cons_of_mem _ hq)) _)

/-! ### The end of an activation -/

/-- A hall whose agent is done with a switch. -/
def Hall.settled (h : Hall) : Hall := { h with switching := false, switched := false }

/-- The CP when an activation is over: the records that were queued are taken. -/
def Cp.activated (x : Cp) (journal : Tbl JEntry) : Cp :=
  { x with activation := none, paused := none, queued := [], records := x.records ++ x.queued.map (·.2), journal := journal }

section

variable {s : State} {seq : Nat} (hqueued : ∀ q ∈ s.cp.queued, q.1 ≠ some seq)
include hqueued

theorem recordsTaken_endActivation :
    s.endActivation.cp = s.cp.activated s.endActivation.cp.journal
    ∧ (∀ e, s.entrySeq seq = some e → s.endActivation.entrySeq seq = some e)
    ∧ ∀ k, (s.endActivation.hall k).outsideCaches = (s.hall k).settled.outsideCaches := by
  obtain ⟨hcp, hentry, hhalls⟩ := recordsTaken_each s.cp.queued hqueued
    { s with
      cp := { s.cp with activation := none, paused := none, queued := [] }
      halls := s.halls.map fun x => (x.1, { x.2 with switching := false, switched := false })
      ports := s.ports.map fun x => (x.1, { x.2 with events := x.2.events ++ x.2.held, held := [] }) }
  refine ⟨hcp, hentry, fun k => (hhalls k).trans ?_⟩
  exact congrArg Hall.outsideCaches (tgetD_map_of_default Hall.settled {} rfl s.halls k)

/-- With nothing pending and nothing waiting, acceptance resumes and no command starts. -/
theorem resumeAcceptance_of_idle (hpending : s.cp.pending = []) (hwaiting : s.cp.waiting = []) :
    s.resumeAcceptance = s.endActivation := by
  obtain ⟨hcp, -, -⟩ := recordsTaken_endActivation hqueued
  have hnone : s.endActivation.cp.waiting = [] := by rw [hcp]; exact hwaiting
  have hstart : s.endActivation.startPending s.cp.pending.length = s.endActivation := by rw [hpending]; rfl
  unfold State.resumeAcceptance
  rw [hstart]
  dsimp only
  rw [hnone]
  rfl

end

theorem cp_finishSeq (s : State) (q : Nat) (x : BitVec 16) (status : Nat) :
    ∃ live nextSeq journal, (s.finishSeq q x status).cp = { s.cp with live := live, nextSeq := nextSeq, journal := journal } := by
  obtain ⟨cp, e, h, hcp⟩ := finishSeq_eq_putEntry s q x status
  refine ⟨cp.live, cp.nextSeq, tput s.cp.journal (e.seq % journalSize) e, ?_⟩
  rw [h, cp_putEntry, State.journaled, hcp]

/-- The command of an activation ends, and acceptance resumes: nothing pends and nothing waits. -/
theorem activationEnds {s : State} {seq : Nat} (hqueued : ∀ q ∈ s.cp.queued, q.1 ≠ some seq) (hpending : s.cp.pending = [])
    (hwaiting : s.cp.waiting = []) {status : Nat} (hstatus : status ≠ 0x0308) :
    let t := (s.finishSeq seq 0xFFFF status).resumeAcceptance
    t.cp.running = s.cp.running ∧ t.cp.fuseMin = s.cp.fuseMin ∧ t.cp.activation = none ∧ t.cp.paused = none
    ∧ t.cp.records = s.cp.records ++ s.cp.queued.map (·.2) ∧ EntryEnds s t seq status
    ∧ ∀ h, (t.hall h).outsideCaches = (s.hall h).settled.outsideCaches := by
  obtain ⟨live, nextSeq, journal, hcp⟩ := cp_finishSeq s seq 0xFFFF status
  have hqueued' : ∀ q ∈ (s.finishSeq seq 0xFFFF status).cp.queued, q.1 ≠ some seq := by rw [hcp]; exact hqueued
  have hidle : (s.finishSeq seq 0xFFFF status).resumeAcceptance = (s.finishSeq seq 0xFFFF status).endActivation :=
    resumeAcceptance_of_idle hqueued' (by rw [hcp]; exact hpending) (by rw [hcp]; exact hwaiting)
  obtain ⟨hcp', hentry, hhalls⟩ := recordsTaken_endActivation hqueued'
  rw [hidle]
  intro t
  have ht : t.cp = ({ s.cp with live := live, nextSeq := nextSeq, journal := journal } : Cp).activated t.cp.journal := by
    rw [← hcp]
    exact hcp'
  refine ⟨by rw [ht]; rfl, by rw [ht]; rfl, by rw [ht]; rfl, by rw [ht]; rfl, by rw [ht]; rfl, fun e he => ?_, fun h => ?_⟩
  · exact hentry _ (entryEnds_finishSeq s seq 0xFFFF hstatus e he)
  · have hsettled := congrArg Hall.settled (hall_finishSeq s seq 0xFFFF status h)
    exact (hhalls h).trans hsettled

/-! ### The event and its timeout -/

/-- The new image runs, and every hall has written FIRMWARE. -/
def State.switched (s : State) : State :=
  let v := (s.cp.slot (!s.cp.running)).secver
  each (upTo 8) { s with cp := { s.cp with running := !s.cp.running, fuseMin := max s.cp.fuseMin v } }
    fun s h => s.chrono h 0x11 (pack [⟨192, 64, s.now⟩, ⟨96, 32, v⟩])

section

variable {s : State} {seq : Nat} (hactivation : s.cp.activation = some seq)
include hactivation

theorem execActivationComplete_of_waits (h : (∃ since, s.cp.paused = some since ∧ since + 62500000 < s.now)
      ∨ ∃ h < 8, (s.hall h).switched = false) :
    exec .activationComplete s = .next s := by
  change execActivationComplete s = _
  simp only [execActivationComplete, hactivation]
  refine congrArg _ (if_pos ?_)
  rcases h with ⟨since, hsince, hlate⟩ | ⟨h, hh, hswitched⟩
  · rw [hsince]
    dsimp only
    rw [decide_eq_true (show since + pauseCycles < s.now from hlate), Bool.true_or]
  · have hall : ((upTo 8).all fun h => (s.hall h).switched) = false :=
      List.all_eq_false.mpr ⟨h, List.mem_range.mpr hh, by rw [hswitched]; exact Bool.false_ne_true⟩
    rw [hall, Bool.not_false, Bool.or_true]

theorem execActivationComplete_of_done (hlate : ¬∃ since, s.cp.paused = some since ∧ since + 62500000 < s.now)
    (hall : ∀ h < 8, (s.hall h).switched = true) :
    exec .activationComplete s = .next ((s.switched.finishSeq seq 0xFFFF Status.ok).resumeAcceptance) := by
  have hswitched : ((upTo 8).all fun h => (s.hall h).switched) = true :=
    List.all_eq_true.mpr fun h hh => hall h (List.mem_range.mp hh)
  change execActivationComplete s = _
  unfold execActivationComplete
  split
  · next hnone => rw [hactivation] at hnone; cases hnone
  · next q hq =>
    rw [hactivation, Option.some.injEq] at hq
    subst hq
    dsimp only
    refine congrArg _ (if_neg ?_)
    rw [hswitched, Bool.not_true, Bool.or_false]
    cases hpaused : s.cp.paused with
    | none => exact Bool.false_ne_true
    | some since => exact fun h => hlate ⟨since, hpaused, of_decide_eq_true h⟩

theorem execFwactivateTimeout_of_early {since : Nat} (hpaused : s.cp.paused = some since) (h : s.now < since + 62500000) :
    exec .fwactivateTimeout s = .next s := by
  change execFwactivateTimeout s = _
  simp only [execFwactivateTimeout, hactivation, hpaused]
  exact congrArg _ (if_pos h)

theorem execFwactivateTimeout_of_due {since : Nat} (hpaused : s.cp.paused = some since) (h : since + 62500000 ≤ s.now) :
    exec .fwactivateTimeout s = .next ((s.finishSeq seq 0xFFFF Status.notRunning).resumeAcceptance) := by
  change execFwactivateTimeout s = _
  simp only [execFwactivateTimeout, hactivation, hpaused]
  exact congrArg _ (if_neg (Nat.not_lt.mpr h))

end

theorem cp_switched (s : State) : s.switched.cp = { s.cp with
    running := !s.cp.running, fuseMin := max s.cp.fuseMin (s.cp.slot (!s.cp.running)).secver } :=
  cp_each_chrono 0x11 (fun now => pack [⟨192, 64, now⟩, ⟨96, 32, (s.cp.slot (!s.cp.running)).secver⟩]) _ _

theorem now_switched (s : State) : s.switched.now = s.now :=
  now_each_chrono 0x11 (fun now => pack [⟨192, 64, now⟩, ⟨96, 32, (s.cp.slot (!s.cp.running)).secver⟩]) _ _

theorem hall_switched (s : State) {h : Nat} (hh : h < 8) :
    s.switched.hall h = (s.hall h).logged 0x11 (pack [⟨192, 64, s.now⟩, ⟨96, 32, (s.cp.slot (!s.cp.running)).secver⟩]) :=
  (hall_each_chrono (word := fun now => pack [⟨192, 64, now⟩, ⟨96, 32, (s.cp.slot (!s.cp.running)).secver⟩]) List.nodup_range _ h).trans
    (if_pos (List.mem_range.mpr hh))

/-- The fields of a FIRMWARE entry (27:R384). -/
theorem firmwareEntry_fields (now version : Nat) :
    ((BitVec.ofNat 256 (pack [⟨192, 64, now⟩, ⟨96, 32, version⟩] + 0x11 % 256 * 2 ^ 28)).toNat / 2 ^ 28 % 256 = 0x11)
    ∧ (BitVec.ofNat 256 (pack [⟨192, 64, now⟩, ⟨96, 32, version⟩] + 0x11 % 256 * 2 ^ 28)).toNat / 2 ^ 192 = now % 2 ^ 64
    ∧ (BitVec.ofNat 256 (pack [⟨192, 64, now⟩, ⟨96, 32, version⟩] + 0x11 % 256 * 2 ^ 28)).toNat / 2 ^ 96 % 2 ^ 32
      = version % 2 ^ 32 := by
  rw [BitVec.toNat_ofNat]
  simp only [pack]
  omega

theorem execHostAcknowledgement_of_store {s : State} {y : HostStore} (hy : s.hostStores[s.choice.n]? = some y) (hread : y.read = none) :
    exec .hostAcknowledgement s
      = .next { s with hostStores := ldel s.hostStores s.choice.n, cp := { s.cp with replayRun := 0 } } := by
  change execHostAcknowledgement s = _
  simp only [execHostAcknowledgement, hy, hread]

theorem execHostAcknowledgement_of_read {s : State} {y : HostStore} (hy : s.hostStores[s.choice.n]? = some y) {seq : Nat}
    {ctx : BitVec 16} {status : Nat} (hread : y.read = some (seq, ctx, status)) (hpending : s.cp.pending = []) :
    exec .hostAcknowledgement s
      = .next (({ s with hostStores := ldel s.hostStores s.choice.n, cp := { s.cp with replayRun := 0 } } : State).finishSeq seq ctx
          status) := by
  change execHostAcknowledgement s = _
  simp only [execHostAcknowledgement, hy, hread]
  rw [hpending]
  rfl

theorem activationsAndAcknowledgements : ActivationsAndAcknowledgements := by
  intro s
  refine ⟨fun y hy => ⟨execHostAcknowledgement_of_store hy, fun _ _ _ => execHostAcknowledgement_of_read hy⟩,
    fun seq hactivation hpending hwaiting hqueued => ?_⟩
  intro late version
  refine ⟨execActivationComplete_of_waits hactivation, fun hlate hall => ?_, fun since hpaused =>
    ⟨execFwactivateTimeout_of_early hactivation hpaused, fun hdue => ?_⟩⟩
  · have hversion : (s.cp.slot (!s.cp.running)).secver = version := by
      change (if (!s.cp.running) = true then s.cp.fw1 else s.cp.fw0).secver = (if s.cp.running = true then s.cp.fw0 else s.cp.fw1).secver
      cases s.cp.running <;> rfl
    have hcp := cp_switched s
    obtain ⟨hrunning, hfuse, hnone, hpaused, hrecords, hends, hhalls⟩ := activationEnds (s := s.switched) (seq := seq)
      (by rw [hcp]; exact hqueued) (by rw [hcp]; exact hpending) (by rw [hcp]; exact hwaiting) (status := Status.ok) (by decide)
    rw [hcp] at hrunning hfuse hrecords
    rw [hversion] at hfuse
    refine ⟨_, execActivationComplete_of_done hactivation hlate hall, hrunning, hfuse, hnone, hpaused, hrecords, fun e he => ?_,
      fun h hh hfrozen => ?_⟩
    · have he' : s.switched.entrySeq seq = some e := by rw [State.entrySeq, hcp]; exact he
      rw [← now_switched s]
      exact hends e he'
    · have hhall := hhalls h
      rw [hall_switched s hh, hversion, Hall.logged, hfrozen] at hhall
      refine ⟨(congrArg Hall.chronoHead hhall :), _, ?_, firmwareEntry_fields s.now version⟩
      exact (congrArg (fun x => tget x.chrono ((s.hall h).chronoHead % 4096)) hhall :).trans (tget_tput_same _ _ _)
  · obtain ⟨hrunning, hfuse, hnone, hpaused', -, hends, -⟩ := activationEnds (s := s) (seq := seq) hqueued hpending hwaiting
      (status := Status.notRunning) (by decide)
    exact ⟨_, execFwactivateTimeout_of_due hactivation hpaused hdue, hrunning, hfuse, hnone, hpaused', hends⟩

/-- Settles O47: every step of an exit keeps what an earlier one has cleared (`ExitStep`), and an activation ends with a journal
entry and the records that were queued. -/
theorem contextsAndActivations : Obligations.ContextsAndActivations := ⟨contextsEnd, activationsAndAcknowledgements⟩

end Sys2Proof.Machine

/-! # A loader pass whose read raises a fault (05:R70; 07:R139; 21:R310, R328; 27:R382)

The row of a loader pass lies on an offline channel. Its read raises MEM_UNCORRECTABLE, and the record of that fault goes to the
context's ring, which its root maps to the host. A send at SYSTEM waits for the host's acknowledgement of that store, and the pass
sends nothing in its turn, though its edge had sixteen credits and nothing was owed to the host before. -/

namespace Sys2Proof.Machine.OfflineLoader

open Sys2Proof.Claims

/-- The root table in host memory: entry 0 leads back to the table and maps page 0 to the host, entry 1 maps page 1 to DRAM. -/
def root : Nat := 2 ^ 47
def hostPage : Nat := 2 ^ 63 + 2 ^ 60 + 2 ^ 47
def dramPage : Nat := 2 ^ 63 + 2 ^ 60

def tableBytes : Tbl Byte :=
  (upTo 16).map fun i => (i, BitVec.ofNat 8 ((hostPage + dramPage * 2 ^ 64) / 2 ^ (8 * i)))

/-- A descriptor that reads one lane from virtual address 2^16: INT1, one slice. -/
def descriptor : Row :=
  BitVec.ofNat 1024 (2 ^ 35 + 1 * 2 ^ 64 + 65536 * 2 ^ (64 * 3) + 128 * 2 ^ (64 * 4))

def pass : Pass :=
  { slot := 0, mask := 0, ind := false, ctx := 1, iter := 0, ver := false, taint := false, paddr := none, desc := descriptor }

def edge : Edge := { dest := .internal 1 0, scope := .system }

def loader : Node := { role := .loader, outputs := [some edge], passes := [pass] }

/-- The pass runs on cell 0 of context 1; channel 0 of hall 0, which holds the row, is offline. The CP changes firmware, and queues
the record of the fault. -/
def state : State :=
  { cells := [(0, { v0 := { state := .live, owner := some (1, 0), nodes := [loader] }, tlb := [⟨root, 65536, 65536, 0, 0, true⟩] })]
    halls := [(0, { channels := [(0, { offline := true })] })]
    hostMem := tableBytes
    ctxs := [(1, { live := true, root := some root, ring := some (0, 0) })]
    cp := { activation := some 0 } }

def rowStep : RowStep := ⟨0, 0, 0, 0⟩

theorem passStep_pass : passStep pass false = some rowStep := by decide +kernel

theorem runningPass : RunningPass state loader pass := by
  refine ⟨rfl, ?_, rfl, rfl, rfl, .inl rfl⟩
  rintro ⟨i, n, hn, hheld, -⟩
  have hn : [loader][i]? = some n := hn
  cases i with
  | zero => exact hheld (Option.some.inj hn ▸ rfl)
  | succ i => cases hn

/-- The number of packets in flight, where there is a state. -/
def packets : Host.Outcome State Fault Refusal → Option Nat
  | .next s => some s.net.length
  | _ => none

def packetsRead : Got (Row × Bool) → Option Nat
  | .ok s _ => some s.net.length
  | _ => none

/-- The row that the pass reads next. -/
def read : Got (Row × Bool) :=
  state.rowIn (passVia state pass) ((descOf pass.desc).s.loc ((descOf pass.desc).stepRow false rowStep))

theorem packetsRead_read : packetsRead read = some 0 := by decide +kernel

theorem packets_loaderPass : packets (exec .loaderPass state) = some 0 := by decide +kernel

theorem exists_read : ∃ s row poison, read = .ok s (row, poison) := by
  have h := packetsRead_read
  cases hread : read with
  | ok s x => exact ⟨s, x.1, x.2, rfl⟩
  | _ => rw [hread] at h; cases h

end Sys2Proof.Machine.OfflineLoader

namespace Sys2Proof.Machine

open Sys2Proof.Claims OfflineLoader

theorem not_loaderPasses : ¬LoaderPasses := by
  intro h
  obtain ⟨s, row, poison, hread⟩ := exists_read
  have hsends := h state s loader pass rowStep row poison runningPass rfl passStep_pass rfl hread
  obtain ⟨hfull, -⟩ := hsends edge 1 0 rfl rfl rfl rfl (by decide)
  obtain ⟨t, hexec, hnet, -⟩ := hfull (le_refl 16)
  have hpackets := packets_loaderPass
  rw [hexec, packets, hnet, List.length_append, List.length_map, List.length_range] at hpackets
  exact absurd (Option.some.inj hpackets) (by omega)

/-- Refutes O44: a loader pass whose read raises a fault with a record at the host does not send over an edge of SYSTEM scope in
its turn, whatever credits it has (`OfflineLoader.state`). -/
theorem not_passesRun : ¬Obligations.PassesRun := fun ⟨hloader, _⟩ => not_loaderPasses hloader

end Sys2Proof.Machine

/-! # What faults, promotions and journal entries leave of the placement (07:R124; 23:R339, R345, R346) -/

namespace Sys2Proof.Machine

open Sys2Proof.Claims

/-! ### The part of the state that a placement is about -/

/-- A configuration without what a stop of its context sets (23:R346, R348); one that is placed may be stopped. -/
def CfgRt.outsideStop (c : CfgRt) : CfgRt :=
  { c with
    state := if c.state = .ready ∨ c.state = .live then .draining else c.state
    deadline := 0, bySwap := false, byHold := false, resumed := false, stopPending := false, candSince := none, count := 0 }

/-- A cell's versions, tasks, entries and firings, and whether its issue is stopped. -/
def Cell.work (c : Cell) : Version × Version × Tbl Task × List MatchEntry × List Firing × Bool :=
  (c.v0, c.v1, c.tasks, c.store, c.readyFirings, c.issueStopped)

/-- The decisions of a hall's scheduler. -/
def Hall.agenda (h : Hall) : Nat × Nat × Option Nat × List Nat := (h.lastDecision, h.due, h.reserved, h.reserveQueue)

/-- A configuration of a key, without what a stop sets. -/
def State.cfgAt (s : State) (key : Nat) : Option CfgRt := (tget s.cfgs key).map CfgRt.outsideStop

/-- Nothing that a placement is about differs, but what a stop sets, and no packet is lost. -/
structure Background (s t : State) : Prop where
  now : t.now = s.now
  work : ∀ c, (t.cell c).work = (s.cell c).work
  agenda : ∀ h, (t.hall h).agenda = (s.hall h).agenda
  net : ∀ p ∈ s.net, p ∈ t.net
  cfgs : ∀ key, t.cfgAt key = s.cfgAt key

theorem Background.refl (s : State) : Background s s := ⟨rfl, fun _ => rfl, fun _ => rfl, fun _ h => h, fun _ => rfl⟩

theorem Background.trans {s t u : State} (h : Background s t) (g : Background t u) : Background s u where
  now := g.now.trans h.now
  work c := (g.work c).trans (h.work c)
  agenda k := (g.agenda k).trans (h.agenda k)
  net p hp := g.net p (h.net p hp)
  cfgs k := (g.cfgs k).trans (h.cfgs k)

theorem background_ite {p : Prop} [Decidable p] {s t u : State} (ht : Background s t) (hu : Background s u) :
    Background s (if p then t else u) := by
  split
  · exact ht
  · exact hu

theorem background_each {α : Type} {f : State → α → State} (hf : ∀ t x, Background t (f t x)) (l : List α) (s : State) :
    Background s (each l s f) :=
  each_keeps (P := Background s) (fun t x h => h.trans (hf t x)) l (.refl s)

/-! ### The primitives -/

theorem background_of_eq {s t : State} (hnow : t.now = s.now) (hcells : t.cells = s.cells) (hhalls : t.halls = s.halls)
    (hnet : t.net = s.net) (hcfgs : t.cfgs = s.cfgs) : Background s t where
  now := hnow
  work c := by rw [State.cell, hcells]; rfl
  agenda h := by rw [State.hall, hhalls]; rfl
  net := by rw [hnet]; exact fun _ h => h
  cfgs k := by rw [State.cfgAt, hcfgs]; rfl

theorem Cell.work_of_outsideCaches {c d : Cell} (h : d.outsideCaches = c.outsideCaches) : d.work = c.work :=
  (congrArg Cell.work h :)

theorem Hall.agenda_of_outsideCaches {h k : Hall} (hk : k.outsideCaches = h.outsideCaches) : k.agenda = h.agenda :=
  (congrArg Hall.agenda hk :)

theorem background_of_cachesOnly {s t : State} (h : CachesOnly s t) : Background s t where
  now := h.now
  work c := Cell.work_of_outsideCaches (h.cells c)
  agenda k := Hall.agenda_of_outsideCaches (h.halls k)
  net := by rw [h.net]; exact fun _ h => h
  cfgs k := by rw [State.cfgAt, h.cfgs]; rfl

theorem background_updCell {s : State} {c : Nat} {f : Cell → Cell} (hf : (f (s.cell c)).work = (s.cell c).work) :
    Background s (s.updCell c f) where
  now := rfl
  work k := by
    by_cases hk : k = c
    · subst hk
      rw [State.cell_updCell_same, hf]
    · rw [State.cell_updCell_other _ _ hk]
  agenda _ := rfl
  net _ h := h
  cfgs _ := rfl

theorem background_updCell_of_eq {s : State} {c : Nat} {f : Cell → Cell} (hf : ∀ x, (f x).work = x.work) :
    Background s (s.updCell c f) :=
  background_updCell (hf _)

theorem Background.updCell_of_eq {s u : State} (h : Background s u) {c : Nat} {f : Cell → Cell} (hf : ∀ x, (f x).work = x.work) :
    Background s (u.updCell c f) :=
  h.trans (background_updCell_of_eq hf)

theorem background_updHall {s : State} {h : Nat} {f : Hall → Hall} (hf : (f (s.hall h)).agenda = (s.hall h).agenda) :
    Background s (s.updHall h f) where
  now := rfl
  work _ := rfl
  agenda k := by
    by_cases hk : k = h
    · subst hk
      rw [State.hall_updHall_same, hf]
    · rw [State.hall_updHall_other _ _ hk]
  net _ h := h
  cfgs _ := rfl

theorem background_send (s : State) (p : Packet) : Background s (s.send p) :=
  ⟨rfl, fun _ => rfl, fun _ => rfl, fun _ h => List.mem_append_left _ h, fun _ => rfl⟩

theorem background_updCtx (s : State) (x : BitVec 10) (f : Ctx → Ctx) : Background s (s.updCtx x f) :=
  background_of_eq rfl rfl rfl rfl rfl

theorem background_chrono (s : State) (h type word : Nat) : Background s (s.chrono h type word) := by
  refine background_updHall ?_
  split <;> rfl

/-- Configurations change in what a stop sets. -/
theorem background_cfgs_map {s : State} {f : Nat → CfgRt → CfgRt} (hf : ∀ k c, (f k c).outsideStop = c.outsideStop) :
    Background s { s with cfgs := s.cfgs.map fun x => (x.1, f x.1 x.2) } where
  now := rfl
  work _ := rfl
  agenda _ := rfl
  net _ h := h
  cfgs k := by
    rw [State.cfgAt, tget_map f, Option.map_map]
    exact congrArg (fun g => (tget s.cfgs k).map g) (funext (hf k))

/-! ### Journal entries and records -/

/-- A change of the CP alone, then the write of an entry. -/
theorem background_cp_putEntry (s : State) (cp : Cp) (e : JEntry) : Background s (({ s with cp := cp } : State).putEntry e) := by
  obtain ⟨t, ht, hput⟩ := cachesOnly_journaled { s with cp := cp } e
  rw [hput]
  have hjournaled : Background s (({ s with cp := cp } : State).journaled e) := background_of_eq rfl rfl rfl rfl rfl
  exact (hjournaled.trans (background_of_cachesOnly ht)).trans (background_of_eq rfl rfl rfl rfl rfl)

theorem background_updEntry (s : State) (q : Nat) (f : JEntry → JEntry) : Background s (s.updEntry q f) := by
  cases h : s.entrySeq q with
  | none => rw [updEntry_of_none h]; exact .refl s
  | some e => rw [updEntry_of_some h]; exact background_cp_putEntry s s.cp _

theorem background_finishSeq (s : State) (q : Nat) (x : BitVec 16) (status : Nat) : Background s (s.finishSeq q x status) := by
  obtain ⟨cp, e, h, -⟩ := finishSeq_eq_putEntry s q x status
  rw [h]
  exact background_cp_putEntry s cp e

theorem background_writeHost (a n v : Nat) (s : State) : Background s (s.writeHost a n v) := by
  induction n generalizing a v s with
  | zero => exact .refl s
  | succ n ih =>
    rw [State.writeHost]
    refine Background.trans ?_ (ih (a + 1) (v / 256) _)
    exact background_of_eq rfl rfl rfl rfl rfl

theorem background_writeAny (s : State) (pa n v : Nat) : Background s (s.writeAny pa n v) := by
  unfold State.writeAny
  refine background_ite ?_ (background_of_cachesOnly (cachesOnly_writeHome ..))
  exact (background_writeHost _ n v s).trans (background_of_eq rfl rfl rfl rfl rfl)

theorem background_ringRecord (s : State) (x : BitVec 10) (bits : Nat) : Background s (s.ringRecord x bits) := by
  unfold State.ringRecord
  dsimp only
  split
  · exact .refl s
  · split
    · exact ((background_writeAny ..).trans (background_writeAny ..)).trans (background_updCtx ..)
    · exact .refl s

theorem background_takeRecord (s : State) (launch : Option Nat) (bits : BitVec 256) : Background s (s.takeRecord launch bits) := by
  unfold State.takeRecord
  dsimp only
  refine Background.trans (t := { s with cp := { s.cp with records := s.cp.records ++ [bits] } })
    (background_of_eq rfl rfl rfl rfl rfl) ?_
  cases launch with
  | none => exact .refl _
  | some q =>
    exact background_ite (background_updEntry ..)
      (background_ite ((background_updCtx ..).trans (background_updEntry ..)) (.refl _))

theorem background_cpRecord (s : State) (x : BitVec 10) (bits : Nat) : Background s (s.cpRecord x bits) := by
  unfold State.cpRecord
  exact background_ite (background_of_eq rfl rfl rfl rfl rfl) (background_takeRecord ..)

theorem background_record (s : State) (r : Record) : Background s (s.record r) :=
  ((background_chrono ..).trans (background_ringRecord ..)).trans (background_cpRecord ..)

/-- What a stop of a context does to a configuration (23:R348, R353). -/
def CfgRt.stopBegun (now : Nat) (c : CfgRt) : CfgRt :=
  match c.state with
  | .ready | .live => { c with state := .draining, deadline := now + 125000, bySwap := false, byHold := false, resumed := false }
  | .loading => { c with stopPending := true, deadline := now + 125000, bySwap := false, byHold := false, resumed := false }
  | .draining | .scanning | .saving => { c with bySwap := false, byHold := false, resumed := false }
  | .saved => { c with bySwap := false, byHold := false, resumed := false, candSince := none, count := 0 }
  | _ => c

theorem outsideStop_stopBegun (now : Nat) (c : CfgRt) : (c.stopBegun now).outsideStop = c.outsideStop := by
  unfold CfgRt.stopBegun
  split <;> rename_i h <;> simp [CfgRt.outsideStop, h]

theorem background_beginStop (s : State) (x : BitVec 10) : Background s (s.beginStop x) := by
  have hcfgs := background_cfgs_map (s := s) (f := fun k c => if k / 65536 = x.toNat then c.stopBegun s.now else c)
    fun k c => by split <;> [exact outsideStop_stopBegun s.now c; rfl]
  have hmap : s.cfgs.map (fun y => (y.1, if y.1 / 65536 = x.toNat then y.2.stopBegun s.now else y.2))
      = s.cfgs.map fun (k, c) => if k / 65536 = x.toNat then (k, c.stopBegun s.now) else (k, c) :=
    List.map_congr_left fun ⟨k, c⟩ _ => apply_ite (fun z => (k, z)) (k / 65536 = x.toNat) _ _
  rw [hmap] at hcfgs
  exact background_ite (.refl s) (hcfgs.trans (background_updCtx ..))

theorem background_nodeFault (s : State) (n : NodeRef) (cause addr info : Nat) : Background s (s.nodeFault n cause addr info) := by
  unfold State.nodeFault
  exact (background_record ..).trans (background_ite (background_beginStop ..) (.refl _))

/-! ### Promotions -/

theorem background_replyProm (s : State) (cell : Nat) (r : PromReq) : Background s (s.replyProm cell r) :=
  (background_of_cachesOnly (cachesOnly_pushTo ..)).trans (background_send ..)

theorem background_promoteFor (s : State) (cell n : Nat) (l : List PromReq) : Background s (s.promoteFor cell n l) := by
  unfold State.promoteFor
  refine Background.trans ?_ (background_each (fun t r => background_replyProm t cell r) l _)
  exact (background_of_cachesOnly (cachesOnly_promoteWrites s cell)).updCell_of_eq fun _ => rfl

theorem background_finishOne (s : State) (cell : Nat) : Background s (s.finishOne cell) := by
  unfold State.finishOne
  cases (s.cell cell).prom with
  | none => exact .refl s
  | some p =>
    refine Background.trans ?_ (background_promoteFor ..)
    exact background_updCell_of_eq fun _ => rfl

theorem background_savePromotion (s : State) (cell : Nat) (target : PromReq → Bool) :
    Background s (s.savePromotion cell target) := by
  unfold State.savePromotion
  refine Background.trans ?_ (background_promoteFor ..)
  exact (background_finishOne s cell).updCell_of_eq fun _ => rfl

theorem background_settlePromotions (cell k : Nat) (s : State) : Background s (s.settlePromotions cell k) := by
  induction k generalizing s with
  | zero => exact .refl s
  | succ k ih =>
    unfold State.settlePromotions
    dsimp only
    split
    · exact background_finishOne s cell
    · refine Background.trans ?_ (ih _)
      exact (background_finishOne s cell).updCell_of_eq fun _ => rfl

theorem background_flushL1 (s : State) (cell : Nat) : Background s (s.flushL1 cell) := by
  unfold State.flushL1
  exact (background_of_cachesOnly (cachesOnly_cleanAllL1 ..)).updCell_of_eq fun _ => rfl

end Sys2Proof.Machine

/-! # What the barriers' retry and the end of a stop leave of a version that is given up (17:R272, R273; 23:R339, R350) -/

namespace Sys2Proof.Machine

open Sys2Proof.Claims

/-- A cell's version is EMPTY, with its epoch open, and nothing on the cell is its own (05:R81, 23:R350). -/
structure Cell.GaveUp (c : Cell) (ver : Bool) : Prop where
  state : (c.version ver).state = .empty
  epochOpen : (c.version ver).epochOpen = true
  tasks : ∀ y ∈ c.tasks, y.2.ver ≠ ver
  store : ∀ e ∈ c.store, e.ver ≠ ver
  firings : ∀ f ∈ c.readyFirings, f.ver ≠ ver

theorem Cell.GaveUp.givenUp {s : State} {cell : Nat} {ver : Bool} (h : (s.cell cell).GaveUp ver) : GivenUp s cell ver :=
  ⟨h.state, h.epochOpen, h.tasks, h.store, h.firings⟩

theorem Cell.GaveUp.of_work {c d : Cell} {ver : Bool} (h : c.GaveUp ver) (hcd : d.work = c.work) : d.GaveUp ver := by
  obtain ⟨hv0, hv1, htasks, hstore, hfirings, -⟩ : d.v0 = c.v0 ∧ d.v1 = c.v1 ∧ d.tasks = c.tasks ∧ d.store = c.store
      ∧ d.readyFirings = c.readyFirings ∧ d.issueStopped = c.issueStopped := by simpa [Cell.work] using hcd
  have hversion : d.version ver = c.version ver := by cases ver <;> assumption
  exact ⟨hversion ▸ h.state, hversion ▸ h.epochOpen, htasks ▸ h.tasks, hstore ▸ h.store, hfirings ▸ h.firings⟩

/-- A step after the save of a cell: no configuration changes but in what a stop sets, and a version that is given up
stays so. -/
structure SettleStep (s t : State) : Prop where
  cfgs : ∀ key, t.cfgAt key = s.cfgAt key
  gaveUp : ∀ c ver, (s.cell c).GaveUp ver → (t.cell c).GaveUp ver

theorem SettleStep.refl (s : State) : SettleStep s s := ⟨fun _ => rfl, fun _ _ h => h⟩

theorem SettleStep.trans {s t u : State} (h : SettleStep s t) (g : SettleStep t u) : SettleStep s u where
  cfgs k := (g.cfgs k).trans (h.cfgs k)
  gaveUp c ver hc := g.gaveUp c ver (h.gaveUp c ver hc)

theorem Background.settleStep {s t : State} (h : Background s t) : SettleStep s t :=
  ⟨h.cfgs, fun c _ hc => hc.of_work (h.work c)⟩

theorem settleStep_ite {p : Prop} [Decidable p] {s t u : State} (ht : SettleStep s t) (hu : SettleStep s u) :
    SettleStep s (if p then t else u) := by
  split
  · exact ht
  · exact hu

theorem settleStep_each {α : Type} {f : State → α → State} (hf : ∀ t x, SettleStep t (f t x)) (l : List α) (s : State) :
    SettleStep s (each l s f) :=
  each_keeps (P := SettleStep s) (fun t x h => h.trans (hf t x)) l (.refl s)

theorem settleStep_updCell {s : State} {c : Nat} {f : Cell → Cell}
    (hf : ∀ ver, (s.cell c).GaveUp ver → (f (s.cell c)).GaveUp ver) : SettleStep s (s.updCell c f) where
  cfgs _ := rfl
  gaveUp k ver h := by
    by_cases hk : k = c
    · subst hk
      rw [State.cell_updCell_same]
      exact hf ver h
    · rw [State.cell_updCell_other _ _ hk]
      exact h

theorem SettleStep.updCell_of_eq {s u : State} (h : SettleStep s u) {c : Nat} {f : Cell → Cell} (hf : ∀ x, (f x).work = x.work) :
    SettleStep s (u.updCell c f) :=
  h.trans (background_updCell_of_eq hf).settleStep

/-! ### A task that waits no more -/

theorem settleStep_updNode (s : State) (c : Nat) (v : Bool) (k : Nat) (f : Node → Node) : SettleStep s (s.updNode c v k f) := by
  unfold State.updNode State.updVersion
  refine settleStep_updCell fun ver h => ?_
  cases v <;> cases ver <;> exact ⟨h.state, h.epochOpen, h.tasks, h.store, h.firings⟩

/-- A task takes the place of one of its version. -/
theorem Cell.GaveUp.putTask {c : Cell} {ver : Bool} (h : c.GaveUp ver) {slot rr : Nat} {at_ : Option Nat} {t t' : Task}
    (ht : tget c.tasks slot = some t) (hver : t'.ver = t.ver) :
    ({ c with tasks := tput c.tasks slot t', rr := rr, issuedAt := at_ } : Cell).GaveUp ver where
  state := by cases ver <;> exact h.state
  epochOpen := by cases ver <;> exact h.epochOpen
  tasks y hy := by
    rcases mem_tput hy with rfl | hy
    · exact hver ▸ h.tasks _ (mem_of_tget ht)
    · exact h.tasks y hy
  store := h.store
  firings := h.firings

theorem ver_fallThrough (t : Task) : t.fallThrough.ver = t.ver := by
  unfold Task.fallThrough
  split
  · split_ifs <;> rfl
  · rfl

theorem tasks_updNode (s : State) (c : Nat) (v : Bool) (k : Nat) (f : Node → Node) (d : Nat) :
    ((s.updNode c v k f).cell d).tasks = (s.cell d).tasks := by
  unfold State.updNode State.updVersion
  by_cases hd : d = c
  · subst hd
    rw [State.cell_updCell_same]
    cases v <;> rfl
  · rw [State.cell_updCell_other _ _ hd]

theorem tasks_retired (s : State) (t : Task) : ((s.retired t).cell s.focus.toNat).tasks = (s.cell s.focus.toNat).tasks := by
  unfold State.retired State.updCell0
  exact (congrArg Cell.tasks (State.cell_updCell_same ..)).trans (tasks_updNode ..)

theorem settleStep_retired (s : State) (t : Task) : SettleStep s (s.retired t) := by
  unfold State.retired State.updCell0
  exact (settleStep_updNode ..).updCell_of_eq fun _ => rfl

theorem settleStep_issued {s : State} {t t' : Task} (ht : s.task s.here = some t) (hver : t'.ver = t.ver) (delay : Nat) :
    SettleStep s (s.issued t' delay) := by
  have hput (u : State) (slot rr : Nat) (at_ : Option Nat) (x : Task) (hu : tget (u.cell s.focus.toNat).tasks slot = some t)
      (hx : x.ver = t.ver) :
      SettleStep u (u.updCell s.focus.toNat fun c => { c with tasks := tput c.tasks slot x, rr := rr, issuedAt := at_ }) :=
    settleStep_updCell fun ver h => h.putTask hu hx
  unfold State.issued State.updCell0
  exact (settleStep_retired s _).trans (hput _ _ _ _ _ ((congrArg (tget · s.slot) (tasks_retired s _)).trans ht) hver)

theorem settleStep_complete {s : State} {t t' : Task} (ht : s.task s.here = some t) (hver : t'.ver = t.ver) :
    SettleStep s (s.complete t') :=
  settleStep_issued ht ((ver_fallThrough t').trans hver) 1

theorem settleStep_asTask {s : State} {cell slot : Nat} {f : State → Task → State}
    (hf : ∀ u t, u.task u.here = some t → SettleStep u (f u t)) : SettleStep s (s.asTask cell slot f) := by
  have hback (u : State) (rr : Nat) (at_ : Option Nat) :
      Background u (u.updCell cell fun x => { x with rr := rr, issuedAt := at_ }) := background_updCell_of_eq fun _ => rfl
  have hfocus (u : State) (focus : BitVec 18) (slot : Nat) : SettleStep u { u with focus := focus, slot := slot } :=
    Background.settleStep (background_of_eq rfl rfl rfl rfl rfl)
  unfold State.asTask
  dsimp only
  refine SettleStep.trans (SettleStep.trans ?_ (hback _ _ _).settleStep) (hfocus _ _ _)
  split
  · next t ht => exact (hfocus s _ slot).trans (hf _ t ht)
  · exact hfocus s _ slot

theorem settleStep_endWait (s : State) (home : Nat) (w : BarWaiter) (poison : Bool) : SettleStep s (s.endWait home w poison) := by
  unfold State.endWait
  refine settleStep_ite (settleStep_asTask fun u t ht => ?_)
    ((background_of_cachesOnly (cachesOnly_pushTo ..)).trans (background_send ..)).settleStep
  split
  · exact settleStep_ite (settleStep_complete ht rfl) (.refl u)
  · exact .refl u

/-! ### Barrier entries -/

theorem settleStep_completePhase (s : State) (home bid : Nat) (e : BarEntry) : SettleStep s (s.completePhase home bid e) := by
  unfold State.completePhase
  refine SettleStep.trans ?_ (settleStep_each (fun u w => settleStep_endWait u home w e.poison) _ _)
  exact (SettleStep.refl s).updCell_of_eq fun _ => rfl

theorem settleStep_barArrive {s u : State} {home : Nat} {t : Token} (h : s.barArrive home t = some u) : SettleStep s u := by
  have hset (bid : Nat) (e : BarEntry) : Background s (s.updCell home fun c => c.setBar bid e) :=
    background_updCell_of_eq fun _ => rfl
  unfold State.barArrive at h
  dsimp only at h
  split at h
  · cases h
  · next e hfor =>
    rw [← BarEntry.counted] at h
    generalize e.counted (bitsOf t.payload.toNat 36 24) (bitsOf t.payload.toNat 8 1 = 1) = e' at h
    split_ifs at h
    all_goals rw [← Option.some.inj h]
    · exact (SettleStep.refl s).updCell_of_eq fun _ => rfl
    · exact ((hset _ e').trans (background_nodeFault ..)).settleStep
    · exact settleStep_completePhase ..
    · exact (hset _ _).settleStep

theorem settleStep_barWait_done {s u : State} {home : Nat} {w : BarWaiter} (h : s.barWait home w = .done u) :
    SettleStep s u := by
  unfold State.barWait at h
  split at h
  · cases h
  · split_ifs at h
    rw [← WaitOut.done.inj h]
    exact (SettleStep.refl s).updCell_of_eq fun _ => rfl

theorem settleStep_barWait_parked {s u : State} {home : Nat} {w : BarWaiter} (h : s.barWait home w = .parked u) :
    SettleStep s u := by
  unfold State.barWait at h
  split at h
  · cases h
  · split_ifs at h
    rw [← WaitOut.parked.inj h]
    exact (SettleStep.refl s).updCell_of_eq fun _ => rfl

theorem settleStep_retryArrival (s : State) (home : Nat) (t : Token) :
    SettleStep s (match s.barArrive home t with
      | some s => s
      | none => s.updCell home fun c => { c with barHeld := c.barHeld ++ [t] }) := by
  split
  · next h => exact settleStep_barArrive h
  · exact (SettleStep.refl s).updCell_of_eq fun _ => rfl

theorem settleStep_retryWait (s : State) (home : Nat) (w : BarWaiter) :
    SettleStep s (match s.barWait home w with
      | .done s => s.endWait home w false
      | .parked s => s
      | .held | .refused => s.updCell home fun c => { c with barHeldWaits := c.barHeldWaits ++ [w] }) := by
  have hheld : SettleStep s (s.updCell home fun c => { c with barHeldWaits := c.barHeldWaits ++ [w] }) :=
    (SettleStep.refl s).updCell_of_eq fun _ => rfl
  split
  · next h => exact (settleStep_barWait_done h).trans (settleStep_endWait ..)
  · next h => exact settleStep_barWait_parked h
  · exact hheld
  · exact hheld

theorem settleStep_barRetry (home k : Nat) (s : State) : SettleStep s (s.barRetry home k) := by
  induction k generalizing s with
  | zero => exact .refl s
  | succ k ih =>
    have hround : SettleStep s (each (s.cell home).barHeldWaits
        (each (s.cell home).barHeld (s.updCell home fun c => { c with barHeld := [], barHeldWaits := [] }) fun s t =>
          match s.barArrive home t with
          | some s => s
          | none => s.updCell home fun c => { c with barHeld := c.barHeld ++ [t] })
        fun s w =>
          match s.barWait home w with
          | .done s => s.endWait home w false
          | .parked s => s
          | .held | .refused => s.updCell home fun c => { c with barHeldWaits := c.barHeldWaits ++ [w] }) := by
      refine SettleStep.trans (SettleStep.trans ?_ (settleStep_each (fun u t => settleStep_retryArrival u home t) _ _))
        (settleStep_each (fun u w => settleStep_retryWait u home w) _ _)
      exact (SettleStep.refl s).updCell_of_eq fun _ => rfl
    unfold State.barRetry
    exact settleStep_ite hround (hround.trans (ih _))

theorem settleStep_settleBars (s : State) (home : Nat) : SettleStep s (s.settleBars home) := settleStep_barRetry ..

/-! ### The end of a stop -/

theorem settleStep_updCfg {s : State} {ctx : BitVec 10} {i : Nat} {f : CfgRt → CfgRt} (hf : ∀ c, (f c).outsideStop = c.outsideStop) :
    SettleStep s (s.updCfg ctx i f) where
  cfgs key := by
    unfold State.updCfg
    split
    · rfl
    · next c hc =>
      rw [State.cfgAt, tget_tput]
      split
      · next h => rw [Option.map_some, hf, State.cfgAt, h]; exact (congrArg (Option.map CfgRt.outsideStop) hc).symm
      · rfl
  gaveUp c ver h := by rw [State.cell_updCfg]; exact h

theorem settleStep_updHall (s : State) (h : Nat) (f : Hall → Hall) : SettleStep s (s.updHall h f) :=
  ⟨fun _ => rfl, fun _ _ h => h⟩

theorem settleStep_noteCandidate (s : State) (ctx : BitVec 10) (i : Nat) : SettleStep s (s.noteCandidate ctx i) := by
  unfold State.noteCandidate
  split
  · exact .refl s
  · refine settleStep_ite (SettleStep.trans ?_ (settleStep_updHall ..)) (.refl s)
    exact settleStep_updCfg fun _ => rfl

theorem settleStep_settleStop (s : State) (ctx : BitVec 10) : SettleStep s (s.settleStop ctx) := by
  unfold State.settleStop
  refine settleStep_ite (.refl s) (SettleStep.trans ?_ (settleStep_each (fun u q => (background_finishSeq u q ..).settleStep) _ _))
  exact (background_updCtx ..).settleStep

end Sys2Proof.Machine

/-! # The save of a cell, part by part (23:R339, R350 to R353) -/

namespace Sys2Proof.Machine

open Sys2Proof.Claims

/-! ### The parts of a save -/

/-- The promotion that a save asks for, and the write-back of the cell's level 1 (23:R350). -/
def State.saveFlushed (s : State) (ctx : BitVec 10) (g : CfgRt) (cell : Nat) : State :=
  (s.savePromotion cell fun r => r.ctx = ctx && g.places.any (·.gid = r.target)).flushL1 cell

/-- The version that a configuration has on a cell. -/
def CfgRt.verOn (g : CfgRt) (cell : Nat) : Bool := match g.places.find? (·.cell = cell) with | some p => p.ver | none => false

/-- The context has no other configuration on the cell. -/
def State.lastThere (s : State) (ctx : BitVec 10) (cell : Nat) (ver : Bool) : Bool :=
  match ((s.cell cell).version (!ver)).cfgOf with | some (k, _) => k ≠ ctx | none => true

/-- The packets that a scan-out takes from the links, and the others (23:R351). -/
def State.linkShare (s : State) (cell : Nat) (ver link : Bool) : List Packet × List Packet :=
  if link then s.linkPackets cell ver else ([], s.net)

/-- The barrier arrivals that a scan-out takes from the links, and the packets that stay. -/
def State.arrivalShare (s : State) (ctx : BitVec 10) (cell : Nat) (ver link last : Bool) : List Token × List Packet :=
  if link && last then linkArrivals (s.linkShare cell ver link).2 cell ctx else ([], (s.linkShare cell ver link).2)

/-- The links give up what a scan-out takes. -/
def State.linksTaken (s : State) (ctx : BitVec 10) (cell : Nat) (ver link last : Bool) : State :=
  ({ s with net := (s.arrivalShare ctx cell ver link last).2 } : State).updCell cell fun c =>
    { c with barHeld := c.barHeld ++ (s.arrivalShare ctx cell ver link last).1 }

/-- Slots of a version's tasks. -/
def Cell.taskSlots (c : Cell) (ver : Bool) : List Nat := (c.tasks.filter fun y => y.2.ver = ver).map (·.1)

/-- The waits of a cell's tasks at a barrier. -/
def BarWaiter.of (cell : Nat) (slots : List Nat) (w : BarWaiter) : Bool := w.task.cell = cell && slots.contains w.task.slot

/-- A saved cell whose image is that of a cell, or is kept by its other version. -/
def Saved.sibling (cell : Nat) (y : Saved) : Bool := y.cell = cell || y.at_ = some cell

/-- What a saved cell holds of the cell itself (23:R352). -/
def State.savedImage (s : State) (ctx : BitVec 10) (g : CfgRt) (cell : Nat) (ver last : Bool) : Cell :=
  ((s.cell cell).imageOf (g.spec.layoutRegions (((s.cell cell).version ver).nodes.map (·.gid)) ++
    if last then (s.ctxCfgs ctx).flatMap fun c =>
      (c.2.saved.filter (Saved.sibling cell)).flatMap fun y => c.2.spec.layoutRegions (y.nodes.map (·.gid))
    else [])).dropWaits (BarWaiter.of cell ((s.cell cell).taskSlots ver))

/-- A cell as it is saved (23:R352). -/
def State.savedCell (s : State) (ctx : BitVec 10) (g : CfgRt) (cell : Nat) (ver last : Bool) (links : List Packet) : Saved :=
  let x := s.cell cell
  let v := x.version ver
  { cell := cell, nodes := v.nodes, bindings := v.bindings, handlers := v.handlers
    store := x.store.filter fun e => e.ver = ver, arrivals := (x.arrivals.filter fun a => a.1 = ver).map (·.2)
    tasks := (x.tasks.filter fun y => y.2.ver = ver).map fun y => (y.1, y.2.saved)
    readyFirings := x.readyFirings.filter fun f => f.ver = ver
    ops := x.ops.filter fun o => (x.taskSlots ver).contains o.slot && o.deferred
    links := links, image := s.savedImage ctx g cell ver last, at_ := if last then none else some cell }

/-- A cell whose version is saved and EMPTY (23:R350, R352). -/
def State.withoutSaved (s : State) (cell : Nat) (ver last : Bool) (u : Saved) (c : Cell) : Cell :=
  let slots := (s.cell cell).taskSlots ver
  let c := c.emptyVersion ver
  let c :=
    { c with
      tasks := c.tasks.filter fun y => y.2.ver ≠ ver
      store := c.store.filter fun e => e.ver ≠ ver
      arrivals := c.arrivals.filter fun a => a.1 ≠ ver
      readyFirings := c.readyFirings.filter fun f => f.ver ≠ ver
      ops := c.ops.filter fun o => !slots.contains o.slot
      deferred := c.deferred.filter fun d => !u.ops.any (·.id = d.2.2)
      flips := c.flips.filter fun k => !slots.contains k
      issueStopped := false, clockStopped := false }
  if last then
    { c with bars := [], barHeld := [], barHeldWaits := [], barWaiters := []
             slots := c.slots.filter fun y => s.slotRuns cell y.2 }
  else c

/-- The waits of saved tasks leave their homes (23:R354). -/
def State.waitsLeft (s : State) (gone : BarWaiter → Bool) : State :=
  each ((s.cells.filter fun y => (y.2.barWaiters ++ y.2.barHeldWaits).any gone).map (·.1)) s fun s home =>
    (s.updCell home fun c => c.dropWaits gone).settleBars home

/-- A configuration that has saved a cell. -/
def CfgRt.withSaved (cell : Nat) (u : Saved) (g : CfgRt) : CfgRt :=
  { g.putPlaces (g.places.filter (·.cell ≠ cell)) with
    saved := g.saved ++ [u]
    savingCells := g.savingCells.filter (· ≠ cell), scanCells := g.scanCells.filter (· ≠ cell) }

/-- What the context's last save on a cell brings to a saved cell: the image, and the waits that are gone (23:R352). -/
def Saved.refreshed (cell : Nat) (last : Bool) (image : Cell) (gone : BarWaiter → Bool) (y : Saved) : Saved :=
  let y := if last && y.sibling cell then { y with image := image, at_ := none } else y
  { y with image := y.image.dropWaits gone }

/-- The saved cells of a context take what a save brings. -/
def State.savedRefreshed (s : State) (ctx : BitVec 10) (keep : Saved → Saved) : State :=
  { s with cfgs := s.cfgs.map fun (k, g) =>
      (k, if k / 65536 = ctx.toNat then { g with saved := g.saved.map keep } else g) }

/-- A save, from the state in which the links have given up what it takes. -/
def State.savedFrom (s : State) (ctx : BitVec 10) (i : Nat) (g : CfgRt) (cell : Nat) (ver last : Bool) (links : List Packet) : State :=
  let u := s.savedCell ctx g cell ver last links
  let gone := BarWaiter.of cell ((s.cell cell).taskSlots ver)
  ((((s.updCell cell (s.withoutSaved cell ver last u)).waitsLeft gone).updCfg ctx i (CfgRt.withSaved cell u)).savedRefreshed ctx
    (Saved.refreshed cell last (s.savedImage ctx g cell ver last) gone)).settleSave ctx i

theorem saveCell_eq {s : State} {ctx : BitVec 10} {i : Nat} {g : CfgRt} (h : s.cfg ctx i = some g) (cell : Nat) (link : Bool) :
    s.saveCell ctx i cell link =
      let f := s.saveFlushed ctx g cell
      let ver := g.verOn cell
      let last := f.lastThere ctx cell ver
      (f.linksTaken ctx cell ver link last).savedFrom ctx i g cell ver last (f.linkShare cell ver link).1 := by
  unfold State.saveCell
  rw [h]
  rfl

/-! ### What is saved -/

theorem background_saveFlushed (s : State) (ctx : BitVec 10) (g : CfgRt) (cell : Nat) : Background s (s.saveFlushed ctx g cell) :=
  (background_savePromotion ..).trans (background_flushL1 ..)

theorem work_linksTaken (s : State) (ctx : BitVec 10) (cell : Nat) (ver link last : Bool) (c : Nat) :
    ((s.linksTaken ctx cell ver link last).cell c).work = (s.cell c).work := by
  unfold State.linksTaken
  by_cases hc : c = cell
  · subst hc
    rw [State.cell_updCell_same]
    rfl
  · rw [State.cell_updCell_other _ _ hc]
    rfl

theorem saves_savedCell {s t : State} {cell : Nat} (h : (t.cell cell).work = (s.cell cell).work) (ctx : BitVec 10) (g : CfgRt)
    (ver last : Bool) (links : List Packet) : Saves s cell ver (t.savedCell ctx g cell ver last links) := by
  obtain ⟨hv0, hv1, htasks, hstore, hfirings, -⟩ : (t.cell cell).v0 = (s.cell cell).v0 ∧ (t.cell cell).v1 = (s.cell cell).v1
      ∧ (t.cell cell).tasks = (s.cell cell).tasks ∧ (t.cell cell).store = (s.cell cell).store
      ∧ (t.cell cell).readyFirings = (s.cell cell).readyFirings ∧ (t.cell cell).issueStopped = (s.cell cell).issueStopped := by
    simpa [Cell.work] using h
  have hversion : (t.cell cell).version ver = s.version cell ver := by cases ver <;> assumption
  refine ⟨rfl, congrArg Version.nodes hversion, congrArg (List.filter _) hstore, congrArg (List.filter _) hfirings, ?_⟩
  intro i x hx hver
  refine ⟨x.saved, List.mem_map.mpr ⟨(i, x), List.mem_filter.mpr ⟨htasks ▸ hx, decide_eq_true hver⟩, rfl⟩, rfl⟩

theorem gaveUp_withoutSaved (s : State) (cell : Nat) (ver last : Bool) (u : Saved) (c : Cell) :
    (s.withoutSaved cell ver last u c).GaveUp ver := by
  have hversion : (s.withoutSaved cell ver last u c).version ver = (c.emptyVersion ver).version ver := by
    cases last <;> cases ver <;> rfl
  rw [version_emptyVersion_same] at hversion
  refine ⟨by rw [hversion]; rfl, by rw [hversion]; rfl, ?_, ?_, ?_⟩
  all_goals cases last <;> exact fun y hy => of_decide_eq_true (List.mem_filter.mp hy).2

theorem settleStep_waitsLeft (s : State) (gone : BarWaiter → Bool) : SettleStep s (s.waitsLeft gone) := by
  unfold State.waitsLeft
  refine settleStep_each (fun t home => ?_) _ s
  refine SettleStep.trans ?_ (settleStep_settleBars _ home)
  exact (SettleStep.refl t).updCell_of_eq fun _ => rfl

/-! ### The configuration after a save -/

theorem cfg_of_cfgAt {s t : State} {ctx : BitVec 10} {i : Nat} {g : CfgRt} (h : t.cfgAt (cfgKey ctx i) = s.cfgAt (cfgKey ctx i))
    (hg : s.cfg ctx i = some g) : ∃ g', t.cfg ctx i = some g' ∧ g'.outsideStop = g.outsideStop := by
  have hs : s.cfgAt (cfgKey ctx i) = some g.outsideStop := by
    rw [State.cfgAt]
    exact congrArg (Option.map CfgRt.outsideStop) hg
  exact Option.map_eq_some_iff.mp (h.trans hs)

theorem state_of_outsideStop {c d : CfgRt} (h : d.outsideStop = c.outsideStop) (hc : c.outsideStop.state ≠ .draining) :
    d.state = c.state := by
  have hstate : d.outsideStop.state = c.outsideStop.state := congrArg CfgRt.state h
  have hplain (x : CfgRt) (hx : x.outsideStop.state ≠ .draining) : x.outsideStop.state = x.state := by
    simp only [CfgRt.outsideStop] at hx ⊢
    split_ifs at hx ⊢ <;> trivial
  rw [← hplain c hc, ← hplain d (hstate ▸ hc), hstate]

/-- A configuration that has saved a cell, and brings its image to the context's other saved cells. -/
theorem cfg_savedRefreshed {s : State} {ctx : BitVec 10} {i : Nat} {g : CfgRt} (h : s.cfg ctx i = some g) (keep : Saved → Saved) :
    ∃ keep', (keep' = keep ∨ keep' = id) ∧ (s.savedRefreshed ctx keep).cfg ctx i = some { g with saved := g.saved.map keep' } := by
  have hget : (s.savedRefreshed ctx keep).cfg ctx i
      = some (if cfgKey ctx i / 65536 = ctx.toNat then { g with saved := g.saved.map keep } else g) := by
    have hmap := tget_map (fun k (g : CfgRt) => if k / 65536 = ctx.toNat then { g with saved := g.saved.map keep } else g) s.cfgs
      (cfgKey ctx i)
    rw [show tget s.cfgs (cfgKey ctx i) = some g from h] at hmap
    exact hmap
  by_cases hctx : cfgKey ctx i / 65536 = ctx.toNat
  · exact ⟨keep, .inl rfl, by rw [hget, if_pos hctx]⟩
  · exact ⟨id, .inr rfl, by rw [hget, if_neg hctx, List.map_id]⟩

/-- The end of a save: SAVED with the last cell, SAVING when nothing is left to scan (23:R350, R351). -/
structure SaveSettled (g g' : CfgRt) : Prop where
  saved : g'.saved = g.saved
  places : g'.places = g.places
  whole : g.savingCells = [] → g.scanCells = [] → (g.state = .saving ∨ g.state = .scanning) → g'.state = .saved
  rest : g.savingCells ≠ [] → g.scanCells = [] → (g.state = .saving ∨ g.state = .scanning) → g'.state = .saving

theorem settleSave_settled {s : State} {ctx : BitVec 10} {i : Nat} {g : CfgRt} (h : s.cfg ctx i = some g) :
    ∃ g', (s.settleSave ctx i).cfg ctx i = some g' ∧ SaveSettled g g' := by
  unfold State.settleSave
  rw [h]
  dsimp only
  split_ifs with hwhole hscan
  · simp only [Bool.and_eq_true, Bool.or_eq_true, decide_eq_true_eq, List.isEmpty_iff] at hwhole
    obtain ⟨⟨-, hsaving⟩, -⟩ := hwhole
    have hset := State.cfg_updCfg_same h fun c => { c with state := .saved, candSince := none, count := 0 }
    obtain ⟨g', hg', hout⟩ := cfg_of_cfgAt
      (((settleStep_noteCandidate _ ctx i).trans (settleStep_settleStop _ ctx)).cfgs (cfgKey ctx i)) hset
    refine ⟨g', hg', (congrArg CfgRt.saved hout :), (congrArg CfgRt.places hout :), fun _ _ _ => ?_, fun hne => absurd hsaving hne⟩
    exact state_of_outsideStop hout (by simp [CfgRt.outsideStop])
  · simp only [Bool.and_eq_true, decide_eq_true_eq, List.isEmpty_iff] at hscan
    refine ⟨_, State.cfg_updCfg_same h _, rfl, rfl, fun hs hc ho => ?_, fun _ _ _ => rfl⟩
    simp [hs, hc, ho] at hwhole
  · refine ⟨g, h, rfl, rfl, fun hs hc ho => ?_, fun hs hc ho => ?_⟩
    · simp [hs, hc, ho] at hwhole
    · exact ho.resolve_right fun ho => by simp [hc, ho] at hscan

theorem settleStep_settleSave_gaveUp {s : State} {cell : Nat} {ver : Bool} (h : (s.cell cell).GaveUp ver) (ctx : BitVec 10) (i : Nat) :
    ((s.settleSave ctx i).cell cell).GaveUp ver := by
  unfold State.settleSave
  split
  · exact h
  · split_ifs
    · refine ((settleStep_noteCandidate _ ctx i).trans (settleStep_settleStop _ ctx)).gaveUp cell ver ?_
      rw [State.cell_updCfg]
      exact h
    · rw [State.cell_updCfg]
      exact h
    · exact h

end Sys2Proof.Machine

/-! # What the save of a cell leaves (23:R350 to R353) -/

namespace Sys2Proof.Machine

open Sys2Proof.Claims

/-- A configuration's cell is saved: the claim's outcome, for a version of the cell. -/
def CellSaved (s s' : State) (ctx : BitVec 10) (k : Nat) (g : CfgRt) (cell : Nat) (ver : Bool) : Prop :=
  ∃ g' u, s'.cfg ctx k = some g' ∧ u ∈ g'.saved ∧ Saves s cell ver u ∧ GivenUp s' cell ver
    ∧ (∀ v ∈ g'.saved, v.cell ≠ cell → ∃ w ∈ g.saved, w.cell = v.cell ∧ w.nodes = v.nodes ∧ w.tasks = v.tasks)
    ∧ ((∀ d ∈ g.savingCells ++ g.scanCells, d = cell) → (g.state = .saving ∨ g.state = .scanning) →
      g'.state = .saved ∧ ∀ q ∈ g'.places, q.cell ≠ cell)
    ∧ ((∃ d ∈ g.savingCells, d ≠ cell) → (∀ d ∈ g.scanCells, d = cell) → (g.state = .saving ∨ g.state = .scanning) →
      g'.state = .saving)

/-- What a saved cell holds of its version. -/
def Saved.content (y : Saved) : Nat × List Node × List MatchEntry × List (Nat × Task) × List Firing :=
  (y.cell, y.nodes, y.store, y.tasks, y.readyFirings)

theorem content_refreshed (cell : Nat) (last : Bool) (image : Cell) (gone : BarWaiter → Bool) (y : Saved) :
    (y.refreshed cell last image gone).content = y.content := by
  unfold Saved.refreshed
  dsimp only
  split <;> rfl

theorem saves_of_content {s : State} {cell : Nat} {ver : Bool} {u v : Saved} (h : Saves s cell ver u)
    (hv : v.content = u.content) : Saves s cell ver v := by
  obtain ⟨hcell, hnodes, hstore, htasks, hfirings⟩ : v.cell = u.cell ∧ v.nodes = u.nodes ∧ v.store = u.store ∧ v.tasks = u.tasks
      ∧ v.readyFirings = u.readyFirings := by simpa [Saved.content] using hv
  obtain ⟨gcell, gnodes, gstore, gfirings, gtasks⟩ := h
  exact ⟨hcell.trans gcell, hnodes.trans gnodes, hstore.trans gstore, hfirings.trans gfirings, by rw [htasks]; exact gtasks⟩

theorem filter_ne_eq_nil_iff (l : List Nat) (cell : Nat) : l.filter (· ≠ cell) = [] ↔ ∀ d ∈ l, d = cell := by
  simp [List.filter_eq_nil_iff]

/-- A state whose configurations and cells are as before but for what a stop sets. -/
structure WorkKept (s t : State) : Prop where
  work : ∀ c, (t.cell c).work = (s.cell c).work
  cfgs : ∀ key, t.cfgAt key = s.cfgAt key

theorem WorkKept.trans {s t u : State} (h : WorkKept s t) (g : WorkKept t u) : WorkKept s u :=
  ⟨fun c => (g.work c).trans (h.work c), fun key => (g.cfgs key).trans (h.cfgs key)⟩

theorem workKept_linksTaken (s : State) (ctx : BitVec 10) (cell : Nat) (ver link last : Bool) :
    WorkKept s (s.linksTaken ctx cell ver link last) :=
  ⟨work_linksTaken s ctx cell ver link last, fun _ => rfl⟩

theorem cellSaved_savedFrom {s t : State} (h : WorkKept s t) {ctx : BitVec 10} {k : Nat} {g g1 : CfgRt}
    (hg : s.cfg ctx k = some g) (cell : Nat) (ver last : Bool) (links : List Packet) :
    CellSaved s (t.savedFrom ctx k g1 cell ver last links) ctx k g cell ver := by
  have hsaves := saves_savedCell (h.work cell) ctx g1 ver last links
  have hgave : ((t.updCell cell (t.withoutSaved cell ver last (t.savedCell ctx g1 cell ver last links))).cell cell).GaveUp ver := by
    rw [State.cell_updCell_same]
    exact gaveUp_withoutSaved ..
  unfold State.savedFrom
  dsimp only
  generalize t.savedCell ctx g1 cell ver last links = u at hsaves hgave ⊢
  generalize hgone : BarWaiter.of cell ((t.cell cell).taskSlots ver) = gone
  have hleft := settleStep_waitsLeft (t.updCell cell (t.withoutSaved cell ver last u)) gone
  obtain ⟨g2, hg2, hout⟩ := cfg_of_cfgAt ((hleft.cfgs (cfgKey ctx k)).trans (h.cfgs (cfgKey ctx k))) hg
  obtain ⟨keep, hkeep, hg3⟩ := cfg_savedRefreshed (State.cfg_updCfg_same hg2 (CfgRt.withSaved cell u))
    (Saved.refreshed cell last (t.savedImage ctx g1 cell ver last) gone)
  obtain ⟨g', hg', hend⟩ := settleSave_settled hg3
  have hcontent (y : Saved) : (keep y).content = y.content := by
    rcases hkeep with rfl | rfl
    · exact content_refreshed ..
    · rfl
  have hsaved : g'.saved = (g.saved ++ [u]).map keep := by
    have hg2 : g2.saved = g.saved := (congrArg CfgRt.saved hout :)
    rw [hend.saved, ← hg2]
    rfl
  have hstate (ho : g.state = .saving ∨ g.state = .scanning) : g2.state = g.state :=
    state_of_outsideStop hout (by rcases ho with ho | ho <;> simp [CfgRt.outsideStop, ho])
  have hsaving : g2.savingCells = g.savingCells := (congrArg CfgRt.savingCells hout :)
  have hscan : g2.scanCells = g.scanCells := (congrArg CfgRt.scanCells hout :)
  refine ⟨g', keep u, hg', ?_, saves_of_content hsaves (hcontent u), ?_, ?_, ?_, ?_⟩
  · rw [hsaved]
    exact List.mem_map_of_mem (List.mem_append_right _ (List.mem_singleton_self u))
  · refine Cell.GaveUp.givenUp (settleStep_settleSave_gaveUp ?_ ctx k)
    change (((State.updCfg _ ctx k _).cell cell).GaveUp ver)
    rw [State.cell_updCfg]
    exact hleft.gaveUp cell ver hgave
  · intro v hv hne
    rw [hsaved] at hv
    obtain ⟨w, hw, rfl⟩ := List.mem_map.mp hv
    obtain ⟨hcell, hnodes, -, htasks, -⟩ : (keep w).cell = w.cell ∧ (keep w).nodes = w.nodes ∧ (keep w).store = w.store
        ∧ (keep w).tasks = w.tasks ∧ (keep w).readyFirings = w.readyFirings := by simpa [Saved.content] using hcontent w
    rcases List.mem_append.mp hw with hw | hw
    · exact ⟨w, hw, hcell.symm, hnodes.symm, htasks.symm⟩
    · rw [hcell, List.mem_singleton.mp hw] at hne
      exact absurd hsaves.1 hne
  · intro hall ho
    have hplaces : g'.places = g2.places.filter (·.cell ≠ cell) := hend.places
    refine ⟨hend.whole ?_ ?_ ((hstate ho).symm ▸ ho), fun q hq => ?_⟩
    · exact (filter_ne_eq_nil_iff g2.savingCells cell).mpr fun d hd => hall d (List.mem_append_left _ (hsaving ▸ hd))
    · exact (filter_ne_eq_nil_iff g2.scanCells cell).mpr fun d hd => hall d (List.mem_append_right _ (hscan ▸ hd))
    · rw [hplaces] at hq
      exact of_decide_eq_true (List.mem_filter.mp hq).2
  · rintro ⟨d, hd, hne⟩ hall ho
    refine hend.rest ?_ ?_ ((hstate ho).symm ▸ ho)
    · intro hnil
      exact hne ((filter_ne_eq_nil_iff g2.savingCells cell).mp hnil d (hsaving.symm ▸ hd))
    · exact (filter_ne_eq_nil_iff g2.scanCells cell).mpr fun d hd => hall d (hscan ▸ hd)

theorem verOn_of_find {g : CfgRt} {cell : Nat} {p : Place} (h : g.places.find? (fun p => decide (p.cell = cell)) = some p) :
    g.verOn cell = p.ver := by
  unfold CfgRt.verOn
  rw [h]

theorem cellSaved_saveCell {s t : State} (h : Background s t) {ctx : BitVec 10} {k : Nat} {g : CfgRt} (hg : s.cfg ctx k = some g)
    {cell : Nat} {p : Place} (hp : g.places.find? (fun p => decide (p.cell = cell)) = some p) (link : Bool) :
    CellSaved s (t.saveCell ctx k cell link) ctx k g cell p.ver := by
  obtain ⟨g1, hg1, hout⟩ := cfg_of_cfgAt (h.cfgs (cfgKey ctx k)) hg
  have hplaces : g1.places = g.places := (congrArg CfgRt.places hout :)
  rw [saveCell_eq hg1, verOn_of_find (hplaces ▸ hp)]
  have hflushed := h.trans (background_saveFlushed t ctx g1 cell)
  refine cellSaved_savedFrom (WorkKept.trans ⟨hflushed.work, hflushed.cfgs⟩ ?_) hg cell p.ver _ _
  exact workKept_linksTaken ..

end Sys2Proof.Machine

/-! # Saves, scan-outs and deadlines (23:R347, R348, R350 to R353; 24:R357) -/

namespace Sys2Proof.Machine

open Sys2Proof.Claims

/-! ### CELL_SAVE -/

theorem opsOwed_iff (s : State) (cell : Nat) (ver : Bool) :
    s.opsOwed cell ver = true ↔ ∃ o ∈ (s.cell cell).ops, o.deferred = false ∧ ∃ t, tget (s.cell cell).tasks o.slot = some t ∧ t.ver = ver := by
  unfold State.opsOwed
  rw [List.any_eq_true]
  refine exists_congr fun o => and_congr_right fun _ => ?_
  cases htask : tget (s.cell cell).tasks o.slot <;> simp

theorem flying_iff (s : State) (c : Cell) :
    c.flights.any (fun f => decide (s.now < f.until_)) = true ↔ ∃ f ∈ c.flights, s.now < f.until_ := by
  simp

/-- A save of a version waits (23:R350). -/
def State.saveWaits (s : State) (cell : Nat) (ver : Bool) : Bool :=
  s.bankWritten cell || s.waveOwed cell ver || s.opsOwed cell ver || (s.cell cell).flights.any fun f => decide (s.now < f.until_)

theorem exec_cellSave {s : State} {ctx : BitVec 10} {k : Nat} {g : CfgRt} {l : List (BitVec 10 × Nat × CfgRt)} {p : Place}
    (h : s.savers s.choice.cell.toNat false = (ctx, k, g) :: l)
    (hp : g.places.find? (fun p => decide (p.cell = s.choice.cell.toNat)) = some p) :
    exec .cellSave s = .next (if s.saveWaits s.choice.cell.toNat p.ver then s else s.saveCell ctx k s.choice.cell.toNat false) := by
  rw [← verOn_of_find hp]
  change execCellSave s = _
  unfold execCellSave
  dsimp only
  rw [h]
  rfl

/-! ### SCAN_COMPLETE -/

/-- A scan-out waits for the work in flight of its cell (23:R351). -/
def State.scanWaits (s : State) (cell : Nat) (ver : Bool) : Bool :=
  (s.cell cell).flights.any (fun f => decide (s.now < f.until_)) || (s.cell cell).regionOp.isSome
    || (s.cell cell).ops.any (fun o => !o.deferred) || s.bankWritten cell || s.waveOwed cell ver

/-- The promotion of a scan-out, and the stop of its clock (23:R351). -/
def State.scanStopped (s : State) (ctx : BitVec 10) (g : CfgRt) (cell : Nat) : State :=
  (s.savePromotion cell fun r => r.ctx = ctx && g.places.any fun p => p.cell = cell && p.gid = r.target).updCell cell fun c =>
    { c with clockStopped := true }

theorem background_scanStopped (s : State) (ctx : BitVec 10) (g : CfgRt) (cell : Nat) : Background s (s.scanStopped ctx g cell) :=
  (background_savePromotion ..).updCell_of_eq fun _ => rfl

theorem exec_scanComplete_of_running {s : State} (h : (s.cell s.choice.cell.toNat).issueStopped = false) :
    exec .scanComplete s = .next s := by
  change execScanComplete s = _
  unfold execScanComplete
  simp only [h, Bool.not_false, Bool.true_or, if_true]

theorem exec_scanComplete {s : State} {ctx : BitVec 10} {k : Nat} {g : CfgRt} {p : Place}
    (h : s.savers s.choice.cell.toNat true = [(ctx, k, g)])
    (hp : g.places.find? (fun p => decide (p.cell = s.choice.cell.toNat)) = some p)
    (hstopped : (s.cell s.choice.cell.toNat).issueStopped = true) :
    exec .scanComplete s = .next (if s.scanWaits s.choice.cell.toNat p.ver then s
      else (s.scanStopped ctx g s.choice.cell.toNat).saveCell ctx k s.choice.cell.toNat true) := by
  change execScanComplete s = _
  unfold execScanComplete
  dsimp only
  rw [h, hstopped]
  simp only [List.any_cons, List.any_nil, Bool.or_false, Bool.not_true, Bool.false_or, hp]
  rfl

/-! ### HOLD_THRESHOLD -/

/-- An engine request of a configuration's node has been held for a number of cycles (23:R347). -/
def State.requestsHeld (s : State) (c : CfgRt) (h : Nat) : Bool :=
  s.halls.any fun k => k.2.queues.any fun q => q.2.any fun r =>
    (r.heldSince.any fun a => decide (a + h ≤ s.now)) && c.places.any fun p =>
      r.node.cell = p.cell && r.node.ver = p.ver && r.node.node = p.node

theorem exec_holdThreshold {s : State} {g : CfgRt} (h : s.cfg s.choice.ctx s.choice.cfg = some g) :
    exec .holdThreshold s = .next (
      if (g.state = .ready || g.state = .live) && decide ((s.ctx s.choice.ctx).hold ≤ s.now)
          && (s.heldBefore g (s.now - (s.ctx s.choice.ctx).hold) || s.requestsHeld g (s.ctx s.choice.ctx).hold) then
        s.updCfg s.choice.ctx s.choice.cfg fun c =>
          { c with state := .draining, bySwap := true, byHold := true, resumed := false, deadline := s.now + 125000 }
      else s) := by
  change execHoldThreshold s = _
  unfold execHoldThreshold
  dsimp only
  rw [h]
  rfl

theorem heldBefore_of_node {s : State} {g : CfgRt} {at_ a : Nat} {p : Place} {n : Node} (hp : p ∈ g.places)
    (hn : s.node p.cell p.ver p.node = some n) (ha : n.heldSince = some a) (hle : a ≤ at_) : s.heldBefore g at_ = true := by
  have hget : (s.version p.cell p.ver).nodes[p.node]? = some n := hn
  unfold State.heldBefore
  refine List.any_eq_true.mpr ⟨p, hp, ?_⟩
  simp [hget, ha, hle]

end Sys2Proof.Machine

/-! # The deadline of a drain (23:R351; 24:R357) -/

namespace Sys2Proof.Machine

open Sys2Proof.Claims

/-- A cell holds a node of a configuration that has not halted. -/
def State.BusyCell (s : State) (g : CfgRt) (d : Nat) : Prop :=
  ∃ p ∈ g.places, p.cell = d ∧ ∃ n, s.node p.cell p.ver p.node = some n ∧ n.halted = false

/-- The cells with a node of a configuration that has not halted. -/
def State.openCells (s : State) (g : CfgRt) : List Nat :=
  (g.places.filter fun p => match s.node p.cell p.ver p.node with | some n => !n.halted | none => false).map (·.cell)

theorem mem_openCells (s : State) (g : CfgRt) (d : Nat) : d ∈ (s.openCells g).dedup ↔ s.BusyCell g d := by
  rw [List.mem_dedup]
  unfold State.openCells State.BusyCell
  simp only [List.mem_map, List.mem_filter]
  constructor
  · rintro ⟨p, ⟨hp, hopen⟩, rfl⟩
    refine ⟨p, hp, rfl, ?_⟩
    split at hopen
    · next n hn => exact ⟨n, hn, by simpa using hopen⟩
    · cases hopen
  · rintro ⟨p, hp, rfl, n, hn, hhalted⟩
    exact ⟨p, ⟨hp, by simp [hn, hhalted]⟩, rfl⟩

/-- Issue stops on cells, and the requests that wait there are accepted (23:R351; 24:R357). -/
def State.issueStopsOn (s : State) (bad : List Nat) : State :=
  each bad s fun s cell =>
    (s.updCell cell fun c => { c with issueStopped := true }).settlePromotions cell ((s.cell cell).promWaiting.length + 1)

/-- A configuration whose busy cells are to be scanned, and whose other cells go on to their saves (23:R351). -/
def CfgRt.scanFrom (bad : List Nat) (c : CfgRt) : CfgRt :=
  let scan := c.cells.filter bad.contains
  if scan.isEmpty then c
  else { c with state := .scanning, scanCells := scan, savingCells := c.cells.filter fun k => !bad.contains k }

/-- The configurations at their deadlines, in the drained set of the turn. -/
theorem exec_drainDeadline {s : State} {g : CfgRt} (h : s.drainedSet s.choice.ctx s.choice.cfg = [(s.choice.cfg, g)])
    (hstate : g.state = .draining) :
    exec .drainDeadline s = .next (
      if g.deadline ≤ s.now ∧ (s.openCells g).dedup ≠ [] then
        ((s.issueStopsOn (s.openCells g).dedup).updCfg s.choice.ctx s.choice.cfg (CfgRt.scanFrom (s.openCells g).dedup)).settleDrain
          s.choice.ctx s.choice.cfg
      else s) := by
  change execDrainDeadline s = _
  unfold execDrainDeadline
  dsimp only
  rw [h]
  by_cases hdue : g.deadline ≤ s.now
  · have hl : [(s.choice.cfg, g)].filter (fun c => decide (c.2.deadline ≤ s.now) && c.2.state = .draining) = [(s.choice.cfg, g)] := by
      simp [hdue, hstate]
    rw [hl, List.flatMap_cons, List.flatMap_nil, List.append_nil]
    by_cases hopen : (s.openCells g).dedup = []
    · exact congrArg _ ((if_pos (List.isEmpty_iff.mpr hopen)).trans (if_neg fun hp => hp.2 hopen).symm)
    · exact congrArg _ ((if_neg (mt List.isEmpty_iff.mp hopen)).trans (if_pos ⟨hdue, hopen⟩).symm)
  · have hl : [(s.choice.cfg, g)].filter (fun c => decide (c.2.deadline ≤ s.now) && c.2.state = .draining) = [] := by
      simp [hdue]
    rw [hl]
    exact congrArg _ (if_neg (c := g.deadline ≤ s.now ∧ (s.openCells g).dedup ≠ []) fun hp => hdue hp.1).symm

/-! ### What is stopped -/

theorem issueStopped_of_work {c d : Cell} (h : d.work = c.work) : d.issueStopped = c.issueStopped := by
  simp only [Cell.work, Prod.mk.injEq] at h
  exact h.2.2.2.2.2

theorem issueStopped_issueStopsOn (bad : List Nat) (s : State) (d : Nat) :
    ((s.issueStopsOn bad).cell d).issueStopped = if d ∈ bad then true else (s.cell d).issueStopped := by
  induction bad generalizing s with
  | nil => rfl
  | cons cell bad ih =>
    change ((State.issueStopsOn _ bad).cell d).issueStopped = _
    rw [ih]
    have hwork (k : Nat) := issueStopped_of_work ((background_settlePromotions cell k
      (s.updCell cell fun c => { c with issueStopped := true })).work d)
    rw [hwork]
    by_cases hd : d = cell
    · rw [hd, State.cell_updCell_same]
      simp
    · rw [State.cell_updCell_other _ _ hd]
      simp [hd]

theorem cfgAt_issueStopsOn (bad : List Nat) (s : State) (key : Nat) : (s.issueStopsOn bad).cfgAt key = s.cfgAt key := by
  unfold State.issueStopsOn
  refine each_keeps (P := fun t : State => t.cfgAt key = s.cfgAt key) (fun t cell h => ?_) bad rfl
  exact ((background_settlePromotions cell _ _).cfgs key).trans h

theorem cellsOf_scanFrom {bad : List Nat} {c : CfgRt} (h : ∃ d ∈ c.cells, d ∈ bad) :
    (c.scanFrom bad).state = .scanning ∧ (∀ d, d ∈ (c.scanFrom bad).scanCells ↔ d ∈ c.cells ∧ d ∈ bad)
      ∧ (∀ d, d ∈ (c.scanFrom bad).savingCells ↔ d ∈ c.cells ∧ d ∉ bad) := by
  obtain ⟨d, hd, hbad⟩ := h
  have hscan : (c.cells.filter bad.contains).isEmpty = false := by
    rw [List.isEmpty_eq_false_iff]
    exact List.ne_nil_of_mem (List.mem_filter.mpr ⟨hd, by simpa using hbad⟩)
  unfold CfgRt.scanFrom
  simp [hscan]

theorem mem_cells (g : CfgRt) (d : Nat) : d ∈ g.cells ↔ ∃ p ∈ g.places, p.cell = d := by
  rw [CfgRt.cells, List.mem_dedup, List.mem_map]

theorem cfgKey_inj {ctx : BitVec 10} {i j : Nat} (h : cfgKey ctx i = cfgKey ctx j) : i = j := Nat.add_left_cancel h

/-- Configurations that no longer drain stay as they are when the others go on to their saves. -/
theorem cfg_settleDrain {s : State} {ctx : BitVec 10} {i : Nat} {c : CfgRt} (h : s.cfg ctx i = some c) (hc : c.state ≠ .draining) (j : Nat) :
    (s.settleDrain ctx j).cfg ctx i = some c ∧ ∀ d, (s.settleDrain ctx j).cell d = s.cell d := by
  unfold State.settleDrain
  dsimp only
  split
  · refine each_keeps (P := fun t : State => t.cfg ctx i = some c ∧ ∀ d, t.cell d = s.cell d) (fun t x ht => ?_) _ ⟨h, fun _ => rfl⟩
    refine ⟨?_, fun d => (State.cell_updCfg ..).trans (ht.2 d)⟩
    by_cases hx : x.1 = i
    · rw [hx, State.cfg_updCfg_same ht.1, if_neg hc]
    · unfold State.updCfg
      split
      · exact ht.1
      · exact (tget_tput_other _ _ fun hk => hx (cfgKey_inj hk).symm).trans ht.1
  · exact ⟨h, fun _ => rfl⟩

theorem drainDeadline_scans {s : State} {g : CfgRt} (hg : s.cfg s.choice.ctx s.choice.cfg = some g)
    (hset : s.drainedSet s.choice.ctx s.choice.cfg = [(s.choice.cfg, g)]) (hstate : g.state = .draining) (hdue : g.deadline ≤ s.now)
    (hbusy : ∃ p ∈ g.places, s.BusyCell g p.cell) :
    ∃ s' g', exec .drainDeadline s = .next s' ∧ s'.cfg s.choice.ctx s.choice.cfg = some g' ∧ g'.state = .scanning
      ∧ (∀ d, d ∈ g'.scanCells ↔ s.BusyCell g d) ∧ (∀ d, d ∈ g'.savingCells ↔ (∃ p ∈ g.places, p.cell = d) ∧ ¬ s.BusyCell g d)
      ∧ (∀ d, s.BusyCell g d → (s'.cell d).issueStopped = true)
      ∧ ∀ d, ¬ s.BusyCell g d → (s'.cell d).issueStopped = (s.cell d).issueStopped := by
  obtain ⟨p, hp, hpbusy⟩ := hbusy
  have hopen := (mem_openCells s g p.cell).mpr hpbusy
  obtain ⟨g1, hg1, hout⟩ := cfg_of_cfgAt (cfgAt_issueStopsOn (s.openCells g).dedup s (cfgKey s.choice.ctx s.choice.cfg)) hg
  have hplaces : g1.places = g.places := (congrArg CfgRt.places hout :)
  have hcell (d : Nat) : d ∈ g1.cells ↔ ∃ p ∈ g.places, p.cell = d := by rw [mem_cells, hplaces]
  have hof (d : Nat) (hd : s.BusyCell g d) : ∃ p ∈ g.places, p.cell = d := hd.imp fun _ h => ⟨h.1, h.2.1⟩
  obtain ⟨hscanning, hscan, hsaving⟩ := cellsOf_scanFrom ⟨p.cell, (hcell _).mpr ⟨p, hp, rfl⟩, hopen⟩
  obtain ⟨hend, hcells⟩ := cfg_settleDrain (State.cfg_updCfg_same hg1 (CfgRt.scanFrom (s.openCells g).dedup))
    (by rw [hscanning]; decide) s.choice.cfg
  have hissue (d : Nat) := (congrArg Cell.issueStopped ((hcells d).trans (State.cell_updCfg ..))).trans
    (issueStopped_issueStopsOn (s.openCells g).dedup s d)
  refine ⟨_, _, (exec_drainDeadline hset hstate).trans (congrArg _ (if_pos ⟨hdue, List.ne_nil_of_mem hopen⟩)), hend, hscanning,
    fun d => ?_, fun d => ?_, fun d hd => ?_, fun d hd => ?_⟩
  · rw [hscan, hcell, mem_openCells]
    exact and_iff_right_of_imp (hof d)
  · rw [hsaving, hcell, mem_openCells]
  · rw [hissue, if_pos ((mem_openCells ..).mpr hd)]
  · rw [hissue, if_neg (mt (mem_openCells ..).mp hd)]

end Sys2Proof.Machine

/-! # Saves and deadlines as the claim says them (23:R347, R348, R350 to R353; 24:R357) -/

namespace Sys2Proof.Machine

open Sys2Proof.Claims

theorem not_saveWaits {s : State} {cell : Nat} {ver : Bool} (hflights : (s.cell cell).flights = []) (hbank : s.bankWritten cell = false)
    (hwaves : s.waveOwed cell ver = false)
    (hops : ¬ ∃ o ∈ (s.cell cell).ops, o.deferred = false ∧ ∃ t, tget (s.cell cell).tasks o.slot = some t ∧ t.ver = ver) :
    s.saveWaits cell ver = false := by
  have howed : s.opsOwed cell ver = false := Bool.eq_false_iff.mpr (mt (opsOwed_iff s cell ver).mp hops)
  simp [State.saveWaits, hflights, hbank, hwaves, howed]

theorem saveWaits_of {s : State} {cell : Nat} {ver : Bool} (h : s.bankWritten cell = true ∨ s.waveOwed cell ver = true
    ∨ (∃ o ∈ (s.cell cell).ops, o.deferred = false ∧ ∃ t, tget (s.cell cell).tasks o.slot = some t ∧ t.ver = ver)
    ∨ ∃ f ∈ (s.cell cell).flights, s.now < f.until_) : s.saveWaits cell ver = true := by
  rw [← opsOwed_iff, ← flying_iff] at h
  unfold State.saveWaits
  rcases h with h | h | h | h <;> simp only [h, Bool.true_or, Bool.or_true]

theorem not_scanWaits {s : State} {cell : Nat} {ver : Bool} (hflights : (s.cell cell).flights = []) (hbank : s.bankWritten cell = false)
    (hregion : (s.cell cell).regionOp = none) (hops : ∀ o ∈ (s.cell cell).ops, o.deferred = true)
    (hwaves : s.waveOwed cell ver = false) : s.scanWaits cell ver = false := by
  have howed : (s.cell cell).ops.any (fun o => !o.deferred) = false := by simpa using hops
  simp [State.scanWaits, hflights, hbank, hregion, howed, hwaves]

theorem scanWaits_of {s : State} {cell : Nat} {ver : Bool} (h : s.bankWritten cell = true ∨ (s.cell cell).regionOp ≠ none
    ∨ (∃ o ∈ (s.cell cell).ops, o.deferred = false) ∨ s.waveOwed cell ver = true
    ∨ ∃ f ∈ (s.cell cell).flights, s.now < f.until_) : s.scanWaits cell ver = true := by
  have howed : (∃ o ∈ (s.cell cell).ops, o.deferred = false) ↔ (s.cell cell).ops.any (fun o => !o.deferred) = true := by simp
  rw [howed, ← flying_iff, ← Option.isSome_iff_ne_none] at h
  unfold State.scanWaits
  rcases h with h | h | h | h | h <;> simp only [h, Bool.true_or, Bool.or_true]

theorem holdThreshold_of_old {s : State} {g : CfgRt} (hg : s.cfg s.choice.ctx s.choice.cfg = some g)
    (hstate : g.state = .ready ∨ g.state = .live)
    (hold : ∃ p ∈ g.places, ∃ n a, s.node p.cell p.ver p.node = some n ∧ n.heldSince = some a
      ∧ a + (s.ctx s.choice.ctx).hold ≤ s.now) :
    exec .holdThreshold s = .next (s.updCfg s.choice.ctx s.choice.cfg fun c =>
      { c with state := .draining, bySwap := true, byHold := true, resumed := false, deadline := s.now + 125000 }) := by
  obtain ⟨p, hp, n, a, hn, ha, hle⟩ := hold
  rw [exec_holdThreshold hg, if_pos]
  rw [heldBefore_of_node hp hn ha (Nat.le_sub_of_add_le hle), Bool.true_or, Bool.and_true, Bool.and_eq_true, Bool.or_eq_true]
  exact ⟨by simpa using hstate, decide_eq_true (le_of_add_le_right hle)⟩

theorem savesAndDeadlines : SavesAndDeadlines := by
  intro s
  dsimp only
  refine ⟨fun ctx k g p l hsavers hg hp => ⟨fun hidle hwaves hops => ?_, fun hwaits => ?_⟩,
    fun ctx k g p hsavers hg hp hstopped => ⟨fun hidle hregion hops hwaves => ?_, fun hwaits => ?_⟩,
    exec_scanComplete_of_running, fun g hset hg hstate => ⟨fun hearly => ?_, fun hdue hbusy => ?_⟩,
    fun g hg => ⟨holdThreshold_of_old hg, fun hready hlive => ?_, fun hearly => ?_⟩⟩
  · obtain ⟨-, -, hflights, hbank⟩ := hidle
    obtain ⟨g', u, hsaved⟩ := cellSaved_saveCell (.refl s) hg hp false
    refine ⟨_, g', u, (exec_cellSave hsavers hp).trans (congrArg _ (if_neg ?_)), hsaved⟩
    exact Bool.eq_false_iff.mp (not_saveWaits hflights hbank hwaves hops)
  · rw [exec_cellSave hsavers hp, if_pos (saveWaits_of hwaits)]
  · obtain ⟨-, -, hflights, hbank⟩ := hidle
    obtain ⟨g', u, hsaved⟩ := cellSaved_saveCell (background_scanStopped s ctx g s.choice.cell.toNat) hg hp true
    refine ⟨_, g', u, (exec_scanComplete hsavers hp hstopped).trans (congrArg _ (if_neg ?_)), hsaved⟩
    exact Bool.eq_false_iff.mp (not_scanWaits hflights hbank hregion hops hwaves)
  · rw [exec_scanComplete hsavers hp hstopped, if_pos (scanWaits_of hwaits)]
  · rw [exec_drainDeadline hset hstate, if_neg fun hp => absurd hp.1 (Nat.not_le.mpr hearly)]
  · exact drainDeadline_scans hg hset hstate hdue hbusy
  · rw [exec_holdThreshold hg]
    simp [hready, hlive]
  · rw [exec_holdThreshold hg]
    simp [Nat.not_le.mpr hearly]

end Sys2Proof.Machine

/-! # Decisions of a block scheduler, and the close of an epoch (05:R81, R86, R96; 23:R337, R338) -/

namespace Sys2Proof.Machine

open Sys2Proof.Claims

/-! ### SCHEDULER_TIMER -/

theorem decisionDue_iff (s : State) (h : Nat) :
    DecisionDue s h ↔ (!(s.hall h).switching) = true ∧ (0 < (s.hall h).due ∨
      ((s.cfgs.any fun c => c.2.home = h && s.candidate c.2) = true ∧ (s.hall h).lastDecision + 65536 ≤ s.now)) := by
  simp [DecisionDue]

theorem exec_schedulerTimer_of_due {s : State} (h : DecisionDue s s.choice.hall.toNat) :
    exec .schedulerTimer s = .next (s.makeDecision s.choice.hall.toNat s.choice) := by
  change execSchedulerTimer s = _
  unfold execSchedulerTimer
  exact congrArg _ (if_pos ((decisionDue_iff ..).mp h))

theorem exec_schedulerTimer_of_not_due {s : State} (h : ¬ DecisionDue s s.choice.hall.toNat) : exec .schedulerTimer s = .next s := by
  change execSchedulerTimer s = _
  unfold execSchedulerTimer
  exact congrArg _ (if_neg (mt (decisionDue_iff ..).mpr h))

/-! ### The parts of a decision -/

/-- A candidate that fits, with its placement and versions. -/
abbrev Fitting := Nat × CfgRt × Placement × List (Nat × Bool)

/-- Reserved candidates that are still candidates, in their order. -/
def Hall.reservedLine (y : Hall) (cands : List (Nat × CfgRt)) : List Nat :=
  (y.reserved.toList ++ y.reserveQueue).filter fun k => cands.any (·.1 = k)

/-- A decision is made: the event that asked for it is served. -/
def State.decisionOpened (s : State) (h : Nat) (line : List Nat) : State :=
  s.updHall h fun y =>
    { y with reserved := line.head?, reserveQueue := line.drop 1, lastDecision := s.now, due := y.due - 1 }

/-- The candidates that fit (23:R337). -/
def State.fitting (s : State) (x : Choice) (cands : List (Nat × CfgRt)) : List Fitting :=
  cands.filterMap fun (k, c) => (s.fits x k c).map fun y => (k, c, y.1, y.2)

/-- The candidate that a decision takes: the first reserved one where it fits, else the first in the order of R86. -/
def chosenFitting (fit : List Fitting) (line : List Nat) : Option Fitting :=
  (line.head?.bind fun r => fit.find? (·.1 = r)).or <|
    fit.foldl
      (fun (a : Option Fitting) y =>
        match a with
        | none => some y
        | some z => if y.2.1.before z.2.1 then some y else some z) none

/-- A key is that of the candidate taken. -/
def isChosen (pick : Option Fitting) (k : Nat) : Bool := match pick with | some y => y.1 = k | none => false

/-- Candidates that are not taken, and have waited for fifteen decisions, the oldest first (05:R86, 23:R338). -/
def lateCandidates (cands : List (Nat × CfgRt)) (picked : Nat → Bool) : List (Nat × CfgRt) :=
  sortBy (fun y => y.2.oldest) (cands.filter fun y => !picked y.1 && decide (14 ≤ y.2.count))

/-- Candidates that are not taken are counted where none is reserved, and reserved from the fifteenth decision on
(05:R86, 23:R338). -/
def State.decisionCounted (s : State) (h : Nat) (cands : List (Nat × CfgRt)) (line : List Nat) (picked : Nat → Bool) : State :=
  if line.isEmpty then
    let late := lateCandidates cands picked
    let s : State :=
      { s with cfgs := s.cfgs.map fun (k, c) =>
          (k, if cands.any (·.1 = k) && !picked k then { c with count := min 15 (c.count + 1) } else c) }
    s.updHall h fun y => { y with reserved := (late.head?).map (·.1), reserveQueue := (late.drop 1).map (·.1) }
  else
    s.updHall h fun y =>
      let rest := line.filter fun k => !picked k
      { y with reserved := rest.head?, reserveQueue := rest.drop 1 }

/-- The candidate taken is installed or restored (23:R339, R354). -/
def State.installChosen (s : State) (x : Choice) (pick : Option Fitting) : State :=
  match pick with
  | some (k, c, p, v) =>
    let ctx := BitVec.ofNat 10 (k / 65536)
    if c.state = CfgState.saved then s.restore x ctx (k % 65536) c p v else s.install ctx (k % 65536) c p v
  | none => s

/-- Claims that are no longer needed are released, and the reserved candidate is served (23:R338, R398). -/
def State.reservationServed (s : State) (h : Nat) (x : Choice) : State :=
  let s := s.releaseClaims h
  match (s.hall h).reserved with
  | some r => (s.claimFor x r).swapFor r
  | none => s

theorem makeDecision_eq (s : State) (h : Nat) (x : Choice) :
    s.makeDecision h x =
      let cands := candidatesOf s h
      let line := (s.hall h).reservedLine cands
      let opened := s.decisionOpened h line
      let pick := chosenFitting (opened.fitting x cands) line
      ((opened.decisionCounted h cands line (isChosen pick)).installChosen x pick).reservationServed h x := rfl

end Sys2Proof.Machine

/-! # A decision whose only candidate does not fit (05:R86; 23:R338, R398) -/

namespace Sys2Proof.Machine

open Sys2Proof.Claims

/-! ### A single candidate, none reserved -/

section

variable {s : State} {h k : Nat} {c : CfgRt}

theorem reservedLine_of_idle {y : Hall} (hres : y.reserved = none) (hqueue : y.reserveQueue = []) (cands : List (Nat × CfgRt)) :
    y.reservedLine cands = [] := by
  rw [Hall.reservedLine, hres, hqueue]
  rfl

theorem makeDecision_unfit {x : Choice} (hres : (s.hall h).reserved = none) (hqueue : (s.hall h).reserveQueue = [])
    (hcand : candidatesOf s h = [(k, c)]) (hfit : s.fits x k c = none) :
    s.makeDecision h x = ((s.decisionOpened h []).decisionCounted h [(k, c)] [] fun _ => false).reservationServed h x := by
  have hfitting : (s.decisionOpened h []).fitting x [(k, c)] = [] :=
    List.filterMap_cons_none (congrArg (Option.map _) (show (s.decisionOpened h []).fits x k c = none from hfit))
  rw [makeDecision_eq]
  dsimp only
  rw [hcand, reservedLine_of_idle hres hqueue, hfitting]
  rfl

theorem makeDecision_fit {x : Choice} {p : Placement} {v : List (Nat × Bool)} (hres : (s.hall h).reserved = none)
    (hqueue : (s.hall h).reserveQueue = []) (hcand : candidatesOf s h = [(k, c)]) (hfit : s.fits x k c = some (p, v))
    (hstate : c.state = .unplaced) :
    s.makeDecision h x = (((s.decisionOpened h []).decisionCounted h [(k, c)] [] fun j => decide (k = j)).install
      (BitVec.ofNat 10 (k / 65536)) (k % 65536) c p v).reservationServed h x := by
  have hfitting : (s.decisionOpened h []).fitting x [(k, c)] = [(k, c, p, v)] :=
    List.filterMap_cons_some (congrArg (Option.map _) (show (s.decisionOpened h []).fits x k c = some (p, v) from hfit))
  rw [makeDecision_eq]
  dsimp only
  rw [hcand, reservedLine_of_idle hres hqueue, hfitting]
  exact congrArg (State.reservationServed · h x) (if_neg (by rw [hstate]; decide))

/-- The agenda of a hall after a decision in which no candidate was reserved (05:R86). -/
theorem hall_decisionCounted (picked : Nat → Bool) :
    ((s.decisionOpened h []).decisionCounted h [(k, c)] [] picked).hall h
      = { s.hall h with
          lastDecision := s.now, due := (s.hall h).due - 1
          reserved := if !picked k && decide (14 ≤ c.count) then some k else none, reserveQueue := [] } := by
  have hopened : (s.decisionOpened h []).hall h
      = { s.hall h with reserved := none, reserveQueue := [], lastDecision := s.now, due := (s.hall h).due - 1 } :=
    State.hall_updHall_same ..
  have hcounted (t : State) : (t.decisionCounted h [(k, c)] [] picked).hall h
      = { t.hall h with
          reserved := ((lateCandidates [(k, c)] picked).head?).map (·.1)
          reserveQueue := ((lateCandidates [(k, c)] picked).drop 1).map (·.1) } := by
    unfold State.decisionCounted
    rw [List.isEmpty_nil, if_pos rfl]
    exact State.hall_updHall_same ..
  rw [hcounted, hopened]
  cases hlate : !picked k && decide (14 ≤ c.count)
  · rw [lateCandidates, List.filter_cons_of_neg (by simpa using hlate)]
    rfl
  · rw [lateCandidates, List.filter_cons_of_pos (by simpa using hlate)]
    rfl

/-- The counts of the configurations after a decision (05:R86). -/
theorem cfgs_decisionCounted (picked : Nat → Bool) :
    ((s.decisionOpened h []).decisionCounted h [(k, c)] [] picked).cfgs
      = s.cfgs.map fun y => (y.1, if k = y.1 ∧ picked y.1 = false then { y.2 with count := min 15 (y.2.count + 1) } else y.2) := by
  unfold State.decisionCounted State.decisionOpened
  rw [List.isEmpty_nil, if_pos rfl]
  refine List.map_congr_left fun y _ => ?_
  simp

end

/-! ### The reserved candidate's claims and its next swap-out -/

theorem mem_of_foldl_choice {α : Type} {f : Option α → α → Option α} (hf : ∀ a y, f a y = some y ∨ f a y = a) {l : List α} {z : α}
    (h : l.foldl f none = some z) : z ∈ l := by
  suffices hgen : ∀ (l : List α) (a : Option α), l.foldl f a = some z → a = some z ∨ z ∈ l from
    (hgen l none h).resolve_left nofun
  intro l
  induction l with
  | nil => exact fun a ha => .inl ha
  | cons y l ih =>
    intro a ha
    rcases ih (f a y) ha with hy | hy
    · rcases hf a y with hfy | hfy
      · rw [hfy, Option.some.injEq] at hy
        exact .inr (hy ▸ List.mem_cons_self)
      · exact .inl (hfy ▸ hy)
    · exact .inr (List.mem_cons_of_mem _ hy)

theorem ne_of_mem_holders {s : State} {key j : Nat} {c : CfgRt} (h : j ∈ s.holders key c) : j ≠ key := by
  unfold State.holders at h
  rw [List.mem_dedup, List.mem_filterMap] at h
  obtain ⟨⟨cell, v⟩, -, hy⟩ := h
  dsimp only at hy
  split_ifs at hy
  split at hy
  · split_ifs at hy with hkey
    rw [← Option.some.inj hy]
    exact hkey
  · cases hy

theorem cfgKey_split {key : Nat} (h : key < 2 ^ 26) : cfgKey (BitVec.ofNat 10 (key / 65536)) (key % 65536) = key := by
  rw [cfgKey, BitVec.toNat_ofNat, Nat.mod_eq_of_lt (by omega)]
  omega

/-- A swap-out is never that of the candidate itself. -/
theorem tget_swapFor {s : State} (hkeys : ∀ y ∈ s.cfgs, y.1 < 2 ^ 26) (key : Nat) :
    tget (s.swapFor key).cfgs key = tget s.cfgs key := by
  unfold State.swapFor
  split
  · rfl
  · next c hc =>
    dsimp only
    split
    · rfl
    · split
      · next j d hbest =>
        have hopen := mem_of_foldl_choice (fun a y => by
          cases a with
          | none => exact .inl rfl
          | some z => dsimp only; split <;> simp) hbest
        obtain ⟨hmem, -⟩ := List.mem_filter.mp hopen
        obtain ⟨i, hi, hd⟩ := List.mem_filterMap.mp hmem
        obtain ⟨d', hd', hpair⟩ := Option.map_eq_some_iff.mp hd
        obtain ⟨rfl, rfl⟩ := Prod.mk.inj hpair
        have hkey := cfgKey_split (hkeys _ (mem_of_tget hd'))
        unfold State.swapOut State.updCfg
        split
        · rfl
        · exact tget_tput_other _ _ fun hne => ne_of_mem_holders hi (hkey.symm.trans hne.symm)
      · rfl

theorem halls_swapFor (s : State) (key : Nat) : (s.swapFor key).halls = s.halls := by
  unfold State.swapFor
  split
  · rfl
  · dsimp only
    split
    · rfl
    · split
      · exact State.updCfg_halls ..
      · rfl

theorem halls_claimFor (s : State) (x : Choice) (key : Nat) : (s.claimFor x key).halls = s.halls := by
  unfold State.claimFor
  split <;> rfl

theorem halls_reservationServed (s : State) (h : Nat) (x : Choice) : (s.reservationServed h x).halls = s.halls := by
  unfold State.reservationServed
  dsimp only
  split
  · exact (halls_swapFor ..).trans (halls_claimFor ..)
  · rfl

/-- A configuration's count and state. -/
def CfgRt.standing (c : CfgRt) : Nat × CfgState := (c.count, c.state)

theorem standing_releaseClaims (s : State) (h key : Nat) :
    (tget (s.releaseClaims h).cfgs key).map CfgRt.standing = (tget s.cfgs key).map CfgRt.standing := by
  have hmap := tget_map (fun k (c : CfgRt) =>
    if c.home = h && c.state ≠ .loading && decide ((s.hall h).reserved ≠ some k) then { c with claims := [] } else c) s.cfgs key
  rw [State.releaseClaims]
  refine (congrArg (Option.map CfgRt.standing) hmap).trans ?_
  rw [Option.map_map]
  refine congrArg (fun f => (tget s.cfgs key).map f) (funext fun c => ?_)
  dsimp only [Function.comp]
  split <;> rfl

theorem standing_claimFor (s : State) (x : Choice) (key : Nat) :
    (tget (s.claimFor x key).cfgs key).map CfgRt.standing = (tget s.cfgs key).map CfgRt.standing := by
  unfold State.claimFor
  split
  · rfl
  · next c hc =>
    dsimp only
    rw [tget_tput_same, hc]
    rfl

theorem keys_claimFor {s : State} {x : Choice} {key : Nat} (h : ∀ y ∈ s.cfgs, y.1 < 2 ^ 26) :
    ∀ y ∈ (s.claimFor x key).cfgs, y.1 < 2 ^ 26 := by
  unfold State.claimFor
  split
  · exact h
  · next c hc =>
    intro y hy
    rcases mem_tput hy with rfl | hy
    · exact h (key, c) (mem_of_tget hc)
    · exact h y hy

theorem standing_reservationServed {s : State} {h key : Nat} {x : Choice} (hkeys : ∀ y ∈ s.cfgs, y.1 < 2 ^ 26)
    (hres : ∀ r, (s.hall h).reserved = some r → r = key) :
    (tget (s.reservationServed h x).cfgs key).map CfgRt.standing = (tget s.cfgs key).map CfgRt.standing := by
  unfold State.reservationServed
  dsimp only
  split
  · next r hr =>
    obtain rfl : r = key := hres r hr
    have hreleased : ∀ y ∈ (s.releaseClaims h).cfgs, y.1 < 2 ^ 26 := by
      intro y hy
      obtain ⟨z, hz, rfl⟩ := List.mem_map.mp hy
      exact hkeys z hz
    rw [tget_swapFor (keys_claimFor hreleased), standing_claimFor, standing_releaseClaims]
  · exact standing_releaseClaims s h key

/-- A decision whose only candidate does not fit (05:R86, 23:R338). -/
theorem makeDecision_unfit_outcome {s : State} {h k : Nat} {c : CfgRt} {x : Choice} (hres : (s.hall h).reserved = none)
    (hqueue : (s.hall h).reserveQueue = []) (hkeys : ∀ y ∈ s.cfgs, y.1 < 2 ^ 26) (hcand : candidatesOf s h = [(k, c)])
    (hc : tget s.cfgs k = some c) (hfit : s.fits x k c = none) :
    ((s.makeDecision h x).hall h).lastDecision = s.now ∧ ((s.makeDecision h x).hall h).due = (s.hall h).due - 1
      ∧ (∃ c', tget (s.makeDecision h x).cfgs k = some c' ∧ c'.count = min 15 (c.count + 1) ∧ c'.state = c.state)
      ∧ ((s.makeDecision h x).hall h).reserved = if c.count < 14 then none else some k := by
  rw [makeDecision_unfit hres hqueue hcand hfit]
  have hhall := hall_decisionCounted (s := s) (h := h) (k := k) (c := c) fun _ => false
  have hcfgs := cfgs_decisionCounted (s := s) (h := h) (k := k) (c := c) fun _ => false
  generalize (s.decisionOpened h []).decisionCounted h [(k, c)] [] (fun _ => false) = t at hhall hcfgs ⊢
  have hserved : (t.reservationServed h x).hall h = t.hall h := by
    rw [State.hall, halls_reservationServed]
    rfl
  have hstanding : (tget (t.reservationServed h x).cfgs k).map CfgRt.standing = some (min 15 (c.count + 1), c.state) := by
    rw [standing_reservationServed (fun y hy => ?_) fun r hr => ?_, hcfgs]
    · have hmap := tget_map (fun j (d : CfgRt) => if k = j ∧ false = false then { d with count := min 15 (d.count + 1) } else d) s.cfgs k
      rw [hc] at hmap
      rw [hmap]
      simp [CfgRt.standing]
    · rw [hcfgs] at hy
      obtain ⟨z, hz, rfl⟩ := List.mem_map.mp hy
      exact hkeys z hz
    · rw [hhall] at hr
      dsimp only at hr
      split_ifs at hr
      exact (Option.some.inj hr).symm
  obtain ⟨c', hc', hturn⟩ := Option.map_eq_some_iff.mp hstanding
  obtain ⟨hcount, hstate⟩ := Prod.mk.inj hturn
  rw [hserved, hhall]
  refine ⟨rfl, rfl, ⟨c', hc', hcount, hstate⟩, ?_⟩
  by_cases hlt : c.count < 14
  · simp [hlt]
  · simp [hlt, Nat.not_lt.mp hlt]

end Sys2Proof.Machine

/-! # What the images of an install leave of the placement (05:R72; 23:R399; 27:R378) -/

namespace Sys2Proof.Machine

open Sys2Proof.Claims

theorem background_logArray (s : State) (h code finder syndrome at_ : Nat) :
    Background s (s.logArray h code finder syndrome at_) := by
  unfold State.logArray
  exact background_updHall rfl

theorem background_raiseArray (s : State) (finder : Option NodeRef) (h syndrome at_ : Nat) :
    Background s (s.raiseArray finder h syndrome at_) := by
  unfold State.raiseArray
  cases finder with
  | none => exact (background_logArray ..).trans (background_chrono ..)
  | some n => exact background_nodeFault ..

theorem background_raiseOffline (s : State) (finder : Option NodeRef) (pa : Nat) : Background s (s.raiseOffline finder pa) := by
  unfold State.raiseOffline
  exact background_ite (.refl s) ((background_of_cachesOnly (cachesOnly_useFree s)).trans (background_raiseArray ..))

theorem background_writePhys (s : State) (pa n v : Nat) (poison : Bool) (by_ : Option NodeRef) (request : Option (Nat × Nat)) :
    Background s (s.writePhys pa n v poison by_ request) := by
  unfold State.writePhys
  refine background_ite ((background_writeHost ..).trans (background_of_eq rfl rfl rfl rfl rfl)) ?_
  have hwritten : Background s ((s.raiseOffline by_ pa).writeHome pa n v) :=
    (background_raiseOffline ..).trans (background_of_cachesOnly (cachesOnly_writeHome ..))
  exact background_ite (hwritten.trans (background_each (fun t i => background_of_cachesOnly (cachesOnly_setSectorPoison t ..)) _ _))
    hwritten

theorem background_writeImage (s : State) (ctx : BitVec 10) (i : Image) : Background s (s.writeImage ctx i).1 := by
  unfold State.writeImage
  refine each_keeps (P := fun y : State × Option (Nat × Nat × Nat) => Background s y.1) (fun y x h => ?_) _ (.refl s)
  dsimp only
  split
  · exact h.trans (background_writePhys ..)
  · exact h
  · exact h

theorem work_putImage (c : Cell) (i : Image) (r : Nat) : (c.putImage i r).work = c.work := by
  have hrows (l : List (Nat × Row)) (c : Cell) :
      (l.foldl (fun c e => if 512 ≤ e.1 then c else c.setRow e.1 e.2) c).work = c.work := by
    induction l generalizing c with
    | nil => rfl
    | cons e l ih =>
      rw [List.foldl_cons, ih]
      split <;> rfl
  unfold Cell.putImage
  dsimp only
  split
  · exact hrows _ c
  · exact hrows _ c

/-- An image is written, at bank rows or at a virtual address, with the fault of rows that do not translate (23:R399). -/
def State.installImage (s : State) (ctx : BitVec 10) (p : Placement) (places : List Place) (m : Image) : State :=
  match p.of m.node, m.bankRow with
  | some cell, some r => s.updCell cell fun x => x.putImage m r
  | some cell, none =>
    match s.writeImage ctx m with
    | (s, none) => s
    | (s, some (cause, va, n)) =>
      match places.find? (·.gid = m.node) with
      | some q => s.nodeFault (nodeRef cell q.ver q.node ctx 0) cause va n
      | none => s
  | none, _ => s

theorem background_installImage (s : State) (ctx : BitVec 10) (p : Placement) (places : List Place) (m : Image) :
    Background s (s.installImage ctx p places m) := by
  have himage := background_writeImage s ctx m
  unfold State.installImage
  split
  · exact background_updCell_of_eq fun x => work_putImage x m _
  · split
    · next t hwrite =>
      rw [hwrite] at himage
      exact himage
    · next t cause va n hwrite =>
      rw [hwrite] at himage
      split
      · exact himage.trans (background_nodeFault ..)
      · exact himage
  · exact .refl s

/-- A cell that has only the new version counts the regions written anew (23:R352). -/
def State.writtenReset (s : State) (vers : List (Nat × Bool)) : State :=
  each vers s fun s (cell, ver) =>
    s.updCell cell fun x => if (x.version (!ver)).state = .empty then { x with written := 0 } else x

theorem background_writtenReset (s : State) (vers : List (Nat × Bool)) : Background s (s.writtenReset vers) := by
  refine background_each (fun t y => ?_) vers s
  exact background_updCell_of_eq fun x => by split <;> rfl

theorem install_eq (s : State) (ctx : BitVec 10) (i : Nat) (c : CfgRt) (p : Placement) (vers : List (Nat × Bool)) :
    s.install ctx i c p vers =
      each c.spec.images (((s.loadVersions ctx i c.spec p vers).nowLoading ctx i c p vers false).writtenReset vers) fun s m =>
        s.installImage ctx p (c.spec.placesOf p vers) m := rfl

/-- What follows the LOADING of the configuration (23:R399). -/
theorem background_install (s : State) (ctx : BitVec 10) (i : Nat) (c : CfgRt) (p : Placement) (vers : List (Nat × Bool)) :
    Background ((s.loadVersions ctx i c.spec p vers).nowLoading ctx i c p vers false) (s.install ctx i c p vers) := by
  rw [install_eq]
  exact (background_writtenReset ..).trans (background_each (fun t m => background_installImage t ctx p _ m) _ _)

end Sys2Proof.Machine

/-! # An install makes its versions LOADING (05:R80, R81; 23:R337, R339, R398, R399) -/

namespace Sys2Proof.Machine

open Sys2Proof.Claims

/-! ### What loading leaves of the configurations and of the decisions -/

/-- Every configuration keeps its object's description, and no decision is made. -/
structure Placing (s t : State) : Prop where
  specs : ∀ key, (tget t.cfgs key).map CfgRt.spec = (tget s.cfgs key).map CfgRt.spec
  decision : ∀ h, (t.hall h).lastDecision = (s.hall h).lastDecision
  reserved : ∀ h, (t.hall h).reserved = (s.hall h).reserved

theorem Placing.refl (s : State) : Placing s s := ⟨fun _ => rfl, fun _ => rfl, fun _ => rfl⟩

theorem Placing.trans {s t u : State} (h : Placing s t) (g : Placing t u) : Placing s u where
  specs k := (g.specs k).trans (h.specs k)
  decision k := (g.decision k).trans (h.decision k)
  reserved k := (g.reserved k).trans (h.reserved k)

theorem Background.placing {s t : State} (h : Background s t) : Placing s t where
  specs key := by
    have hspec (o : Option CfgRt) : o.map CfgRt.spec = (o.map CfgRt.outsideStop).map CfgRt.spec := by rw [Option.map_map]; rfl
    rw [hspec, hspec (tget s.cfgs key)]
    exact congrArg (Option.map CfgRt.spec) (h.cfgs key)
  decision k := (congrArg Prod.fst (h.agenda k) :)
  reserved k := (congrArg (fun a => a.2.2.1) (h.agenda k) :)

theorem placing_each {α : Type} {f : State → α → State} (hf : ∀ t x, Placing t (f t x)) (l : List α) (s : State) :
    Placing s (each l s f) :=
  each_keeps (P := Placing s) (fun t x h => h.trans (hf t x)) l (.refl s)

theorem placing_updCell (s : State) (c : Nat) (f : Cell → Cell) : Placing s (s.updCell c f) :=
  ⟨fun _ => rfl, fun _ => rfl, fun _ => rfl⟩

theorem placing_due (s : State) (h : Nat) : Placing s (s.updHall h fun y => { y with due := y.due + 1 }) where
  specs _ := rfl
  decision k := by
    by_cases hk : k = h
    · rw [hk, State.hall_updHall_same]
    · rw [State.hall_updHall_other _ _ hk]
  reserved k := by
    by_cases hk : k = h
    · rw [hk, State.hall_updHall_same]
    · rw [State.hall_updHall_other _ _ hk]

theorem placing_updCfg {s : State} {ctx : BitVec 10} {i : Nat} {f : CfgRt → CfgRt} (hf : ∀ c, (f c).spec = c.spec) :
    Placing s (s.updCfg ctx i f) where
  specs key := by
    unfold State.updCfg
    split
    · rfl
    · next c hc =>
      rw [tget_tput]
      split
      · next h => rw [Option.map_some, hf, h]; exact (congrArg (Option.map CfgRt.spec) hc).symm
      · rfl
  decision h := by rw [State.hall, State.updCfg_halls]; rfl
  reserved h := by rw [State.hall, State.updCfg_halls]; rfl

theorem placing_noteCandidate (s : State) (ctx : BitVec 10) (i : Nat) : Placing s (s.noteCandidate ctx i) := by
  unfold State.noteCandidate
  split
  · exact .refl s
  · split
    · refine Placing.trans ?_ (placing_due ..)
      exact placing_updCfg fun _ => rfl
    · exact .refl s

theorem placing_uninstall (s : State) (ctx : BitVec 10) (i : Nat) : Placing s (s.uninstall ctx i) := by
  unfold State.uninstall
  split
  · exact .refl s
  · refine Placing.trans ?_ (placing_noteCandidate ..)
    refine Placing.trans (Placing.trans (placing_each (fun t cell => (background_savePromotion t cell _).placing) _ s)
      (placing_each (fun t y => ?_) _ _)) (placing_updCfg fun _ => rfl)
    exact (placing_updCell ..).trans (placing_due ..)

/-! ### The versions of an install -/

/-- READY configurations give up the versions that an install takes (05:R81). -/
def State.versionsFreed (s : State) (vers : List (Nat × Bool)) : State :=
  each vers s fun s (cell, ver) =>
    match (s.version cell ver).state, (s.version cell ver).owner with
    | .ready, some (k, j) => s.uninstall k j
    | _, _ => s

/-- A version is LOADING, with what the loader writes into it. -/
def State.loadVersion (s : State) (ctx : BitVec 10) (i : Nat) (c : CfgSpec) (p : Placement) (vers : List (Nat × Bool))
    (y : Nat × Bool) : State :=
  (if (s.cell y.1).split.toNat = c.l1At p y.1 then s else s.changeSplit y.1 (c.l1At p y.1)).updCell y.1 fun x =>
    (x.updVersion y.2 fun _ => c.versionAt p vers (ctx, i) y.1).updVersion (!y.2) fun v => { v with swept := false }

theorem loadVersions_eq (s : State) (ctx : BitVec 10) (i : Nat) (c : CfgSpec) (p : Placement) (vers : List (Nat × Bool)) :
    s.loadVersions ctx i c p vers = each vers (s.versionsFreed vers) fun s y => s.loadVersion ctx i c p vers y := rfl

theorem placing_versionsFreed (s : State) (vers : List (Nat × Bool)) : Placing s (s.versionsFreed vers) := by
  refine placing_each (fun t ⟨cell, ver⟩ => ?_) vers s
  dsimp only
  split
  · exact placing_uninstall ..
  · exact .refl t

theorem work_setRow (c : Cell) (r : Nat) (x : Row) : (c.setRow r x).work = c.work := rfl

theorem work_foldl_setRow (x : Row) (l : List Nat) (c : Cell) : (l.foldl (fun c r => c.setRow r x) c).work = c.work := by
  induction l generalizing c with
  | nil => rfl
  | cons r l ih => rw [List.foldl_cons, ih, work_setRow]

theorem background_changeSplit (s : State) (c n : Nat) : Background s (s.changeSplit c n) := by
  unfold State.changeSplit
  exact (background_flushL1 s c).updCell_of_eq fun x => work_foldl_setRow 0 _ x

theorem background_splitFor (s : State) (cell n : Nat) :
    Background s (if (s.cell cell).split.toNat = n then s else s.changeSplit cell n) :=
  background_ite (.refl s) (background_changeSplit ..)

theorem placing_loadVersions (s : State) (ctx : BitVec 10) (i : Nat) (c : CfgSpec) (p : Placement) (vers : List (Nat × Bool)) :
    Placing s (s.loadVersions ctx i c p vers) := by
  rw [loadVersions_eq]
  refine (placing_versionsFreed s vers).trans (placing_each (fun t y => ?_) vers _)
  exact (background_splitFor ..).placing.trans (placing_updCell ..)

theorem version_of_background {s t : State} (h : Background s t) (cell : Nat) (ver : Bool) : t.version cell ver = s.version cell ver := by
  have hwork := h.work cell
  cases ver
  · exact (congrArg Prod.fst hwork :)
  · exact (congrArg (fun w => w.2.1) hwork :)

theorem version_loadVersion_same (s : State) (ctx : BitVec 10) (i : Nat) (c : CfgSpec) (p : Placement) (vers : List (Nat × Bool))
    (y : Nat × Bool) : (s.loadVersion ctx i c p vers y).version y.1 y.2 = c.versionAt p vers (ctx, i) y.1 := by
  unfold State.loadVersion State.version
  rw [State.cell_updCell_same, Cell.version_updVersion_other _ _ (by cases y.2 <;> decide), Cell.version_updVersion_same]

theorem version_loadVersion_other (s : State) (ctx : BitVec 10) (i : Nat) (c : CfgSpec) (p : Placement) (vers : List (Nat × Bool))
    {y : Nat × Bool} {cell : Nat} (h : cell ≠ y.1) (ver : Bool) :
    (s.loadVersion ctx i c p vers y).version cell ver = s.version cell ver := by
  unfold State.loadVersion
  rw [State.version, State.cell_updCell_other _ _ h]
  exact version_of_background (background_splitFor ..) cell ver

/-- Each version of an install is what the loader writes, where no cell has two of them. -/
theorem version_loadVersions (s : State) (ctx : BitVec 10) (i : Nat) (c : CfgSpec) (p : Placement) {vers : List (Nat × Bool)}
    (h : (vers.map (·.1)).Nodup) : ∀ y ∈ vers, (s.loadVersions ctx i c p vers).version y.1 y.2 = c.versionAt p vers (ctx, i) y.1 := by
  rw [loadVersions_eq]
  suffices hgen : ∀ (l : List (Nat × Bool)) (t : State), (l.map (·.1)).Nodup →
      (∀ y ∈ l, (each l t fun s y => s.loadVersion ctx i c p vers y).version y.1 y.2 = c.versionAt p vers (ctx, i) y.1)
        ∧ ∀ cell, cell ∉ l.map (·.1) → ∀ ver, (each l t fun s y => s.loadVersion ctx i c p vers y).version cell ver = t.version cell ver from
    (hgen vers _ h).1
  intro l
  induction l with
  | nil => exact fun t _ => ⟨fun y hy => absurd hy List.not_mem_nil, fun _ _ _ => rfl⟩
  | cons z l ih =>
    intro t hnodup
    rw [List.map_cons, List.nodup_cons] at hnodup
    obtain ⟨hin, hout⟩ := ih (t.loadVersion ctx i c p vers z) hnodup.2
    refine ⟨fun y hy => ?_, fun cell hcell ver => ?_⟩
    · rcases List.mem_cons.mp hy with rfl | hy
      · exact (hout y.1 hnodup.1 y.2).trans (version_loadVersion_same ..)
      · exact hin y hy
    · rw [List.map_cons, List.mem_cons, not_or] at hcell
      exact (hout cell hcell.2 ver).trans (version_loadVersion_other t ctx i c p vers hcell.1 ver)

/-! ### The cells of a placement that fits -/

theorem map_fst_of_mapM {f : Nat → Option Bool} {l : List Nat} {v : List (Nat × Bool)}
    (h : (l.mapM fun cell => (f cell).map fun v => (cell, v)) = some v) : v.map (·.1) = l := by
  induction l generalizing v with
  | nil =>
    rw [List.mapM_nil] at h
    rw [← Option.some.inj h]
    rfl
  | cons cell l ih =>
    rw [List.mapM_cons] at h
    obtain ⟨y, hy, h⟩ := Option.bind_eq_some_iff.mp h
    obtain ⟨w, hw, h⟩ := Option.bind_eq_some_iff.mp h
    obtain ⟨b, -, rfl⟩ := Option.map_eq_some_iff.mp hy
    rw [← Option.some.inj h, List.map_cons, ih hw]

theorem nodup_of_fits {s : State} {x : Choice} {key : Nat} {c : CfgRt} {p : Placement} {v : List (Nat × Bool)}
    (h : s.fits x key c = some (p, v)) : (v.map (·.1)).Nodup := by
  unfold State.fits at h
  split_ifs at h
  obtain ⟨q, -, h⟩ := Option.bind_eq_some_iff.mp h
  obtain ⟨w, hw, h⟩ := Option.map_eq_some_iff.mp h
  obtain ⟨rfl, rfl⟩ := Prod.mk.inj h
  unfold State.fitAt at hw
  split_ifs at hw
  rw [map_fst_of_mapM hw]
  exact List.nodup_dedup _

end Sys2Proof.Machine

/-! # A decision whose only candidate fits (23:R337, R339) -/

namespace Sys2Proof.Machine

open Sys2Proof.Claims

section

variable (s : State) (ctx : BitVec 10) (i : Nat) (c : CfgRt) (p : Placement) (vers : List (Nat × Bool))

/-- The configuration as it is LOADING (23:R339). -/
def CfgRt.loadingOn (p : Placement) (vers : List (Nat × Bool)) (c : CfgRt) : CfgRt :=
  { c with
    state := .loading, loadPlaces := c.spec.placesOf p vers, loadingCells := vers.map (·.1), claims := vers, credits := []
    bySwap := false, byHold := false, resumed := false, restore := false, count := 0, candSince := none, stopPending := false
    phase := [], saved := [] }

theorem nowLoading_eq : s.nowLoading ctx i c p vers false =
    each (vers.map (·.1)) (s.updCfg ctx i (CfgRt.loadingOn p vers)) fun s cell => s.send (readyMsg c.home cell i ctx) := rfl

/-- The messages of an install change nothing else. -/
theorem each_send (f : Nat → Packet) (l : List Nat) (t : State) :
    (each l t fun t cell => t.send (f cell)) = { t with net := t.net ++ l.map f } := by
  induction l generalizing t with
  | nil => rw [List.map_nil, List.append_nil]; rfl
  | cons cell l ih =>
    refine (ih (t.send (f cell))).trans ?_
    rw [List.map_cons, List.append_cons]
    rfl

theorem nowLoading_cfg {c1 : CfgRt} (h : s.cfg ctx i = some c1) :
    (s.nowLoading ctx i c p vers false).cfg ctx i = some (c1.loadingOn p vers) := by
  rw [nowLoading_eq, each_send]
  exact State.cfg_updCfg_same h _

theorem nowLoading_version (cell : Nat) (ver : Bool) :
    (s.nowLoading ctx i c p vers false).version cell ver = s.version cell ver := by
  rw [nowLoading_eq, each_send]
  exact congrArg (Cell.version · ver) (State.cell_updCfg ..)

theorem nowLoading_hall (h : Nat) : (s.nowLoading ctx i c p vers false).hall h = s.hall h := by
  rw [nowLoading_eq, each_send, State.hall]
  exact congrArg (fun halls => tgetD halls {} h) (State.updCfg_halls ..)

theorem nowLoading_net {cell : Nat} (h : cell ∈ vers.map (·.1)) :
    readyMsg c.home cell i ctx ∈ (s.nowLoading ctx i c p vers false).net := by
  rw [nowLoading_eq, each_send]
  exact List.mem_append_right _ (List.mem_map_of_mem h)

end

/-- What an install sets of a configuration. -/
def CfgRt.loadPlan (c : CfgRt) : CfgState × List Place × List Nat := (c.state, c.loadPlaces, c.loadingCells)

theorem loadPlan_releaseClaims (s : State) (h key : Nat) :
    (tget (s.releaseClaims h).cfgs key).map CfgRt.loadPlan = (tget s.cfgs key).map CfgRt.loadPlan := by
  have hmap := tget_map (fun k (c : CfgRt) =>
    if c.home = h && c.state ≠ .loading && decide ((s.hall h).reserved ≠ some k) then { c with claims := [] } else c) s.cfgs key
  rw [State.releaseClaims]
  refine (congrArg (Option.map CfgRt.loadPlan) hmap).trans ?_
  rw [Option.map_map]
  refine congrArg (fun f => (tget s.cfgs key).map f) (funext fun c => ?_)
  dsimp only [Function.comp]
  split <;> rfl

theorem reservationServed_of_none {s : State} {h : Nat} (hres : (s.hall h).reserved = none) (x : Choice) :
    s.reservationServed h x = s.releaseClaims h := by
  have hreleased : ((s.releaseClaims h).hall h).reserved = none := hres
  unfold State.reservationServed
  dsimp only
  rw [hreleased]

/-- An install of a configuration: the claim's outcome. -/
theorem install_outcome {t : State} {k : Nat} (hkey : k < 2 ^ 26) {c c1 : CfgRt} (hc : tget t.cfgs k = some c1) (hspec : c1.spec = c.spec)
    (p : Placement) {v : List (Nat × Bool)} (hnodup : (v.map (·.1)).Nodup) :
    let ctx := BitVec.ofNat 10 (k / 65536)
    let s' := t.install ctx (k % 65536) c p v
    (tget s'.cfgs k).map CfgRt.loadPlan = some (.loading, c.spec.placesOf p v, v.map (·.1))
      ∧ (∀ y ∈ v, (s'.version y.1 y.2).state = .loading ∧ (s'.version y.1 y.2).owner = some (ctx, k % 65536))
      ∧ (∀ y ∈ v, readyMsg c.home y.1 (k % 65536) ctx ∈ s'.net)
      ∧ ∀ h, (s'.hall h).lastDecision = (t.hall h).lastDecision ∧ (s'.hall h).reserved = (t.hall h).reserved := by
  intro ctx s'
  have hkeys : cfgKey ctx (k % 65536) = k := cfgKey_split hkey
  have hload := placing_loadVersions t ctx (k % 65536) c.spec p v
  have hback := background_install t ctx (k % 65536) c p v
  obtain ⟨c2, hc2, hspec2⟩ : ∃ c2, (t.loadVersions ctx (k % 65536) c.spec p v).cfg ctx (k % 65536) = some c2 ∧ c2.spec = c.spec := by
    have hget := hload.specs k
    rw [hc] at hget
    obtain ⟨c2, hc2, h⟩ := Option.map_eq_some_iff.mp hget
    exact ⟨c2, by rw [State.cfg, hkeys]; exact hc2, h.trans hspec⟩
  obtain ⟨c3, hc3, hout⟩ := cfg_of_cfgAt (hback.cfgs (cfgKey ctx (k % 65536))) (nowLoading_cfg _ ctx (k % 65536) c p v hc2)
  refine ⟨?_, fun y hy => ?_, fun y hy => ?_, fun h => ?_⟩
  · have hget : tget s'.cfgs k = some c3 := by rw [← hkeys]; exact hc3
    have hstate : c3.state = .loading := state_of_outsideStop hout (by simp [CfgRt.outsideStop, CfgRt.loadingOn])
    have hplaces : c3.loadPlaces = c2.spec.placesOf p v := (congrArg CfgRt.loadPlaces hout :)
    have hcells : c3.loadingCells = v.map (·.1) := (congrArg CfgRt.loadingCells hout :)
    rw [hget, Option.map_some, CfgRt.loadPlan, hstate, hplaces, hcells, hspec2]
  · have hversion : s'.version y.1 y.2 = c.spec.versionAt p v (ctx, k % 65536) y.1 :=
      (version_of_background hback y.1 y.2).trans
        ((nowLoading_version ..).trans (version_loadVersions t ctx (k % 65536) c.spec p hnodup y hy))
    rw [hversion]
    exact ⟨rfl, rfl⟩
  · exact hback.net _ (nowLoading_net _ ctx (k % 65536) c p v (List.mem_map_of_mem hy))
  · have hhall := congrArg (fun x : Hall => (x.lastDecision, x.reserved))
      (nowLoading_hall (t.loadVersions ctx (k % 65536) c.spec p v) ctx (k % 65536) c p v h)
    obtain ⟨hlast, hreserved⟩ := Prod.mk.inj hhall
    exact ⟨(hback.placing.decision h).trans (hlast.trans (hload.decision h)),
      (hback.placing.reserved h).trans (hreserved.trans (hload.reserved h))⟩

/-- A decision whose only candidate fits (23:R337, R339). -/
theorem makeDecision_fit_outcome {s : State} {h k : Nat} {c : CfgRt} {x : Choice} {p : Placement} {v : List (Nat × Bool)}
    (hres : (s.hall h).reserved = none) (hqueue : (s.hall h).reserveQueue = []) (hkeys : ∀ y ∈ s.cfgs, y.1 < 2 ^ 26)
    (hcand : candidatesOf s h = [(k, c)]) (hc : tget s.cfgs k = some c) (hfit : s.fits x k c = some (p, v)) (hstate : c.state = .unplaced) :
    let ctx := BitVec.ofNat 10 (k / 65536)
    let s' := s.makeDecision h x
    ∃ c', tget s'.cfgs k = some c' ∧ c'.state = .loading ∧ c'.loadPlaces = c.spec.placesOf p v ∧ c'.loadingCells = v.map (·.1)
      ∧ (∀ y ∈ v, (s'.version y.1 y.2).state = .loading ∧ (s'.version y.1 y.2).owner = some (ctx, k % 65536))
      ∧ (∀ y ∈ v, readyMsg c.home y.1 (k % 65536) ctx ∈ s'.net)
      ∧ (s'.hall h).lastDecision = s.now := by
  dsimp only
  rw [makeDecision_fit hres hqueue hcand hfit hstate]
  have hhall := hall_decisionCounted (s := s) (h := h) (k := k) (c := c) fun j => decide (k = j)
  have hcfgs := cfgs_decisionCounted (s := s) (h := h) (k := k) (c := c) fun j => decide (k = j)
  generalize (s.decisionOpened h []).decisionCounted h [(k, c)] [] (fun j => decide (k = j)) = t at hhall hcfgs ⊢
  have hget : tget t.cfgs k = some c := by
    have hmap := tget_map (fun j (d : CfgRt) => if k = j ∧ decide (k = j) = false then { d with count := min 15 (d.count + 1) } else d) s.cfgs k
    rw [hc] at hmap
    rw [hcfgs, hmap]
    simp
  obtain ⟨hplan, hversions, hnet, hdecided⟩ := install_outcome (hkeys _ (mem_of_tget hc)) hget rfl p (nodup_of_fits hfit)
  have hnone : ((t.install (BitVec.ofNat 10 (k / 65536)) (k % 65536) c p v).hall h).reserved = none := by
    rw [(hdecided h).2, hhall]
    simp
  rw [reservationServed_of_none hnone]
  rw [← loadPlan_releaseClaims _ h] at hplan
  obtain ⟨c', hc', hplan⟩ := Option.map_eq_some_iff.mp hplan
  obtain ⟨hloading, hplan⟩ := Prod.mk.inj hplan
  obtain ⟨hplaces, hcells⟩ := Prod.mk.inj hplan
  refine ⟨c', hc', hloading, hplaces, hcells, hversions, hnet, ?_⟩
  exact ((hdecided h).1).trans (by rw [hhall])

end Sys2Proof.Machine

/-! # The scheduler, saves and deadlines (23:R337 to R339, R347 to R353; 05:R81, R86, R96) -/

namespace Sys2Proof.Machine

open Sys2Proof.Claims

/-! ### EPOCH_CLOSE -/

/-- An agent's copy of the placement table names a version for the configuration that owns it (23:R336). -/
def State.versionNamed (s : State) (cell : Nat) (ver : Bool) : Bool :=
  match (s.version cell ver).owner.bind fun y => s.cfg y.1 y.2 with
  | some c => (upTo 8).any fun h => (c.copy h).any fun p => p.cell = cell && p.ver = ver
  | none => false

theorem versionNamed_iff (s : State) (cell : Nat) (ver : Bool) :
    s.versionNamed cell ver = true ↔ ∃ o c, (s.version cell ver).owner = some o ∧ s.cfg o.1 o.2 = some c
      ∧ ∃ a < 8, ∃ p ∈ c.copy a, p.cell = cell ∧ p.ver = ver := by
  unfold State.versionNamed
  cases howner : (s.version cell ver).owner with
  | none => simp
  | some o =>
    rw [Option.bind_some]
    cases hcfg : s.cfg o.1 o.2 with
    | none => simp [hcfg]
    | some c => simp [hcfg, upTo]

theorem quiet_iff (s : State) (cell : Nat) (ver : Bool) :
    s.quiet cell ver = true ↔ ¬ ∃ p ∈ s.net, p.toVersion cell (s.version cell ver) ver = true := by
  simp [State.quiet]

/-- A version's epoch can close (05:R81). -/
def State.epochOver (s : State) (cell : Nat) (ver : Bool) : Bool :=
  (s.version cell ver).state = .empty && (s.version cell ver).epochOpen && s.quiet cell ver && !s.versionNamed cell ver

theorem epochOver_iff (s : State) (cell : Nat) (ver : Bool) :
    s.epochOver cell ver = true ↔ (s.version cell ver).state = .empty ∧ (s.version cell ver).epochOpen = true
      ∧ (¬ ∃ p ∈ s.net, p.toVersion cell (s.version cell ver) ver = true)
      ∧ ¬ ∃ o c, (s.version cell ver).owner = some o ∧ s.cfg o.1 o.2 = some c
        ∧ ∃ a < 8, ∃ p ∈ c.copy a, p.cell = cell ∧ p.ver = ver := by
  rw [State.epochOver, Bool.and_eq_true, Bool.and_eq_true, Bool.and_eq_true, decide_eq_true_eq, quiet_iff, Bool.not_eq_true',
    ← Bool.not_eq_true, versionNamed_iff, and_assoc, and_assoc]

/-- A version's epoch closes, and what waits for the configuration that owned it goes out (05:R81, 06:R96). -/
def State.epochClosed (s : State) (cell : Nat) (ver : Bool) : State :=
  match (s.version cell ver).owner with
  | some (ctx, i) => (s.updVersion cell ver fun v => { v with epochOpen := false }).deliverWaiting ctx i
  | none => s.updVersion cell ver fun v => { v with epochOpen := false }

theorem exec_epochClose (s : State) :
    exec .epochClose s = .next (
      if s.epochOver s.choice.cell.toNat s.choice.ver then
        ((s.epochClosed s.choice.cell.toNat s.choice.ver).updHall (hallOf s.choice.cell.toNat) fun h =>
          { h with due := h.due + 1 }).makeDecision (hallOf s.choice.cell.toNat) s.choice
      else s) := rfl

/-! ### The obligation -/

theorem schedulerDecides : SchedulerDecides := by
  intro s
  dsimp only
  refine ⟨exec_schedulerTimer_of_not_due, fun hdue hres hqueue hkeys k c hcand hc => ⟨fun p v hfit hstate => ?_, fun hfit => ?_⟩,
    fun hempty hopen hon hnamed => ⟨fun howner => ?_, fun o howner => ?_⟩, fun hstays => ?_⟩
  · obtain ⟨c', hloading⟩ := makeDecision_fit_outcome hres hqueue hkeys hcand hc hfit hstate
    exact ⟨_, c', exec_schedulerTimer_of_due hdue, hloading⟩
  · obtain ⟨hlast, hdone, hcount, hreserved⟩ := makeDecision_unfit_outcome hres hqueue hkeys hcand hc hfit
    exact ⟨_, exec_schedulerTimer_of_due hdue, hlast, hdone, hcount, hreserved⟩
  · rw [exec_epochClose, if_pos ((epochOver_iff ..).mpr ⟨hempty, hopen, hon, hnamed⟩), State.epochClosed, howner]
  · rw [exec_epochClose, if_pos ((epochOver_iff ..).mpr ⟨hempty, hopen, hon, hnamed⟩), State.epochClosed, howner]
  · rw [exec_epochClose, if_neg]
    intro hover
    obtain ⟨hempty, hopen, hon, hnamed⟩ := (epochOver_iff ..).mp hover
    rcases hstays with h | h | h | h
    · exact h hempty
    · rw [hopen] at h
      cases h
    · exact hon h
    · exact hnamed h

/-- Settles O46: a decision whose only candidate fits or not, taken part by part, and the save of a cell as what its version
held, what the barriers' retry leaves of the EMPTY version, and the end of the save. -/
theorem schedulingAndSaves : Obligations.SchedulingAndSaves := by
  unfold Obligations.SchedulingAndSaves
  exact ⟨schedulerDecides, savesAndDeadlines⟩

end Sys2Proof.Machine
